-- ==== Sys2Proof/Word.lean ====
section
/-!
DEFINITION. Word types of the LX-5: bytes, half words, lane words and control-core words, and the names of the
element formats and rounding modes that instruction words carry (R39, R49).
-/

namespace Sys2Proof

/-- One byte, the smallest addressable unit (R3). -/
abbrev Byte := BitVec 8
/-- One switch word (R60). -/
abbrev Half := BitVec 16
/-- One 32-bit word: a lane, a memory-tile word, a control word or an operation word (R60). -/
abbrev Word := BitVec 32
/-- One 64-bit word: a control-core register, a system register, a tagged pointer (R62). -/
abbrev DWord := BitVec 64

/-- Element formats, codes 0 to 9 of the table of R39. -/
inductive ElemFormat where
  | fp32 | fp16 | bf16 | f8a | f8b | dq4 | int8 | uint8 | int16 | int32
  deriving DecidableEq, Repr, Inhabited

/-- Rounding modes, codes 0 to 4 of R49. -/
inductive RoundMode where
  | nearestEven | nearestAway | towardZero | up | down
  deriving DecidableEq, Repr, Inhabited

end Sys2Proof
end

