-- ==== Sys2Proof/Machine/Bits.lean ====
section
/-!
DEFINITION. Bit fields, sign extension, byte order, and the two finite-map shapes the state is built from: maps from
numbers to values with a default, and lists read and written by index.
-/

namespace Sys2Proof.Machine

/-- Bits [lo + n − 1 : lo] of a natural number. -/
def bits (x lo n : Nat) : Nat := (x >>> lo) % 2 ^ n

/-- Bit `i` of a natural number. -/
def bitAt (x i : Nat) : Bool := x.testBit i

/-- A Bool as a bit. -/
def b2n (b : Bool) : Nat := if b then 1 else 0

/-- The two's-complement value of the low `n` bits of `x`. -/
def signed (n x : Nat) : Int :=
  let y := x % 2 ^ n
  if y < 2 ^ (n - 1) then (y : Int) else (y : Int) - (2 ^ n : Nat)

/-- The low `n` bits of an integer, as a natural number. -/
def wrapNat (n : Nat) (x : Int) : Nat := (x % (2 ^ n : Nat)).toNat

/-- SignExt of the low `n` bits of `x` to a 64-bit word (R9). -/
def signExt64 (n x : Nat) : DWord := BitVec.ofInt 64 (signed n x)

/-- Replaces bits [lo + n − 1 : lo] of `x` by the low bits of `v`. -/
def setBits (x lo n v : Nat) : Nat :=
  x - (bits x lo n) * 2 ^ lo + (v % 2 ^ n) * 2 ^ lo

/-- The number of bits of `x` up to its highest 1 (0 for 0). -/
def bitLen (x : Nat) : Nat := if x = 0 then 0 else Nat.log2 x + 1

/-- The number of 1 bits among the low `n` bits of `x`. -/
def popCount : Nat → Nat → Nat
  | 0, _ => 0
  | n + 1, x => b2n (x.testBit n) + popCount n x

/-- The indices of the 1 bits among the low `n` bits of `x`, in rising order. -/
def bitList (n x : Nat) : List Nat := (List.range n).filter (fun i => x.testBit i)

/-- The mask with a 1 at each index of the list. -/
def maskOf (l : List Nat) : Nat := l.foldl (fun acc i => acc ||| (1 <<< i)) 0

/-- ceil(a / b). -/
def ceilDiv (a b : Nat) : Nat := (a + b - 1) / b

/-- `x` rounded down to a multiple of `a`. -/
def alignDown (x a : Nat) : Nat := x - x % a

/-- Little-endian value of a list of bytes (R3). -/
def leValue : List Byte → Nat
  | [] => 0
  | b :: rest => b.toNat + 256 * leValue rest

/-- The `n` little-endian bytes of a value (R3). -/
def leBytes : Nat → Nat → List Byte
  | 0, _ => []
  | n + 1, v => BitVec.ofNat 8 v :: leBytes n (v / 256)

/-- Element `i` of a list, or a default. -/
def nth {α : Type} (d : α) (l : List α) (i : Nat) : α := l.getD i d

/-- The list with element `i` replaced (unchanged where there is none). -/
def setNth {α : Type} (l : List α) (i : Nat) (v : α) : List α := l.set i v

/-- The list with element `i` changed by `f`. -/
def modNth {α : Type} (l : List α) (i : Nat) (f : α → α) : List α :=
  match l[i]? with
  | some v => l.set i (f v)
  | none => l

/-- A map from numbers to values: entries in rising order of their keys, none repeated. -/
abbrev NMap (V : Type) := List (Nat × V)

/-- The entry of key `k`, if there is one. -/
def mapFind {V : Type} : NMap V → Nat → Option V
  | [], _ => none
  | (k', v) :: rest, k => if k' = k then some v else mapFind rest k

/-- The entry of key `k`, or the default where the map lists none. -/
def mapGet {V : Type} (d : V) (m : NMap V) (k : Nat) : V := (mapFind m k).getD d

/-- The map with key `k` holding `v`. -/
def mapSet {V : Type} : NMap V → Nat → V → NMap V
  | [], k, v => [(k, v)]
  | (k', v') :: rest, k, v =>
    if k = k' then (k, v) :: rest
    else if k < k' then (k, v) :: (k', v') :: rest
    else (k', v') :: mapSet rest k v

/-- The map without key `k`. -/
def mapDel {V : Type} (m : NMap V) (k : Nat) : NMap V := m.filter fun e => decide (e.1 ≠ k)

/-- The map whose entry of key `k` is `f` of what key `k` read as. -/
def mapMod {V : Type} (d : V) (m : NMap V) (k : Nat) (f : V → V) : NMap V := mapSet m k (f (mapGet d m k))

/-- The map with key `k` holding `v`, kept canonical: no entry equals the default. -/
def mapPut {V : Type} [DecidableEq V] (d : V) (m : NMap V) (k : Nat) (v : V) : NMap V :=
  if v = d then mapDel m k else mapSet m k v

/-- The list without its repeats of elements seen earlier. -/
def insertOnce (l : List Nat) (x : Nat) : List Nat := if l.contains x then l else l ++ [x]

/-- Consecutive pieces of length `n` (fuel-bounded, `n` > 0). -/
def chunks {α : Type} (n : Nat) : Nat → List α → List (List α)
  | 0, _ => []
  | k + 1, l => if l.isEmpty then [] else l.take n :: chunks n k (l.drop n)

end Sys2Proof.Machine
end

