-- ==== Sys2Proof/Syntax.lean ====
section
/-!
DEFINITION. The instructions and events of the LX-5: one constructor for each row of the opcode table. A control
word, an operation word or a switch word carries its fields as the encoding tables lay them out; an event carries what
the outside world brings to it, and the unit at which it happens is the one in focus, a field of the state.
-/

namespace Sys2Proof

/-- A node of one tile that a wavefront switches or that consumes a splice record (R205, R214). -/
inductive Node where
  | cell (c : Nat)
  | router
  | ux (k : Nat)
  | mtile (q : Nat)
  | gen (g : Nat)
  deriving DecidableEq, Repr

/-- The opcode table: control words (R73), operation words (R78), switch words (R82) and the events of the part's
units ("What each step holds"). -/
inductive Instr where
  /-- ADD (R265). Writes ga + gb modulo 2^64 to gd. -/
  | add (gd ga gb : BitVec 5)
  /-- SUB (R265). Writes ga - gb modulo 2^64 to gd. -/
  | sub (gd ga gb : BitVec 5)
  /-- AND (R265). Writes the bitwise AND of ga and gb to gd. -/
  | and (gd ga gb : BitVec 5)
  /-- OR (R265). Writes the bitwise OR of ga and gb to gd. -/
  | or (gd ga gb : BitVec 5)
  /-- XOR (R265). Writes the bitwise XOR of ga and gb to gd. -/
  | xor (gd ga gb : BitVec 5)
  /-- SLL (R265). Shifts ga left by gb[5:0] into gd. -/
  | sll (gd ga gb : BitVec 5)
  /-- SRL (R265). Shifts ga right logically by gb[5:0] into gd. -/
  | srl (gd ga gb : BitVec 5)
  /-- SRA (R265). Shifts ga right arithmetically by gb[5:0] into gd. -/
  | sra (gd ga gb : BitVec 5)
  /-- SLT (R265). Sets gd to 1 if ga < gb signed, else 0. -/
  | slt (gd ga gb : BitVec 5)
  /-- SLTU (R265). Sets gd to 1 if ga < gb unsigned, else 0. -/
  | sltu (gd ga gb : BitVec 5)
  /-- MUL (R265). Writes the low 64 bits of ga × gb to gd over 3 cycles. -/
  | mul (gd ga gb : BitVec 5)
  /-- MULH (R265). Writes the high 64 bits of the signed product to gd. -/
  | mulh (gd ga gb : BitVec 5)
  /-- MULHU (R265). Writes the high 64 bits of the unsigned product to gd. -/
  | mulhu (gd ga gb : BitVec 5)
  /-- DIV (R265). Writes the signed quotient rounded toward zero, with fixed results at the limits, over 20 cycles. -/
  | div (gd ga gb : BitVec 5)
  /-- DIVU (R265). Writes the unsigned quotient, all ones for a zero divisor. -/
  | divu (gd ga gb : BitVec 5)
  /-- REM (R265). Writes the signed remainder with the sign of ga. -/
  | rem (gd ga gb : BitVec 5)
  /-- REMU (R265). Writes the unsigned remainder. -/
  | remu (gd ga gb : BitVec 5)
  /-- MIN (R265). Writes the signed smaller of ga and gb. -/
  | min (gd ga gb : BitVec 5)
  /-- MAX (R265). Writes the signed larger of ga and gb. -/
  | max (gd ga gb : BitVec 5)
  /-- MINU (R265). Writes the unsigned smaller of ga and gb. -/
  | minu (gd ga gb : BitVec 5)
  /-- MAXU (R265). Writes the unsigned larger of ga and gb. -/
  | maxu (gd ga gb : BitVec 5)
  /-- CLZ (R266). Counts leading zero bits of ga. -/
  | clz (gd ga : BitVec 5)
  /-- CTZ (R266). Counts trailing zero bits of ga. -/
  | ctz (gd ga : BitVec 5)
  /-- POPC (R266). Counts set bits of ga. -/
  | popc (gd ga : BitVec 5)
  /-- BEXT (R266). Extracts a bit field of ga selected by gb into gd, zero-extended. -/
  | bext (gd ga gb : BitVec 5)
  /-- BINS (R266). Inserts the low bits of ga into a field of gd selected by gb. -/
  | bins (gd ga gb : BitVec 5)
  /-- PTAG (R266). Sets gd to 1 if ga passes step 1 of the pointer check for its space. -/
  | ptag (gd ga : BitVec 5)
  /-- PSPACE (R266). Builds a pointer of space gb[3:0] with offset ga[47:0]. -/
  | pspace (gd ga gb : BitVec 5)
  /-- PRANK (R266). Replaces the rank field of pointer ga with gb[8:0]. -/
  | prank (gd ga gb : BitVec 5)
  /-- PADD (R266). Adds gb to the offset of pointer ga modulo 2^48. -/
  | padd (gd ga gb : BitVec 5)
  /-- ADDI (R267). Adds the sign-extended immediate to ga into gd. -/
  | addi (gd ga : BitVec 5) (imm : BitVec 16)
  /-- ANDI (R267). ANDs ga with the zero-extended immediate. -/
  | andi (gd ga : BitVec 5) (imm : BitVec 16)
  /-- ORI (R267). ORs ga with the zero-extended immediate. -/
  | ori (gd ga : BitVec 5) (imm : BitVec 16)
  /-- XORI (R267). XORs ga with the zero-extended immediate. -/
  | xori (gd ga : BitVec 5) (imm : BitVec 16)
  /-- SLLI (R67). Shifts ga left by an immediate amount. -/
  | slli (gd ga : BitVec 5) (sh : BitVec 6)
  /-- SRLI (R67). Shifts ga right logically by an immediate amount. -/
  | srli (gd ga : BitVec 5) (sh : BitVec 6)
  /-- SRAI (R67). Shifts ga right arithmetically by an immediate amount. -/
  | srai (gd ga : BitVec 5) (sh : BitVec 6)
  /-- SLTI (R267). Sets gd to 1 if ga is below the sign-extended immediate, signed. -/
  | slti (gd ga : BitVec 5) (imm : BitVec 16)
  /-- SLTUI (R267). Sets gd to 1 if ga is below the sign-extended immediate, unsigned. -/
  | sltui (gd ga : BitVec 5) (imm : BitVec 16)
  /-- LUI (R67). Sets gd to the sign-extended immediate times 2^16. -/
  | lui (gd : BitVec 5) (imm : BitVec 16)
  /-- ADDPC (R67). Sets gd to the ADDPC's address plus four times the sign-extended immediate. -/
  | addpc (gd : BitVec 5) (imm : BitVec 16)
  /-- BR_EQ (R68). Branches by disp16 words if ga equals gb. -/
  | brEq (ga gb : BitVec 5) (imm : BitVec 16)
  /-- BR_NE (R68). Branches if ga differs from gb. -/
  | brNe (ga gb : BitVec 5) (imm : BitVec 16)
  /-- BR_LT (R68). Branches if ga < gb signed. -/
  | brLt (ga gb : BitVec 5) (imm : BitVec 16)
  /-- BR_GE (R68). Branches if ga ≥ gb signed. -/
  | brGe (ga gb : BitVec 5) (imm : BitVec 16)
  /-- BR_LO (R68). Branches if ga < gb unsigned. -/
  | brLo (ga gb : BitVec 5) (imm : BitVec 16)
  /-- BR_HS (R68). Branches if ga ≥ gb unsigned. -/
  | brHs (ga gb : BitVec 5) (imm : BitVec 16)
  /-- JMPL (R68). Writes the link to gd and jumps by disp21 words. -/
  | jmpl (gd : BitVec 5) (imm : BitVec 21)
  /-- JR (R68). Jumps to the private-memory offset in ga, raising misaligned on a bad target. -/
  | jr (ga : BitVec 5)
  /-- JRL (R68). Jumps to ga and writes the link into gd. -/
  | jrl (gd ga : BitVec 5)
  /-- LOOP (R29). Sets a hardware loop level's start, end and count, skipping the body for a count of 0. -/
  | loop (lvl : BitVec 2) (k : BitVec 1) (cnt : BitVec 9) (len : BitVec 14)
  /-- LEXIT (R270). Ends an active loop level and those nested in it and jumps past its end. -/
  | lexit (n : BitVec 5)
  /-- LREAD (R270). Reads a loop register of the current bank into gd. -/
  | lread (gd n : BitVec 5)
  /-- LD (R70). Loads a sign-extended datum through a checked pointer, optionally with acquire. -/
  | ld (g ga : BitVec 5) (sz ord : BitVec 2) (off : BitVec 12)
  /-- LDU (R70). Loads a zero-extended datum through a checked pointer. -/
  | ldu (g ga : BitVec 5) (sz ord : BitVec 2) (off : BitVec 12)
  /-- ST (R70). Stores a datum through a checked pointer, optionally with release. -/
  | st (g ga : BitVec 5) (sz ord : BitVec 2) (off : BitVec 12)
  /-- LDV (R159). Control-core versioned load of the local memory tile under the slot rules. -/
  | ldv (gd ga gb : BitVec 5)
  /-- STV (R159). Control-core versioned store under the slot rules. -/
  | stv (gs ga gb : BitVec 5)
  /-- RECL (R159). Control-core reclaim of a versioned slot, counting misses. -/
  | recl (ga gb : BitVec 5)
  /-- VQRY (R159). Returns the tag word of a versioned word. -/
  | vqry (gd ga : BitVec 5)
  /-- AMO_ADD (R274). Atomically adds gb to memory at its home and returns the old value. -/
  | amoAdd (gd ga gb : BitVec 5) (aq rl dbl : BitVec 1)
  /-- AMO_AND (R274). Atomic bitwise AND at the home. -/
  | amoAnd (gd ga gb : BitVec 5) (aq rl dbl : BitVec 1)
  /-- AMO_OR (R274). Atomic bitwise OR at the home. -/
  | amoOr (gd ga gb : BitVec 5) (aq rl dbl : BitVec 1)
  /-- AMO_XOR (R274). Atomic bitwise XOR at the home. -/
  | amoXor (gd ga gb : BitVec 5) (aq rl dbl : BitVec 1)
  /-- AMO_MIN (R274). Atomic signed minimum at the home. -/
  | amoMin (gd ga gb : BitVec 5) (aq rl dbl : BitVec 1)
  /-- AMO_MAX (R274). Atomic signed maximum at the home. -/
  | amoMax (gd ga gb : BitVec 5) (aq rl dbl : BitVec 1)
  /-- AMO_MINU (R274). Atomic unsigned minimum at the home. -/
  | amoMinu (gd ga gb : BitVec 5) (aq rl dbl : BitVec 1)
  /-- AMO_MAXU (R274). Atomic unsigned maximum at the home. -/
  | amoMaxu (gd ga gb : BitVec 5) (aq rl dbl : BitVec 1)
  /-- AMO_SWP (R274). Atomic swap of memory with gb. -/
  | amoSwp (gd ga gb : BitVec 5) (aq rl dbl : BitVec 1)
  /-- AMO_CAS (R274). Atomic compare-and-swap of memory against gd with gb. -/
  | amoCas (gd ga gb : BitVec 5) (aq rl dbl : BitVec 1)
  /-- AMO_FADD (R274). Atomic FP32 add rounded to nearest-even at the home. -/
  | amoFadd (gd ga gb : BitVec 5) (aq rl : BitVec 1)
  /-- AMO_FADD2 (R274). Atomic add of two FP16 halves at the home. -/
  | amoFadd2 (gd ga gb : BitVec 5) (aq rl : BitVec 1)
  /-- FENCE (R391). Stalls until earlier loads, stores and command acceptances are done, and for system scope until host delivery. -/
  | fence (scope : BitVec 5)
  /-- QFENCE (R392). Places a join behind this core's last command in each named queue. -/
  | qfence (ga : BitVec 5)
  /-- WAIT (R31). Stalls until each named outstanding counter is at or below its immediate, then retires as an acquire. -/
  | wait (ld st cp tl : BitVec 4)
  /-- TIME (R276). Reads the cycle counter into gd. -/
  | time (gd : BitVec 5)
  /-- SLEEP (R277). Idles the core until the cycle counter reaches ga. -/
  | sleep (ga : BitVec 5)
  /-- PCHK (R278). Reads the state of a copy ticket without waiting. -/
  | pchk (gd ga : BitVec 5)
  /-- SIN (R186). Checks a read stream parameter block and starts the generator. -/
  | sin (gd ga gb : BitVec 5)
  /-- SOUT (R186). Checks a write or addressed-write stream block and starts the generator. -/
  | sout (gd ga gb : BitVec 5)
  /-- SIDX (R186). Checks an indirect gather stream block and starts the generator. -/
  | sidx (gd ga gb : BitVec 5)
  /-- SKILL (R187). Stops a stream: a read sends a level-7 marker, a write discards uncommitted stores and drains. -/
  | skill (ga : BitVec 5)
  /-- SPOS (R187). Returns a stream's running flag, rounds committed and tokens moved. -/
  | spos (gd ga : BitVec 5)
  /-- CLOAD (R202). Checks a configuration image and starts writing it into a resident slot of the region's tiles. -/
  | cload (gd ga gb : BitVec 5)
  /-- CNEXT (R203). Activates a resident slot holding the given identifier on every tile of the region. -/
  | cnext (ga gb : BitVec 5)
  /-- NODE_SWITCH (R205). A node switches to the new image once the wavefront conditions hold, resetting its state. -/
  | nodeSwitch (node : Node)
  /-- CSPLICE (R211). Inserts a splice record behind the last item of a read stream. -/
  | csplice (gd ga gb : BitVec 5)
  /-- SPLICE_SINK (R214). The chain's sink consumes a splice record or failed marker and oc.tl falls. -/
  | spliceSink (node : Node)
  /-- CFRZ (R208). Freezes the selected tiles at firing boundaries and stops generators and utility nodes. -/
  | cfrz (ga : BitVec 5)
  /-- CTHAW (R208). Releases the selected frozen tiles. -/
  | cthaw (ga : BitVec 5)
  /-- CSAVE (R209). Freezes and writes the selected tiles' state through their readout chains to a save area. -/
  | csave (ga gb : BitVec 5)
  /-- CREST (R210). Checks a save area and writes the saved state back, leaving the tiles frozen. -/
  | crest (ga gb : BitVec 5)
  /-- BTOK (R305). Places a barrier token behind the last item of each named read stream. -/
  | btok (ga : BitVec 5)
  /-- BDRAIN (R306). Stalls until earlier barriers of the named generators have drained, then returns the cycle. -/
  | bdrain (gd ga : BitVec 5)
  /-- BOINIT (R308). Initialises a barrier object and releases its waiters. -/
  | boinit (ga gb : BitVec 5)
  /-- BOARR (R308). Records an arrival at a barrier object and latches its generation. -/
  | boarr (ga : BitVec 5)
  /-- BOWAIT (R308). Stalls until the object's generation differs from the latched one. -/
  | bowait (ga : BitVec 5)
  /-- BOXFER (R308). Adds inbound and outbound transfer counts to a barrier object. -/
  | boxfer (ga gb : BitVec 5)
  /-- TSUB (R300). Checks and copies a task record into a queue context and returns the task identifier. -/
  | tsub (gd ga gb : BitVec 5)
  /-- TQOPEN (R301). Opens the lowest free queue context for an ASID and returns its handle. -/
  | tqopen (gd ga : BitVec 5)
  /-- TQCLOSE (R301). Closes a queue, discarding its unstarted tasks. -/
  | tqclose (ga : BitVec 5)
  /-- TJOIN (R302). Stalls until a task is no longer pending and returns its status. -/
  | tjoin (gd ga : BitVec 5)
  /-- TSIG (R303). Atomically decrements a join counter at its home, saturating at zero. -/
  | tsig (ga : BitVec 5)
  /-- TSELF (R304). Returns the identifier of the region task this core leads, or all ones. -/
  | tself (gd : BitVec 5)
  /-- TK_WAKE_WRITE (R295). A SYSW of tk.wake checks and arms the start of a helper core of the region. -/
  | tkWakeWrite (v : DWord)
  /-- CPY (R316). Queues a linear copy on the branch copy engine and returns a ticket. -/
  | cpy (gd ga gb : BitVec 5)
  /-- CPY2D (R316). Queues a strided two-dimensional copy. -/
  | cpy2d (gd ga gb : BitVec 5)
  /-- CPYG (R316). Queues a gather copy through an index list. -/
  | cpyg (gd ga gb : BitVec 5)
  /-- CPYZ (R316). Queues a zero fill of a destination range. -/
  | cpyz (gd ga : BitVec 5)
  /-- CPQ (R320). Returns a copy's promise, completion cycle or fault prefix, re-arming a missed promise. -/
  | cpq (gd ga : BitVec 5)
  /-- SCOP (R245). Sets the scan engine's operator word and resets its generation and carry. -/
  | scop (ga : BitVec 5)
  /-- SCGO (R246). Queues an in-place memory-mode scan of a run of elements. -/
  | scgo (gd ga gb : BitVec 5)
  /-- SCCIN (R247). Sets the carry of the open generation from a carry record. -/
  | sccin (ga : BitVec 5)
  /-- SCCOUT (R248). Waits for queued generations to close and stores the last carry-out record. -/
  | sccout (gd : BitVec 5)
  /-- SCBAR (R249). Appends a close count for the next generation. -/
  | scbar (ga : BitVec 5)
  /-- PGHINT (R345). Posts a kind-4 hint notification for a page. -/
  | pghint (ga gb : BitVec 5)
  /-- PGMOVE (R346). Requests migration of a page to another tier and returns the agent's answer. -/
  | pgmove (gd ga gb : BitVec 5)
  /-- PGQRY (R347). Returns a page's stage-B entry with its hotness count or motion progress. -/
  | pgqry (gd ga : BitVec 5)
  /-- PGDISC (R348). Discards a page, cancelling any motion, and optionally reclaims its frame. -/
  | pgdisc (ga gb : BitVec 5)
  /-- PGNOTE (R349). Takes the next notification entry of the partition's queue. -/
  | pgnote (gd : BitVec 5)
  /-- PGTHR (R350). Sets or frees a page's hotness threshold entry. -/
  | pgthr (ga gb : BitVec 5)
  /-- PSEND (R417). Builds and injects a packet from a payload to a tile or peer device. -/
  | psend (gd ga gb : BitVec 5)
  /-- PMASK (R418). Masks packet classes for delivery. -/
  | pmask (ga : BitVec 5)
  /-- PUNMASK (R418). Unmasks packet classes. -/
  | punmask (ga : BitVec 5)
  /-- PBIND (R419). Binds or unbinds a packet class to a task template and receive ring. -/
  | pbind (ga gb : BitVec 5)
  /-- PEER_PACKET_ARRIVAL (R414). A peer packet arrives at the receiving chiplet and is re-routed to its tile or dropped. -/
  | peerPacketArrival (head : BitVec 256) (payload : List (BitVec 256))
  /-- PCREATE (R368). Creates a partition or sub-partition from a create block. -/
  | pcreate (gd ga gb : BitVec 5)
  /-- PQUOTA (R369). Sets a quota of a partition or sub-partition. -/
  | pquota (ga gb : BitVec 5)
  /-- PGRANT (R370). Grants rights, tiles, an extent or a tier mask. -/
  | pgrant (ga gb : BitVec 5)
  /-- PREVOKE (R370). Revokes rights, tiles, an extent or tier-mask bits. -/
  | prevoke (ga gb : BitVec 5)
  /-- PSLICE (R371). Sets a time-slice schedule on a tile block. -/
  | pslice (ga gb : BitVec 5)
  /-- PDESTROY (R372). Destroys a partition or sub-partition and releases its resources. -/
  | pdestroy (ga : BitVec 5)
  /-- AALLOC (R373). Allocates the lowest free ASID with a stage-A root. -/
  | aalloc (gd ga : BitVec 5)
  /-- AFREE (R373). Invalidates and frees an ASID. -/
  | afree (ga : BitVec 5)
  /-- TINV (R374). Removes named entries from every translation cache and retires when done. -/
  | tinv (ga gb : BitVec 5)
  /-- SYSR (R264). Reads a system register into gd under the level rule. -/
  | sysr (gd : BitVec 5) (sysreg : BitVec 12)
  /-- SYSW (R264). Writes ga to the RW fields of a system register that has no behaviour of its own. -/
  | sysw (ga : BitVec 5) (sysreg : BitVec 12)
  /-- PM_FPUSH_WRITE (R331). A write to pm.fpush appends a frame to a tier's pool ring, or raises cause 23. -/
  | pmFpushWrite (v : DWord)
  /-- RING_SIZE_WRITE (R331). A write to the size field of pm.fpctl or pm.nqctl resets the ring's head and count. -/
  | ringSizeWrite (ring : Nat) (v : DWord)
  /-- RT_SIDE_WRITE (R403). Sets a frozen side-port cell's selection as a t3 token would. -/
  | rtSideWrite (v : DWord)
  /-- RT_ASID_WRITE (R362). Sets the core's ASID, raising privilege for an ASID outside its sub-partition. -/
  | rtAsidWrite (v : DWord)
  /-- TRAP (R281). Raises a service request to the next more privileged level. -/
  | trap (code : BitVec 12)
  /-- BRK (R283). Raises a breakpoint trap. -/
  | brk (code : BitVec 12)
  /-- FADD (R122). Lane-wise floating add rounded to nearest-even. -/
  | fadd (vd va vb : BitVec 5) (w : BitVec 2) (pm : BitVec 4)
  /-- FSUB (R122). Lane-wise floating subtract. -/
  | fsub (vd va vb : BitVec 5) (w : BitVec 2) (pm : BitVec 4)
  /-- FMUL (R122). Lane-wise floating multiply. -/
  | fmul (vd va vb : BitVec 5) (w : BitVec 2) (pm : BitVec 4)
  /-- FMA (R122). Lane-wise fused multiply-add with one rounding. -/
  | fma (vd va vb vc : BitVec 5) (w : BitVec 2) (pm : BitVec 4)
  /-- FMS (R122). Lane-wise fused multiply-subtract with one rounding. -/
  | fms (vd va vb vc : BitVec 5) (w : BitVec 2) (pm : BitVec 4)
  /-- FMIN (R123). Lane-wise floating minimum. -/
  | fmin (vd va vb : BitVec 5) (w : BitVec 2) (pm : BitVec 4)
  /-- FMAX (R123). Lane-wise floating maximum. -/
  | fmax (vd va vb : BitVec 5) (w : BitVec 2) (pm : BitVec 4)
  /-- FABS (R124). Clears each element's sign bit. -/
  | fabs (vd va : BitVec 5) (w : BitVec 2) (pm : BitVec 4)
  /-- FNEG (R124). Inverts each element's sign bit. -/
  | fneg (vd va : BitVec 5) (w : BitVec 2) (pm : BitVec 4)
  /-- FCPYS (R124). Copies the sign of vb onto the magnitude of va. -/
  | fcpys (vd va vb : BitVec 5) (w : BitVec 2) (pm : BitVec 4)
  /-- FXSGN (R124). XORs the sign of va with the sign of vb. -/
  | fxsgn (vd va vb : BitVec 5) (w : BitVec 2) (pm : BitVec 4)
  /-- FCMP (R125). Floating comparison writing a lane mask. -/
  | fcmp (m : BitVec 2) (va vb : BitVec 5) (cond : BitVec 3) (w : BitVec 2) (pm : BitVec 4)
  /-- SEL (R126). Selects va or vb per lane by a mask. -/
  | sel (vd va vb : BitVec 5) (mask : BitVec 2) (pm : BitVec 4)
  /-- IADD (R127). Lane-wise integer add modulo the width. -/
  | iadd (vd va vb : BitVec 5) (w : BitVec 2) (pm : BitVec 4)
  /-- ISUB (R127). Lane-wise integer subtract. -/
  | isub (vd va vb : BitVec 5) (w : BitVec 2) (pm : BitVec 4)
  /-- IMUL (R127). Lane-wise integer multiply, low or signed or unsigned high half. -/
  | imul (vd va vb : BitVec 5) (half w : BitVec 2) (pm : BitVec 4)
  /-- IMAD (R127). Lane-wise integer multiply-add, low half. -/
  | imad (vd va vb vc : BitVec 5) (w : BitVec 2) (pm : BitVec 4)
  /-- IMIN (R127). Lane-wise integer minimum, signed or unsigned. -/
  | imin (vd va vb : BitVec 5) (uns : BitVec 1) (w : BitVec 2) (pm : BitVec 4)
  /-- IMAX (R127). Lane-wise integer maximum, signed or unsigned. -/
  | imax (vd va vb : BitVec 5) (uns : BitVec 1) (w : BitVec 2) (pm : BitVec 4)
  /-- IAND (R127). Lane-wise bitwise AND. -/
  | iand (vd va vb : BitVec 5) (w : BitVec 2) (pm : BitVec 4)
  /-- IOR (R127). Lane-wise bitwise OR. -/
  | ior (vd va vb : BitVec 5) (w : BitVec 2) (pm : BitVec 4)
  /-- IXOR (R127). Lane-wise bitwise XOR. -/
  | ixor (vd va vb : BitVec 5) (w : BitVec 2) (pm : BitVec 4)
  /-- ISHL (R127). Lane-wise shift left. -/
  | ishl (vd va vb : BitVec 5) (w : BitVec 2) (pm : BitVec 4)
  /-- ISHR (R127). Lane-wise shift right, arithmetic or logical. -/
  | ishr (vd va vb : BitVec 5) (logical : BitVec 1) (w : BitVec 2) (pm : BitVec 4)
  /-- ICMP (R128). Integer comparison writing a lane mask. -/
  | icmp (m : BitVec 2) (va vb : BitVec 5) (cond : BitVec 3) (w : BitVec 2) (pm : BitVec 4)
  /-- IADDI (R129). Adds a sign-extended 12-bit immediate to each lane. -/
  | iaddi (vd va : BitVec 5) (imm : BitVec 12) (pm : BitVec 4)
  /-- MOVI (R129). Sets each lane to a sign-extended 12-bit immediate. -/
  | movi (vd : BitVec 5) (imm : BitVec 12) (pm : BitVec 4)
  /-- CVT (R131). Converts elements between two formats of one width under a conversion control. -/
  | cvt (vd va : BitVec 5) (wid skind dkind : BitVec 2) (ctl : BitVec 9)
  /-- PACK (R132). Converts a 32-bit lane into one element of a narrower format in vd. -/
  | pack (vd va : BitVec 5) (skind : BitVec 1) (dfmt : BitVec 4) (sel : BitVec 2) (ctl : BitVec 9)
  /-- UNPK (R133). Widens one element into a full 32-bit lane exactly. -/
  | unpk (vd va : BitVec 5) (sfmt : BitVec 4) (sel : BitVec 2)
  /-- DQDEC (R134). Decodes part of a DQ4 block into FP32, FP16 or BF16. -/
  | dqdec (vd va vb vc : BitVec 5) (dfmt : BitVec 2) (part : BitVec 3)
  /-- DQENC (R135). Encodes a 64-element block into DQ4 codes and an SB8 scale. -/
  | dqenc (vd va vb : BitVec 5) (sfmt : BitVec 2) (ctl : BitVec 9)
  /-- RCPA (R136). Approximate reciprocal of each lane. -/
  | rcpa (vd va : BitVec 5) (pm : BitVec 4)
  /-- RSQA (R136). Approximate reciprocal square root. -/
  | rsqa (vd va : BitVec 5) (pm : BitVec 4)
  /-- EXP2A (R136). Approximate base-2 exponential. -/
  | exp2a (vd va : BitVec 5) (pm : BitVec 4)
  /-- LOG2A (R136). Approximate base-2 logarithm. -/
  | log2a (vd va : BitVec 5) (pm : BitVec 4)
  /-- SINPA (R136). Approximate sin(π·x). -/
  | sinpa (vd va : BitVec 5) (pm : BitVec 4)
  /-- COSPA (R136). Approximate cos(π·x). -/
  | cospa (vd va : BitVec 5) (pm : BitVec 4)
  /-- RCPSTEP (R137). One Newton step refining a reciprocal. -/
  | rcpstep (vd va vb : BitVec 5) (pm : BitVec 4)
  /-- RSQSTEP (R137). One Newton step refining a reciprocal square root. -/
  | rsqstep (vd va vb : BitVec 5) (pm : BitVec 4)
  /-- RED (R138). Reduces across all lanes in a fixed tree and broadcasts the result. -/
  | red (vd va : BitVec 5) (int : BitVec 1) (op w : BitVec 2) (pm : BitVec 4)
  /-- PERM (R139). Permutes lanes by per-lane source indices. -/
  | perm (vd va vb : BitVec 5) (pm : BitVec 4)
  /-- LSHF (R140). Shifts lanes by a signed distance, filling with zero. -/
  | lshf (vd va dist : BitVec 5) (pm : BitVec 4)
  /-- BCST (R141). Broadcasts one source lane to every lane. -/
  | bcst (vd va vb : BitVec 5) (pm : BitVec 4)
  /-- RECV (R108). Takes reserved items from a port into registers with an optional marker test. -/
  | recv (v port n : BitVec 5) (lvl : BitVec 3) (flg pm : BitVec 4)
  /-- SEND (R110). Sends register items into reserved output slots or to an engine port. -/
  | send (v port n : BitVec 5) (lvl : BitVec 3) (flg pm : BitVec 4)
  /-- PEEK (R109). Copies a reserved input item without taking it. -/
  | peek (v : BitVec 5) (port : BitVec 3) (n : BitVec 5) (lvl : BitVec 3) (flg pm : BitVec 4)
  /-- SENDM (R111). Forwards data or a marker according to the tag last taken from an input. -/
  | sendm (v port : BitVec 5) (inp lvl : BitVec 3) (pm : BitVec 4)
  /-- MKLV (R112). Sends one end marker of a level. -/
  | mklv (port : BitVec 5) (lvl : BitVec 3)
  /-- TOKS (R113). Sends one control token on a token port. -/
  | toks (port : BitVec 2) (flg : BitVec 4)
  /-- BR (R114). Branches within a firing on a token or mask condition. -/
  | br (cc : BitVec 4) (src : BitVec 6) (disp : BitVec 10)
  /-- CLOOP (R115). Runs a counted loop inside a firing. -/
  | cloop (k : BitVec 1) (cnt : BitVec 9) (len : BitVec 10) (lvl : BitVec 2)
  /-- TLD (R153). Plain memory-tile load, contiguous or gathered. -/
  | tld (v va : BitVec 5) (q g : BitVec 1) (pm : BitVec 4)
  /-- TST (R153). Plain memory-tile store, contiguous or scattered. -/
  | tst (v va : BitVec 5) (q g : BitVec 1) (pm : BitVec 4)
  /-- TLDV (R156). Versioned memory-tile load under the slot rules. -/
  | tldv (v va vv : BitVec 5) (q : BitVec 1) (pm : BitVec 4)
  /-- TSTV (R156). Versioned memory-tile store under the slot rules. -/
  | tstv (v va vv : BitVec 5) (q : BitVec 1) (pm : BitVec 4)
  /-- TRCL (R157). Reclaims versioned slots without waiting, recording misses. -/
  | trcl (va vv : BitVec 5) (q : BitVec 1) (mk : BitVec 2) (pm : BitVec 4)
  /-- WLD (R163). Reads a window element with ghost policies, waiting for its row. -/
  | wld (vd va : BitVec 5) (q win : BitVec 1) (dy dx : BitVec 3) (pm : BitVec 4)
  /-- WADV (R164). Reclaims the window's oldest row and advances its centre. -/
  | wadv (q win : BitVec 1)
  /-- MWLD (R220). Starts loading the shadow weight plane from a memory tile. -/
  | mwld (v : BitVec 5) (t q : BitVec 1) (fmt : BitVec 4)
  /-- MAST (R229). Drains an accumulator row to registers with conversion. -/
  | mast (v vn : BitVec 5)
  /-- MAST_PRESET (R229). Presets an accumulator row from registers. -/
  | mastPreset (v vn : BitVec 5)
  /-- MACC (R225). Multiplies an operand row by the active plane into an accumulator row. -/
  | macc (v row : BitVec 5) (z : BitVec 1) (seg : BitVec 2) (fmt : BitVec 4)
  /-- ISECT (R191). Feeds an item or close to an intersect unit input. -/
  | isect (v : BitVec 5) (ux : BitVec 1) (lvl : BitVec 3) (inB : BitVec 1)
  /-- SACC (R191). Feeds pairs or a close to a sparse accumulator. -/
  | sacc (v : BitVec 5) (ux : BitVec 1) (lvl : BitVec 3)
  /-- SLOT (R193). Requests a slot-switch grant for an item, or closes the switch. -/
  | slot (v : BitVec 5) (ux : BitVec 1) (lvl : BitVec 3)
  /-- SEQT (R191). Feeds a tagged item or close to a reorder buffer. -/
  | seqt (v : BitVec 5) (ux : BitVec 1) (lvl : BitVec 3)
  /-- SCNP (R195). Appends masked lanes to the scan engine's compaction buffer. -/
  | scnp (v : BitVec 5) (lvl : BitVec 3) (mask : BitVec 2)
  /-- NUL (R82). Switch word that leaves a port unused. -/
  | nul (inp : BitVec 3)
  /-- ROUTE (R175). Router passes each item from an input to one output. -/
  | route (inp : BitVec 3) (out : BitVec 8)
  /-- SPLIT (R34). Router copies each input item to every output of its mask. -/
  | split (inp : BitVec 3) (out : BitVec 8)
  /-- MERGE (R176). Router passes segments from two inputs in turn to one output. -/
  | merge (inp inp2 out : BitVec 3)
  /-- DEAL (R177). Router deals groups of items to its outputs in ascending order. -/
  | deal (inp : BitVec 3) (out : BitVec 8)
  /-- TURN (R178). Router sends an input through a corner-turn node to an output. -/
  | turn (inp : BitVec 3) (code : BitVec 4) (ux : BitVec 1) (out : BitVec 3)
  /-- BARR (R179). Router joins barrier tokens of several inputs into one. -/
  | barr (out : BitVec 3) (inps : BitVec 8)
  /-- HOLD (R175). Sets an input port's buffer depth. -/
  | hold (port : BitVec 3) (depth : BitVec 8)
  /-- DEVICE_RESET (R259). Every core stops at operator level with zero state and CXL port ranges are enumerated. -/
  | deviceReset (gib0 gib1 gib2 gib3 : BitVec 15)
  /-- BOOT_WINDOW_ACCESS (R260). A host access through the boot window reads or writes tile 0's private memory. -/
  | bootWindowAccess (write : Bool) (off : BitVec 18) (data : Byte)
  /-- BOOT_REGISTER_WRITE (R260). A host write with bit 0 set starts tile 0's core and closes the boot window. -/
  | bootRegisterWrite (v : DWord)
  /-- COMMAND_TAIL_WRITE (R424). The host writes the command tail, visible to the steward in pm.hdb. -/
  | commandTailWrite (v : BitVec 32)
  /-- GARNET_DOORBELL (R424). A host doorbell write requests a page migration through chiplet 0's agent. -/
  | garnetDoorbell (v : DWord)
  /-- ILLEGAL_INSTRUCTION (R60). A control word that decodes to no member (reserved major, sub beyond the list, nonzero unused field) raises cause 0 when it reaches execution. -/
  | illegalInstruction (w : Word)
  /-- TDISP_LOCK (R375). The host locks or releases a virtual function's interface under TDISP, fixing or freeing the partition's stage C, tiles, slices and existence. -/
  | tdispLock (lock : Bool)
  /-- PEER_ACCESS_ARRIVAL (R423). A space-6 access from a peer device arrives, is translated in the named receiving queue and checked against the P bit, or faults back to the sender. -/
  | peerAccessArrival (write : Bool) (addr : BitVec 48) (data : List Byte)
  /-- COMPLETION_HEAD_ADVANCE (R426). The host advances the completion head in its command area, releasing a host-message task held by a full completion ring. -/
  | completionHeadAdvance (v : BitVec 32)
  /-- LOAD_REPLY (R271). The data of an outstanding global load or AMO returns, is written to gd, clears the scoreboard bit and lowers oc.ld. -/
  | loadReply
  /-- STORE_ACK (R271). An outstanding global store is acknowledged at its home and oc.st falls. -/
  | storeAck
  /-- STREAM_READ_ISSUE (R181). An address generator issues the next element token of a read stream, with its markers and round barrier. -/
  | streamReadIssue
  /-- STREAM_READ_REPLY (R183). A tagged read completion returns to a generator and is delivered in stream order. -/
  | streamReadReply
  /-- STREAM_WRITE_TOKEN (R186). A write stream takes an arriving item and holds its stores for the round. -/
  | streamWriteToken
  /-- STREAM_QUEUE_ACCESS (R165). A stream pushes to or pops from a queue region through port E. -/
  | streamQueueAccess
  /-- CLOAD_SLOT_WRITTEN (R202). Every target slot is written, oc.tl falls, and activation follows when A is set. -/
  | cloadSlotWritten
  /-- SPLICE_ARRIVAL (R213). A splice record reaches the stage it names and inserts, removes or rebinds that stage. -/
  | spliceArrival
  /-- FREEZE_COMPLETE (R208). Every unit of the selected tiles is frozen and oc.tl falls. -/
  | freezeComplete
  /-- CSAVE_COMPLETE (R209). Every save write has performed at its home and oc.tl falls. -/
  | csaveComplete
  /-- CREST_COMPLETE (R210). Every selected tile is written and oc.tl falls. -/
  | crestComplete
  /-- TEND (R298). Stalls until counters are zero and helpers have stopped, then completes the region task or stops a helper. -/
  | tend
  /-- JOIN_COUNTER_READ (R289). The scheduler's read of a task's join counter completes, or faults to the steward. -/
  | joinCounterRead
  /-- TASK_START (R292). Each cycle the scheduler chooses one pool task by priority, partition round-robin and age, and starts it. -/
  | taskStart
  /-- LEAD_CORE_ENTRY (R294). When activation completes the lead core enters task level at the entry offset with arg and task id. -/
  | leadCoreEntry
  /-- HELPER_CORE_START (R295). Once the lead core's earlier stores have performed, the woken core starts at task level. -/
  | helperCoreStart
  /-- ENGINE_TASK_COMPLETE (R298). A copy, scan, migration or host-message task completes when its engine reports completion. -/
  | engineTaskComplete
  /-- HOST_MESSAGE_TASK (R426). Writes a completion entry, advances the tail and signals an MSI-X vector. -/
  | hostMessageTask
  /-- COPY_PIECE_ISSUE (R311). A copy engine issues the next piece of a command from a queue in round-robin. -/
  | copyPieceIssue
  /-- COPY_COMPLETE (R317). Every write of a command has performed; barrier counts are decremented and oc.cp falls. -/
  | copyComplete
  /-- PROMISE_MISSED (R319). The cycle counter passes an uncompleted copy's promise and cause 9 is raised once. -/
  | promiseMissed
  /-- COPY_PIECE_FAULT (R321). A piece faults after acceptance, ending the command with a completed prefix. -/
  | copyPieceFault
  /-- SCAN_MEMORY_TRANSFER (R246). The engine reads or writes up to 8 words of a memory-mode run through port E. -/
  | scanMemoryTransfer
  /-- SCAN_BLOCK_COMBINE (R238). A block of elements is combined in the fixed prefix tree with the running carry. -/
  | scanBlockCombine
  /-- CARRY_ARRIVAL (R240). A carry reaches a chain engine from rank - 1 and enters its chain input. -/
  | carryArrival
  /-- CARRY_APPLY (R240). A closed generation's held results are combined with its carry-in, released, and the carry-out sent. -/
  | carryApply
  /-- MIGRATION_START (R336). A migration request reaches the page's agent, takes a frame, sets IM and starts. -/
  | migrationStart
  /-- CHUNK_COPY (R337). The agent copies the next 1 KiB chunk of a page in motion. -/
  | chunkCopy
  /-- MIGRATION_SWITCH (R339). After the last chunk and forwarded writes, the stage-B entry is rewritten and invalidation begins. -/
  | migrationSwitch
  /-- INVALIDATION_COMPLETE (R339). Translation-cache invalidation completes; the old frame is zeroed and kinds 1 and 3 are posted. -/
  | invalidationComplete
  /-- MIGRATION_ABORT (R340). A destination error or lost link aborts a migration, leaving the old copy and raising cause 14. -/
  | migrationAbort
  /-- ACCESS_AT_HOME (R377). An access performs at its location's home, in arrival order. -/
  | accessAtHome
  /-- TRANSLATION_WALK (R359). A translation miss completes its table walk and fills the caches or faults. -/
  | translationWalk
  /-- PACKET_DELIVERY (R416). A packet at its destination tile takes a ring slot and submits a handler task, or waits or is dropped. -/
  | packetDelivery
  /-- PACKET_BLOCKED (R415). A packet head waits 1024 cycles at one switch and becomes blocked. -/
  | packetBlocked
  /-- RECOVERY_TOKEN_VISIT (R415). A level's recovery token visits a switch and grants a blocked packet the escape lane. -/
  | recoveryTokenVisit
  /-- FLIT_CRC_FAIL (R420). A flit fails its CRC and the sender replays from the oldest unacknowledged flit. -/
  | flitCrcFail
  /-- LANE_FAILING (R421). A lane with four CRC errors in 2^20 cycles is replaced by a spare or the link drops to half width. -/
  | laneFailing
  /-- LINK_LOST (R422). A link is lost, ending copy pieces and dropping packets with cause 19. -/
  | linkLost
  /-- LINK_UP (R421). A link trains and negotiates its protocol version. -/
  | linkUp
  /-- QUANTUM_END (R371). A slice quantum boundary passes; region tasks on the block are pre-empted and the block passes on. -/
  | quantumEnd
  /-- PREEMPTION (R406). Once the lead core is quiet, the region is frozen, saved with its core records, and its tiles freed. -/
  | preemption
  /-- TRET (R282). Returns from a trap to the recorded level and address. -/
  | tret
  /-- NOP (R283). Control-core no-operation. -/
  | nop
  /-- HALT (R279). Stops fetch until device reset. -/
  | halt
  /-- IDLE (R279). Stalls the core until a trap is delivered. -/
  | idle
  /-- EVENT_DELIVERY (R394). A held event is delivered when its target level can take it, oldest first. -/
  | eventDelivery
  /-- FEND (R116). Ends the firing once its MACCs have completed. -/
  | fend
  /-- NOP_OP (R116). Operation-word no-operation. -/
  | nopOp
  /-- FIRING_START (R95). The free sequencer selects the ready actor of highest key and reserves its items and slots. -/
  | firingStart
  /-- FIRING_OVERRUN (R99). A firing runs 4096 cycles without FEND and raises cause 11. -/
  | firingOverrun
  /-- BARRIER_PASS (R102). A cell with barriers at all used inputs removes them and emits one on each used output. -/
  | barrierPass
  /-- VERSIONED_WAIT_RESUME (R150). A waiting versioned access is evaluated again and performs once its slot allows. -/
  | versionedWaitResume
  /-- WINDOW_ROW_ARRIVAL (R161). A stream row enters a window as versioned stores, waiting for its slot. -/
  | windowRowArrival
  /-- PLANE_LOAD_COMPLETE (R220). The loader finishes and the shadow plane becomes full or poisoned. -/
  | planeLoadComplete
  /-- MWSW (R222). Swaps the active and shadow weight planes. -/
  | mwsw
  /-- MACC_COMPLETE (R227). A MACC's row update completes six cycles after issue. -/
  | maccComplete
  /-- CORNER_TURN_BLOCK (R178). A corner-turn node completes a block and emits it transposed. -/
  | cornerTurnBlock
  /-- INTERSECT_MATCH (R190). The intersect unit matches a fibre pair and emits triples and a marker. -/
  | intersectMatch
  /-- SPARSE_ACC_ADD (R190). A pair entering the accumulator is added at its coordinate. -/
  | sparseAccAdd
  /-- REORDER_ARRIVAL (R194). A tagged item arrives at the reorder buffer and is held, stalls or faults. -/
  | reorderArrival
  /-- REORDER_EMIT (R194). The held item of tag next is emitted and next advances. -/
  | reorderEmit
  /-- ROUND_END (R396). All round barriers have drained and the snapshot is done; positions are recorded and write streams commit. -/
  | roundEnd
  /-- ROUND_VOID (R399). A fabric fault freezes the region, drops uncommitted stores, rewinds and writes back the snapshot. -/
  | roundVoid
  /-- VOID_TRAP_DELIVERY (R399). After the write-back completes, the fault is delivered to the lead core as an event. -/
  | voidTrapDelivery
  /-- WATCHDOG_EXPIRY (R405). A region's no-progress count reaches 2^24; it freezes and cause 12 goes to runtime. -/
  | watchdogExpiry
  /-- POWER_WINDOW (R428). Every 4096 cycles the power controller adjusts the bubble fraction and refreshes readings. -/
  | powerWindow
  /-- THERMAL_LIMIT (R428). A tile reaching 105 °C takes a bubble fraction of at least 1/2 until below 100 °C. -/
  | thermalLimit
  /-- SLEEP_WAKE (R277). A sleeping core's SLEEP retires when the cycle counter reaches its operand. -/
  | sleepWake
  /-- TEMPERATURE_FALL (R428). A throttled tile whose temperature falls below 100 °C leaves the forced bubble fraction of at least 1/2. -/
  | temperatureFall
  /-- CXL_LINK_LOST (R454). A CXL port's link is lost after reset, after which accesses to its range raise link lost. -/
  | cxlLinkLost
  /-- FLIT_ACKNOWLEDGED (R420). An acknowledgement from the link partner frees flits from the replay buffer, letting a stopped sender resume. -/
  | flitAcknowledged
  deriving DecidableEq, Repr

end Sys2Proof
end

