-- ==== Sys2Proof/Machine/State.lean ====
section
/-!
DEFINITION. The state of the LX-5 as plain data: every core, cell, memory tile, engine, table and queue that the manual
gives the device, the faults and refusals of a step, and the state after reset.

Sparse collections are maps from numbers to values (`NMap`); a key that a map does not list reads as the default that
the accessor names. Every time stamp is a value of `State.now`, the unbounded count of fabric cycles since reset.
-/

namespace Sys2Proof.Machine

/-- Bytes by address, addresses strictly rising, no byte equal to what an unlisted address reads as. -/
abbrev Memory := List Host.Cell

/-- One register of an actor: one word per lane of its cell or fused set (R16). -/
abbrev Lanes := List Word

/-- Cycle accounting of one unit (R103, R196, R233, R254, R284, R323, R352): the counts settled so far, the category
the unit is in, and the cycle since which it has been there. -/
structure Acct where
  cnt   : NMap Nat
  cat   : Nat
  since : Nat
  deriving DecidableEq, Repr, Inhabited

/-- A splice record (R211, R212), or the failed-splice marker it converts to (R215). All its copies stay alike, so that they join
again; what has become of it stands in `State.spliced`. -/
structure Splice where
  op      : Nat
  pos     : Nat
  slot    : Nat
  inh     : Bool
  host    : DWord
  seq     : Nat
  rank    : Nat
  failed  : Bool
  deriving DecidableEq, Repr, Inhabited

/-- What one position of a channel or stream lane holds (R169). A data item of a fused port holds one token for each
member (R91); a bubble is consumed where it arrives and is never held (R171). A barrier names the barriers of streams
that it stands for: the stream, its number among all barriers of the stream, and, for the end of a round, one more than
the region's round that it ends, else 0 (R175, R305). -/
inductive Item where
  | data (toks : List Nat) (fmt : Nat)
  | marker (lvl : Nat)
  | barrier (src : List (Nat × Nat × Nat))
  | wave (job : Nat)
  | splice (r : Splice)
  deriving DecidableEq, Repr, Inhabited

/-- An item in a buffer, with the first cycle in which it counts. -/
structure Held where
  item  : Item
  ready : Nat
  deriving DecidableEq, Repr, Inhabited

/-! ### Control core -/

/-- The trap registers of one level (R262). -/
structure TrapRegs where
  cause  : DWord
  epc    : DWord
  val    : DWord
  stat   : DWord
  vec    : DWord
  scr    : DWord
  pbound : DWord
  deriving DecidableEq, Repr, Inhabited

/-- One loop bank (R255, R256): lct0 to lct3, lsa0 to lsa3, lea0 to lea3. -/
structure LoopBank where
  lct : NMap DWord
  lsa : NMap Nat
  lea : NMap Nat
  deriving DecidableEq, Repr, Inhabited

/-- An event held for delivery between two words (R394): its cause, its tval and the level it goes to. `void` marks
the trap of a voided round or of the watchdog, whose return is acted on by R401 and R405. -/
structure Event where
  cause : Nat
  tval  : DWord
  tgt   : Nat
  void  : Bool
  deriving DecidableEq, Repr, Inhabited

/-- Whether a control core fetches (R259, R279). -/
inductive CoreMode where
  | stopped | running | halted
  deriving DecidableEq, Repr, Inhabited

/-- What a stalled word has latched at its first attempt, so that its wait has a fixed meaning (R275): an IDLE, whose
trap resumes at the next word (R279), or the numbers that the word waits on. DEDUCED (log 36), unsafe. -/
inductive Stall where
  | idle
  | latch (info : List Nat)
  deriving DecidableEq, Repr, Inhabited

/-- A control core (R255) with the registers that a core holds by itself. DEDUCED (log 12), unsafe. -/
structure Core where
  regs      : Vector DWord 32
  pc        : Nat
  level     : Nat
  mode      : CoreMode
  mem       : Memory
  poisoned  : List Nat
  loops     : NMap LoopBank
  traps     : NMap TrapRegs
  rtDeleg   : DWord
  ocLd      : Nat
  ocSt      : Nat
  ocCp      : Nat
  ocTl      : Nat
  pend      : List Nat
  poison    : NMap DWord
  events    : List Event
  elost     : Nat
  abort     : Bool
  nextAt    : Nat
  acquires  : List Nat
  stall     : Option Stall
  cstsel    : DWord
  usel      : DWord
  mxsel     : DWord
  scsel     : DWord
  ccsel     : DWord
  cesel     : DWord
  gasel     : DWord
  opqsel    : DWord
  pmqsel    : DWord
  lksel     : DWord
  hsel      : DWord
  asid      : Nat
  subp      : Nat
  cpbin     : DWord
  cpbout    : DWord
  spliceSeq : Nat
  pktSeq    : Nat
  boLatch   : Option (DWord × Nat)
  wake      : Option (Nat × List Nat)
  task      : Option Nat
  helper    : Bool
  acct      : Acct
  deriving DecidableEq, Repr, Inhabited

/-! ### Cells -/

/-- An actor as a cell runs it (R199): where its code stands in the instruction store, its shape, its policies, and
the rate it declares on each port (R88, R200). -/
structure Actor where
  base  : Nat
  len   : Nat
  lgf   : Nat
  repl  : Nat
  copy  : Nat
  ppol  : Nat
  apol  : Nat
  sp    : Bool
  stage : Nat
  rates : NMap Nat
  deriving DecidableEq, Repr, Inhabited

/-- The values of an accumulator row (R216): its kind (0 unset, 1 float, 2 integer), its scale tag (`none` unset,
`some none` no superscale) and one word per column. -/
structure AccRow where
  kind : Nat
  tag  : Option (Option Nat)
  vals : List Word
  deriving DecidableEq, Repr, Inhabited

/-- A MACC in flight (R227): its row, the cycle its update completes, and the conditions its update raises. -/
structure Macc where
  row   : Nat
  done  : Nat
  cond  : Nat
  deriving DecidableEq, Repr, Inhabited

/-- A firing in progress (R96 to R99). -/
structure Firing where
  actor   : Nat
  pc      : Nat
  nextAt  : Nat
  first   : Nat
  regs    : NMap Lanes
  masks   : NMap (List Bool)
  loops   : NMap (Nat × Nat × Nat)
  taken   : NMap Nat
  sent    : NMap Nat
  lastTag : NMap Nat
  alt     : Bool
  waiting : Bool
  maccs   : List Macc
  macTrap : Option Nat
  dead    : Bool
  deriving DecidableEq, Repr, Inhabited

/-- A cell (R86). `fifo` holds ports 0 to 7 i0 to i7, 8 to 15 o0 to o7, 16 to 19 t0 to t3. `chans` holds the channel
entries of R200 by the same numbers. `freed` gives, for a port, the last cycle in which slots of it were freed and how
many (R94). `fired` holds, for each output, how many items each finished firing left there (R93). `passAt` is the cycle after
the last in which the cell passed barriers (R102). -/
structure Cell where
  store    : NMap Word
  actors   : List Actor
  chans    : NMap Nat
  fifo     : NMap (List Held)
  freed    : NMap (Nat × Nat)
  banks    : NMap (NMap Lanes)
  firing   : Option Firing
  alt      : Bool
  altNext  : Bool
  altAt    : Nat
  cond     : NMap Nat
  frozen   : Bool
  readyAt  : Nat
  passAt   : Nat
  fired    : NMap (List Nat)
  dealt    : NMap Nat
  turn     : NMap Nat
  acct     : Acct
  deriving DecidableEq, Repr, Inhabited

/-! ### Memory tiles -/

/-- One item of a queue region: its tag, format sideband, the tokens of its group that have entered and left, and the
first cycle in which it counts (R91, R165). -/
structure QEntry where
  tag   : Nat
  fmt   : Nat
  came  : Nat
  gone  : Nat
  ready : Nat
  deriving DecidableEq, Repr, Inhabited

/-- A queue region: the index of its oldest item, and its items, oldest first. Their words stand in the memory. -/
structure QState where
  head  : Nat
  items : List QEntry
  deriving DecidableEq, Repr, Inhabited

/-- A window (R160 to R164): its centre, and the row and the word of that row that enter next. -/
structure WinState where
  centre : Nat
  row    : Nat
  word   : Nat
  deriving DecidableEq, Repr, Inhabited

/-- A memory tile (R144 to R168): its bytes, its map entries and window descriptors, and its error state. -/
structure MTile where
  mem      : Memory
  mapped   : Bool
  map      : List Nat
  wins     : List Nat
  win      : NMap WinState
  queues   : NMap QState
  poisoned : List Nat
  soft     : List Nat
  stamps   : NMap Nat
  rmiss    : Nat
  cecc     : Nat
  deriving DecidableEq, Repr, Inhabited

/-! ### Matrix array -/

/-- The state of a weight plane (R216). -/
inductive PlaneState where
  | empty | loading | full | poisoned
  deriving DecidableEq, Repr, Inhabited

/-- A weight plane: its state, latched format and T bit, and the image words it holds (R218, R219). -/
structure Plane where
  state : PlaneState
  fmt   : Nat
  t     : Bool
  words : NMap Word
  deriving DecidableEq, Repr, Inhabited

/-- The weight loader at work (R220, R221): the memory tile and first word, the cycle of its MWLD, how many words it has read,
and the first cycle in which it reads again. -/
structure Loader where
  q     : Nat
  base  : Nat
  issue : Nat
  done  : Nat
  next  : Nat
  bad   : Bool
  deriving DecidableEq, Repr, Inhabited

/-- The matrix array (R216). -/
structure Matrix where
  active : Plane
  shadow : Plane
  rows   : NMap AccRow
  loader : Option Loader
  macAt  : Nat
  acct   : Acct
  deriving DecidableEq, Repr, Inhabited

/-! ### Scan engine -/

/-- What waits at a scan engine's input, in order: a block of elements, a marker, a memory-mode command by its run, or the
SCCIN `id` with its pointer, the accesses that it releases and the commands that it waits behind (R243, R246, R247, R388,
R392). -/
inductive ScanIn where
  | block (fused : Nat) (elems : List (List Nat))
  | marker (lvl : Nat)
  | run (id : Nat)
  | carry (id : Nat) (ptr : DWord) (accs before : List Nat)
  deriving DecidableEq, Repr, Inhabited

/-- A result at one position of a block: its generation, its value, whether it takes the carry-in, and whether it still
waits for it (R239, R240). -/
structure ScanVal where
  gen   : Nat
  val   : List Nat
  takes : Bool
  waits : Bool
  deriving DecidableEq, Repr, Inhabited

/-- A result block, or a marker, on its way out (R239, R240): in memory mode, the run and the number of the block's first
element. -/
structure ScanOut where
  fused  : Nat
  marker : Nat
  vals   : List ScanVal
  dest   : Option (Nat × Nat)
  deriving DecidableEq, Repr, Inhabited

/-- A carry on the Agate chain (R240). -/
structure Carry where
  gen   : Nat
  op    : Nat
  value : Option (List Nat)
  at_   : Nat
  deriving DecidableEq, Repr, Inhabited

/-- A closed generation waiting for its carry-in: its number, its own carry, and whether a reset fell within it. -/
structure Closed where
  gen   : Nat
  carry : Option (List Nat)
  reset : Bool
  deriving DecidableEq, Repr, Inhabited

/-- A memory-mode command (R246): the memory tile and byte of its first element, its elements in all, its words read and
written and those read and not yet combined, the commands it waits behind (R392) and the accesses that it releases (R388), and the
scan task it serves (R285). -/
structure ScanRun where
  id    : Nat
  q     : Nat
  byte  : Nat
  count : Nat
  read  : Nat
  wrote : Nat
  words : List Nat
  before : List Nat
  accs  : List Nat
  task  : Option Nat
  deriving DecidableEq, Repr, Inhabited

/-- The scan engine (R235). `ivNew` and `ovNew` are the conditions of this cycle, which join `iv` and `ov` with the next one (R253),
`portAt` is the first cycle in which it may use port E again (R246), and `leftAt` the cycle after the last in which a token or
marker left it (R254). -/
structure Scan where
  opw      : Option DWord
  ogen     : Nat
  count    : Nat
  closes   : List Nat
  carry    : Option (List Nat)
  fell     : Bool
  inq      : List ScanIn
  join     : List Nat
  runs     : List ScanRun
  hold     : List ScanOut
  closed   : List Closed
  chainIn  : List Carry
  link     : List Carry
  last     : Option (Nat × Option (List Nat))
  outq     : List Held
  compact  : List Word
  stopped  : Bool
  iv       : Bool
  ov       : Bool
  ivNew    : Bool
  ovNew    : Bool
  portAt   : Nat
  leftAt   : Nat
  acct     : Acct
  deriving DecidableEq, Repr, Inhabited

/-! ### Address generators -/

/-- A piece of a token under way: its access, where its bits begin in the bytes it reads, how many there are, and where
they stand in the token (R181, R184). -/
structure Part where
  acc   : Nat
  shift : Nat
  nbits : Nat
  pos   : Nat
  deriving DecidableEq, Repr, Inhabited

/-- One entry of a generator's ordered output: a token, by its number, whose pieces are being read, with its value once
returned, or another item that keeps its place behind what was issued before it (R183, R204, R211, R305). -/
inductive GenOut where
  | tok (n : Nat) (parts : List Part) (val : Option Nat)
  | item (it : Item)
  deriving DecidableEq, Repr, Inhabited

/-- A store that a write stream holds until its round commits (R397): the region's round in which it was taken, where it
goes, its size in bytes, its value, and the bits of it that are written. -/
structure HeldStore where
  rnd  : Nat
  ptr  : DWord
  size : Nat
  data : Nat
  mask : Nat
  deriving DecidableEq, Repr, Inhabited

/-- A stream of a generator (R180 to R187), kept after it has ended. The barriers of one generator are numbered on from
stream to stream under one `id`. `start` is the region's round in which it began.
`tok` counts tokens issued or taken since its start and `recTok` those at the last committed position; `bars` counts the
barriers it has placed, `ends` those that end a round, and `rounds` the rounds committed. A write stream keeps the
region's round that arriving items belong to (`seen`) and its count of tokens at each round's barrier (`marks`).
`idxNext`, `idxAcc` and `index` are the index elements asked for, the reads of indices under way, and the indices
returned with the cycle of their return (R183). `records` holds the splice records and wavefront markers issued behind
the recorded position, each with the count of tokens before it (R204, R211). `before` and `joins` name what its issue waits
for (R388, R392), `closed` says that its last item has been issued or taken, `stop` that a fault has halted it. -/
structure Stream where
  id      : Nat
  spb     : Nat
  asid    : Nat
  part    : Option Nat
  level   : Nat
  task    : Option Nat
  start   : Nat
  tok     : Nat
  recTok  : Nat
  bars    : Nat
  ends    : Nat
  rounds  : Nat
  seen    : Nat
  marks   : NMap Nat
  out     : List GenOut
  idxNext : Nat
  idxAcc  : NMap Nat
  index   : NMap (Nat × Nat)
  held    : List HeldStore
  commit  : List Nat
  records : List (Nat × Item)
  before  : List Nat
  joins   : List Nat
  closed  : Bool
  stop    : Bool
  killed  : Bool
  ended   : Bool
  deriving DecidableEq, Repr, Inhabited

/-- An address generator (R183). `queue` names the commands that a QFENCE holds the next stream behind (R392), and `bubble` is the
cycle after the last in which a bubble stood there (R171). -/
structure Gen where
  stream : Option Stream
  nextAt : Nat
  bubble : Nat
  queue  : List Nat
  acct   : Acct
  deriving DecidableEq, Repr, Inhabited

/-! ### Router and utility nodes -/

/-- The stream router (R172 to R179): its switch words, the local endpoint codes, the circuits that leave its lane
ports (destination rank, destination lane port, latency), its input buffers with the depths that HOLD words give, the
items offered at local outputs that a generator, window or queue region takes, the progress of its words, and for each
input the activation whose wavefront marker last passed it, counted from 1 (R205). -/
structure Router where
  words   : List Half
  codes   : List Nat
  circ    : NMap (Nat × Nat × Nat)
  inq     : NMap (List Held)
  outq    : NMap (List Held)
  split   : NMap Nat
  merge   : NMap Nat
  deal    : NMap (Nat × Nat)
  barr    : NMap (List (Nat × Nat × Nat))
  depths  : NMap Nat
  waved   : NMap Nat
  inAt    : NMap Nat
  outAt   : NMap Nat
  deriving DecidableEq, Repr, Inhabited

/-- A utility node (R188 to R194, R456). `pend` holds what it has still to emit, in order. Corner-turn: the block code of
its TURN word, the block under way with its sideband, what waits behind that block, and how many tokens of each turned
block are still in `pend`. Intersect: the pairs of the fibre open on each input, and the fibres that have closed, each
with its level and sideband. `grants` holds the grant and the place in its item of each token on its way from a slot
switch to its generator. -/
structure Util where
  desc    : Nat
  turn    : Nat
  inA     : List Held
  inB     : List Held
  outY    : List Held
  pend    : List Item
  block   : List Nat
  bfmt    : Nat
  aside   : List Item
  blocks  : List Nat
  openA   : List (Nat × Nat)
  openB   : List (Nat × Nat)
  fmtA    : Nat
  closedA : List (List (Nat × Nat) × Nat × Nat)
  closedB : List (List (Nat × Nat) × Nat × Nat)
  sums    : NMap Nat
  free    : NMap Nat
  seq     : Nat
  next    : Nat
  held    : NMap Item
  grants  : List (Nat × Nat × Nat)
  outAt   : Nat
  acct    : Acct
  deriving DecidableEq, Repr, Inhabited

/-! ### Tiles -/

/-- A resident slot (R201): the identifier it holds (0 while it is empty or being written), the image, the tile's
region-relative index in it, and when it was last activated. -/
structure Slot where
  ident : Nat
  image : List Byte
  index : Nat
  used  : Nat
  deriving DecidableEq, Repr, Inhabited

/-- The fabric of a tile: all that lies on the state-readout chain (R209, R232, R252). -/
structure Fabric where
  cells  : NMap Cell
  q0     : MTile
  q1     : MTile
  mx     : Matrix
  scan   : Scan
  gens   : NMap Gen
  router : Router
  ux0    : Util
  ux1    : Util
  active : Option Nat
  nodes  : NMap Nat
  frozen : Bool
  deriving DecidableEq, Repr, Inhabited

/-- One tile (R15). -/
structure Tile where
  core   : Core
  fab    : Fabric
  slots  : NMap Slot
  owner  : Option Nat
  granted : Bool
  deriving DecidableEq, Repr, Inhabited

/-! ### Memory system -/

/-- A place that an access reaches (R63, R377): DRAM of a tier, storage of a slice bank (level, bank), a memory tile,
a private memory, or a peer device. -/
inductive Loc where
  | dram (tier addr : Nat)
  | slice (level bank off : Nat)
  | mtile (rank q off : Nat)
  | priv (rank off : Nat)
  | peer (num off : Nat)
  deriving DecidableEq, Repr, Inhabited

/-- Who makes an access. -/
inductive Who where
  | core (rank : Nat)
  | gen (rank g : Nat)
  | copy (engine queue seq : Nat)
  | sched (task : Nat)
  | engine
  deriving DecidableEq, Repr, Inhabited

/-- The twelve atomic operations (R274) and the decrement of TSIG (R303). -/
inductive AmoOp where
  | add | and | or | xor | min | max | minu | maxu | swp | cas | fadd | fadd2 | tsig
  deriving DecidableEq, Repr, Inhabited

/-- What an access does at its home. -/
inductive AccKind where
  | load (signed : Bool)
  | store
  | amo (op : AmoOp)
  deriving DecidableEq, Repr, Inhabited

/-- A translation: the page's sub-partition and sub-partition-physical page, and where it lies (R359). -/
structure Xlat where
  asid   : Nat
  vpage  : Nat
  subp   : Nat
  page   : Nat
  tier   : Nat
  frame  : Nat
  ar     : Bool
  aw     : Bool
  aT     : Bool
  br     : Bool
  bw     : Bool
  bp     : Bool
  tol    : Bool
  deriving DecidableEq, Repr, Inhabited

/-- An entry of a base die's cache (R359): a whole translation, or the stage-B entry of a page of a sub-partition. -/
inductive DieEntry where
  | whole (x : Xlat)
  | stageB (subp page entry : Nat)
  deriving DecidableEq, Repr, Inhabited

/-- An access between its issue and its completion (R271, R326, R377). `before` names the accesses that must have performed first (R272,
R388), and `issued` is the first cycle in which it can perform. `val` holds what it read, `bad` the offsets of the bytes of it that were
uncorrectable, `fault` the cause that it met at its home (0 for none), `shared` the lead rank of the region that declares its range
read-shared and the slice level that holds its copies (R180, R327), and `part` the partition it is made for. -/
structure Access where
  id      : Nat
  who     : Who
  kind    : AccKind
  loc     : Loc
  size    : Nat
  data    : Nat
  cmp     : Nat
  ptr     : DWord
  gd      : Nat
  xl      : Option Xlat
  rel     : Bool
  acq     : Bool
  before  : List Nat
  tol     : Bool
  done    : Bool
  val     : Nat
  bad     : List Nat
  fault   : Nat
  issued  : Nat
  shared  : Option (Nat × Nat)
  part    : Option Nat
  deriving DecidableEq, Repr, Inhabited

/-- A translation walk in progress (R359): the stack whose base die runs it, its ASID and virtual page, the units that
wait for it, and the table entries it has read so far (`none` for a line that could not be read). -/
structure Walk where
  id    : Nat
  stack : Nat
  key   : Nat × Nat
  who   : List Who
  vals  : List (Option Nat)
  deriving DecidableEq, Repr, Inhabited

/-- The outcome of a failed walk, waiting for the unit whose access raised it: the cause, and the stage-A leaf and the
stage-B entry where the walk came as far as to read them, since an earlier stage's failure comes first (R358). -/
structure WalkFault where
  who   : Who
  key   : Nat × Nat
  cause : Nat
  leaf  : Option Nat
  entry : Option Nat
  deriving DecidableEq, Repr, Inhabited

/-- A page in motion (R336 to R340): `src` and `dst` are device frames, `srcPage` and `dstPage` the partition's frame
numbers, `copied` the chunks copied, `lastAt` the cycle of the last copy (that of the start before it), `carried` the lines that
the copy poisoned at the destination, `failed` whether the destination has been found poisoned otherwise (R340), and `inval` the
cycle of the switch once it has happened. -/
structure Motion where
  agent   : Nat
  subp    : Nat
  page    : Nat
  part    : Nat
  core    : Option Nat
  task    : Option Nat
  srcTier : Nat
  src     : Nat
  srcPage : Nat
  dstTier : Nat
  dst     : Nat
  dstPage : Nat
  wb      : Bool
  start   : Nat
  copied  : Nat
  lastAt  : Nat
  carried : List Nat
  failed  : Bool
  inval   : Option Nat
  deriving DecidableEq, Repr, Inhabited

/-- A migration request queued at an agent (R341). -/
structure MigReq where
  subp  : Nat
  page  : Nat
  part  : Nat
  tier  : Nat
  wb    : Bool
  core  : Option Nat
  task  : Option Nat
  host  : Bool
  deriving DecidableEq, Repr, Inhabited

/-- An entry of a hotness table (R332). -/
structure HotEntry where
  subp  : Nat
  page  : Nat
  count : Nat
  thr   : Nat
  deriving DecidableEq, Repr, Inhabited

/-- A Garnet agent (R332, R336, R352): its hotness table by entry index, its request queue, the cycle after the last in which it
zeroed a frame, and its accounting. -/
structure Agent where
  hot    : NMap HotEntry
  queue  : List MigReq
  zeroAt : Nat
  acct   : Acct
  deriving DecidableEq, Repr, Inhabited

/-! ### Copy engines -/

/-- What a copy command moves (R314, R315). -/
inductive CopyShape where
  | flat (src dst : DWord) (len : Nat)
  | rows (src dst : DWord) (rowb rows : Nat) (sstr dstr : Int)
  | gather (src dst idx : DWord) (count ebytes : Nat)
  | zero (dst : DWord) (len : Nat)
  deriving DecidableEq, Repr, Inhabited

/-- A piece in flight: its offset and length in the command, and its access. -/
structure Piece where
  off : Nat
  len : Nat
  acc : Nat
  deriving DecidableEq, Repr, Inhabited

/-- A copy command (R312 to R321). `sched` marks the command of a copy task, which no core issued (R285), `part` is the partition
that it is made for, and `index` the element of a gather whose index has been read, with that index. -/
structure Cmd where
  seq     : Nat
  core    : Nat
  sched   : Bool
  task    : Option Nat
  shape   : CopyShape
  asid    : Nat
  part    : Option Nat
  level   : Nat
  bin     : Option DWord
  bout    : Option DWord
  index   : Option (Nat × Nat)
  next    : Nat
  pieces  : List Piece
  before  : List Nat
  join    : List (Nat × Nat × Nat)
  promise : Nat
  missed  : Bool
  told    : Bool
  boutDone : Bool
  fault   : Option (Nat × Nat)
  done    : Option Nat
  deriving DecidableEq, Repr, Inhabited

/-- One queue of a copy engine (R309, R313): its commands, oldest first, those completed within the last 256 included,
and the join placed behind its last command (R392). -/
structure CQueue where
  seq  : Nat
  cmds : List Cmd
  join : List (Nat × Nat × Nat)
  deriving DecidableEq, Repr, Inhabited

/-- A copy engine (R309, R310, R323): the queue whose turn it is, the first cycle in which it can move another unit, and the cycle
after the last in which it moved one, with the tiles of its branch that have changed owner since its counters were last zeroed. -/
structure Engine where
  queues : NMap CQueue
  turn   : Nat
  unitAt : Nat
  moveAt : Nat
  acct   : Acct
  left   : List Nat
  deriving DecidableEq, Repr, Inhabited

/-! ### Tasks -/

/-- Where a task stands (R289, R291, R298). -/
inductive TaskPhase where
  | accepted | started | running | preempted
  deriving DecidableEq, Repr, Inhabited

/-- A task in its queue context (R285, R289). `join` says whether its join counter is taken as zero, and since when. `core` is
the slot of a region task or the tile of a scan task, `left` the pages that a migration task has still to ask for, `save` the
cycle in which the record of a pre-empted task is complete, `block` the command block, or the class, ring and slot of
the packet that submitted the task, and `before` the accesses that its TSUB releases (R38). -/
structure Task where
  id       : Nat
  rec_     : List Nat
  accepted : Nat
  order    : Nat
  joinRead : Bool
  join     : Option Nat
  phase    : TaskPhase
  lead     : Nat
  startAt  : Nat
  core     : Nat
  left     : Nat
  status   : Nat
  save     : Option Nat
  joinLoc  : Option Loc
  block    : List Nat
  before   : List Nat
  deriving DecidableEq, Repr, Inhabited

/-- A queue context (R287). -/
structure QueueCtx where
  open_   : Bool
  closing : Bool
  part    : Nat
  asid    : Nat
  gen     : Nat
  seq     : Nat
  status  : NMap Nat
  deriving DecidableEq, Repr, Inhabited

/-- The fault that voids a round, and how far the voiding has come (R399): the cycle it arose in and the order of its
unit (R400), and the level that took the trap. -/
structure Voiding where
  at_       : Nat
  key       : Nat
  cause     : Nat
  tval      : DWord
  readyAt   : Nat
  told      : Bool
  watchdog  : Bool
  lvl       : Option Nat
  deriving DecidableEq, Repr, Inhabited

/-- A configuration command under way (R202, R203, R208 to R210). -/
inductive JobKind where
  | load (slot : Nat) (activate : Bool)
  | next (slot : Nat)
  | freeze
  | save (area : DWord) (num : Nat)
  | restore (num : Nat)
  deriving DecidableEq, Repr, Inhabited

/-- A configuration command: what it does, the core that counts it, the region's lead rank, its tiles, the image it
writes, and the first cycle in which it can complete. -/
structure Job where
  id    : Nat
  kind  : JobKind
  core  : Option Nat
  lead  : Nat
  tiles : List Nat
  image : List Byte
  ident : Nat
  accs  : List Nat
  join  : List Nat
  ready : Nat
  deriving DecidableEq, Repr, Inhabited

/-- The stream lanes that the circuits of an image hold (R173): the region's lead rank, the slot of the image, and a tree
link or die boundary for each lane taken. -/
structure LaneSet where
  lead  : Nat
  slot  : Nat
  links : List Nat
  deriving DecidableEq, Repr, Inhabited

/-- Where a rerouted link of a chain ends (R213): an input of a cell, an input of a cell as the network reaches it, or an
input port of a router. -/
inductive WireEnd where
  | input (rank cell port : Nat)
  | net (rank cell port : Nat)
  | router (rank port : Nat)
  deriving DecidableEq, Repr, Inhabited

/-- A rerouted link of a chain (R213): where it ends, its cycles of circuit, and what is on it.
DESIGN CHOICE (log 95), safe. -/
structure Wire where
  dest  : WireEnd
  lat   : Nat
  items : List Held
  deriving DecidableEq, Repr, Inhabited

/-- A running region (R294, R396, R402, R404): its task, its block, the round in progress, rt.fab, rt.wdog and whether anything has moved
in this cycle, whether the round can no longer be voided (R397), the valid snapshot by region-relative tile, with the chain and its
rerouted links as they stood and the first identifier given after it, the cells copied into the other one so far with the cycle in which
that copy is complete, which of the two copies in memory is the valid one (`snapCopy`), and the fault under treatment. `stages` gives the
rank and cell of each chain stage (R212). -/
structure Region where
  task     : Nat
  lead     : Nat
  lgn      : Nat
  round    : Nat
  frozen   : Bool
  fz       : Bool
  sv       : Bool
  voids    : Nat
  flost    : Nat
  wdog     : Nat
  moved    : Bool
  unvoid   : Bool
  snap     : NMap Fabric
  snapLinks : NMap (Nat × Nat) × NMap Wire
  snapId   : Nat
  snapNew  : NMap Fabric
  snapAt   : Nat
  snapCopy : Nat
  voiding  : Option Voiding
  stages   : NMap (Nat × Nat)
  deriving DecidableEq, Repr, Inhabited

/-- A save area as a CSAVE wrote it (R209): its number, the lead rank of its region, the tiles that it covers, its slot and
identifier, the bytes of each tile's record, the tiles' fabrics and the links rerouted between them. -/
structure Saved where
  num   : Nat
  lead  : Nat
  first : Nat
  count : Nat
  slot  : Nat
  ident : Nat
  sizes : List Nat
  fabs  : NMap Fabric
  wires : NMap Wire
  deriving DecidableEq, Repr, Inhabited

/-- The record of a pre-empted region (R406, R407): the region, the save area of its tiles, its bytes in all, the records of the
cores that were awake by region-relative tile, and the slot and image of an activation in progress (R207). -/
structure SavedRegion where
  region : Region
  saved  : Saved
  size   : Nat
  cores  : NMap Core
  next   : Option (Nat × List Byte)
  deriving DecidableEq, Repr, Inhabited

/-- A time slice of a tile block (R371). -/
structure Slice where
  base    : Nat
  lgn     : Nat
  quantum : Nat
  entries : List Nat
  index   : Nat
  endAt   : Nat
  waiting : Bool
  next    : Option (Nat × List Nat)
  deriving DecidableEq, Repr, Inhabited

/-! ### Partitions -/

/-- A binding of a route class (R419). -/
structure Binding where
  template : DWord
  rec_     : List Nat
  ring     : DWord
  slots    : Nat
  asid     : Nat
  deriving DecidableEq, Repr, Inhabited

/-- A partition (R331, R335, R361 to R366, R407, R416, R424). Quotas by resource code (R364); extents by
tier × 16 + index as base and length in GiB (R357). `fpnew` counts the frames pushed to each pool in this cycle (R331). -/
structure Partition where
  live    : Bool
  rights  : Nat
  opDeleg : DWord
  pmDeleg : DWord
  quotas  : NMap Nat
  extents : NMap (Nat × Nat)
  steward : Nat
  locked  : Bool
  fpbase  : NMap DWord
  fpsize  : NMap Nat
  fphead  : NMap Nat
  fpcount : NMap Nat
  fpnew   : NMap Nat
  nqbase  : DWord
  nqsize  : Nat
  nqhead  : Nat
  nqcount : Nat
  nqheld  : Bool
  nqlost  : Nat
  subcnt  : Nat
  psave   : DWord
  pstride : DWord
  pkmask  : Nat
  binds   : NMap Binding
  hdb     : Nat
  area    : DWord
  cplTail : Nat
  msix    : List Nat
  deriving DecidableEq, Repr, Inhabited

/-- A sub-partition (R361, R363): its partition, its stage-B root, its rights, tier mask and quotas. -/
structure SubPart where
  live   : Bool
  part   : Nat
  root   : DWord
  rights : Nat
  tiers  : Nat
  quotas : NMap Nat
  deriving DecidableEq, Repr, Inhabited

/-- An ASID (R361, R373): its sub-partition and its stage-A root. -/
structure AsidRec where
  live : Bool
  subp : Nat
  root : Nat
  deriving DecidableEq, Repr, Inhabited

/-! ### Packets, links, power -/

/-- Where a packet is: at a switch (level 0 branch to 3 root), at the root in the middle of a diagonal (R413), in the receive
buffer of a tile (in its escape slot where it came by an escape lane), at the chiplet of a link's port, or at the peer.
DESIGN CHOICE (log 120), safe. -/
inductive PacketAt where
  | switch (level num : Nat)
  | middle (num : Nat)
  | tile (rank : Nat)
  | link (port : Nat)
  | peer (port : Nat)
  deriving DecidableEq, Repr, Inhabited

/-- A packet in flight (R412 to R416): its head flit and its payload flits, the core that sent it and the operand it gave, and
the link by which it leaves for a peer. `since` is the cycle its head reached `pos`, and `via` where it came from; `blocked` and
`escape` together mark the packet that a recovery token waits for. -/
structure Packet where
  id      : Nat
  head    : Nat
  payload : List Nat
  from_   : Option Nat
  ga      : DWord
  pos     : PacketAt
  via     : PacketAt
  since   : Nat
  blocked : Bool
  escape  : Bool
  toPeer  : Option Nat
  before  : List Nat
  deriving DecidableEq, Repr, Inhabited

/-- The state of a link (R423). -/
inductive LinkState where
  | down | training | up | lost
  deriving DecidableEq, Repr, Inhabited

/-- A Llynoz Link port (R420 to R423): the version in use, whether it runs at half width, its spare lanes left and healthy
lanes, the flits replayed, those not acknowledged, whether a replay is outstanding and how many in a row have failed, the cycles
of the latest CRC errors by lane, and the lanes whose repair waits for the replay. -/
structure Link where
  state   : LinkState
  ver     : Nat
  half    : Bool
  spares  : Nat
  healthy : Nat
  replays : Nat
  unacked : Nat
  replaying : Bool
  tries   : Nat
  crc     : NMap (List Nat)
  deferred : List Nat
  deriving DecidableEq, Repr, Inhabited

/-- The unit in focus: `exec` acts for it. A control word acts on the core of tile `unit`, an operation word on cell
`sub` of tile `unit`, a switch word on the router of tile `unit`, and an event on the unit its row names, `sub` and
`arg` naming the part of it. -/
structure Focus where
  unit : Nat
  sub  : Nat
  arg  : Nat
  deriving DecidableEq, Repr, Inhabited

/-- Whose turn it is: the fabric clock, the core of a tile, a cell's sequencer, a switch word of a router, one of the
links between two buffers of a tile, a packet on its way, an event of a unit, an error that the environment brings to a stored
word, a byte that the host writes into its own memory, the base of a command area that it writes (R424), a read of the boot
register (R260) or of a byte of a function's register page (R424), or the capacity in GiB that it gives the host window (R22). -/
inductive Turn where
  | tick
  | core (rank : Nat)
  | cell (rank cell : Nat)
  | router (rank word : Nat)
  | move (rank link : Nat)
  | hop (packet : Nat)
  | event (f : Focus) (i : Instr)
  | upset (loc : Loc) (hard : Bool)
  | hostStore (addr : Nat) (b : Byte)
  | hostArea (part : Nat) (base : DWord)
  | bootRead
  | pageRead (part off : Nat)
  | hostSize (gib : Nat)
  deriving DecidableEq, Repr, Inhabited

/-- An effect of this cycle that holds from the next one: the release of frozen tiles (R208), conditions of a cell's actor (R143), a
reclaim miss of a memory tile (R168), substitutions of a partition (R330), rights of a partition or a sub-partition granted or
revoked (R363, R438), a deleg register of a partition (levels 0 and 1) or a core (R365), a quota (R369), the revocation of an
extent (R370), the start of a schedule (R371), a frame pushed to a pool (R331), route classes masked or unmasked (R418) or bound
(R419), the rerun that an IH bit brings (R401); or a host request that an agent hears at the end of this cycle (R341). -/
inductive Later where
  | thaw (ranks : List Nat)
  | cond (rank cell actor bits : Nat)
  | miss (rank q : Nat)
  | sub (part n : Nat)
  | rights (part : Nat) (sub : Option Nat) (grant : Bool) (mask : Nat)
  | deleg (level num : Nat) (v : DWord)
  | quota (part : Nat) (sub : Option Nat) (code v : Nat)
  | revoke (part key : Nat)
  | slice (base : Nat)
  | push (part tier : Nat)
  | mask (part : Nat) (set : Bool) (classes : Nat)
  | bind (part cls : Nat) (b : Option Binding)
  | rerun (rank : Nat)
  | request (q : MigReq) (agent : Nat)
  deriving DecidableEq, Repr, Inhabited

/-- The whole device. `spliced` holds the splice records in flight that have acted or failed (R213, R215). `pool` holds the tasks that
meet the conditions of R291 at the start of this cycle and `startedAt` the cycle after the last in which one started; `dones` the done
decrements that await a translation: task, partition, ASID and pointer (R298). `hostGib` is the capacity of the host window (R22). `later`
holds what begins with the next cycle, and `ports` the cycle and the place in its order of the last access to each memory tile, by 2 ×
rank + q (R150). `wires` holds the rerouted links of chains: key 16 × rank + cell what the network brings to i0 of that cell, and 8192
more what leaves its o0. DESIGN CHOICE (log 113), safe. -/
structure State where
  foc      : Focus
  turns    : List Turn
  draws    : Nat
  now      : Nat
  nextId   : Nat
  later    : List Later
  ports    : NMap (Nat × Nat)
  tiles    : NMap Tile
  parts    : NMap Partition
  subps    : NMap SubPart
  asids    : NMap AsidRec
  queues   : NMap QueueCtx
  tasks    : List Task
  saves    : NMap SavedRegion
  slices   : List Slice
  regions  : NMap Region
  jobs     : List Job
  cfgJoin  : NMap (List Nat)
  saved    : NMap Saved
  spliced  : List Splice
  pool     : List Nat
  startedAt : Nat
  dones    : List (Nat × Nat × Nat × DWord)
  schedPtr : Nat
  schedCr  : Nat
  hazards  : List (Nat × Nat)
  lanes    : List LaneSet
  wires    : NMap Wire
  dram     : Memory
  badLines : List (Nat × Nat)
  banks    : NMap Memory
  windowed : NMap (List Nat)
  copies   : NMap (Nat × List Byte)
  accs     : List Access
  unitTlb  : NMap (List Xlat)
  schedTlb : List Xlat
  brTlb    : NMap (List Xlat)
  dieTlb   : NMap (List DieEntry)
  walks    : List Walk
  wfaults  : List WalkFault
  motions  : List Motion
  agents   : NMap Agent
  engines  : NMap Engine
  packets  : List Packet
  tokens   : NMap (Nat × Nat)
  links    : NMap Link
  peers    : NMap DWord
  cxlen    : NMap Nat
  cxlLost  : List Nat
  booted   : Bool
  hostRead : Byte
  hostGib  : Nat
  plim     : DWord
  bubble   : Nat
  hot      : List Nat
  window   : Nat
  deriving DecidableEq, Repr

/-! ### Reset -/

/-- A unit counted from cycle 0 in a category. -/
def Acct.reset (cat : Nat) : Acct := ⟨[], cat, 0⟩

/-- Trap registers after reset (R259, R262): all zero. -/
def TrapRegs.reset : TrapRegs := ⟨0, 0, 0, 0, 0, 0, 0⟩
/-- A loop bank after reset (R259): all zero. -/
def LoopBank.reset : LoopBank := ⟨[], [], []⟩

/-- A control core after device reset (R259): stopped at operator level with every register zero, pc 0. -/
def Core.reset : Core where
  regs := Vector.replicate 32 0
  pc := 0
  level := 0
  mode := .stopped
  mem := []
  poisoned := []
  loops := []
  traps := []
  rtDeleg := 0
  ocLd := 0
  ocSt := 0
  ocCp := 0
  ocTl := 0
  pend := []
  poison := []
  events := []
  elost := 0
  abort := false
  nextAt := 0
  acquires := []
  stall := none
  cstsel := 0
  usel := 0
  mxsel := 0
  scsel := 0
  ccsel := 0
  cesel := 0
  gasel := 0
  opqsel := 0
  pmqsel := 0
  lksel := 0
  hsel := 0
  asid := 0
  subp := 0
  cpbin := 0
  cpbout := 0
  spliceSeq := 0
  pktSeq := 0
  boLatch := none
  wake := none
  task := none
  helper := false
  acct := Acct.reset 7

/-- A cell that holds no actor (R86, R103). -/
def Cell.reset : Cell where
  store := []
  actors := []
  chans := []
  fifo := []
  freed := []
  banks := []
  firing := none
  alt := false
  altNext := false
  altAt := 0
  cond := []
  frozen := false
  readyAt := 0
  passAt := 0
  fired := []
  dealt := []
  turn := []
  acct := Acct.reset 5

/-- A memory tile with no configuration (R146): one plain region over all of it. -/
def MTile.reset : MTile where
  mem := []
  mapped := false
  map := []
  wins := []
  win := []
  queues := []
  poisoned := []
  soft := []
  stamps := []
  rmiss := 0
  cecc := 0

/-- An empty weight plane (R216). -/
def Plane.reset : Plane := ⟨.empty, 0, false, []⟩
/-- An empty accumulator row (R216). -/
def AccRow.empty : AccRow := ⟨0, none, []⟩
/-- The matrix array with both planes empty and every row empty (R216, R232). -/
def Matrix.reset : Matrix := ⟨Plane.reset, Plane.reset, [], none, 0, Acct.reset 4⟩

/-- The scan engine before any SCOP (R252). -/
def Scan.reset : Scan where
  opw := none
  ogen := 0
  count := 0
  closes := []
  carry := none
  fell := false
  inq := []
  join := []
  runs := []
  hold := []
  closed := []
  chainIn := []
  link := []
  last := none
  outq := []
  compact := []
  stopped := false
  iv := false
  ov := false
  ivNew := false
  ovNew := false
  portAt := 0
  leftAt := 0
  acct := Acct.reset 4

/-- An idle address generator (R196). -/
def Gen.reset : Gen := ⟨none, 0, 0, [], Acct.reset 6⟩

/-- A router with no switch word. -/
def Router.reset : Router := ⟨[], [], [], [], [], [], [], [], [], [], [], [], []⟩

/-- An unused utility node (R188, R196). -/
def Util.reset : Util where
  desc := 0
  turn := 0
  inA := []
  inB := []
  outY := []
  pend := []
  block := []
  bfmt := 0
  aside := []
  blocks := []
  openA := []
  openB := []
  fmtA := 0
  closedA := []
  closedB := []
  sums := []
  free := []
  seq := 0
  next := 0
  held := []
  grants := []
  outAt := 0
  acct := Acct.reset 3

/-- An empty resident slot (R201). -/
def Slot.reset : Slot := ⟨0, [], 0, 0⟩

/-- The fabric of a tile with no configuration. -/
def Fabric.reset : Fabric where
  cells := []
  q0 := MTile.reset
  q1 := MTile.reset
  mx := Matrix.reset
  scan := Scan.reset
  gens := []
  router := Router.reset
  ux0 := Util.reset
  ux1 := Util.reset
  active := none
  nodes := []
  frozen := false

/-- A tile after device reset: the operator's, stopped, with no configuration. -/
def Tile.reset : Tile := ⟨Core.reset, Fabric.reset, [], none, false⟩

/-- A partition number that no partition uses. -/
def Partition.reset : Partition where
  live := false
  rights := 0
  opDeleg := 0
  pmDeleg := 0
  quotas := []
  extents := []
  steward := 0
  locked := false
  fpbase := []
  fpsize := []
  fphead := []
  fpcount := []
  fpnew := []
  nqbase := 0
  nqsize := 0
  nqhead := 0
  nqcount := 0
  nqheld := false
  nqlost := 0
  subcnt := 0
  psave := 0
  pstride := 0
  pkmask := 0
  binds := []
  hdb := 0
  area := 0
  cplTail := 0
  msix := []

/-- A sub-partition number that none uses. -/
def SubPart.reset : SubPart := ⟨false, 0, 0, 0, 0, []⟩
/-- An ASID that is not allocated. -/
def AsidRec.reset : AsidRec := ⟨false, 0, 0⟩
/-- A queue context that is free. -/
def QueueCtx.reset : QueueCtx := ⟨false, false, 0, 0, 0, 0, []⟩
/-- An idle Garnet agent. -/
def Agent.reset : Agent := ⟨[], [], 0, Acct.reset 5⟩
/-- An idle copy-engine queue. -/
def CQueue.reset : CQueue := ⟨0, [], []⟩
/-- An idle copy engine. -/
def Engine.reset : Engine := ⟨[], 0, 0, 0, Acct.reset 4, []⟩
/-- A link that is down (R423). -/
def Link.reset : Link := ⟨.down, 0, false, 0, 16, 0, 0, false, 0, [], []⟩

/-- The machine right after device reset (R5, R146, R259, R260, R428, R454): every core stopped at operator level, no
partition, no configuration, the boot window open, the cycle counter zero.
DESIGN CHOICE (log 7), unsafe. DESIGN CHOICE (log 11), unsafe. DESIGN CHOICE (log 13), unsafe. -/
def State.reset : State where
  foc := ⟨0, 0, 0⟩
  turns := []
  draws := 0
  now := 0
  nextId := 0
  later := []
  ports := []
  tiles := []
  parts := []
  subps := []
  asids := []
  queues := []
  tasks := []
  saves := []
  slices := []
  regions := []
  jobs := []
  cfgJoin := []
  saved := []
  spliced := []
  pool := []
  startedAt := 0
  dones := []
  schedPtr := 0
  schedCr := 0
  hazards := []
  lanes := []
  wires := []
  dram := []
  badLines := []
  banks := []
  windowed := []
  copies := []
  accs := []
  unitTlb := []
  schedTlb := []
  brTlb := []
  dieTlb := []
  walks := []
  wfaults := []
  motions := []
  agents := []
  engines := []
  packets := []
  tokens := []
  links := []
  peers := []
  cxlen := []
  cxlLost := []
  booted := false
  hostRead := 0
  hostGib := 0
  plim := 2400
  bubble := 0
  hot := []
  window := 0

/-! ### How a step stops -/

/-- Why a step stops with a fault. -/
inductive Fault where
  /-- a turn names a tile, cell or router word that the device does not have (R15); raised by the step, never by an
  instruction; safe, since the device has no such unit -/
  | noSuchUnit
  deriving DecidableEq, Repr

/-- Why a step is refused. -/
inductive Refusal where
  /-- an instruction that has no meaning in this model; raised by exec's arm; safe, since nothing follows -/
  | notModelled (mnemonic : String)
  deriving DecidableEq, Repr

end Sys2Proof.Machine
end

