-- ==== Sys2Proof/Config.lean ====
section
/-!
DEFINITION. What the manual leaves open: free values. Each is a constant with no body, so that nothing can be proved of
its value; a claim about the machine holds whatever it is. NOTES.md and the assumption log name every one.
-/

namespace Sys2Proof.Config

open Sys2Proof.Machine

/-- The turn that comes next when State holds no planned turn, drawn at number `n`: which unit moves, and what the
outside world brings. Every order of the units and every input is covered (log entry 3).
DESIGN CHOICE (log 3), safe. -/
opaque nextTurn (n : Nat) : Turn

/-- A free word that a step draws at number `n` where the manual states no result. -/
opaque freeWord (n : Nat) : DWord

/-- tval of a cause 6 that a management word raises, by its subcode and its failing operand: the manual gives the subcode and
not where it stands (R367). DESIGN CHOICE (log 16), safe. -/
opaque mgmtVal (sub : Nat) (v : DWord) : DWord

/-- Byte `off` of the device's own form of a saved record or a snapshot, written by save number `n` (R209, R398).
DESIGN CHOICE (log 8), unsafe. -/
opaque saveByte (n off : Nat) : Byte

/-- Whether the bytes of a record that no CSAVE of this device wrote pass the device's check code (R210). -/
opaque foreignCheck (bytes : List Byte) : Bool

/-- The fabric that a record which no CSAVE of this device wrote leaves in a tile, given the tile's record (R210). -/
opaque foreignFabric (bytes : List Byte) : Fabric

/-- A health reading of a tile in window `n`: kind 0 temperature, 1 voltage, 2 process (R428).
DESIGN CHOICE (log 9), unsafe. -/
opaque healthReading (kind rank n : Nat) : BitVec 16

/-- The peer device's answer to a read of this device through space 6: byte `off` of request `n` (R353, R423).
DESIGN CHOICE (log 17), safe. -/
opaque peerByte (n off : Nat) : Byte

/-- The cause that the peer device's answer to request `n` through space 6 brings back, where it is one of 3, 4, 5, 13 and 15
(R321, R423). -/
opaque peerFault (n : Nat) : Nat

/-- The command that the command block of a copy task holds: its engine, its queue and its shape; the manual names the
block's chapter and gives no layout (R285). The answer is read from the 64 bytes at the block pointer.
DESIGN CHOICE (log 18), safe. -/
opaque copyTaskCommand (block : List Byte) : Nat × Nat × CopyShape

end Sys2Proof.Config
end

