-- ==== Sys2Proof/WellFormed.lean ====
section
/-!
DEFINITION. Which words the encoding tables admit, field by field: the checks a control word meets when it executes
(R66 to R75) and those CLOAD makes on one operation word or switch word by itself (R33, R39, R49, R76 to R82, R107,
R115, R130 to R137, R152, R163, R191, R220, R225, R243).
-/

namespace Sys2Proof

/-- A legal predicate field (R77): 0, 1 to 3, or 9 to 11. -/
def pmOk (pm : BitVec 4) : Bool := decide (pm.toNat < 4) || decide (9 ≤ pm.toNat ∧ pm.toNat < 12)

/-- A legal conversion control (R49, R130): modes 0 to 4, and no alternate pair without SP. -/
def ctlOk (ctl : BitVec 9) : Bool :=
  decide (ctl.toNat / 2 % 8 < 5) && decide (ctl.toNat / 32 % 8 < 5) &&
    (decide (ctl.toNat / 256 = 1) || decide (ctl.toNat / 16 = 0))

/-- Legal source and destination kinds of CVT (R131). -/
def cvtOk (wid skind dkind : BitVec 2) : Bool :=
  let kinds := if wid == 0 then 2 else if wid == 1 then 3 else if wid == 2 then 4 else 0
  decide (skind.toNat < kinds) && decide (dkind.toNat < kinds) && skind != dkind

/-- A narrower format code of PACK and UNPK with an element position it has (R132, R133). -/
def narrowOk (fmt : BitVec 4) (sel : BitVec 2) : Bool :=
  ((fmt == 1 || fmt == 2 || fmt == 8) && decide (sel.toNat < 2)) || fmt == 3 || fmt == 4 || fmt == 6 || fmt == 7

/-- The marker test fields of RECV and PEEK (R107). -/
def testOk (lvl : BitVec 3) (flg : BitVec 4) : Bool :=
  if decide (8 ≤ flg.toNat) then lvl != 0 && decide (flg.toNat % 4 ≠ 0) else lvl == 0 && flg == 0

/-- A block count of the scan port (R243): 1, 2 or 6 words. -/
def scanCountOk (n : BitVec 5) : Bool := n == 0 || n == 1 || n == 5

/-- The ports and fields RECV accepts (R79, R107, R165, R191, R243). -/
def recvOk (v port n : BitVec 5) (lvl : BitVec 3) (flg : BitVec 4) : Bool :=
  (decide (n.toNat < 16) || port == 20 || port == 21) && decide (v.toNat + n.toNat < 32) &&
    (if decide (port.toNat < 8) then testOk lvl flg
     else if port == 20 || port == 21 then flg == 0
     else if port == 23 then scanCountOk n && testOk lvl flg
     else (port == 24 || port == 25) && testOk lvl flg)

/-- The ports and fields SEND accepts (R79, R107, R165, R191, R243). -/
def sendOk (v port n : BitVec 5) (lvl : BitVec 3) (flg : BitVec 4) : Bool :=
  (decide (n.toNat < 16) || port == 20 || port == 21) && decide (v.toNat + n.toNat < 32) &&
    (if decide (8 ≤ port.toNat ∧ port.toNat < 16) then lvl == 0 && flg == 0
     else if port == 20 || port == 21 then flg == 0
     else if port == 23 then
       scanCountOk n && (flg == 0 || (flg == 1 && lvl != 0 && v == 0 && n == 0))
     else (port == 24 || port == 25) && lvl == 0 && flg == 0)

/-- The value field of TOKS (R107). -/
def toksOk (flg : BitVec 4) : Bool :=
  decide (flg.toNat < 2) || decide (9 ≤ flg.toNat ∧ flg.toNat < 12)

/-- The condition and source of BR (R80). -/
def brOk (cc : BitVec 4) (src : BitVec 6) : Bool :=
  (cc == 0 && src == 0) || ((cc == 1 || cc == 2) && decide (src.toNat < 8)) ||
    ((cc == 3 || cc == 4) && decide (4 ≤ src.toNat ∧ src.toNat < 8))

/-- How many ports a mask names. -/
def portCount (m : BitVec 8) : Nat :=
  ((List.range 8).filter (fun i => m.getLsbD i)).length

/-- A mask of exactly one output (R33). -/
def oneBit (m : BitVec 8) : Bool := portCount m == 1
/-- A mask of two or more ports (R33, R82). -/
def twoBits (m : BitVec 8) : Bool := decide (2 ≤ portCount m)

/-- Whether an instruction is one its encoding table admits. Events have no encoding and are always admitted.
DEDUCED (log 123), unsafe. -/
def wellFormed : Instr → Bool
  | .add _ _ _ => true
  | .sub _ _ _ => true
  | .and _ _ _ => true
  | .or _ _ _ => true
  | .xor _ _ _ => true
  | .sll _ _ _ => true
  | .srl _ _ _ => true
  | .sra _ _ _ => true
  | .slt _ _ _ => true
  | .sltu _ _ _ => true
  | .mul _ _ _ => true
  | .mulh _ _ _ => true
  | .mulhu _ _ _ => true
  | .div _ _ _ => true
  | .divu _ _ _ => true
  | .rem _ _ _ => true
  | .remu _ _ _ => true
  | .min _ _ _ => true
  | .max _ _ _ => true
  | .minu _ _ _ => true
  | .maxu _ _ _ => true
  | .clz _ _ => true
  | .ctz _ _ => true
  | .popc _ _ => true
  | .bext _ _ _ => true
  | .bins _ _ _ => true
  | .ptag _ _ => true
  | .pspace _ _ _ => true
  | .prank _ _ _ => true
  | .padd _ _ _ => true
  | .addi _ _ _ => true
  | .andi _ _ _ => true
  | .ori _ _ _ => true
  | .xori _ _ _ => true
  | .slli _ _ _ => true
  | .srli _ _ _ => true
  | .srai _ _ _ => true
  | .slti _ _ _ => true
  | .sltui _ _ _ => true
  | .lui _ _ => true
  | .addpc _ _ => true
  | .brEq _ _ _ => true
  | .brNe _ _ _ => true
  | .brLt _ _ _ => true
  | .brGe _ _ _ => true
  | .brLo _ _ _ => true
  | .brHs _ _ _ => true
  | .jmpl _ _ => true
  | .jr _ => true
  | .jrl _ _ => true
  | .loop _ k cnt _ => k == 0 || decide (cnt.toNat / 32 = 0)
  | .lexit n => decide (n.toNat < 4)
  | .lread _ n => decide (n.toNat < 12)
  | .ld _ _ _ ord _ => decide (ord.toNat < 2)
  | .ldu _ _ sz ord _ => decide (ord.toNat < 2) && sz != 3
  | .st _ _ _ ord _ => decide (ord.toNat < 2)
  | .loadReply => true
  | .storeAck => true
  | .ldv _ _ _ => true
  | .stv _ _ _ => true
  | .recl _ _ => true
  | .vqry _ _ => true
  | .amoAdd _ _ _ _ _ _ => true
  | .amoAnd _ _ _ _ _ _ => true
  | .amoOr _ _ _ _ _ _ => true
  | .amoXor _ _ _ _ _ _ => true
  | .amoMin _ _ _ _ _ _ => true
  | .amoMax _ _ _ _ _ _ => true
  | .amoMinu _ _ _ _ _ _ => true
  | .amoMaxu _ _ _ _ _ _ => true
  | .amoSwp _ _ _ _ _ _ => true
  | .amoCas _ _ _ _ _ _ => true
  | .amoFadd _ _ _ _ _ => true
  | .amoFadd2 _ _ _ _ _ => true
  | .fence scope => decide (2 ≤ scope.toNat ∧ scope.toNat < 8)
  | .qfence _ => true
  | .wait _ _ _ _ => true
  | .time _ => true
  | .sleep _ => true
  | .pchk _ _ => true
  | .sin _ _ _ => true
  | .sout _ _ _ => true
  | .sidx _ _ _ => true
  | .skill _ => true
  | .spos _ _ => true
  | .streamReadIssue => true
  | .streamReadReply => true
  | .streamWriteToken => true
  | .streamQueueAccess => true
  | .cload _ _ _ => true
  | .cloadSlotWritten => true
  | .cnext _ _ => true
  | .nodeSwitch _ => true
  | .csplice _ _ _ => true
  | .spliceArrival => true
  | .spliceSink _ => true
  | .cfrz _ => true
  | .freezeComplete => true
  | .cthaw _ => true
  | .csave _ _ => true
  | .csaveComplete => true
  | .crest _ _ => true
  | .crestComplete => true
  | .btok _ => true
  | .bdrain _ _ => true
  | .boinit _ _ => true
  | .boarr _ => true
  | .bowait _ => true
  | .boxfer _ _ => true
  | .tsub _ _ _ => true
  | .tqopen _ _ => true
  | .tqclose _ => true
  | .tjoin _ _ => true
  | .tsig ga => ga != 0
  | .tend => true
  | .tself _ => true
  | .joinCounterRead => true
  | .taskStart => true
  | .leadCoreEntry => true
  | .tkWakeWrite _ => true
  | .helperCoreStart => true
  | .engineTaskComplete => true
  | .hostMessageTask => true
  | .cpy _ _ _ => true
  | .cpy2d _ _ _ => true
  | .cpyg _ _ _ => true
  | .cpyz _ _ => true
  | .cpq _ _ => true
  | .copyPieceIssue => true
  | .copyComplete => true
  | .promiseMissed => true
  | .copyPieceFault => true
  | .scop _ => true
  | .scgo _ _ _ => true
  | .sccin _ => true
  | .sccout _ => true
  | .scbar _ => true
  | .scanMemoryTransfer => true
  | .scanBlockCombine => true
  | .carryArrival => true
  | .carryApply => true
  | .pghint _ _ => true
  | .pgmove _ _ _ => true
  | .pgqry _ _ => true
  | .pgdisc _ _ => true
  | .pgnote _ => true
  | .pgthr _ _ => true
  | .migrationStart => true
  | .chunkCopy => true
  | .migrationSwitch => true
  | .invalidationComplete => true
  | .migrationAbort => true
  | .accessAtHome => true
  | .translationWalk => true
  | .psend _ _ _ => true
  | .pmask _ => true
  | .punmask _ => true
  | .pbind _ _ => true
  | .packetDelivery => true
  | .packetBlocked => true
  | .recoveryTokenVisit => true
  | .peerPacketArrival _ _ => true
  | .flitCrcFail => true
  | .laneFailing => true
  | .linkLost => true
  | .linkUp => true
  | .pcreate _ _ _ => true
  | .pquota _ _ => true
  | .pgrant _ _ => true
  | .prevoke _ _ => true
  | .pslice _ _ => true
  | .pdestroy _ => true
  | .aalloc _ _ => true
  | .afree _ => true
  | .tinv _ _ => true
  | .quantumEnd => true
  | .preemption => true
  | .sysr _ _ => true
  | .sysw _ _ => true
  | .pmFpushWrite _ => true
  | .ringSizeWrite _ _ => true
  | .rtSideWrite _ => true
  | .rtAsidWrite _ => true
  | .trap _ => true
  | .tret => true
  | .brk _ => true
  | .nop => true
  | .halt => true
  | .idle => true
  | .eventDelivery => true
  | .fadd _ _ _ w pm => w != 3 && pmOk pm
  | .fsub _ _ _ w pm => w != 3 && pmOk pm
  | .fmul _ _ _ w pm => w != 3 && pmOk pm
  | .fma _ _ _ _ w pm => w != 3 && pmOk pm
  | .fms _ _ _ _ w pm => w != 3 && pmOk pm
  | .fmin _ _ _ w pm => w != 3 && pmOk pm
  | .fmax _ _ _ w pm => w != 3 && pmOk pm
  | .fabs _ _ w pm => w != 3 && pmOk pm
  | .fneg _ _ w pm => w != 3 && pmOk pm
  | .fcpys _ _ _ w pm => w != 3 && pmOk pm
  | .fxsgn _ _ _ w pm => w != 3 && pmOk pm
  | .fcmp m _ _ _ w pm => m != 0 && w != 3 && pmOk pm
  | .sel _ _ _ _ pm => pmOk pm
  | .iadd _ _ _ w pm => w != 3 && pmOk pm
  | .isub _ _ _ w pm => w != 3 && pmOk pm
  | .imul _ _ _ half w pm => half != 3 && w != 3 && pmOk pm
  | .imad _ _ _ _ w pm => w != 3 && pmOk pm
  | .imin _ _ _ _ w pm => w != 3 && pmOk pm
  | .imax _ _ _ _ w pm => w != 3 && pmOk pm
  | .iand _ _ _ w pm => w != 3 && pmOk pm
  | .ior _ _ _ w pm => w != 3 && pmOk pm
  | .ixor _ _ _ w pm => w != 3 && pmOk pm
  | .ishl _ _ _ w pm => w != 3 && pmOk pm
  | .ishr _ _ _ _ w pm => w != 3 && pmOk pm
  | .icmp m _ _ _ w pm => m != 0 && w != 3 && pmOk pm
  | .iaddi _ _ _ pm => pmOk pm
  | .movi _ _ pm => pmOk pm
  | .cvt _ _ wid skind dkind ctl => cvtOk wid skind dkind && ctlOk ctl
  | .pack _ _ _ dfmt sel ctl => narrowOk dfmt sel && ctlOk ctl
  | .unpk _ _ sfmt sel => narrowOk sfmt sel
  | .dqdec _ _ _ _ dfmt part => dfmt != 3 && (dfmt == 0 || decide (part.toNat < 4))
  | .dqenc vd va _ sfmt ctl => sfmt != 3 && vd != 31 && decide (va.toNat + (if sfmt == 0 then 7 else 3) < 32) && ctlOk ctl && decide (ctl.toNat / 2 % 8 = 0 ∧ ctl.toNat / 32 % 8 = 0)
  | .rcpa _ _ pm => pmOk pm
  | .rsqa _ _ pm => pmOk pm
  | .exp2a _ _ pm => pmOk pm
  | .log2a _ _ pm => pmOk pm
  | .sinpa _ _ pm => pmOk pm
  | .cospa _ _ pm => pmOk pm
  | .rcpstep _ _ _ pm => pmOk pm
  | .rsqstep _ _ _ pm => pmOk pm
  | .red _ _ _ op w pm => op != 3 && w != 3 && pmOk pm
  | .perm _ _ _ pm => pmOk pm
  | .lshf _ _ _ pm => pmOk pm
  | .bcst _ _ _ pm => pmOk pm
  | .recv v port n lvl flg pm => recvOk v port n lvl flg && pmOk pm
  | .send v port n lvl flg pm => sendOk v port n lvl flg && pmOk pm
  | .peek _ _ n lvl flg pm => decide (n.toNat < 16) && testOk lvl flg && pmOk pm
  | .sendm _ port _ _ pm => decide (8 ≤ port.toNat ∧ port.toNat < 16) && pmOk pm
  | .mklv port lvl => decide (8 ≤ port.toNat ∧ port.toNat < 16) && lvl != 0
  | .toks _ flg => toksOk flg
  | .br cc src _ => brOk cc src
  | .cloop k cnt len lvl => (k == 0 || decide (cnt.toNat / 32 = 0)) && decide (1 ≤ len.toNat ∧ len.toNat < 512) && decide (lvl.toNat < 2)
  | .fend => true
  | .nopOp => true
  | .firingStart => true
  | .firingOverrun => true
  | .barrierPass => true
  | .tld _ _ _ _ pm => pmOk pm
  | .tst _ _ _ _ pm => pmOk pm
  | .tldv _ _ _ _ pm => pmOk pm
  | .tstv _ _ _ _ pm => pmOk pm
  | .trcl _ _ _ _ pm => pmOk pm
  | .versionedWaitResume => true
  | .wld _ _ _ _ dy dx pm => dy != 7 && dx != 7 && pmOk pm
  | .wadv _ _ => true
  | .windowRowArrival => true
  | .mwld _ t _ fmt => decide (1 ≤ fmt.toNat ∧ fmt.toNat ≤ 6) && !(t == 1 && fmt == 5)
  | .planeLoadComplete => true
  | .mwsw => true
  | .mast _ _ => true
  | .mastPreset _ _ => true
  | .macc _ _ _ _ fmt => (decide (1 ≤ fmt.toNat ∧ fmt.toNat ≤ 4) || fmt == 6 || fmt == 7)
  | .maccComplete => true
  | .isect v _ lvl _ => lvl == 0 || v == 0
  | .sacc v _ lvl => lvl == 0 || v == 0
  | .slot v _ lvl => (lvl == 0 && v != 31) || (lvl != 0 && v == 0)
  | .seqt v _ lvl => lvl == 0 || v == 0
  | .scnp _ _ _ => true
  | .cornerTurnBlock => true
  | .intersectMatch => true
  | .sparseAccAdd => true
  | .reorderArrival => true
  | .reorderEmit => true
  | .nul _ => true
  | .route inp out => oneBit out && !out.getLsbD inp.toNat
  | .split inp out => twoBits out && !out.getLsbD inp.toNat
  | .merge inp inp2 out => inp != inp2 && out != inp && out != inp2
  | .deal inp out => twoBits out && !out.getLsbD inp.toNat
  | .turn inp code _ out => decide (code.toNat < 5) && out != inp
  | .barr out inps => twoBits inps && !inps.getLsbD out.toNat
  | .hold _ depth => depth != 0
  | .roundEnd => true
  | .roundVoid => true
  | .voidTrapDelivery => true
  | .watchdogExpiry => true
  | .deviceReset _ _ _ _ => true
  | .bootWindowAccess _ _ _ => true
  | .bootRegisterWrite _ => true
  | .commandTailWrite _ => true
  | .garnetDoorbell _ => true
  | .powerWindow => true
  | .thermalLimit => true
  | .illegalInstruction _ => true
  | .sleepWake => true
  | .temperatureFall => true
  | .tdispLock _ => true
  | .cxlLinkLost => true
  | .flitAcknowledged => true
  | .peerAccessArrival _ _ _ => true
  | .completionHeadAdvance _ => true

end Sys2Proof
end

