-- ==== Sys2Proof/Decode.lean ====
section
/-!
DEFINITION. Decoding and encoding. The three word kinds have three decoders, total on every word: control words (R65
to R75), operation words (R76 to R81) and switch words (R82). Each rejects by name. After them stands the encoder,
written from the same tables.
-/

namespace Sys2Proof

/-- Field of `n` bits at bit `lo` of a word. -/
def fld (n w lo : Nat) : BitVec n := BitVec.ofNat n (w / 2 ^ lo)

/-- Why a word is rejected. -/
inductive Reject where
  /-- the word names no member of its map: a reserved major, opcode or kind, a sub value beyond the list, or a
  nonzero bit in a field that must be zero -/
  | noMember
  /-- the word names a member and holds a field value that the member's table refuses -/
  | illegalField
  /-- fewer bytes than one word -/
  | tooShort
  deriving DecidableEq, Repr

/-- Keeps a decoded instruction if its table admits it. -/
def checked : Option Instr → Except Reject Instr
  | none => .error .noMember
  | some i => if wellFormed i then .ok i else .error .illegalField

/-! ### Control words -/

/-- Control major 1: ADD, SUB, AND, OR, XOR, SLL, SRL, SRA, SLT, SLTU, MUL, MULH, MULHU, DIV, DIVU, REM, REMU, MIN, MAX, MINU, MAXU. -/
def decCtl1 (w : Nat) : Option Instr :=
  if w / 1 % 2048 = 0 then some (.add (fld 5 w 21) (fld 5 w 16) (fld 5 w 11))
  else if w / 1 % 2048 = 1 then some (.sub (fld 5 w 21) (fld 5 w 16) (fld 5 w 11))
  else if w / 1 % 2048 = 2 then some (.and (fld 5 w 21) (fld 5 w 16) (fld 5 w 11))
  else if w / 1 % 2048 = 3 then some (.or (fld 5 w 21) (fld 5 w 16) (fld 5 w 11))
  else if w / 1 % 2048 = 4 then some (.xor (fld 5 w 21) (fld 5 w 16) (fld 5 w 11))
  else if w / 1 % 2048 = 5 then some (.sll (fld 5 w 21) (fld 5 w 16) (fld 5 w 11))
  else if w / 1 % 2048 = 6 then some (.srl (fld 5 w 21) (fld 5 w 16) (fld 5 w 11))
  else if w / 1 % 2048 = 7 then some (.sra (fld 5 w 21) (fld 5 w 16) (fld 5 w 11))
  else if w / 1 % 2048 = 8 then some (.slt (fld 5 w 21) (fld 5 w 16) (fld 5 w 11))
  else if w / 1 % 2048 = 9 then some (.sltu (fld 5 w 21) (fld 5 w 16) (fld 5 w 11))
  else if w / 1 % 2048 = 10 then some (.mul (fld 5 w 21) (fld 5 w 16) (fld 5 w 11))
  else if w / 1 % 2048 = 11 then some (.mulh (fld 5 w 21) (fld 5 w 16) (fld 5 w 11))
  else if w / 1 % 2048 = 12 then some (.mulhu (fld 5 w 21) (fld 5 w 16) (fld 5 w 11))
  else if w / 1 % 2048 = 13 then some (.div (fld 5 w 21) (fld 5 w 16) (fld 5 w 11))
  else if w / 1 % 2048 = 14 then some (.divu (fld 5 w 21) (fld 5 w 16) (fld 5 w 11))
  else if w / 1 % 2048 = 15 then some (.rem (fld 5 w 21) (fld 5 w 16) (fld 5 w 11))
  else if w / 1 % 2048 = 16 then some (.remu (fld 5 w 21) (fld 5 w 16) (fld 5 w 11))
  else if w / 1 % 2048 = 17 then some (.min (fld 5 w 21) (fld 5 w 16) (fld 5 w 11))
  else if w / 1 % 2048 = 18 then some (.max (fld 5 w 21) (fld 5 w 16) (fld 5 w 11))
  else if w / 1 % 2048 = 19 then some (.minu (fld 5 w 21) (fld 5 w 16) (fld 5 w 11))
  else if w / 1 % 2048 = 20 then some (.maxu (fld 5 w 21) (fld 5 w 16) (fld 5 w 11))
  else none

/-- Control major 2: CLZ, CTZ, POPC, BEXT, BINS, PTAG, PSPACE, PRANK, PADD. -/
def decCtl2 (w : Nat) : Option Instr :=
  if w / 1 % 65536 = 0 then some (.clz (fld 5 w 21) (fld 5 w 16))
  else if w / 1 % 65536 = 1 then some (.ctz (fld 5 w 21) (fld 5 w 16))
  else if w / 1 % 65536 = 2 then some (.popc (fld 5 w 21) (fld 5 w 16))
  else if w / 1 % 2048 = 3 then some (.bext (fld 5 w 21) (fld 5 w 16) (fld 5 w 11))
  else if w / 1 % 2048 = 4 then some (.bins (fld 5 w 21) (fld 5 w 16) (fld 5 w 11))
  else if w / 1 % 65536 = 5 then some (.ptag (fld 5 w 21) (fld 5 w 16))
  else if w / 1 % 2048 = 6 then some (.pspace (fld 5 w 21) (fld 5 w 16) (fld 5 w 11))
  else if w / 1 % 2048 = 7 then some (.prank (fld 5 w 21) (fld 5 w 16) (fld 5 w 11))
  else if w / 1 % 2048 = 8 then some (.padd (fld 5 w 21) (fld 5 w 16) (fld 5 w 11))
  else none

/-- Control major 3: ADDI. -/
def decCtl3 (w : Nat) : Option Instr :=
  some (.addi (fld 5 w 21) (fld 5 w 16) (fld 16 w 0))

/-- Control major 4: ANDI. -/
def decCtl4 (w : Nat) : Option Instr :=
  some (.andi (fld 5 w 21) (fld 5 w 16) (fld 16 w 0))

/-- Control major 5: ORI. -/
def decCtl5 (w : Nat) : Option Instr :=
  some (.ori (fld 5 w 21) (fld 5 w 16) (fld 16 w 0))

/-- Control major 6: XORI. -/
def decCtl6 (w : Nat) : Option Instr :=
  some (.xori (fld 5 w 21) (fld 5 w 16) (fld 16 w 0))

/-- Control major 7: SLLI, SRLI, SRAI. -/
def decCtl7 (w : Nat) : Option Instr :=
  if w / 64 % 1024 = 0 then some (.slli (fld 5 w 21) (fld 5 w 16) (fld 6 w 0))
  else if w / 64 % 1024 = 1 then some (.srli (fld 5 w 21) (fld 5 w 16) (fld 6 w 0))
  else if w / 64 % 1024 = 2 then some (.srai (fld 5 w 21) (fld 5 w 16) (fld 6 w 0))
  else none

/-- Control major 8: SLTI. -/
def decCtl8 (w : Nat) : Option Instr :=
  some (.slti (fld 5 w 21) (fld 5 w 16) (fld 16 w 0))

/-- Control major 9: SLTUI. -/
def decCtl9 (w : Nat) : Option Instr :=
  some (.sltui (fld 5 w 21) (fld 5 w 16) (fld 16 w 0))

/-- Control major 10: LUI. -/
def decCtl10 (w : Nat) : Option Instr :=
  if w / 65536 % 32 = 0 then some (.lui (fld 5 w 21) (fld 16 w 0))
  else none

/-- Control major 11: ADDPC. -/
def decCtl11 (w : Nat) : Option Instr :=
  if w / 65536 % 32 = 0 then some (.addpc (fld 5 w 21) (fld 16 w 0))
  else none

/-- Control major 12: BR_EQ. -/
def decCtl12 (w : Nat) : Option Instr :=
  some (.brEq (fld 5 w 21) (fld 5 w 16) (fld 16 w 0))

/-- Control major 13: BR_NE. -/
def decCtl13 (w : Nat) : Option Instr :=
  some (.brNe (fld 5 w 21) (fld 5 w 16) (fld 16 w 0))

/-- Control major 14: BR_LT. -/
def decCtl14 (w : Nat) : Option Instr :=
  some (.brLt (fld 5 w 21) (fld 5 w 16) (fld 16 w 0))

/-- Control major 15: BR_GE. -/
def decCtl15 (w : Nat) : Option Instr :=
  some (.brGe (fld 5 w 21) (fld 5 w 16) (fld 16 w 0))

/-- Control major 16: BR_LO. -/
def decCtl16 (w : Nat) : Option Instr :=
  some (.brLo (fld 5 w 21) (fld 5 w 16) (fld 16 w 0))

/-- Control major 17: BR_HS. -/
def decCtl17 (w : Nat) : Option Instr :=
  some (.brHs (fld 5 w 21) (fld 5 w 16) (fld 16 w 0))

/-- Control major 18: JMPL. -/
def decCtl18 (w : Nat) : Option Instr :=
  some (.jmpl (fld 5 w 21) (fld 21 w 0))

/-- Control major 19: JR, JRL. -/
def decCtl19 (w : Nat) : Option Instr :=
  if w / 1 % 65536 = 0 ∧ w / 2097152 % 32 = 0 then some (.jr (fld 5 w 16))
  else if w / 1 % 65536 = 1 then some (.jrl (fld 5 w 21) (fld 5 w 16))
  else none

/-- Control major 20: LOOP. -/
def decCtl20 (w : Nat) : Option Instr :=
  some (.loop (fld 2 w 24) (fld 1 w 23) (fld 9 w 14) (fld 14 w 0))

/-- Control major 21: LEXIT, LREAD. -/
def decCtl21 (w : Nat) : Option Instr :=
  if w / 1 % 2048 = 0 ∧ w / 65536 % 1024 = 0 then some (.lexit (fld 5 w 11))
  else if w / 1 % 2048 = 1 ∧ w / 65536 % 32 = 0 then some (.lread (fld 5 w 21) (fld 5 w 11))
  else none

/-- Control major 22: LD. -/
def decCtl22 (w : Nat) : Option Instr :=
  some (.ld (fld 5 w 21) (fld 5 w 16) (fld 2 w 14) (fld 2 w 12) (fld 12 w 0))

/-- Control major 23: LDU. -/
def decCtl23 (w : Nat) : Option Instr :=
  some (.ldu (fld 5 w 21) (fld 5 w 16) (fld 2 w 14) (fld 2 w 12) (fld 12 w 0))

/-- Control major 24: ST. -/
def decCtl24 (w : Nat) : Option Instr :=
  some (.st (fld 5 w 21) (fld 5 w 16) (fld 2 w 14) (fld 2 w 12) (fld 12 w 0))

/-- Control major 25: LDV, STV, RECL, VQRY. -/
def decCtl25 (w : Nat) : Option Instr :=
  if w / 1 % 2048 = 0 then some (.ldv (fld 5 w 21) (fld 5 w 16) (fld 5 w 11))
  else if w / 1 % 2048 = 1 then some (.stv (fld 5 w 21) (fld 5 w 16) (fld 5 w 11))
  else if w / 1 % 2048 = 2 ∧ w / 2097152 % 32 = 0 then some (.recl (fld 5 w 16) (fld 5 w 11))
  else if w / 1 % 65536 = 3 then some (.vqry (fld 5 w 21) (fld 5 w 16))
  else none

/-- Control major 26: AMO_ADD, AMO_AND, AMO_OR, AMO_XOR, AMO_MIN, AMO_MAX, AMO_MINU, AMO_MAXU, AMO_SWP, AMO_CAS, AMO_FADD, AMO_FADD2. -/
def decCtl26 (w : Nat) : Option Instr :=
  if w / 1 % 128 = 0 ∧ w / 256 % 2 = 0 then some (.amoAdd (fld 5 w 21) (fld 5 w 16) (fld 5 w 11) (fld 1 w 10) (fld 1 w 9) (fld 1 w 7))
  else if w / 1 % 128 = 1 ∧ w / 256 % 2 = 0 then some (.amoAnd (fld 5 w 21) (fld 5 w 16) (fld 5 w 11) (fld 1 w 10) (fld 1 w 9) (fld 1 w 7))
  else if w / 1 % 128 = 2 ∧ w / 256 % 2 = 0 then some (.amoOr (fld 5 w 21) (fld 5 w 16) (fld 5 w 11) (fld 1 w 10) (fld 1 w 9) (fld 1 w 7))
  else if w / 1 % 128 = 3 ∧ w / 256 % 2 = 0 then some (.amoXor (fld 5 w 21) (fld 5 w 16) (fld 5 w 11) (fld 1 w 10) (fld 1 w 9) (fld 1 w 7))
  else if w / 1 % 128 = 4 ∧ w / 256 % 2 = 0 then some (.amoMin (fld 5 w 21) (fld 5 w 16) (fld 5 w 11) (fld 1 w 10) (fld 1 w 9) (fld 1 w 7))
  else if w / 1 % 128 = 5 ∧ w / 256 % 2 = 0 then some (.amoMax (fld 5 w 21) (fld 5 w 16) (fld 5 w 11) (fld 1 w 10) (fld 1 w 9) (fld 1 w 7))
  else if w / 1 % 128 = 6 ∧ w / 256 % 2 = 0 then some (.amoMinu (fld 5 w 21) (fld 5 w 16) (fld 5 w 11) (fld 1 w 10) (fld 1 w 9) (fld 1 w 7))
  else if w / 1 % 128 = 7 ∧ w / 256 % 2 = 0 then some (.amoMaxu (fld 5 w 21) (fld 5 w 16) (fld 5 w 11) (fld 1 w 10) (fld 1 w 9) (fld 1 w 7))
  else if w / 1 % 128 = 8 ∧ w / 256 % 2 = 0 then some (.amoSwp (fld 5 w 21) (fld 5 w 16) (fld 5 w 11) (fld 1 w 10) (fld 1 w 9) (fld 1 w 7))
  else if w / 1 % 128 = 9 ∧ w / 256 % 2 = 0 then some (.amoCas (fld 5 w 21) (fld 5 w 16) (fld 5 w 11) (fld 1 w 10) (fld 1 w 9) (fld 1 w 7))
  else if w / 1 % 512 = 10 then some (.amoFadd (fld 5 w 21) (fld 5 w 16) (fld 5 w 11) (fld 1 w 10) (fld 1 w 9))
  else if w / 1 % 512 = 11 then some (.amoFadd2 (fld 5 w 21) (fld 5 w 16) (fld 5 w 11) (fld 1 w 10) (fld 1 w 9))
  else none

/-- Control major 27: FENCE, QFENCE. -/
def decCtl27 (w : Nat) : Option Instr :=
  if w / 1 % 65536 = 0 ∧ w / 2097152 % 32 = 0 then some (.fence (fld 5 w 16))
  else if w / 1 % 65536 = 1 ∧ w / 2097152 % 32 = 0 then some (.qfence (fld 5 w 16))
  else none

/-- Control major 28: WAIT. -/
def decCtl28 (w : Nat) : Option Instr :=
  if w / 1 % 1024 = 0 then some (.wait (fld 4 w 22) (fld 4 w 18) (fld 4 w 14) (fld 4 w 10))
  else none

/-- Control major 29: TIME, SLEEP, PCHK. -/
def decCtl29 (w : Nat) : Option Instr :=
  if w / 1 % 2097152 = 0 then some (.time (fld 5 w 21))
  else if w / 1 % 65536 = 1 ∧ w / 2097152 % 32 = 0 then some (.sleep (fld 5 w 16))
  else if w / 1 % 65536 = 2 then some (.pchk (fld 5 w 21) (fld 5 w 16))
  else none

/-- Control major 30: SIN, SOUT, SIDX, SKILL, SPOS. -/
def decCtl30 (w : Nat) : Option Instr :=
  if w / 1 % 2048 = 0 then some (.sin (fld 5 w 21) (fld 5 w 16) (fld 5 w 11))
  else if w / 1 % 2048 = 1 then some (.sout (fld 5 w 21) (fld 5 w 16) (fld 5 w 11))
  else if w / 1 % 2048 = 2 then some (.sidx (fld 5 w 21) (fld 5 w 16) (fld 5 w 11))
  else if w / 1 % 65536 = 3 ∧ w / 2097152 % 32 = 0 then some (.skill (fld 5 w 16))
  else if w / 1 % 65536 = 4 then some (.spos (fld 5 w 21) (fld 5 w 16))
  else none

/-- Control major 31: CLOAD, CNEXT, CSPLICE, CFRZ, CTHAW, CSAVE, CREST. -/
def decCtl31 (w : Nat) : Option Instr :=
  if w / 1 % 2048 = 0 then some (.cload (fld 5 w 21) (fld 5 w 16) (fld 5 w 11))
  else if w / 1 % 2048 = 1 ∧ w / 2097152 % 32 = 0 then some (.cnext (fld 5 w 16) (fld 5 w 11))
  else if w / 1 % 2048 = 2 then some (.csplice (fld 5 w 21) (fld 5 w 16) (fld 5 w 11))
  else if w / 1 % 65536 = 3 ∧ w / 2097152 % 32 = 0 then some (.cfrz (fld 5 w 16))
  else if w / 1 % 65536 = 4 ∧ w / 2097152 % 32 = 0 then some (.cthaw (fld 5 w 16))
  else if w / 1 % 2048 = 5 ∧ w / 2097152 % 32 = 0 then some (.csave (fld 5 w 16) (fld 5 w 11))
  else if w / 1 % 2048 = 6 ∧ w / 2097152 % 32 = 0 then some (.crest (fld 5 w 16) (fld 5 w 11))
  else none

/-- Control major 32: BTOK, BDRAIN, BOINIT, BOARR, BOWAIT, BOXFER. -/
def decCtl32 (w : Nat) : Option Instr :=
  if w / 1 % 65536 = 0 ∧ w / 2097152 % 32 = 0 then some (.btok (fld 5 w 16))
  else if w / 1 % 65536 = 1 then some (.bdrain (fld 5 w 21) (fld 5 w 16))
  else if w / 1 % 2048 = 2 ∧ w / 2097152 % 32 = 0 then some (.boinit (fld 5 w 16) (fld 5 w 11))
  else if w / 1 % 65536 = 3 ∧ w / 2097152 % 32 = 0 then some (.boarr (fld 5 w 16))
  else if w / 1 % 65536 = 4 ∧ w / 2097152 % 32 = 0 then some (.bowait (fld 5 w 16))
  else if w / 1 % 2048 = 5 ∧ w / 2097152 % 32 = 0 then some (.boxfer (fld 5 w 16) (fld 5 w 11))
  else none

/-- Control major 33: TEND, TSUB, TQOPEN, TQCLOSE, TJOIN, TSIG, TSELF. -/
def decCtl33 (w : Nat) : Option Instr :=
  if w / 1 % 67108864 = 4 then some .tend
  else if w / 1 % 2048 = 0 then some (.tsub (fld 5 w 21) (fld 5 w 16) (fld 5 w 11))
  else if w / 1 % 65536 = 1 then some (.tqopen (fld 5 w 21) (fld 5 w 16))
  else if w / 1 % 65536 = 2 ∧ w / 2097152 % 32 = 0 then some (.tqclose (fld 5 w 16))
  else if w / 1 % 65536 = 3 then some (.tjoin (fld 5 w 21) (fld 5 w 16))
  else if w / 1 % 65536 = 4 ∧ w / 2097152 % 32 = 0 then some (.tsig (fld 5 w 16))
  else if w / 1 % 2097152 = 5 then some (.tself (fld 5 w 21))
  else none

/-- Control major 34: CPY, CPY2D, CPYG, CPYZ, CPQ. -/
def decCtl34 (w : Nat) : Option Instr :=
  if w / 1 % 2048 = 0 then some (.cpy (fld 5 w 21) (fld 5 w 16) (fld 5 w 11))
  else if w / 1 % 2048 = 1 then some (.cpy2d (fld 5 w 21) (fld 5 w 16) (fld 5 w 11))
  else if w / 1 % 2048 = 2 then some (.cpyg (fld 5 w 21) (fld 5 w 16) (fld 5 w 11))
  else if w / 1 % 65536 = 3 then some (.cpyz (fld 5 w 21) (fld 5 w 16))
  else if w / 1 % 65536 = 4 then some (.cpq (fld 5 w 21) (fld 5 w 16))
  else none

/-- Control major 35: SCOP, SCGO, SCCIN, SCCOUT, SCBAR. -/
def decCtl35 (w : Nat) : Option Instr :=
  if w / 1 % 65536 = 0 ∧ w / 2097152 % 32 = 0 then some (.scop (fld 5 w 16))
  else if w / 1 % 2048 = 1 then some (.scgo (fld 5 w 21) (fld 5 w 16) (fld 5 w 11))
  else if w / 1 % 65536 = 2 ∧ w / 2097152 % 32 = 0 then some (.sccin (fld 5 w 16))
  else if w / 1 % 2097152 = 3 then some (.sccout (fld 5 w 21))
  else if w / 1 % 65536 = 4 ∧ w / 2097152 % 32 = 0 then some (.scbar (fld 5 w 16))
  else none

/-- Control major 36: PGHINT, PGMOVE, PGQRY, PGDISC, PGNOTE, PGTHR. -/
def decCtl36 (w : Nat) : Option Instr :=
  if w / 1 % 2048 = 0 ∧ w / 2097152 % 32 = 0 then some (.pghint (fld 5 w 16) (fld 5 w 11))
  else if w / 1 % 2048 = 1 then some (.pgmove (fld 5 w 21) (fld 5 w 16) (fld 5 w 11))
  else if w / 1 % 65536 = 2 then some (.pgqry (fld 5 w 21) (fld 5 w 16))
  else if w / 1 % 2048 = 3 ∧ w / 2097152 % 32 = 0 then some (.pgdisc (fld 5 w 16) (fld 5 w 11))
  else if w / 1 % 2097152 = 4 then some (.pgnote (fld 5 w 21))
  else if w / 1 % 2048 = 5 ∧ w / 2097152 % 32 = 0 then some (.pgthr (fld 5 w 16) (fld 5 w 11))
  else none

/-- Control major 37: PSEND, PMASK, PUNMASK, PBIND. -/
def decCtl37 (w : Nat) : Option Instr :=
  if w / 1 % 2048 = 0 then some (.psend (fld 5 w 21) (fld 5 w 16) (fld 5 w 11))
  else if w / 1 % 65536 = 1 ∧ w / 2097152 % 32 = 0 then some (.pmask (fld 5 w 16))
  else if w / 1 % 65536 = 2 ∧ w / 2097152 % 32 = 0 then some (.punmask (fld 5 w 16))
  else if w / 1 % 2048 = 3 ∧ w / 2097152 % 32 = 0 then some (.pbind (fld 5 w 16) (fld 5 w 11))
  else none

/-- Control major 38: PCREATE, PQUOTA, PGRANT, PREVOKE, PSLICE, PDESTROY, AALLOC, AFREE, TINV. -/
def decCtl38 (w : Nat) : Option Instr :=
  if w / 1 % 2048 = 0 then some (.pcreate (fld 5 w 21) (fld 5 w 16) (fld 5 w 11))
  else if w / 1 % 2048 = 1 ∧ w / 2097152 % 32 = 0 then some (.pquota (fld 5 w 16) (fld 5 w 11))
  else if w / 1 % 2048 = 2 ∧ w / 2097152 % 32 = 0 then some (.pgrant (fld 5 w 16) (fld 5 w 11))
  else if w / 1 % 2048 = 3 ∧ w / 2097152 % 32 = 0 then some (.prevoke (fld 5 w 16) (fld 5 w 11))
  else if w / 1 % 2048 = 4 ∧ w / 2097152 % 32 = 0 then some (.pslice (fld 5 w 16) (fld 5 w 11))
  else if w / 1 % 65536 = 5 ∧ w / 2097152 % 32 = 0 then some (.pdestroy (fld 5 w 16))
  else if w / 1 % 65536 = 6 then some (.aalloc (fld 5 w 21) (fld 5 w 16))
  else if w / 1 % 65536 = 7 ∧ w / 2097152 % 32 = 0 then some (.afree (fld 5 w 16))
  else if w / 1 % 2048 = 8 ∧ w / 2097152 % 32 = 0 then some (.tinv (fld 5 w 16) (fld 5 w 11))
  else none

/-- Control major 39: SYSR, SYSW, TRAP, TRET, BRK, NOP, HALT, IDLE. -/
def decCtl39 (w : Nat) : Option Instr :=
  if w / 1 % 16 = 0 ∧ w / 65536 % 32 = 0 then some (.sysr (fld 5 w 21) (fld 12 w 4))
  else if w / 1 % 16 = 1 ∧ w / 2097152 % 32 = 0 then some (.sysw (fld 5 w 16) (fld 12 w 4))
  else if w / 1 % 16 = 2 ∧ w / 65536 % 1024 = 0 then some (.trap (fld 12 w 4))
  else if w / 1 % 67108864 = 3 then some .tret
  else if w / 1 % 16 = 4 ∧ w / 65536 % 1024 = 0 then some (.brk (fld 12 w 4))
  else if w / 1 % 67108864 = 5 then some .nop
  else if w / 1 % 67108864 = 6 then some .halt
  else if w / 1 % 67108864 = 7 then some .idle
  else none

/-- The control word a word names, before the checks of WellFormed. -/
def decCtl (w : Nat) : Option Instr :=
  match w / 67108864 with
  | 1 => decCtl1 w
  | 2 => decCtl2 w
  | 3 => decCtl3 w
  | 4 => decCtl4 w
  | 5 => decCtl5 w
  | 6 => decCtl6 w
  | 7 => decCtl7 w
  | 8 => decCtl8 w
  | 9 => decCtl9 w
  | 10 => decCtl10 w
  | 11 => decCtl11 w
  | 12 => decCtl12 w
  | 13 => decCtl13 w
  | 14 => decCtl14 w
  | 15 => decCtl15 w
  | 16 => decCtl16 w
  | 17 => decCtl17 w
  | 18 => decCtl18 w
  | 19 => decCtl19 w
  | 20 => decCtl20 w
  | 21 => decCtl21 w
  | 22 => decCtl22 w
  | 23 => decCtl23 w
  | 24 => decCtl24 w
  | 25 => decCtl25 w
  | 26 => decCtl26 w
  | 27 => decCtl27 w
  | 28 => decCtl28 w
  | 29 => decCtl29 w
  | 30 => decCtl30 w
  | 31 => decCtl31 w
  | 32 => decCtl32 w
  | 33 => decCtl33 w
  | 34 => decCtl34 w
  | 35 => decCtl35 w
  | 36 => decCtl36 w
  | 37 => decCtl37 w
  | 38 => decCtl38 w
  | 39 => decCtl39 w
  | _ => none

/-! ### Operation words -/

/-- Operation opcode 1: FADD. -/
def decOp1 (w : Nat) : Option Instr :=
  if w / 64 % 32 = 0 then some (.fadd (fld 5 w 21) (fld 5 w 16) (fld 5 w 11) (fld 2 w 4) (fld 4 w 0))
  else none

/-- Operation opcode 2: FSUB. -/
def decOp2 (w : Nat) : Option Instr :=
  if w / 64 % 32 = 0 then some (.fsub (fld 5 w 21) (fld 5 w 16) (fld 5 w 11) (fld 2 w 4) (fld 4 w 0))
  else none

/-- Operation opcode 3: FMUL. -/
def decOp3 (w : Nat) : Option Instr :=
  if w / 64 % 32 = 0 then some (.fmul (fld 5 w 21) (fld 5 w 16) (fld 5 w 11) (fld 2 w 4) (fld 4 w 0))
  else none

/-- Operation opcode 4: FMA. -/
def decOp4 (w : Nat) : Option Instr :=
  some (.fma (fld 5 w 21) (fld 5 w 16) (fld 5 w 11) (fld 5 w 6) (fld 2 w 4) (fld 4 w 0))

/-- Operation opcode 5: FMS. -/
def decOp5 (w : Nat) : Option Instr :=
  some (.fms (fld 5 w 21) (fld 5 w 16) (fld 5 w 11) (fld 5 w 6) (fld 2 w 4) (fld 4 w 0))

/-- Operation opcode 6: FMIN. -/
def decOp6 (w : Nat) : Option Instr :=
  if w / 64 % 32 = 0 then some (.fmin (fld 5 w 21) (fld 5 w 16) (fld 5 w 11) (fld 2 w 4) (fld 4 w 0))
  else none

/-- Operation opcode 7: FMAX. -/
def decOp7 (w : Nat) : Option Instr :=
  if w / 64 % 32 = 0 then some (.fmax (fld 5 w 21) (fld 5 w 16) (fld 5 w 11) (fld 2 w 4) (fld 4 w 0))
  else none

/-- Operation opcode 8: FABS, FNEG, FCPYS, FXSGN. -/
def decOp8 (w : Nat) : Option Instr :=
  if w / 64 % 1024 = 0 then some (.fabs (fld 5 w 21) (fld 5 w 16) (fld 2 w 4) (fld 4 w 0))
  else if w / 64 % 1024 = 1 then some (.fneg (fld 5 w 21) (fld 5 w 16) (fld 2 w 4) (fld 4 w 0))
  else if w / 64 % 32 = 2 then some (.fcpys (fld 5 w 21) (fld 5 w 16) (fld 5 w 11) (fld 2 w 4) (fld 4 w 0))
  else if w / 64 % 32 = 3 then some (.fxsgn (fld 5 w 21) (fld 5 w 16) (fld 5 w 11) (fld 2 w 4) (fld 4 w 0))
  else none

/-- Operation opcode 9: FCMP. -/
def decOp9 (w : Nat) : Option Instr :=
  if w / 512 % 4 = 0 ∧ w / 8388608 % 8 = 0 then some (.fcmp (fld 2 w 21) (fld 5 w 16) (fld 5 w 11) (fld 3 w 6) (fld 2 w 4) (fld 4 w 0))
  else none

/-- Operation opcode 10: SEL. -/
def decOp10 (w : Nat) : Option Instr :=
  if w / 16 % 4 = 0 ∧ w / 256 % 8 = 0 then some (.sel (fld 5 w 21) (fld 5 w 16) (fld 5 w 11) (fld 2 w 6) (fld 4 w 0))
  else none

/-- Operation opcode 11: IADD. -/
def decOp11 (w : Nat) : Option Instr :=
  if w / 64 % 32 = 0 then some (.iadd (fld 5 w 21) (fld 5 w 16) (fld 5 w 11) (fld 2 w 4) (fld 4 w 0))
  else none

/-- Operation opcode 12: ISUB. -/
def decOp12 (w : Nat) : Option Instr :=
  if w / 64 % 32 = 0 then some (.isub (fld 5 w 21) (fld 5 w 16) (fld 5 w 11) (fld 2 w 4) (fld 4 w 0))
  else none

/-- Operation opcode 13: IMUL. -/
def decOp13 (w : Nat) : Option Instr :=
  if w / 256 % 8 = 0 then some (.imul (fld 5 w 21) (fld 5 w 16) (fld 5 w 11) (fld 2 w 6) (fld 2 w 4) (fld 4 w 0))
  else none

/-- Operation opcode 14: IMAD. -/
def decOp14 (w : Nat) : Option Instr :=
  some (.imad (fld 5 w 21) (fld 5 w 16) (fld 5 w 11) (fld 5 w 6) (fld 2 w 4) (fld 4 w 0))

/-- Operation opcode 15: IMIN. -/
def decOp15 (w : Nat) : Option Instr :=
  if w / 128 % 16 = 0 then some (.imin (fld 5 w 21) (fld 5 w 16) (fld 5 w 11) (fld 1 w 6) (fld 2 w 4) (fld 4 w 0))
  else none

/-- Operation opcode 16: IMAX. -/
def decOp16 (w : Nat) : Option Instr :=
  if w / 128 % 16 = 0 then some (.imax (fld 5 w 21) (fld 5 w 16) (fld 5 w 11) (fld 1 w 6) (fld 2 w 4) (fld 4 w 0))
  else none

/-- Operation opcode 17: IAND. -/
def decOp17 (w : Nat) : Option Instr :=
  if w / 64 % 32 = 0 then some (.iand (fld 5 w 21) (fld 5 w 16) (fld 5 w 11) (fld 2 w 4) (fld 4 w 0))
  else none

/-- Operation opcode 18: IOR. -/
def decOp18 (w : Nat) : Option Instr :=
  if w / 64 % 32 = 0 then some (.ior (fld 5 w 21) (fld 5 w 16) (fld 5 w 11) (fld 2 w 4) (fld 4 w 0))
  else none

/-- Operation opcode 19: IXOR. -/
def decOp19 (w : Nat) : Option Instr :=
  if w / 64 % 32 = 0 then some (.ixor (fld 5 w 21) (fld 5 w 16) (fld 5 w 11) (fld 2 w 4) (fld 4 w 0))
  else none

/-- Operation opcode 20: ISHL. -/
def decOp20 (w : Nat) : Option Instr :=
  if w / 64 % 32 = 0 then some (.ishl (fld 5 w 21) (fld 5 w 16) (fld 5 w 11) (fld 2 w 4) (fld 4 w 0))
  else none

/-- Operation opcode 21: ISHR. -/
def decOp21 (w : Nat) : Option Instr :=
  if w / 128 % 16 = 0 then some (.ishr (fld 5 w 21) (fld 5 w 16) (fld 5 w 11) (fld 1 w 6) (fld 2 w 4) (fld 4 w 0))
  else none

/-- Operation opcode 22: ICMP. -/
def decOp22 (w : Nat) : Option Instr :=
  if w / 512 % 4 = 0 ∧ w / 8388608 % 8 = 0 then some (.icmp (fld 2 w 21) (fld 5 w 16) (fld 5 w 11) (fld 3 w 6) (fld 2 w 4) (fld 4 w 0))
  else none

/-- Operation opcode 23: IADDI. -/
def decOp23 (w : Nat) : Option Instr :=
  some (.iaddi (fld 5 w 21) (fld 5 w 16) (fld 12 w 4) (fld 4 w 0))

/-- Operation opcode 24: MOVI. -/
def decOp24 (w : Nat) : Option Instr :=
  if w / 65536 % 32 = 0 then some (.movi (fld 5 w 21) (fld 12 w 4) (fld 4 w 0))
  else none

/-- Operation opcode 25: CVT. -/
def decOp25 (w : Nat) : Option Instr :=
  if w / 512 % 2 = 0 then some (.cvt (fld 5 w 21) (fld 5 w 16) (fld 2 w 14) (fld 2 w 12) (fld 2 w 10) (fld 9 w 0))
  else none

/-- Operation opcode 26: PACK. -/
def decOp26 (w : Nat) : Option Instr :=
  some (.pack (fld 5 w 21) (fld 5 w 16) (fld 1 w 15) (fld 4 w 11) (fld 2 w 9) (fld 9 w 0))

/-- Operation opcode 27: UNPK. -/
def decOp27 (w : Nat) : Option Instr :=
  if w / 1 % 1024 = 0 then some (.unpk (fld 5 w 21) (fld 5 w 16) (fld 4 w 12) (fld 2 w 10))
  else none

/-- Operation opcode 28: DQDEC. -/
def decOp28 (w : Nat) : Option Instr :=
  if w / 1 % 2 = 0 then some (.dqdec (fld 5 w 21) (fld 5 w 16) (fld 5 w 11) (fld 5 w 6) (fld 2 w 4) (fld 3 w 1))
  else none

/-- Operation opcode 29: DQENC. -/
def decOp29 (w : Nat) : Option Instr :=
  some (.dqenc (fld 5 w 21) (fld 5 w 16) (fld 5 w 11) (fld 2 w 9) (fld 9 w 0))

/-- Operation opcode 30: RCPA, RSQA, EXP2A, LOG2A, SINPA, COSPA. -/
def decOp30 (w : Nat) : Option Instr :=
  if w / 16 % 4096 = 0 then some (.rcpa (fld 5 w 21) (fld 5 w 16) (fld 4 w 0))
  else if w / 16 % 4096 = 4 then some (.rsqa (fld 5 w 21) (fld 5 w 16) (fld 4 w 0))
  else if w / 16 % 4096 = 8 then some (.exp2a (fld 5 w 21) (fld 5 w 16) (fld 4 w 0))
  else if w / 16 % 4096 = 12 then some (.log2a (fld 5 w 21) (fld 5 w 16) (fld 4 w 0))
  else if w / 16 % 4096 = 16 then some (.sinpa (fld 5 w 21) (fld 5 w 16) (fld 4 w 0))
  else if w / 16 % 4096 = 20 then some (.cospa (fld 5 w 21) (fld 5 w 16) (fld 4 w 0))
  else none

/-- Operation opcode 31: RCPSTEP, RSQSTEP. -/
def decOp31 (w : Nat) : Option Instr :=
  if w / 16 % 128 = 0 then some (.rcpstep (fld 5 w 21) (fld 5 w 16) (fld 5 w 11) (fld 4 w 0))
  else if w / 16 % 128 = 4 then some (.rsqstep (fld 5 w 21) (fld 5 w 16) (fld 5 w 11) (fld 4 w 0))
  else none

/-- Operation opcode 32: RED. -/
def decOp32 (w : Nat) : Option Instr :=
  if w / 512 % 128 = 0 then some (.red (fld 5 w 21) (fld 5 w 16) (fld 1 w 8) (fld 2 w 6) (fld 2 w 4) (fld 4 w 0))
  else none

/-- Operation opcode 33: PERM. -/
def decOp33 (w : Nat) : Option Instr :=
  if w / 16 % 128 = 0 then some (.perm (fld 5 w 21) (fld 5 w 16) (fld 5 w 11) (fld 4 w 0))
  else none

/-- Operation opcode 34: LSHF. -/
def decOp34 (w : Nat) : Option Instr :=
  if w / 16 % 4 = 0 ∧ w / 2048 % 32 = 0 then some (.lshf (fld 5 w 21) (fld 5 w 16) (fld 5 w 6) (fld 4 w 0))
  else none

/-- Operation opcode 35: BCST. -/
def decOp35 (w : Nat) : Option Instr :=
  if w / 16 % 128 = 0 then some (.bcst (fld 5 w 21) (fld 5 w 16) (fld 5 w 11) (fld 4 w 0))
  else none

/-- Operation opcode 36: RECV. -/
def decOp36 (w : Nat) : Option Instr :=
  some (.recv (fld 5 w 21) (fld 5 w 16) (fld 5 w 11) (fld 3 w 8) (fld 4 w 4) (fld 4 w 0))

/-- Operation opcode 37: SEND. -/
def decOp37 (w : Nat) : Option Instr :=
  some (.send (fld 5 w 21) (fld 5 w 16) (fld 5 w 11) (fld 3 w 8) (fld 4 w 4) (fld 4 w 0))

/-- Operation opcode 38: PEEK. -/
def decOp38 (w : Nat) : Option Instr :=
  if w / 524288 % 4 = 0 then some (.peek (fld 5 w 21) (fld 3 w 16) (fld 5 w 11) (fld 3 w 8) (fld 4 w 4) (fld 4 w 0))
  else none

/-- Operation opcode 39: SENDM. -/
def decOp39 (w : Nat) : Option Instr :=
  if w / 16 % 16 = 0 ∧ w / 16384 % 4 = 0 then some (.sendm (fld 5 w 21) (fld 5 w 16) (fld 3 w 11) (fld 3 w 8) (fld 4 w 0))
  else none

/-- Operation opcode 40: MKLV. -/
def decOp40 (w : Nat) : Option Instr :=
  if w / 1 % 256 = 0 ∧ w / 2048 % 32 = 0 ∧ w / 2097152 % 32 = 0 then some (.mklv (fld 5 w 16) (fld 3 w 8))
  else none

/-- Operation opcode 41: TOKS. -/
def decOp41 (w : Nat) : Option Instr :=
  if w / 1 % 16 = 0 ∧ w / 256 % 256 = 0 ∧ w / 262144 % 256 = 4 then some (.toks (fld 2 w 16) (fld 4 w 4))
  else none

/-- Operation opcode 42: BR. -/
def decOp42 (w : Nat) : Option Instr :=
  if w / 1 % 64 = 0 then some (.br (fld 4 w 22) (fld 6 w 16) (fld 10 w 6))
  else none

/-- Operation opcode 43: CLOOP. -/
def decOp43 (w : Nat) : Option Instr :=
  if w / 1 % 16 = 0 then some (.cloop (fld 1 w 25) (fld 9 w 16) (fld 10 w 6) (fld 2 w 4))
  else none

/-- Operation opcode 44: FEND. -/
def decOp44 (w : Nat) : Option Instr :=
  if w / 1 % 67108864 = 0 then some .fend
  else none

/-- Operation opcode 45: TLD. -/
def decOp45 (w : Nat) : Option Instr :=
  if w / 16 % 32 = 0 ∧ w / 2048 % 32 = 0 then some (.tld (fld 5 w 21) (fld 5 w 16) (fld 1 w 10) (fld 1 w 9) (fld 4 w 0))
  else none

/-- Operation opcode 46: TST. -/
def decOp46 (w : Nat) : Option Instr :=
  if w / 16 % 32 = 0 ∧ w / 2048 % 32 = 0 then some (.tst (fld 5 w 21) (fld 5 w 16) (fld 1 w 10) (fld 1 w 9) (fld 4 w 0))
  else none

/-- Operation opcode 47: TLDV. -/
def decOp47 (w : Nat) : Option Instr :=
  if w / 16 % 64 = 0 then some (.tldv (fld 5 w 21) (fld 5 w 16) (fld 5 w 11) (fld 1 w 10) (fld 4 w 0))
  else none

/-- Operation opcode 48: TSTV. -/
def decOp48 (w : Nat) : Option Instr :=
  if w / 16 % 64 = 0 then some (.tstv (fld 5 w 21) (fld 5 w 16) (fld 5 w 11) (fld 1 w 10) (fld 4 w 0))
  else none

/-- Operation opcode 49: TRCL. -/
def decOp49 (w : Nat) : Option Instr :=
  if w / 64 % 16 = 0 ∧ w / 2097152 % 32 = 0 then some (.trcl (fld 5 w 16) (fld 5 w 11) (fld 1 w 10) (fld 2 w 4) (fld 4 w 0))
  else none

/-- Operation opcode 50: WLD. -/
def decOp50 (w : Nat) : Option Instr :=
  if w / 16 % 16 = 0 then some (.wld (fld 5 w 21) (fld 5 w 16) (fld 1 w 15) (fld 1 w 14) (fld 3 w 11) (fld 3 w 8) (fld 4 w 0))
  else none

/-- Operation opcode 51: WADV. -/
def decOp51 (w : Nat) : Option Instr :=
  if w / 1 % 16384 = 0 ∧ w / 65536 % 1024 = 0 then some (.wadv (fld 1 w 15) (fld 1 w 14))
  else none

/-- Operation opcode 52: MWLD. -/
def decOp52 (w : Nat) : Option Instr :=
  if w / 1 % 16 = 0 ∧ w / 1024 % 2048 = 1408 then some (.mwld (fld 5 w 21) (fld 1 w 9) (fld 1 w 8) (fld 4 w 4))
  else none

/-- Operation opcode 53: MWSW. -/
def decOp53 (w : Nat) : Option Instr :=
  if w / 1 % 67108864 = 1441792 then some .mwsw
  else none

/-- Operation opcode 54: MAST, MAST_PRESET. -/
def decOp54 (w : Nat) : Option Instr :=
  if w / 1 % 2048 = 0 ∧ w / 65536 % 32 = 22 then some (.mast (fld 5 w 21) (fld 5 w 11))
  else if w / 1 % 2048 = 256 ∧ w / 65536 % 32 = 22 then some (.mastPreset (fld 5 w 21) (fld 5 w 11))
  else none

/-- Operation opcode 55: MACC. -/
def decOp55 (w : Nat) : Option Instr :=
  if w / 1 % 16 = 0 ∧ w / 65536 % 32 = 22 then some (.macc (fld 5 w 21) (fld 5 w 11) (fld 1 w 10) (fld 2 w 8) (fld 4 w 4))
  else none

/-- Operation opcode 56: ISECT. -/
def decOp56 (w : Nat) : Option Instr :=
  if w / 1 % 16 = 0 ∧ w / 32 % 8 = 0 ∧ w / 2048 % 32 = 0 ∧ w / 131072 % 16 = 12 then some (.isect (fld 5 w 21) (fld 1 w 16) (fld 3 w 8) (fld 1 w 4))
  else none

/-- Operation opcode 57: SACC. -/
def decOp57 (w : Nat) : Option Instr :=
  if w / 1 % 256 = 0 ∧ w / 2048 % 32 = 0 ∧ w / 131072 % 16 = 12 then some (.sacc (fld 5 w 21) (fld 1 w 16) (fld 3 w 8))
  else none

/-- Operation opcode 58: SLOT. -/
def decOp58 (w : Nat) : Option Instr :=
  if w / 1 % 256 = 0 ∧ w / 2048 % 32 = 0 ∧ w / 131072 % 16 = 12 then some (.slot (fld 5 w 21) (fld 1 w 16) (fld 3 w 8))
  else none

/-- Operation opcode 59: SEQT. -/
def decOp59 (w : Nat) : Option Instr :=
  if w / 1 % 256 = 0 ∧ w / 2048 % 32 = 0 ∧ w / 131072 % 16 = 12 then some (.seqt (fld 5 w 21) (fld 1 w 16) (fld 3 w 8))
  else none

/-- Operation opcode 60: SCNP. -/
def decOp60 (w : Nat) : Option Instr :=
  if w / 1 % 16 = 0 ∧ w / 64 % 4 = 0 ∧ w / 2048 % 1024 = 736 then some (.scnp (fld 5 w 21) (fld 3 w 8) (fld 2 w 4))
  else none

/-- Operation opcode 61: NOP_OP. -/
def decOp61 (w : Nat) : Option Instr :=
  if w / 1 % 67108864 = 0 then some .nopOp
  else none

/-- The operation word a word names, before the checks of WellFormed. -/
def decOp (w : Nat) : Option Instr :=
  match w / 67108864 with
  | 1 => decOp1 w
  | 2 => decOp2 w
  | 3 => decOp3 w
  | 4 => decOp4 w
  | 5 => decOp5 w
  | 6 => decOp6 w
  | 7 => decOp7 w
  | 8 => decOp8 w
  | 9 => decOp9 w
  | 10 => decOp10 w
  | 11 => decOp11 w
  | 12 => decOp12 w
  | 13 => decOp13 w
  | 14 => decOp14 w
  | 15 => decOp15 w
  | 16 => decOp16 w
  | 17 => decOp17 w
  | 18 => decOp18 w
  | 19 => decOp19 w
  | 20 => decOp20 w
  | 21 => decOp21 w
  | 22 => decOp22 w
  | 23 => decOp23 w
  | 24 => decOp24 w
  | 25 => decOp25 w
  | 26 => decOp26 w
  | 27 => decOp27 w
  | 28 => decOp28 w
  | 29 => decOp29 w
  | 30 => decOp30 w
  | 31 => decOp31 w
  | 32 => decOp32 w
  | 33 => decOp33 w
  | 34 => decOp34 w
  | 35 => decOp35 w
  | 36 => decOp36 w
  | 37 => decOp37 w
  | 38 => decOp38 w
  | 39 => decOp39 w
  | 40 => decOp40 w
  | 41 => decOp41 w
  | 42 => decOp42 w
  | 43 => decOp43 w
  | 44 => decOp44 w
  | 45 => decOp45 w
  | 46 => decOp46 w
  | 47 => decOp47 w
  | 48 => decOp48 w
  | 49 => decOp49 w
  | 50 => decOp50 w
  | 51 => decOp51 w
  | 52 => decOp52 w
  | 53 => decOp53 w
  | 54 => decOp54 w
  | 55 => decOp55 w
  | 56 => decOp56 w
  | 57 => decOp57 w
  | 58 => decOp58 w
  | 59 => decOp59 w
  | 60 => decOp60 w
  | 61 => decOp61 w
  | _ => none

/-! ### Switch words -/

/-- Switch kind 0: NUL. -/
def decSw0 (w : Nat) : Option Instr :=
  if w / 1 % 256 = 0 ∧ w / 2048 % 2 = 0 then some (.nul (fld 3 w 8))
  else none

/-- Switch kind 1: ROUTE. -/
def decSw1 (w : Nat) : Option Instr :=
  if w / 2048 % 2 = 0 then some (.route (fld 3 w 8) (fld 8 w 0))
  else none

/-- Switch kind 2: SPLIT. -/
def decSw2 (w : Nat) : Option Instr :=
  if w / 2048 % 2 = 0 then some (.split (fld 3 w 8) (fld 8 w 0))
  else none

/-- Switch kind 3: MERGE. -/
def decSw3 (w : Nat) : Option Instr :=
  if w / 8 % 2 = 0 ∧ w / 128 % 2 = 0 ∧ w / 2048 % 2 = 0 then some (.merge (fld 3 w 8) (fld 3 w 4) (fld 3 w 0))
  else none

/-- Switch kind 4: DEAL. -/
def decSw4 (w : Nat) : Option Instr :=
  if w / 2048 % 2 = 0 then some (.deal (fld 3 w 8) (fld 8 w 0))
  else none

/-- Switch kind 5: TURN. -/
def decSw5 (w : Nat) : Option Instr :=
  if w / 2048 % 2 = 0 then some (.turn (fld 3 w 8) (fld 4 w 4) (fld 1 w 3) (fld 3 w 0))
  else none

/-- Switch kind 6: BARR. -/
def decSw6 (w : Nat) : Option Instr :=
  if w / 2048 % 2 = 0 then some (.barr (fld 3 w 8) (fld 8 w 0))
  else none

/-- Switch kind 7: HOLD. -/
def decSw7 (w : Nat) : Option Instr :=
  if w / 2048 % 2 = 0 then some (.hold (fld 3 w 8) (fld 8 w 0))
  else none

/-- The switch word a word names, before the checks of WellFormed. -/
def decSw (w : Nat) : Option Instr :=
  match w / 4096 with
  | 0 => decSw0 w
  | 1 => decSw1 w
  | 2 => decSw2 w
  | 3 => decSw3 w
  | 4 => decSw4 w
  | 5 => decSw5 w
  | 6 => decSw6 w
  | 7 => decSw7 w
  | _ => none

/-- Decodes a control word (R60): the member it names, or why it is illegal. -/
def decodeControl (w : Word) : Except Reject Instr := checked (decCtl w.toNat)
/-- Decodes an operation word (R78). -/
def decodeOperation (w : Word) : Except Reject Instr := checked (decOp w.toNat)
/-- Decodes a switch word (R82). -/
def decodeSwitch (w : Half) : Except Reject Instr := checked (decSw w.toNat)

/-- The little-endian word at the head of a byte list, and the rest (R60). -/
def takeWord : List Byte → Except Reject (Word × List Byte)
  | b0 :: b1 :: b2 :: b3 :: rest => .ok (BitVec.ofNat 32 (Machine.leValue [b0, b1, b2, b3]), rest)
  | _ => .error .tooShort

/-- The little-endian halfword at the head of a byte list, and the rest (R60). -/
def takeHalf : List Byte → Except Reject (Half × List Byte)
  | b0 :: b1 :: rest => .ok (BitVec.ofNat 16 (Machine.leValue [b0, b1]), rest)
  | _ => .error .tooShort

/-- Decodes the control word at the head of a byte list. -/
def decodeControlBytes (l : List Byte) : Except Reject (Instr × List Byte) :=
  match takeWord l with
  | .error e => .error e
  | .ok (w, rest) =>
    match decodeControl w with
    | .error e => .error e
    | .ok i => .ok (i, rest)

/-- Decodes the operation word at the head of a byte list. -/
def decodeOperationBytes (l : List Byte) : Except Reject (Instr × List Byte) :=
  match takeWord l with
  | .error e => .error e
  | .ok (w, rest) =>
    match decodeOperation w with
    | .error e => .error e
    | .ok i => .ok (i, rest)

/-- Decodes the switch word at the head of a byte list. -/
def decodeSwitchBytes (l : List Byte) : Except Reject (Instr × List Byte) :=
  match takeHalf l with
  | .error e => .error e
  | .ok (w, rest) =>
    match decodeSwitch w with
    | .error e => .error e
    | .ok i => .ok (i, rest)

/-- Which store an instruction's word stands in. -/
inductive WordKind where
  | control | operation | switch | event
  deriving DecidableEq, Repr

/-- The word kind of an instruction: which of the three maps it belongs to, or an event with no word. -/
def wordKind : Instr → WordKind
  | .add _ _ _ => .control
  | .sub _ _ _ => .control
  | .and _ _ _ => .control
  | .or _ _ _ => .control
  | .xor _ _ _ => .control
  | .sll _ _ _ => .control
  | .srl _ _ _ => .control
  | .sra _ _ _ => .control
  | .slt _ _ _ => .control
  | .sltu _ _ _ => .control
  | .mul _ _ _ => .control
  | .mulh _ _ _ => .control
  | .mulhu _ _ _ => .control
  | .div _ _ _ => .control
  | .divu _ _ _ => .control
  | .rem _ _ _ => .control
  | .remu _ _ _ => .control
  | .min _ _ _ => .control
  | .max _ _ _ => .control
  | .minu _ _ _ => .control
  | .maxu _ _ _ => .control
  | .clz _ _ => .control
  | .ctz _ _ => .control
  | .popc _ _ => .control
  | .bext _ _ _ => .control
  | .bins _ _ _ => .control
  | .ptag _ _ => .control
  | .pspace _ _ _ => .control
  | .prank _ _ _ => .control
  | .padd _ _ _ => .control
  | .addi _ _ _ => .control
  | .andi _ _ _ => .control
  | .ori _ _ _ => .control
  | .xori _ _ _ => .control
  | .slli _ _ _ => .control
  | .srli _ _ _ => .control
  | .srai _ _ _ => .control
  | .slti _ _ _ => .control
  | .sltui _ _ _ => .control
  | .lui _ _ => .control
  | .addpc _ _ => .control
  | .brEq _ _ _ => .control
  | .brNe _ _ _ => .control
  | .brLt _ _ _ => .control
  | .brGe _ _ _ => .control
  | .brLo _ _ _ => .control
  | .brHs _ _ _ => .control
  | .jmpl _ _ => .control
  | .jr _ => .control
  | .jrl _ _ => .control
  | .loop _ _ _ _ => .control
  | .lexit _ => .control
  | .lread _ _ => .control
  | .ld _ _ _ _ _ => .control
  | .ldu _ _ _ _ _ => .control
  | .st _ _ _ _ _ => .control
  | .loadReply => .event
  | .storeAck => .event
  | .ldv _ _ _ => .control
  | .stv _ _ _ => .control
  | .recl _ _ => .control
  | .vqry _ _ => .control
  | .amoAdd _ _ _ _ _ _ => .control
  | .amoAnd _ _ _ _ _ _ => .control
  | .amoOr _ _ _ _ _ _ => .control
  | .amoXor _ _ _ _ _ _ => .control
  | .amoMin _ _ _ _ _ _ => .control
  | .amoMax _ _ _ _ _ _ => .control
  | .amoMinu _ _ _ _ _ _ => .control
  | .amoMaxu _ _ _ _ _ _ => .control
  | .amoSwp _ _ _ _ _ _ => .control
  | .amoCas _ _ _ _ _ _ => .control
  | .amoFadd _ _ _ _ _ => .control
  | .amoFadd2 _ _ _ _ _ => .control
  | .fence _ => .control
  | .qfence _ => .control
  | .wait _ _ _ _ => .control
  | .time _ => .control
  | .sleep _ => .control
  | .pchk _ _ => .control
  | .sin _ _ _ => .control
  | .sout _ _ _ => .control
  | .sidx _ _ _ => .control
  | .skill _ => .control
  | .spos _ _ => .control
  | .streamReadIssue => .event
  | .streamReadReply => .event
  | .streamWriteToken => .event
  | .streamQueueAccess => .event
  | .cload _ _ _ => .control
  | .cloadSlotWritten => .event
  | .cnext _ _ => .control
  | .nodeSwitch _ => .event
  | .csplice _ _ _ => .control
  | .spliceArrival => .event
  | .spliceSink _ => .event
  | .cfrz _ => .control
  | .freezeComplete => .event
  | .cthaw _ => .control
  | .csave _ _ => .control
  | .csaveComplete => .event
  | .crest _ _ => .control
  | .crestComplete => .event
  | .btok _ => .control
  | .bdrain _ _ => .control
  | .boinit _ _ => .control
  | .boarr _ => .control
  | .bowait _ => .control
  | .boxfer _ _ => .control
  | .tsub _ _ _ => .control
  | .tqopen _ _ => .control
  | .tqclose _ => .control
  | .tjoin _ _ => .control
  | .tsig _ => .control
  | .tend => .control
  | .tself _ => .control
  | .joinCounterRead => .event
  | .taskStart => .event
  | .leadCoreEntry => .event
  | .tkWakeWrite _ => .event
  | .helperCoreStart => .event
  | .engineTaskComplete => .event
  | .hostMessageTask => .event
  | .cpy _ _ _ => .control
  | .cpy2d _ _ _ => .control
  | .cpyg _ _ _ => .control
  | .cpyz _ _ => .control
  | .cpq _ _ => .control
  | .copyPieceIssue => .event
  | .copyComplete => .event
  | .promiseMissed => .event
  | .copyPieceFault => .event
  | .scop _ => .control
  | .scgo _ _ _ => .control
  | .sccin _ => .control
  | .sccout _ => .control
  | .scbar _ => .control
  | .scanMemoryTransfer => .event
  | .scanBlockCombine => .event
  | .carryArrival => .event
  | .carryApply => .event
  | .pghint _ _ => .control
  | .pgmove _ _ _ => .control
  | .pgqry _ _ => .control
  | .pgdisc _ _ => .control
  | .pgnote _ => .control
  | .pgthr _ _ => .control
  | .migrationStart => .event
  | .chunkCopy => .event
  | .migrationSwitch => .event
  | .invalidationComplete => .event
  | .migrationAbort => .event
  | .accessAtHome => .event
  | .translationWalk => .event
  | .psend _ _ _ => .control
  | .pmask _ => .control
  | .punmask _ => .control
  | .pbind _ _ => .control
  | .packetDelivery => .event
  | .packetBlocked => .event
  | .recoveryTokenVisit => .event
  | .peerPacketArrival _ _ => .event
  | .flitCrcFail => .event
  | .laneFailing => .event
  | .linkLost => .event
  | .linkUp => .event
  | .pcreate _ _ _ => .control
  | .pquota _ _ => .control
  | .pgrant _ _ => .control
  | .prevoke _ _ => .control
  | .pslice _ _ => .control
  | .pdestroy _ => .control
  | .aalloc _ _ => .control
  | .afree _ => .control
  | .tinv _ _ => .control
  | .quantumEnd => .event
  | .preemption => .event
  | .sysr _ _ => .control
  | .sysw _ _ => .control
  | .pmFpushWrite _ => .event
  | .ringSizeWrite _ _ => .event
  | .rtSideWrite _ => .event
  | .rtAsidWrite _ => .event
  | .trap _ => .control
  | .tret => .control
  | .brk _ => .control
  | .nop => .control
  | .halt => .control
  | .idle => .control
  | .eventDelivery => .event
  | .fadd _ _ _ _ _ => .operation
  | .fsub _ _ _ _ _ => .operation
  | .fmul _ _ _ _ _ => .operation
  | .fma _ _ _ _ _ _ => .operation
  | .fms _ _ _ _ _ _ => .operation
  | .fmin _ _ _ _ _ => .operation
  | .fmax _ _ _ _ _ => .operation
  | .fabs _ _ _ _ => .operation
  | .fneg _ _ _ _ => .operation
  | .fcpys _ _ _ _ _ => .operation
  | .fxsgn _ _ _ _ _ => .operation
  | .fcmp _ _ _ _ _ _ => .operation
  | .sel _ _ _ _ _ => .operation
  | .iadd _ _ _ _ _ => .operation
  | .isub _ _ _ _ _ => .operation
  | .imul _ _ _ _ _ _ => .operation
  | .imad _ _ _ _ _ _ => .operation
  | .imin _ _ _ _ _ _ => .operation
  | .imax _ _ _ _ _ _ => .operation
  | .iand _ _ _ _ _ => .operation
  | .ior _ _ _ _ _ => .operation
  | .ixor _ _ _ _ _ => .operation
  | .ishl _ _ _ _ _ => .operation
  | .ishr _ _ _ _ _ _ => .operation
  | .icmp _ _ _ _ _ _ => .operation
  | .iaddi _ _ _ _ => .operation
  | .movi _ _ _ => .operation
  | .cvt _ _ _ _ _ _ => .operation
  | .pack _ _ _ _ _ _ => .operation
  | .unpk _ _ _ _ => .operation
  | .dqdec _ _ _ _ _ _ => .operation
  | .dqenc _ _ _ _ _ => .operation
  | .rcpa _ _ _ => .operation
  | .rsqa _ _ _ => .operation
  | .exp2a _ _ _ => .operation
  | .log2a _ _ _ => .operation
  | .sinpa _ _ _ => .operation
  | .cospa _ _ _ => .operation
  | .rcpstep _ _ _ _ => .operation
  | .rsqstep _ _ _ _ => .operation
  | .red _ _ _ _ _ _ => .operation
  | .perm _ _ _ _ => .operation
  | .lshf _ _ _ _ => .operation
  | .bcst _ _ _ _ => .operation
  | .recv _ _ _ _ _ _ => .operation
  | .send _ _ _ _ _ _ => .operation
  | .peek _ _ _ _ _ _ => .operation
  | .sendm _ _ _ _ _ => .operation
  | .mklv _ _ => .operation
  | .toks _ _ => .operation
  | .br _ _ _ => .operation
  | .cloop _ _ _ _ => .operation
  | .fend => .operation
  | .nopOp => .operation
  | .firingStart => .event
  | .firingOverrun => .event
  | .barrierPass => .event
  | .tld _ _ _ _ _ => .operation
  | .tst _ _ _ _ _ => .operation
  | .tldv _ _ _ _ _ => .operation
  | .tstv _ _ _ _ _ => .operation
  | .trcl _ _ _ _ _ => .operation
  | .versionedWaitResume => .event
  | .wld _ _ _ _ _ _ _ => .operation
  | .wadv _ _ => .operation
  | .windowRowArrival => .event
  | .mwld _ _ _ _ => .operation
  | .planeLoadComplete => .event
  | .mwsw => .operation
  | .mast _ _ => .operation
  | .mastPreset _ _ => .operation
  | .macc _ _ _ _ _ => .operation
  | .maccComplete => .event
  | .isect _ _ _ _ => .operation
  | .sacc _ _ _ => .operation
  | .slot _ _ _ => .operation
  | .seqt _ _ _ => .operation
  | .scnp _ _ _ => .operation
  | .cornerTurnBlock => .event
  | .intersectMatch => .event
  | .sparseAccAdd => .event
  | .reorderArrival => .event
  | .reorderEmit => .event
  | .nul _ => .switch
  | .route _ _ => .switch
  | .split _ _ => .switch
  | .merge _ _ _ => .switch
  | .deal _ _ => .switch
  | .turn _ _ _ _ => .switch
  | .barr _ _ => .switch
  | .hold _ _ => .switch
  | .roundEnd => .event
  | .roundVoid => .event
  | .voidTrapDelivery => .event
  | .watchdogExpiry => .event
  | .deviceReset _ _ _ _ => .event
  | .bootWindowAccess _ _ _ => .event
  | .bootRegisterWrite _ => .event
  | .commandTailWrite _ => .event
  | .garnetDoorbell _ => .event
  | .powerWindow => .event
  | .thermalLimit => .event
  | .illegalInstruction _ => .event
  | .sleepWake => .event
  | .temperatureFall => .event
  | .tdispLock _ => .event
  | .cxlLinkLost => .event
  | .flitAcknowledged => .event
  | .peerAccessArrival _ _ _ => .event
  | .completionHeadAdvance _ => .event

/-- The word of an instruction, from the encoding tables (R65, R76, R82). An event has none and answers 0. -/
def encode : Instr → Nat
  | .add gd ga gb => 0x4000000 + gd.toNat * 2097152 + ga.toNat * 65536 + gb.toNat * 2048
  | .sub gd ga gb => 0x4000001 + gd.toNat * 2097152 + ga.toNat * 65536 + gb.toNat * 2048
  | .and gd ga gb => 0x4000002 + gd.toNat * 2097152 + ga.toNat * 65536 + gb.toNat * 2048
  | .or gd ga gb => 0x4000003 + gd.toNat * 2097152 + ga.toNat * 65536 + gb.toNat * 2048
  | .xor gd ga gb => 0x4000004 + gd.toNat * 2097152 + ga.toNat * 65536 + gb.toNat * 2048
  | .sll gd ga gb => 0x4000005 + gd.toNat * 2097152 + ga.toNat * 65536 + gb.toNat * 2048
  | .srl gd ga gb => 0x4000006 + gd.toNat * 2097152 + ga.toNat * 65536 + gb.toNat * 2048
  | .sra gd ga gb => 0x4000007 + gd.toNat * 2097152 + ga.toNat * 65536 + gb.toNat * 2048
  | .slt gd ga gb => 0x4000008 + gd.toNat * 2097152 + ga.toNat * 65536 + gb.toNat * 2048
  | .sltu gd ga gb => 0x4000009 + gd.toNat * 2097152 + ga.toNat * 65536 + gb.toNat * 2048
  | .mul gd ga gb => 0x400000a + gd.toNat * 2097152 + ga.toNat * 65536 + gb.toNat * 2048
  | .mulh gd ga gb => 0x400000b + gd.toNat * 2097152 + ga.toNat * 65536 + gb.toNat * 2048
  | .mulhu gd ga gb => 0x400000c + gd.toNat * 2097152 + ga.toNat * 65536 + gb.toNat * 2048
  | .div gd ga gb => 0x400000d + gd.toNat * 2097152 + ga.toNat * 65536 + gb.toNat * 2048
  | .divu gd ga gb => 0x400000e + gd.toNat * 2097152 + ga.toNat * 65536 + gb.toNat * 2048
  | .rem gd ga gb => 0x400000f + gd.toNat * 2097152 + ga.toNat * 65536 + gb.toNat * 2048
  | .remu gd ga gb => 0x4000010 + gd.toNat * 2097152 + ga.toNat * 65536 + gb.toNat * 2048
  | .min gd ga gb => 0x4000011 + gd.toNat * 2097152 + ga.toNat * 65536 + gb.toNat * 2048
  | .max gd ga gb => 0x4000012 + gd.toNat * 2097152 + ga.toNat * 65536 + gb.toNat * 2048
  | .minu gd ga gb => 0x4000013 + gd.toNat * 2097152 + ga.toNat * 65536 + gb.toNat * 2048
  | .maxu gd ga gb => 0x4000014 + gd.toNat * 2097152 + ga.toNat * 65536 + gb.toNat * 2048
  | .clz gd ga => 0x8000000 + gd.toNat * 2097152 + ga.toNat * 65536
  | .ctz gd ga => 0x8000001 + gd.toNat * 2097152 + ga.toNat * 65536
  | .popc gd ga => 0x8000002 + gd.toNat * 2097152 + ga.toNat * 65536
  | .bext gd ga gb => 0x8000003 + gd.toNat * 2097152 + ga.toNat * 65536 + gb.toNat * 2048
  | .bins gd ga gb => 0x8000004 + gd.toNat * 2097152 + ga.toNat * 65536 + gb.toNat * 2048
  | .ptag gd ga => 0x8000005 + gd.toNat * 2097152 + ga.toNat * 65536
  | .pspace gd ga gb => 0x8000006 + gd.toNat * 2097152 + ga.toNat * 65536 + gb.toNat * 2048
  | .prank gd ga gb => 0x8000007 + gd.toNat * 2097152 + ga.toNat * 65536 + gb.toNat * 2048
  | .padd gd ga gb => 0x8000008 + gd.toNat * 2097152 + ga.toNat * 65536 + gb.toNat * 2048
  | .addi gd ga imm => 0xc000000 + gd.toNat * 2097152 + ga.toNat * 65536 + imm.toNat * 1
  | .andi gd ga imm => 0x10000000 + gd.toNat * 2097152 + ga.toNat * 65536 + imm.toNat * 1
  | .ori gd ga imm => 0x14000000 + gd.toNat * 2097152 + ga.toNat * 65536 + imm.toNat * 1
  | .xori gd ga imm => 0x18000000 + gd.toNat * 2097152 + ga.toNat * 65536 + imm.toNat * 1
  | .slli gd ga sh => 0x1c000000 + gd.toNat * 2097152 + ga.toNat * 65536 + sh.toNat * 1
  | .srli gd ga sh => 0x1c000040 + gd.toNat * 2097152 + ga.toNat * 65536 + sh.toNat * 1
  | .srai gd ga sh => 0x1c000080 + gd.toNat * 2097152 + ga.toNat * 65536 + sh.toNat * 1
  | .slti gd ga imm => 0x20000000 + gd.toNat * 2097152 + ga.toNat * 65536 + imm.toNat * 1
  | .sltui gd ga imm => 0x24000000 + gd.toNat * 2097152 + ga.toNat * 65536 + imm.toNat * 1
  | .lui gd imm => 0x28000000 + gd.toNat * 2097152 + imm.toNat * 1
  | .addpc gd imm => 0x2c000000 + gd.toNat * 2097152 + imm.toNat * 1
  | .brEq ga gb imm => 0x30000000 + ga.toNat * 2097152 + gb.toNat * 65536 + imm.toNat * 1
  | .brNe ga gb imm => 0x34000000 + ga.toNat * 2097152 + gb.toNat * 65536 + imm.toNat * 1
  | .brLt ga gb imm => 0x38000000 + ga.toNat * 2097152 + gb.toNat * 65536 + imm.toNat * 1
  | .brGe ga gb imm => 0x3c000000 + ga.toNat * 2097152 + gb.toNat * 65536 + imm.toNat * 1
  | .brLo ga gb imm => 0x40000000 + ga.toNat * 2097152 + gb.toNat * 65536 + imm.toNat * 1
  | .brHs ga gb imm => 0x44000000 + ga.toNat * 2097152 + gb.toNat * 65536 + imm.toNat * 1
  | .jmpl gd imm => 0x48000000 + gd.toNat * 2097152 + imm.toNat * 1
  | .jr ga => 0x4c000000 + ga.toNat * 65536
  | .jrl gd ga => 0x4c000001 + gd.toNat * 2097152 + ga.toNat * 65536
  | .loop lvl k cnt len => 0x50000000 + lvl.toNat * 16777216 + k.toNat * 8388608 + cnt.toNat * 16384 + len.toNat * 1
  | .lexit n => 0x54000000 + n.toNat * 2048
  | .lread gd n => 0x54000001 + gd.toNat * 2097152 + n.toNat * 2048
  | .ld g ga sz ord off => 0x58000000 + g.toNat * 2097152 + ga.toNat * 65536 + sz.toNat * 16384 + ord.toNat * 4096 + off.toNat * 1
  | .ldu g ga sz ord off => 0x5c000000 + g.toNat * 2097152 + ga.toNat * 65536 + sz.toNat * 16384 + ord.toNat * 4096 + off.toNat * 1
  | .st g ga sz ord off => 0x60000000 + g.toNat * 2097152 + ga.toNat * 65536 + sz.toNat * 16384 + ord.toNat * 4096 + off.toNat * 1
  | .loadReply => 0
  | .storeAck => 0
  | .ldv gd ga gb => 0x64000000 + gd.toNat * 2097152 + ga.toNat * 65536 + gb.toNat * 2048
  | .stv gs ga gb => 0x64000001 + gs.toNat * 2097152 + ga.toNat * 65536 + gb.toNat * 2048
  | .recl ga gb => 0x64000002 + ga.toNat * 65536 + gb.toNat * 2048
  | .vqry gd ga => 0x64000003 + gd.toNat * 2097152 + ga.toNat * 65536
  | .amoAdd gd ga gb aq rl dbl => 0x68000000 + gd.toNat * 2097152 + ga.toNat * 65536 + gb.toNat * 2048 + aq.toNat * 1024 + rl.toNat * 512 + dbl.toNat * 128
  | .amoAnd gd ga gb aq rl dbl => 0x68000001 + gd.toNat * 2097152 + ga.toNat * 65536 + gb.toNat * 2048 + aq.toNat * 1024 + rl.toNat * 512 + dbl.toNat * 128
  | .amoOr gd ga gb aq rl dbl => 0x68000002 + gd.toNat * 2097152 + ga.toNat * 65536 + gb.toNat * 2048 + aq.toNat * 1024 + rl.toNat * 512 + dbl.toNat * 128
  | .amoXor gd ga gb aq rl dbl => 0x68000003 + gd.toNat * 2097152 + ga.toNat * 65536 + gb.toNat * 2048 + aq.toNat * 1024 + rl.toNat * 512 + dbl.toNat * 128
  | .amoMin gd ga gb aq rl dbl => 0x68000004 + gd.toNat * 2097152 + ga.toNat * 65536 + gb.toNat * 2048 + aq.toNat * 1024 + rl.toNat * 512 + dbl.toNat * 128
  | .amoMax gd ga gb aq rl dbl => 0x68000005 + gd.toNat * 2097152 + ga.toNat * 65536 + gb.toNat * 2048 + aq.toNat * 1024 + rl.toNat * 512 + dbl.toNat * 128
  | .amoMinu gd ga gb aq rl dbl => 0x68000006 + gd.toNat * 2097152 + ga.toNat * 65536 + gb.toNat * 2048 + aq.toNat * 1024 + rl.toNat * 512 + dbl.toNat * 128
  | .amoMaxu gd ga gb aq rl dbl => 0x68000007 + gd.toNat * 2097152 + ga.toNat * 65536 + gb.toNat * 2048 + aq.toNat * 1024 + rl.toNat * 512 + dbl.toNat * 128
  | .amoSwp gd ga gb aq rl dbl => 0x68000008 + gd.toNat * 2097152 + ga.toNat * 65536 + gb.toNat * 2048 + aq.toNat * 1024 + rl.toNat * 512 + dbl.toNat * 128
  | .amoCas gd ga gb aq rl dbl => 0x68000009 + gd.toNat * 2097152 + ga.toNat * 65536 + gb.toNat * 2048 + aq.toNat * 1024 + rl.toNat * 512 + dbl.toNat * 128
  | .amoFadd gd ga gb aq rl => 0x6800000a + gd.toNat * 2097152 + ga.toNat * 65536 + gb.toNat * 2048 + aq.toNat * 1024 + rl.toNat * 512
  | .amoFadd2 gd ga gb aq rl => 0x6800000b + gd.toNat * 2097152 + ga.toNat * 65536 + gb.toNat * 2048 + aq.toNat * 1024 + rl.toNat * 512
  | .fence scope => 0x6c000000 + scope.toNat * 65536
  | .qfence ga => 0x6c000001 + ga.toNat * 65536
  | .wait ld st cp tl => 0x70000000 + ld.toNat * 4194304 + st.toNat * 262144 + cp.toNat * 16384 + tl.toNat * 1024
  | .time gd => 0x74000000 + gd.toNat * 2097152
  | .sleep ga => 0x74000001 + ga.toNat * 65536
  | .pchk gd ga => 0x74000002 + gd.toNat * 2097152 + ga.toNat * 65536
  | .sin gd ga gb => 0x78000000 + gd.toNat * 2097152 + ga.toNat * 65536 + gb.toNat * 2048
  | .sout gd ga gb => 0x78000001 + gd.toNat * 2097152 + ga.toNat * 65536 + gb.toNat * 2048
  | .sidx gd ga gb => 0x78000002 + gd.toNat * 2097152 + ga.toNat * 65536 + gb.toNat * 2048
  | .skill ga => 0x78000003 + ga.toNat * 65536
  | .spos gd ga => 0x78000004 + gd.toNat * 2097152 + ga.toNat * 65536
  | .streamReadIssue => 0
  | .streamReadReply => 0
  | .streamWriteToken => 0
  | .streamQueueAccess => 0
  | .cload gd ga gb => 0x7c000000 + gd.toNat * 2097152 + ga.toNat * 65536 + gb.toNat * 2048
  | .cloadSlotWritten => 0
  | .cnext ga gb => 0x7c000001 + ga.toNat * 65536 + gb.toNat * 2048
  | .nodeSwitch _ => 0
  | .csplice gd ga gb => 0x7c000002 + gd.toNat * 2097152 + ga.toNat * 65536 + gb.toNat * 2048
  | .spliceArrival => 0
  | .spliceSink _ => 0
  | .cfrz ga => 0x7c000003 + ga.toNat * 65536
  | .freezeComplete => 0
  | .cthaw ga => 0x7c000004 + ga.toNat * 65536
  | .csave ga gb => 0x7c000005 + ga.toNat * 65536 + gb.toNat * 2048
  | .csaveComplete => 0
  | .crest ga gb => 0x7c000006 + ga.toNat * 65536 + gb.toNat * 2048
  | .crestComplete => 0
  | .btok ga => 0x80000000 + ga.toNat * 65536
  | .bdrain gd ga => 0x80000001 + gd.toNat * 2097152 + ga.toNat * 65536
  | .boinit ga gb => 0x80000002 + ga.toNat * 65536 + gb.toNat * 2048
  | .boarr ga => 0x80000003 + ga.toNat * 65536
  | .bowait ga => 0x80000004 + ga.toNat * 65536
  | .boxfer ga gb => 0x80000005 + ga.toNat * 65536 + gb.toNat * 2048
  | .tsub gd ga gb => 0x84000000 + gd.toNat * 2097152 + ga.toNat * 65536 + gb.toNat * 2048
  | .tqopen gd ga => 0x84000001 + gd.toNat * 2097152 + ga.toNat * 65536
  | .tqclose ga => 0x84000002 + ga.toNat * 65536
  | .tjoin gd ga => 0x84000003 + gd.toNat * 2097152 + ga.toNat * 65536
  | .tsig ga => 0x84000004 + ga.toNat * 65536
  | .tend => 0x84000004
  | .tself gd => 0x84000005 + gd.toNat * 2097152
  | .joinCounterRead => 0
  | .taskStart => 0
  | .leadCoreEntry => 0
  | .tkWakeWrite _ => 0
  | .helperCoreStart => 0
  | .engineTaskComplete => 0
  | .hostMessageTask => 0
  | .cpy gd ga gb => 0x88000000 + gd.toNat * 2097152 + ga.toNat * 65536 + gb.toNat * 2048
  | .cpy2d gd ga gb => 0x88000001 + gd.toNat * 2097152 + ga.toNat * 65536 + gb.toNat * 2048
  | .cpyg gd ga gb => 0x88000002 + gd.toNat * 2097152 + ga.toNat * 65536 + gb.toNat * 2048
  | .cpyz gd ga => 0x88000003 + gd.toNat * 2097152 + ga.toNat * 65536
  | .cpq gd ga => 0x88000004 + gd.toNat * 2097152 + ga.toNat * 65536
  | .copyPieceIssue => 0
  | .copyComplete => 0
  | .promiseMissed => 0
  | .copyPieceFault => 0
  | .scop ga => 0x8c000000 + ga.toNat * 65536
  | .scgo gd ga gb => 0x8c000001 + gd.toNat * 2097152 + ga.toNat * 65536 + gb.toNat * 2048
  | .sccin ga => 0x8c000002 + ga.toNat * 65536
  | .sccout gd => 0x8c000003 + gd.toNat * 2097152
  | .scbar ga => 0x8c000004 + ga.toNat * 65536
  | .scanMemoryTransfer => 0
  | .scanBlockCombine => 0
  | .carryArrival => 0
  | .carryApply => 0
  | .pghint ga gb => 0x90000000 + ga.toNat * 65536 + gb.toNat * 2048
  | .pgmove gd ga gb => 0x90000001 + gd.toNat * 2097152 + ga.toNat * 65536 + gb.toNat * 2048
  | .pgqry gd ga => 0x90000002 + gd.toNat * 2097152 + ga.toNat * 65536
  | .pgdisc ga gb => 0x90000003 + ga.toNat * 65536 + gb.toNat * 2048
  | .pgnote gd => 0x90000004 + gd.toNat * 2097152
  | .pgthr ga gb => 0x90000005 + ga.toNat * 65536 + gb.toNat * 2048
  | .migrationStart => 0
  | .chunkCopy => 0
  | .migrationSwitch => 0
  | .invalidationComplete => 0
  | .migrationAbort => 0
  | .accessAtHome => 0
  | .translationWalk => 0
  | .psend gd ga gb => 0x94000000 + gd.toNat * 2097152 + ga.toNat * 65536 + gb.toNat * 2048
  | .pmask ga => 0x94000001 + ga.toNat * 65536
  | .punmask ga => 0x94000002 + ga.toNat * 65536
  | .pbind ga gb => 0x94000003 + ga.toNat * 65536 + gb.toNat * 2048
  | .packetDelivery => 0
  | .packetBlocked => 0
  | .recoveryTokenVisit => 0
  | .peerPacketArrival _ _ => 0
  | .flitCrcFail => 0
  | .laneFailing => 0
  | .linkLost => 0
  | .linkUp => 0
  | .pcreate gd ga gb => 0x98000000 + gd.toNat * 2097152 + ga.toNat * 65536 + gb.toNat * 2048
  | .pquota ga gb => 0x98000001 + ga.toNat * 65536 + gb.toNat * 2048
  | .pgrant ga gb => 0x98000002 + ga.toNat * 65536 + gb.toNat * 2048
  | .prevoke ga gb => 0x98000003 + ga.toNat * 65536 + gb.toNat * 2048
  | .pslice ga gb => 0x98000004 + ga.toNat * 65536 + gb.toNat * 2048
  | .pdestroy ga => 0x98000005 + ga.toNat * 65536
  | .aalloc gd ga => 0x98000006 + gd.toNat * 2097152 + ga.toNat * 65536
  | .afree ga => 0x98000007 + ga.toNat * 65536
  | .tinv ga gb => 0x98000008 + ga.toNat * 65536 + gb.toNat * 2048
  | .quantumEnd => 0
  | .preemption => 0
  | .sysr gd sysreg => 0x9c000000 + gd.toNat * 2097152 + sysreg.toNat * 16
  | .sysw ga sysreg => 0x9c000001 + ga.toNat * 65536 + sysreg.toNat * 16
  | .pmFpushWrite _ => 0
  | .ringSizeWrite _ _ => 0
  | .rtSideWrite _ => 0
  | .rtAsidWrite _ => 0
  | .trap code => 0x9c000002 + code.toNat * 16
  | .tret => 0x9c000003
  | .brk code => 0x9c000004 + code.toNat * 16
  | .nop => 0x9c000005
  | .halt => 0x9c000006
  | .idle => 0x9c000007
  | .eventDelivery => 0
  | .fadd vd va vb w pm => 0x4000000 + vd.toNat * 2097152 + va.toNat * 65536 + vb.toNat * 2048 + w.toNat * 16 + pm.toNat * 1
  | .fsub vd va vb w pm => 0x8000000 + vd.toNat * 2097152 + va.toNat * 65536 + vb.toNat * 2048 + w.toNat * 16 + pm.toNat * 1
  | .fmul vd va vb w pm => 0xc000000 + vd.toNat * 2097152 + va.toNat * 65536 + vb.toNat * 2048 + w.toNat * 16 + pm.toNat * 1
  | .fma vd va vb vc w pm => 0x10000000 + vd.toNat * 2097152 + va.toNat * 65536 + vb.toNat * 2048 + vc.toNat * 64 + w.toNat * 16 + pm.toNat * 1
  | .fms vd va vb vc w pm => 0x14000000 + vd.toNat * 2097152 + va.toNat * 65536 + vb.toNat * 2048 + vc.toNat * 64 + w.toNat * 16 + pm.toNat * 1
  | .fmin vd va vb w pm => 0x18000000 + vd.toNat * 2097152 + va.toNat * 65536 + vb.toNat * 2048 + w.toNat * 16 + pm.toNat * 1
  | .fmax vd va vb w pm => 0x1c000000 + vd.toNat * 2097152 + va.toNat * 65536 + vb.toNat * 2048 + w.toNat * 16 + pm.toNat * 1
  | .fabs vd va w pm => 0x20000000 + vd.toNat * 2097152 + va.toNat * 65536 + w.toNat * 16 + pm.toNat * 1
  | .fneg vd va w pm => 0x20000040 + vd.toNat * 2097152 + va.toNat * 65536 + w.toNat * 16 + pm.toNat * 1
  | .fcpys vd va vb w pm => 0x20000080 + vd.toNat * 2097152 + va.toNat * 65536 + vb.toNat * 2048 + w.toNat * 16 + pm.toNat * 1
  | .fxsgn vd va vb w pm => 0x200000c0 + vd.toNat * 2097152 + va.toNat * 65536 + vb.toNat * 2048 + w.toNat * 16 + pm.toNat * 1
  | .fcmp m va vb cond w pm => 0x24000000 + m.toNat * 2097152 + va.toNat * 65536 + vb.toNat * 2048 + cond.toNat * 64 + w.toNat * 16 + pm.toNat * 1
  | .sel vd va vb mask pm => 0x28000000 + vd.toNat * 2097152 + va.toNat * 65536 + vb.toNat * 2048 + mask.toNat * 64 + pm.toNat * 1
  | .iadd vd va vb w pm => 0x2c000000 + vd.toNat * 2097152 + va.toNat * 65536 + vb.toNat * 2048 + w.toNat * 16 + pm.toNat * 1
  | .isub vd va vb w pm => 0x30000000 + vd.toNat * 2097152 + va.toNat * 65536 + vb.toNat * 2048 + w.toNat * 16 + pm.toNat * 1
  | .imul vd va vb half w pm => 0x34000000 + vd.toNat * 2097152 + va.toNat * 65536 + vb.toNat * 2048 + half.toNat * 64 + w.toNat * 16 + pm.toNat * 1
  | .imad vd va vb vc w pm => 0x38000000 + vd.toNat * 2097152 + va.toNat * 65536 + vb.toNat * 2048 + vc.toNat * 64 + w.toNat * 16 + pm.toNat * 1
  | .imin vd va vb uns w pm => 0x3c000000 + vd.toNat * 2097152 + va.toNat * 65536 + vb.toNat * 2048 + uns.toNat * 64 + w.toNat * 16 + pm.toNat * 1
  | .imax vd va vb uns w pm => 0x40000000 + vd.toNat * 2097152 + va.toNat * 65536 + vb.toNat * 2048 + uns.toNat * 64 + w.toNat * 16 + pm.toNat * 1
  | .iand vd va vb w pm => 0x44000000 + vd.toNat * 2097152 + va.toNat * 65536 + vb.toNat * 2048 + w.toNat * 16 + pm.toNat * 1
  | .ior vd va vb w pm => 0x48000000 + vd.toNat * 2097152 + va.toNat * 65536 + vb.toNat * 2048 + w.toNat * 16 + pm.toNat * 1
  | .ixor vd va vb w pm => 0x4c000000 + vd.toNat * 2097152 + va.toNat * 65536 + vb.toNat * 2048 + w.toNat * 16 + pm.toNat * 1
  | .ishl vd va vb w pm => 0x50000000 + vd.toNat * 2097152 + va.toNat * 65536 + vb.toNat * 2048 + w.toNat * 16 + pm.toNat * 1
  | .ishr vd va vb logical w pm => 0x54000000 + vd.toNat * 2097152 + va.toNat * 65536 + vb.toNat * 2048 + logical.toNat * 64 + w.toNat * 16 + pm.toNat * 1
  | .icmp m va vb cond w pm => 0x58000000 + m.toNat * 2097152 + va.toNat * 65536 + vb.toNat * 2048 + cond.toNat * 64 + w.toNat * 16 + pm.toNat * 1
  | .iaddi vd va imm pm => 0x5c000000 + vd.toNat * 2097152 + va.toNat * 65536 + imm.toNat * 16 + pm.toNat * 1
  | .movi vd imm pm => 0x60000000 + vd.toNat * 2097152 + imm.toNat * 16 + pm.toNat * 1
  | .cvt vd va wid skind dkind ctl => 0x64000000 + vd.toNat * 2097152 + va.toNat * 65536 + wid.toNat * 16384 + skind.toNat * 4096 + dkind.toNat * 1024 + ctl.toNat * 1
  | .pack vd va skind dfmt sel ctl => 0x68000000 + vd.toNat * 2097152 + va.toNat * 65536 + skind.toNat * 32768 + dfmt.toNat * 2048 + sel.toNat * 512 + ctl.toNat * 1
  | .unpk vd va sfmt sel => 0x6c000000 + vd.toNat * 2097152 + va.toNat * 65536 + sfmt.toNat * 4096 + sel.toNat * 1024
  | .dqdec vd va vb vc dfmt part => 0x70000000 + vd.toNat * 2097152 + va.toNat * 65536 + vb.toNat * 2048 + vc.toNat * 64 + dfmt.toNat * 16 + part.toNat * 2
  | .dqenc vd va vb sfmt ctl => 0x74000000 + vd.toNat * 2097152 + va.toNat * 65536 + vb.toNat * 2048 + sfmt.toNat * 512 + ctl.toNat * 1
  | .rcpa vd va pm => 0x78000000 + vd.toNat * 2097152 + va.toNat * 65536 + pm.toNat * 1
  | .rsqa vd va pm => 0x78000040 + vd.toNat * 2097152 + va.toNat * 65536 + pm.toNat * 1
  | .exp2a vd va pm => 0x78000080 + vd.toNat * 2097152 + va.toNat * 65536 + pm.toNat * 1
  | .log2a vd va pm => 0x780000c0 + vd.toNat * 2097152 + va.toNat * 65536 + pm.toNat * 1
  | .sinpa vd va pm => 0x78000100 + vd.toNat * 2097152 + va.toNat * 65536 + pm.toNat * 1
  | .cospa vd va pm => 0x78000140 + vd.toNat * 2097152 + va.toNat * 65536 + pm.toNat * 1
  | .rcpstep vd va vb pm => 0x7c000000 + vd.toNat * 2097152 + va.toNat * 65536 + vb.toNat * 2048 + pm.toNat * 1
  | .rsqstep vd va vb pm => 0x7c000040 + vd.toNat * 2097152 + va.toNat * 65536 + vb.toNat * 2048 + pm.toNat * 1
  | .red vd va int op w pm => 0x80000000 + vd.toNat * 2097152 + va.toNat * 65536 + int.toNat * 256 + op.toNat * 64 + w.toNat * 16 + pm.toNat * 1
  | .perm vd va vb pm => 0x84000000 + vd.toNat * 2097152 + va.toNat * 65536 + vb.toNat * 2048 + pm.toNat * 1
  | .lshf vd va dist pm => 0x88000000 + vd.toNat * 2097152 + va.toNat * 65536 + dist.toNat * 64 + pm.toNat * 1
  | .bcst vd va vb pm => 0x8c000000 + vd.toNat * 2097152 + va.toNat * 65536 + vb.toNat * 2048 + pm.toNat * 1
  | .recv v port n lvl flg pm => 0x90000000 + v.toNat * 2097152 + port.toNat * 65536 + n.toNat * 2048 + lvl.toNat * 256 + flg.toNat * 16 + pm.toNat * 1
  | .send v port n lvl flg pm => 0x94000000 + v.toNat * 2097152 + port.toNat * 65536 + n.toNat * 2048 + lvl.toNat * 256 + flg.toNat * 16 + pm.toNat * 1
  | .peek v port n lvl flg pm => 0x98000000 + v.toNat * 2097152 + port.toNat * 65536 + n.toNat * 2048 + lvl.toNat * 256 + flg.toNat * 16 + pm.toNat * 1
  | .sendm v port inp lvl pm => 0x9c000000 + v.toNat * 2097152 + port.toNat * 65536 + inp.toNat * 2048 + lvl.toNat * 256 + pm.toNat * 1
  | .mklv port lvl => 0xa0000000 + port.toNat * 65536 + lvl.toNat * 256
  | .toks port flg => 0xa4100000 + port.toNat * 65536 + flg.toNat * 16
  | .br cc src disp => 0xa8000000 + cc.toNat * 4194304 + src.toNat * 65536 + disp.toNat * 64
  | .cloop k cnt len lvl => 0xac000000 + k.toNat * 33554432 + cnt.toNat * 65536 + len.toNat * 64 + lvl.toNat * 16
  | .fend => 0xb0000000
  | .nopOp => 0xf4000000
  | .firingStart => 0
  | .firingOverrun => 0
  | .barrierPass => 0
  | .tld v va q g pm => 0xb4000000 + v.toNat * 2097152 + va.toNat * 65536 + q.toNat * 1024 + g.toNat * 512 + pm.toNat * 1
  | .tst v va q g pm => 0xb8000000 + v.toNat * 2097152 + va.toNat * 65536 + q.toNat * 1024 + g.toNat * 512 + pm.toNat * 1
  | .tldv v va vv q pm => 0xbc000000 + v.toNat * 2097152 + va.toNat * 65536 + vv.toNat * 2048 + q.toNat * 1024 + pm.toNat * 1
  | .tstv v va vv q pm => 0xc0000000 + v.toNat * 2097152 + va.toNat * 65536 + vv.toNat * 2048 + q.toNat * 1024 + pm.toNat * 1
  | .trcl va vv q mk pm => 0xc4000000 + va.toNat * 65536 + vv.toNat * 2048 + q.toNat * 1024 + mk.toNat * 16 + pm.toNat * 1
  | .versionedWaitResume => 0
  | .wld vd va q win dy dx pm => 0xc8000000 + vd.toNat * 2097152 + va.toNat * 65536 + q.toNat * 32768 + win.toNat * 16384 + dy.toNat * 2048 + dx.toNat * 256 + pm.toNat * 1
  | .wadv q win => 0xcc000000 + q.toNat * 32768 + win.toNat * 16384
  | .windowRowArrival => 0
  | .mwld v t q fmt => 0xd0160000 + v.toNat * 2097152 + t.toNat * 512 + q.toNat * 256 + fmt.toNat * 16
  | .planeLoadComplete => 0
  | .mwsw => 0xd4160000
  | .mast v vn => 0xd8160000 + v.toNat * 2097152 + vn.toNat * 2048
  | .mastPreset v vn => 0xd8160100 + v.toNat * 2097152 + vn.toNat * 2048
  | .macc v row z seg fmt => 0xdc160000 + v.toNat * 2097152 + row.toNat * 2048 + z.toNat * 1024 + seg.toNat * 256 + fmt.toNat * 16
  | .maccComplete => 0
  | .isect v ux lvl inB => 0xe0180000 + v.toNat * 2097152 + ux.toNat * 65536 + lvl.toNat * 256 + inB.toNat * 16
  | .sacc v ux lvl => 0xe4180000 + v.toNat * 2097152 + ux.toNat * 65536 + lvl.toNat * 256
  | .slot v ux lvl => 0xe8180000 + v.toNat * 2097152 + ux.toNat * 65536 + lvl.toNat * 256
  | .seqt v ux lvl => 0xec180000 + v.toNat * 2097152 + ux.toNat * 65536 + lvl.toNat * 256
  | .scnp v lvl mask => 0xf0170000 + v.toNat * 2097152 + lvl.toNat * 256 + mask.toNat * 16
  | .cornerTurnBlock => 0
  | .intersectMatch => 0
  | .sparseAccAdd => 0
  | .reorderArrival => 0
  | .reorderEmit => 0
  | .nul inp => 0x0 + inp.toNat * 256
  | .route inp out => 0x1000 + inp.toNat * 256 + out.toNat * 1
  | .split inp out => 0x2000 + inp.toNat * 256 + out.toNat * 1
  | .merge inp inp2 out => 0x3000 + inp.toNat * 256 + inp2.toNat * 16 + out.toNat * 1
  | .deal inp out => 0x4000 + inp.toNat * 256 + out.toNat * 1
  | .turn inp code ux out => 0x5000 + inp.toNat * 256 + code.toNat * 16 + ux.toNat * 8 + out.toNat * 1
  | .barr out inps => 0x6000 + out.toNat * 256 + inps.toNat * 1
  | .hold port depth => 0x7000 + port.toNat * 256 + depth.toNat * 1
  | .roundEnd => 0
  | .roundVoid => 0
  | .voidTrapDelivery => 0
  | .watchdogExpiry => 0
  | .deviceReset _ _ _ _ => 0
  | .bootWindowAccess _ _ _ => 0
  | .bootRegisterWrite _ => 0
  | .commandTailWrite _ => 0
  | .garnetDoorbell _ => 0
  | .powerWindow => 0
  | .thermalLimit => 0
  | .illegalInstruction _ => 0
  | .sleepWake => 0
  | .temperatureFall => 0
  | .tdispLock _ => 0
  | .cxlLinkLost => 0
  | .flitAcknowledged => 0
  | .peerAccessArrival _ _ _ => 0
  | .completionHeadAdvance _ => 0

/-- The instruction that the decoder reads from a word of the opcode table, numbered as the table numbers its bits. A
16-bit word is a switch word. A 32-bit word is laid out as four little-endian bytes and read as a control word; where
the control map names no member it is read as an operation word, since the two maps share the same bit patterns.
DEDUCED (log 5), safe. -/
def decodeTableWord (nbits w : Nat) : Option Instr :=
  if nbits = 16 then
    match decodeSwitchBytes (Machine.leBytes 2 w) with
    | .ok (i, _) => some i
    | .error _ => none
  else if nbits = 32 then
    match decodeControlBytes (Machine.leBytes 4 w) with
    | .ok (i, _) => some i
    | .error _ =>
      match decodeOperationBytes (Machine.leBytes 4 w) with
      | .ok (i, _) => some i
      | .error _ => none
  else none

end Sys2Proof
end

