-- ==== Sys2Proof/Machine/Ops.lean ====
section
/-!
DEFINITION. The operations every meaning is written over: views of the state by unit, cycle accounting, bytes of
memory, the register file of a control core, taking a trap and returning from one, events, the end-of-body check, and
the one frame that a control word runs in.
-/

namespace Sys2Proof.Machine

/-! ### Cycle accounting -/

/-- The largest value of a 48-bit saturating counter (R103, R284). -/
def countMax : Nat := 2 ^ 48 - 1

/-- Saturating addition. -/
def satAdd (limit a b : Nat) : Nat := Nat.min limit (a + b)

/-- The unit enters a category in cycle `now`: the cycles since its last change count in the category it leaves. -/
def Acct.enter (a : Acct) (cat now : Nat) : Acct :=
  ⟨mapSet a.cnt a.cat (satAdd countMax (mapGet 0 a.cnt a.cat) (now - a.since)), cat, now⟩

/-- The count of a category that a SYSR performing in cycle `now` sees: counts of earlier cycles only (R264).
DEDUCED (log 31), safe. -/
def Acct.read (a : Acct) (cat now : Nat) : Nat :=
  satAdd countMax (mapGet 0 a.cnt cat) (if cat = a.cat then now - a.since else 0)

/-! ### Views of the state -/

/-- Tile `r`. -/
def State.tile (s : State) (r : Nat) : Tile := mapGet Tile.reset s.tiles r
/-- The state with tile `r` changed by `f`. -/
def State.modTile (s : State) (r : Nat) (f : Tile → Tile) : State :=
  { s with tiles := mapMod Tile.reset s.tiles r f }
/-- The control core of tile `r`. -/
def State.core (s : State) (r : Nat) : Core := (s.tile r).core
/-- The state with the control core of tile `r` changed by `f`. -/
def State.modCore (s : State) (r : Nat) (f : Core → Core) : State :=
  s.modTile r fun t => { t with core := f t.core }
/-- The fabric of tile `r`. -/
def State.fab (s : State) (r : Nat) : Fabric := (s.tile r).fab
/-- The state with the fabric of tile `r` changed by `f`. -/
def State.modFab (s : State) (r : Nat) (f : Fabric → Fabric) : State :=
  s.modTile r fun t => { t with fab := f t.fab }
/-- Cell `c` of tile `r`. -/
def State.cell (s : State) (r c : Nat) : Cell := mapGet Cell.reset (s.fab r).cells c
/-- The state with cell `c` of tile `r` changed by `f`. -/
def State.modCell (s : State) (r c : Nat) (f : Cell → Cell) : State :=
  s.modFab r fun fb => { fb with cells := mapMod Cell.reset fb.cells c f }
/-- Memory tile `q` (0 or 1) of a fabric. -/
def Fabric.mtile (f : Fabric) (q : Nat) : MTile := if q = 0 then f.q0 else f.q1
/-- The fabric with memory tile `q` changed by `g`. -/
def Fabric.modMtile (f : Fabric) (q : Nat) (g : MTile → MTile) : Fabric :=
  if q = 0 then { f with q0 := g f.q0 } else { f with q1 := g f.q1 }
/-- Memory tile `q` of tile `r`. -/
def State.mtile (s : State) (r q : Nat) : MTile := (s.fab r).mtile q
/-- The state with memory tile `q` of tile `r` changed by `g`. -/
def State.modMtile (s : State) (r q : Nat) (g : MTile → MTile) : State := s.modFab r fun f => f.modMtile q g
/-- Utility node `k` (0 or 1) of a fabric. -/
def Fabric.ux (f : Fabric) (k : Nat) : Util := if k = 0 then f.ux0 else f.ux1
/-- The fabric with utility node `k` changed by `g`. -/
def Fabric.modUx (f : Fabric) (k : Nat) (g : Util → Util) : Fabric :=
  if k = 0 then { f with ux0 := g f.ux0 } else { f with ux1 := g f.ux1 }
/-- Address generator `g` of a fabric. -/
def Fabric.gen (f : Fabric) (g : Nat) : Gen := mapGet Gen.reset f.gens g
/-- The fabric with address generator `g` changed by `h`. -/
def Fabric.modGen (f : Fabric) (g : Nat) (h : Gen → Gen) : Fabric :=
  { f with gens := mapMod Gen.reset f.gens g h }
/-- Address generator `g` of tile `r`. -/
def State.gen (s : State) (r g : Nat) : Gen := (s.fab r).gen g
/-- The state with address generator `g` of tile `r` changed by `h`. -/
def State.modGen (s : State) (r g : Nat) (h : Gen → Gen) : State := s.modFab r fun f => f.modGen g h
/-- The stream router of tile `r`. -/
def State.router (s : State) (r : Nat) : Router := (s.fab r).router
/-- The state with the stream router of tile `r` changed by `f`. -/
def State.modRouter (s : State) (r : Nat) (f : Router → Router) : State :=
  s.modFab r fun fb => { fb with router := f fb.router }
/-- The matrix array of tile `r`. -/
def State.mx (s : State) (r : Nat) : Matrix := (s.fab r).mx
/-- The state with the matrix array of tile `r` changed by `f`. -/
def State.modMx (s : State) (r : Nat) (f : Matrix → Matrix) : State := s.modFab r fun fb => { fb with mx := f fb.mx }
/-- The scan engine of tile `r`. -/
def State.scan (s : State) (r : Nat) : Scan := (s.fab r).scan
/-- The state with the scan engine of tile `r` changed by `f`. -/
def State.modScan (s : State) (r : Nat) (f : Scan → Scan) : State :=
  s.modFab r fun fb => { fb with scan := f fb.scan }
/-- Partition `p`. -/
def State.part (s : State) (p : Nat) : Partition := mapGet Partition.reset s.parts p
/-- The state with partition `p` changed by `f`. -/
def State.modPart (s : State) (p : Nat) (f : Partition → Partition) : State :=
  { s with parts := mapMod Partition.reset s.parts p f }
/-- Sub-partition `n`. -/
def State.subp (s : State) (n : Nat) : SubPart := mapGet SubPart.reset s.subps n
/-- The state with sub-partition `n` changed by `f`. -/
def State.modSubp (s : State) (n : Nat) (f : SubPart → SubPart) : State :=
  { s with subps := mapMod SubPart.reset s.subps n f }
/-- ASID `a`. -/
def State.asid (s : State) (a : Nat) : AsidRec := mapGet AsidRec.reset s.asids a
/-- Queue context `q`. -/
def State.queue (s : State) (q : Nat) : QueueCtx := mapGet QueueCtx.reset s.queues q
/-- The state with queue context `q` changed by `f`. -/
def State.modQueue (s : State) (q : Nat) (f : QueueCtx → QueueCtx) : State :=
  { s with queues := mapMod QueueCtx.reset s.queues q f }
/-- Copy engine `b`. -/
def State.engine (s : State) (b : Nat) : Engine := mapGet Engine.reset s.engines b
/-- The state with copy engine `b` changed by `f`. -/
def State.modEngine (s : State) (b : Nat) (f : Engine → Engine) : State :=
  { s with engines := mapMod Engine.reset s.engines b f }
/-- Garnet agent `a`. -/
def State.agent (s : State) (a : Nat) : Agent := mapGet Agent.reset s.agents a
/-- The state with Garnet agent `a` changed by `f`. -/
def State.modAgent (s : State) (a : Nat) (f : Agent → Agent) : State :=
  { s with agents := mapMod Agent.reset s.agents a f }
/-- Llynoz Link port `p`. -/
def State.link (s : State) (p : Nat) : Link := mapGet Link.reset s.links p
/-- The state with link port `p` changed by `f`. -/
def State.modLink (s : State) (p : Nat) (f : Link → Link) : State :=
  { s with links := mapMod Link.reset s.links p f }

/-- The running region whose lead rank is `lead`. -/
def State.region? (s : State) (lead : Nat) : Option Region := mapFind s.regions lead
/-- The state with the region led by `lead` changed by `f`, where there is one. -/
def State.modRegion (s : State) (lead : Nat) (f : Region → Region) : State :=
  match s.region? lead with
  | some g => { s with regions := mapSet s.regions lead (f g) }
  | none => s
/-- The ranks of a region's tiles. -/
def Region.ranks (g : Region) : List Nat := (List.range (2 ^ g.lgn)).map (g.lead + ·)
/-- The running region that holds tile `r` (R19: an aligned block). -/
def State.regionOf (s : State) (r : Nat) : Option Region :=
  (s.regions.map Prod.snd).find? fun g => decide (g.lead ≤ r ∧ r < g.lead + 2 ^ g.lgn)
/-- The lead core of the region that holds tile `r`, or the tile's own core. -/
def State.leadOf (s : State) (r : Nat) : Nat := (s.regionOf r).elim r Region.lead
/-- The state with the region that holds tile `r` marked as having moved something in this cycle (R404). -/
def State.touch (s : State) (r : Nat) : State :=
  match s.regionOf r with
  | some g => s.modRegion g.lead fun g => { g with moved := true }
  | none => s
/-- A fresh identifier. -/
def State.bumpId (s : State) : State := { s with nextId := s.nextId + 1 }

/-- The state with an effect that begins with the next cycle. -/
def State.defer (s : State) (e : Later) : State := { s with later := s.later ++ [e] }

/-! ### Bytes of memory (R3) -/

/-- `n` bytes of a memory from address `a` up. -/
def readBytes (m : Memory) (a n : Nat) : List Byte := (List.range n).map fun i => mapGet 0 m (a + i)
/-- The little-endian value of `n` bytes from address `a` up. -/
def readVal (m : Memory) (a n : Nat) : Nat := leValue (readBytes m a n)
/-- The memory with the bytes stored from address `a` up. -/
def writeBytes (m : Memory) (a : Nat) : List Byte → Memory
  | [] => m
  | b :: bs => writeBytes (mapPut 0 m a b) (a + 1) bs
/-- The memory with the low `n` bytes of `v` stored little-endian from address `a` up. -/
def writeVal (m : Memory) (a n v : Nat) : Memory := writeBytes m a (leBytes n v)
/-- The memory with `n` bytes from address `a` up zeroed. -/
def clearBytes (m : Memory) (a n : Nat) : Memory := m.filter fun e => decide (e.1 < a ∨ a + n ≤ e.1)
/-- The canonical form of a memory: addresses strictly rising, and no entry that equals what an unlisted address reads
as. -/
def Memory.wf (m : Memory) : Bool :=
  decide ((m.map Prod.fst).Pairwise (· < ·)) && m.all fun e => e.2 != 0

/-! ### Registers of a control core -/

/-- The number of bytes of private memory (R255), the modulus of the program counter. -/
def privSize : Nat := 262144

/-- Register `g` of a core; g0 reads zero (R61). -/
def Core.reg (c : Core) (g : BitVec 5) : DWord := if g = 0 then 0 else c.regs[g.toNat]'g.isLt
/-- The core with register `g` holding `v`; g0 ignores writes (R61), and a write clears a register's poison (R273). -/
def Core.setReg (c : Core) (g : BitVec 5) (v : DWord) : Core :=
  if g = 0 then c
  else { c with regs := c.regs.set g.toNat v g.isLt, poison := mapDel c.poison g.toNat }
/-- The core with register `g` poisoned by a load through pointer `p` (R273). -/
def Core.setPoison (c : Core) (g : BitVec 5) (p : DWord) : Core :=
  if g = 0 then c else { c with poison := mapSet c.poison g.toNat p }
/-- Register `g` of the core of tile `r`. -/
def State.reg (s : State) (r : Nat) (g : BitVec 5) : DWord := (s.core r).reg g
/-- The state with register `g` of the core of tile `r` holding `v`. -/
def State.setReg (s : State) (r : Nat) (g : BitVec 5) (v : DWord) : State := s.modCore r fun c => c.setReg g v
/-- The trap registers of level `l`. -/
def Core.trap (c : Core) (l : Nat) : TrapRegs := mapGet TrapRegs.reset c.traps l
/-- The core with the trap registers of level `l` changed by `f`. -/
def Core.modTrap (c : Core) (l : Nat) (f : TrapRegs → TrapRegs) : Core :=
  { c with traps := mapMod TrapRegs.reset c.traps l f }
/-- The loop bank of level `l`. -/
def Core.bank (c : Core) (l : Nat) : LoopBank := mapGet LoopBank.reset c.loops l
/-- The core with the loop bank of level `l` changed by `f`. -/
def Core.modBank (c : Core) (l : Nat) (f : LoopBank → LoopBank) : Core :=
  { c with loops := mapMod LoopBank.reset c.loops l f }
/-- The core enters an accounting category (R284). -/
def Core.account (c : Core) (cat now : Nat) : Core := { c with acct := c.acct.enter cat now }

/-! ### Taking a trap and returning from one -/

/-- L.tstat.IH (R262). -/
def Core.ih (c : Core) (l : Nat) : Bool := (c.trap l).stat.toNat.testBit 2

/-- Deleg(`l`).pass[`cause`] for a fault raised for the core of tile `r` (R393, R365). -/
def State.passes (s : State) (r l cause : Nat) : Bool :=
  match l with
  | 0 => (s.tile r).owner.elim false fun p => (s.part p).opDeleg.toNat.testBit cause
  | 1 => (s.tile r).owner.elim false fun p => (s.part p).pmDeleg.toNat.testBit cause
  | _ => (s.core r).rtDeleg.toNat.testBit cause

/-- Floor(c) (R393, R358, R343): no cause is delivered below it. -/
def causeFloor (cause : Nat) : Nat :=
  if cause = 3 then 2 else if cause = 4 then 1 else if cause = 5 then 0 else if cause = 15 then 1 else 3

/-- The level at which the loop of R393 stops. -/
def delegLevel (passes : Nat → Bool) (run : Nat) : Nat :=
  if run = 0 || !passes 0 then 0
  else if run = 1 || !passes 1 then 1
  else if run = 2 || !passes 2 then 2
  else 3

/-- The level that a delegable cause goes to (R393). Cause 15 goes to partition level whatever pm.deleg holds, or to
operator level when that level runs (R343). DEDUCED (log 110), unsafe. -/
def State.target (s : State) (r run cause : Nat) : Nat :=
  if cause = 15 then Nat.min run 1
  else Nat.min (delegLevel (fun l => s.passes r l cause) run) (causeFloor cause)

/-- Where a word's fault goes when handlers are already running: the first level at or above the target whose IH is 0,
or nowhere (R394). -/
def Core.redirect (c : Core) : Nat → Option Nat
  | 0 => if c.ih 0 then none else some 0
  | n + 1 => if c.ih (n + 1) then c.redirect n else some (n + 1)

/-- Trap entry at level `l` (R280): tepc, tcause, tval and tstat are set, the level becomes `l` and the pc its tvec. -/
def Core.enterTrap (c : Core) (l cause epc : Nat) (val : DWord) : Core :=
  { (c.modTrap l fun t => { t with
      cause := BitVec.ofNat 64 cause, epc := BitVec.ofNat 64 (epc % privSize), val := val,
      stat := BitVec.ofNat 64 (4 + c.level) }) with
    level := l, pc := (c.trap l).vec.toNat, stall := none }

/-- The core stops fetching for good: HALT, or a fault that no level can take (R279, R394).
DEDUCED (log 32), unsafe. -/
def Core.halt (c : Core) (now : Nat) : Core := { c with mode := .halted, stall := none, acct := c.acct.enter 7 now }
/-- The core stops, unless HALT has stopped it already: only device reset starts that one again (R279). -/
def Core.rest (c : Core) : CoreMode := if c.mode = .halted then .halted else .stopped
/-- The core starts with the next cycle, this one being still of category 7 (R284); one that HALT has stopped does not (R279). -/
def Core.start (c : Core) (now : Nat) : Core :=
  if c.mode = .halted then c else { c with mode := .running, stall := none, nextAt := now + 1, acct := c.acct.enter 0 (now + 1) }

/-- A fault of a word of the core of tile `r` is taken at level `tgt` or above (R280, R394). -/
def State.trapAt (s : State) (r tgt cause epc : Nat) (val : DWord) : State :=
  s.modCore r fun c =>
    match c.redirect tgt with
    | some l => { c.enterTrap l cause epc val with nextAt := s.now + 1 }
    | none => c.halt s.now

/-- A delegable fault of the word at `epc` (R393). -/
def State.fault (s : State) (r cause epc : Nat) (val : DWord) : State :=
  s.trapAt r (s.target r (s.core r).level cause) cause epc val

/-- Return from a trap at the running level (R282): pc, level and IH. The caller has checked the level rules. -/
def Core.leaveTrap (c : Core) : Core :=
  let t := c.trap c.level
  { (c.modTrap c.level fun t => { t with stat := t.stat &&& 3 }) with
    pc := t.epc.toNat, level := t.stat.toNat % 4, stall := none }

/-! ### Events between words -/

/-- An event raised for a core at a level; the seventeenth that waits is dropped and counted (R394). -/
def Core.pushEvent (c : Core) (e : Event) : Core :=
  if c.events.length < 16 then { c with events := c.events ++ [e] } else { c with elost := satAdd 255 c.elost 1 }
/-- An event for the core of tile `r` aimed at level `tgt`. -/
def State.raiseAt (s : State) (r cause : Nat) (val : DWord) (tgt : Nat) : State :=
  s.modCore r fun c => c.pushEvent ⟨cause, val, tgt, false⟩
/-- A delegable event for the core of tile `r`, raised while that core runs at level `run` (R393). -/
def State.raise (s : State) (r run cause : Nat) (val : DWord) : State :=
  s.raiseAt r cause val (s.target r run cause)
/-- An event for the steward core of partition `p`, with *run* taken as partition level (R289). -/
def State.raiseSteward (s : State) (p cause : Nat) (val : DWord) : State :=
  let r := (s.part p).steward
  s.raise r 1 cause val
/-- Whether a held event can be delivered: its level is not below the running one and its IH is 0 (R394). -/
def Core.canTake (c : Core) (e : Event) : Bool := decide (e.tgt ≤ c.level) && !c.ih e.tgt
/-- The oldest event that can be delivered, and the others in their order. -/
def Core.takeEvent (c : Core) : Option (Event × List Event) :=
  match c.events.find? c.canTake with
  | some e => some (e, c.events.erase e)
  | none => none

/-! ### Hardware loops (R255, R256, R269) -/

/-- lct of loop `k`. -/
def LoopBank.count (b : LoopBank) (k : Nat) : Nat := (mapGet 0 b.lct k).toNat
/-- lsa of loop `k`. -/
def LoopBank.start (b : LoopBank) (k : Nat) : Nat := mapGet 0 b.lsa k
/-- lea of loop `k`. -/
def LoopBank.stop (b : LoopBank) (k : Nat) : Nat := mapGet 0 b.lea k
/-- The bank with lct of loop `k` set. -/
def LoopBank.setCount (b : LoopBank) (k v : Nat) : LoopBank := { b with lct := mapSet b.lct k (BitVec.ofNat 64 v) }

/-- The end-of-body check of loops `k` − 1 down to 0 after the word at `addr`: the bank after it, and the address the
next word comes from where a loop goes round again (R269). -/
def LoopBank.check (b : LoopBank) (addr : Nat) : Nat → LoopBank × Option Nat
  | 0 => (b, none)
  | k + 1 =>
    if b.count k > 0 ∧ b.stop k = addr then
      if b.count k > 1 then (b.setCount k (b.count k - 1), some (b.start k))
      else (b.setCount k 0).check addr k
    else b.check addr k

/-- The core after its word at the pc completes with the next address as successor (R269). -/
def Core.stepOn (c : Core) : Core :=
  let r := (c.bank c.level).check c.pc 4
  { (c.modBank c.level fun _ => r.1) with pc := r.2.getD ((c.pc + 4) % privSize) }

/-! ### The frame of a control word -/

/-- How a control word ends. -/
inductive WordEnd where
  /-- it completes, occupies the core for `cycles`, and the next word follows after the end-of-body check -/
  | retire (s : State) (cycles : Nat)
  /-- it completes and continues at `pc`; no end-of-body check is made -/
  | jump (s : State) (pc : Nat)
  /-- it stalls and begins again in the next cycle, counting in a category of R284 -/
  | wait (s : State) (cat : Nat)
  /-- it raises a delegable cause, in a state in which the word itself has had no effect -/
  | trap (s : State) (cause : Nat) (val : DWord)
  /-- it has set the core's level, pc and mode itself -/
  | done (s : State)

/-- The state after a control word of the core of tile `r` ends. -/
def State.endWord (s : State) (r : Nat) : WordEnd → State
  | .retire s' n => s'.modCore r fun c => { (c.stepOn.account 0 s.now) with stall := none, nextAt := s.now + n }
  | .jump s' pc => s'.modCore r fun c =>
      { (c.account 0 s.now) with pc := pc % privSize, stall := none, nextAt := s.now + 1 }
  | .wait s' cat => s'.modCore r fun c => { (c.account cat s.now) with nextAt := s.now + 1 }
  | .trap s' cause val => (s'.modCore r fun c => c.account 0 s.now).fault r cause (s.core r).pc val
  | .done s' => s'

/-- The first of some registers that is poisoned, by the pointer of the load that poisoned it (R273). -/
def Core.firstPoison (c : Core) : List (BitVec 5) → Option DWord
  | [] => none
  | g :: gs => match mapFind c.poison g.toNat with
    | some p => some p
    | none => c.firstPoison gs

/-- Whether a register that a word reads or writes waits for a load (R271). -/
def Core.waitsOn (c : Core) (gs : List (BitVec 5)) : Bool := gs.any fun g => c.pend.contains g.toNat

/-- Runs a control word of the core in focus that reads and writes the given registers: it waits for registers still
to be loaded (R271), raises cause 13 on a poisoned source (R273), and else runs `body` for the core's tile. -/
def State.word (s : State) (reads writes : List (BitVec 5)) (body : Nat → WordEnd) : State :=
  let r := s.foc.unit
  let c := s.core r
  if c.waitsOn (reads ++ writes) then s.endWord r (.wait s 1)
  else match c.firstPoison reads with
    | some p => s.endWord r (.trap s 13 p)
    | none => s.endWord r (body r)

/-- As `State.word`, for a load, store, atomic or engine command: it is also held behind an acquire whose data has not
returned (R272). -/
def State.memWord (s : State) (reads writes : List (BitVec 5)) (body : Nat → WordEnd) : State :=
  s.word reads writes fun r => if (s.core r).acquires.isEmpty then body r else .wait s 1

/-- The running level of the core of tile `r`. -/
def State.level (s : State) (r : Nat) : Nat := (s.core r).level
/-- The partition that owns tile `r`. -/
def State.owner (s : State) (r : Nat) : Option Nat := (s.tile r).owner

/-- tval of a cause 6, 17 or 18 fault whose operand is a pointer: bits [3:0] replaced by the subcode (R458). -/
def ptrSub (p : DWord) (sub : Nat) : DWord := BitVec.ofNat 64 (p.toNat - p.toNat % 16 + sub % 16)
/-- tval of a cause 6 fault whose operand is no pointer: the subcode in [63:56], the operand below (R458). -/
def valSub (v : DWord) (sub : Nat) : DWord := BitVec.ofNat 64 (sub * 2 ^ 56 + v.toNat % 2 ^ 56)

end Sys2Proof.Machine
end

