-- ==== Sys2Proof/Machine/Operands.lean ====
section
/-!
DEFINITION. Operand forms: tagged pointers and their checks (R62 to R64), the offsets and pieces of the spaces, and the
lanes, elements, masks and predicates of operation words (R16, R40, R77, R96).
-/

namespace Sys2Proof.Machine

/-! ### Tagged pointers -/

/-- The space of a pointer (R62). -/
def ptrSpace (p : DWord) : Nat := bits p.toNat 60 4
/-- The rank or peer field of a pointer (R62). -/
def ptrRank (p : DWord) : Nat := bits p.toNat 50 9
/-- The byte offset of a pointer (R62). -/
def ptrOff (p : DWord) : Nat := bits p.toNat 0 48
/-- A pointer with its offset advanced modulo 2^48; bits [63:48] stay (R62). -/
def ptrAdd (p : DWord) (n : Nat) : DWord := BitVec.ofNat 64 (setBits p.toNat 0 48 (ptrOff p + n))
/-- A pointer with its offset advanced by a signed amount (R62, R70). -/
def ptrAddInt (p : DWord) (n : Int) : DWord := ptrAdd p (wrapNat 48 n)
/-- A pointer of a space with an offset, rank zero. -/
def mkPtr (space off : Nat) : DWord := BitVec.ofNat 64 (space * 2 ^ 60 + off % 2 ^ 48)

/-- The size in bytes of a slice bank: branch, bough, stack (R17). -/
def bankSize (level : Nat) : Nat := if level = 0 then 2 * 2 ^ 20 else if level = 1 then 8 * 2 ^ 20 else 32 * 2 ^ 20
/-- The device-wide number of the bank of a level above a tile (R18). -/
def bankOf (level rank : Nat) : Nat := if level = 0 then rank / 4 else if level = 1 then rank / 16 else rank / 64
/-- The tiles under a bank, as first rank and count. -/
def bankTiles (level bank : Nat) : Nat × Nat :=
  if level = 0 then (bank * 4, 4) else if level = 1 then (bank * 16, 16) else (bank * 64, 64)

/-- Step 1 of R64: a space in use, reserved bits zero, a rank of zero where R63 requires it, and an offset within the
limit of its space. -/
def ptrFormOk (p : DWord) : Bool :=
  let sp := ptrSpace p
  let off := ptrOff p
  decide (sp < 8) && !p.toNat.testBit 59 && bits p.toNat 48 2 == 0 &&
    (if sp = 0 ∨ sp = 1 ∨ sp = 4 ∨ sp = 7 then ptrRank p == 0 else true) &&
    (if sp = 1 ∨ sp = 2 ∨ sp = 5 then decide (off < 2 ^ 21)
     else if sp = 3 then decide (off / 2 ^ 46 < 3 ∧ off % 2 ^ 46 < bankSize (off / 2 ^ 46))
     else if sp = 4 then decide (off < 2 ^ 18)
     else true)

/-- Steps 1 to 4 of R64 for an instruction that accepts the listed spaces, at a level: the cause of the first failing
check. -/
def ptrFault (accept : List Nat) (level size : Nat) (p : DWord) : Option Nat :=
  if !ptrFormOk p then some 3
  else if !accept.contains (ptrSpace p) then some 3
  else if ptrSpace p = 7 ∧ level ≥ 2 then some 1
  else if ptrOff p % size ≠ 0 then some 2
  else none

/-- Step 5 of R64 for space 4: an offset below the level's bound raises privilege (R257). -/
def privFault (c : Core) (p : DWord) : Option Nat :=
  if ptrOff p < (c.trap c.level).pbound.toNat then some 1 else none

/-- Whether the tiles under a slice bank belong to more than one partition (R328). A tile that no partition owns is the
operator's. -/
def sliceShared (s : State) (level bank : Nat) : Bool :=
  let (first, n) := bankTiles level bank
  (List.range n).any fun i => decide ((s.tile (first + i)).owner ≠ (s.tile first).owner)

/-- The memory tile and byte offset of a space-1 or space-2 pointer (R63). -/
def tilePart (p : DWord) : Nat × Nat := (ptrOff p / 2 ^ 20, ptrOff p % 2 ^ 20)

/-- Where one piece of an access ends: the byte that follows `off` at the next boundary of `step` bytes, or the end. -/
def pieceEnd (off stop step : Nat) : Nat := Nat.min stop ((off / step + 1) * step)

/-! ### Lanes, elements and predicates of operation words -/

/-- The fused size of a cell: that of its actors (R89). -/
def Cell.size (c : Cell) : Nat := match c.actors with
  | [] => 1
  | a :: _ => 2 ^ a.lgf

/-- Lane `i` of a register. -/
def lane (l : Lanes) (i : Nat) : Word := l.getD i 0
/-- Register `v` of a firing of `n` lanes; a register not yet written is zero (R96). -/
def Firing.reg (f : Firing) (n : Nat) (v : Nat) : Lanes := mapGet (List.replicate n 0) f.regs v
/-- The firing with register `v` holding `l`. -/
def Firing.setReg (f : Firing) (v : Nat) (l : Lanes) : Firing := { f with regs := mapSet f.regs v l }
/-- Mask `k` of a firing of `n` lanes; m0 reads all ones (R86), the others are zero until written (R96). -/
def Firing.mask (f : Firing) (n : Nat) (k : Nat) : List Bool :=
  if k = 0 then List.replicate n true else mapGet (List.replicate n false) f.masks k
/-- The firing with mask `k` holding `m`. -/
def Firing.setMask (f : Firing) (k : Nat) (m : List Bool) : Firing := { f with masks := mapSet f.masks k m }
/-- Whether a predicate selects lane `i` (R77). -/
def Firing.selects (f : Firing) (n pm i : Nat) : Bool :=
  if pm = 0 then true
  else if pm < 8 then (f.mask n pm).getD i false
  else !(f.mask n (pm - 8)).getD i false

/-- Element `e` of width `b` bits of a lane (R40, R121). -/
def elemOf (b e : Nat) (x : Word) : Nat := bits x.toNat (b * e) b
/-- A lane from its elements of width `b`, lowest first. -/
def packElems (b : Nat) : List Nat → Nat
  | [] => 0
  | x :: xs => x % 2 ^ b + 2 ^ b * packElems b xs
/-- The lane whose element `e` of width `b` is `v`, the others as in `x`. -/
def setElem (b e v : Nat) (x : Word) : Word := BitVec.ofNat 32 (setBits x.toNat (b * e) b v)

/-- The floating-point format of a w field (R77). -/
def floatOfW (w : Nat) : ElemFormat := if w = 0 then .fp32 else if w = 1 then .fp16 else .bf16
/-- The element width of an integer w field (R77). -/
def intWidthOfW (w : Nat) : Nat := if w = 0 then 32 else if w = 1 then 16 else 8

end Sys2Proof.Machine
end

