-- ==== Sys2Proof/Machine/Tiles.lean ====
section
/-!
DEFINITION. Memory tiles: the map of regions, plain words with their error state, versioned words and their slot rules,
and the counters of rt.mtstat (R144 to R168).
-/

namespace Sys2Proof.Machine

/-- The number of words of a memory tile. -/
def tileWords : Nat := 262144

/-- A region of a memory tile: its map index, mode (0 plain, 1 versioned, 2 queue), TOL, first word and length. -/
structure MapRegion where
  idx  : Nat
  mode : Nat
  tol  : Bool
  base : Nat
  len  : Nat
  deriving DecidableEq, Repr, Inhabited

/-- A map entry of R144 as a region. -/
def mapEntry (idx e : Nat) : MapRegion := ⟨idx, bits e 62 2, e.testBit 61, bits e 32 18, bits e 0 19⟩

/-- The used regions of a memory tile: those of its map, or one plain region over all of it (R146). -/
def MTile.regions (m : MTile) : List MapRegion :=
  if m.mapped then (((List.range 8).map fun i => mapEntry i (nth 0 m.map i)).filter fun g => decide (g.len > 0))
  else [⟨0, 0, false, 0, tileWords⟩]

/-- The region that holds a word. -/
def MTile.regionOf (m : MTile) (w : Nat) : Option MapRegion :=
  m.regions.find? fun g => decide (g.base ≤ w ∧ w < g.base + g.len)

/-- The region of map index `i`, where it is used and has the wanted mode. -/
def MTile.regionAt (m : MTile) (i mode : Nat) : Option MapRegion :=
  m.regions.find? fun g => decide (g.idx = i ∧ g.mode = mode)

/-- R148 for plain words: the region that holds them all, or the subcode of the first failure (R158).
DEDUCED (log 60), unsafe. -/
def MTile.plainRegion (m : MTile) (ws : List Nat) : Except Nat (Option MapRegion) :=
  match ws with
  | [] => .ok none
  | w :: _ =>
    if ws.any fun w => (m.regionOf w).isNone then .error 0
    else if ws.any fun w => (m.regionOf w).any fun g => g.mode != 0 then .error 1
    else if ws.any fun v => (m.regionOf v).map MapRegion.idx != (m.regionOf w).map MapRegion.idx then .error 2
    else .ok (m.regionOf w)

/-- Word `w` of a memory tile. -/
def MTile.word (m : MTile) (w : Nat) : Word := BitVec.ofNat 32 (readVal m.mem (4 * w) 4)
/-- The memory tile with `n` bytes at byte `off` written; the words they lie in hold no error afterwards (R167). -/
def MTile.write (m : MTile) (off n v : Nat) : MTile :=
  let ws := (List.range ((off + n + 3) / 4 - off / 4)).map (off / 4 + ·)
  { m with mem := writeVal m.mem off n v,
           poisoned := m.poisoned.filter fun w => !ws.contains w,
           soft := m.soft.filter fun w => !ws.contains w }
/-- The memory tile with word `w` written. -/
def MTile.setWord (m : MTile) (w : Nat) (v : Word) : MTile := m.write (4 * w) 4 v.toNat

/-- A single-bit error of a word that is read is repaired and counted (R166). -/
def MTile.correct (m : MTile) (w : Nat) : MTile :=
  if m.soft.contains w then { m with soft := m.soft.erase w, cecc := satAdd 0xFFFF m.cecc 1 } else m
/-- The memory tile after its single-bit errors in some words have been repaired. -/
def MTile.correctAll (m : MTile) (ws : List Nat) : MTile := ws.foldl MTile.correct m

/-- The words that `n` bytes at byte `off` touch. -/
def wordsOf (off n : Nat) : List Nat := (List.range ((off + n + 3) / 4 - off / 4)).map (off / 4 + ·)

/-- The value of `n` bytes at byte `off`, with the bytes of poisoned words zero where the region is tolerant (R167). -/
def MTile.tolerant (m : MTile) (off n : Nat) : Nat :=
  leValue ((List.range n).map fun i =>
    if m.poisoned.contains ((off + i) / 4) then 0 else mapGet 0 m.mem (off + i))

/-- Whether any of some words holds an uncorrectable error. -/
def MTile.anyBad (m : MTile) (ws : List Nat) : Bool := ws.any m.poisoned.contains

/-- Some substitutions are counted for a partition, from the next cycle (R167, R264, R330). -/
def State.countSubs (s : State) (part : Option Nat) (n : Nat) : State :=
  match part with
  | some p => if n = 0 then s else s.defer (.sub p n)
  | none => s
/-- A substitution is counted for a partition (R167, R330). -/
def State.countSub (s : State) (part : Option Nat) : State := s.countSubs part 1

/-! ### Versioned words (R154 to R157) -/

/-- What a versioned access does at a slot (R155). -/
inductive SlotAct where
  | perform
  | wait
  | miss
  | fault (cause sub : Nat)
  deriving DecidableEq, Repr

/-- (h − v) mod 256. -/
def verDist (h v : Nat) : Nat := (h + 256 - v % 256) % 256

/-- A store of version `v` at a slot (R155). -/
def slotStore (full : Bool) (h v : Nat) : SlotAct :=
  if !full then .perform
  else
    let d := verDist h v
    if d = 0 then .fault 7 0 else if d < 128 then .fault 7 1 else if d = 128 then .fault 7 2 else .wait
/-- A load of version `v` at a slot (R155). -/
def slotLoad (full : Bool) (h v : Nat) : SlotAct :=
  if !full then .wait
  else
    let d := verDist h v
    if d = 0 then .perform else if d < 128 then .fault 8 0 else if d = 128 then .fault 7 2 else .wait
/-- A reclaim of version `v` at a slot (R155). -/
def slotReclaim (full : Bool) (h v : Nat) : SlotAct :=
  if !full then .miss
  else
    let d := verDist h v
    if d = 0 then .perform else if d = 128 then .fault 7 2 else .miss

/-- The tag word of versioned word `k` of a region based at `b`. -/
def MTile.tagWord (m : MTile) (b k : Nat) : Nat := readVal m.mem (4 * (b + 3 * k + 2)) 4
/-- Whether the slot of the parity of `v` is full, and the version it holds. -/
def MTile.slot (m : MTile) (b k v : Nat) : Bool × Nat :=
  let t := m.tagWord b k
  (t.testBit (16 + v % 2), bits t (8 * (v % 2)) 8)
/-- The plain word that holds the data of a slot. -/
def slotWord (b k v : Nat) : Nat := b + 3 * k + v % 2
/-- The cycle in which a slot last changed, or nothing where it has not (R36). -/
def MTile.slotStamp (m : MTile) (b k v : Nat) : Option Nat := mapFind m.stamps (2 * (b + 3 * k) + v % 2)

/-- The memory tile with version `v` stored in its slot in cycle `now`. -/
def MTile.fillSlot (m : MTile) (now b k v : Nat) (data : Word) : MTile :=
  let t := setBits (setBits (m.tagWord b k) (8 * (v % 2)) 8 v) (16 + v % 2) 1 1
  let m := (m.setWord (slotWord b k v) data).setWord (b + 3 * k + 2) (BitVec.ofNat 32 t)
  { m with stamps := mapSet m.stamps (2 * (b + 3 * k) + v % 2) now }
/-- The memory tile with the slot of the parity of `v` emptied in cycle `now`; an empty slot's tag is zero (R154). -/
def MTile.emptySlot (m : MTile) (now b k v : Nat) : MTile :=
  let t := setBits (setBits (m.tagWord b k) (8 * (v % 2)) 8 0) (16 + v % 2) 1 0
  let m := m.setWord (b + 3 * k + 2) (BitVec.ofNat 32 t)
  { m with stamps := mapSet m.stamps (2 * (b + 3 * k) + v % 2) now }

/-- The versioned region and index of a versioned address, or the subcode of the failure (R148, R154).
DEDUCED (log 149), unsafe. -/
def MTile.versioned (m : MTile) (addr : Nat) : Except Nat (MapRegion × Nat) :=
  match m.regionOf addr with
  | none => .error 0
  | some g =>
    if g.mode ≠ 1 then .error 1
    else if addr - g.base < g.len / 3 then .ok (g, addr - g.base) else .error 0

/-- Whether a waiting access may perform on a slot in this cycle: no earlier than the cycle after the slot changed
(R36, R150). -/
def MTile.settled (m : MTile) (now b k v : Nat) : Bool := (m.slotStamp b k v).all fun t => decide (t < now)

/-- A reclaim that misses is counted, from the next cycle (R157, R159, R168, R264). -/
def MTile.countMiss (m : MTile) : MTile := { m with rmiss := satAdd 0xFFFF m.rmiss 1 }

/-- A memory tile as its owner's change leaves it (R147). -/
def MTile.zeroed : MTile := MTile.reset

end Sys2Proof.Machine
end

