-- ==== Sys2Proof/Machine/Translate.lean ====
section
/-!
DEFINITION. Translation: stage C extents, the walks of stages A and B one table read at a time, the translation caches,
and the faults of a translated access in the order of the stages (R353 to R360).
-/

namespace Sys2Proof.Machine

/-! ### Device-physical memory (R324) -/

/-- The key of a device-physical byte in `State.dram`. -/
def dramKey (tier addr : Nat) : Nat := tier * 2 ^ 48 + addr
/-- Bytes of device-physical memory. -/
def State.dramRead (s : State) (tier addr n : Nat) : Nat := readVal s.dram (dramKey tier addr) n
/-- The state with device-physical bytes written. -/
def State.dramWrite (s : State) (tier addr n v : Nat) : State :=
  { s with dram := writeVal s.dram (dramKey tier addr) n v }

/-- The CXL port whose range holds a tier-2 address, by the lengths of ports `p` up (R454). -/
def cxlPortFrom (len : NMap Nat) (addr : Nat) : List Nat → Option Nat
  | [] => none
  | p :: ps =>
    let n := mapGet 0 len p * 2 ^ 30
    if addr < n then some p else cxlPortFrom len (addr - n) ps
/-- The CXL port whose range holds a tier-2 address. -/
def State.cxlPort (s : State) (addr : Nat) : Option Nat := cxlPortFrom s.cxlen addr [0, 1, 2, 3]

/-- The memory node where a line is homed: stack slice 0 to 7, or I/O chiplet 0 or 1 as 8 and 9 (R324). Its Garnet agent
has the same number. DEDUCED (log 96), unsafe. -/
def State.home (s : State) (tier addr : Nat) : Nat :=
  if tier = 0 then addr / (48 * 2 ^ 30)
  else if tier = 1 then 8 + addr / 4096 % 2
  else if tier = 2 then 8 + (s.cxlPort addr).getD 0 / 2
  else 8

/-- Whether a device-physical line lies behind a CXL port whose link is lost (R454). -/
def State.lostLine (s : State) (tier addr : Nat) : Bool :=
  tier == 2 && ((s.cxlPort addr).elim true fun p => s.cxlLost.contains p)

/-! ### Stage C (R357) -/

/-- The device-physical address of offset `x` in the extents `ks` of a tier laid end to end. -/
def extentWalk (ext : NMap (Nat × Nat)) (tier x : Nat) : List Nat → Option Nat
  | [] => none
  | k :: ks => match mapFind ext (tier * 16 + k) with
    | none => none
    | some (base, len) =>
      if x < len * 2 ^ 30 then some (base * 2 ^ 30 + x) else extentWalk ext tier (x - len * 2 ^ 30) ks

/-- Stage C of a partition: the tier and device-physical address of a partition-physical offset (R357). -/
def State.stageC (s : State) (part : Option Nat) (tier off : Nat) : Option Nat :=
  part.bind fun p => extentWalk (s.part p).extents tier off (List.range 16)

/-! ### Walks (R354 to R356, R359) -/

/-- What a walk needs next: a table read (with the page whose stage-B entry a cache may give instead), or nothing more.
-/
inductive WalkStep (α : Type) where
  | read (tier addr : Nat) (cached : Option (Nat × Nat))
  | fail (cause : Nat)
  | ok (v : α) (rest : List (Option Nat))

/-- A walk followed by another on the values still to be used. -/
def WalkStep.bind {α β : Type} : WalkStep α → (α → List (Option Nat) → WalkStep β) → WalkStep β
  | .read t a c, _ => .read t a c
  | .fail c, _ => .fail c
  | .ok v rest, f => f v rest

/-- A table read at a device-physical address: its value where the walk has read it already. An unreadable line fails
the stage whose table it is (R358). -/
def walkRead (tier addr cause : Nat) (cached : Option (Nat × Nat)) : List (Option Nat) → WalkStep Nat
  | [] => .read tier addr cached
  | some v :: rest => .ok v rest
  | none :: _ => .fail cause

/-- A table pointer of stage B, levels 1 and 2 (R356): valid, laid out as a stage-A pointer with every other bit zero,
and aligned for its table. -/
def pointerB (e align : Nat) : Bool := bits e 48 16 == 2 ^ 15 && bits e 0 12 == 0 && e % align == 0

/-- The read of a stage-B table entry at a partition-physical offset. -/
def walkReadB (s : State) (part : Option Nat) (off : Nat) (cached : Option (Nat × Nat)) (vals : List (Option Nat)) :
    WalkStep Nat :=
  match s.stageC part (off / 2 ^ 46 % 4) (off % 2 ^ 46) with
  | none => .fail 5
  | some a => walkRead (off / 2 ^ 46 % 4) a 4 cached vals

/-- The stage-B walk of a sub-partition-physical page: its level-3 entry, unchecked (R354). A value of 2^64 and above
stands for an entry that the base die's cache gave. -/
def walkB (s : State) (sp page : Nat) (vals : List (Option Nat)) : WalkStep Nat :=
  let x := s.subp sp
  if !x.live then .fail 4
  else
    let part := some x.part
    let read := walkReadB s part
    (read ((ptrOff x.root + 8 * bits page 21 11) % 2 ^ 48) (some (sp, page)) vals).bind fun e1 vals =>
    if e1 ≥ 2 ^ 64 then .ok (e1 - 2 ^ 64) vals
    else if !pointerB e1 16384 then .fail 4
    else (read ((bits e1 0 48 + 8 * bits page 10 11) % 2 ^ 48) none vals).bind fun e2 vals =>
    if !pointerB e2 8192 then .fail 4
    else read ((bits e2 0 48 + 8 * bits page 0 10) % 2 ^ 48) none vals

/-- Bit fields of a stage-B entry (R356). -/
def entTier (e : Nat) : Nat := bits e 60 3
def entIM (e : Nat) : Bool := e.testBit 59
def entWB (e : Nat) : Bool := e.testBit 58
def entDisc (e : Nat) : Bool := e.testBit 57
def entTol (e : Nat) : Bool := e.testBit 56
def entHN (e : Nat) : Bool := e.testBit 55
def entR (e : Nat) : Bool := e.testBit 54
def entW (e : Nat) : Bool := e.testBit 53
def entP (e : Nat) : Bool := e.testBit 52
def entFrame (e : Nat) : Nat := bits e 16 36
def entV (e : Nat) : Bool := e.testBit 63

/-- Whether a stage-B entry is free of the faults of R356 that do not depend on the access. -/
def entryOk (s : State) (sp e : Nat) : Bool :=
  entV e && decide (entTier e < 4) && bits e 0 16 == 0 && bits e 46 6 == 0 && (s.subp sp).tiers.testBit (entTier e)

/-- A stage-A entry at a level is free of the faults of R355 that do not depend on the access. -/
def entryOkA (level e : Nat) : Bool :=
  let leaf := e.testBit 62
  let pg := bits e 60 2
  e.testBit 63 && bits e 48 9 == 0 && bits e 0 12 == 0 && pg != 3 &&
    (if leaf then
      bits e 12 4 == 0 &&
        ((level == 3 && (pg == 0 || (pg == 1 && bits e 16 5 == 0))) || (level == 2 && pg == 2 && bits e 16 14 == 0))
    else (level == 1 && bits e 12 2 == 0) || (level == 2 && bits e 12 1 == 0))

/-- The sub-partition-physical page that a legal leaf gives a virtual page (R355). -/
def leafPage (e vpage : Nat) : Nat :=
  let pg := bits e 60 2
  if pg = 0 then bits e 16 32
  else if pg = 1 then bits e 21 27 * 32 + vpage % 32
  else bits e 30 18 * 2 ^ 14 + vpage % 2 ^ 14

/-- The read of a stage-A table entry at a sub-partition-physical address: translated by stage B, which must allow
reads, and stage C (R354). A table page that is discarded reads zero (R342). -/
def walkReadA (s : State) (sp addr : Nat) (vals : List (Option Nat)) : WalkStep Nat :=
  (walkB s sp (addr / 65536) vals).bind fun e vals =>
    if !entryOk s sp e || !entR e then .fail 4
    else if entDisc e then .ok 0 vals
    else match s.stageC (some (s.subp sp).part) (entTier e) (entFrame e * 65536 + addr % 65536) with
      | none => .fail 5
      | some a => walkRead (entTier e) a 3 none vals

/-- The stage-A walk of a virtual page under an ASID: the leaf and the sub-partition-physical page (R354, R355). -/
def walkA (s : State) (asid vpage : Nat) (vals : List (Option Nat)) : WalkStep (Nat × Nat) :=
  let a := s.asid asid
  if !a.live then .fail 3
  else (walkReadA s a.subp ((a.root + 8 * bits vpage 21 11) % 2 ^ 48) vals).bind fun e1 vals =>
    if !entryOkA 1 e1 then .fail 3
    else (walkReadA s a.subp ((bits e1 0 48 + 8 * bits vpage 10 11) % 2 ^ 48) vals).bind fun e2 vals =>
    if !entryOkA 2 e2 then .fail 3
    else if e2.testBit 62 then .ok (e2, leafPage e2 vpage) vals
    else (walkReadA s a.subp ((bits e2 0 48 + 8 * bits vpage 0 10) % 2 ^ 48) vals).bind fun e3 vals =>
    if !entryOkA 3 e3 then .fail 3 else .ok (e3, leafPage e3 vpage) vals

/-- The whole translation that a leaf and a stage-B entry give, where stage C reaches the frame (R359). -/
def makeXlat (s : State) (asid vpage sp page leaf e : Nat) : Option Xlat :=
  (s.stageC (some (s.subp sp).part) (entTier e) (entFrame e * 65536)).map fun a =>
    { asid := asid, vpage := vpage, subp := sp, page := page, tier := entTier e, frame := a / 65536,
      ar := leaf.testBit 59, aw := leaf.testBit 58, aT := leaf.testBit 57,
      br := entR e, bw := entW e, bp := entP e, tol := entTol e }

/-- How far a walk of a virtual page has come: the next read, a failure with what was read before it, or a
translation. -/
inductive VirtStep where
  | read (tier addr : Nat) (cached : Option (Nat × Nat))
  | fail (cause : Nat) (leaf entry : Option Nat)
  | ok (x : Xlat) (entry : Nat)

/-- The walk of a virtual page on the values read so far (R358, R359). -/
def walkVirt (s : State) (asid vpage : Nat) (vals : List (Option Nat)) : VirtStep :=
  match walkA s asid vpage vals with
  | .read t a c => .read t a c
  | .fail c => .fail c none none
  | .ok (leaf, page) vals =>
    let sp := (s.asid asid).subp
    match walkB s sp page vals with
    | .read t a c => .read t a c
    | .fail c => .fail c (some leaf) none
    | .ok e _ =>
      if !entryOk s sp e then .fail 4 (some leaf) none
      else match makeXlat s asid vpage sp page leaf e with
        | none => .fail 5 (some leaf) (some e)
        | some x => .ok x e

/-- A walk made at once, every read in this cycle; the fuel bounds the number of reads. -/
def walkNow {α : Type} (s : State) (f : List (Option Nat) → WalkStep α) : Nat → List (Option Nat) → Option (Except Nat α)
  | 0, _ => none
  | n + 1, vals => match f vals with
    | .read t a _ =>
      let bad := s.badLines.contains (t, a / 64) || s.lostLine t a
      walkNow s f n (vals ++ [if bad then none else some (s.dramRead t a 8)])
    | .fail c => some (.error c)
    | .ok v _ => some (.ok v)

/-- The stage-B entry of a page, read at once. -/
def State.entryB (s : State) (sp page : Nat) : Except Nat Nat :=
  (walkNow s (walkB s sp page) 4 []).getD (.error 4)
/-- The stage-A leaf and the page of a virtual page, read at once. -/
def State.leafA (s : State) (asid vpage : Nat) : Except Nat (Nat × Nat) :=
  (walkNow s (walkA s asid vpage) 16 []).getD (.error 3)

/-- Where the level-3 stage-B entry of a page lies: tier and device-physical address. -/
def State.entryAddr (s : State) (sp page : Nat) : Option (Nat × Nat) :=
  let x := s.subp sp
  let at_ (off : Nat) : Option (Nat × Nat) :=
    (s.stageC (some x.part) (off / 2 ^ 46 % 4) (off % 2 ^ 46)).map fun a => (off / 2 ^ 46 % 4, a)
  (at_ ((ptrOff x.root + 8 * bits page 21 11) % 2 ^ 48)).bind fun (t1, a1) =>
    (at_ ((bits (s.dramRead t1 a1 8) 0 48 + 8 * bits page 10 11) % 2 ^ 48)).bind fun (t2, a2) =>
      at_ ((bits (s.dramRead t2 a2 8) 0 48 + 8 * bits page 0 10) % 2 ^ 48)

/-- Garnet rewrites the stage-B entry of a page (R339). -/
def State.setEntryB (s : State) (sp page e : Nat) : State :=
  match s.entryAddr sp page with
  | some (t, a) => s.dramWrite t a 8 e
  | none => s

/-- Whether a page is discarded, with its RV bit (R342). -/
def State.discarded (s : State) (sp page : Nat) : Option Bool :=
  match s.entryB sp page with
  | .ok e => if entV e && entDisc e then some (entWB e) else none
  | .error _ => none

/-! ### Translation caches (R359) -/

/-- A cache of at most `cap` translations, most recently used first, with `x` entered or moved to the front. -/
def tlbEnter (cap : Nat) (l : List Xlat) (x : Xlat) : List Xlat :=
  (x :: l.filter fun y => decide (y.asid ≠ x.asid ∨ y.vpage ≠ x.vpage)).take cap

/-- The translation of a virtual page in a base die's cache. -/
def dieWhole (l : List DieEntry) (asid vpage : Nat) : Option Xlat :=
  l.findSome? fun e => match e with
    | .whole x => if x.asid = asid ∧ x.vpage = vpage then some x else none
    | .stageB _ _ _ => none
/-- The stage-B entry of a page in a base die's cache. -/
def dieStageB (l : List DieEntry) (subp page : Nat) : Option Nat :=
  l.findSome? fun e => match e with
    | .whole _ => none
    | .stageB n k v => if n = subp ∧ k = page then some v else none
/-- Whether two entries of a base die's cache translate the same page. -/
def DieEntry.same : DieEntry → DieEntry → Bool
  | .whole x, .whole y => x.asid == y.asid && x.vpage == y.vpage
  | .stageB n k _, .stageB m j _ => n == m && k == j
  | _, _ => false
/-- A base die's cache, of 16384 entries of both kinds, with `e` entered or moved to the front. -/
def dieEnter (l : List DieEntry) (e : DieEntry) : List DieEntry := (e :: l.filter fun y => !e.same y).take 16384

/-- The unit cache of a requester: a control core or an address generator has one (R359). -/
def Who.unitKey : Who → Option Nat
  | .core r => some (r * 8)
  | .gen r g => some (r * 8 + 1 + g)
  | _ => none
/-- The branch whose cache serves a requester. -/
def Who.branch : Who → Option Nat
  | .core r => some (r / 4)
  | .gen r _ => some (r / 4)
  | .copy e _ _ => some e
  | _ => none
/-- The stack whose base die serves a requester: that of its tile, and stack 0 for the scheduler. -/
def Who.stack : Who → Nat
  | .core r => r / 64
  | .gen r _ => r / 64
  | .copy e _ _ => e / 16
  | _ => 0

/-- The translation of a page in a list. -/
def tlbFind (l : List Xlat) (asid vpage : Nat) : Option Xlat :=
  l.find? fun x => decide (x.asid = asid ∧ x.vpage = vpage)

/-- The translation of a page that a requester's caches hold: its own, its branch's, its base die's. -/
def State.cached (s : State) (w : Who) (asid vpage : Nat) : Option Xlat :=
  let own := match w with
    | .sched _ => tlbFind s.schedTlb asid vpage
    | _ => w.unitKey.bind fun k => tlbFind (mapGet [] s.unitTlb k) asid vpage
  let br := w.branch.bind fun b => tlbFind (mapGet [] s.brTlb b) asid vpage
  own.or (br.or (dieWhole (mapGet [] s.dieTlb w.stack) asid vpage))

/-- The caches of a requester after it has used a translation. -/
def State.useXlat (s : State) (w : Who) (x : Xlat) : State :=
  let s := match w with
    | .sched _ => { s with schedTlb := tlbEnter 64 s.schedTlb x }
    | _ => match w.unitKey with
      | some k => { s with unitTlb := mapMod [] s.unitTlb k fun l => tlbEnter 16 l x }
      | none => s
  let s := match w.branch with
    | some b => { s with brTlb := mapMod [] s.brTlb b fun l => tlbEnter 2048 l x }
    | none => s
  { s with dieTlb := mapMod [] s.dieTlb w.stack fun l => dieEnter l (.whole x) }

/-- A miss joins the walk of its page on its stack, or starts one behind those already waiting (R359). -/
def State.startWalk (s : State) (w : Who) (key : Nat × Nat) : State :=
  if s.walks.any fun k => decide (k.stack = w.stack ∧ k.key = key) then
    { s with walks := s.walks.map fun k =>
        if k.stack = w.stack ∧ k.key = key ∧ !k.who.contains w then { k with who := k.who ++ [w] } else k }
  else { s.bumpId with walks := s.walks ++ [⟨s.nextId, w.stack, key, [w], []⟩] }

/-! ### Translated accesses -/

/-- What an access needs: reading, writing, and a task-level permission (R355). -/
structure Need where
  r    : Bool
  w    : Bool
  task : Bool
  deriving DecidableEq, Repr

/-- Whether stage-A permissions allow an access. -/
def permA (r w t : Bool) (n : Need) : Bool := (r || !n.r) && (w || !n.w) && (t || !n.task)
/-- Whether stage-B permissions allow an access. -/
def permB (r w : Bool) (n : Need) : Bool := (r || !n.r) && (w || !n.w)

/-- The outcome of a translation. -/
inductive Translated where
  | at_ (x : Xlat)
  | miss
  | fault (cause : Nat)

/-- The cause that a failed walk raises for an access: an earlier stage's permission comes first (R358). -/
def WalkFault.causeFor (f : WalkFault) (n : Need) : Nat :=
  match f.leaf with
  | none => f.cause
  | some l =>
    if !permA (l.testBit 59) (l.testBit 58) (l.testBit 57) n then 3
    else match f.entry with
      | none => f.cause
      | some e => if !permB (entR e) (entW e) n then 4 else f.cause

/-- The cause that a whole translation raises for an access. A write to a page discarded without revive-on-write raises
cause 15 (R342). -/
def xlatFault (s : State) (x : Xlat) (n : Need) : Option Nat :=
  if !permA x.ar x.aw x.aT n then some 3
  else if !permB x.br x.bw n then some 4
  else if n.w && s.discarded x.subp x.page == some false then some 15
  else none

/-- Translates a virtual page for a requester (R353, R358, R359): from its caches, by the record of a walk that failed
for it, or not yet. -/
def State.translate (s : State) (w : Who) (asid vpage : Nat) (n : Need) : State × Translated :=
  match s.cached w asid vpage with
  | some x =>
    let s := s.useXlat w x
    match xlatFault s x n with
    | some c => (s, .fault c)
    | none => (s, .at_ x)
  | none =>
    match s.wfaults.find? fun f => decide (f.who = w ∧ f.key = (asid, vpage)) with
    | some f => ({ s with wfaults := s.wfaults.erase f }, .fault (f.causeFor n))
    | none => (s.startWalk w ((asid, vpage)), .miss)

/-- Where an access reaches. -/
inductive Reached where
  | at_ (loc : Loc) (x : Option Xlat)
  | miss
  | fault (cause : Nat)

/-- The ASID that the copies and streams of core `r` use: that of its task's queue, or of the core itself where no task runs on it
(R353). -/
def State.engineAsid (s : State) (r : Nat) : Nat :=
  (s.core r).task.elim (s.core r).asid fun t => (s.queue (bits t 0 12)).asid

/-- Step 5 of R64 for spaces 0, 3 and 7 (R353, R328): where the byte of a pointer lies, for a requester on tile `r`
(or of partition `part`) with an ASID. -/
def State.reach (s : State) (w : Who) (part : Option Nat) (asid : Nat) (p : DWord) (n : Need) : State × Reached :=
  if ptrSpace p = 0 then
    match s.translate w asid (ptrOff p / 65536) n with
    | (s, .at_ x) => (s, .at_ (.dram x.tier (x.frame * 65536 + ptrOff p % 65536)) (some x))
    | (s, .miss) => (s, .miss)
    | (s, .fault c) => (s, .fault c)
  else if ptrSpace p = 7 then
    match s.stageC part (ptrOff p / 2 ^ 46) (ptrOff p % 2 ^ 46) with
    | some a => (s, .at_ (.dram (ptrOff p / 2 ^ 46) a) none)
    | none => (s, .fault 5)
  else
    let level := ptrOff p / 2 ^ 46
    let bank := bankOf level (ptrRank p)
    if sliceShared s level bank then (s, .fault 5) else (s, .at_ (.slice level bank (ptrOff p % 2 ^ 46)) none)

/-! ### The walk event -/

/-- The state after one table read of walk `k`, which is among the sixteen that its stack runs (R359). -/
def State.walkOnce (s : State) (k : Walk) : State :=
    match walkVirt s k.key.1 k.key.2 k.vals with
    | .read t a c =>
      let hit := c.bind fun (sp, page) =>
        (dieStageB (mapGet [] s.dieTlb k.stack) sp page).map fun e => DieEntry.stageB sp page e
      let v := match hit with
        | some (.stageB _ _ e) => some (2 ^ 64 + e)
        | _ => if s.badLines.contains (t, a / 64) ∨ s.lostLine t a then none else some (s.dramRead t a 8)
      { s with
        walks := s.walks.map fun j => if j.id = k.id then { j with vals := j.vals ++ [v] } else j,
        dieTlb := hit.elim s.dieTlb fun e => mapMod [] s.dieTlb k.stack fun l => dieEnter l e }
    | .fail c leaf e =>
      { s with walks := s.walks.filter fun j => decide (j.id ≠ k.id),
               wfaults := s.wfaults ++ k.who.map fun w => ⟨w, k.key, c, leaf, e⟩ }
    | .ok x e =>
      { s with walks := s.walks.filter fun j => decide (j.id ≠ k.id),
               dieTlb := mapMod [] s.dieTlb k.stack fun l => dieEnter (dieEnter l (.stageB x.subp x.page e)) (.whole x) }

/-- TRANSLATION_WALK (R359): the walk in focus reads its next table entry, fills the caches or fails. -/
def execTranslationWalk (s : State) : Host.Outcome State Fault Refusal :=
  .next (match s.walks.find? fun k => decide (k.id = s.foc.unit) with
    | some k =>
      if ((s.walks.filter fun j => decide (j.stack = k.stack)).take 16).contains k then s.walkOnce k else s
    | none => s)

end Sys2Proof.Machine
end

