-- ==== Sys2Proof/Machine/Garnet.lean ====
section
/-!
DEFINITION. What a Garnet agent keeps and does at the home of a page: the notification queue, the hotness table, pages in
motion, and discarded pages (R332 to R342).
-/

namespace Sys2Proof.Machine

/-! ### The notification queue (R334, R335) -/

/-- A notification entry (R334). -/
def noteEntry (frame subp page info tier kind : Nat) : Nat :=
  frame * 2 ^ 92 + subp * 2 ^ 76 + page * 2 ^ 32 + info * 2 ^ 16 + tier * 2 ^ 12 + kind * 2 ^ 8 + 1

/-- A dropped notification is counted (R335). -/
def Partition.dropNote (x : Partition) : Partition := { x with nqlost := satAdd (2 ^ 32 - 1) x.nqlost 1 }

/-- Where slot `i` of a partition's notification ring lies (R335): tier and device-physical address. -/
def State.noteSlot (s : State) (p i : Nat) : Option (Nat × Nat) :=
  let x := s.part p
  let off := ptrOff x.nqbase + 16 * i
  if ptrFormOk x.nqbase && ptrSpace x.nqbase == 7 then
    (s.stageC (some p) (off / 2 ^ 46 % 4) (off % 2 ^ 46)).map fun a => (off / 2 ^ 46 % 4, a)
  else none

/-- An agent posts an entry to a partition's queue, or drops it (R335). -/
def State.postNote (s : State) (p entry : Nat) : State :=
  let x := s.part p
  if x.nqcount + b2n x.nqheld ≥ x.nqsize then s.modPart p Partition.dropNote
  else match s.noteSlot p ((x.nqhead + x.nqcount) % x.nqsize) with
    | none => s.modPart p Partition.dropNote
    | some (t, a) =>
      if s.badLines.contains (t, a / 64) ∨ s.lostLine t a then s.modPart p Partition.dropNote
      else (s.dramWrite t a 16 entry).modPart p fun x => { x with nqcount := x.nqcount + 1 }

/-! ### Hotness (R332, R333) -/

/-- The index of the hotness entry of a page. -/
def Agent.hotIndex (a : Agent) (subp page : Nat) : Option Nat :=
  (a.hot.find? fun e => decide (e.2.subp = subp ∧ e.2.page = page)).map Prod.fst

/-- The index that a new hotness entry takes: the lowest free one, else that of the lowest count, ties by the lowest
index (R332). -/
def Agent.hotVictim (a : Agent) : Nat :=
  if a.hot.length < 8192 then ((List.range 8192).find? fun i => (mapFind a.hot i).isNone).getD 0
  else (a.hot.foldl (fun b e => if e.2.count < b.2 then (e.1, e.2.count) else b) (0, 0x10000)).1

/-- The agent with an entry for a page, allocated where it has none (R332). -/
def Agent.hotAlloc (a : Agent) (subp page thr : Nat) : Agent :=
  match a.hotIndex subp page with
  | some _ => a
  | none => { a with hot := mapSet a.hot a.hotVictim ⟨subp, page, 0, thr⟩ }

/-- The agent without the entry of a page. -/
def Agent.hotFree (a : Agent) (subp page : Nat) : Agent :=
  match a.hotIndex subp page with
  | some i => { a with hot := mapDel a.hot i }
  | none => a

/-- One 64-byte access to a page at the home of its line (R333): its count rises, and reaching the threshold posts
kind 0. -/
def State.hotOnce (s : State) (part agent subp page tier : Nat) : State :=
  let a := s.agent agent
  match (a.hotIndex subp page).bind fun i => (mapFind a.hot i).map fun e => (i, e) with
  | none => s
  | some (i, e) =>
    let n := satAdd 0xFFFF e.count 1
    let s := s.modAgent agent fun a => { a with hot := mapSet a.hot i { e with count := n } }
    if n = e.thr ∧ n ≠ e.count then s.postNote part (noteEntry 0 subp page n tier 0) else s

/-- The agent of a page's home and the page's tier, as its stage-B entry `e` names them. -/
def State.homeOf (s : State) (sp e : Nat) : Option (Nat × Nat) :=
  (s.stageC (some (s.subp sp).part) (entTier e) (entFrame e * 65536)).map fun a => (s.home (entTier e) a, entTier e)

/-- `n` 64-byte accesses to a page reach its home: an entry is allocated first where the page's HN bit is 1 (R332 to R334, R434). -/
def State.hotAccess (s : State) (x : Xlat) (n : Nat) : State :=
  match s.entryB x.subp x.page with
  | .error _ => s
  | .ok e => match if entV e then s.homeOf x.subp e else none with
    | none => s
    | some (agent, tier) =>
      let s := if entHN e then s.modAgent agent fun a => a.hotAlloc x.subp x.page 256 else s
      (List.range n).foldl (fun s _ => s.hotOnce (s.subp x.subp).part agent x.subp x.page tier) s

/-! ### Pages in motion (R336 to R339) -/

/-- The motion whose source frame holds a device-physical address. -/
def State.motionAt (s : State) (tier addr : Nat) : Option Motion :=
  s.motions.find? fun m => decide (m.srcTier = tier ∧ m.src = addr / 65536)

/-- The motion of a page. -/
def State.motionOf (s : State) (sp page : Nat) : Option Motion :=
  s.motions.find? fun m => decide (m.subp = sp ∧ m.page = page ∧ m.inval = none)

/-- The rate of a tier in bytes per cycle (R318). -/
def tierRate (tier : Nat) : Nat := if tier = 0 then 64 else if tier = 1 then 32 else if tier = 2 then 16 else 8
/-- The cycles in which one chunk of a page in motion is copied (R337). -/
def Motion.pace (m : Motion) : Nat := 1024 / Nat.min (tierRate m.srcTier) (tierRate m.dstTier)
/-- The latency of a motion (R337). -/
def Motion.latency (m : Motion) : Nat :=
  let t (k : Nat) : Bool := m.srcTier == k || m.dstTier == k
  if t 3 then 1500 else if t 2 then 900 else if t 1 then 400 else 176
/-- The first cycle in which the next chunk can be copied (R337): T(k) where nothing else loads the agent or the paths, and no
earlier than the chunk before it allows. -/
def Motion.nextAt (m : Motion) : Nat :=
  Nat.max (m.start + m.latency + (m.copied + 1) * m.pace) (m.lastAt + m.pace)
/-- Whether the next chunk is locked (R337), being read and written. DEDUCED (log 133), safe. -/
def Motion.locked (m : Motion) (now : Nat) : Bool :=
  m.inval.isNone && decide (m.copied < 64 ∧ m.nextAt < now + m.pace)

/-- Whether a write of `n` bytes at an address must wait: its page moves in write-block mode, or its chunk is locked (R338). -/
def State.writeBlocked (s : State) (tier addr n : Nat) : Bool :=
  (s.motionAt tier addr).any fun m =>
    let touches (k : Nat) : Bool := decide (addr % 65536 / 1024 ≤ k ∧ k ≤ (addr % 65536 + n - 1) / 1024)
    m.inval.isNone && (m.wb || (m.locked s.now && touches m.copied) ||
      (decide (0 < m.copied ∧ m.lastAt = s.now) && touches (m.copied - 1)))
/-- A read of device-physical lines finds some poisoned: a page being copied onto their frame has failed where the poison is not its
source's (R340). -/
def State.foundPoison (s : State) (tier : Nat) (lines : List Nat) : State :=
  if lines.isEmpty then s
  else { s with motions := s.motions.map fun (m : Motion) =>
    if m.inval.isNone ∧ m.dstTier = tier ∧ lines.any (fun l => l / 1024 == m.dst && decide (l % 1024 / 16 < m.copied) && !m.carried.contains l)
    then { m with failed := true } else m }

/-- Where an access performs, through at most `n` switches that caches may not yet have seen (R339). -/
def State.redirectVia (s : State) : Nat → Nat → Nat → Nat × Nat
  | 0, tier, addr => (tier, addr)
  | n + 1, tier, addr =>
    match s.motionAt tier addr with
    | some m =>
      if m.inval.isSome then s.redirectVia n m.dstTier (m.dst * 65536 + addr % 65536) else (tier, addr)
    | none => (tier, addr)

/-- Where an access performs: at the new copy once its page has switched (R339). -/
def State.redirected (s : State) (tier addr : Nat) : Nat × Nat := s.redirectVia 16 tier addr

/-- The second place that a write reaches: the new copy, where the chunk has been copied (R338). -/
def State.forwarded (s : State) (tier addr : Nat) : Option (Nat × Nat) :=
  match s.motionAt tier addr with
  | some m =>
    if m.inval.isNone && decide (addr % 65536 / 1024 < m.copied) then some (m.dstTier, m.dst * 65536 + addr % 65536)
    else none
  | none => none

/-! ### Frames and discarded pages -/

/-- A frame is zeroed by the agent of its home, its lines without error. -/
def State.zeroFrame (s : State) (tier frame : Nat) : State :=
  { (s.modAgent (s.home tier (frame * 65536)) fun a => { a with zeroAt := s.now + 1 }) with
    dram := clearBytes s.dram (dramKey tier (frame * 65536)) 65536,
    badLines := s.badLines.filter fun l => decide (l.1 ≠ tier ∨ l.2 / 1024 ≠ frame) }
/-- The device frame of a page of a sub-partition, by stage C of its partition. -/
def State.frameOf (s : State) (sp tier frame : Nat) : Option Nat :=
  (s.stageC (some (s.subp sp).part) tier (frame * 65536)).map (· / 65536)

/-- A write to a discarded page with RV = 1 zeroes the frame and revives the page (R342). -/
def State.revive (s : State) (x : Xlat) : State :=
  match s.entryB x.subp x.page with
  | .ok e =>
    ((s.frameOf x.subp (entTier e) (entFrame e)).elim s fun f => s.zeroFrame (entTier e) f).setEntryB x.subp x.page
      (setBits e 57 2 0)
  | .error _ => s

end Sys2Proof.Machine
end

