-- ==== Sys2Proof/Machine/Num.lean ====
section
/-!
DEFINITION. Number formats and arithmetic (chapter "Number formats and arithmetic"): every layout decoded to an exact
value, exact sums and products, the roundings of R50 to R52, DQ4 decoding and encoding (R45 to R48), and the
bit-exact special functions of R57 and R58.
-/

namespace Sys2Proof.Machine

/-- An exact extended value: NaN, an infinity, or (−1)^neg · m · 2^e. A zero keeps its sign. -/
inductive FVal where
  | nan
  | inf (neg : Bool)
  | fin (neg : Bool) (m : Nat) (e : Int)
  deriving DecidableEq, Repr, Inhabited

/-- The arithmetic conditions of R53, as raised by one operation. -/
structure Conds where
  iv : Bool
  dz : Bool
  ov : Bool
  fm : Bool
  deriving DecidableEq, Repr, Inhabited

/-- No condition. -/
def noConds : Conds := ⟨false, false, false, false⟩
/-- IV alone. -/
def condIV : Conds := ⟨true, false, false, false⟩
/-- DZ alone. -/
def condDZ : Conds := ⟨false, true, false, false⟩
/-- OV alone. -/
def condOV : Conds := ⟨false, false, true, false⟩
/-- FM alone. -/
def condFM : Conds := ⟨false, false, false, true⟩
/-- Conditions raised by either of two operations. -/
def Conds.join (a b : Conds) : Conds := ⟨a.iv || b.iv, a.dz || b.dz, a.ov || b.ov, a.fm || b.fm⟩
/-- A condition that the trap policy stops on (R54): IV, DZ or OV. -/
def Conds.arith (c : Conds) : Bool := c.iv || c.dz || c.ov

/-- The width in bits of an element (R39). -/
def fmtBits : ElemFormat → Nat
  | .fp32 | .int32 => 32
  | .fp16 | .bf16 | .int16 => 16
  | .f8a | .f8b | .int8 | .uint8 => 8
  | .dq4 => 4

/-- The format of a 4-bit code, `none` for a reserved code (R39). -/
def fmtOfCode : Nat → Option ElemFormat
  | 0 => some .fp32 | 1 => some .fp16 | 2 => some .bf16 | 3 => some .f8a | 4 => some .f8b
  | 5 => some .dq4 | 6 => some .int8 | 7 => some .uint8 | 8 => some .int16 | 9 => some .int32
  | _ => none

/-- The 4-bit code of a format (R39). -/
def fmtCode : ElemFormat → Nat
  | .fp32 => 0 | .fp16 => 1 | .bf16 => 2 | .f8a => 3 | .f8b => 4
  | .dq4 => 5 | .int8 => 6 | .uint8 => 7 | .int16 => 8 | .int32 => 9

/-- Whether a format is one of the five floating-point layouts with a sign, an exponent and a fraction. -/
def isFloatFmt : ElemFormat → Bool
  | .fp32 | .fp16 | .bf16 | .f8a | .f8b => true
  | _ => false

/-- Whether a format is an integer type. -/
def isIntFmt : ElemFormat → Bool
  | .int8 | .uint8 | .int16 | .int32 => true
  | _ => false

/-- The rounding mode of a 3-bit code, `none` for 5 to 7 (R49). -/
def modeOfCode : Nat → Option RoundMode
  | 0 => some .nearestEven | 1 => some .nearestAway | 2 => some .towardZero | 3 => some .up | 4 => some .down
  | _ => none

/-- Fraction bits of a floating-point layout (R41, R44). -/
def fracBits : ElemFormat → Nat
  | .fp32 => 23 | .fp16 => 10 | .bf16 => 7 | .f8a => 3 | .f8b => 2 | _ => 0
/-- Exponent bits of a floating-point layout. -/
def expBits : ElemFormat → Nat
  | .fp32 => 8 | .fp16 => 5 | .bf16 => 8 | .f8a => 4 | .f8b => 5 | _ => 0
/-- Exponent bias of a floating-point layout. -/
def expBias : ElemFormat → Nat
  | .fp32 => 127 | .fp16 => 15 | .bf16 => 127 | .f8a => 7 | .f8b => 15 | _ => 0
/-- The layouts with no subnormals, no negative zero (R44). -/
def isNarrow : ElemFormat → Bool
  | .f8a | .f8b => true
  | _ => false

/-- The canonical NaN of a format (R42). -/
def canonNaN : ElemFormat → Nat
  | .fp32 => 0x7FC00000 | .fp16 => 0x7E00 | .bf16 => 0x7FC0 | .f8a => 0x7F | .f8b => 0x7F | _ => 0
/-- The code of the largest finite value (R41, R44). -/
def maxCode : ElemFormat → Nat
  | .fp32 => 0x7F7FFFFF | .fp16 => 0x7BFF | .bf16 => 0x7F7F | .f8a => 0x7E | .f8b => 0x7B | _ => 0
/-- The code of +infinity, where the format has one. -/
def infCode : ElemFormat → Nat
  | .fp32 => 0x7F800000 | .fp16 => 0x7C00 | .bf16 => 0x7F80 | .f8b => 0x7C | _ => 0

/-- The value a floating-point code stands for (R41, R42, R44). -/
def decodeFloat (f : ElemFormat) (x : Nat) : FVal :=
  let fb := fracBits f
  let eb := expBits f
  let neg := x.testBit (fb + eb)
  let ex := bits x fb eb
  let fr := bits x 0 fb
  let bias : Int := expBias f
  if isNarrow f then
    if x % 256 = 0 then .fin false 0 0
    else if f = .f8a && x % 128 = 0x7F then .nan
    else if f = .f8b && ex = 31 then (if fr = 0 then .inf neg else .nan)
    else .fin neg (2 ^ fb + fr) ((ex : Int) - bias - fb)
  else if ex = 2 ^ eb - 1 then (if fr = 0 then .inf neg else .nan)
  else if ex = 0 then .fin neg fr (1 - bias - fb)
  else .fin neg (2 ^ fb + fr) ((ex : Int) - bias - fb)

/-- Strips trailing zero bits so that equal values share one mantissa (at most `n` of them). -/
def stripZeros : Nat → Nat → Int → Nat × Int
  | 0, m, e => (m, e)
  | n + 1, m, e => if m ≠ 0 && m % 2 = 0 then stripZeros n (m / 2) (e + 1) else (m, e)

/-- m · 2^(e − k) for k ≤ e. -/
def scaleTo (m : Nat) (e k : Int) : Nat := m <<< (e - k).toNat

/-- Compares m₁ · 2^e₁ with m₂ · 2^e₂. -/
def cmpMag (m1 : Nat) (e1 : Int) (m2 : Nat) (e2 : Int) : Ordering :=
  let k := min e1 e2
  compare (scaleTo m1 e1 k) (scaleTo m2 e2 k)

/-- A magnitude rounded onto the grid of a format with the exponent range continued without bound: (n, q) for
n · 2^q (R50, R51). `neg` is the sign of the exact value, `m` is not 0. -/
def roundMag (f : ElemFormat) (mode : RoundMode) (neg : Bool) (m : Nat) (e : Int) : Nat × Int :=
  let fb := fracBits f
  let bias : Int := expBias f
  let emin : Int := if isNarrow f then -bias - fb else 1 - bias - fb
  let q : Int := max ((bitLen m : Int) + e - (fb + 1)) emin
  let k := min e (q - 1)
  let x := scaleTo m e k
  let unit := scaleTo 1 q k
  let n := x / unit
  -- the narrow formats hold nothing between zero and their least magnitude on x's side
  let least : Nat := if neg then 2 ^ fb else 2 ^ fb + 1
  let (lo, hi) := if isNarrow f && q == emin && n < least then (0, least) else (n, n + 1)
  if x == lo * unit then (lo, q)
  else
    let takeHi : Bool :=
      match mode with
      | .towardZero => false
      | .up => !neg
      | .down => neg
      | .nearestAway => decide (2 * x ≥ (lo + hi) * unit)
      | .nearestEven =>
        if 2 * x > (lo + hi) * unit then true
        else if 2 * x == (lo + hi) * unit then (lo != 0 || !isNarrow f) && lo % 2 == 1
        else false
    (if takeHi then hi else lo, q)

/-- The code of a magnitude n · 2^q that lies on the format's grid and within its range. -/
def encodeMag (f : ElemFormat) (neg : Bool) (n : Nat) (q : Int) : Nat :=
  let fb := fracBits f
  let sign := b2n neg <<< (fb + expBits f)
  if n = 0 then (if isNarrow f then 0 else sign)
  else
    let (m, e) := stripZeros 400 n q
    let top : Int := (bitLen m : Int) + e - 1
    let bias : Int := expBias f
    let least : Int := if isNarrow f then -bias else 1 - bias
    if top < least then sign + scaleTo m e (1 - bias - fb)
    else sign + (((top + bias).toNat) <<< fb) + (scaleTo m e (top - fb) - 2 ^ fb)

/-- Whether a mode rounds away from zero past MAX on the side of a sign (R51). -/
def awayMode (mode : RoundMode) (neg : Bool) : Bool :=
  match mode with
  | .nearestEven | .nearestAway => true
  | .towardZero => false
  | .up => !neg
  | .down => neg

/-- ±infinity of a format; F8A answers the NaN of the sign (R51). -/
def infOf (f : ElemFormat) (neg : Bool) : Nat :=
  if f = .f8a then (if neg then 0xFF else 0x7F) else infCode f + (b2n neg <<< (fracBits f + expBits f))
/-- ±MAX of a format. -/
def maxOf (f : ElemFormat) (neg : Bool) : Nat := maxCode f + (b2n neg <<< (fracBits f + expBits f))

/-- Rounds an exact value into a floating-point format under a mode and a rule (R50, R51): the code and the
conditions. DEDUCED (log 56), unsafe. -/
def roundTo (f : ElemFormat) (mode : RoundMode) (saturate : Bool) (v : FVal) : Nat × Conds :=
  match v with
  | .nan => (canonNaN f, noConds)
  | .inf neg => (if saturate then maxOf f neg else infOf f neg, if f = .f8a then condOV else noConds)
  | .fin neg m e =>
    if m = 0 then (encodeMag f neg 0 0, noConds)
    else
      let (n, q) := roundMag f mode neg m e
      match decodeFloat f (maxCode f) with
      | .fin _ mm me =>
        if cmpMag n q mm me == Ordering.gt then
          (if !saturate && awayMode mode neg then infOf f neg else maxOf f neg, condOV)
        else (encodeMag f neg n q, noConds)
      | _ => (encodeMag f neg n q, noConds)

/-- Round(x, fmt, nearest-even) under the overflow rule. -/
def roundNE (f : ElemFormat) (v : FVal) : Nat × Conds := roundTo f .nearestEven false v

/-- The exact negative of a value. -/
def fneg : FVal → FVal
  | .nan => .nan
  | .inf s => .inf (!s)
  | .fin s m e => .fin (!s) m e

/-- The exact product; ∞ × 0 is NaN with IV (R53). -/
def fmulExact (a b : FVal) : FVal × Conds :=
  match a, b with
  | .nan, _ | _, .nan => (.nan, noConds)
  | .inf s, .inf t => (.inf (s != t), noConds)
  | .inf s, .fin t m _ => if m = 0 then (.nan, condIV) else (.inf (s != t), noConds)
  | .fin s m _, .inf t => if m = 0 then (.nan, condIV) else (.inf (s != t), noConds)
  | .fin s m e, .fin t n k => (.fin (s != t) (m * n) (e + k), noConds)

/-- The exact sum; ∞ − ∞ is NaN with IV; an exact zero sum is +0 unless both operands are −0 (R43). -/
def faddExact (a b : FVal) : FVal × Conds :=
  match a, b with
  | .nan, _ | _, .nan => (.nan, noConds)
  | .inf s, .inf t => if s = t then (.inf s, noConds) else (.nan, condIV)
  | .inf s, .fin _ _ _ => (.inf s, noConds)
  | .fin _ _ _, .inf t => (.inf t, noConds)
  | .fin s m e, .fin t n k =>
    let x := min e k
    let p : Int := (if s then -1 else 1) * (scaleTo m e x : Int)
    let q : Int := (if t then -1 else 1) * (scaleTo n k x : Int)
    let sum := p + q
    if sum = 0 then (.fin (s && t) 0 0, noConds)
    else (.fin (decide (sum < 0)) sum.natAbs x, noConds)

/-- The exact sum of a list in which no value is NaN. -/
def fsumNumbers : List FVal → FVal × Conds
  | [] => (.fin false 0 0, noConds)
  | [x] => (x, noConds)
  | x :: y :: rest =>
    let (t, c) := fsumNumbers (y :: rest)
    let (u, c') := faddExact x t
    (u, c.join c')

/-- The exact sum of a list, by the IEEE rules for NaN and infinities (R56): a NaN anywhere in it gives NaN with no condition,
also beside opposing infinities; without one, ∞ − ∞ gives NaN with IV. DEDUCED (log 143), unsafe. -/
def fsumExact (l : List FVal) : FVal × Conds := if l.contains .nan then (.nan, noConds) else fsumNumbers l

/-- Total order of finite and infinite values, `none` when either is NaN. Both zeros are equal. -/
def fcompare (a b : FVal) : Option Ordering :=
  match a, b with
  | .nan, _ | _, .nan => none
  | .inf s, .inf t => some (if s = t then .eq else if s then .lt else .gt)
  | .inf s, .fin _ _ _ => some (if s then .lt else .gt)
  | .fin _ _ _, .inf t => some (if t then .gt else .lt)
  | .fin s m e, .fin t n k =>
    let x := min e k
    let p : Int := (if s then -1 else 1) * (scaleTo m e x : Int)
    let q : Int := (if t then -1 else 1) * (scaleTo n k x : Int)
    some (compare p q)

/-- The policy saturate of R54 on a floating-point result: ±MAX in place of ±infinity. -/
def satInf (f : ElemFormat) (x : Nat) : Nat :=
  match decodeFloat f x with
  | .inf neg => maxOf f neg
  | _ => if f = .f8a && x = 0xFF then 0xFE else x

/-- The range of an integer type. -/
def intRange : ElemFormat → Int × Int
  | .int8 => (-128, 127) | .uint8 => (0, 255) | .int16 => (-32768, 32767) | _ => (-2147483648, 2147483647)

/-- The indefinite integer of a type (R52). -/
def indefinite : ElemFormat → Nat
  | .int8 => 0x80 | .uint8 => 0xFF | .int16 => 0x8000 | _ => 0x80000000

/-- The value of an integer element. -/
def decodeInt (f : ElemFormat) (x : Nat) : Int :=
  match f with
  | .uint8 => ((x % 256 : Nat) : Int)
  | _ => signed (fmtBits f) x

/-- Rounds an exact magnitude to an integer under a mode. -/
def roundToInt (mode : RoundMode) (neg : Bool) (m : Nat) (e : Int) : Int :=
  let s : Int := if neg then -1 else 1
  if 0 ≤ e then s * (scaleTo m e 0 : Int)
  else
    let unit := 2 ^ (-e).toNat
    let n := m / unit
    let r := m % unit
    let hi : Bool :=
      match mode with
      | .towardZero => false
      | .up => !neg && r != 0
      | .down => neg && r != 0
      | .nearestAway => decide (2 * r ≥ unit)
      | .nearestEven => decide (2 * r > unit) || (2 * r == unit && n % 2 == 1)
    s * ((if hi then n + 1 else n : Nat) : Int)

/-- An integer clamped or replaced by the indefinite value when it leaves the type's range (R52). -/
def intResult (f : ElemFormat) (saturate : Bool) (x : Int) : Nat × Conds :=
  let (lo, hi) := intRange f
  if lo ≤ x && x ≤ hi then (wrapNat (fmtBits f) x, noConds)
  else if saturate then (wrapNat (fmtBits f) (if x < lo then lo else hi), condOV)
  else (indefinite f, condOV)

/-- Converts an exact value to an integer type (R52). -/
def floatToInt (f : ElemFormat) (mode : RoundMode) (saturate : Bool) (v : FVal) : Nat × Conds :=
  let (lo, hi) := intRange f
  match v with
  | .nan => (if saturate then 0 else indefinite f, condIV)
  | .inf neg => (if saturate then wrapNat (fmtBits f) (if neg then lo else hi) else indefinite f, condOV)
  | .fin neg m e => intResult f saturate (roundToInt mode neg m e)

/-- An integer as an exact value. -/
def intVal (x : Int) : FVal := .fin (decide (x < 0)) x.natAbs 0

/-- The exact value of an element of a float or integer format. -/
def elemVal (f : ElemFormat) (x : Nat) : FVal :=
  if isIntFmt f then intVal (decodeInt f x) else decodeFloat f x

/-- Converts one element between two formats, neither of them DQ4 (R50 to R52). -/
def convertElem (src dst : ElemFormat) (mode : RoundMode) (saturate : Bool) (x : Nat) : Nat × Conds :=
  if isIntFmt dst then
    if isIntFmt src then intResult dst saturate (decodeInt src x)
    else floatToInt dst mode saturate (decodeFloat src x)
  else roundTo dst mode saturate (elemVal src x)

/-! ### DQ4 -/

/-- M[j] × 1024 (R45). -/
def dqLevel : Nat → Nat
  | 0 => 0 | 1 => 105 | 2 => 213 | 3 => 326 | 4 => 450 | 5 => 592 | 6 => 768 | _ => 1024

/-- The value of an SB8 byte as m · 2^e (R46). -/
def sb8Val (sb : Nat) : Nat × Int :=
  if sb % 256 = 0 then (0, 0) else (8 + bits sb 0 3, (bits sb 3 5 : Int) - 31 - 3)

/-- ±M[j] × SB8, exact (R47). -/
def dqUnscaled (code sb : Nat) : FVal :=
  let (m, e) := sb8Val sb
  .fin (code.testBit 3) (dqLevel (bits code 0 3) * m) (e - 10)

/-- The decoded value of a DQ4 element under an SB8 byte and an FP32 superscale (R47). -/
def dqValue (code sb superscale : Nat) : FVal × Conds :=
  fmulExact (dqUnscaled (if code % 16 = 8 then 0 else code) sb) (decodeFloat .fp32 superscale)

/-- |x| of a value as an infinity flag and a magnitude; `none` for NaN. -/
def magOf : FVal → Option (Bool × Nat × Int)
  | .nan => none
  | .inf _ => some (true, 0, 0)
  | .fin _ m e => some (false, m, e)

/-- The larger of two magnitudes. -/
def magMax (a b : Bool × Nat × Int) : Bool × Nat × Int :=
  if a.1 then a else if b.1 then b
  else if cmpMag a.2.1 a.2.2 b.2.1 b.2.2 == Ordering.lt then b else a

/-- The nearest level index to num / den (exact magnitudes); a tie takes the smaller index (R48). -/
def dqNearest (num : Nat) (ne : Int) (den : Nat) (de : Int) : Nat → Nat
  | 0 => 0
  | j + 1 =>
    -- index j + 1 beats j when the ratio lies above the midpoint of their levels
    let mid := dqLevel j + dqLevel (j + 1)
    if cmpMag num ne (den * mid) (de - 11) == Ordering.gt then j + 1 else dqNearest num ne den de j

/-- The least SB8 code whose value times S reaches amax, or 0xFF (R48); tries codes upward from `c`. -/
def dqScale (sm : Nat) (se : Int) (am : Nat) (ae : Int) : Nat → Nat → Nat
  | 0, _ => 0xFF
  | n + 1, c =>
    let (m, e) := sb8Val c
    if cmpMag (m * sm) (e + se) am ae != Ordering.lt then c else dqScale sm se am ae n (c + 1)

/-- Encodes one block of elements under a superscale (R48): SB8, the codes and the conditions. -/
def dqEncodeBlock (superscale : Nat) (xs : List FVal) : Nat × List Nat × Conds :=
  match decodeFloat .fp32 superscale with
  | .fin false (sm + 1) se =>
    let s := sm + 1
    let amax := (xs.filterMap magOf).foldl magMax (false, 0, 0)
    let sb := if amax.1 then 0xFF else if amax.2.1 = 0 then 0 else dqScale s se amax.2.1 amax.2.2 255 1
    let (um, ue) := sb8Val sb
    let unitM := um * s
    let unitE := ue + se
    let one := fun (x : FVal) =>
      match x with
      | .nan => (8, noConds)
      | .inf neg => if unitM = 0 then (0, noConds) else (b2n neg * 8 + 7, condOV)
      | .fin neg m e =>
        if unitM = 0 then (0, noConds)
        else if cmpMag m e unitM unitE == Ordering.gt then (b2n neg * 8 + 7, condOV)
        else
          let j := dqNearest m e unitM unitE 7
          (if j = 0 then 0 else b2n neg * 8 + j, noConds)
    let rs := xs.map one
    (sb, rs.map (·.1), rs.foldl (fun c r => c.join r.2) noConds)
  | _ =>
    (0, xs.map (fun x => match x with | .nan => 8 | _ => 0), condIV)

/-! ### Special functions (R57, R58) -/

/-- The input of SFA with its significand truncated to 12 bits: exact, subnormals normalised (R57). -/
def truncSignificand (m : Nat) (e : Int) : Nat × Int :=
  let l := bitLen m
  if l ≤ 12 then (m <<< (12 - l), e - (12 - l : Nat)) else (m >>> (l - 12), e + (l - 12 : Nat))

/-- Nearest-even at `p` significant bits of (m + sticky) · 2^e, where `sticky` says that the exact value lies
strictly between m and m + 1. -/
def roundSig (p : Nat) (m : Nat) (sticky : Bool) (e : Int) : Nat × Int :=
  let x := 2 * m + b2n sticky
  let l := bitLen x
  if l ≤ p then (x, e - 1)
  else
    let sh := l - p
    let n := x >>> sh
    let r := x % 2 ^ sh
    let half := 2 ^ (sh - 1)
    let hi := decide (r > half) || (r == half && n % 2 == 1)
    ((if hi then n + 1 else n), e - 1 + (sh : Int))

/-- Floor square root, built up one bit at a time from bit `n − 1` down. -/
def isqrt : Nat → Nat → Nat → Nat
  | 0, _, r => r
  | n + 1, x, r =>
    let t := r + 2 ^ n
    isqrt n x (if t * t ≤ x then t else r)

/-- Fraction bits carried by the fixed-point evaluations below. -/
def sfBits : Nat := 160
/-- floor(π · 2^160). -/
def piFixed : Nat := 4591442807048218921384805199743311128454155024418
/-- floor(ln 2 · 2^160). -/
def ln2Fixed : Nat := 1013035739299659071135698605846798551586536899366

/-- Σ of the Taylor terms of exp, from term number `k` with value `t`, in 160-bit fixed point. -/
def expSeries (x : Nat) : Nat → Nat → Nat → Nat
  | 0, _, _ => 0
  | n + 1, k, t => t + expSeries x n (k + 1) (((t * x) >>> sfBits) / (k + 1))

/-- e^x for x in [0, 1), in 160-bit fixed point. -/
def expFixed (x : Nat) : Nat := expSeries x 48 0 (2 ^ sfBits)

/-- 2^f for a fraction f in [0, 1), in 160-bit fixed point. -/
def exp2Fixed (f : Nat) : Nat := expFixed ((f * ln2Fixed) >>> sfBits)

/-- The binary digits of log2 of y in [1, 2), by repeated squaring, most significant first. -/
def log2Digits : Nat → Nat → Nat → Nat
  | 0, _, acc => acc
  | n + 1, y, acc =>
    let z := (y * y) >>> sfBits
    if z ≥ 2 ^ (sfBits + 1) then log2Digits n (z / 2) (2 * acc + 1) else log2Digits n z (2 * acc)

/-- log2 of y in [1, 2), to 112 fraction bits. -/
def log2Fixed (y : Nat) : Nat := log2Digits 112 y 0

/-- The alternating Taylor terms of sine or cosine: value `t` at degree `k`, added where `pos`. -/
def trigSeries (xx : Nat) : Nat → Nat → Nat → Bool → Int
  | 0, _, _, _ => 0
  | n + 1, k, t, pos =>
    (if pos then (t : Int) else -(t : Int)) +
      trigSeries xx n (k + 2) (((t * xx) >>> sfBits) / ((k + 1) * (k + 2))) (!pos)

/-- sin x for x in [0, 1.6), in 160-bit fixed point. -/
def sinFixed (x : Nat) : Nat := (trigSeries ((x * x) >>> sfBits) 30 1 x true).toNat
/-- cos x for x in [0, 1.6), in 160-bit fixed point. -/
def cosFixed (x : Nat) : Nat := (trigSeries ((x * x) >>> sfBits) 30 0 (2 ^ sfBits) true).toNat

/-- The six forms of SFA (R57). -/
inductive SfaForm where
  | rcpa | rsqa | exp2a | log2a | sinpa | cospa
  deriving DecidableEq, Repr

/-- Round12 then Round to FP32 of an exact positive value given by its leading bits and a sticky flag. -/
def round12 (neg : Bool) (m : Nat) (sticky : Bool) (e : Int) : Nat × Conds :=
  let (n, q) := roundSig 12 m sticky e
  roundNE .fp32 (.fin neg n q)

/-- 2^(±m · 2^e), m not 0 (R57). -/
def sfaExp2 (neg : Bool) (m : Nat) (e : Int) : Nat × Conds :=
  -- beyond 2^12 in magnitude the result leaves every FP32 range
  if 12 ≤ (bitLen m : Int) + e - 1 then
    if neg then (0, noConds) else (infCode .fp32, condOV)
  else
    let fx : Nat := if 0 ≤ e + sfBits then scaleTo m e (-(sfBits : Int)) else 0
    let tiny := decide (e + sfBits < 0)
    let x : Int := if neg then -(fx : Int) else fx
    let whole : Int := x / (2 ^ sfBits : Nat)
    let frac : Nat := (x % (2 ^ sfBits : Nat)).toNat
    if frac = 0 then
      if tiny then
        -- 2^x for |x| < 2^−160 lies next to 1 and rounds to it at 12 bits
        (0x3F800000, noConds)
      else if 128 ≤ whole then (infCode .fp32, condOV)
      else roundNE .fp32 (.fin false 1 whole)
    else if 128 ≤ whole then (infCode .fp32, condOV)
    else round12 false (exp2Fixed frac) true (whole - sfBits)

/-- log2(m · 2^e), m not 0 and m having 12 bits (R57). -/
def sfaLog2 (m : Nat) (e : Int) : Nat × Conds :=
  let l := bitLen m
  let k : Int := e + (l : Int) - 1
  let y := m <<< (sfBits + 1 - l)
  if y = 2 ^ sfBits then roundNE .fp32 (intVal k)
  else
    let f := log2Fixed y
    let v : Int := k * (2 ^ 112 : Nat) + f
    if 0 ≤ v then round12 false v.toNat true (-112)
    else round12 true ((-v).toNat - 1) true (-112)

/-- sin(π · m · 2^e) for a positive magnitude, reduced to the first quadrant: the sign of the result, and whether
the reduced argument is taken by sine or by cosine is worked out from the half turns. Answers the sign flip, and the
value as leading bits with a sticky flag (`none` for an exact zero, `some (1, false, 0)` for an exact one). -/
def sinPi (m : Nat) (e : Int) : Bool × Option (Nat × Bool × Int) :=
  if 1 ≤ e then (false, none)
  else if (bitLen m : Int) + e ≤ -60 then
    -- π·x to 160 significant fraction bits; the cubic term is below the last bit that matters
    (false, some (m * piFixed - 1, true, e - sfBits))
  else
    -- x modulo 2, as a multiple of 2^−72·… : e is at least −72 here because m has 12 bits
    let two := 2 ^ (1 - e).toNat
    let r := m % two
    let one := two / 2
    let (flip, r1) := if r ≥ one then (true, r - one) else (false, r)
    if r1 = 0 then (flip, none)
    else
      if 2 * r1 = one then (flip, some (1, false, 0))
      else
        let r2 := if 2 * r1 > one then one - r1 else r1
        let fx := scaleTo r2 e (-(sfBits : Int))
        (flip, some (sinFixed ((fx * piFixed) >>> sfBits), true, -(sfBits : Int)))

/-- SINPA of a finite nonzero input (R57). -/
def sfaSin (neg : Bool) (m : Nat) (e : Int) : Nat × Conds :=
  match sinPi m e with
  | (_, none) => (encodeMag .fp32 neg 0 0, noConds)
  | (flip, some (v, sticky, q)) => round12 (neg != flip) v sticky q

/-- COSPA of a finite nonzero input (R57), as sin(π(x + 1/2)). -/
def sfaCos (m : Nat) (e : Int) : Nat × Conds :=
  if 1 ≤ e then (0x3F800000, noConds)
  else if (bitLen m : Int) + e ≤ -60 then round12 false (2 ^ 100 - 1) true (-100)
  else
    let e' : Int := min e (-1)
    let n := scaleTo m e e' + 2 ^ (-1 - e').toNat
    match sinPi n e' with
    | (_, none) => (0, noConds)
    | (flip, some (v, sticky, q)) => round12 flip v sticky q

/-- SFA of an FP32 word (R57): the result and its conditions. DEDUCED (log 57), unsafe. -/
def sfa (form : SfaForm) (x : Nat) : Nat × Conds :=
  match decodeFloat .fp32 x with
  | .nan => (canonNaN .fp32, noConds)
  | .inf neg =>
    match form with
    | .rcpa => (encodeMag .fp32 neg 0 0, noConds)
    | .rsqa => if neg then (canonNaN .fp32, condIV) else (0, noConds)
    | .exp2a => if neg then (0, noConds) else (infCode .fp32, noConds)
    | .log2a => if neg then (canonNaN .fp32, condIV) else (infCode .fp32, noConds)
    | .sinpa | .cospa => (canonNaN .fp32, condIV)
  | .fin neg m0 e0 =>
    let subnormal := bits x 23 8 = 0
    if m0 = 0 then
      match form with
      | .rcpa | .rsqa => (infOf .fp32 neg, condDZ)
      | .exp2a | .cospa => (0x3F800000, noConds)
      | .log2a => (infOf .fp32 true, condDZ)
      | .sinpa => (encodeMag .fp32 neg 0 0, noConds)
    else
      let (m, e) := truncSignificand m0 e0
      match form with
      | .rcpa =>
        if subnormal then (infOf .fp32 neg, condOV)
        else
          let q := 2 ^ 80 / m
          round12 neg q (2 ^ 80 % m != 0) (-80 - e)
      | .rsqa =>
        if neg then (canonNaN .fp32, condIV)
        else
          -- 1/√(m·2^e) with e made even: √(2^(2·80)·/m) · 2^(−80 − e/2)
          let (m1, e1) := if e % 2 = 0 then (m, e) else (2 * m, e - 1)
          let num := 2 ^ 160 / m1
          let r := isqrt 82 num 0
          round12 false r (r * r * m1 != 2 ^ 160) (-80 - e1 / 2)
      | .exp2a => sfaExp2 neg m e
      | .log2a => if neg then (canonNaN .fp32, condIV) else sfaLog2 m e
      | .sinpa => sfaSin neg m e
      | .cospa => sfaCos m e

/-- x · y + z exactly, with the conditions of both steps; a NaN operand gives NaN with no condition (R122).
DEDUCED (log 55), unsafe. -/
def fmaExact (x y z : FVal) : FVal × Conds :=
  match z with
  | .nan => (.nan, noConds)
  | z =>
    let (p, c) := fmulExact x y
    let (r, d) := faddExact p z
    (r, c.join d)

/-- FMA of three FP32 words, rounded once to nearest-even (R43, R122). -/
def fma32 (a b c : Nat) : Nat × Conds :=
  let (s, k) := fmaExact (decodeFloat .fp32 a) (decodeFloat .fp32 b) (decodeFloat .fp32 c)
  let (r, l) := roundNE .fp32 s
  (r, k.join l)

/-- The FP32 product rounded once (R43). -/
def mul32 (a b : Nat) : Nat × Conds :=
  let (p, c1) := fmulExact (decodeFloat .fp32 a) (decodeFloat .fp32 b)
  let (r, c2) := roundNE .fp32 p
  (r, c1.join c2)

/-- Flips the sign of an FP32 word. -/
def neg32 (a : Nat) : Nat := if a.testBit 31 then a - 2 ^ 31 else a + 2 ^ 31

/-- SFSTEP (R58): `sq` selects RSQSTEP. When y is ±0 or ±∞ the result is y, with no condition. -/
def sfstep (sq : Bool) (a y : Nat) : Nat × Conds :=
  if y % 2 ^ 31 = 0 || y % 2 ^ 31 = 0x7F800000 then (y, noConds)
  else if decodeFloat .fp32 a = .nan || decodeFloat .fp32 y = .nan then (canonNaN .fp32, noConds)
  else if sq then
    let (half, c1) := mul32 0x3F000000 y
    let (prod, c2) := mul32 a y
    let (err, c3) := fma32 (neg32 prod) y 0x3F800000
    let (r, c4) := fma32 half err y
    (r, ((c1.join c2).join c3).join c4)
  else
    let (err, c1) := fma32 (neg32 a) y 0x3F800000
    let (r, c2) := fma32 y err y
    (r, c1.join c2)

end Sys2Proof.Machine
end

