-- ==== Sys2Proof/Machine/Access.lean ====
section
/-!
DEFINITION. Accesses to memory: their issue, their performing at their home and their completion, and the memory words
of the control core: LD, LDU, ST, the VER group, AMO and TSIG (R70, R159, R271 to R274, R303, R377).
-/

namespace Sys2Proof.Machine

/-! ### Bytes at a home -/

/-- The 64-byte lines that `n` bytes at `a` touch. -/
def linesOf (a n : Nat) : List Nat := (List.range ((a + n + 63) / 64 - a / 64)).map (a / 64 + ·)

/-- The key of a slice bank in `State.banks`. -/
def bankKey (level bank : Nat) : Nat := level * 128 + bank

/-- The bytes of a location: their value, and whether any of them is uncorrectable or poisoned (R167, R329). -/
def State.locRead (s : State) (loc : Loc) (n : Nat) : Nat × Bool :=
  match loc with
  | .dram t a => (s.dramRead t a n, (linesOf a n).any fun l => s.badLines.contains (t, l))
  | .slice l b off => (readVal (mapGet [] s.banks (bankKey l b)) off n, false)
  | .mtile r q off => (readVal (s.mtile r q).mem off n, (s.mtile r q).anyBad (wordsOf off n))
  | .priv r off => (readVal (s.core r).mem off n, (wordsOf off n).any (s.core r).poisoned.contains)
  | .peer _ _ => (leValue ((List.range n).map fun i => Config.peerByte s.nextId i), false)

/-- The offsets of the uncorrectable bytes among `n` at a location. -/
def State.locBad (s : State) (loc : Loc) (n : Nat) : List Nat :=
  (List.range n).filter fun i => match loc with
    | .dram t a => s.badLines.contains (t, (a + i) / 64)
    | .mtile r q off => (s.mtile r q).poisoned.contains ((off + i) / 4)
    | .priv r off => (s.core r).poisoned.contains ((off + i) / 4)
    | _ => false
/-- The byte at which a location begins. -/
def Loc.start : Loc → Nat
  | .dram _ x => x
  | .slice _ _ x => x
  | .mtile _ _ x => x
  | .priv _ x => x
  | .peer _ x => x
/-- How many lines of memory, or words of a memory tile or a private memory, some bytes of a location lie in.
DEDUCED (log 135), unsafe. -/
def Loc.units (loc : Loc) (offs : List Nat) : Nat :=
  let size := match loc with
    | .dram _ _ => 64
    | _ => 4
  ((offs.map fun i => (loc.start + i) / size).foldl insertOnce []).length
/-- A value whose bytes at some offsets are zero. -/
def blankBytes (v : Nat) (offs : List Nat) : Nat := offs.foldl (fun v i => setBits v (8 * i) 8 0) v

/-- The state with bytes written at a location. A write of all 64 bytes of a poisoned line clears its poison; a partial
write leaves it (R329). A write to a peer device has no effect in this one. -/
def State.locWrite (s : State) (loc : Loc) (n v : Nat) : State :=
  match loc with
  | .dram t a =>
    { s.dramWrite t a n v with
      badLines := s.badLines.filter fun l => !decide (l.1 = t ∧ a ≤ l.2 * 64 ∧ l.2 * 64 + 64 ≤ a + n) }
  | .slice l b off => { s with banks := mapMod [] s.banks (bankKey l b) fun m => writeVal m off n v }
  | .mtile r q off => s.modMtile r q fun m => m.write off n v
  | .priv r off => s.modCore r fun c =>
      { c with mem := writeVal c.mem off n v, poisoned := c.poisoned.filter fun w => !(wordsOf off n).contains w }
  | .peer _ _ => s

/-- The state with the single-bit errors of bytes that are read at a location repaired and counted (R166). -/
def State.locCorrect (s : State) (loc : Loc) (n : Nat) : State :=
  match loc with
  | .mtile r q off => s.modMtile r q fun m => m.correctAll (wordsOf off n)
  | _ => s

/-- A store of a core to its private memory (R271). -/
def State.privWrite (s : State) (r off n v : Nat) : State := s.locWrite (.priv r off) n v

/-! ### Atomic operations (R274, R303) -/

/-- The value an atomic operation leaves, for a width in bits. -/
def amoNew (op : AmoOp) (width old b cmp : Nat) : Nat :=
  let m := 2 ^ width
  match op with
  | .add => (old + b) % m
  | .and => old &&& b
  | .or => old ||| b
  | .xor => old ^^^ b
  | .min => if signed width b < signed width old then b else old
  | .max => if signed width old < signed width b then b else old
  | .minu => Nat.min old b
  | .maxu => Nat.max old b
  | .swp => b
  | .cas => if old = cmp then b else old
  | .fadd => (roundNE .fp32 (faddExact (decodeFloat .fp32 old) (decodeFloat .fp32 b)).1).1
  | .fadd2 =>
    let half (i : Nat) : Nat :=
      (roundNE .fp16 (faddExact (decodeFloat .fp16 (bits old (16 * i) 16)) (decodeFloat .fp16 (bits b (16 * i) 16))).1).1
    half 0 + 2 ^ 16 * half 1
  | .tsig => old - 1

/-- Whether an atomic operation writes memory: a CAS only where it matches. -/
def amoWrites (op : AmoOp) (old cmp : Nat) : Bool :=
  match op with
  | .cas => old == cmp
  | _ => true

/-- What an atomic operation leaves in gd (R274). -/
def amoResult (op : AmoOp) (size old : Nat) : DWord :=
  if size = 8 then BitVec.ofNat 64 old
  else match op with
    | .minu | .maxu | .fadd | .fadd2 => BitVec.ofNat 64 old
    | _ => signExt64 32 old

/-! ### Issue -/

/-- The accesses of a control core that have not completed. -/
def State.accsOf (s : State) (r : Nat) : List Access := s.accs.filter fun a => decide (a.who = .core r)

/-- Whether two accesses touch an overlapping byte. -/
def locOverlap (a : Loc) (n : Nat) (b : Loc) (m : Nat) : Bool :=
  match a, b with
  | .dram t x, .dram u y => decide (t = u ∧ x < y + m ∧ y < x + n)
  | .slice l k x, .slice l' k' y => decide (l = l' ∧ k = k' ∧ x < y + m ∧ y < x + n)
  | .mtile r q x, .mtile r' q' y => decide (r = r' ∧ q = q' ∧ x < y + m ∧ y < x + n)
  | .priv r x, .priv r' y => decide (r = r' ∧ x < y + m ∧ y < x + n)
  | .peer p x, .peer p' y => decide (p = p' ∧ x < y + m ∧ y < x + n)
  | _, _ => false

/-- The accesses that an access of core `r` follows at its home: all of its earlier ones for a release, else those that
overlap it (R271, R272). -/
def State.orderAfter (s : State) (r : Nat) (release : Bool) (loc : Loc) (n : Nat) : List Nat :=
  ((s.accsOf r).filter fun a => !a.done && (release || locOverlap a.loc a.size loc n)).map Access.id

/-- The earlier accesses of a core that a command it issues releases: its stores and atomics that have not performed
(R388). -/
def State.releases (s : State) (r : Nat) : List Nat :=
  ((s.accsOf r).filter fun a => !a.done && (match a.kind with
    | .load _ => false
    | _ => true)).map Access.id

/-- Whether some accesses have performed (R388). -/
def State.performed (s : State) (ids : List Nat) : Bool := ids.all fun i => s.accs.all fun b => b.id != i || b.done

/-- A line of a slice bank becomes window storage: the bank stays so until every tile under it has changed owner
(R328). -/
def State.openWindow (s : State) (loc : Loc) : State :=
  match loc with
  | .slice l b _ =>
    let k := bankKey l b
    match mapFind s.windowed k with
    | some _ => s
    | none =>
      let (first, n) := bankTiles l b
      { s with windowed := mapSet s.windowed k ((List.range n).map (first + ·)) }
  | _ => s

/-- Whether a declaration of a task covers an address with TOL = 1 (R286, R330). -/
def declTolerant (t : Task) (addr : Nat) : Bool :=
  (List.range 8).any fun k =>
    let d := nth 0 t.rec_ (8 + k)
    decide (bits d 62 2 ≠ 0) && d.testBit 61 &&
      decide (bits d 6 42 * 64 ≤ addr ∧ addr < bits d 6 42 * 64 + bits d 48 13 * 2 ^ (6 + bits d 0 4))

/-- Whether a read through a pointer is tolerant of a poisoned line: by its page's TOL bit or its task's declaration
(R330). -/
def State.isTolerant (s : State) (task : Option Nat) (p : DWord) (x : Option Xlat) : Bool :=
  x.any Xlat.tol ||
    (ptrSpace p == 0 && task.any fun t => (s.tasks.find? fun k => decide (k.id = t)).any fun k => declTolerant k (ptrOff p))

/-- A new access with the next identifier, nothing of it performed yet. -/
def State.newAccess (s : State) (w : Who) (k : AccKind) (loc : Loc) (size data : Nat) (p : DWord) (x : Option Xlat) :
    Access :=
  { id := s.nextId, who := w, kind := k, loc := loc, size := size, data := data, cmp := 0, ptr := p, gd := 0, xl := x,
    rel := false, acq := false, before := [], tol := false, done := false, val := 0, bad := [], fault := 0,
    issued := s.now, shared := none, part := none }

/-- The access is on its way to its home. -/
def State.send (s : State) (a : Access) : State := { (s.openWindow a.loc).bumpId with accs := s.accs ++ [a] }

/-! ### Performing at the home (R377) -/

/-- The link port that reaches a peer number (R423). -/
def State.peerPort (s : State) (num : Nat) : Nat := bits (mapGet 0 s.peers num).toNat 0 4
/-- The cause that a peer's answer brings back, or 0. -/
def peerCause (n : Nat) : Nat :=
  let c := Config.peerFault n
  if [3, 4, 5, 13, 15].contains c then c else 0

/-- Whether an access may perform now: it can have come to its home, what it must follow has performed, no write-block mode holds it
(R338), and the link to its peer takes its flit (R420). -/
def State.mayPerform (s : State) (a : Access) : Bool :=
  !a.done && decide (a.issued ≤ s.now) &&
    s.performed a.before &&
    (match a.loc, a.kind with
     | .dram _ _, .load _ => true
     | .dram t x, _ => !s.writeBlocked (s.redirected t x).1 (s.redirected t x).2 a.size
     | .peer num _, _ =>
       let k := s.link (s.peerPort num)
       a.fault != 0 || (k.state == .up && decide (k.unacked < 64))
     | _, _ => true)

/-- Where an access performs: for a page that has switched, at its new copy (R339). -/
def State.atHome (s : State) (loc : Loc) : Loc :=
  match loc with
  | .dram t x => .dram (s.redirected t x).1 (s.redirected t x).2
  | _ => loc

/-- Tasks waiting on a counter are released by a decrement that brings it to 0, from the next cycle on (R289). -/
def State.releaseTasks (s : State) (loc : Loc) : State :=
  { s with tasks := s.tasks.map fun t =>
      if t.joinRead ∧ t.join.isNone ∧ t.joinLoc = some loc then { t with join := some (s.now + 1) } else t }

/-- The outcome of an access is recorded: what it read, which bytes of that were uncorrectable, and the cause it met. -/
def State.settle (s : State) (a : Access) (val : Nat) (bad : List Nat) (fault : Nat) : State :=
  { s with accs := s.accs.map fun b =>
      if b.id = a.id then { b with done := true, val := val, bad := bad, fault := fault } else b }

/-- A store or the write of an atomic at its home and, for a page in motion, at the new copy (R338). -/
def State.writeHome (s : State) (loc : Loc) (n v : Nat) : State :=
  match s.atHome loc with
  | .dram t x =>
    let s' := s.locWrite (.dram t x) n v
    match s.forwarded t x with
    | some (u, y) => s'.locWrite (.dram u y) n v
    | none => s'
  | l => s.locWrite l n v

/-- The bytes at a home. -/
def State.readHome (s : State) (loc : Loc) (n : Nat) : Nat × Bool := s.locRead (s.atHome loc) n

/-- A read at a home: single-bit errors are repaired (R166), poison that is found ends a migration onto its frame (R340), and the
uncorrectable bytes, given by their offsets, read zero. -/
def State.homeRead (s : State) (loc : Loc) (n : Nat) : State × Nat × List Nat :=
  let l := s.atHome loc
  let bad := s.locBad l n
  let s' := s.locCorrect l n
  let s' := match l with
    | .dram t x => s'.foundPoison t (bad.map fun i => (x + i) / 64)
    | _ => s'
  (s', blankBytes (s.locRead l n).1 bad, bad)

/-- The key of the read-shared copy of an access's line in the slice that keeps its region's copies: the branch's, the bough's, or for
lines that are not HBM the stack's (R180, R327). -/
def Access.copyKey (a : Access) : Option Nat :=
  match a.loc, a.shared, a.who.branch with
  | .dram t x, some (_, level), some b =>
    let slice := if level = 1 then b else if level = 2 then b / 4 else b / 16
    if level = 0 ∨ 3 < level ∨ (level = 3 ∧ t = 0) then none
    else some ((level * 128 + slice) * 2 ^ 64 + dramKey t x / 64)
  | _, _, _ => none

/-- The read-shared copy that may serve a load: its slice holds one, and the copy is taken (R327, R390). -/
def State.copyServes (s : State) (a : Access) : Option Nat :=
  (a.copyKey.bind (mapFind s.copies)).bind fun c =>
    let x := a.loc.start % 64
    if x + a.size ≤ 64 ∧ (Config.freeWord s.nextId).toNat % 2 = 1 then some (bits (leValue c.2) (8 * x) (8 * a.size)) else none

/-- A load of a read-shared range leaves a copy of its line in its slice (R327). -/
def State.keepCopy (s : State) (a : Access) : State :=
  match a.copyKey, a.shared, a.loc with
  | some k, some (lead, _), .dram t x =>
    { s with copies := mapSet s.copies k (lead, leBytes 64 (s.readHome (.dram t (x / 64 * 64)) 64).1) }
  | _, _, _ => s

/-- The 64-byte accesses that an access makes to its page's home are counted (R333). -/
def State.countHot (s : State) (a : Access) : State :=
  a.xl.elim s fun x => s.hotAccess x (linesOf (ptrOff a.ptr) a.size).length

/-- An access performs at its home (R377): in arrival order, one at a time. A fault that it has met on its way is all its
effect (R342, R370). -/
def State.perform (s : State) (a : Access) : State :=
  let lost := match a.loc with
    | .dram t x => s.lostLine t x
    | _ => false
  let (s, cause) := match a.loc with
    | .peer num _ => if a.fault ≠ 0 then (s, 0)
      else ((s.modLink (s.peerPort num) fun k => { k with unacked := k.unacked + 1 }).bumpId, peerCause s.nextId)
    | _ => (s, 0)
  if a.fault ≠ 0 then s.settle a 0 [] a.fault
  else if cause ≠ 0 then s.settle a 0 [] cause
  else if lost then s.settle a 0 [] 19
  else
    let disc := a.xl.bind fun x => s.discarded x.subp x.page
    let revived (s : State) : State := if disc = some true then a.xl.elim s fun x => s.revive x else s
    match a.kind with
    | .load _ =>
      if disc.isSome then s.settle a 0 [] 0
      else match s.copyServes a with
        | some v => s.settle a v [] 0
        | none =>
          let (s, v, bad) := (s.countHot a).homeRead a.loc a.size
          if bad.isEmpty then (s.keepCopy a).settle a v [] 0
          else if a.tol then (s.countSubs a.part (a.loc.units bad)).settle a v [] 0
          else s.settle a v bad 0
    | .store =>
      if disc = some false then s.settle a 0 [] 15
      else (((revived s).countHot a).writeHome a.loc a.size a.data).settle a 0 [] 0
    | .amo op =>
      if disc = some false then s.settle a 0 [] 15
      else
        let (s, old, bad) := ((revived s).countHot a).homeRead a.loc a.size
        if !bad.isEmpty then s.settle a 0 bad 0
        else
          let new := amoNew op (8 * a.size) old a.data a.cmp
          let s := if amoWrites op old a.cmp then s.writeHome a.loc a.size new else s
          let s := if op = .tsig ∧ old = 1 then s.releaseTasks (s.atHome a.loc) else s
          s.settle a old [] 0

/-- A store or an atomic of a core performs, and with it the loads of that core that wait for it alone: each returns its bytes (R271)
and none that another observer has written since (R377). DEDUCED (log 136), safe. -/
def State.performAll (s : State) (a : Access) : State :=
  let s' := s.perform a
  match a.kind, a.who with
  | .load _, _ => s'
  | _, .core _ =>
    (s'.accs.filter fun b => decide (b.who = a.who) && b.before.contains a.id && (match b.kind with
      | .load _ => true
      | _ => false)).foldl (fun s b => if s.mayPerform b then s.perform b else s) s'
  | _, _ => s'

/-- The fault of an access of the scheduler's own goes to the partition's steward core (R289, R298). -/
def State.schedFault (s : State) (part : Option Nat) (cause : Nat) (p : DWord) : State :=
  match part with
  | some q => s.raiseSteward q cause p
  | none => s

/-- A unit of a copy engine is read or written in this cycle (R323). -/
def State.engineMoves (s : State) (w : Who) : State :=
  match w with
  | .copy e _ _ => s.modEngine e fun g => { g with moveAt := s.now + 1 }
  | _ => s

/-- ACCESS_AT_HOME (R377): the access in focus performs. A done decrement of the scheduler completes with it (R298). -/
def execAccessAtHome (s : State) : Host.Outcome State Fault Refusal :=
  .next (match s.accs.find? fun a => decide (a.id = s.foc.unit) with
    | none => s
    | some a =>
      if s.mayPerform a then
        let s := (s.performAll a).engineMoves a.who
        match a.who, s.accs.find? fun b => decide (b.id = a.id) with
        | .sched _, some b =>
          let s := { s with accs := s.accs.filter fun c => decide (c.id ≠ a.id) }
          if b.fault ≠ 0 then s.schedFault a.part b.fault a.ptr
          else if b.bad ≠ [] then s.schedFault a.part 13 a.ptr else s
        | _, _ => s
      else s)

/-! ### Completion (R271) -/

/-- The access of core `r` that an event completes. -/
def State.replyOf (s : State) (r id : Nat) (load : Bool) : Option Access :=
  s.accs.find? fun a => decide (a.id = id ∧ a.who = .core r) && a.done &&
    (match a.kind with
     | .load _ => load
     | .amo .tsig => !load
     | .amo _ => load
     | .store => !load)

/-- LOAD_REPLY (R271, R273, R274): the data of the access in focus is written to gd, or gd is written as poisoned. An
atomic whose gd is g0 reports an error as an event. -/
def execLoadReply (s : State) : Host.Outcome State Fault Refusal :=
  let r := s.foc.unit
  .next (match s.replyOf r s.foc.sub true with
    | none => s
    | some a =>
      let g := BitVec.ofNat 5 a.gd
      let v := match a.kind with
        | .amo op => amoResult op a.size a.val
        | .load sg => if sg then signExt64 (8 * a.size) a.val else BitVec.ofNat 64 a.val
        | .store => 0
      let err := if a.fault ≠ 0 then a.fault else if a.bad ≠ [] then 13 else 0
      let s := { s with accs := s.accs.filter fun b => decide (b.id ≠ a.id) }
      let s := s.modCore r fun c =>
        let c := { c with pend := c.pend.erase a.gd, ocLd := c.ocLd - 1, acquires := c.acquires.erase a.id }
        if err = 13 then c.setPoison g a.ptr else if err = 0 then c.setReg g v
        else c.setReg g (Config.freeWord s.nextId)
      let s := s.touch r
      if err = 0 then s
      else if err = 13 ∧ (a.gd ≠ 0 ∨ a.kind = .load true ∨ a.kind = .load false) then s
      else s.bumpId.raise r (s.core r).level err a.ptr)

/-- STORE_ACK (R271, R303): the store or TSIG in focus has performed at its home, and oc.st falls. -/
def execStoreAck (s : State) : Host.Outcome State Fault Refusal :=
  let r := s.foc.unit
  .next (match s.replyOf r s.foc.sub false with
    | none => s
    | some a =>
      let s := { s with accs := s.accs.filter fun b => decide (b.id ≠ a.id) }
      let s := s.modCore r fun c => { c with ocSt := c.ocSt - 1 }
      let s := s.touch r
      if a.fault ≠ 0 then s.raise r (s.core r).level a.fault a.ptr
      else if a.bad ≠ [] then s.raise r (s.core r).level 13 a.ptr else s)

/-! ### Memory words of the control core -/

/-- Spaces that LD, LDU and ST accept (R63). -/
def loadSpaces : List Nat := [0, 1, 3, 4, 7]
/-- Spaces that AMO accepts (R63, R274). -/
def amoSpaces : List Nat := [0, 1, 4, 7]

/-- What an access of the running level needs (R355). -/
def State.need (s : State) (r : Nat) (rd wr : Bool) : Need := ⟨rd, wr, decide ((s.core r).level = 3)⟩

/-- Whether every access of a core that a release covers has performed (R272). -/
def State.quiet (s : State) (r : Nat) : Bool := (s.accsOf r).all Access.done

/-- The plain words of its own tile that a control core's space-1 pointer reaches, checked under R148. -/
def State.tileWordsOk (s : State) (r : Nat) (p : DWord) (n : Nat) : Bool × Option MapRegion :=
  let (q, off) := tilePart p
  match (s.mtile r q).plainRegion (wordsOf off n) with
  | .ok g => (true, g)
  | .error _ => (false, none)

/-- The access pointer of a CM word (R70). -/
def cmPtr (s : State) (r : Nat) (ga : BitVec 5) (off : BitVec 12) : DWord := ptrAddInt (s.reg r ga) off.toInt

/-- A load of `n` bytes through pointer `p` into `g` (R271 to R273). -/
def State.load (s : State) (r : Nat) (g : BitVec 5) (p : DWord) (n : Nat) (sg acq : Bool) : WordEnd :=
  let value (v : Nat) : DWord := if sg then signExt64 (8 * n) v else BitVec.ofNat 64 v
  match ptrFault loadSpaces (s.core r).level n p with
  | some c => .trap s c p
  | none =>
    if ptrSpace p = 4 then
      match privFault (s.core r) p with
      | some c => .trap s c p
      | none =>
        let (v, bad) := s.locRead (.priv r (ptrOff p)) n
        if bad then .retire (s.modCore r fun c => c.setPoison g p) 1 else .retire (s.setReg r g (value v)) 1
    else if ptrSpace p = 1 then
      match s.tileWordsOk r p n with
      | (false, _) => .trap s 6 p
      | (true, reg) =>
        let (q, off) := tilePart p
        let s' := s.modMtile r q fun m => m.correctAll (wordsOf off n)
        if (s.mtile r q).anyBad (wordsOf off n) then
          if reg.any MapRegion.tol then
            .retire ((s'.countSub (s.owner r)).setReg r g (value ((s.mtile r q).tolerant off n))) 1
          else .retire (s'.modCore r fun c => c.setPoison g p) 1
        else .retire (s'.setReg r g (value (readVal (s.mtile r q).mem off n))) 1
    else if (s.core r).ocLd ≥ 32 then .wait s 5
    else match s.reach (.core r) (s.owner r) (s.core r).asid p (s.need r true false) with
      | (s, .fault c) => .trap s c p
      | (s, .miss) => .wait s 2
      | (s, .at_ loc x) =>
        let a := { s.newAccess (.core r) (.load sg) loc n 0 p x with
          gd := g.toNat, acq := acq, before := s.orderAfter r false loc n,
          tol := s.isTolerant (s.core r).task p x, part := s.owner r }
        .retire ((s.send a).modCore r fun c =>
          { c with ocLd := c.ocLd + 1, pend := if g = 0 then c.pend else c.pend ++ [g.toNat],
                   acquires := if acq then c.acquires ++ [a.id] else c.acquires }) 1

/-- A store of the low `n` bytes of `v` through pointer `p` (R271, R272). -/
def State.store (s : State) (r : Nat) (p : DWord) (n v : Nat) (rel : Bool) : WordEnd :=
  match ptrFault loadSpaces (s.core r).level n p with
  | some c => .trap s c p
  | none =>
    if ptrSpace p = 4 then
      match privFault (s.core r) p with
      | some c => .trap s c p
      | none => .retire (s.privWrite r (ptrOff p) n v) 1
    else if ptrSpace p = 1 then
      match s.tileWordsOk r p n with
      | (false, _) => .trap s 6 p
      | (true, _) =>
        if rel && !s.quiet r then .wait s 6
        else .retire (s.modMtile r (tilePart p).1 fun m => m.write (tilePart p).2 n v) 1
    else if (s.core r).ocSt ≥ 32 then .wait s 5
    else match s.reach (.core r) (s.owner r) (s.core r).asid p (s.need r false true) with
      | (s, .fault c) => .trap s c p
      | (s, .miss) => .wait s 2
      | (s, .at_ loc x) =>
        let a := { s.newAccess (.core r) .store loc n (v % 2 ^ (8 * n)) p x with
          rel := rel, before := s.orderAfter r rel loc n, part := s.owner r }
        .retire ((s.send a).modCore r fun c => { c with ocSt := c.ocSt + 1 }) 1

/-- LD (R70, R271): sign-extends its datum. -/
def execLd (g ga : BitVec 5) (sz ord : BitVec 2) (off : BitVec 12) (s : State) : Host.Outcome State Fault Refusal :=
  .next (s.memWord [ga] [g] fun r => s.load r g (cmPtr s r ga off) (2 ^ sz.toNat) true (ord == 1))

/-- LDU (R70, R271): zero-extends its datum. -/
def execLdu (g ga : BitVec 5) (sz ord : BitVec 2) (off : BitVec 12) (s : State) : Host.Outcome State Fault Refusal :=
  .next (s.memWord [ga] [g] fun r => s.load r g (cmPtr s r ga off) (2 ^ sz.toNat) false (ord == 1))

/-- The data of a store: it waits for its register like any word but raises nothing where that is poisoned (R273), and what it then
stores is a free value. DESIGN CHOICE (log 134), safe. -/
def State.storeData (s : State) (r : Nat) (g : BitVec 5) : State × Nat :=
  if (mapFind (s.core r).poison g.toNat).isSome then (s.bumpId, (Config.freeWord s.nextId).toNat) else (s, (s.reg r g).toNat)

/-- ST (R70, R271). -/
def execSt (g ga : BitVec 5) (sz ord : BitVec 2) (off : BitVec 12) (s : State) : Host.Outcome State Fault Refusal :=
  .next (s.memWord [ga] [g] fun r =>
    (s.storeData r g).1.store r (cmPtr s r ga off) (2 ^ sz.toNat) (s.storeData r g).2 (ord == 1))

/-! ### Atomics (R274) -/

/-- An atomic through pointer `p`: at once on spaces 1 and 4, whose errors are precise, else on its way to its home. -/
def State.amo (s : State) (r : Nat) (op : AmoOp) (gd : BitVec 5) (p : DWord) (n b cmp : Nat) (aq rl : Bool) : WordEnd :=
  let local_ (s : State) (loc : Loc) : WordEnd :=
    let (old, bad) := s.locRead loc n
    if bad then .trap s 13 p
    else
      let s := if amoWrites op old cmp then s.locWrite loc n (amoNew op (8 * n) old b cmp) else s
      .retire (s.setReg r gd (amoResult op n old)) 1
  match ptrFault amoSpaces (s.core r).level n p with
  | some c => .trap s c p
  | none =>
    if ptrSpace p = 4 then
      match privFault (s.core r) p with
      | some c => .trap s c p
      | none => local_ s (.priv r (ptrOff p))
    else if ptrSpace p = 1 then
      match s.tileWordsOk r p n with
      | (false, _) => .trap s 6 p
      | (true, _) =>
        let (q, off) := tilePart p
        if rl && !s.quiet r then .wait s 6
        else local_ (s.modMtile r q fun m => m.correctAll (wordsOf off n)) (.mtile r q off)
    else if (s.core r).ocLd ≥ 32 then .wait s 5
    else match s.reach (.core r) (s.owner r) (s.core r).asid p (s.need r true true) with
      | (s, .fault c) => .trap s c p
      | (s, .miss) => .wait s 2
      | (s, .at_ loc x) =>
        let a := { s.newAccess (.core r) (.amo op) loc n b p x with
          cmp := cmp, gd := gd.toNat, acq := aq, rel := rl, before := s.orderAfter r rl loc n, part := s.owner r }
        .retire ((s.send a).modCore r fun c =>
          { c with ocLd := c.ocLd + 1, pend := if gd = 0 then c.pend else c.pend ++ [gd.toNat],
                   acquires := if aq then c.acquires ++ [a.id] else c.acquires }) 1

/-- An AMO word: its width in bytes by the size bit, its operand and comparand cut to that width (R74, R274). -/
def amoWord (s : State) (op : AmoOp) (gd ga gb : BitVec 5) (aq rl dbl : BitVec 1) : State :=
  let n := if dbl = 1 then 8 else 4
  s.memWord (if op = .cas then [gd, ga, gb] else [ga, gb]) [gd] fun r =>
    s.amo r op gd (s.reg r ga) n ((s.reg r gb).toNat % 2 ^ (8 * n)) ((s.reg r gd).toNat % 2 ^ (8 * n)) (aq == 1) (rl == 1)

/-- AMO.ADD (R274). -/
def execAmoAdd (gd ga gb : BitVec 5) (aq rl dbl : BitVec 1) (s : State) : Host.Outcome State Fault Refusal :=
  .next (amoWord s .add gd ga gb aq rl dbl)
/-- AMO.AND (R274). -/
def execAmoAnd (gd ga gb : BitVec 5) (aq rl dbl : BitVec 1) (s : State) : Host.Outcome State Fault Refusal :=
  .next (amoWord s .and gd ga gb aq rl dbl)
/-- AMO.OR (R274). -/
def execAmoOr (gd ga gb : BitVec 5) (aq rl dbl : BitVec 1) (s : State) : Host.Outcome State Fault Refusal :=
  .next (amoWord s .or gd ga gb aq rl dbl)
/-- AMO.XOR (R274). -/
def execAmoXor (gd ga gb : BitVec 5) (aq rl dbl : BitVec 1) (s : State) : Host.Outcome State Fault Refusal :=
  .next (amoWord s .xor gd ga gb aq rl dbl)
/-- AMO.MIN (R274). -/
def execAmoMin (gd ga gb : BitVec 5) (aq rl dbl : BitVec 1) (s : State) : Host.Outcome State Fault Refusal :=
  .next (amoWord s .min gd ga gb aq rl dbl)
/-- AMO.MAX (R274). -/
def execAmoMax (gd ga gb : BitVec 5) (aq rl dbl : BitVec 1) (s : State) : Host.Outcome State Fault Refusal :=
  .next (amoWord s .max gd ga gb aq rl dbl)
/-- AMO.MINU (R274). -/
def execAmoMinu (gd ga gb : BitVec 5) (aq rl dbl : BitVec 1) (s : State) : Host.Outcome State Fault Refusal :=
  .next (amoWord s .minu gd ga gb aq rl dbl)
/-- AMO.MAXU (R274). -/
def execAmoMaxu (gd ga gb : BitVec 5) (aq rl dbl : BitVec 1) (s : State) : Host.Outcome State Fault Refusal :=
  .next (amoWord s .maxu gd ga gb aq rl dbl)
/-- AMO.SWP (R274). -/
def execAmoSwp (gd ga gb : BitVec 5) (aq rl dbl : BitVec 1) (s : State) : Host.Outcome State Fault Refusal :=
  .next (amoWord s .swp gd ga gb aq rl dbl)
/-- AMO.CAS (R274): gd is read before it is written. -/
def execAmoCas (gd ga gb : BitVec 5) (aq rl dbl : BitVec 1) (s : State) : Host.Outcome State Fault Refusal :=
  .next (amoWord s .cas gd ga gb aq rl dbl)
/-- AMO.FADD (R274): one FP32 addition. -/
def execAmoFadd (gd ga gb : BitVec 5) (aq rl : BitVec 1) (s : State) : Host.Outcome State Fault Refusal :=
  .next (amoWord s .fadd gd ga gb aq rl 0)
/-- AMO.FADD2 (R274): two FP16 additions. -/
def execAmoFadd2 (gd ga gb : BitVec 5) (aq rl : BitVec 1) (s : State) : Host.Outcome State Fault Refusal :=
  .next (amoWord s .fadd2 gd ga gb aq rl 0)

/-- TSIG (R303): a decrement at the counter's home that stops at 0, a release at device scope. -/
def execTsig (ga : BitVec 5) (s : State) : Host.Outcome State Fault Refusal :=
  .next (s.memWord [ga] [] fun r =>
    let p := s.reg r ga
    match ptrFault [0, 7] (s.core r).level 4 p with
    | some c => .trap s c p
    | none =>
      if (s.core r).ocSt ≥ 32 then .wait s 5
      else match s.reach (.core r) (s.owner r) (s.core r).asid p (s.need r true true) with
        | (s, .fault c) => .trap s c p
        | (s, .miss) => .wait s 2
        | (s, .at_ loc x) =>
          let a := { s.newAccess (.core r) (.amo .tsig) loc 4 0 p x with
            rel := true, before := s.orderAfter r true loc 4, part := s.owner r }
          .retire ((s.send a).modCore r fun c => { c with ocSt := c.ocSt + 1 }) 1)

/-! ### Versioned words from the control core (R159) -/

/-- The versioned word that a VER pointer names: memory tile, region and index, or the cause that it raises. -/
def verWord (s : State) (r : Nat) (p : DWord) : Except Nat (Nat × MapRegion × Nat) :=
  match ptrFault [1] (s.core r).level 4 p with
  | some c => .error c
  | none => match (s.mtile r (tilePart p).1).versioned ((tilePart p).2 / 4) with
    | .error _ => .error 6
    | .ok (g, k) => .ok ((tilePart p).1, g, k)

/-- A versioned access of the control core at a slot: `act` says what the slot rule does with it. A waiting access
performs no earlier than the cycle after the slot changes (R36), and an error in the tag word raises cause 13 (R167). -/
def verAccess (s : State) (r : Nat) (p : DWord) (v : Nat) (rule : Bool → Nat → Nat → SlotAct)
    (go : Nat → MapRegion → Nat → WordEnd) (missed : Nat → WordEnd) : WordEnd :=
  match verWord s r p with
  | .error c => .trap s c p
  | .ok (q, g, k) =>
    let m := s.mtile r q
    if m.poisoned.contains (g.base + 3 * k + 2) then .trap s 13 p
    else
      let held := .wait (s.modCore r fun c => { c with stall := some (.latch []) }) 6
      match rule (m.slot g.base k v).1 (m.slot g.base k v).2 v with
      | .fault c _ => .trap s c p
      | .wait => held
      | .miss => missed q
      | .perform =>
        if (s.core r).stall.isSome && !m.settled s.now g.base k v then held else go q g k

/-- LDV (R159). -/
def execLdv (gd ga gb : BitVec 5) (s : State) : Host.Outcome State Fault Refusal :=
  .next (s.memWord [ga, gb] [gd] fun r =>
    let p := s.reg r ga
    let v := (s.reg r gb).toNat % 256
    verAccess s r p v slotLoad (fun q g k =>
      let m := s.mtile r q
      let w := slotWord g.base k v
      let s' := s.modMtile r q fun m => m.correctAll [w, g.base + 3 * k + 2]
      if m.poisoned.contains w then
        if g.tol then .retire ((s'.countSub (s.owner r)).setReg r gd 0) 1 else .trap s' 13 p
      else .retire (s'.setReg r gd ((m.word w).setWidth 64)) 1) fun _ => .retire s 1)

/-- STV (R159). -/
def execStv (gs ga gb : BitVec 5) (s : State) : Host.Outcome State Fault Refusal :=
  .next (s.memWord [gs, ga, gb] [] fun r =>
    let v := (s.reg r gb).toNat % 256
    verAccess s r (s.reg r ga) v slotStore (fun q g k =>
      .retire (s.modMtile r q fun m =>
        (m.correct (g.base + 3 * k + 2)).fillSlot s.now g.base k v ((s.reg r gs).setWidth 32)) 1)
      fun _ => .retire s 1)

/-- RECL (R159): it never waits; a miss is counted. -/
def execRecl (ga gb : BitVec 5) (s : State) : Host.Outcome State Fault Refusal :=
  .next (s.memWord [ga, gb] [] fun r =>
    let v := (s.reg r gb).toNat % 256
    verAccess s r (s.reg r ga) v slotReclaim (fun q g k =>
      .retire (s.modMtile r q fun m => (m.correct (g.base + 3 * k + 2)).emptySlot s.now g.base k v) 1)
      fun q => .retire (s.defer (.miss r q)) 1)

/-- VQRY (R159): reads the tag word. -/
def execVqry (gd ga : BitVec 5) (s : State) : Host.Outcome State Fault Refusal :=
  .next (s.memWord [ga] [gd] fun r =>
    let p := s.reg r ga
    match verWord s r p with
    | .error c => .trap s c p
    | .ok (q, g, k) =>
      let m := s.mtile r q
      let w := g.base + 3 * k + 2
      if m.poisoned.contains w then .trap s 13 p
      else .retire ((s.modMtile r q fun m => m.correctAll [w]).setReg r gd ((m.word w).setWidth 64)) 1)

end Sys2Proof.Machine
end

