-- ==== Sys2Proof/Machine/Control.lean ====
section
/-!
DEFINITION. Waiting, time, fences, and the members of the SYS group that touch no system register (R31, R275 to R283,
R391, R394).
-/

namespace Sys2Proof.Machine

/-- A cause whose tval the manual does not state: tval is a free value. DESIGN CHOICE (log 15), safe. -/
def State.trapFree (s : State) (cause : Nat) : WordEnd := .trap s.bumpId cause (Config.freeWord s.nextId)

/-- The cycle counter (R5, R276). -/
def State.cycle (s : State) : DWord := BitVec.ofNat 64 s.now

/-- Whether a class of outstanding operations meets a WAIT immediate (R31). -/
def waitMet (imm : BitVec 4) (count : Nat) : Bool := imm == 15 || decide (count ≤ imm.toNat)

/-- WAIT (R31): retires once every class whose immediate is below 15 is at or below it. -/
def execWait (ld st cp tl : BitVec 4) (s : State) : Host.Outcome State Fault Refusal :=
  .next (s.word [] [] fun r =>
    let c := s.core r
    if waitMet ld c.ocLd && waitMet st c.ocSt && waitMet cp c.ocCp && waitMet tl c.ocTl then .retire s 1
    else .wait s 3)

/-- TIME (R276). -/
def execTime (gd : BitVec 5) (s : State) : Host.Outcome State Fault Refusal :=
  .next (s.word [] [gd] fun r => .retire (s.setReg r gd s.cycle) 1)

/-- SLEEP as the core of tile `r` runs it (R277): retires once the cycle counter is at or above ga. -/
def sleepWord (s : State) (ga : BitVec 5) : State :=
  s.word [ga] [] fun r => if (s.reg r ga).toNat ≤ s.cycle.toNat then .retire s 1 else .wait s 4

/-- SLEEP (R277, R37). -/
def execSleep (ga : BitVec 5) (s : State) : Host.Outcome State Fault Refusal := .next (sleepWord s ga)

/-- SLEEP_WAKE (R277): a core in focus that stands at a SLEEP whose operand the counter has reached retires it. -/
def execSleepWake (s : State) : Host.Outcome State Fault Refusal :=
  let c := s.core s.foc.unit
  .next (
    if c.mode = .running ∧ c.nextAt ≤ s.now ∧ c.takeEvent.isNone then
      match decodeControl (BitVec.ofNat 32 (readVal c.mem c.pc 4)) with
      | .ok (.sleep ga) => if (c.reg ga).toNat ≤ s.cycle.toNat then sleepWord s ga else s
      | _ => s
    else s)

/-- FENCE (R391): every earlier load and atomic of the core has returned its data and every earlier store, atomic and
TSIG has performed. Commands are accepted as they issue, and a host-window store reaches host memory as it performs.
DESIGN CHOICE (log 155), unsafe. -/
def execFence (scope : BitVec 5) (s : State) : Host.Outcome State Fault Refusal :=
  .next (s.word [] [] fun r =>
    let waits (a : Access) : Bool := match a.kind with
      | .load _ => true
      | .amo .tsig => !a.done
      | .amo _ => true
      | .store => !a.done
    if scope.toNat < 8 ∧ (s.accsOf r).any waits then .wait s 1 else .retire s 1)

/-- The control NOP (R283). -/
def execNop (s : State) : Host.Outcome State Fault Refusal := .next (s.word [] [] fun _ => .retire s 1)

/-- IDLE (R279): stalls until a trap is delivered; tepc is then the next word. -/
def execIdle (s : State) : Host.Outcome State Fault Refusal :=
  .next (s.word [] [] fun r => .wait (s.modCore r fun c => { c with stall := some .idle }) 4)

/-- HALT (R75, R279): operator level only. -/
def execHalt (s : State) : Host.Outcome State Fault Refusal :=
  .next (s.word [] [] fun r =>
    if (s.core r).level ≠ 0 then s.trapFree 1 else .done (s.modCore r fun c => c.halt s.now))

/-- TRAP (R281): a service request to the next level up, whatever deleg holds; tepc is the next word. -/
def execTrap (code : BitVec 12) (s : State) : Host.Outcome State Fault Refusal :=
  .next (s.word [] [] fun r =>
    let c := s.core r
    .done ((s.modCore r fun c => c.account 0 s.now).trapAt r (c.level - 1) 20 (c.pc + 4) (code.setWidth 64)))

/-- BRK (R283). -/
def execBrk (code : BitVec 12) (s : State) : Host.Outcome State Fault Refusal :=
  .next (s.word [] [] fun _ => .trap s 21 (code.setWidth 64))

/-- An illegal word reaches execution (R60): cause 0 with the word in tval and no other change. -/
def execIllegalInstruction (w : Word) (s : State) : Host.Outcome State Fault Refusal :=
  .next (s.endWord s.foc.unit (.trap s 0 (w.setWidth 64)))

/-- EVENT_DELIVERY (R280, R394): the oldest held event whose level can take it is delivered between two words. -/
def execEventDelivery (s : State) : Host.Outcome State Fault Refusal :=
  let r := s.foc.unit
  let c := s.core r
  .next (
    if c.mode = .running ∧ c.nextAt ≤ s.now then
      match c.takeEvent with
      | none => s
      | some (e, rest) =>
        let epc := if c.stall = some .idle then c.pc + 4 else c.pc
        let s := s.modCore r fun c =>
          { ({ c with events := rest }.enterTrap e.tgt e.cause epc e.tval) with nextAt := s.now + 1 }
        if e.void then
          s.modRegion r fun g => { g with voiding := g.voiding.map fun v => { v with lvl := some e.tgt } }
        else s
    else s)

end Sys2Proof.Machine
end

