-- ==== Sys2Proof/Machine/Blocks.lean ====
section
/-!
DEFINITION. Blocks, records and images that words and engines read and write in memory: accesses of many bytes made at
once, line by line (R63, R64, R353, R388).
-/

namespace Sys2Proof.Machine

/-- The pieces of `n` bytes at a pointer that lie in one 64-byte line each; the fuel bounds their number. -/
def lineSpans : Nat → DWord → Nat → List (DWord × Nat)
  | 0, _, _ => []
  | k + 1, p, n =>
    if n = 0 then []
    else
      let m := Nat.min n (64 - ptrOff p % 64)
      (p, m) :: lineSpans k (ptrAdd p m) (n - m)
/-- The pieces of `n` bytes at a pointer. -/
def spansOf (p : DWord) (n : Nat) : List (DWord × Nat) := lineSpans (n / 64 + 2) p n

/-- The translation of a virtual page read from the tables at once, or the cause of the first stage that fails (R353 to
R358). -/
def State.translateNow (s : State) (asid vpage : Nat) (n : Need) : Except Nat Xlat :=
  match s.leafA asid vpage with
  | .error c => .error c
  | .ok (leaf, page) =>
    if !permA (leaf.testBit 59) (leaf.testBit 58) (leaf.testBit 57) n then .error 3
    else
      let sp := (s.asid asid).subp
      match s.entryB sp page with
      | .error c => .error c
      | .ok e =>
        if !entryOk s sp e || !permB (entR e) (entW e) n then .error 4
        else match makeXlat s asid vpage sp page leaf e with
          | none => .error 5
          | some x => if n.w && s.discarded sp page == some false then .error 15 else .ok x

/-- Where the byte of a pointer in space 0, 3 or 7 lies, for an engine's own access. -/
def State.placeNow (s : State) (part : Option Nat) (asid : Nat) (p : DWord) (n : Need) : Except Nat (Loc × Option Xlat) :=
  if !ptrFormOk p then .error 3
  else if ptrSpace p = 0 then
    match s.translateNow asid (ptrOff p / 65536) n with
    | .ok x => .ok (.dram x.tier (x.frame * 65536 + ptrOff p % 65536), some x)
    | .error c => .error c
  else if ptrSpace p = 7 then
    match s.stageC part (ptrOff p / 2 ^ 46) (ptrOff p % 2 ^ 46) with
    | some a => .ok (.dram (ptrOff p / 2 ^ 46) a, none)
    | none => .error 5
  else if ptrSpace p = 3 then
    let level := ptrOff p / 2 ^ 46
    let bank := bankOf level (ptrRank p)
    if sliceShared s level bank then .error 5 else .ok (.slice level bank (ptrOff p % 2 ^ 46), none)
  else .error 3

/-- Whether a location lies behind a lost CXL link (R454). -/
def State.isLost (s : State) (loc : Loc) : Bool :=
  match loc with
  | .dram t a => s.lostLine t a
  | _ => false

/-- The bytes of one line of an engine's read at the place that a pointer names: a discarded page reads zero (R342), and uncorrectable
bytes raise cause 13, or read zero and are counted where the read is tolerant (R330). -/
def State.readAt (s : State) (part : Option Nat) (tol : DWord → Option Xlat → Bool) (p : DWord) (n : Nat) (loc : Loc)
    (x : Option Xlat) : State × Except (Nat × DWord) (List Byte) :=
  if s.isLost loc then (s, .error (19, p))
  else if x.any fun x => (s.discarded x.subp x.page).isSome then (s, .ok (List.replicate n 0))
  else
    let (s, v, bad) := (x.elim s fun x => s.hotAccess x 1).homeRead loc n
    if bad.isEmpty then (s, .ok (leBytes n v))
    else if tol p x then (s.countSubs part (loc.units bad), .ok (leBytes n v)) else (s, .error (13, p))

/-- Where the byte of a pointer lies, found in a state. -/
abbrev Place := State → DWord → State × Except Nat (Loc × Option Xlat)

/-- `n` bytes read at a pointer, each line at the place that `place` finds for it, or the cause and the pointer of the first line that
fails. -/
def State.readSpans (s : State) (place : Place) (part : Option Nat) (tol : DWord → Option Xlat → Bool) (p : DWord) (n : Nat) :
    State × Except (Nat × DWord) (List Byte) :=
  (spansOf p n).foldl (fun acc x => match acc with
    | (s, .error e) => (s, .error e)
    | (s, .ok l) => match place s x.1 with
      | (s, .error c) => (s, .error (c, x.1))
      | (s, .ok (loc, y)) => match s.readAt part tol x.1 x.2 loc y with
        | (s, .ok m) => (s, .ok (l ++ m))
        | (s, .error e) => (s, .error e)) (s, .ok [])

/-- `n` bytes read at a pointer at once, through the tables. DESIGN CHOICE (log 20), unsafe. -/
def State.readNow (s : State) (part : Option Nat) (asid : Nat) (tol : DWord → Option Xlat → Bool) (p : DWord) (n : Nat)
    (need : Need) : State × Except (Nat × DWord) (List Byte) :=
  s.readSpans (fun s q => (s, s.placeNow part asid q need)) part tol p n

/-- No read is tolerant. -/
def intolerant : DWord → Option Xlat → Bool := fun _ _ => false

/-- Bytes written at a pointer, or the cause and the pointer of the first line that fails; a discarded page that revives on
a write is revived first (R342). -/
def State.writeNow (s : State) (part : Option Nat) (asid : Nat) (p : DWord) (l : List Byte) (task : Bool) :
    State × Option (Nat × DWord) :=
  ((spansOf p l.length).foldl (fun (acc : State × Option (Nat × DWord) × List Byte) x =>
    match acc with
    | (s, some e, l) => (s, some e, l)
    | (s, none, l) => match s.placeNow part asid x.1 ⟨false, true, task⟩ with
      | .error c => (s, some (c, x.1), l)
      | .ok (loc, xl) =>
        if s.isLost loc then (s, some (19, x.1), l)
        else
          let s := xl.elim s fun y => (if (s.discarded y.subp y.page).isSome then s.revive y else s).hotAccess y 1
          ((s.openWindow loc).writeHome loc x.2 (leValue (l.take x.2)), none, l.drop x.2)) (s, none, l)).map id Prod.fst

/-- Whether a write of `n` bytes at a pointer must wait for a page in motion (R338). -/
def State.writeHeld (s : State) (part : Option Nat) (asid : Nat) (p : DWord) (n : Nat) (task : Bool) : Bool :=
  (spansOf p n).any fun x => match s.placeNow part asid x.1 ⟨false, true, task⟩ with
    | .ok (.dram t a, _) => s.writeBlocked (s.redirected t a).1 (s.redirected t a).2 x.2
    | _ => false

/-- Whether a core's caches reach every page of `n` bytes at a pointer: nothing where they do, else how its word stops. -/
def State.warm (s : State) (r : Nat) (p : DWord) (n : Nat) (need : Need) : Nat → State × Option WordEnd
  | 0 => (s, none)
  | k + 1 =>
    if n = 0 then (s, none)
    else match s.reach (.core r) (s.owner r) (s.core r).asid p need with
      | (s, .fault c) => (s, some (.trap s c p))
      | (s, .miss) => (s, some (.wait s 2))
      | (s, .at_ _ _) =>
        let m := Nat.min n (65536 - ptrOff p % 65536)
        s.warm r (ptrAdd p m) (n - m) need k

/-- What reading an operand block gives. -/
inductive BlockRead where
  | ok (s : State) (l : List Byte)
  | stop (e : WordEnd)

/-- `n` bytes at a pointer in memory, whose form has been checked: the word waits until the core's earlier stores have
performed (R388) and every page has been translated. -/
def State.readBytesOf (s : State) (r : Nat) (p : DWord) (n : Nat) : BlockRead :=
  if !(s.releases r).isEmpty then .stop (.wait s 5)
  else match s.warm r p n (s.need r true false) (n / 65536 + 2) with
    | (_, some e) => .stop e
    | (s, none) =>
      match s.readNow (s.owner r) (s.core r).asid (s.isTolerant (s.core r).task) p n (s.need r true false) with
      | (s, .ok l) => .ok s l
      | (s, .error (c, q)) => .stop (.trap s c q)

/-- The operand block of `n` bytes that a word reads at a pointer in one of some spaces (R64).
DESIGN CHOICE (log 24), unsafe. -/
def State.readBlock (s : State) (r : Nat) (spaces : List Nat) (p : DWord) (n : Nat) : BlockRead :=
  match ptrFault spaces (s.core r).level n p with
  | some c => .stop (.trap s c p)
  | none =>
    if ptrSpace p = 4 then
      match privFault (s.core r) p with
      | some c => .stop (.trap s c p)
      | none =>
        let (v, bad) := s.locRead (.priv r (ptrOff p)) n
        if bad then .stop (.trap s 13 p) else .ok s (leBytes n v)
    else s.readBytesOf r p n

/-- The whole check of R64 for a pointer to `n` bytes that lie in one page: nothing where it passes, else how the word stops.
DEDUCED (log 23), unsafe. -/
def State.checkPtr (s : State) (r : Nat) (spaces : List Nat) (p : DWord) (n : Nat) (need : Need) : State × Option WordEnd :=
  match ptrFault spaces (s.core r).level n p with
  | some c => (s, some (.trap s c p))
  | none =>
    if ptrSpace p = 4 then (s, (privFault (s.core r) p).map fun c => .trap s c p) else s.warm r p n need 1

/-- Doubleword `i` of a block. -/
def blockWord (l : List Byte) (i : Nat) : Nat := leValue ((l.drop (8 * i)).take 8)

/-- The value 2^63 + v that cause 16 gives as tval for an operand (R202, R203, R208, R210, R211). -/
def cfgVal (v : Nat) : DWord := BitVec.ofNat 64 (2 ^ 63 + v)

end Sys2Proof.Machine
end

