-- ==== Sys2Proof/Machine/Objects.lean ====
section
/-!
DEFINITION. Barrier objects in memory tiles: their fields, their completion, the object words, and the decrement that a
copy makes (R307, R308, R317).
-/

namespace Sys2Proof.Machine

/-- The fields of a barrier object (R307). -/
structure BarrierObj where
  gen      : Nat
  expected : Nat
  pending  : Nat
  inbound  : Nat
  outbound : Nat
  deriving DecidableEq, Repr, Inhabited

/-- An object from its 16 bytes. -/
def BarrierObj.ofBits (x : Nat) : BarrierObj := ⟨bits x 0 4, bits x 4 28, bits x 32 32, bits x 64 32, bits x 96 32⟩
/-- The 16 bytes of an object. -/
def BarrierObj.toBits (o : BarrierObj) : Nat :=
  o.gen % 16 + o.expected % 2 ^ 28 * 2 ^ 4 + o.pending % 2 ^ 32 * 2 ^ 32 + o.inbound % 2 ^ 32 * 2 ^ 64 +
    o.outbound % 2 ^ 32 * 2 ^ 96

/-- After an update: an object with nothing pending and nothing in transfer completes (R307). -/
def BarrierObj.complete (o : BarrierObj) : BarrierObj :=
  if o.pending = 0 ∧ o.inbound = 0 ∧ o.outbound = 0 then { o with gen := (o.gen + 1) % 16, pending := o.expected } else o

/-- The tile, memory tile and byte offset that a space-5 pointer names. -/
def objPlace (p : DWord) : Nat × Nat × Nat := (ptrRank p, (tilePart p).1, (tilePart p).2)

/-- The object at a pointer. -/
def State.obj (s : State) (p : DWord) : BarrierObj :=
  let (r, q, off) := objPlace p
  .ofBits (readVal (s.mtile r q).mem off 16)
/-- The state with the object at a pointer replaced. -/
def State.setObj (s : State) (p : DWord) (o : BarrierObj) : State :=
  let (r, q, off) := objPlace p
  s.modMtile r q fun m => m.write off 16 o.toBits

/-- The checks of an object word: R64 with access size 16, R148, and an uncorrectable word (R308). -/
def State.objFault (s : State) (r : Nat) (p : DWord) : Option Nat :=
  match ptrFault [5] (s.core r).level 16 p with
  | some c => some c
  | none =>
    let (t, q, off) := objPlace p
    match (s.mtile t q).plainRegion (wordsOf off 16) with
    | .error _ => some 6
    | .ok _ => if (s.mtile t q).anyBad (wordsOf off 16) then some 13 else none

/-- An object word: `f` answers the new state or the subcode of a cause 18 fault. -/
def objWord (s : State) (reads : List (BitVec 5)) (ga : BitVec 5) (f : Nat → DWord → Except Nat State) : State :=
  s.memWord reads [] fun r =>
    let p := s.reg r ga
    match s.objFault r p with
    | some c => .trap s c p
    | none => match f r p with
      | .ok s' => .retire s' 1
      | .error sub => .trap s 18 (ptrSub p sub)

/-- BOINIT (R308): no completion is evaluated. -/
def execBoinit (ga gb : BitVec 5) (s : State) : Host.Outcome State Fault Refusal :=
  .next (objWord s [ga, gb] ga fun r p =>
    let v := (s.reg r gb).toNat
    if v ≥ 2 ^ 28 then .error 8
    else .ok (s.setObj p ⟨((s.obj p).gen + 1) % 16, v, v, 0, 0⟩))

/-- BOXFER (R308): a count that passes 2^32 − 1 raises subcode 8. -/
def execBoxfer (ga gb : BitVec 5) (s : State) : Host.Outcome State Fault Refusal :=
  .next (objWord s [ga, gb] ga fun r p =>
    let v := (s.reg r gb).toNat
    let o := s.obj p
    let i := o.inbound + v % 2 ^ 32
    let u := o.outbound + v / 2 ^ 32
    if i ≥ 2 ^ 32 ∨ u ≥ 2 ^ 32 then .error 8
    else .ok (s.setObj p ({ o with inbound := i, outbound := u } : BarrierObj).complete))

/-- BOARR (R308): an arrival; the core latches the object and its generation before the update. -/
def execBoarr (ga : BitVec 5) (s : State) : Host.Outcome State Fault Refusal :=
  .next (objWord s [ga] ga fun r p =>
    let o := s.obj p
    if o.pending = 0 then .error 11
    else .ok ((s.setObj p ({ o with pending := o.pending - 1 } : BarrierObj).complete).modCore r fun c =>
      { c with boLatch := some (p, o.gen) }))

/-- BOWAIT (R308): stalls until the object's generation differs from the latched one. -/
def execBowait (ga : BitVec 5) (s : State) : Host.Outcome State Fault Refusal :=
  .next (s.memWord [ga] [] fun r =>
    let p := s.reg r ga
    match s.objFault r p with
    | some c => .trap s c p
    | none => match (s.core r).boLatch with
      | some (q, g) =>
        if q ≠ p then .trap s 18 (ptrSub p 9)
        else if (s.obj p).gen = g then .wait s 3 else .retire s 1
      | none => .trap s 18 (ptrSub p 9))

/-- A copy decrements a transfer count of an object (R317): below zero it raises cause 18, subcode 10, at the runtime
level of the object's tile (R307, R395). -/
def State.objTransfer (s : State) (p : DWord) (inbound : Bool) : State :=
  let o := s.obj p
  let n := if inbound then o.inbound else o.outbound
  if n = 0 then s.raiseAt (ptrRank p) 18 (ptrSub p 10) 2
  else
    let o := if inbound then { o with inbound := n - 1 } else { o with outbound := n - 1 }
    s.setObj p o.complete

end Sys2Proof.Machine
end

