-- ==== Sys2Proof/Machine/Copy.lean ====
section
/-!
DEFINITION. Copy engines: the copy words, tickets and promises, pieces and their faults, completion, and QFENCE (R278,
R309 to R323, R392).
-/

namespace Sys2Proof.Machine

/-! ### Shapes -/

/-- The bytes a command moves (R314). -/
def CopyShape.total : CopyShape → Nat
  | .flat _ _ len => len
  | .rows _ _ rowb n _ _ => rowb * n
  | .gather _ _ _ count ebytes => count * ebytes
  | .zero _ len => len

/-- The bytes that count for the promise: 4 more per index for CPYG (R318). -/
def CopyShape.priced : CopyShape → Nat
  | .gather _ _ _ count ebytes => count * (ebytes + 4)
  | c => c.total

/-- The first destination byte of a shape. -/
def CopyShape.dst : CopyShape → DWord
  | .flat _ d _ => d
  | .rows _ d _ _ _ _ => d
  | .gather _ d _ _ _ => d
  | .zero d _ => d
/-- The first source byte of a shape; a zero fill has none. -/
def CopyShape.src : CopyShape → Option DWord
  | .flat p _ _ => some p
  | .rows p _ _ _ _ _ => some p
  | .gather p _ _ _ _ => some p
  | .zero _ _ => none

/-- The command of a queue that a sequence number names, while the engine tracks it (R313). -/
def State.cmd? (s : State) (e q n : Nat) : Option Cmd :=
  (mapGet (CQueue.reset) (s.engine e).queues q).cmds.find? fun c => decide (c.seq = n)
/-- The state with a queue of an engine changed by `f`. -/
def State.modCQueue (s : State) (e q : Nat) (f : CQueue → CQueue) : State :=
  s.modEngine e fun g => { g with queues := mapMod CQueue.reset g.queues q f }
/-- The state with a command changed by `f`. -/
def State.modCmd (s : State) (e q n : Nat) (f : Cmd → Cmd) : State :=
  s.modCQueue e q fun c => { c with cmds := c.cmds.map fun k => if k.seq = n then f k else k }
/-- The queue of an engine. -/
def State.cqueue (s : State) (e q : Nat) : CQueue := mapGet CQueue.reset (s.engine e).queues q

/-- A ticket (R313). -/
def ticketOf (e q n : Nat) : DWord := BitVec.ofNat 64 (e * 2 ^ 20 + q * 2 ^ 16 + n)

/-! ### Promises (R318) -/

/-- The latency and rate of an endpoint, for an engine of branch `b`: nothing where its place cannot be told. -/
def State.endpoint (s : State) (b : Nat) (c : Cmd) (p : DWord) : Option (Nat × Nat) :=
  let stack (k : Nat) : Nat × Nat :=
    let mine := b / 16
    if k = mine then (176, 64)
    else if k / 2 = mine / 2 then (208, 64)
    else if (k / 2) ^^^ (mine / 2) = 3 then (336, 64) else (272, 64)
  let tier (t a : Nat) : Nat × Nat :=
    if t = 0 then stack (s.home 0 a) else if t = 1 then (400, 32) else if t = 2 then (900, 16) else (1500, 8)
  if ptrSpace p = 1 then some (48, 64)
  else if ptrSpace p = 3 then
    if ptrOff p / 2 ^ 46 = 0 ∧ ptrRank p / 4 = b then some (48, 64) else some (stack (ptrRank p / 64))
  else if ptrSpace p = 6 then some (2400, 16)
  else if ptrSpace p = 7 then
    (s.stageC c.part (ptrOff p / 2 ^ 46) (ptrOff p % 2 ^ 46)).map fun a => tier (ptrOff p / 2 ^ 46) a
  else match s.leafA c.asid (ptrOff p / 65536) with
    | .error _ => none
    | .ok (_, page) => match s.entryB (s.asid c.asid).subp page with
      | .error _ => none
      | .ok e => (s.stageC c.part (entTier e) (entFrame e * 65536)).map fun a => tier (entTier e) a

/-- The number of queues of an engine that hold uncompleted commands. -/
def Engine.busyQueues (g : Engine) : Nat := (g.queues.filter fun k => k.2.cmds.any fun c => c.done.isNone).length

/-- L + ceil(bytes / r), with r = min(tier rate, 64 / Q); nothing where an endpoint's place cannot be told. -/
def State.copyTime (s : State) (b : Nat) (c : Cmd) (bytes q : Nat) : Option Nat :=
  match s.endpoint b c c.shape.dst, c.shape.src.map (s.endpoint b c) with
  | some (l, r), none => some (l + Nat.max (ceilDiv bytes r) (ceilDiv (bytes * q) 64))
  | some (l, r), some (some (l', r')) =>
    some (Nat.max l l' + Nat.max (ceilDiv bytes (Nat.min r r')) (ceilDiv (bytes * q) 64))
  | _, _ => none

/-- The promise of a command accepted now, after the promise of what it follows; a free value where the manual's terms
cannot be told (R318). DESIGN CHOICE (log 101), safe. -/
def State.promiseAfter (s : State) (b : Nat) (c : Cmd) (prev bytes : Nat) : Nat :=
  let g := s.engine b
  match s.copyTime b c bytes (Nat.max 1 g.busyQueues) with
  | some t => Nat.max s.now prev + t
  | none => (Config.freeWord s.nextId).toNat

/-! ### Acceptance (R312, R316) -/

/-- Whether a partition may use a queue (R309, R364). A tile that no partition owns is the operator's, who holds every
right. -/
def State.queueGranted (s : State) (r q : Nat) : Bool :=
  match s.owner r with
  | some p => (mapGet 0 (s.part p).quotas 4).testBit q
  | none => true

/-- The subcode of R158 for an extent of `n` bytes at byte `off` of a memory tile under R148. -/
def MTile.extentSub (m : MTile) (off n : Nat) : Option Nat :=
  match m.regionOf (off / 4) with
  | none => some 0
  | some g =>
    if g.mode ≠ 0 then some 1
    else if (off + n + 3) / 4 ≤ g.base + g.len then none
    else if (m.regionOf ((off + n - 1) / 4)).isNone then some 0 else some 2

/-- The byte ranges of one side of a command, as given: pointers and lengths. -/
def CopyShape.dstRanges : CopyShape → List (DWord × Nat)
  | .flat _ d len => [(d, len)]
  | .rows _ d rowb n _ dstr => (List.range n).map fun (j : Nat) => (ptrAddInt d (j * dstr), rowb)
  | .gather _ d _ count ebytes => [(d, count * ebytes)]
  | .zero d len => [(d, len)]
/-- The source ranges as given. Of a gather, whose elements depend on its indices, that is the index list, which is read as part of
the source (R315). -/
def CopyShape.srcRanges : CopyShape → List (DWord × Nat)
  | .flat p _ len => [(p, len)]
  | .rows p _ rowb n sstr _ => (List.range n).map fun (j : Nat) => (ptrAddInt p (j * sstr), rowb)
  | .gather _ _ i count _ => [(i, 4 * count)]
  | .zero _ _ => []
/-- The ranges whose space-1 extents are checked at issue (R148, R316): for a gather the index list, and of the source its first
word. DEDUCED (log 139), unsafe. -/
def CopyShape.extents (c : CopyShape) : List (DWord × Nat) :=
  c.srcRanges ++ (match c with
    | .gather p _ _ _ _ => [(p, 4)]
    | _ => []) ++ c.dstRanges

/-- Whether two ranges share a byte, as given (R316). -/
def rangesMeet (a b : DWord × Nat) : Bool :=
  ptrSpace a.1 == ptrSpace b.1 && ptrRank a.1 == ptrRank b.1 &&
    decide (ptrOff a.1 < ptrOff b.1 + b.2 ∧ ptrOff b.1 < ptrOff a.1 + a.2)

/-- What is wrong with the arg field of a control word that names a shape block of `n` bytes (R312, R315): it lies below the level's
bound (R257) or beyond private memory, is poisoned, breaks R315 or is not a multiple of 8. -/
def State.shapeFault (s : State) (r : Nat) (ctl : DWord) (n : Nat) (ok : Bool) : Option (Nat × DWord) :=
  let off := bits ctl.toNat 0 48
  if off < ((s.core r).trap (s.core r).level).pbound.toNat then some (1, ctl)
  else if privSize < off + n then some (2, ctl)
  else if !(s.locBad (.priv r off) n).isEmpty then some (13, ctl)
  else if !ok then some (6, ptrSub ctl 12)
  else if off % 8 ≠ 0 then some (2, ctl) else none

/-- Whether the pointer of a barrier object fails the checks of R64 for space 5 (R316). -/
def State.objPointerBad (s : State) (r : Nat) (p : DWord) : Bool :=
  (ptrFault [5] (s.core r).level 16 p).isSome ||
    (match (s.mtile (objPlace p).1 (objPlace p).2.1).plainRegion (wordsOf (objPlace p).2.2 16) with
      | .ok _ => false
      | .error _ => true)

/-- The first failing check of a copy command's operands, in the order of R316: a cause and its tval. `ctl` is the
control word, `arg` what is wrong with its arg field, `shape` what is to be moved. -/
def State.copyFault (s : State) (r : Nat) (ctl : DWord) (arg : Option (Nat × DWord)) (shape : CopyShape) :
    Option (Nat × DWord) :=
  let c := s.core r
  let q := bits ctl.toNat 56 4
  let side (p : DWord) (spaces : List Nat) : Option (Nat × DWord) := (ptrFault spaces c.level 4 p).map fun k => (k, p)
  let idx : Option (Nat × DWord) := match shape with
    | .gather _ _ i _ _ => (side i [0, 1, 4]).or (if ptrSpace i = 4 then (privFault c i).map fun k => (k, i) else none)
    | _ => none
  let extent (x : DWord × Nat) : Option (Nat × DWord) :=
    if ptrSpace x.1 = 1 then
      ((s.mtile r (tilePart x.1).1).extentSub (tilePart x.1).2 x.2).map fun k => (6, ptrSub x.1 k)
    else none
  let obj (bit : Nat) (p : DWord) : Option (Nat × DWord) :=
    if ctl.toNat.testBit bit ∧ s.objPointerBad r p then some (18, ptrSub p 8) else none
  if ctl.toNat.testBit 63 ∨ ctl.toNat.testBit 60 ∨ bits ctl.toNat 48 8 ≠ 0 then some (6, ptrSub ctl 12)
  else if !s.queueGranted r q then some (6, ptrSub ctl 12)
  else
    arg.or <|
    (shape.src.bind fun p => side p [0, 1, 3, 6, 7]).or <|
    (side shape.dst [0, 1, 3, 6, 7]).or <|
    idx.or <|
    (shape.extents.findSome? extent).or <|
    (if shape.srcRanges.any fun a => shape.dstRanges.any (rangesMeet a) then some (6, ptrSub shape.dst 13) else none).or <|
    (obj 61 c.cpbin).or (obj 62 c.cpbout)

/-- Joins that still hold something back (R392). -/
def State.copyJoined (s : State) (e : Nat) (j : List (Nat × Nat × Nat)) : List (Nat × Nat × Nat) :=
  j.filter fun x => (s.cmd? e x.2.1 x.2.2).any fun c => c.done.isNone

/-- A command enters its queue (R316): its sequence number, its promise, and the copies it waits behind. -/
def State.acceptCopy (s : State) (e q core : Nat) (sched : Bool) (task : Option Nat) (shape : CopyShape) (asid : Nat) (part : Option Nat)
    (level : Nat) (bin bout : Option DWord) (before : List Nat) : State × DWord :=
  let k := s.cqueue e q
  let join := s.copyJoined e k.join
  let c : Cmd :=
    { seq := k.seq, core := core, sched := sched, task := task, shape := shape, asid := asid, part := part, level := level, bin := bin,
      bout := bout, index := none, next := 0, pieces := [], before := before, join := join, promise := 0, missed := false,
      told := false, boutDone := false, fault := none, done := none }
  let prev := match join with
    | [] => (k.cmds.filter fun c => c.done.isNone).foldl (fun _ c => c.promise) 0
    | _ => join.foldl (fun m x => Nat.max m ((s.cmd? e x.2.1 x.2.2).elim 0 Cmd.promise)) 0
  let s := s.modCQueue e q fun k =>
    { k with seq := (k.seq + 1) % 2 ^ 16, cmds := (k.cmds ++ [c]).drop ((k.cmds.length + 1) - 256) }
  let p := s.promiseAfter e c prev shape.priced
  ((s.modCmd e q c.seq fun c => { c with promise := p }).bumpId, ticketOf e q c.seq)

/-- A copy word whose shape has been read (R316). -/
def State.copyWord (s : State) (r : Nat) (gd : BitVec 5) (ctl : DWord) (arg : Option (Nat × DWord)) (shape : CopyShape) :
    WordEnd :=
  match s.copyFault r ctl arg shape with
  | some (c, v) => .trap s c v
  | none =>
    let c := s.core r
    let e := r / 4
    let q := bits ctl.toNat 56 4
    if ((s.cqueue e q).cmds.filter fun c => c.done.isNone).length ≥ 32 ∨ c.ocCp ≥ 16 then .wait s 5
    else
      let (s', t) := s.acceptCopy e q r false c.task shape (s.engineAsid r) (s.owner r) c.level
        (if ctl.toNat.testBit 61 then some c.cpbin else none) (if ctl.toNat.testBit 62 then some c.cpbout else none)
        (s.releases r)
      .retire ((s'.modCore r fun c => { c with ocCp := c.ocCp + 1 }).setReg r gd t) 1

/-- Whether a length obeys R312. -/
def copyLenOk (n : Nat) : Bool := decide (4 ≤ n ∧ n ≤ 2 ^ 32 ∧ n % 4 = 0)
/-- What is wrong with the arg field of a control word that holds a length (R312). -/
def lenFault (ctl : DWord) : Option (Nat × DWord) := if copyLenOk (bits ctl.toNat 0 48) then none else some (2, ctl)

/-- CPY (R314, R316). -/
def execCpy (gd ga gb : BitVec 5) (s : State) : Host.Outcome State Fault Refusal :=
  .next (s.memWord [gd, ga, gb] [gd] fun r =>
    let ctl := s.reg r gd
    let n := bits ctl.toNat 0 48
    s.copyWord r gd ctl (lenFault ctl) (.flat (s.reg r ga) (s.reg r gb) n))

/-- CPYZ (R314, R316): the ga field names the destination. -/
def execCpyz (gd ga : BitVec 5) (s : State) : Host.Outcome State Fault Refusal :=
  .next (s.memWord [gd, ga] [gd] fun r =>
    let ctl := s.reg r gd
    let n := bits ctl.toNat 0 48
    s.copyWord r gd ctl (lenFault ctl) (.zero (s.reg r ga) n))

/-- A doubleword of the shape block at a space-4 offset. -/
def State.shapeWord (s : State) (r off i : Nat) : Nat := readVal (s.core r).mem (off + 8 * i) 8

/-- CPY2D (R314 to R316). -/
def execCpy2d (gd ga gb : BitVec 5) (s : State) : Host.Outcome State Fault Refusal :=
  .next (s.memWord [gd, ga, gb] [gd] fun r =>
    let ctl := s.reg r gd
    let off := bits ctl.toNat 0 48
    let w := s.shapeWord r off
    let rowb := bits (w 0) 0 32
    let rows := bits (w 0) 32 32
    let ss := signed 64 (w 1)
    let ds := signed 64 (w 2)
    let ok := decide (4 ≤ rowb ∧ rowb ≤ 65536 ∧ rowb % 4 = 0 ∧ 1 ≤ rows ∧ rows ≤ 65536 ∧ ss % 4 = 0 ∧ ds % 4 = 0)
    s.copyWord r gd ctl (s.shapeFault r ctl 24 ok) (.rows (s.reg r ga) (s.reg r gb) rowb rows ss ds))

/-- CPYG (R314 to R316). -/
def execCpyg (gd ga gb : BitVec 5) (s : State) : Host.Outcome State Fault Refusal :=
  .next (s.memWord [gd, ga, gb] [gd] fun r =>
    let ctl := s.reg r gd
    let off := bits ctl.toNat 0 48
    let w := s.shapeWord r off
    let count := bits (w 1) 0 32
    let eb := bits (w 1) 32 16
    let ok := decide (1 ≤ count ∧ count ≤ 65536 ∧ 4 ≤ eb ∧ eb ≤ 4096 ∧ eb % 4 = 0 ∧ w 1 / 2 ^ 48 = 0)
    s.copyWord r gd ctl (s.shapeFault r ctl 16 ok)
      (.gather (s.reg r ga) (s.reg r gb) (BitVec.ofNat 64 (w 0)) count eb))

/-! ### Tickets: CPQ and PCHK (R278, R320) -/

/-- The command that a ticket names, if the core of tile `r` issued it and its engine still tracks it. -/
def State.ticketCmd (s : State) (r : Nat) (t : DWord) : Option (Nat × Nat × Cmd) :=
  if t.toNat ≥ 2 ^ 27 then none
  else
    let e := bits t.toNat 20 7
    let q := bits t.toNat 16 4
    match s.cmd? e q (bits t.toNat 0 16) with
    | some c => if c.core = r ∧ !c.sched then some (e, q, c) else none
    | none => none

/-- The bytes that a command has still to move, an index that has not been read counting 4 (R318, R320). -/
def Cmd.remaining (c : Cmd) : Nat :=
  c.shape.total - c.next + (c.pieces.map Piece.len).sum + (match c.shape with
    | .gather _ _ _ count _ => 4 * (count - c.index.elim 0 fun i => i.1 + 1)
    | _ => 0)

/-- CPQ (R320). It is no engine command, and waits for its operands only. -/
def execCpq (gd ga : BitVec 5) (s : State) : Host.Outcome State Fault Refusal :=
  .next (s.word [ga] [gd] fun r =>
    match s.ticketCmd r (s.reg r ga) with
    | none => .retire (s.setReg r gd (BitVec.allOnes 64)) 1
    | some (e, q, c) =>
      match c.fault, c.done with
      | some (_, done), some _ => .retire (s.setReg r gd (BitVec.ofNat 64 (2 ^ 63 + done))) 1
      | none, some t => .retire (s.setReg r gd (BitVec.ofNat 64 t)) 1
      | _, none =>
        if c.missed then
          let p := s.promiseAfter e c s.now c.remaining
          .retire ((s.modCmd e q c.seq fun c => { c with promise := p, missed := false }).bumpId.setReg r gd
            (BitVec.ofNat 64 p)) 1
        else .retire (s.setReg r gd (BitVec.ofNat 64 c.promise)) 1)

/-- PCHK (R278): the state of a ticket, read without waiting. -/
def execPchk (gd ga : BitVec 5) (s : State) : Host.Outcome State Fault Refusal :=
  .next (s.word [ga] [gd] fun r =>
    let v : DWord := match s.ticketCmd r (s.reg r ga) with
      | none => 3
      | some (_, _, c) => if c.done.isSome then 0 else if c.promise < s.now then 2 else 1
    .retire (s.setReg r gd v) 1)

/-! ### Pieces (R310, R311, R321) -/

/-- One contiguous run of a command that byte `off` lies in: its first offset, its end, and the source and destination
of byte `off`; a gather's element comes from its index. -/
def CopyShape.run (c : CopyShape) (off : Nat) (index : Nat) : Nat × Nat × DWord × DWord :=
  match c with
  | .flat p d len => (0, len, ptrAdd p off, ptrAdd d off)
  | .zero d len => (0, len, 0, ptrAdd d off)
  | .rows p d rowb _ sstr dstr =>
    let j := off / rowb
    let i := off % rowb
    (j * rowb, (j + 1) * rowb, ptrAddInt p (j * sstr + i), ptrAddInt d (j * dstr + i))
  | .gather p d _ _ eb =>
    let j := off / eb
    (j * eb, (j + 1) * eb, ptrAdd p (index * eb + off % eb), ptrAdd d off)

/-- Where a copy access reaches, or why it cannot yet, or its fault. An element of a gather in space 1 that lies beyond its region
reads the bytes that stand there, since a piece raises no cause 6 (R321). DESIGN CHOICE (log 140), unsafe. -/
def State.copyReach (s : State) (e q : Nat) (c : Cmd) (p : DWord) (rd wr : Bool) : State × Reached :=
  if !ptrFormOk p then (s, .fault 3)
  else if ptrSpace p = 1 then (s, .at_ (.mtile c.core (tilePart p).1 (tilePart p).2) none)
  else if ptrSpace p = 4 then (s, .at_ (.priv c.core (ptrOff p)) none)
  else if ptrSpace p = 6 then
    let ent := (mapGet 0 s.peers (ptrRank p)).toNat
    let port := bits ent 0 4
    if ent.testBit 63 ∧ port < 12 ∧ c.part = some (bits ent 30 6) ∧ (s.link port).state = .up then
      (s, .at_ (.peer (ptrRank p) (ptrOff p)) none)
    else (s, .fault 19)
  else s.reach (.copy e q c.seq) c.part c.asid p ⟨rd, wr, decide (c.level = 3)⟩

/-- The boundary at which a piece is cut in the place it reaches (R311, R324). -/
def pieceStep (loc : Loc) : Nat :=
  match loc with
  | .dram 0 _ => 256
  | .dram 1 _ => 4096
  | .dram 3 _ => 4096
  | _ => 65536

/-- The offset at which the piece that holds byte `off` begins: the nearest boundary of either side behind it. -/
def pieceStart (off first : Nat) (src dst : Nat × Nat) : Nat :=
  off - Nat.min (off - first) (Nat.min (src.1 % src.2) (dst.1 % dst.2))

/-- The command ends by fault (R321): its cause and the completed prefix, those of its first faulting piece. -/
def State.endCopy (s : State) (e q n cause done : Nat) : State :=
  s.modCmd e q n fun c => if c.fault.any fun f => decide (f.2 ≤ done) then c else { c with fault := some (cause, done) }

/-- Whether a source byte may be uncorrectable: by its region of a memory tile, its page or its task's declaration (R167, R317,
R330). -/
def State.copyTolerant (s : State) (c : Cmd) (p : DWord) (loc : Loc) (x : Option Xlat) (i : Nat) : Bool :=
  match loc with
  | .mtile r q off => ((s.mtile r q).regionOf ((off + i) / 4)).any MapRegion.tol
  | _ => s.isTolerant c.task (ptrAdd p i) x

/-- Whether two ranges share a 64-byte line. -/
def linesMeet (a : DWord) (n : Nat) (b : DWord) (m : Nat) : Bool :=
  ptrSpace a == ptrSpace b && ptrRank a == ptrRank b &&
    decide (ptrOff a / 64 ≤ (ptrOff b + m - 1) / 64 ∧ ptrOff b / 64 ≤ (ptrOff a + n - 1) / 64)

/-- Whether a destination line of a piece is also one of an earlier piece in flight: the piece is not written before that one has
been, so that a fault of either leaves no line torn (R321). -/
def Cmd.mustFollow (c : Cmd) (p : Piece) : Bool :=
  let dst (k : Piece) : DWord := (c.shape.run k.off 0).2.2.2
  c.pieces.any fun k => decide (k.off < p.off) && linesMeet (dst k) k.len (dst p) p.len

/-- A piece whose access has performed: a read becomes a write, which follows the earlier writes of its command, a finished write
leaves the command, and a fault ends it (R310, R317, R321). -/
def State.turnPiece (s : State) (e q : Nat) (c : Cmd) (p : Piece) (a : Access) : State :=
  let t := { s with accs := s.accs.filter fun b => decide (b.id ≠ a.id) }
  let drop (s : State) : State :=
    s.modCmd e q c.seq fun c => { c with pieces := c.pieces.filter fun k => decide (k.off ≠ p.off) }
  match a.kind with
  | .load _ =>
    if a.fault ≠ 0 then drop (t.endCopy e q c.seq a.fault a.cmp)
    else if !(a.bad.all (s.copyTolerant c a.ptr a.loc a.xl)) then drop (t.endCopy e q c.seq 13 a.cmp)
    else if c.fault.any fun f => decide (f.2 ≤ p.off) then drop t
    else if c.mustFollow p then s
    else
      let d := (c.shape.run p.off a.gd).2.2.2
      match s.copyReach e q c d false true with
      | (s, .miss) => s
      | (_, .fault k) => drop (t.endCopy e q c.seq k a.cmp)
      | (s, .at_ loc x) =>
        let t := { s with accs := s.accs.filter fun b => decide (b.id ≠ a.id) }
        let earlier := (t.accs.filter fun b => decide (b.who = .copy e q c.seq ∧ b.kind = .store)).map Access.id
        let b := { t.newAccess (.copy e q c.seq) .store loc p.len a.val d x with before := earlier, cmp := a.cmp, part := c.part }
        ((t.countSubs c.part (a.loc.units a.bad)).send b).modCmd e q c.seq fun c =>
          { c with pieces := c.pieces.map fun k => if k.off = p.off then { k with acc := b.id } else k }
  | _ => if a.fault ≠ 0 then drop (t.endCopy e q c.seq a.fault a.cmp) else drop t

/-- The pieces of a command whose accesses have performed go on, in order. -/
def State.turnPieces (s : State) (e q : Nat) (c : Cmd) : State :=
  c.pieces.foldl (fun s p => match s.cmd? e q c.seq, s.accs.find? fun a => decide (a.id = p.acc) with
    | some c, some a => if a.done then s.turnPiece e q c p a else s
    | _, _ => s) s

/-- The index of element `i` of a gather, read as part of the source (R315), once. -/
def State.gatherIndex (s : State) (e q : Nat) (c : Cmd) (off : Nat) : State × Option (Except Nat Nat) :=
  match c.shape with
  | .gather _ _ ip _ eb =>
    let i := off / eb
    match c.index.filter fun x => decide (x.1 = i) with
    | some (_, v) => (s, some (.ok v))
    | none =>
      let p := ptrAdd ip (4 * i)
      let keep (s : State) (v : Nat) : State × Option (Except Nat Nat) :=
        (s.modCmd e q c.seq fun c => { c with index := some (i, v) }, some (.ok v))
      match s.copyReach e q c p true false with
      | (s, .miss) => (s, none)
      | (s, .fault k) => (s, some (.error k))
      | (s, .at_ loc x) =>
        if s.isLost loc then (s, some (.error 19))
        else if x.any fun x => (s.discarded x.subp x.page).isSome then keep s 0
        else
          let (s, v, bad) := (x.elim s fun x => s.hotAccess x 1).homeRead loc 4
          if bad.all (s.copyTolerant c p loc x) then keep (s.countSubs c.part (loc.units bad)) v else (s, some (.error 13))
  | _ => (s, some (.ok 0))

/-- Whether a command can issue its next unit: it is the oldest uncompleted one of its queue, what it must follow has
performed, and bytes are left (R310, R388, R392). -/
def State.copyReady (s : State) (e q : Nat) : Option Cmd :=
  match (s.cqueue e q).cmds.find? fun c => c.done.isNone with
  | some c =>
    if c.fault.isNone ∧ c.next < c.shape.total ∧ (s.copyJoined e c.join).isEmpty ∧
        s.performed c.before then some c else none
  | none => none

/-- One unit of at most 256 bytes of a command is issued (R310, R311): its source read, or its write for a zero fill.
Units end at lines of the destination, so that a command that faults leaves no line torn beyond its prefix (R321). -/
def State.issueUnit (s : State) (e q : Nat) (c : Cmd) : State :=
  let off := c.next
  match s.gatherIndex e q c off with
  | (s, none) => s
  | (s, some (.error k)) => s.endCopy e q c.seq k off
  | (s, some (.ok index)) =>
    let (first, stop, src, dst) := c.shape.run off index
    let from_ := match c.shape with
      | .zero _ _ => (s, Reached.at_ (.peer 0 0) none)
      | _ => s.copyReach e q c src true false
    match from_ with
    | (s, .miss) => s
    | (s, .fault k) => s.endCopy e q c.seq k (pieceStart off first (ptrOff src, 65536) (ptrOff dst, 65536))
    | (s, .at_ sl sx) =>
      match s.copyReach e q c dst false true with
      | (s, .miss) => s
      | (s, .fault k) => s.endCopy e q c.seq k (pieceStart off first (ptrOff src, pieceStep sl) (ptrOff dst, 65536))
      | (s, .at_ dl dx) =>
        let gs := pieceStep sl
        let gd := pieceStep dl
        let n := Nat.min (Nat.min (256 - ptrOff dst % 64) (stop - off))
          (Nat.min (gs - ptrOff src % gs) (gd - ptrOff dst % gd))
        let start := pieceStart off first (ptrOff src, gs) (ptrOff dst, gd)
        let a := match c.shape with
          | .zero _ _ =>
            { s.newAccess (.copy e q c.seq) .store dl n 0 dst dx with before := c.before, cmp := start, part := c.part }
          | _ =>
            { s.newAccess (.copy e q c.seq) (.load false) sl n 0 src sx with
              before := c.before, cmp := start, gd := index, part := c.part }
        ((s.send a).modCmd e q c.seq fun c =>
          { c with next := off + n, pieces := c.pieces ++ [⟨off, n, a.id⟩] }).modEngine e fun g =>
            { g with unitAt := s.now + ceilDiv n 64, moveAt := s.now + 1 }

/-- COPY_PIECE_ISSUE (R310, R311): the engine in focus turns its finished reads into writes and serves its queues in
round-robin order, one unit, at 64 bytes a cycle and with at most four pieces in flight. -/
def execCopyPieceIssue (s : State) : Host.Outcome State Fault Refusal :=
  let e := s.foc.unit
  let turned := (List.range 16).foldl (fun s q => (s.cqueue e q).cmds.foldl (fun s c => s.turnPieces e q c) s) s
  let flying := (List.range 16).foldl (fun n q => n + ((turned.cqueue e q).cmds.map fun c => c.pieces.length).sum) 0
  let order := (List.range 16).map fun i => ((turned.engine e).turn + i) % 16
  .next (
    if flying ≥ 4 ∨ s.now < (turned.engine e).unitAt then turned
    else match order.findSome? fun q => (turned.copyReady e q).map fun c => (q, c) with
      | some (q, c) => (turned.issueUnit e q c).modEngine e fun g => { g with turn := (q + 1) % 16 }
      | none => turned)

/-- The issuing core's oc.cp falls; a copy task has no issuing core. -/
def State.copyFinished (s : State) (c : Cmd) : State :=
  if c.sched then s else s.modCore c.core fun k => { k with ocCp := k.ocCp - 1 }

/-- Whether every source read of a command has returned. -/
def State.copyReadsDone (s : State) (c : Cmd) : Bool :=
  decide (c.next = c.shape.total) && c.pieces.all fun p =>
    s.accs.all fun a => a.id != p.acc || a.kind == .store

/-- COPY_COMPLETE (R317): the command in focus (engine, queue, sequence) has made all its writes. -/
def execCopyComplete (s : State) : Host.Outcome State Fault Refusal :=
  let e := s.foc.unit
  let q := s.foc.sub
  .next (match s.cmd? e q s.foc.arg with
    | none => s
    | some c0 =>
      let s := s.turnPieces e q c0
      match s.cmd? e q s.foc.arg with
      | none => s
      | some c =>
        if c.done.isSome ∨ c.fault.isSome then s
        else
          let s := if s.copyReadsDone c ∧ !c.boutDone then
              ((c.bout.elim s fun p => s.objTransfer p false)).modCmd e q c.seq fun c => { c with boutDone := true }
            else s
          if c.next = c.shape.total ∧ c.pieces.isEmpty then
            let s := c.bin.elim s fun p => s.objTransfer p true
            (s.modCmd e q c.seq fun c => { c with done := some s.now }).copyFinished c
          else s)

/-- COPY_PIECE_FAULT (R321): the pieces in flight of the command in focus have finished; its fault reaches the issuing core once, and
oc.cp falls. DEDUCED (log 125), unsafe. -/
def execCopyPieceFault (s : State) : Host.Outcome State Fault Refusal :=
  let e := s.foc.unit
  let q := s.foc.sub
  .next (match s.cmd? e q s.foc.arg with
    | none => s
    | some c0 =>
      let s := s.turnPieces e q c0
      match s.cmd? e q s.foc.arg with
      | none => s
      | some c =>
        match c.fault, c.done with
        | some (k, _), none =>
          if c.pieces.isEmpty then
            let s := if c.sched then c.part.elim s fun p => s.raiseSteward p k (ticketOf e q c.seq)
              else s.raise c.core (s.core c.core).level k (ticketOf e q c.seq)
            (s.modCmd e q c.seq fun c => { c with told := true, done := some s.now }).copyFinished c
          else s
        | _, _ => s)

/-- Whether the counter has passed the promise of a command that still runs and has not been told so (R319). -/
def Cmd.misses (c : Cmd) (now : Nat) : Bool :=
  c.done.isNone && c.fault.isNone && !c.missed && !c.sched && decide (c.promise + 1 ≤ now)
/-- Cause 9 is raised once, for task level (R37, R319). -/
def State.missPromise (s : State) (e q : Nat) (c : Cmd) : State :=
  if c.misses s.now then
    (s.modCmd e q c.seq fun c => { c with missed := true }).raiseAt c.core 9 (ticketOf e q c.seq) 3
  else s
/-- Every promise that the counter has just passed (R319). -/
def State.missPromises (s : State) : State :=
  s.engines.foldl (fun s e => e.2.queues.foldl (fun s q => q.2.cmds.foldl (fun s c => s.missPromise e.1 q.1 c) s) s) s

/-- PROMISE_MISSED (R37, R319): the counter has passed the promise of the uncompleted command in focus. -/
def execPromiseMissed (s : State) : Host.Outcome State Fault Refusal :=
  .next ((s.cmd? s.foc.unit s.foc.sub s.foc.arg).elim s (s.missPromise s.foc.unit s.foc.sub))

/-- Some commands end with nothing raised: their writes in flight perform, and no other piece of them is made (R259, R372). -/
def State.cancelCopies (s : State) (which : Cmd → Bool) : State :=
  let gone (e q n : Nat) : Bool := (s.cmd? e q n).any fun c => c.done.isNone && which c
  let mine (a : Access) : Bool := match a.who with
    | .copy e q n => gone e q n
    | _ => false
  let s' := s.accs.foldl (fun s a => if mine a && !a.done && a.kind == .store then s.perform a else s) s
  { s' with
    accs := s'.accs.filter fun a => !mine a,
    engines := s'.engines.map fun (e : Nat × Engine) => (e.1, { e.2 with queues := e.2.queues.map fun (q : Nat × CQueue) =>
      (q.1, { q.2 with cmds := q.2.cmds.filter fun c => !(c.done.isNone && which c) }) }) }

/-- The category of a copy engine in this cycle (R323). A command that it holds and that waits for others counts as a wait for memory.
DESIGN CHOICE (log 141), unsafe. -/
def State.engineCat (s : State) (b : Nat) : Nat :=
  let mine (w : Who) : Bool := match w with
    | .copy e _ _ => e == b
    | _ => false
  if (s.engine b).moveAt = s.now + 1 then 0
  else if s.walks.any fun w => w.who.any mine then 1
  else if s.accs.any fun a => mine a.who && a.kind != .store then 2
  else if s.accs.any fun a => mine a.who then 3
  else if (s.engine b).busyQueues = 0 then 4 else 2

/-! ### QFENCE (R392) -/

/-- The commands of core `r` in a copy queue that have not completed. -/
def State.copyPending (s : State) (e q r : Nat) : List (Nat × Nat × Nat) :=
  ((s.cqueue e q).cmds.filter fun c => decide (c.core = r) && c.done.isNone).map fun c => (0, q, c.seq)

/-- The commands of core `r` on a local engine that have not completed, by identifier: a stream of a generator, the
memory-mode runs and the SCCINs of the scan engine, the configuration commands of the region. -/
def State.localPending (s : State) (r i : Nat) : List Nat :=
  if i < 4 then (((s.gen r i).stream.filter fun x => !x.ended).map fun x => [x.id]).getD []
  else if i = 4 then (s.scan r).runs.map ScanRun.id ++ (s.scan r).inq.filterMap fun i => match i with
    | .carry id _ _ _ => some id
    | _ => none
  else (s.jobs.filter fun j => decide (j.core = some r)).map Job.id

/-- Whether any of some local-engine commands is still at work (R392). -/
def State.joinActive (s : State) (r : Nat) (ids : List Nat) : Bool :=
  ids.any fun i => (List.range 6).any fun k => (s.localPending r k).contains i

/-- QFENCE (R392). -/
def execQfence (ga : BitVec 5) (s : State) : Host.Outcome State Fault Refusal :=
  .next (s.memWord [ga] [] fun r =>
    let v := s.reg r ga
    let kind := bits v.toNat 60 4
    let mask := bits v.toNat 0 16
    let e := r / 4
    if kind > 1 ∨ bits v.toNat 16 44 ≠ 0 ∨ (kind = 1 ∧ mask ≥ 64) then .trap s 6 (ptrSub v 17)
    else if kind = 0 ∧ (bitList 16 mask).any (fun q => !s.queueGranted r q) then .trap s 6 (ptrSub v 17)
    else if mask = 0 then .retire s 1
    else if kind = 0 then
      let j := (bitList 16 mask).flatMap fun q => s.copyPending e q r
      .retire ((bitList 16 mask).foldl (fun s q =>
        s.modCQueue e q fun k => { k with join := s.copyJoined e k.join ++ j }) s) 1
    else
      let j := (bitList 6 mask).flatMap (s.localPending r)
      let add (l : List Nat) : List Nat := l.filter (fun i => s.joinActive r [i]) ++ j
      .retire ((bitList 6 mask).foldl (fun s i =>
        if i < 4 then s.modGen r i fun g => { g with queue := add g.queue }
        else if i = 4 then s.modScan r fun g => { g with join := add g.join }
        else { s with cfgJoin := mapMod [] s.cfgJoin (s.leadOf r) add }) s) 1)

end Sys2Proof.Machine
end

