-- ==== Sys2Proof/Machine/Fabric.lean ====
section
/-!
DEFINITION. Faults of a region's fabric: how one is raised, which of several is kept, and what a void waits for (R393,
R399, R400).
-/

namespace Sys2Proof.Machine

/-- The units of a tile in the order of R400; memory tiles, whose windows and queues it does not place, come last. -/
inductive FabUnit where
  | cell (k : Nat)
  | ux (k : Nat)
  | mx
  | scan
  | gen (g : Nat)
  | mtile (q : Nat)
  deriving DecidableEq, Repr

/-- The place of a unit in the order of R400. DEDUCED (log 62), unsafe. -/
def FabUnit.order : FabUnit → Nat
  | .cell k => k
  | .ux k => 16 + k
  | .mx => 18
  | .scan => 19
  | .gen g => 20 + g
  | .mtile q => 24 + q

/-- Every tile of a region freezes, or thaws (R208). -/
def State.setFrozen (s : State) (ranks : List Nat) (b : Bool) : State :=
  ranks.foldl (fun s r => s.modFab r fun f => { f with frozen := b }) s

/-- A fault raised by a unit of the fabric of tile `r` (R399, R400): the region freezes and the void begins. Of the
faults of one cycle the first in the order of R400 is kept; every other one until the rerun is discarded and counted. A
fault on a tile of no running region reaches that tile's core as an event. DEDUCED (log 122), safe. -/
def State.fabricFault (s : State) (r : Nat) (u : FabUnit) (cause : Nat) (val : DWord) : State :=
  match s.regionOf r with
  | none => s.raise r 3 cause val
  | some g =>
    let key := r * 32 + u.order
    let new : Voiding :=
      { at_ := s.now, key := key, cause := cause, tval := val, readyAt := 0, told := false, watchdog := false, lvl := none }
    match g.voiding with
    | none => (s.modRegion g.lead fun g => { g with voiding := some new, frozen := true, fz := true }).setFrozen g.ranks true
    | some v =>
      let s := s.modRegion g.lead fun g => { g with flost := satAdd 255 g.flost 1 }
      if v.at_ = s.now ∧ key < v.key ∧ !v.watchdog ∧ v.readyAt = 0 then
        s.modRegion g.lead fun g => { g with voiding := some new }
      else s

/-- tval of a cell's fault (R99, R158, R231): the subcode, the cell, the rank and the actor. -/
def cellVal (rank cell actor sub : Nat) : Nat := actor * 2 ^ 17 + rank * 2 ^ 8 + cell * 2 ^ 4 + sub

end Sys2Proof.Machine
end

