-- ==== Sys2Proof/Machine/Flags.lean ====
section
/-!
DEFINITION. Arithmetic conditions and policies: the record of rt.acond, the policy in force, the conversion control, and
what a policy does to a result (R49, R53 to R55, R120, R143).
-/

namespace Sys2Proof.Machine

/-- The conditions as bits of rt.acond: IV, DZ, OV, FM from bit 0 (R143). -/
def Conds.toBits (c : Conds) : Nat := b2n c.iv + 2 * b2n c.dz + 4 * b2n c.ov + 8 * b2n c.fm

/-- The three policies of R54; a code of 3 is rejected at CLOAD. -/
inductive Policy where
  | propagate | saturate | trap
  deriving DecidableEq, Repr

/-- The policy of a code. -/
def policyOfCode (c : Nat) : Policy := if c = 1 then .saturate else if c = 2 then .trap else .propagate

/-- The policy in force for a firing: the alternate one where the actor has a side port and its selection is 1 (R55). -/
def Actor.policy (a : Actor) (alt : Bool) : Policy := policyOfCode (if a.sp && alt then a.apol else a.ppol)

/-- The pair of a conversion control in force: its rounding mode and whether it saturates. `alt` says whether the side
port selects the alternate pair; under the saturate policy every conversion saturates (R49, R54, R55, R230). -/
def convPair (ctl : Nat) (alt : Bool) (p : Policy) : RoundMode × Bool :=
  let useAlt := ctl.testBit 8 && alt
  let mode := if useAlt then bits ctl 5 3 else bits ctl 1 3
  let rule := if useAlt then ctl.testBit 4 else ctl.testBit 0
  ((modeOfCode mode).getD .nearestEven, rule || p == .saturate)

/-- A floating-point result under a policy: saturate replaces an infinity by ±MAX (R54), whichever word gave it.
DEDUCED (log 147), unsafe. -/
def Policy.fix (p : Policy) (f : ElemFormat) (x : Nat) : Nat :=
  match p with
  | .saturate => satInf f x
  | _ => x

/-- A cell's record of the conditions of actor `a` with more of them set (R143). -/
def Cell.record (c : Cell) (a : Nat) (k : Nat) : Cell :=
  if k = 0 then c else { c with cond := mapMod 0 c.cond a fun x => x ||| k }

end Sys2Proof.Machine
end

