-- ==== Sys2Proof/Machine/Cells.lean ====
section
/-!
DEFINITION. Cells: channel entries and ports, the firing rule, the frame that an operation word runs in, the end of a
firing, its faults, and barriers (R86 to R102).
-/

namespace Sys2Proof.Machine

/-! ### Items and buffers (R91, R94, R169) -/

/-- Whether a position holds an item in the sense of R91: a data item or an end marker. -/
def Item.counts : Item → Bool
  | .data _ _ => true
  | .marker _ => true
  | _ => false
/-- Whether a data item of a port of fused size `n` has all its tokens; every other kind is whole. -/
def Item.whole (n : Nat) : Item → Bool
  | .data l _ => decide (n ≤ l.length)
  | _ => true
/-- The tag of an item: 0 for data, else the marker's level (R90). -/
def Item.tag : Item → Nat
  | .marker l => l
  | _ => 0
/-- The tokens of an item; a marker's bits are zero. -/
def Item.toks : Item → List Nat
  | .data l _ => l
  | _ => []

/-- The head of a buffer once it counts, and the rest; a data item of several tokens gives one token at a time. -/
def popTok (now : Nat) : List Held → Option (Item × List Held)
  | [] => none
  | h :: rest =>
    if h.ready > now then none
    else match h.item with
      | .data (t :: u :: ts) f => some (.data [t] f, ⟨.data (u :: ts) f, h.ready⟩ :: rest)
      | i => some (i, rest)
/-- The head of a buffer once it counts. -/
def peekHead (now : Nat) (l : List Held) : Option Item := (popTok now l).map Prod.fst

/-- The last element of a list and what stands before it. -/
def unsnoc {α : Type} : List α → Option (List α × α)
  | [] => none
  | [x] => some ([], x)
  | x :: y :: l => (unsnoc (y :: l)).map fun p => (x :: p.1, p.2)

/-- An item arrives at a port of fused size `n`: single tokens join into groups, and a marker completes a group with
zero tokens (R91). -/
def pushItem (n ready : Nat) (l : List Held) (i : Item) : List Held :=
  match i, unsnoc l with
  | .data ts f, some (pre, ⟨.data us g, _⟩) =>
    if us.length < n then pre ++ [⟨.data (us ++ ts) g, ready⟩] else l ++ [⟨.data ts f, ready⟩]
  | .marker k, some (pre, ⟨.data us g, _⟩) =>
    if us.length < n then pre ++ [⟨.data (us ++ List.replicate (n - us.length) 0) g, ready⟩, ⟨.marker k, ready⟩]
    else l ++ [⟨.marker k, ready⟩]
  | i, _ => l ++ [⟨i, ready⟩]

/-- Whether a port of fused size `n` and a depth has room for one more token or other item. -/
def portRoom (n depth : Nat) (l : List Held) (i : Item) : Bool :=
  match i, unsnoc l with
  | .data _ _, some (_, ⟨.data us _, _⟩) => decide (us.length < n ∨ l.length < depth)
  | _, _ => decide (l.length < depth)

/-- The barriers that some barriers stand for together. -/
def joinSrc (l : List (List (Nat × Nat × Nat))) : List (Nat × Nat × Nat) :=
  l.flatten.foldl (fun acc x => if acc.contains x then acc else acc ++ [x]) []

/-! ### Channel entries (R200) and ports -/

/-- Depth in items. -/
def entDepth (e : Nat) : Nat := bits e 0 4 + 1
/-- Priority. -/
def entPrio (e : Nat) : Nat := bits e 4 3
/-- Direction of a token port: output. -/
def entOut (e : Nat) : Bool := e.testBit 7
/-- Format code of an output port. -/
def entFmt (e : Nat) : Nat := bits e 8 4
/-- Peer cell. -/
def entCell (e : Nat) : Nat := bits e 16 4
/-- Peer channel. -/
def entChan (e : Nat) : Nat := bits e 20 3
/-- Whether the port is wired through the crossbar. -/
def entWired (e : Nat) : Bool := e.testBit 23
/-- Declared rate. -/
def entRate (e : Nat) : Nat := bits e 24 5
/-- The actor that declares the rate. -/
def entActor (e : Nat) : Nat := bits e 29 2

/-- The channel entry of a port. -/
def Cell.entry (c : Cell) (p : Nat) : Nat := mapGet 0 c.chans p
/-- The items of a port. -/
def Cell.port (c : Cell) (p : Nat) : List Held := mapGet [] c.fifo p
/-- The cell with the items of a port replaced. -/
def Cell.setPort (c : Cell) (p : Nat) (l : List Held) : Cell := { c with fifo := mapPut [] c.fifo p l }
/-- The depth of a port: that of its entry for data, 16 for tokens (R86, R88). -/
def Cell.depth (c : Cell) (p : Nat) : Nat := if p < 16 then entDepth (c.entry p) else 16
/-- The tokens of a data item of a port: one for each member on a data port, one on a token port (R91). -/
def Cell.group (c : Cell) (p : Nat) : Nat := if p < 16 then c.size else 1
/-- The items at the head of a port that count toward the firing rule: whole ones that have arrived, ahead of the first
barrier, wavefront marker or splice record (R94, R102). In the cycle in which the cell passes barriers, none stood ahead of
them on a data input. -/
def Cell.avail (c : Cell) (now p : Nat) : Nat :=
  if p < 8 ∧ now < c.passAt then 0
  else ((c.port p).takeWhile fun h => decide (h.ready ≤ now) && h.item.counts && h.item.whole (c.group p)).length
/-- The free slots of a port that count: those freed in this cycle do not yet (R94). -/
def Cell.free (c : Cell) (now p : Nat) : Nat :=
  let f := mapGet (0, 0) c.freed p
  c.depth p - (c.port p).length - (if f.1 = now then f.2 else 0)
/-- Slots of a port are freed in this cycle. -/
def Cell.freeSlots (c : Cell) (now p n : Nat) : Cell :=
  let f := mapGet (0, 0) c.freed p
  { c with freed := mapSet c.freed p (now, (if f.1 = now then f.2 else 0) + n) }

/-- Whether a port is an input: i0 to i7, or a token port set so. -/
def Cell.isInput (c : Cell) (p : Nat) : Bool := decide (p < 8) || (decide (16 ≤ p) && !entOut (c.entry p))
/-- The ports on which an actor declares a rate. -/
def Actor.ports (a : Actor) : List Nat := (a.rates.filter fun e => decide (e.2 > 0)).map Prod.fst
/-- The rate an actor declares on a port. -/
def Actor.rate (a : Actor) (p : Nat) : Nat := mapGet 0 a.rates p
/-- The ports that any actor of a cell uses with a declared rate. -/
def Cell.used (c : Cell) : List Nat := (List.range 20).filter fun p => c.actors.any fun a => decide (a.rate p > 0)

/-- Whether an actor has its inputs (R94). -/
def Cell.hasInputs (c : Cell) (now : Nat) (a : Actor) : Bool :=
  a.ports.all fun p => !c.isInput p || decide (a.rate p ≤ c.avail now p)
/-- Whether an actor has its output slots (R94). -/
def Cell.hasRoom (c : Cell) (now : Nat) (a : Actor) : Bool :=
  a.ports.all fun p => c.isInput p || decide (a.rate p ≤ c.free now p)
/-- Whether an actor is ready (R94). -/
def Cell.ready (c : Cell) (now : Nat) (a : Actor) : Bool := c.hasInputs now a && c.hasRoom now a
/-- An actor's key, counted from 1: 0 for an actor with no declared input (R95). -/
def Cell.key (c : Cell) (a : Actor) : Nat :=
  (a.ports.filter c.isInput).foldl (fun m p => Nat.max m (entPrio (c.entry p) + 1)) 0
/-- The number of the actor that R95 selects among those that `ok` admits: of those ready the highest key, ties by the lowest
number. -/
def Cell.selectFrom (c : Cell) (now : Nat) (ok : Actor → Bool) : Option Nat :=
  ((List.range c.actors.length).foldl (fun (best : Option (Nat × Nat)) i =>
    match c.actors[i]? with
    | none => best
    | some a =>
      if !(ok a && c.ready now a) then best
      else match best with
        | some (_, k) => if c.key a > k then some (i, c.key a) else best
        | none => some (i, c.key a)) none).map Prod.fst
/-- The number of the actor that R95 selects. -/
def Cell.select (c : Cell) (now : Nat) : Option Nat := c.selectFrom now fun _ => true

/-! ### The side port (R55) -/

/-- Whether a code word is a conversion with SP = 1 in its control. -/
def wordHasSide (w : Word) : Bool :=
  let op := bits w.toNat 26 6
  (op == 0x19 || op == 0x1A || op == 0x1D) && w.toNat.testBit 8
/-- Whether t3 is the cell's side port: SP is 1 in an actor's record or in a conversion control of its code (R55). -/
def Cell.sidePort (c : Cell) : Bool :=
  c.actors.any fun a => a.sp || (List.range a.len).any fun i => wordHasSide (mapGet 0 c.store (a.base + i))
/-- The side-port selection in force in a cycle. -/
def Cell.selection (c : Cell) (now : Nat) : Bool := if c.altAt ≤ now then c.altNext else c.alt
/-- A side-port token of value `b` arrives: it governs the firings that begin, with their first word, in a later cycle (R55,
R95). -/
def Cell.sideToken (c : Cell) (now : Nat) (b : Bool) : Cell :=
  { c with
    alt := c.selection now, altNext := b, altAt := now + 1,
    firing := c.firing.map fun f => if now < f.first then { f with alt := b } else f }

/-! ### Faults (R99, R158) -/

/-- A firing's fault: the firing stops at the word, and the fault is the fabric's (R99, R399). `low` holds the subcode and
what the cause adds above the fields of R99. DEDUCED (log 73), unsafe. -/
def State.cellFault (s : State) (r k actor cause sub addr : Nat) : State :=
  (s.modCell r k fun c => { c with firing := c.firing.map fun f => { f with dead := true } }).fabricFault r (.cell k) cause
    (BitVec.ofNat 64 (addr * 2 ^ 32 + cellVal r k actor sub))

/-! ### The frame of an operation word -/

/-- What an operation word runs on: its tile, its cell, the cell and its fused size, its actor and the firing. -/
structure OpCtx where
  r : Nat
  k : Nat
  c : Cell
  a : Actor
  f : Firing

/-- The fused size. -/
def OpCtx.size (x : OpCtx) : Nat := x.c.size
/-- The number of lanes (R118). -/
def OpCtx.lanes (x : OpCtx) : Nat := 8 * x.c.size
/-- A register of the firing. -/
def OpCtx.reg (x : OpCtx) (v : BitVec 5) : Lanes := x.f.reg x.lanes v.toNat
/-- Lane 0 of a register, of the lowest member (R89). -/
def OpCtx.lane0 (x : OpCtx) (v : BitVec 5) : Nat := (lane (x.reg v) 0).toNat
/-- Whether a predicate selects a lane. -/
def OpCtx.selects (x : OpCtx) (pm : BitVec 4) (i : Nat) : Bool := x.f.selects x.lanes pm.toNat i
/-- The arithmetic policy in force. -/
def OpCtx.policy (x : OpCtx) : Policy := x.a.policy x.f.alt

/-- How an operation word ends. -/
inductive OpEnd where
  /-- it issues over `cycles`, and the next word follows after the loop check -/
  | next (s : State) (f : Firing) (cycles : Nat)
  /-- it issues, and the word at `pc` follows; no loop check is made -/
  | jump (s : State) (f : Firing) (pc : Nat)
  /-- it stalls, counting in a category of R103 -/
  | stall (s : State) (f : Firing) (cat : Nat)
  /-- it faults: a cause, a subcode and the address that R158 adds -/
  | fault (s : State) (cause sub addr : Nat)
  /-- the firing ends (R97) -/
  | finish (s : State) (f : Firing)

/-- The end-of-body check of a firing's loop levels `n` − 1 down to 0 after the word at `pc` (R29, R115): the firing and
where a loop goes round again. -/
def Firing.loopCheck (f : Firing) (pc : Nat) : Nat → Firing × Option Nat
  | 0 => (f, none)
  | n + 1 =>
    let (start, stop, count) := mapGet (0, 0, 0) f.loops n
    if count > 0 ∧ stop = pc then
      if count > 1 then ({ f with loops := mapSet f.loops n (start, stop, count - 1) }, some start)
      else ({ f with loops := mapSet f.loops n (start, stop, 0) } : Firing).loopCheck pc n
    else f.loopCheck pc n

/-- The end of a firing (R97): the declared items leave every input, unused slots are released, and v24 to v31 go back to
the actor's bank. -/
def Cell.endFiring (c : Cell) (now : Nat) (a : Actor) (f : Firing) : Cell :=
  let c := a.ports.foldl (fun c p =>
    let rate := a.rate p
    if c.isInput p then (c.setPort p ((c.port p).drop rate)).freeSlots now p rate
    else
      let sent := mapGet 0 f.sent p
      { c.freeSlots now p (rate - sent) with
        fired := if a.repl > 0 then mapMod [] c.fired p fun l => l ++ [sent] else c.fired }) c
  { c with firing := none,
           banks := mapSet c.banks f.actor (f.regs.filter fun e => decide (24 ≤ e.1)),
           acct := c.acct.enter 0 now }

/-- The state after an operation word of firing `f` of cell `k` of tile `r` ends. -/
def State.opEnd (s0 : State) (r k : Nat) (a : Actor) (f0 : Firing) : OpEnd → State
  | .next s f n =>
    let (f, go) := f.loopCheck f0.pc 2
    (s.modCell r k fun c => { c with
      firing := some { f with pc := go.getD (f0.pc + 1), nextAt := s0.now + n, waiting := false },
      acct := c.acct.enter 0 s0.now }).touch r
  | .jump s f pc =>
    (s.modCell r k fun c => { c with
      firing := some { f with pc := pc, nextAt := s0.now + 1, waiting := false },
      acct := c.acct.enter 0 s0.now }).touch r
  | .stall s f cat =>
    (s.modCell r k fun c => { c with
      firing := some { f with nextAt := s0.now + 1, waiting := true }, acct := c.acct.enter cat s0.now }).touch r
  | .fault s cause sub addr => s.cellFault r k f0.actor cause sub addr
  | .finish s f => (s.modCell r k fun c => c.endFiring s0.now a f).touch r

/-- Runs an operation word of the firing of the cell in focus. A firing of 4096 cycles overruns (R99), and one whose MACC
has trapped stops at the first word of the seventh cycle after it (R227). -/
def State.opWord (s : State) (body : OpCtx → OpEnd) : State :=
  let r := s.foc.unit
  let k := s.foc.sub
  let c := s.cell r k
  match c.firing with
  | none => s
  | some f =>
    match c.actors[f.actor]? with
    | none => s
    | some a =>
      if f.dead then s
      else if f.first + 4096 ≤ s.now then s.cellFault r k f.actor 11 0 0
      else if f.macTrap.any fun t => decide (t ≤ s.now) then s.cellFault r k f.actor 10 0 0
      else s.opEnd r k a f (body ⟨r, k, c, a, f⟩)

/-- The conditions that a word raises go to the cell's record, where a SYSR sees them from the next cycle (R143). -/
def OpCtx.record (x : OpCtx) (s : State) (c : Conds) : State :=
  if c.toBits = 0 then s else s.defer (.cond x.r x.k x.f.actor c.toBits)

/-! ### The firing rule (R94 to R96) -/

/-- The activation under way that a node of tile `r` has still to follow: its wavefront has been sent, and the node has
not switched (R204, R205). -/
def State.waveOf (s : State) (r node : Nat) : Option Job :=
  s.jobs.find? fun j => (match j.kind with
    | .next _ => true
    | _ => false) && j.tiles.contains r && decide (mapGet 0 (s.fab r).nodes node ≠ j.id + 1)

/-- The items of a port behind the marker, where nothing stands ahead of it but items that a firing could not use. -/
def behindWave (now id : Nat) (l : List Held) : Option (List Held) :=
  match l.dropWhile fun h => h.item.counts with
  | ⟨.wave j, t⟩ :: rest => if j = id ∧ t ≤ now then some rest else none
  | _ => none

/-- Whether the marker of an activation has reached a cell by every input that it uses. One whose actors declare no input has
it from the start (R204, R205). -/
def Cell.atWave (c : Cell) (now id : Nat) : Bool :=
  (c.used.filter c.isInput).all fun p => (behindWave now id (c.port p)).isSome

/-- Whether an actor of a cell may still fire for the image in force: once the marker has reached the cell, one that declares
no input does not, as its next firing belongs to the new image (R204). DEDUCED (log 91), safe. -/
def Cell.oldImage (c : Cell) (now : Nat) (job : Option Job) (a : Actor) : Bool :=
  !(job.any fun j => c.atWave now j.id) || a.ports.any c.isInput

/-- Whether a cell that has switched still waits for the memory tiles of its tile, whose preloads precede every firing of the
new image (R205). -/
def State.preloading (s : State) (r k : Nat) : Bool :=
  (s.waveOf r k).isNone && ((s.waveOf r 19).isSome || (s.waveOf r 20).isSome)

/-- FIRING_START (R94 to R96, R101): the free sequencer of the cell in focus selects an actor, whose first word issues in
the next cycle. -/
def execFiringStart (s : State) : Host.Outcome State Fault Refusal :=
  let r := s.foc.unit
  let k := s.foc.sub
  let c := s.cell r k
  .next (
    if c.firing.isSome ∨ c.frozen ∨ (s.fab r).frozen ∨ s.now < c.readyAt ∨ s.preloading r k then s
    else match c.selectFrom s.now (c.oldImage s.now (s.waveOf r k)) with
      | none => s
      | some i =>
        match c.actors[i]? with
        | none => s
        | some a =>
          let f : Firing :=
            { actor := i, pc := a.base, nextAt := s.now + 1, first := s.now + 1, regs := mapGet [] c.banks i, masks := [],
              loops := [], taken := [], sent := [], lastTag := [], alt := c.selection (s.now + 1), waiting := false, maccs := [],
              macTrap := none, dead := false }
          (s.modCell r k fun c => { c with firing := some f }).touch r)

/-- FIRING_OVERRUN (R99): the firing of the cell in focus has run for 4096 cycles without FEND. -/
def execFiringOverrun (s : State) : Host.Outcome State Fault Refusal :=
  let r := s.foc.unit
  let k := s.foc.sub
  .next (match (s.cell r k).firing with
    | some f => if !f.dead ∧ f.first + 4096 ≤ s.now then s.cellFault r k f.actor 11 0 0 else s
    | none => s)

/-! ### Reserved items and slots (R97, R99) -/

/-- The reserved items of a port that the firing has not yet taken. -/
def OpCtx.remaining (x : OpCtx) (f : Firing) (p : Nat) : Nat := x.a.rate p - mapGet 0 f.taken p
/-- The reserved item at position `i` among those not yet taken. -/
def OpCtx.itemAt (x : OpCtx) (f : Firing) (p i : Nat) : Option Item :=
  if i < x.remaining f p then ((x.c.port p)[mapGet 0 f.taken p + i]?).map Held.item else none
/-- The firing after one more item of a port has been taken. -/
def Firing.take (f : Firing) (p tag : Nat) : Firing :=
  { f with taken := mapMod 0 f.taken p (· + 1), lastTag := mapSet f.lastTag p tag }
/-- The reserved slots of a port that the firing has not yet used. -/
def OpCtx.slotsLeft (x : OpCtx) (f : Firing) (p : Nat) : Nat := x.a.rate p - mapGet 0 f.sent p
/-- An item is sent into a reserved slot of a port (R97): it arrives in the next cycle. -/
def OpCtx.put (x : OpCtx) (s : State) (f : Firing) (p : Nat) (i : Item) : State × Firing :=
  (s.modCell x.r x.k fun c => c.setPort p (c.port p ++ [⟨i, s.now + 1⟩]), { f with sent := mapMod 0 f.sent p (· + 1) })

/-- The lanes that an item gives a register (R108): a marker gives zero. -/
def itemLane (i : Item) (L : Nat) : Word :=
  BitVec.ofNat 32 (bits ((i.toks).getD (L / 8) 0) (32 * (L % 8)) 32)
/-- A register after an item has been copied into its selected lanes. -/
def OpCtx.fill (x : OpCtx) (f : Firing) (pm : BitVec 4) (v : Nat) (i : Item) : Firing :=
  f.setReg v ((List.range x.lanes).map fun L =>
    if f.selects x.lanes pm.toNat L then itemLane i L else lane (f.reg x.lanes v) L)
/-- The tokens that a register gives an item (R110): an unselected lane gives zero. -/
def OpCtx.tokens (x : OpCtx) (f : Firing) (pm : BitVec 4) (v : Nat) : List Nat :=
  (List.range x.size).map fun j =>
    packElems 32 ((List.range 8).map fun i =>
      if f.selects x.lanes pm.toNat (8 * j + i) then (lane (f.reg x.lanes v) (8 * j + i)).toNat else 0)
/-- The marker test of RECV and PEEK (R108): mask flg[1:0] of every lane. -/
def OpCtx.markTest (x : OpCtx) (f : Firing) (lvl : BitVec 3) (flg : BitVec 4) (tag : Nat) : Firing :=
  let g := flg.toNat
  if g.testBit 3 then
    let hit := decide (tag > 0) && (if g.testBit 2 then tag == lvl.toNat else decide (lvl.toNat ≤ tag))
    f.setMask (g % 4) (List.replicate x.lanes hit)
  else f

/-- Takes `n` items of a port one after another into v, v + 1, … (R108); nothing where the reservation ends first. -/
def OpCtx.recvFrom (x : OpCtx) (p : Nat) (pm : BitVec 4) : Nat → Nat → Firing → Option (Firing × Nat)
  | 0, _, f => some (f, mapGet 0 f.lastTag p)
  | n + 1, v, f =>
    match x.itemAt f p 0 with
    | none => none
    | some i => x.recvFrom p pm n (v + 1) ((x.fill f pm v i).take p i.tag)

/-- Sends `n` items of v, v + 1, … on an output (R110): whether a slot was lacking, and what has been sent by then.
DEDUCED (log 52), unsafe. -/
def OpCtx.sendTo (x : OpCtx) (p : Nat) (pm : BitVec 4) : Nat → Nat → State → Firing → Bool × State × Firing
  | 0, _, s, f => (false, s, f)
  | n + 1, v, s, f =>
    if x.slotsLeft f p = 0 then (true, s, f)
    else
      let (s, f) := x.put s f p (.data (x.tokens f pm v) (entFmt (x.c.entry p)))
      x.sendTo p pm n (v + 1) s f

/-! ### Control flow inside a firing -/

/-- The token that BR takes from a token port. -/
def tokenBit (i : Item) : Bool := decide ((i.toks).getD 0 0 % 2 = 1)

/-- A taken branch out of a loop body ends that loop and those nested in it (R114). -/
def Firing.leaveLoops (f : Firing) (pc target : Nat) : Firing :=
  { f with loops := f.loops.map fun e =>
      let (start, stop, count) := e.2
      if start ≤ pc ∧ pc ≤ stop ∧ ¬ (start ≤ target ∧ target ≤ stop) then (e.1, start, stop, 0) else (e.1, start, stop, count) }

/-- BR (R80, R114). -/
def execBr (cc : BitVec 4) (src : BitVec 6) (disp : BitVec 10) (s : State) : Host.Outcome State Fault Refusal :=
  .next (s.opWord fun x =>
    let target := (x.f.pc + wrapNat 32 disp.toInt) % 2 ^ 32
    let go (f : Firing) (taken : Bool) : OpEnd :=
      if taken then .jump s (f.leaveLoops f.pc target) target else .next s f 1
    let c := cc.toNat
    if c = 0 then go x.f true
    else if src.toNat < 4 then
      let p := 16 + src.toNat
      match x.itemAt x.f p 0 with
      | none => .fault s 11 1 0
      | some i => go (x.f.take p i.tag) (if c = 1 then tokenBit i else !tokenBit i)
    else
      let m := x.f.mask x.lanes (src.toNat - 4)
      go x.f (if c = 1 then m.any id else if c = 2 then !m.any id else if c = 3 then m.all id else !m.all id))

/-- CLOOP (R115). -/
def execCloop (k : BitVec 1) (cnt : BitVec 9) (len : BitVec 10) (lvl : BitVec 2) (s : State) :
    Host.Outcome State Fault Refusal :=
  .next (s.opWord fun x =>
    let n := if k = 0 then cnt.toNat else x.lane0 (cnt.setWidth 5)
    let start := x.f.pc + 1
    let stop := x.f.pc + len.toNat
    let f := { x.f with loops := mapSet x.f.loops lvl.toNat (start, stop, n) }
    if n = 0 then .jump s f (stop + 1) else .next s f 1)

/-- FEND (R97, R116, R227): it waits for the firing's MACCs. -/
def execFend (s : State) : Host.Outcome State Fault Refusal :=
  .next (s.opWord fun x => if x.f.maccs.isEmpty then .finish s x.f else .stall s x.f 2)

/-- The operation NOP (R116). -/
def execNopOp (s : State) : Host.Outcome State Fault Refusal := .next (s.opWord fun x => .next s x.f 1)

/-- PEEK (R109): copies a reserved item and takes nothing. -/
def execPeek (v : BitVec 5) (port : BitVec 3) (n : BitVec 5) (lvl : BitVec 3) (flg pm : BitVec 4) (s : State) :
    Host.Outcome State Fault Refusal :=
  .next (s.opWord fun x =>
    match x.itemAt x.f port.toNat n.toNat with
    | none => .fault s 11 1 0
    | some i => .next s (x.markTest (x.fill x.f pm v.toNat i) lvl flg i.tag) 1)

/-- SENDM (R111): forwards the tag last taken from an input. -/
def execSendm (v port : BitVec 5) (inp lvl : BitVec 3) (pm : BitVec 4) (s : State) : Host.Outcome State Fault Refusal :=
  .next (s.opWord fun x =>
    let tag := mapGet 0 x.f.lastTag inp.toNat
    let p := port.toNat
    if tag = 0 then
      let (short, s', f) := x.sendTo p pm 1 v.toNat s x.f
      if short then .fault s 11 1 0 else .next s' f 1
    else if tag ≥ Nat.max lvl.toNat 1 then
      if x.slotsLeft x.f p = 0 then .fault s 11 1 0
      else
        let (s', f) := x.put s x.f p (.marker tag)
        .next s' f 1
    else .next s x.f 1)

/-- MKLV (R112). -/
def execMklv (port : BitVec 5) (lvl : BitVec 3) (s : State) : Host.Outcome State Fault Refusal :=
  .next (s.opWord fun x =>
    if x.slotsLeft x.f port.toNat = 0 then .fault s 11 1 0
    else
      let (s', f) := x.put s x.f port.toNat (.marker lvl.toNat)
      .next s' f 1)

/-! ### Barriers at a cell (R102) -/

/-- The barrier at the head of a port. -/
def Cell.barrierAt (c : Cell) (now p : Nat) : Option (List (Nat × Nat × Nat)) :=
  match c.port p with
  | ⟨.barrier src, t⟩ :: _ => if t ≤ now then some src else none
  | _ => none

/-- The slots of an output port that a firing which has still to begin has reserved. -/
def Cell.promised (c : Cell) (p : Nat) : Nat :=
  match c.firing with
  | none => 0
  | some f => (c.actors[f.actor]?).elim 0 fun a => a.rate p

/-- The cell after it has passed its barriers, and what they stand for together; nothing where it cannot pass them. -/
def Cell.passBarriers (c : Cell) (now : Nat) : Option (Cell × List (Nat × Nat × Nat)) :=
  let ins := c.used.filter fun p => decide (p < 8)
  let outs := c.used.filter fun p => decide (8 ≤ p ∧ p < 16)
  let srcs := ins.map (c.barrierAt now)
  if ins.isEmpty ∨ srcs.any Option.isNone ∨ outs.any (fun p => decide (c.free now p ≤ c.promised p)) then none
  else
    let src := joinSrc (srcs.map fun o => o.getD [])
    let c := ins.foldl (fun c p => (c.setPort p ((c.port p).drop 1)).freeSlots now p 1) { c with passAt := now + 1 }
    some (outs.foldl (fun c p => c.setPort p (c.port p ++ [⟨.barrier src, now + 1⟩])) c, src)

end Sys2Proof.Machine
end

