-- ==== Sys2Proof/Machine/Lanes.lean ====
section
/-!
DEFINITION. Lane arithmetic, conversions, special functions and lane movement (chapter "Lane arithmetic and lane
movement", R117 to R142).
-/

namespace Sys2Proof.Machine

/-! ### The frame of a lane operation (R117 to R120) -/

/-- Writes what `res` gives each lane that `sel` selects into register `vd`, over `cycles` cycles. The conditions of the
lanes taking part are recorded; under the trap policy IV, DZ or OV writes nothing and raises cause 10 (R120). -/
def OpCtx.lanesTo (x : OpCtx) (s : State) (vd : Nat) (sel : Nat → Bool) (res : Nat → Nat × Conds) (cycles : Nat) : OpEnd :=
  let rs := (List.range x.lanes).map fun L => if sel L then some (res L) else none
  let cond := rs.foldl (fun k r => r.elim k fun v => k.join v.2) noConds
  let s := x.record s cond
  if x.policy == .trap && cond.arith then .fault s 10 0 0
  else
    let old := x.f.reg x.lanes vd
    .next s (x.f.setReg vd ((List.range x.lanes).map fun L =>
      match rs[L]? with
      | some (some v) => BitVec.ofNat 32 v.1
      | _ => lane old L)) cycles

/-- The number of elements of width `b` in a lane. -/
def perLane (b : Nat) : Nat := 32 / b

/-- A lane computed element by element from its element numbers. -/
def mapElems (b : Nat) (f : Nat → Nat × Conds) : Nat × Conds :=
  let rs := (List.range (perLane b)).map f
  (packElems b (rs.map Prod.fst), rs.foldl (fun k r => k.join r.2) noConds)

/-- A floating-point word: each element of the result from the elements of va, vb and vc, with the policy's replacement of
every infinite result (R54, R120, R122 to R124). -/
def floatOp (s : State) (vd va vb vc : BitVec 5) (w : BitVec 2) (pm : BitVec 4)
    (f : ElemFormat → Nat → Nat → Nat → Nat × Conds) : State :=
  s.opWord fun x =>
    let fmt := floatOfW w.toNat
    let b := fmtBits fmt
    x.lanesTo s vd.toNat (x.selects pm) (fun L =>
      mapElems b fun e =>
        let (r, c) := f fmt (elemOf b e (lane (x.reg va) L)) (elemOf b e (lane (x.reg vb) L)) (elemOf b e (lane (x.reg vc) L))
        (x.policy.fix fmt r, c)) 1

/-- An integer word: each element of the result, of width `b`, from the elements of va, vb and vc (R127). -/
def intOp (s : State) (vd va vb vc : BitVec 5) (w : BitVec 2) (pm : BitVec 4) (f : Nat → Nat → Nat → Nat → Int) : State :=
  s.opWord fun x =>
    let b := intWidthOfW w.toNat
    x.lanesTo s vd.toNat (x.selects pm) (fun L =>
      mapElems b fun e =>
        (wrapNat b (f b (elemOf b e (lane (x.reg va) L)) (elemOf b e (lane (x.reg vb) L)) (elemOf b e (lane (x.reg vc) L))),
          noConds)) 1

/-- A word that writes whole lanes and raises no condition. -/
def moveOp (s : State) (vd : BitVec 5) (pm : BitVec 4) (f : OpCtx → Nat → Nat) : State :=
  s.opWord fun x => x.lanesTo s vd.toNat (x.selects pm) (fun L => (f x L, noConds)) 1

/-! ### Floating-point arithmetic -/

/-- An exact result of one operation rounded once to nearest-even (R122). -/
def roundOnce (f : ElemFormat) (r : FVal × Conds) : Nat × Conds :=
  let (v, c) := roundNE f r.1
  (v, c.join r.2)

/-- FADD (R122). -/
def execFadd (vd va vb : BitVec 5) (w : BitVec 2) (pm : BitVec 4) (s : State) : Host.Outcome State Fault Refusal :=
  .next (floatOp s vd va vb 0 w pm fun f a b _ => roundOnce f (faddExact (decodeFloat f a) (decodeFloat f b)))
/-- FSUB (R122). -/
def execFsub (vd va vb : BitVec 5) (w : BitVec 2) (pm : BitVec 4) (s : State) : Host.Outcome State Fault Refusal :=
  .next (floatOp s vd va vb 0 w pm fun f a b _ => roundOnce f (faddExact (decodeFloat f a) (fneg (decodeFloat f b))))
/-- FMUL (R122). -/
def execFmul (vd va vb : BitVec 5) (w : BitVec 2) (pm : BitVec 4) (s : State) : Host.Outcome State Fault Refusal :=
  .next (floatOp s vd va vb 0 w pm fun f a b _ => roundOnce f (fmulExact (decodeFloat f a) (decodeFloat f b)))
/-- FMA (R122): one rounding. -/
def execFma (vd va vb vc : BitVec 5) (w : BitVec 2) (pm : BitVec 4) (s : State) : Host.Outcome State Fault Refusal :=
  .next (floatOp s vd va vb vc w pm fun f a b c =>
    roundOnce f (fmaExact (decodeFloat f a) (decodeFloat f b) (decodeFloat f c)))
/-- FMS (R122): one rounding. -/
def execFms (vd va vb vc : BitVec 5) (w : BitVec 2) (pm : BitVec 4) (s : State) : Host.Outcome State Fault Refusal :=
  .next (floatOp s vd va vb vc w pm fun f a b c =>
    roundOnce f (fmaExact (decodeFloat f a) (decodeFloat f b) (fneg (decodeFloat f c))))

/-- Whether a floating-point code has its sign bit set. -/
def signOf (f : ElemFormat) (x : Nat) : Bool := x.testBit (fmtBits f - 1)

/-- Whether `a` comes before `b` in the order of R123, where −0 is less than +0. -/
def floatBefore (f : ElemFormat) (a b : Nat) : Bool :=
  match fcompare (decodeFloat f a) (decodeFloat f b) with
  | some .lt => true
  | some .eq => signOf f a && !signOf f b
  | _ => false

/-- The smaller or the larger of two elements, by R123. -/
def floatPick (f : ElemFormat) (larger : Bool) (a b : Nat) : Nat :=
  match decodeFloat f a, decodeFloat f b with
  | .nan, .nan => canonNaN f
  | .nan, _ => b
  | _, .nan => a
  | _, _ => if larger then (if floatBefore f a b then b else a) else (if floatBefore f b a then b else a)

/-- FMIN (R123). -/
def execFmin (vd va vb : BitVec 5) (w : BitVec 2) (pm : BitVec 4) (s : State) : Host.Outcome State Fault Refusal :=
  .next (floatOp s vd va vb 0 w pm fun f a b _ => (floatPick f false a b, noConds))
/-- FMAX (R123). -/
def execFmax (vd va vb : BitVec 5) (w : BitVec 2) (pm : BitVec 4) (s : State) : Host.Outcome State Fault Refusal :=
  .next (floatOp s vd va vb 0 w pm fun f a b _ => (floatPick f true a b, noConds))

/-- An element with its sign bit set as given; a NaN gives the canonical NaN (R124). -/
def withSign (f : ElemFormat) (x : Nat) (sign : Bool) : Nat :=
  match decodeFloat f x with
  | .nan => canonNaN f
  | _ => x % 2 ^ (fmtBits f - 1) + b2n sign * 2 ^ (fmtBits f - 1)

/-- FSGN form 0, FABS (R124). -/
def execFabs (vd va : BitVec 5) (w : BitVec 2) (pm : BitVec 4) (s : State) : Host.Outcome State Fault Refusal :=
  .next (floatOp s vd va 0 0 w pm fun f a _ _ => (withSign f a false, noConds))
/-- FSGN form 1, FNEG (R124). -/
def execFneg (vd va : BitVec 5) (w : BitVec 2) (pm : BitVec 4) (s : State) : Host.Outcome State Fault Refusal :=
  .next (floatOp s vd va 0 0 w pm fun f a _ _ => (withSign f a (!signOf f a), noConds))
/-- FSGN form 2, FCPYS (R124). -/
def execFcpys (vd va vb : BitVec 5) (w : BitVec 2) (pm : BitVec 4) (s : State) : Host.Outcome State Fault Refusal :=
  .next (floatOp s vd va vb 0 w pm fun f a b _ => (withSign f a (signOf f b), noConds))
/-- FSGN form 3, FXSGN (R124). -/
def execFxsgn (vd va vb : BitVec 5) (w : BitVec 2) (pm : BitVec 4) (s : State) : Host.Outcome State Fault Refusal :=
  .next (floatOp s vd va vb 0 w pm fun f a b _ => (withSign f a (signOf f a != signOf f b), noConds))

/-- Whether a floating-point condition of FCMP holds (R125). -/
def floatCond (cond : Nat) (o : Option Ordering) : Bool :=
  match o with
  | none => cond == 1 || cond == 6
  | some o =>
    if cond = 0 then o == .eq else if cond = 1 then o != .eq else if cond = 2 then o == .lt
    else if cond = 3 then o != .gt else if cond = 4 then o == .gt else if cond = 5 then o != .lt else cond == 7

/-- A comparison word: in each selected lane the mask bit says whether the condition holds for every element (R125,
R128). -/
def compareOp (s : State) (m : BitVec 2) (va vb : BitVec 5) (pm : BitVec 4) (b : Nat) (f : Nat → Nat → Bool) : State :=
  s.opWord fun x =>
    let old := x.f.mask x.lanes m.toNat
    .next s (x.f.setMask m.toNat ((List.range x.lanes).map fun L =>
      if x.selects pm L then
        (List.range (perLane b)).all fun e => f (elemOf b e (lane (x.reg va) L)) (elemOf b e (lane (x.reg vb) L))
      else old.getD L false)) 1

/-- FCMP (R125). -/
def execFcmp (m : BitVec 2) (va vb : BitVec 5) (cond : BitVec 3) (w : BitVec 2) (pm : BitVec 4) (s : State) :
    Host.Outcome State Fault Refusal :=
  let f := floatOfW w.toNat
  .next (compareOp s m va vb pm (fmtBits f) fun a b => floatCond cond.toNat (fcompare (decodeFloat f a) (decodeFloat f b)))

/-- SEL (R126): whole lanes. -/
def execSel (vd va vb : BitVec 5) (mask : BitVec 2) (pm : BitVec 4) (s : State) : Host.Outcome State Fault Refusal :=
  .next (moveOp s vd pm fun x L =>
    (if (x.f.mask x.lanes mask.toNat).getD L false then lane (x.reg va) L else lane (x.reg vb) L).toNat)

/-! ### Integer arithmetic (R127 to R129) -/

/-- IADD (R127). -/
def execIadd (vd va vb : BitVec 5) (w : BitVec 2) (pm : BitVec 4) (s : State) : Host.Outcome State Fault Refusal :=
  .next (intOp s vd va vb 0 w pm fun _ a b _ => (a : Int) + b)
/-- ISUB (R127). -/
def execIsub (vd va vb : BitVec 5) (w : BitVec 2) (pm : BitVec 4) (s : State) : Host.Outcome State Fault Refusal :=
  .next (intOp s vd va vb 0 w pm fun _ a b _ => (a : Int) - b)
/-- IMUL (R127): the low half, or the high half of the signed or the unsigned product. -/
def execImul (vd va vb : BitVec 5) (half w : BitVec 2) (pm : BitVec 4) (s : State) : Host.Outcome State Fault Refusal :=
  .next (intOp s vd va vb 0 w pm fun n a b _ =>
    if half = 0 then (a : Int) * b
    else if half = 1 then (signed n a * signed n b) / (2 ^ n : Nat)
    else ((a * b / 2 ^ n : Nat) : Int))
/-- IMAD (R127). -/
def execImad (vd va vb vc : BitVec 5) (w : BitVec 2) (pm : BitVec 4) (s : State) : Host.Outcome State Fault Refusal :=
  .next (intOp s vd va vb vc w pm fun _ a b c => (a : Int) * b + c)
/-- IMIN (R127). -/
def execImin (vd va vb : BitVec 5) (uns : BitVec 1) (w : BitVec 2) (pm : BitVec 4) (s : State) :
    Host.Outcome State Fault Refusal :=
  .next (intOp s vd va vb 0 w pm fun n a b _ =>
    if uns = 1 then ((Nat.min a b : Nat) : Int) else min (signed n a) (signed n b))
/-- IMAX (R127). -/
def execImax (vd va vb : BitVec 5) (uns : BitVec 1) (w : BitVec 2) (pm : BitVec 4) (s : State) :
    Host.Outcome State Fault Refusal :=
  .next (intOp s vd va vb 0 w pm fun n a b _ =>
    if uns = 1 then ((Nat.max a b : Nat) : Int) else max (signed n a) (signed n b))
/-- IAND (R127). -/
def execIand (vd va vb : BitVec 5) (w : BitVec 2) (pm : BitVec 4) (s : State) : Host.Outcome State Fault Refusal :=
  .next (intOp s vd va vb 0 w pm fun _ a b _ => ((a &&& b : Nat) : Int))
/-- IOR (R127). -/
def execIor (vd va vb : BitVec 5) (w : BitVec 2) (pm : BitVec 4) (s : State) : Host.Outcome State Fault Refusal :=
  .next (intOp s vd va vb 0 w pm fun _ a b _ => ((a ||| b : Nat) : Int))
/-- IXOR (R127). -/
def execIxor (vd va vb : BitVec 5) (w : BitVec 2) (pm : BitVec 4) (s : State) : Host.Outcome State Fault Refusal :=
  .next (intOp s vd va vb 0 w pm fun _ a b _ => ((a ^^^ b : Nat) : Int))
/-- ISHL (R127): the amount is the low 5, 4 or 3 bits of the element of vb. -/
def execIshl (vd va vb : BitVec 5) (w : BitVec 2) (pm : BitVec 4) (s : State) : Host.Outcome State Fault Refusal :=
  .next (intOp s vd va vb 0 w pm fun n a b _ => ((a <<< (b % n) : Nat) : Int))
/-- ISHR (R127). -/
def execIshr (vd va vb : BitVec 5) (logical : BitVec 1) (w : BitVec 2) (pm : BitVec 4) (s : State) :
    Host.Outcome State Fault Refusal :=
  .next (intOp s vd va vb 0 w pm fun n a b _ =>
    if logical = 1 then ((a >>> (b % n) : Nat) : Int) else signed n a / (2 ^ (b % n) : Nat))

/-- Whether an integer condition of ICMP holds for elements of width `n` (R128). -/
def intCond (cond n a b : Nat) : Bool :=
  let x := signed n a
  let y := signed n b
  if cond = 0 then a == b else if cond = 1 then a != b else if cond = 2 then decide (x < y)
  else if cond = 3 then decide (x ≤ y) else if cond = 4 then decide (y < x) else if cond = 5 then decide (y ≤ x)
  else if cond = 6 then decide (a < b) else decide (b ≤ a)

/-- ICMP (R128). -/
def execIcmp (m : BitVec 2) (va vb : BitVec 5) (cond : BitVec 3) (w : BitVec 2) (pm : BitVec 4) (s : State) :
    Host.Outcome State Fault Refusal :=
  let n := intWidthOfW w.toNat
  .next (compareOp s m va vb pm n (intCond cond.toNat n))

/-- IADDI (R129). -/
def execIaddi (vd va : BitVec 5) (imm : BitVec 12) (pm : BitVec 4) (s : State) : Host.Outcome State Fault Refusal :=
  .next (moveOp s vd pm fun x L => (lane (x.reg va) L + imm.signExtend 32).toNat)
/-- MOVI (R129). -/
def execMovi (vd : BitVec 5) (imm : BitVec 12) (pm : BitVec 4) (s : State) : Host.Outcome State Fault Refusal :=
  .next (moveOp s vd pm fun _ _ => (imm.signExtend 32).toNat)

/-! ### Conversions (R130 to R135) -/

/-- The format of a CVT kind at a width (R131). -/
def cvtFmt (wid kind : Nat) : ElemFormat :=
  if wid = 0 then (if kind = 0 then .fp32 else .int32)
  else if wid = 1 then (if kind = 0 then .fp16 else if kind = 1 then .bf16 else .int16)
  else if kind = 0 then .f8a else if kind = 1 then .f8b else if kind = 2 then .int8 else .uint8

/-- A converted element under the policy in force: saturate replaces an infinite floating-point result (R54). -/
def OpCtx.convert (x : OpCtx) (src dst : ElemFormat) (ctl v : Nat) : Nat × Conds :=
  let (mode, sat) := convPair ctl x.f.alt x.policy
  let (r, c) := convertElem src dst mode sat v
  (if isFloatFmt dst then x.policy.fix dst r else r, c)

/-- CVT (R131): every lane. -/
def execCvt (vd va : BitVec 5) (wid skind dkind : BitVec 2) (ctl : BitVec 9) (s : State) :
    Host.Outcome State Fault Refusal :=
  .next (s.opWord fun x =>
    let src := cvtFmt wid.toNat skind.toNat
    let dst := cvtFmt wid.toNat dkind.toNat
    let b := fmtBits src
    x.lanesTo s vd.toNat (fun _ => true) (fun L =>
      mapElems b fun e => x.convert src dst ctl.toNat (elemOf b e (lane (x.reg va) L))) 1)

/-- PACK (R132): element `sel` of vd; the others keep their bits. -/
def execPack (vd va : BitVec 5) (skind : BitVec 1) (dfmt : BitVec 4) (sel : BitVec 2) (ctl : BitVec 9) (s : State) :
    Host.Outcome State Fault Refusal :=
  .next (s.opWord fun x =>
    let dst := (fmtOfCode dfmt.toNat).getD .fp16
    x.lanesTo s vd.toNat (fun _ => true) (fun L =>
      let (r, c) := x.convert (if skind = 0 then .fp32 else .int32) dst ctl.toNat (lane (x.reg va) L).toNat
      ((setElem (fmtBits dst) sel.toNat r (lane (x.reg vd) L)).toNat, c)) 1)

/-- One element widened into a 32-bit lane, exactly (R133). -/
def widen (f : ElemFormat) (v : Nat) : Nat :=
  if isFloatFmt f then (roundNE .fp32 (decodeFloat f v)).1 else wrapNat 32 (decodeInt f v)

/-- UNPK (R133). -/
def execUnpk (vd va : BitVec 5) (sfmt : BitVec 4) (sel : BitVec 2) (s : State) : Host.Outcome State Fault Refusal :=
  .next (s.opWord fun x =>
    let src := (fmtOfCode sfmt.toNat).getD .fp16
    x.lanesTo s vd.toNat (fun _ => true) (fun L =>
      let v := widen src (elemOf (fmtBits src) sel.toNat (lane (x.reg va) L))
      (if isFloatFmt src then x.policy.fix .fp32 v else v, noConds)) 1)

/-- One decoded DQ4 element (R134): +0 for a zero index or a zero scale, whatever the superscale is. -/
def dqdecElem (f : ElemFormat) (code sb superscale : Nat) : Nat × Conds :=
  if code % 8 = 0 ∨ sb % 256 = 0 then (0, noConds)
  else
    let (v, c) := dqValue (code % 8) sb superscale
    let (r, d) := roundNE f v
    (match decodeFloat f r with
     | .nan => r
     | _ => if code.testBit 3 then r ^^^ 2 ^ (fmtBits f - 1) else r, c.join d)

/-- DQDEC (R134): each member cell reads lane 0 of its own scale registers. -/
def execDqdec (vd va vb vc : BitVec 5) (dfmt : BitVec 2) (part : BitVec 3) (s : State) : Host.Outcome State Fault Refusal :=
  .next (s.opWord fun x =>
    let f := floatOfW dfmt.toNat
    let b := fmtBits f
    let per := perLane b
    x.lanesTo s vd.toNat (fun _ => true) (fun L =>
      let base := L / 8 * 8
      let sb := (lane (x.reg vb) base).toNat % 256
      let ss := (lane (x.reg vc) base).toNat
      mapElems b fun e =>
        let idx := part.toNat * (8 * per) + L % 8 * per + e
        let (r, c) := dqdecElem f (elemOf 4 (idx % 8) (lane (x.reg va) (base + idx / 8))) sb ss
        (x.policy.fix f r, c)) 1)

/-- The 64 source elements of DQENC in one member (R135). -/
def OpCtx.dqSource (x : OpCtx) (va : BitVec 5) (f : ElemFormat) (base : Nat) : List FVal :=
  (List.range 64).map fun i =>
    if f = .fp32 then decodeFloat f (lane (x.f.reg x.lanes (va.toNat + i / 8)) (base + i % 8)).toNat
    else decodeFloat f (elemOf 16 (i % 2) (lane (x.f.reg x.lanes (va.toNat + i / 16)) (base + i % 16 / 2)))

/-- DQENC (R135): the codes go to vd and the scale to lane 0 of vd + 1; it issues over as many cycles as it reads source
registers (R117). -/
def execDqenc (vd va vb : BitVec 5) (sfmt : BitVec 2) (ctl : BitVec 9) (s : State) : Host.Outcome State Fault Refusal :=
  .next (s.opWord fun x =>
    let _ := ctl
    let f := floatOfW sfmt.toNat
    let rs := (List.range x.size).map fun m =>
      dqEncodeBlock (lane (x.reg vb) (8 * m)).toNat (x.dqSource va f (8 * m))
    let cond := rs.foldl (fun k r => k.join r.2.2) noConds
    let s := x.record s cond
    if x.policy == .trap && cond.arith then .fault s 10 0 0
    else
      let codes := (List.range x.lanes).map fun L =>
        let r := rs.getD (L / 8) (0, [], noConds)
        BitVec.ofNat 32 (packElems 4 ((List.range 8).map fun i => r.2.1.getD (L % 8 * 8 + i) 0))
      let scales := (List.range x.lanes).map fun L =>
        if L % 8 = 0 then BitVec.ofNat 32 (rs.getD (L / 8) (0, [], noConds)).1 else (0 : Word)
      .next s ((x.f.setReg vd.toNat codes).setReg (vd.toNat + 1) scales) (if sfmt = 0 then 8 else 4))

/-! ### Special functions (R136, R137) -/

/-- An SFA form in each lane taking part. -/
def sfaOp (s : State) (vd va : BitVec 5) (pm : BitVec 4) (form : SfaForm) : State :=
  floatOp s vd va 0 0 0 pm fun _ a _ _ => sfa form a

/-- RCPA (R57, R136). -/
def execRcpa (vd va : BitVec 5) (pm : BitVec 4) (s : State) : Host.Outcome State Fault Refusal := .next (sfaOp s vd va pm .rcpa)
/-- RSQA (R57, R136). -/
def execRsqa (vd va : BitVec 5) (pm : BitVec 4) (s : State) : Host.Outcome State Fault Refusal := .next (sfaOp s vd va pm .rsqa)
/-- EXP2A (R57, R136). -/
def execExp2a (vd va : BitVec 5) (pm : BitVec 4) (s : State) : Host.Outcome State Fault Refusal := .next (sfaOp s vd va pm .exp2a)
/-- LOG2A (R57, R136). -/
def execLog2a (vd va : BitVec 5) (pm : BitVec 4) (s : State) : Host.Outcome State Fault Refusal := .next (sfaOp s vd va pm .log2a)
/-- SINPA (R57, R136). -/
def execSinpa (vd va : BitVec 5) (pm : BitVec 4) (s : State) : Host.Outcome State Fault Refusal := .next (sfaOp s vd va pm .sinpa)
/-- COSPA (R57, R136). -/
def execCospa (vd va : BitVec 5) (pm : BitVec 4) (s : State) : Host.Outcome State Fault Refusal := .next (sfaOp s vd va pm .cospa)

/-- RCPSTEP (R58, R137). -/
def execRcpstep (vd va vb : BitVec 5) (pm : BitVec 4) (s : State) : Host.Outcome State Fault Refusal :=
  .next (floatOp s vd va vb 0 0 pm fun _ a b _ => sfstep false a b)
/-- RSQSTEP (R58, R137). -/
def execRsqstep (vd va vb : BitVec 5) (pm : BitVec 4) (s : State) : Host.Outcome State Fault Refusal :=
  .next (floatOp s vd va vb 0 0 pm fun _ a b _ => sfstep true a b)

/-! ### Reduction and movement (R138 to R142) -/

/-- One level of the tree of RED: neighbours are combined, and a lone child passes unchanged (R138). -/
def redLevel (comb : Nat → Nat → Nat × Conds) : List (Option Nat) → List (Option Nat) × Conds
  | some a :: some b :: rest =>
    let (r, c) := comb a b
    let (l, d) := redLevel comb rest
    (some r :: l, c.join d)
  | a :: b :: rest =>
    let (l, d) := redLevel comb rest
    (a.or b :: l, d)
  | l => (l, noConds)
/-- The root of the tree of RED over at most 2^n leaves. -/
def redTree (comb : Nat → Nat → Nat × Conds) : Nat → List (Option Nat) → Option Nat × Conds
  | 0, l => ((l.head?).join, noConds)
  | n + 1, l =>
    let (l', c) := redLevel comb l
    let (r, d) := redTree comb n l'
    (r, c.join d)

/-- RED (R138): the result is broadcast to every element of every lane taking part; it issues over 1 + log2 F cycles
(R117). -/
def execRed (vd va : BitVec 5) (int : BitVec 1) (op w : BitVec 2) (pm : BitVec 4) (s : State) :
    Host.Outcome State Fault Refusal :=
  .next (s.opWord fun x =>
    let f := floatOfW w.toNat
    let b := if int = 1 then intWidthOfW w.toNat else fmtBits f
    let fsum := decide (int = 0 ∧ op = 0)
    let leaves := (List.range x.lanes).flatMap fun L =>
      (List.range (perLane b)).map fun e =>
        if x.selects pm L then
          let v := elemOf b e (lane (x.reg va) L)
          some (if fsum then widen f v else v)
        else none
    let comb (p q : Nat) : Nat × Conds :=
      if fsum then roundOnce .fp32 (faddExact (decodeFloat .fp32 p) (decodeFloat .fp32 q))
      else if int = 0 then (floatPick f (decide (op = 1)) p q, noConds)
      else if op = 0 then ((p + q) % 2 ^ b, noConds)
      else if op = 1 then (if signed b p < signed b q then q else p, noConds)
      else (if signed b q < signed b p then q else p, noConds)
    let (root, c) := redTree comb 9 leaves
    match root with
    | none => .next s x.f (1 + Nat.log2 x.size)
    | some v =>
      let (r, d) := if fsum then roundNE f (decodeFloat .fp32 v) else (v, noConds)
      let out := if int = 0 then x.policy.fix f r else r
      x.lanesTo s vd.toNat (x.selects pm) (fun _ => (packElems b (List.replicate (perLane b) out), c.join d))
        (1 + Nat.log2 x.size))

/-- What a lane gives as the source of LSHF or BCST: nothing, so 0, where pm does not select it (R119).
DEDUCED (log 146), unsafe. -/
def OpCtx.given (x : OpCtx) (pm : BitVec 4) (va : BitVec 5) (L : Nat) : Nat :=
  if x.selects pm L then (lane (x.reg va) L).toNat else 0

/-- PERM (R139): a source at or beyond the lanes gives 0; pm governs its destinations only. -/
def execPerm (vd va vb : BitVec 5) (pm : BitVec 4) (s : State) : Host.Outcome State Fault Refusal :=
  .next (moveOp s vd pm fun x L => (lane (x.reg va) ((lane (x.reg vb) L).toNat % 128)).toNat)
/-- LSHF (R140): a positive distance moves values toward higher lanes, filling with zero. -/
def execLshf (vd va dist : BitVec 5) (pm : BitVec 4) (s : State) : Host.Outcome State Fault Refusal :=
  .next (moveOp s vd pm fun x L =>
    let src := (L : Int) - dist.toInt
    if 0 ≤ src then x.given pm va src.toNat else 0)
/-- BCST (R141). -/
def execBcst (vd va vb : BitVec 5) (pm : BitVec 4) (s : State) : Host.Outcome State Fault Refusal :=
  .next (moveOp s vd pm fun x _ => x.given pm va (x.lane0 vb % 128))

end Sys2Proof.Machine
end

