-- ==== Sys2Proof/Machine/Routing.lean ====
section
/-!
DEFINITION. Routers and channels: where an item goes from each port, replicated actors, and the meaning of every switch
word (R33, R34, R82, R91 to R93, R172 to R179, R455).
-/

namespace Sys2Proof.Machine

/-! ### Ports, codes and room -/

/-- The tile that a neighbour port (0 N, 1 E, 2 S, 3 W) joins directly; a lane port joins none (R172). -/
def neighbour (r p : Nat) : Option Nat :=
  let x := r % 2
  let y := r / 2 % 2
  if p = 0 then (if y = 1 then some (r - 2) else none)
  else if p = 1 then (if x = 0 then some (r + 1) else none)
  else if p = 2 then (if y = 0 then some (r + 2) else none)
  else (if x = 1 then some (r - 1) else none)

/-- Kind of a local endpoint code (R174). -/
def codeKind (c : Nat) : Nat := bits c 12 4
/-- The source code of local port `k`. -/
def Router.source (t : Router) (k : Nat) : Nat := nth 0 t.codes (2 * k)
/-- The destination code of local port `k`. -/
def Router.dest (t : Router) (k : Nat) : Nat := nth 0 t.codes (2 * k + 1)
/-- The input buffer of a port. -/
def Router.buf (t : Router) (p : Nat) : List Held := mapGet [] t.inq p
/-- The depth of a port's input buffer: 2 without a HOLD word (R175). -/
def Router.depth (t : Router) (p : Nat) : Nat := mapGet 2 t.depths p
/-- Kind of a switch word. -/
def swKind (w : Half) : Nat := bits w.toNat 12 4
/-- The input ports of a routing word of kinds 1 to 5. -/
def swInputs (w : Half) : List Nat :=
  let k := swKind w
  if k = 3 then [bits w.toNat 8 4, bits w.toNat 4 3] else if 1 ≤ k ∧ k ≤ 5 then [bits w.toNat 8 4] else []
/-- Whether a routing word of kinds 1 to 5 takes a port as its input. -/
def Router.takes (t : Router) (p : Nat) : Bool := t.words.any fun w => (swInputs w).contains p
/-- Whether a BARR word joins the barriers of a port. -/
def Router.joins (t : Router) (p : Nat) : Bool := t.words.any fun w => swKind w == 6 && w.toNat.testBit p
/-- The input ports that the words of a router use. -/
def Router.inputs (t : Router) : List Nat := (List.range 8).filter fun p => t.takes p || t.joins p

/-- Barriers, wavefront markers and splice records, which are joined and copied (R175, R205, R212). -/
def Item.isSync : Item → Bool
  | .data _ _ => false
  | .marker _ => false
  | _ => true
/-- Whether an item is a barrier token. -/
def Item.isBarrier : Item → Bool
  | .barrier _ => true
  | _ => false
/-- The one item that two joined items leave, where they are of one kind and one origin. -/
def joinItems : List Item → Option Item
  | [] => none
  | .barrier s :: rest =>
    if rest.all Item.isBarrier then
      some (.barrier (joinSrc (s :: rest.map fun i => match i with
        | .barrier t => t
        | _ => [])))
    else none
  | i :: rest => if i.isSync && rest.all (· == i) then some i else none

/-- Whether a port of a cell has room for an item; slots freed in this cycle do not count yet (R94). -/
def Cell.hasSlot (c : Cell) (now p : Nat) (i : Item) : Bool :=
  let f := mapGet (0, 0) c.freed p
  portRoom (c.group p) (c.depth p - (if f.1 = now then f.2 else 0)) (c.port p) i
/-- An item arrives at a port of a cell in cycle `now` (R91, R94). At the side port a token takes effect, and any other item ends
there (R55, R205). -/
def Cell.accept (c : Cell) (now p : Nat) (i : Item) : Cell :=
  if p = 19 ∧ c.sidePort then
    match i with
    | .data _ _ => c.sideToken now (tokenBit i)
    | _ => c
  else c.setPort p (pushItem (c.group p) (now + 1) (c.port p) i)

/-! ### Replicated actors (R92, R93) -/

/-- The tile and cell of copy `n` of an actor of fused size `F` whose copy 0 is at a cell. -/
def copyPlace (r k F n : Nat) : Nat × Nat := ((16 * r + k + n * F) / 16, (16 * r + k + n * F) % 16)
/-- The replicated actor of a cell that declares a rate on a port, at copy 0. -/
def Cell.replicated (c : Cell) (p : Nat) : Option Actor :=
  c.actors.find? fun a => decide (a.repl > 0 ∧ a.copy = 0 ∧ a.rate p > 0)
/-- Whether a port of a cell is wired or bound by itself. -/
def State.ownBinding (s : State) (r k p : Nat) : Bool :=
  entWired ((s.cell r k).entry p) ||
    (s.router r).codes.any fun c => codeKind c == 2 && bits c 4 4 == k &&
      (if c.testBit 3 then bits c 0 3 else 8 + bits c 0 3) == p
/-- The copies among which a port is dealt or collected: the cell alone where its actor is not replicated, or where
copy 1 has a binding of its own. -/
def State.portCopies (s : State) (r k p : Nat) : List (Nat × Nat) :=
  match (s.cell r k).replicated p with
  | none => [(r, k)]
  | some a =>
    let at_ (n : Nat) := copyPlace r k (2 ^ a.lgf) n
    if s.ownBinding (at_ 1).1 (at_ 1).2 p then [(r, k)] else (List.range (a.repl + 1)).map at_

/-- Whether what a cell sends on a token port goes anywhere: the port is wired, or copy 0 collects it and is wired there (R93,
R200). -/
def State.tokenWired (s : State) (r k p : Nat) (a : Actor) : Bool :=
  let n := 16 * r + k - a.copy * 2 ^ a.lgf
  entWired ((s.cell r k).entry p) ||
    ((s.portCopies (n / 16) (n % 16) p).contains (r, k) && entWired ((s.cell (n / 16) (n % 16)).entry p))

/-- The whole items of a buffer of fused size `n`. -/
def wholeCount (n : Nat) (l : List Held) : Nat := (l.filter fun h => h.item.whole n).length

/-- Whether a buffer of fused size `n` ends in a group that is not complete. -/
def openGroup (n : Nat) (l : List Held) : Bool :=
  match unsnoc l with
  | some (_, h) => !h.item.whole n
  | none => false
/-- That group completed with zero tokens (R91). -/
def closeGroup (n ready : Nat) (l : List Held) : List Held :=
  match unsnoc l with
  | some (pre, ⟨.data us g, _⟩) => pre ++ [⟨.data (us ++ List.replicate (n - us.length) 0) g, ready⟩]
  | _ => l

/-- An item arrives at a port of a cell, or at the copy whose firing group it belongs to; other kinds go to every copy. A
marker first completes an open group, which is an item of its own, so that the marker may belong to the next copy (R91, R93). -/
def State.acceptAt (s : State) (r k p : Nat) (i : Item) : Option State :=
  let ps := s.portCopies r k p
  let room (s : State) (q : Nat × Nat) : Bool := (s.cell q.1 q.2).hasSlot s.now p i
  if i.isSync then
    if ps.all (room s) then some (ps.foldl (fun s q => s.modCell q.1 q.2 fun c => c.accept s.now p i) s) else none
  else if ps.length ≤ 1 then
    if room s (r, k) then some (s.modCell r k fun c => c.accept s.now p i) else none
  else
    let rate := Nat.max 1 ((((s.cell r k).replicated p).map fun a => a.rate p).getD 1)
    let turn (s : State) : Nat × Nat := nth (r, k) ps (mapGet 0 (s.cell r k).dealt p / rate % ps.length)
    let deal (s : State) (n : Nat) : State := s.modCell r k fun c => { c with dealt := mapMod 0 c.dealt p (· + n) }
    let q := turn s
    let d := s.cell q.1 q.2
    let s := if i.tag > 0 ∧ openGroup (d.group p) (d.port p) then
        deal (s.modCell q.1 q.2 fun d => d.setPort p (closeGroup (d.group p) (s.now + 1) (d.port p))) 1
      else s
    let q := turn s
    if room s q then
      let d := s.cell q.1 q.2
      let n := wholeCount (d.group p) ((d.accept s.now p i).port p) - wholeCount (d.group p) (d.port p)
      some (deal (s.modCell q.1 q.2 fun d => d.accept s.now p i) n)
    else none

/-- An item enters a rerouted link, where it has room: two items and those on the circuit (R173, R213). -/
def State.pushWire (s : State) (key : Nat) (w : Wire) (i : Item) : Option State :=
  if w.items.length < 2 + w.lat then
    some { s with wires := mapSet s.wires key { w with items := w.items ++ [⟨i, s.now + 1 + w.lat⟩] } }
  else none
/-- The network brings an item to a port of a cell, or to where the link has been rerouted (R213). -/
def State.acceptCell (s : State) (r k p : Nat) (i : Item) : Option State :=
  match if p = 0 then mapFind s.wires (16 * r + k) else none with
  | some w => s.pushWire (16 * r + k) w i
  | none => s.acceptAt r k p i

/-- The next item that leaves an output port of one cell, one token at a time, and the cell without it. -/
def Cell.emit (c : Cell) (now p : Nat) : Option (Item × Cell) :=
  match popTok now (c.port p) with
  | none => none
  | some (i, rest) =>
    let c' := c.setPort p rest
    some (i, if rest.length < (c.port p).length then c'.freeSlots now p 1 else c')

/-- The turn of the collected copies passes on while the copy in turn has a finished firing that left nothing (R93). -/
def State.passTurn (s : State) (r k p : Nat) (ps : List (Nat × Nat)) : Nat → State
  | 0 => s
  | n + 1 =>
    let t := mapGet 0 (s.cell r k).turn p
    let q := nth (r, k) ps t
    match mapGet [] (s.cell q.1 q.2).fired p with
    | 0 :: rest =>
      ((s.modCell q.1 q.2 fun c => { c with fired := mapPut [] c.fired p rest }).modCell r k fun c =>
        { c with turn := mapSet c.turn p ((t + 1) % ps.length) }).passTurn r k p ps n
    | _ => s

/-- The next item that leaves an output port of a cell, collected from its copies in turn (R93). -/
def State.emitCell (s : State) (r k p : Nat) : Option (Item × State) :=
  let ps := s.portCopies r k p
  if ps.length ≤ 1 then ((s.cell r k).emit s.now p).map fun e => (e.1, s.modCell r k fun _ => e.2)
  else
    let s := s.passTurn r k p ps (2 * ps.length)
    let q := nth (r, k) ps (mapGet 0 (s.cell r k).turn p)
    let d := s.cell q.1 q.2
    match mapGet [] d.fired p with
    | n :: rest =>
      (d.emit s.now p).map fun e =>
        let whole := decide ((e.2.port p).length < (d.port p).length)
        (e.1, s.modCell q.1 q.2 fun _ =>
          if whole then { e.2 with fired := mapSet e.2.fired p ((n - 1) :: rest) } else e.2)
    | [] =>
      let heads := ps.map fun q => if (mapGet [] (s.cell q.1 q.2).fired p).isEmpty then
        peekHead s.now ((s.cell q.1 q.2).port p) else none
      if heads.any Option.isNone then none
      else (joinItems (heads.filterMap id)).map fun i =>
        (i, ps.foldl (fun s q => s.modCell q.1 q.2 fun c =>
          (c.setPort p ((c.port p).drop 1)).freeSlots s.now p 1) s)

/-! ### Utility nodes at the network -/

/-- Whether a code word reads or feeds utility node `u`: RECV or SEND on its port, or a utility word. -/
def wordNamesPort (w : Word) (port : Nat) : Bool :=
  let op := bits w.toNat 26 6
  (op == 0x24 || op == 0x25 || (0x38 ≤ op && op ≤ 0x3B)) && bits w.toNat 16 5 == port
/-- The code words of a cell's actors. -/
def Cell.code (c : Cell) : List Word :=
  c.actors.flatMap fun a => (List.range a.len).map fun i => mapGet 0 c.store (a.base + i)
/-- The fused size of the cells of a tile whose code reads an engine port by RECV, 1 where none does. -/
def Fabric.readerSize (f : Fabric) (port : Nat) : Nat :=
  ((f.cells.find? fun e => e.2.code.any fun w => bits w.toNat 26 6 == 0x24 && bits w.toNat 16 5 == port).map
    fun e => e.2.size).getD 1

/-- An item arrives at input A (0) or B (1) of utility node `u` of tile `r`, which buffers 2 items (R456). -/
def State.acceptUtil (s : State) (r u side : Nat) (i : Item) : Option State :=
  let x := (s.fab r).ux u
  let l := if side = 0 then x.inA else x.inB
  if l.length < 2 then
    some (s.modFab r fun f => f.modUx u fun x =>
      if side = 0 then { x with inA := l ++ [⟨i, s.now + 1⟩] } else { x with inB := l ++ [⟨i, s.now + 1⟩] })
  else none
/-- The next item that leaves output Y of a utility node, one token at a time. -/
def State.emitUtil (s : State) (r u : Nat) : Option (Item × State) :=
  (popTok s.now ((s.fab r).ux u).outY).map fun e => (e.1, s.modFab r fun f => f.modUx u fun x => { x with outY := e.2 })

/-! ### Offering an item at an output port -/

/-- An item arrives at an input port of a router, `lat` cycles of circuit after it was offered (R172, R173). -/
def State.acceptRouter (s : State) (r p lat : Nat) (i : Item) : Option State :=
  let t := s.router r
  if (t.buf p).length < t.depth p + lat ∧ mapGet 0 t.inAt p ≤ s.now then
    some (s.modRouter r fun t => { t with
      inq := mapSet t.inq p (t.buf p ++ [⟨i, s.now + 1 + lat⟩]), inAt := mapSet t.inAt p (s.now + 1) })
  else none

/-- Where an output or token port of a cell leads: through the crossbar to a port of another cell, or to a local port of
the router. -/
def State.leadsTo (s : State) (r k p : Nat) : Option WireEnd :=
  let e := (s.cell r k).entry p
  if entWired e then some (.net r (entCell e) (if p < 16 then entChan e else 16 + entChan e % 4))
  else ((List.range 4).find? fun j =>
    (s.router r).source j == 0x2000 + 16 * k + (p - 8)).map fun j => .router r (4 + j)

/-- An item is given to the end of a link. -/
def State.acceptEnd (s : State) (e : WireEnd) (i : Item) : Option State :=
  match e with
  | .input r k p => s.acceptAt r k p i
  | .net r k p => s.acceptCell r k p i
  | .router r p => s.acceptRouter r p 0 i

/-- An item is offered to the endpoint of local port `k` (R174). What a generator, a window or a queue region takes waits
at the output. -/
def State.acceptLocal (s : State) (r k : Nat) (i : Item) : Option State :=
  let t := s.router r
  let c := t.dest k
  match codeKind c with
  | 1 | 3 | 4 =>
    if (mapGet [] t.outq k).isEmpty then
      some (s.modRouter r fun t => { t with outq := mapSet t.outq k [⟨i, s.now⟩] })
    else none
  | 2 => s.acceptCell r (bits c 4 4) (bits c 0 3) i
  | 5 => s.acceptUtil r (bits c 2 1) (bits c 0 2) i
  | _ => none

/-- An item leaves by an output port: at most one each cycle (R172). -/
def State.offer (s : State) (r out : Nat) (i : Item) : Option State :=
  let t := s.router r
  if s.now < mapGet 0 t.outAt out then none
  else
    (if out ≥ 4 then s.acceptLocal r (out - 4) i
     else match neighbour r out with
       | some n => s.acceptRouter n ((out + 2) % 4) 0 i
       | none => match mapFind t.circ out with
         | some (dr, dp, lat) => s.acceptRouter dr dp lat i
         | none => none).map fun s' =>
      (s'.modRouter r fun t => { t with outAt := mapSet t.outAt out (s.now + 1) }).touch r

/-- Whether what leaves by an output port has a consumer (R455). -/
def State.hasConsumer (s : State) (r out : Nat) : Bool :=
  if out ≥ 4 then codeKind ((s.router r).dest (out - 4)) != 0
  else match neighbour r out with
    | some n => (s.regionOf r).all (fun g => decide (g.lead ≤ n ∧ n < g.lead + 2 ^ g.lgn)) &&
        (s.router n).takes ((out + 2) % 4)
    | none => (mapFind (s.router r).circ out).isSome

/-! ### Items in flight -/

/-- The items that a fabric holds on their way: in ports, buffers, joins and nodes, and in the outputs of its generators. -/
def Fabric.items (f : Fabric) : List Item :=
  let util (x : Util) : List Item :=
    (x.inA ++ x.inB ++ x.outY).map Held.item ++ x.pend ++ x.aside ++ x.held.map Prod.snd
  let held (m : NMap (List Held)) : List Item := m.flatMap fun e => e.2.map Held.item
  (f.cells.flatMap fun e => held e.2.fifo) ++ held f.router.inq ++ held f.router.outq ++
    f.router.barr.map (fun e => .barrier e.2) ++ util f.ux0 ++ util f.ux1 ++
    f.gens.flatMap fun e => e.2.stream.elim [] fun t => t.out.filterMap fun o => match o with
      | .item i => some i
      | .tok _ _ _ => none
/-- The items that some tiles and their rerouted links hold. -/
def State.itemsIn (s : State) (ranks : List Nat) : List Item :=
  (ranks.flatMap fun r => (s.fab r).items) ++
    (s.wires.filter fun e => ranks.contains (e.1 % 8192 / 16)).flatMap fun e => e.2.items.map Held.item

/-- Whether two records are copies of one (R211). -/
def Splice.same (p q : Splice) : Bool := p.rank == q.rank && p.seq == q.seq
/-- Whether a record has acted or failed, so that it only passes (R213, R215). -/
def State.hasActed (s : State) (p : Splice) : Bool := s.spliced.any p.same
/-- The predecessor of the stage that a record names goes on, where the record has held it (R213). -/
def State.freePredecessor (s : State) (p : Splice) : State :=
  match (s.regionOf p.rank).bind fun g => mapFind g.stages (p.pos - 1) with
  | some (r, k) => if p.op = 0 ∧ p.inh then s.modCell r k fun c => { c with frozen := false } else s
  | none => s
/-- A splice fails for a reason (R215): the record is a failed-splice marker from now on, the core that issued it is told, and the
predecessor goes on. -/
def State.failSplice (s : State) (p : Splice) (reason : Nat) : State :=
  (({ s with spliced := { p with failed := true } :: s.spliced }).raiseAt p.rank 22
    (BitVec.ofNat 64 (reason * 2 ^ 16 + p.seq)) 3).freePredecessor p

/-- A splice record or failed-splice marker reaches the end of its chain (R214, R215): with its last copy oc.tl of the issuing
core falls. A record that no stage has acted on had no stage of its position. -/
def State.sinkSplice (s : State) (p : Splice) : State :=
  let copy (i : Item) : Bool := match i with
    | .splice q => p.same q
    | _ => false
  if (s.itemsIn (s.tiles.map Prod.fst)).any copy then s
  else
    let s := if s.hasActed p then s else s.failSplice p 4
    ({ s with spliced := s.spliced.filter fun q => !p.same q }).modCore p.rank fun c => { c with ocTl := c.ocTl - 1 }

/-! ### Taking an item from an input port -/

/-- The item at the head of an input buffer, once it counts. -/
def State.headAt (s : State) (r p : Nat) : Option Item := peekHead s.now ((s.router r).buf p)
/-- The head of an input buffer as a routing word sees it: a barrier that a BARR joins is not seen (R179). -/
def State.routeHead (s : State) (r p : Nat) : Option Item :=
  match s.headAt r p with
  | some (.barrier src) => if (s.router r).joins p then none else some (.barrier src)
  | o => o
/-- The head of an input buffer is taken; a wavefront marker has then passed the port (R205). -/
def State.takeAt (s : State) (r p : Nat) : State :=
  match popTok s.now ((s.router r).buf p) with
  | none => s
  | some (i, rest) =>
    (s.modRouter r fun t => { t with
      inq := mapPut [] t.inq p rest,
      waved := match i with
        | .wave j => mapSet t.waved p (j + 1)
        | _ => t.waved }).touch r

/-! ### Switch words -/

/-- The set output ports of a mask, in ascending order. -/
def maskPorts (m : BitVec 8) : List Nat := bitList 8 m.toNat

/-- An item at an input port is copied to the outputs of a list that have not had it yet; once all have, it is taken
(R34). `key` numbers the word. -/
def State.copyOut (s : State) (r key p : Nat) (outs : List Nat) (i : Item) : State :=
  let (s, sent) := outs.foldl (fun (acc : State × Nat) o =>
    if acc.2.testBit o then acc
    else match acc.1.offer r o i with
      | some s => (s, acc.2 ||| 2 ^ o)
      | none => acc) (s, mapGet 0 (s.router r).split key)
  if outs.all fun o => sent.testBit o then
    (s.takeAt r p).modRouter r fun t => { t with split := mapDel t.split key }
  else s.modRouter r fun t => { t with split := mapPut 0 t.split key sent }

/-- Equal items at the heads of some inputs pass together as one (R175). -/
def State.joinThrough (s : State) (r : Nat) (ps : List Nat) (out : Nat) : State :=
  match joinItems ((ps.map fun p => s.routeHead r p).filterMap id) with
  | none => s
  | some i => match s.offer r out i with
    | none => s
    | some s => ps.foldl (fun s p => s.takeAt r p) s

/-- NUL (R82): leaves a port unused. -/
def execNul (_inp : BitVec 3) (s : State) : Host.Outcome State Fault Refusal := .next s

/-- ROUTE (R175): passes each item to the one output. -/
def execRoute (inp : BitVec 3) (out : BitVec 8) (s : State) : Host.Outcome State Fault Refusal :=
  let r := s.foc.unit
  .next (match s.routeHead r inp.toNat with
    | none => s
    | some i => s.copyOut r s.foc.sub inp.toNat (maskPorts out) i)

/-- SPLIT (R34, R175): copies each item to every output, the slowest setting the pace. -/
def execSplit (inp : BitVec 3) (out : BitVec 8) (s : State) : Host.Outcome State Fault Refusal :=
  let r := s.foc.unit
  .next (match s.routeHead r inp.toNat with
    | none => s
    | some i => s.copyOut r s.foc.sub inp.toNat (maskPorts out) i)

/-- MERGE (R175, R176): passes the segments of its inputs in turn. DEDUCED (log 67), unsafe. -/
def execMerge (inp inp2 out : BitVec 3) (s : State) : Host.Outcome State Fault Refusal :=
  let r := s.foc.unit
  let k := s.foc.sub
  let side := mapGet 0 (s.router r).merge k
  let p := if side = 0 then inp.toNat else inp2.toNat
  .next (match s.routeHead r p with
    | none => s
    | some i =>
      if i.isSync then
        if (s.routeHead r inp.toNat).isSome ∧ (s.routeHead r inp2.toNat).isSome then
          s.joinThrough r [inp.toNat, inp2.toNat] out.toNat
        else s
      else match s.offer r out.toNat i with
        | none => s
        | some s =>
          let s := s.takeAt r p
          if i.tag > 0 then s.modRouter r fun t => { t with merge := mapSet t.merge k (1 - side) } else s)

/-- Where what leaves by an output port ends, followed through ROUTE words: a cell and its input port (R177). -/
def State.endsAt (s : State) : Nat → Nat → Nat → Option (Nat × Nat × Nat)
  | 0, _, _ => none
  | n + 1, r, out =>
    let onward (r p : Nat) : Option (Nat × Nat × Nat) :=
      match (s.router r).words.find? fun w => swKind w == 1 && bits w.toNat 8 4 == p with
      | none => none
      | some w => match bitList 8 (bits w.toNat 0 8) with
        | o :: _ => s.endsAt n r o
        | [] => none
    if out ≥ 4 then
      let c := (s.router r).dest (out - 4)
      if codeKind c = 2 then some (r, bits c 4 4, bits c 0 3) else none
    else match neighbour r out with
      | some m => onward m ((out + 2) % 4)
      | none => (mapFind (s.router r).circ out).bind fun c => onward c.1 c.2.1

/-- The group of a DEAL in tokens, and the tokens of one item: the declared rate of a replicated actor that its outputs
feed, else one token (R177). DEDUCED (log 68), unsafe. -/
def State.dealGroup (s : State) (r : Nat) (outs : List Nat) : Nat × Nat :=
  match outs.findSome? fun o => s.endsAt 64 r o with
  | none => (1, 1)
  | some (tr, k, p) =>
    match (s.cell tr k).actors.find? fun a => decide (a.repl > 0 ∧ a.rate p > 0) with
    | some a => (a.rate p * 2 ^ a.lgf, 2 ^ a.lgf)
    | none => (1, 1)

/-- DEAL (R175, R177): groups of items go to the outputs in ascending order; barriers are copied once a group is
complete. -/
def execDeal (inp : BitVec 3) (out : BitVec 8) (s : State) : Host.Outcome State Fault Refusal :=
  let r := s.foc.unit
  let k := s.foc.sub
  let outs := maskPorts out
  let (idx, cnt) := mapGet (0, 0) (s.router r).deal k
  let (group, one) := s.dealGroup r outs
  .next (match s.routeHead r inp.toNat with
    | none => s
    | some i =>
      if i.isSync then if cnt = 0 then s.copyOut r k inp.toNat outs i else s
      else match s.offer r (nth 0 outs idx) i with
        | none => s
        | some s =>
          let cnt := if i.tag > 0 then ceilDiv cnt one * one + one else cnt + 1
          (s.takeAt r inp.toNat).modRouter r fun t => { t with
            deal := mapSet t.deal k (if cnt ≥ group then ((idx + 1) % outs.length, 0) else (idx, cnt)) })

/-- TURN (R175, R178): the input goes into the corner-turn node, and what the node emits to the output. -/
def execTurn (inp : BitVec 3) (_code : BitVec 4) (ux : BitVec 1) (out : BitVec 3) (s : State) :
    Host.Outcome State Fault Refusal :=
  let r := s.foc.unit
  let s := match s.emitUtil r ux.toNat with
    | none => s
    | some (i, s') => (s'.offer r out.toNat i).getD s
  .next (match s.routeHead r inp.toNat with
    | none => s
    | some i => match s.acceptUtil r ux.toNat 0 i with
      | none => s
      | some s => s.takeAt r inp.toNat)

/-- A joined input of a BARR delivers its barrier to the join, once for each join (R179). -/
def State.holdBarrier (s : State) (r k p : Nat) : State :=
  match s.headAt r p with
  | some (.barrier src) =>
    if (mapFind (s.router r).barr (8 * k + p)).isSome then s
    else (s.takeAt r p).modRouter r fun t => { t with barr := mapSet t.barr (8 * k + p) src }
  | _ => s

/-- BARR (R175, R179): joins the barriers of its inputs into one. A barrier with no consumer is consumed at the output
(R455). A wavefront marker or splice record at inputs that no routing word takes is joined alike (R205, R212). -/
def execBarr (out : BitVec 3) (inps : BitVec 8) (s : State) : Host.Outcome State Fault Refusal :=
  let r := s.foc.unit
  let k := s.foc.sub
  let ps := maskPorts inps
  let s := ps.foldl (fun s p => s.holdBarrier r k p) s
  let give (s : State) (i : Item) : Option State :=
    if s.hasConsumer r out.toNat then s.offer r out.toNat i else some s
  let held := ps.map fun p => mapFind (s.router r).barr (8 * k + p)
  .next (
    if !ps.isEmpty && held.all Option.isSome then
      match give s (.barrier (joinSrc (held.filterMap id))) with
      | none => s
      | some s => (s.modRouter r fun t => { t with barr := t.barr.filter fun e => decide (e.1 / 8 ≠ k) }).touch r
    else
      let own := ps.filter fun p => !(s.router r).takes p
      let heads := own.map fun p => s.headAt r p
      if own.isEmpty ∨ heads.any Option.isNone then s
      else match joinItems (heads.filterMap id) with
        | some (.barrier _) | none => s
        | some i => match give s i with
          | none => s
          | some s =>
            let s := own.foldl (fun s p => s.takeAt r p) s
            match i with
            | .splice p => if s.hasConsumer r out.toNat then s else s.sinkSplice p
            | _ => s)

/-- HOLD (R175): the input buffer of a port becomes `depth` items. -/
def execHold (port : BitVec 3) (depth : BitVec 8) (s : State) : Host.Outcome State Fault Refusal :=
  .next (s.modRouter s.foc.unit fun t => { t with depths := mapSet t.depths port.toNat depth.toNat })

end Sys2Proof.Machine
end

