-- ==== Sys2Proof/Machine/MemTile.lean ====
section
/-!
DEFINITION. Memory-tile access from cells and streams: plain and versioned words, windows and queue regions (R144 to R168).
-/

namespace Sys2Proof.Machine

/-- The memory tile that an operation word names. -/
def OpCtx.mt (x : OpCtx) (s : State) (q : BitVec 1) : MTile := s.mtile x.r q.toNat
/-- The lanes that take part in an access. -/
def OpCtx.active (x : OpCtx) (pm : BitVec 4) : List Nat := (List.range x.lanes).filter fun i => x.selects pm i
/-- The lanes that take part, each with its address (R153): contiguous from lane 0 of va, or gathered.
DEDUCED (log 59), unsafe. -/
def OpCtx.addrs (x : OpCtx) (va : BitVec 5) (g : Bool) (pm : BitVec 4) : List (Nat × Nat) :=
  (x.active pm).map fun i => (i, if g then (lane (x.reg va) i).toNat else (x.lane0 va + i) % 2 ^ 32)

/-- The word ends in a fault of the lane whose address is `a` (R158), a cause 13 too. DEDUCED (log 152), unsafe. -/
def laneFault (s : State) (cause sub a : Nat) : OpEnd := .fault s cause sub (a % 2 ^ 18)

/-! ### Plain words (R152, R153) -/

/-- The subcode of R148 for one lane of a plain access whose first lane lies in region `first`. -/
def MTile.plainLane (m : MTile) (first : Option Nat) (w : Nat) : Option Nat :=
  match m.regionOf w with
  | none => some 0
  | some g => if g.mode ≠ 0 then some 1 else if first.any fun i => i != g.idx then some 2 else none

/-- The lowest lane of a plain access that fails R148: its address and subcode. -/
def MTile.plainFault (m : MTile) (ws : List Nat) : Option (Nat × Nat) :=
  let first := ws.head?.bind fun w => (m.regionOf w).map MapRegion.idx
  ws.findSome? fun w => (m.plainLane first w).map fun sub => (w, sub)

/-- A register whose listed lanes hold new words. -/
def Firing.setLanes (f : Firing) (n v : Nat) (l : List (Nat × Word)) : Firing :=
  f.setReg v ((List.range n).map fun i => ((l.find? fun e => e.1 == i).map Prod.snd).getD (lane (f.reg n v) i))

/-- TLD (R153). An uncorrectable word reads zero in a tolerant region and raises cause 13 in any other (R167). -/
def execTld (v va : BitVec 5) (q g : BitVec 1) (pm : BitVec 4) (s : State) : Host.Outcome State Fault Refusal :=
  .next (s.opWord fun x =>
    let m := x.mt s q
    let as := x.addrs va (g == 1) pm
    let ws := as.map Prod.snd
    match m.plainFault ws with
    | some (a, sub) => laneFault s 6 sub a
    | none =>
      let tol := (ws.head?.bind m.regionOf).any MapRegion.tol
      match ws.find? m.poisoned.contains with
      | some a =>
        if tol then
          let s := (s.modMtile x.r q.toNat fun m => m.correctAll ws).countSub (s.owner x.r)
          .next s (x.f.setLanes x.lanes v.toNat
            (as.map fun e => (e.1, if m.poisoned.contains e.2 then 0 else m.word e.2))) 1
        else laneFault s 13 0 a
      | none =>
        .next (s.modMtile x.r q.toNat fun m => m.correctAll ws)
          (x.f.setLanes x.lanes v.toNat (as.map fun e => (e.1, m.word e.2))) 1)

/-- TST (R153): lanes are written in ascending order. -/
def execTst (v va : BitVec 5) (q g : BitVec 1) (pm : BitVec 4) (s : State) : Host.Outcome State Fault Refusal :=
  .next (s.opWord fun x =>
    let as := x.addrs va (g == 1) pm
    match (x.mt s q).plainFault (as.map Prod.snd) with
    | some (a, sub) => laneFault s 6 sub a
    | none =>
      .next (s.modMtile x.r q.toNat fun m => as.foldl (fun m e => m.setWord e.2 (lane (x.reg v) e.1)) m) x.f 1)

/-! ### Versioned words (R154 to R158) -/

/-- How one lane of a versioned access stands: it performs, waits or misses at index `k` of region `g`, or faults. -/
inductive LaneAct where
  | perform (g : MapRegion) (k : Nat)
  | wait
  | miss
  | fault (cause sub : Nat)

/-- One lane of a versioned access of version `v` (R148, R154, R155, R167). -/
def MTile.verLane (m : MTile) (first : Option Nat) (v : Nat) (rule : Bool → Nat → Nat → SlotAct) (a : Nat) : LaneAct :=
  match m.versioned a with
  | .error sub => .fault 6 sub
  | .ok (g, k) =>
    if first.any fun i => i != g.idx then .fault 6 2
    else if m.poisoned.contains (g.base + 3 * k + 2) then .fault 13 0
    else match rule (m.slot g.base k v).1 (m.slot g.base k v).2 v with
      | .perform => .perform g k
      | .wait => .wait
      | .miss => .miss
      | .fault c sub => .fault c sub

/-- The lanes of a versioned access, each with its address and how it stands. -/
def MTile.verLanes (m : MTile) (v : Nat) (rule : Bool → Nat → Nat → SlotAct) (as : List (Nat × Nat)) :
    List (Nat × Nat × LaneAct) :=
  let first := as.head?.bind fun e => (m.regionOf e.2).map MapRegion.idx
  as.map fun e => (e.1, e.2, m.verLane first v rule e.2)

/-- The lowest lane that faults: its address, cause and subcode. -/
def lanesFault (l : List (Nat × Nat × LaneAct)) : Option (Nat × Nat × Nat) :=
  l.findSome? fun e => match e.2.2 with
    | .fault c sub => some (e.2.1, c, sub)
    | _ => none
/-- Whether some lane must wait. -/
def lanesWait (l : List (Nat × Nat × LaneAct)) : Bool :=
  l.any fun e => match e.2.2 with
    | .wait => true
    | _ => false
/-- The lanes that perform, each with its region and index. -/
def lanesGo (l : List (Nat × Nat × LaneAct)) : List (Nat × MapRegion × Nat) :=
  l.filterMap fun e => match e.2.2 with
    | .perform g k => some (e.1, g, k)
    | _ => none

/-- The tag words that the lanes of a versioned access read. -/
def lanesTags (m : MTile) (l : List (Nat × Nat × LaneAct)) : List Nat :=
  l.filterMap fun e => match m.versioned e.2.1 with
    | .ok (g, k) => some (g.base + 3 * k + 2)
    | .error _ => none

/-- A versioned access as one unit (R151): a fault of any lane writes nothing, and any lane that waits makes all wait. An
access that has waited performs no earlier than the cycle after its slots changed (R36). -/
def OpCtx.versionedOp (x : OpCtx) (s : State) (m : MTile) (v : Nat) (l : List (Nat × Nat × LaneAct))
    (go : List (Nat × MapRegion × Nat) → OpEnd) : OpEnd :=
  match lanesFault l with
  | some (a, c, sub) => laneFault s c sub a
  | none =>
    let g := lanesGo l
    if lanesWait l || (x.f.waiting && g.any fun e => !m.settled s.now e.2.1.base e.2.2 v) then .stall s x.f 1
    else go g

/-- The version of a versioned word: lane 0 of vv, bits [7:0] (R156). -/
def OpCtx.version (x : OpCtx) (vv : BitVec 5) : Nat := x.lane0 vv % 256

/-- A lane of a load with a data word that cannot be read and is not substituted faults (R167). -/
def MTile.loadLane (m : MTile) (v : Nat) (e : Nat × Nat × LaneAct) : Nat × Nat × LaneAct :=
  match e.2.2 with
  | .perform g k => if m.poisoned.contains (slotWord g.base k v) && !g.tol then (e.1, e.2.1, .fault 13 0) else e
  | _ => e

/-- TLDV as its firing runs it (R156). -/
def tldvWord (v va vv : BitVec 5) (q : BitVec 1) (pm : BitVec 4) (s : State) : State :=
  s.opWord fun x =>
    let m := x.mt s q
    let ver := x.version vv
    let l := (m.verLanes ver slotLoad (x.addrs va false pm)).map (m.loadLane ver)
    x.versionedOp s m ver l fun g =>
      let words := g.map fun e => (e.1, slotWord e.2.1.base e.2.2 ver)
      let s := s.modMtile x.r q.toNat fun m => m.correctAll (lanesTags m l ++ words.map Prod.snd)
      let s := if words.any fun e => m.poisoned.contains e.2 then s.countSub (s.owner x.r) else s
      .next s (x.f.setLanes x.lanes v.toNat
        (words.map fun e => (e.1, if m.poisoned.contains e.2 then 0 else m.word e.2))) 1

/-- TSTV as its firing runs it (R156). -/
def tstvWord (v va vv : BitVec 5) (q : BitVec 1) (pm : BitVec 4) (s : State) : State :=
  s.opWord fun x =>
    let m := x.mt s q
    let ver := x.version vv
    let l := m.verLanes ver slotStore (x.addrs va false pm)
    x.versionedOp s m ver l fun g =>
      .next (s.modMtile x.r q.toNat fun m =>
        g.foldl (fun m e => m.fillSlot s.now e.2.1.base e.2.2 ver (lane (x.reg v) e.1)) (m.correctAll (lanesTags m l))) x.f 1

/-- TLDV (R156). -/
def execTldv (v va vv : BitVec 5) (q : BitVec 1) (pm : BitVec 4) (s : State) : Host.Outcome State Fault Refusal :=
  .next (tldvWord v va vv q pm s)
/-- TSTV (R156). -/
def execTstv (v va vv : BitVec 5) (q : BitVec 1) (pm : BitVec 4) (s : State) : Host.Outcome State Fault Refusal :=
  .next (tstvWord v va vv q pm s)

/-- TRCL (R157): never waits; misses are counted once and told in the miss mask. -/
def execTrcl (va vv : BitVec 5) (q : BitVec 1) (mk : BitVec 2) (pm : BitVec 4) (s : State) :
    Host.Outcome State Fault Refusal :=
  .next (s.opWord fun x =>
    let m := x.mt s q
    let ver := x.version vv
    let l := m.verLanes ver slotReclaim (x.addrs va false pm)
    match lanesFault l with
    | some (a, c, sub) => laneFault s c sub a
    | none =>
      let g := lanesGo l
      let missed := l.filter fun e => !(g.any fun h => h.1 == e.1)
      let s := s.modMtile x.r q.toNat fun m =>
        g.foldl (fun m e => m.emptySlot s.now e.2.1.base e.2.2 ver) (m.correctAll (lanesTags m l))
      let s := if missed.isEmpty then s else s.defer (.miss x.r q.toNat)
      let f := if mk = 0 then x.f else
        x.f.setMask mk.toNat ((List.range x.lanes).map fun i =>
          if x.selects pm i then missed.any fun e => e.1 == i else (x.f.mask x.lanes mk.toNat).getD i false)
      .next s f 1)

/-! ### Windows (R160 to R164) -/

/-- The fields of a window descriptor (R160). -/
structure Window where
  nx     : Nat
  ny     : Nat
  row0   : Nat
  fmt    : Nat
  hy     : Nat
  hx     : Nat
  npol   : Nat
  spol   : Nat
  wpol   : Nat
  epol   : Nat
  vreg   : Nat
  wreg   : Nat
  const  : Nat
  deriving DecidableEq, Repr

/-- A window from its descriptor (R160). -/
def windowOf (d : Nat) : Window where
  nx := bits d 80 16
  ny := bits d 64 16
  row0 := bits d 48 16
  fmt := bits d 44 4
  hy := bits d 42 2
  hx := bits d 40 2
  npol := bits d 38 2
  spol := bits d 36 2
  wpol := bits d 34 2
  epol := bits d 32 2
  vreg := bits d 29 3
  wreg := bits d 26 3
  const := bits d 96 32

/-- The element width. -/
def Window.width (w : Window) : Nat := if w.fmt = 0 then 32 else 16
/-- Elements in a word. -/
def Window.per (w : Window) : Nat := 32 / w.width
/-- Versioned words in a row, RW of R160. -/
def Window.rowWords (w : Window) : Nat := ceilDiv (w.nx * w.width) 32
/-- Whether the rows are periodic. -/
def Window.periodic (w : Window) : Bool := w.npol == 3
/-- The centre at the start of a pass (R162). -/
def Window.start (w : Window) : Nat := if w.periodic then w.hy else 0
/-- The versioned index of word `j` of stream row `s` (R161). -/
def Window.index (w : Window) (s j : Nat) : Nat := s / 2 % (w.hy + 1) * w.rowWords + j

/-- The window of a memory tile. -/
def MTile.window (m : MTile) (j : Nat) : Window := windowOf (nth 0 m.wins j)
/-- The state of a window. -/
def MTile.winState (m : MTile) (j : Nat) : WinState := (mapFind m.win j).getD ⟨(m.window j).start, 0, 0⟩
/-- The first word of a region by its map index, and its TOL. -/
def MTile.baseOf (m : MTile) (i : Nat) : Nat × Bool := let g := mapEntry i (nth 0 m.map i); (g.base, g.tol)

/-- A coordinate outside its range under an edge policy; nothing under the constant policy (R163). -/
def ghost (x : Int) (n pol : Nat) : Option Int :=
  if pol = 1 then some (if x < 0 then 0 else (n : Int) - 1)
  else if pol = 2 then some (if x < 0 then -x else 2 * ((n : Int) - 1) - x)
  else if pol = 3 then some (x % (n : Int))
  else none

/-- Where an element of a window read comes from: the constant, the wrap region, a stream row, or a column that the
edge policy leaves outside the row. DESIGN CHOICE (log 61), safe. -/
inductive WinSrc where
  | const
  | wrap (word elem : Nat)
  | row (s word elem : Nat)
  | outside

/-- The source of the element at a row and column (R163). -/
def Window.source (w : Window) (row col : Int) : WinSrc :=
  let nx : Int := w.nx
  let ny : Int := w.ny
  let col' := if col < 0 then ghost col w.nx w.wpol else if col > nx - 1 then ghost col w.nx w.epol else some col
  let row' := if w.periodic then some row
    else if row < 0 then ghost row w.ny w.npol else if row > ny - 1 then ghost row w.ny w.spol else some row
  match row', col' with
  | some y, some x =>
    if x < 0 ∨ x > nx - 1 ∨ y < 0 then .outside
    else
      let j := x.toNat / w.per
      let e := x.toNat % w.per
      if w.periodic ∧ y ≥ ny then .wrap ((y - ny).toNat * w.rowWords + j) e else .row y.toNat j e
  | _, _ => .const

/-- What an element of a window read gives. -/
inductive ElemRes where
  | val (v : Nat) (sub : Bool)
  | wait
  | bad (cause sub addr : Nat)

/-- One element of a window read; `free` is the value where the manual states none. -/
def MTile.winElem (m : MTile) (w : Window) (now : Nat) (waiting : Bool) (free : Nat) : WinSrc → ElemRes
  | .const => .val w.const false
  | .outside => .val free false
  | .wrap j e =>
    let (b, tol) := m.baseOf w.wreg
    if m.poisoned.contains (b + j) then (if tol then .val 0 true else .bad 13 0 (b + j))
    else .val (elemOf w.width e (m.word (b + j))) false
  | .row s j e =>
    let (b, tol) := m.baseOf w.vreg
    let k := w.index s j
    let v := s % 256
    if m.poisoned.contains (b + 3 * k + 2) then .bad 13 0 (b + k)
    else match slotLoad (m.slot b k v).1 (m.slot b k v).2 v with
      | .perform =>
        if waiting && !m.settled now b k v then .wait
        else if m.poisoned.contains (slotWord b k v) then (if tol then .val 0 true else .bad 13 0 (b + k))
        else .val (elemOf w.width e (m.word (slotWord b k v))) false
      | .fault c sub => .bad c sub (b + k)
      | _ => .wait

/-- The words of a memory tile that an element of a window read reads: data and tag. -/
def MTile.winWords (m : MTile) (w : Window) : WinSrc → List Nat
  | .wrap j _ => [(m.baseOf w.wreg).1 + j]
  | .row s j _ =>
    let b := (m.baseOf w.vreg).1
    [slotWord b (w.index s j) (s % 256), b + 3 * w.index s j + 2]
  | _ => []

/-- WLD as its firing runs it (R163): a lane with an element that is substituted reads zero (R167). -/
def wldWord (vd va : BitVec 5) (q win : BitVec 1) (dy dx : BitVec 3) (pm : BitVec 4) (s : State) : State :=
  s.opWord fun x =>
    let m := x.mt s q
    let w := m.window win.toNat
    let row : Int := (m.winState win.toNat).centre + ((dy.toNat : Int) - 3)
    let col0 := signed 32 (x.lane0 va)
    let src (i e : Nat) : WinSrc := w.source row (col0 + ((i * w.per + e : Nat) : Int) + ((dx.toNat : Int) - 3))
    let res := (x.active pm).map fun i => (i, (List.range w.per).map fun e =>
      m.winElem w s.now x.f.waiting (Config.freeWord (s.nextId + (i * w.per + e))).toNat (src i e))
    let all := res.flatMap Prod.snd
    match all.findSome? fun e => match e with
      | .bad c sub a => some (c, sub, a)
      | _ => none with
    | some (c, sub, a) => laneFault s c sub a
    | none =>
      if all.any fun e => match e with
        | .wait => true
        | _ => false
      then .stall s x.f 1
      else
        let substituted (l : List ElemRes) : Bool := l.any fun e => match e with
          | .val _ b => b
          | _ => false
        let s := { s with nextId := s.nextId + x.lanes * w.per }.modMtile x.r q.toNat fun m =>
          m.correctAll ((x.active pm).flatMap fun i => (List.range w.per).flatMap fun e => m.winWords w (src i e))
        let s := if substituted all then s.countSub (s.owner x.r) else s
        .next s (x.f.setLanes x.lanes vd.toNat (res.map fun e =>
          (e.1, if substituted e.2 then 0 else BitVec.ofNat 32 (packElems w.width (e.2.map fun v => match v with
            | .val n _ => n
            | _ => 0))))) 1

/-- WLD (R163). -/
def execWld (vd va : BitVec 5) (q win : BitVec 1) (dy dx : BitVec 3) (pm : BitVec 4) (s : State) :
    Host.Outcome State Fault Refusal := .next (wldWord vd va q win dy dx pm s)

/-- A row of a window is reclaimed (R155, R164): the slots that hold its version are emptied. -/
def MTile.reclaimRow (m : MTile) (w : Window) (now row : Nat) : MTile :=
  let b := (m.baseOf w.vreg).1
  (List.range w.rowWords).foldl (fun m j =>
    let k := w.index row j
    match slotReclaim (m.slot b k (row % 256)).1 (m.slot b k (row % 256)).2 (row % 256) with
    | .perform => m.emptySlot now b k (row % 256)
    | _ => m) m

/-- The versioned address and fault of the first word of a row whose reclaim the slot rules refuse, or whose tag or, where
it is copied to the wrap region, whose data cannot be read (R155, R167). -/
def MTile.reclaimFault (m : MTile) (w : Window) (row : Nat) (copied : Bool) : Option (Nat × Nat × Nat) :=
  let (b, tol) := m.baseOf w.vreg
  (List.range w.rowWords).findSome? fun j =>
    let k := w.index row j
    if m.poisoned.contains (b + 3 * k + 2) then some (b + k, 13, 0)
    else if copied && !tol && m.poisoned.contains (slotWord b k (row % 256)) then some (b + k, 13, 0)
    else match slotReclaim (m.slot b k (row % 256)).1 (m.slot b k (row % 256)).2 (row % 256) with
      | .fault c sub => some (b + k, c, sub)
      | _ => none

/-- A row is copied into the wrap region (R164). -/
def MTile.copyRow (m : MTile) (w : Window) (row : Nat) : MTile :=
  let b := (m.baseOf w.vreg).1
  let d := (m.baseOf w.wreg).1
  (List.range w.rowWords).foldl (fun m j =>
    let from_ := slotWord b (w.index row j) (row % 256)
    m.setWord (d + row * w.rowWords + j) (if m.poisoned.contains from_ then 0 else m.word from_)) m

/-- Whether some word of a row is still held (R164). -/
def MTile.holdsRow (m : MTile) (w : Window) (row : Nat) : Bool :=
  (List.range w.rowWords).any fun j =>
    let (full, h) := m.slot (m.baseOf w.vreg).1 (w.index row j) (row % 256)
    full && h == row % 256

/-- The words that taking a row out of a window reads: its tags and, where it is copied, its data. -/
def MTile.rowWords (m : MTile) (w : Window) (row : Nat) (copied : Bool) : List Nat :=
  let b := (m.baseOf w.vreg).1
  (List.range w.rowWords).flatMap fun j =>
    (b + 3 * w.index row j + 2) :: (if copied then [slotWord b (w.index row j) (row % 256)] else [])

/-- WADV (R164): at the end of a pass every row still held is reclaimed, also one that entered after its own turn.
DEDUCED (log 63), unsafe. -/
def execWadv (q win : BitVec 1) (s : State) : Host.Outcome State Fault Refusal :=
  .next (s.opWord fun x =>
    let m := x.mt s q
    let w := m.window win.toNat
    let st := m.winState win.toNat
    let c := st.centre
    let old := if c ≥ w.hy then [c - w.hy] else []
    let wraps (row : Nat) : Bool := w.periodic && decide (row < 2 * w.hy)
    let ended := decide (c + 1 = w.start + w.ny)
    let rows := if ended then old ++ (List.range (w.ny - (c + 1 - w.hy))).map (c + 1 - w.hy + ·) ++
        (List.range (c - w.hy)).filter (m.holdsRow w)
      else old
    match rows.findSome? fun row => m.reclaimFault w row (wraps row && old.contains row) with
    | some (a, cause, sub) => laneFault s cause sub a
    | none =>
      let sub := old.any fun row => wraps row && (List.range w.rowWords).any fun j =>
        m.poisoned.contains (slotWord (m.baseOf w.vreg).1 (w.index row j) (row % 256))
      let s := s.modMtile x.r q.toNat fun m =>
        let m := m.correctAll (rows.flatMap fun row => m.rowWords w row (wraps row && old.contains row))
        let m := (old.filter wraps).foldl (fun m row => m.copyRow w row) m
        let m := rows.foldl (fun m row => m.reclaimRow w s.now row) m
        let st' : WinState := if ended then ⟨w.start, 0, 0⟩ else { st with centre := c + 1 }
        { m with win := mapSet m.win win.toNat st' }
      .next (if sub then s.countSub (s.owner x.r) else s) x.f 1)

/-- VERSIONED_WAIT_RESUME (R150, R36): the versioned access or window read that the firing of the cell in focus waits at
is evaluated again. -/
def execVersionedWaitResume (s : State) : Host.Outcome State Fault Refusal :=
  let c := s.cell s.foc.unit s.foc.sub
  .next (match c.firing with
    | none => s
    | some f =>
      if f.waiting ∧ f.nextAt ≤ s.now then
        match decodeOperation (mapGet 0 c.store f.pc) with
        | .ok (.tldv v va vv q pm) => tldvWord v va vv q pm s
        | .ok (.tstv v va vv q pm) => tstvWord v va vv q pm s
        | .ok (.wld vd va q win dy dx pm) => wldWord vd va q win dy dx pm s
        | _ => s
      else s)

/-! ### Rows that enter a window (R161) -/

/-- The item that waits at local output `k` of tile `r` for its generator, window or queue region. -/
def State.waitingAt (s : State) (r k : Nat) : Option Item := peekHead s.now (mapGet [] (s.router r).outq k)
/-- The item at local output `k` is taken. -/
def State.takeOut (s : State) (r k : Nat) : State :=
  (s.modRouter r fun t => { t with outq := mapPut [] t.outq k ((mapGet [] t.outq k).drop 1) }).touch r

/-- How the versioned stores of a token's words stand: all may perform, some wait, or one faults. -/
def MTile.rowStore (m : MTile) (w : Window) (now row : Nat) (js : List Nat) : SlotAct :=
  let b := (m.baseOf w.vreg).1
  let v := row % 256
  js.foldl (fun acc j =>
    let k := w.index row j
    match acc with
    | .fault c sub => .fault c sub
    | a =>
      if m.poisoned.contains (b + 3 * k + 2) then .fault 13 0
      else match slotStore (m.slot b k v).1 (m.slot b k v).2 v with
        | .fault c sub => .fault c sub
        | .perform => if m.settled now b k v then a else .wait
        | _ => .wait) .perform

/-- WINDOW_ROW_ARRIVAL (R161): the token at the local output in focus enters its window as versioned stores, or waits for
its slots or for the next pass. Markers and barriers are consumed. -/
def execWindowRowArrival (s : State) : Host.Outcome State Fault Refusal :=
  let r := s.foc.unit
  let k := s.foc.sub
  let code := (s.router r).dest k
  .next (
    if codeKind code ≠ 3 then s
    else
      let q := bits code 1 1
      let j := bits code 0 1
      let m := s.mtile r q
      let w := m.window j
      let st := m.winState j
      match s.waitingAt r k with
      | none => s
      | some (.splice _) => s
      | some (.data toks _) =>
        if st.row ≥ w.ny then s
        else
          let js := (List.range (Nat.min 8 (w.rowWords - st.word))).map (st.word + ·)
          match m.rowStore w s.now st.row js with
          | .perform =>
            let b := (m.baseOf w.vreg).1
            let next := st.word + 8
            (s.takeOut r k).modMtile r q fun m =>
              let m := m.correctAll (js.map fun i => b + 3 * w.index st.row i + 2)
              let m := js.foldl (fun m i => m.fillSlot s.now b (w.index st.row i) (st.row % 256)
                (BitVec.ofNat 32 (bits (toks.getD 0 0) (32 * (i - st.word)) 32))) m
              let st' : WinState :=
                if next ≥ w.rowWords then { st with row := st.row + 1, word := 0 } else { st with word := next }
              { m with win := mapSet m.win j st' }
          | .fault c _ => s.bumpId.fabricFault r (.mtile q) c (Config.freeWord s.nextId)
          | _ => s
      | some _ => s.takeOut r k)

/-! ### Queue regions (R165) -/

/-- Whether a code word is a RECV or SEND on queue `q` with map index `i`. -/
def wordNamesQueue (w : Word) (q i : Nat) : Bool :=
  let op := bits w.toNat 26 6
  (op == 0x24 || op == 0x25) && bits w.toNat 16 5 == 20 + q && bits w.toNat 8 3 == i
/-- The fused size of a queue's items: that of the cell whose code uses it, else 1. -/
def Fabric.queueSize (f : Fabric) (q i : Nat) : Nat :=
  ((f.cells.find? fun e => e.2.code.any fun w => wordNamesQueue w q i).map fun e => e.2.size).getD 1
/-- The items a queue region of fused size `n` holds. -/
def MapRegion.capacity (g : MapRegion) (n : Nat) : Nat := g.len / (8 * n)
/-- A queue of a memory tile. -/
def MTile.queue (m : MTile) (i : Nat) : QState := mapGet ⟨0, []⟩ m.queues i
/-- The first word of token `j` of the item at position `p` of a queue of fused size `n`. -/
def MapRegion.tokenWord (g : MapRegion) (h : QState) (n p j : Nat) : Nat :=
  g.base + (h.head + p) % g.capacity n * (8 * n) + 8 * j
/-- Token `j` of the item at position `p`, poisoned words reading zero. -/
def MTile.queueToken (m : MTile) (g : MapRegion) (h : QState) (n p j : Nat) : Nat :=
  packElems 32 ((List.range 8).map fun i =>
    let w := g.tokenWord h n p j + i
    if m.poisoned.contains w then 0 else (m.word w).toNat)
/-- The memory tile with a token written at position `p` of a queue. -/
def MTile.setQueueToken (m : MTile) (g : MapRegion) (h : QState) (n p j tok : Nat) : MTile :=
  (List.range 8).foldl (fun m i => m.setWord (g.tokenWord h n p j + i) (BitVec.ofNat 32 (bits tok (32 * i) 32))) m
/-- The memory tile with an item appended to a queue of fused size `n`. -/
def MTile.pushQueue (m : MTile) (g : MapRegion) (n now : Nat) (i : Item) : MTile :=
  let h := m.queue g.idx
  let p := h.items.length
  let m := (List.range n).foldl (fun (m : MTile) j => m.setQueueToken g h n p j (i.toks.getD j 0)) m
  let came := match i with
    | .data l _ => l.length
    | _ => n
  let fmt := match i with
    | .data _ f => f
    | _ => 0
  { m with queues := mapSet m.queues g.idx { h with items := h.items ++ [⟨i.tag, fmt, came, 0, now + 1⟩] } }
/-- The memory tile without the first `c` items of a queue. -/
def MTile.popQueue (m : MTile) (g : MapRegion) (n c : Nat) : MTile :=
  let h := m.queue g.idx
  { m with queues := mapSet m.queues g.idx ⟨(h.head + c) % g.capacity n, h.items.drop c⟩ }
/-- The item at position `p` of a queue as a cell takes it. -/
def MTile.queueItem (m : MTile) (g : MapRegion) (h : QState) (n p : Nat) : Option Item :=
  (h.items[p]?).map fun e =>
    if e.tag > 0 then .marker e.tag else .data ((List.range n).map fun j => m.queueToken g h n p j) e.fmt
/-- Whether an item of a queue counts. -/
def QEntry.present (e : QEntry) (now n : Nat) : Bool := decide (e.ready ≤ now ∧ e.gone = 0) && (e.tag > 0 || n ≤ e.came)

/-- A stream's item enters a queue (R165): single tokens join into items, and a marker completes an item (R91). -/
def State.queuePush (s : State) (r k q i : Nat) : State :=
  let m := s.mtile r q
  match m.regionAt i 2, s.waitingAt r k with
  | some g, some it =>
    let n := (s.fab r).queueSize q i
    let h := m.queue i
    let room := decide (h.items.length < g.capacity n)
    let (pre, last) := match unsnoc h.items with
      | some (pre, e) => if e.tag = 0 ∧ e.came < n then (pre, some e) else (h.items, none)
      | none => ([], none)
    match it with
    | .splice _ => s
    | .data toks f =>
      match last with
      | some e =>
        (s.takeOut r k).modMtile r q fun m =>
          let m := m.setQueueToken g h n pre.length e.came (toks.getD 0 0)
          { m with queues := mapSet m.queues i { h with items := pre ++ [{ e with came := e.came + 1, ready := s.now + 1 }] } }
      | none =>
        if room then (s.takeOut r k).modMtile r q fun m => m.pushQueue g n s.now (.data toks f) else s
    | .marker l =>
      if room then
        (s.takeOut r k).modMtile r q fun m =>
          let m := match last with
            | some e =>
              let m := (List.range (n - e.came)).foldl (fun (m : MTile) j => m.setQueueToken g h n pre.length (e.came + j) 0) m
              { m with queues := mapSet m.queues i { h with items := pre ++ [{ e with came := n, ready := s.now + 1 }] } }
            | none => m
          m.pushQueue g n s.now (.marker l)
      else s
    | _ => s.takeOut r k
  | _, _ => s

/-- A stream takes the next token of a queue (R165). -/
def State.queuePop (s : State) (r k q i : Nat) : State :=
  let m := s.mtile r q
  match m.regionAt i 2 with
  | none => s
  | some g =>
    let n := (s.fab r).queueSize q i
    let h := m.queue i
    match h.items with
    | [] => s
    | e :: rest =>
      if !(decide (e.ready ≤ s.now) && (e.tag > 0 || n ≤ e.came)) then s
      else if e.tag > 0 then
        match s.acceptRouter r (4 + k) 0 (.marker e.tag) with
        | none => s
        | some s => (s.modMtile r q fun m => m.popQueue g n 1).touch r
      else
        let ws := (List.range 8).map (g.tokenWord h n 0 e.gone + ·)
        if m.anyBad ws && !g.tol then s.bumpId.fabricFault r (.mtile q) 13 (Config.freeWord s.nextId)
        else match s.acceptRouter r (4 + k) 0 (.data [m.queueToken g h n 0 e.gone] e.fmt) with
          | none => s
          | some s =>
            let s := if m.anyBad ws then s.countSub (s.owner r) else s
            (s.modMtile r q fun m =>
              let m := m.correctAll ws
              if e.gone + 1 ≥ n then m.popQueue g n 1
              else { m with queues := mapSet m.queues i { h with items := { e with gone := e.gone + 1 } :: rest } }).touch r

/-- STREAM_QUEUE_ACCESS (R165): the stream at the local port in focus pushes into its queue region (`arg` 0) or pops from
it (`arg` 1). -/
def execStreamQueueAccess (s : State) : Host.Outcome State Fault Refusal :=
  let r := s.foc.unit
  let k := s.foc.sub
  let code := if s.foc.arg = 0 then (s.router r).dest k else (s.router r).source k
  .next (
    if codeKind code ≠ 4 then s
    else if s.foc.arg = 0 then s.queuePush r k (bits code 3 1) (bits code 0 3)
    else s.queuePop r k (bits code 3 1) (bits code 0 3))

end Sys2Proof.Machine
end

