-- ==== Sys2Proof/Machine/Scan.lean ====
section
/-!
DEFINITION. Scan engines and the Agate chain: operators, blocks, generations, carries, memory mode, and the SCAN words of
the control core (R195, R234 to R254).
-/

namespace Sys2Proof.Machine

/-! ### Operators (R236) -/

/-- Fixed-point fraction bits in which LSE is computed. -/
def lseBits : Nat := 512
/-- The sum of xⁿ/n! from term `t` = xᵏ⁻¹/(k − 1)! on, in fixed point of `lseBits`. -/
def lseExp (x : Nat) : Nat → Nat → Nat → Nat
  | 0, _, _ => 0
  | n + 1, k, t => t + lseExp x n (k + 1) ((t * x) >>> lseBits / k)
/-- The sum of z^(2k + 1)/(2k + 1) from power `p` on, in fixed point. -/
def lseAtanh (zz : Nat) : Nat → Nat → Nat → Nat
  | 0, _, _ => 0
  | n + 1, k, p => p / (2 * k + 1) + lseAtanh zz n (k + 1) ((p * zz) >>> lseBits)
/-- `x` squared `n` times in fixed point. -/
def lseSquare : Nat → Nat → Nat
  | 0, x => x
  | n + 1, x => lseSquare n ((x * x) >>> lseBits)
/-- ln(1 + e^−d) of a fixed-point d up to 256, in fixed point: e^d by its series at d/2^16 and sixteen squarings, and the
logarithm as 2·atanh(u/(2 + u)). -/
def lseTail (d : Nat) : Nat :=
  let e := lseSquare 16 (lseExp (d >>> 16) 80 1 (2 ^ lseBits))
  let u := 2 ^ (2 * lseBits) / e
  let z := u * 2 ^ lseBits / (2 * 2 ^ lseBits + u)
  2 * lseAtanh ((z * z) >>> lseBits) 240 0 z

/-- ln(e^x + e^y) of two FP32 words, correctly rounded (R236). -/
def lse32 (x y : Nat) : Nat × Conds :=
  match decodeFloat .fp32 x, decodeFloat .fp32 y with
  | .nan, _ | _, .nan => (canonNaN .fp32, noConds)
  | .inf false, _ | _, .inf false => (infOf .fp32 false, noConds)
  | .inf true, _ => (y, noConds)
  | _, .inf true => (x, noConds)
  | .fin s m e, .fin t n k =>
    let fix (neg : Bool) (m : Nat) (e : Int) : Int :=
      (if neg then -1 else 1) * ((m * 2 ^ (e + lseBits).toNat : Nat) : Int)
    let a := fix s m e
    let b := fix t n k
    let hi := max a b
    let d := (max a b - min a b).toNat
    let sum : Int := 2 * (hi + (if d > 256 * 2 ^ lseBits then 0 else (lseTail d : Nat))) + 1
    roundNE .fp32 (.fin (decide (sum < 0)) sum.natAbs (-(lseBits : Int) - 1))

/-- The exact sum of some products and addends of FP32 words, rounded once; a NaN operand gives NaN with no condition (R42,
R122). -/
def sumOfProducts (ps : List (Nat × Nat)) (adds : List Nat) : Nat × Conds :=
  let nan (x : Nat) : Bool := decodeFloat .fp32 x == .nan
  if ps.any (fun p => nan p.1 || nan p.2) || adds.any nan then (canonNaN .fp32, noConds)
  else
    let prods := ps.map fun p => fmulExact (decodeFloat .fp32 p.1) (decodeFloat .fp32 p.2)
    let bad := prods.any fun p => p.1 == .nan
    let (v, c) := if bad then (.nan, condIV) else fsumExact (prods.map Prod.fst ++ adds.map (decodeFloat .fp32))
    let (r, d) := roundNE .fp32 v
    (r, c.join d)

/-- The words of an element under an operator (R236). -/
def scanWidth (op : Nat) : Nat := if op = 4 then 2 else if op = 5 then 6 else 1

/-- x ∘ y of two elements, x earlier (R236). -/
def scanCombine (op fmt : Nat) (x y : List Nat) : List Nat × Conds :=
  let a := x.getD 0 0
  let b := y.getD 0 0
  let one (r : Nat × Conds) : List Nat × Conds := ([r.1], r.2)
  if op = 0 then
    if fmt = 9 then ([(a + b) % 2 ^ 32], noConds)
    else one (roundOnce .fp32 (faddExact (decodeFloat .fp32 a) (decodeFloat .fp32 b)))
  else if op = 1 then
    if fmt = 9 then ([a * b % 2 ^ 32], noConds)
    else one (roundOnce .fp32 (fmulExact (decodeFloat .fp32 a) (decodeFloat .fp32 b)))
  else if op = 2 then
    if fmt = 9 then ([if signed 32 a < signed 32 b then b else a], noConds) else ([floatPick .fp32 true a b], noConds)
  else if op = 3 then
    if fmt = 9 then ([if signed 32 b < signed 32 a then b else a], noConds) else ([floatPick .fp32 false a b], noConds)
  else if op = 4 then
    let c := y.getD 0 0
    let d := y.getD 1 0
    let (p, k) := roundOnce .fp32 (fmulExact (decodeFloat .fp32 a) (decodeFloat .fp32 c))
    let (q, l) := fma32 (x.getD 1 0) c d
    ([p, q], k.join l)
  else if op = 5 then
    let P (i j : Nat) : Nat := x.getD (2 * i + j) 0
    let Q (i j : Nat) : Nat := y.getD (2 * i + j) 0
    let p (i : Nat) : Nat := x.getD (4 + i) 0
    let q (i : Nat) : Nat := y.getD (4 + i) 0
    let rs := ([(0, 0), (0, 1), (1, 0), (1, 1)].map fun ij =>
        sumOfProducts [(Q ij.1 0, P 0 ij.2), (Q ij.1 1, P 1 ij.2)] []) ++
      [0, 1].map fun i => sumOfProducts [(Q i 0, p 0), (Q i 1, p 1)] [q i]
    (rs.map Prod.fst, rs.foldl (fun c r => c.join r.2) noConds)
  else one (lse32 a b)

/-- Combining with an absent operand returns the other (R237). -/
def scanOp (op fmt : Nat) (x y : Option (List Nat)) (c : Conds) : Option (List Nat) × Conds :=
  match x, y with
  | some a, some b => let (r, d) := scanCombine op fmt a b; (some r, c.join d)
  | some a, none => (some a, c)
  | none, o => (o, c)

/-! ### One block (R238) -/

/-- One step of a prefix tree at distance `d`: every read uses the previous step's values. -/
def prefixStep (op fmt d : Nat) (l : List (Option (List Nat))) (c : Conds) : List (Option (List Nat)) × Conds :=
  (List.range l.length).foldl (fun (acc : List (Option (List Nat)) × Conds) i =>
    if i < d then (acc.1 ++ [l.getD i none], acc.2)
    else
      let (v, c) := scanOp op fmt (l.getD (i - d) none) (l.getD i none) acc.2
      (acc.1 ++ [v], c)) ([], c)
/-- The prefixes of one group of lanes, or of the group totals, by distances that double. -/
def prefixTree (op fmt : Nat) (ds : List Nat) (l : List (Option (List Nat))) (c : Conds) :
    List (Option (List Nat)) × Conds :=
  ds.foldl (fun acc d => prefixStep op fmt d acc.1 acc.2) (l, c)

/-- A block of F groups of eight positions combined with the running carry: each position's result, the new carry, and
the conditions (R238). -/
def scanBlock (op fmt f : Nat) (carry : Option (List Nat)) (xs : List (Option (List Nat))) :
    List (Option (List Nat)) × Option (List Nat) × Conds :=
  let groups := (List.range f).map fun g => (xs.drop (8 * g)).take 8
  let (ls, c) := groups.foldl (fun (acc : List (List (Option (List Nat))) × Conds) g =>
    let (l, c) := prefixTree op fmt [1, 2, 4] g acc.2
    (acc.1 ++ [l], c)) ([], noConds)
  let (tot, c) := prefixTree op fmt ([1, 2, 4, 8].filter fun d => decide (d < f)) (ls.map fun l => l.getD 7 none) c
  let (out, c) := (List.range (8 * f)).foldl (fun (acc : List (Option (List Nat)) × Conds) p =>
    let y := (ls.getD (p / 8) []).getD (p % 8) none
    let (y, c) := if p < 8 then (y, acc.2) else scanOp op fmt (tot.getD (p / 8 - 1) none) y acc.2
    let (v, c) := scanOp op fmt carry y c
    (acc.1 ++ [v], c)) ([], c)
  (out, out.getD (8 * f - 1) none, c)

/-! ### The engine's fields -/

/-- Operator code of the word in force. -/
def Scan.op (g : Scan) : Nat := g.opw.elim 0 fun w => bits w.toNat 0 3
/-- Element format code. -/
def Scan.fmt (g : Scan) : Nat := g.opw.elim 0 fun w => bits w.toNat 4 4
/-- Segment level. -/
def Scan.seg (g : Scan) : Nat := g.opw.elim 0 fun w => bits w.toNat 8 3
/-- Whether the engine is on the chain. -/
def Scan.ch (g : Scan) : Bool := g.opw.elim false fun w => w.toNat.testBit 11
/-- Whether it is the chain's head. -/
def Scan.hd (g : Scan) : Bool := g.opw.elim false fun w => w.toNat.testBit 12
/-- Whether it is the chain's tail. -/
def Scan.tl (g : Scan) : Bool := g.opw.elim false fun w => w.toNat.testBit 13
/-- Words in an element. -/
def Scan.width (g : Scan) : Nat := scanWidth g.op
/-- A chain engine that is not the head waits for carries (R240). -/
def Scan.follows (g : Scan) : Bool := g.ch && !g.hd

/-- The conditions that a combine raises are recorded, visible from the next cycle (R253). -/
def Scan.note (g : Scan) (c : Conds) : Scan := { g with ivNew := g.ivNew || c.iv, ovNew := g.ovNew || c.ov }

/-- The results in the hold buffer (R235, R253). -/
def Scan.heldResults (g : Scan) : Nat := if g.follows then (g.hold.map fun o => o.vals.length).sum else 0

/-- The result tokens and end markers in the output buffer (R244). -/
def outTokens (l : List Held) : Nat := (l.map fun h => h.item.toks.length).sum
/-- The end markers in the output buffer. -/
def outMarkers (l : List Held) : Nat := (l.filter fun h => decide (h.item.tag > 0)).length

/-- Whether nothing in a result block still waits for a carry. -/
def ScanOut.free (o : ScanOut) : Bool := o.vals.all fun v => !v.waits

/-- The tokens of a result block as it leaves: word by word, each word's members in order (R243, R244). -/
def ScanOut.items (o : ScanOut) (w fmt : Nat) : List Item :=
  if o.marker > 0 then [.marker o.marker]
  else (List.range w).map fun j => .data ((List.range o.fused).map fun g =>
    packElems 32 ((List.range 8).map fun i => ((o.vals.getD (8 * g + i) ⟨0, [], false, false⟩).val).getD j 0))
      (if fmt = 9 then 9 else 0)

/-- Whether the output buffer has room for some items, whole. -/
def outRoom (outq : List Held) (l : List Item) : Bool :=
  decide (outTokens outq + (l.map fun i => i.toks.length).sum ≤ 96 ∧
    outMarkers outq + (l.filter fun i => decide (i.tag > 0)).length ≤ 2)

/-- Results and markers at the front that wait for nothing move to the output buffer while it has room (R244). -/
def Scan.flow (g : Scan) (now : Nat) : Nat → Scan
  | 0 => g
  | n + 1 => match g.hold with
    | [] => g
    | o :: rest =>
      let l := o.items g.width g.fmt
      if o.dest.isNone && o.free && outRoom g.outq l then
        ({ g with hold := rest, outq := g.outq ++ l.map fun i => ⟨i, now + 1⟩ } : Scan).flow now n
      else g
/-- The engine after every result that can leave has left. -/
def Scan.settle (g : Scan) (now : Nat) : Scan := g.flow now (g.hold.length + 1)

/-- Generations whose close counts are met close (R239, R240). An engine that waits for no carry stores its carry-out at
once, and the head sends it. -/
def Scan.close (g : Scan) (now : Nat) : Nat → Scan
  | 0 => g
  | n + 1 => match g.closes with
    | k :: rest =>
      if k ≠ g.count then g
      else
        let h := { g with closes := rest, ogen := (g.ogen + 1) % 256, count := 0, carry := none, fell := false }
        (if g.follows then { h with closed := h.closed ++ [⟨g.ogen, g.carry, g.fell⟩] }
         else { h with
           last := some (g.ogen, g.carry),
           link := if g.ch && !g.tl then h.link ++ [⟨g.ogen, bits (g.opw.getD 0).toNat 0 8, g.carry, now + 4⟩]
             else h.link } : Scan).close now n
    | [] => g
/-- The engine after its generations that have ended have closed. -/
def Scan.closeAll (g : Scan) (now : Nat) : Scan := g.close now (g.closes.length + 1)

/-- The positions of a block from `from_` on are combined, generation by generation (R238, R239): the results so far and
the engine. -/
def Scan.combineFrom (g : Scan) (now f : Nat) (xs : List (Option (List Nat))) : Nat → Nat → List ScanVal → Scan × List ScanVal
  | 0, _, acc => (g, acc)
  | n + 1, from_, acc =>
    let present := (xs.filter Option.isSome).length
    if from_ ≥ present then (g, acc)
    else
      let g := g.closeAll now
      let upTo := match g.closes with
        | k :: _ => Nat.min present (from_ + (k - g.count))
        | [] => present
      let part := (List.range (8 * f)).map fun p => if from_ ≤ p ∧ p < upTo then xs.getD p none else none
      let (out, carry, c) := scanBlock g.op g.fmt f g.carry part
      let vals := (List.range (upTo - from_)).map fun i =>
        ⟨g.ogen, (out.getD (from_ + i) none).getD [], g.follows && !g.fell, g.follows && !g.fell⟩
      let g := ({ g with carry := carry, count := g.count + (upTo - from_) } : Scan).note c
      g.combineFrom now f xs n upTo (acc ++ vals)

/-- A block enters the engine: its results stand in the hold buffer, or leave at once (R240). -/
def Scan.takeBlock (g : Scan) (now f : Nat) (elems : List (List Nat)) (dest : Option (Nat × Nat)) : Scan :=
  let xs := (List.range (8 * f)).map fun p => elems[p]?
  let (g, vals) := g.combineFrom now f xs (elems.length + 1) 0 []
  (({ g with hold := g.hold ++ [⟨f, 0, vals, dest⟩] } : Scan).closeAll now).settle now

/-- Whether the engine can take in a block of `n` elements: its hold buffer has room, or, where results leave at once, the
last block has left (R240, R244). -/
def Scan.canTake (g : Scan) (n : Nat) : Bool :=
  g.opw.isSome && !g.stopped && (if g.follows then decide (g.heldResults + n ≤ 4096) else g.hold.isEmpty)

/-! ### Role and events -/

/-- Whether some actor code of a tile holds an SCNP word: its engine then has the compaction role (R234). -/
def Fabric.compacts (f : Fabric) : Bool := f.cells.any fun e => e.2.code.any fun w => bits w.toNat 26 6 == 0x3C

/-- The run with an identifier. -/
def Scan.run? (g : Scan) (id : Nat) : Option ScanRun := g.runs.find? fun x => x.id == id
/-- The engine with a run changed. -/
def Scan.modRun (g : Scan) (id : Nat) (f : ScanRun → ScanRun) : Scan :=
  { g with runs := g.runs.map fun x => if x.id = id then f x else x }

/-- The elements of a run that can form its next block: 128, or the last ones once all are read. -/
def ScanRun.nextBlock (x : ScanRun) (w : Nat) : Option (List (List Nat)) :=
  let n := x.words.length / w
  if n ≥ 128 then some ((List.range 128).map fun i => (x.words.drop (w * i)).take w)
  else if n > 0 ∧ x.read = w * x.count then some ((List.range n).map fun i => (x.words.drop (w * i)).take w)
  else none

/-- A command of core `r`, or of a scan task, ends: oc.tl falls, or the task completes by its own event (R246, R298). -/
def State.runEnds (s : State) (r : Nat) (x : ScanRun) : State :=
  let s := s.modScan r fun g => { g with runs := g.runs.filter fun y => decide (y.id ≠ x.id) }
  match x.task with
  | none => s.modCore r fun c => { c with ocTl := c.ocTl - 1 }
  | some _ => s

/-- Whether an input is a SCCIN that has still to take effect. -/
def ScanIn.isCarry : ScanIn → Bool
  | .carry _ _ _ _ => true
  | _ => false

/-- The engine as after a SCOP with the operator word `w` (R245). -/
def Scan.restart (g : Scan) (w : Option DWord) : Scan :=
  { g with opw := w, ogen := 0, count := 0, closes := [], carry := none, fell := false,
           inq := g.inq.filter fun i => !i.isCarry, hold := [], closed := [], last := none, stopped := false }

/-- The engine of tile `r` restarts; carries received but not applied are judged again as they arrive (R240, R250). -/
def State.restartScan (s : State) (r : Nat) (w : Option DWord) : State :=
  let early := (s.scan r).chainIn
  let s := s.modScan r fun g => { g.restart w with chainIn := [] }
  if r = 0 ∨ early.isEmpty then s else s.modScan (r - 1) fun h => { h with link := early ++ h.link }

/-- A scan task ends with a status (R285, R298). -/
def State.taskStatus (s : State) (id status : Nat) : State :=
  { s with tasks := s.tasks.map fun (k : Task) => if k.id = id then { k with status := status } else k }

/-- A command whose word at byte `b` of memory tile `q` cannot be read ends, and with it all that the engine still held
(R246). -/
def State.runFails (s : State) (r : Nat) (x : ScanRun) (b : Nat) : State :=
  let runs := (s.scan r).runs
  let p := mkPtr 1 (x.q * 2 ^ 20 + b)
  let s := (s.restartScan r (s.scan r).opw).modScan r fun g => { g with inq := [] }
  let s := runs.foldl (fun s y => s.runEnds r y) s
  match x.task with
  | none => s.raise r (s.core r).level 13 p
  | some t => match s.owner r with
    | some q => (s.raiseSteward q 13 p).taskStatus t 1
    | none => s.taskStatus t 1

/-- The run whose results stand first in the hold buffer and wait for nothing. -/
def Scan.toWrite (g : Scan) : Option ScanRun :=
  match g.hold with
  | o :: _ => if o.free then o.dest.bind fun d => g.run? d.1 else none
  | [] => none
/-- The run at the head of the input, where it can be read on: up to one block ahead of what is combined, and once the accesses
that it releases have performed (R388). -/
def State.toRead (s : State) (r : Nat) : Option ScanRun :=
  let g := s.scan r
  match g.inq with
  | .run id :: _ => (g.run? id).filter fun x =>
      decide (x.read < g.width * x.count ∧ x.words.length < 128 * g.width) && !g.stopped && s.performed x.accs &&
        !s.joinActive r x.before
  | _ => none
/-- The memory tile that the engine of tile `r` accesses next in memory mode. -/
def State.scanTile (s : State) (r : Nat) : Option Nat := ((s.scan r).toWrite.or (s.toRead r)).map ScanRun.q

/-- Up to 8 words of the results that stand first are written over their elements. -/
def State.writeRun (s : State) (r : Nat) (x : ScanRun) : State :=
  let g := s.scan r
  let w := g.width
  match g.hold with
  | ⟨_, _, vals, some (_, first)⟩ :: rest =>
    let flat := vals.flatMap ScanVal.val
    let at_ := x.wrote - w * first
    let part := (flat.drop at_).take 8
    let s := s.modMtile r x.q fun m => m.write (x.byte + 4 * x.wrote) (4 * part.length) (packElems 32 part)
    let g := g.modRun x.id fun x => { x with wrote := x.wrote + part.length }
    let s := s.modScan r fun _ => ({ g with hold := if at_ + part.length ≥ flat.length then rest else g.hold } : Scan).settle s.now
    if x.wrote + part.length ≥ w * x.count then s.runEnds r x else s
  | _ => s
/-- Up to 8 words of a run are read. A bad word reads as zero in a tolerant region, and ends the run in any other. -/
def State.readRun (s : State) (r : Nat) (x : ScanRun) : State :=
  let n := Nat.min 8 ((s.scan r).width * x.count - x.read)
  let b := x.byte + 4 * x.read
  let ws := wordsOf b (4 * n)
  let m := s.mtile r x.q
  let bad := ws.filter m.poisoned.contains
  if !bad.isEmpty ∧ !((m.regionOf (b / 4)).any MapRegion.tol) then s.runFails r x (4 * bad.headD 0)
  else
    let v := m.tolerant b (4 * n)
    let s := if bad.isEmpty then s else s.countSubs (s.owner r) bad.length
    (s.modScan r fun g => g.modRun x.id fun x => { x with
      read := x.read + n, words := x.words ++ (List.range n).map fun i => bits v (32 * i) 32 }).modMtile r x.q fun m => m.correctAll ws

/-- SCAN_MEMORY_TRANSFER (R246): one access of up to 8 words through port E, at most one in a cycle: results that wait for nothing
are written, else the command at the head of the input is read on. -/
def execScanMemoryTransfer (s : State) : Host.Outcome State Fault Refusal :=
  let r := s.foc.unit
  let g := s.scan r
  let used (s : State) : State :=
    (s.modScan r fun g => { g with portAt := s.now + 1, acct := g.acct.enter 0 s.now }).touch r
  .next (
    if (s.fab r).frozen ∨ s.now < g.portAt then s
    else match g.toWrite with
      | some x => used (s.writeRun r x)
      | none => match s.toRead r with
        | some x => used (s.readRun r x)
        | none => s)

/-- The words of a carry record in spaces 1 and 4, or the cause and subcode of the failure (R247). -/
def State.carryRecord (s : State) (r : Nat) (p : DWord) : Except (Nat × Option Nat) (State × Nat) :=
  match ptrFault [1, 4] (s.core r).level 32 p with
  | some c => .error (c, none)
  | none =>
    if ptrSpace p = 4 then
      match privFault (s.core r) p with
      | some c => .error (c, none)
      | none =>
        let (v, bad) := s.locRead (.priv r (ptrOff p)) 32
        if bad then .error (13, none) else .ok (s, v)
    else
      let (q, off) := tilePart p
      let m := s.mtile r q
      match m.plainRegion (wordsOf off 32) with
      | .error sub => .error (6, some sub)
      | .ok g =>
        let ws := wordsOf off 32
        if m.anyBad ws then
          if g.any MapRegion.tol then .ok (s.countSub (s.owner r), m.tolerant off 32) else .error (13, none)
        else .ok (s.modMtile r q fun m => m.correctAll ws, readVal m.mem off 32)

/-- The carry that a record of an operator of width `w` holds. -/
def carryOf (w v : Nat) : Option (List Nat) :=
  if v.testBit (6 * 32 + 8) then some ((List.range w).map fun i => bits v (32 * i) 32) else none

/-- SCCIN takes effect behind what stood at the input before it: C of the open generation becomes the value. A record that has
become unreadable is an event of its cause (R247, R388). DEDUCED (log 131), unsafe. -/
def State.takeCarry (s : State) (r : Nat) (p : DWord) (rest : List ScanIn) : State :=
  match s.carryRecord r p with
  | .error (c, sub) => (s.modScan r fun g => { g with inq := rest }).raise r (s.core r).level c (sub.elim p (ptrSub p))
  | .ok (s, v) => s.modScan r fun g => { g with inq := rest, carry := carryOf g.width v }

/-- SCAN_BLOCK_COMBINE (R238, R239, R241, R247): the engine in focus takes in the next block, marker or SCCIN of its input. -/
def execScanBlockCombine (s : State) : Host.Outcome State Fault Refusal :=
  let r := s.foc.unit
  let g := s.scan r
  let busy (g : Scan) : State := (s.modScan r fun _ => { g with acct := g.acct.enter 0 s.now }).touch r
  .next (
    if (s.fab r).compacts ∨ (s.fab r).frozen then s
    else match g.inq with
      | [] => s
      | .block f elems :: rest =>
        if g.canTake elems.length then busy (({ g with inq := rest } : Scan).takeBlock s.now f elems none) else s
      | .marker l :: rest =>
        if g.opw.isSome ∧ !g.stopped then
          let ends := decide (g.seg ≠ 0 ∧ g.seg ≤ l)
          (s.modScan r fun g => ({ g with
            inq := rest, carry := if ends then none else g.carry, fell := g.fell || ends,
            hold := g.hold ++ [⟨0, l, [], none⟩] } : Scan).settle s.now).touch r
        else s
      | .carry _ p accs before :: rest =>
        if s.performed accs ∧ !s.joinActive r before then s.takeCarry r p rest else s
      | .run id :: rest =>
        match g.run? id with
        | none => busy { g with inq := rest }
        | some x =>
          match x.nextBlock g.width with
          | none => s
          | some elems =>
            if g.canTake elems.length then
              let first := x.read / g.width - x.words.length / g.width
              let g := g.modRun id fun x => { x with words := x.words.drop (g.width * elems.length) }
              let done := decide (first + elems.length = x.count)
              busy (({ g with inq := if done then rest else g.inq } : Scan).takeBlock s.now 16 elems (some (id, first)))
            else s)

/-- The generation of the next carry that an engine expects (R240). -/
def Scan.expects (g : Scan) : Nat :=
  (((g.closed.head?.map Closed.gen).getD g.ogen) + g.chainIn.length) % 256

/-- CARRY_ARRIVAL (R240, R250): the first carry on the link from rank − 1 reaches the engine in focus.
DEDUCED (log 70), unsafe. -/
def execCarryArrival (s : State) : Host.Outcome State Fault Refusal :=
  let r := s.foc.unit
  let g := s.scan r
  .next (
    if r = 0 then s
    else match (s.scan (r - 1)).link with
      | [] => s
      | c :: rest =>
        if c.at_ > s.now ∨ !g.ch ∨ g.chainIn.length ≥ 4 then s
        else
          let s := (s.modScan (r - 1) fun h => { h with link := rest }).touch r
          if g.hd ∨ c.gen ≠ g.expects ∨ c.op ≠ bits (g.opw.getD 0).toNat 0 8 then
            (s.modScan r fun g => { g with stopped := true }).raiseAt r 18 (BitVec.ofNat 64 (c.gen * 2 ^ 8 + 4)) 3
          else s.modScan r fun g => { g with chainIn := g.chainIn ++ [c] })

/-- A carry-in meets the held results of its generation (R240). -/
def Scan.applyCarry (g : Scan) (now : Nat) : Scan :=
  match g.closed, g.chainIn with
  | d :: ds, c :: cs =>
    if d.gen ≠ c.gen then g
    else
      let fix (acc : List ScanOut × Conds) (o : ScanOut) : List ScanOut × Conds :=
        let (vals, k) := o.vals.foldl (fun (a : List ScanVal × Conds) v =>
          if v.gen = d.gen && v.waits then
            let (x, k) := if v.takes then scanOp g.op g.fmt c.value (some v.val) a.2 else (some v.val, a.2)
            (a.1 ++ [{ v with val := x.getD [], waits := false }], k)
          else (a.1 ++ [v], a.2)) ([], acc.2)
        (acc.1 ++ [{ o with vals := vals }], k)
      let (hold, k) := g.hold.foldl fix ([], noConds)
      let (out, k) := if d.reset then (d.carry, k) else scanOp g.op g.fmt c.value d.carry k
      (({ g with
        hold := hold, closed := ds, chainIn := cs, last := some (d.gen, out),
        link := if g.tl then g.link else g.link ++ [⟨d.gen, bits (g.opw.getD 0).toNat 0 8, out, now + 4⟩] } : Scan).note k).settle
        now
  | _, _ => g

/-- CARRY_APPLY (R240): the held results of the oldest closed generation of the engine in focus are combined with its
carry-in. -/
def execCarryApply (s : State) : Host.Outcome State Fault Refusal :=
  let r := s.foc.unit
  .next (
    if (s.fab r).frozen ∨ (s.scan r).closed.isEmpty ∨ (s.scan r).chainIn.isEmpty then s
    else (s.modScan r fun g => (g.applyCarry s.now)).touch r)

/-! ### SCAN words of the control core (R245 to R249) -/

/-- Whether an engine can be used by a word other than SCOP (R245). -/
def State.scanUnusable (s : State) (r : Nat) : Bool := (s.fab r).compacts || (s.scan r).opw.isNone

/-- Whether the engine still holds an element, a held result, a close count or an unsent carry. -/
def Scan.busy (g : Scan) : Bool :=
  g.inq.any (fun i => !i.isCarry) || !g.runs.isEmpty || !g.hold.isEmpty || !g.closes.isEmpty || !g.closed.isEmpty ||
    decide (g.count > 0)

/-- The values that SCOP refuses (R245): `top` says whether the tile is its region's highest rank. -/
def scopIllegal (v : Nat) (top : Bool) : Bool :=
  bits v 53 11 != 0 || bits v 14 18 != 0 || v.testBit 3 || bits v 0 3 == 7 ||
    (bits v 4 4 != 0 && bits v 4 4 != 9) || (bits v 4 4 == 9 && decide (bits v 0 3 ≥ 4)) ||
    (!v.testBit 11 && (v.testBit 12 || v.testBit 13)) || (v.testBit 11 && !v.testBit 13 && top)

/-- Whether a tile is the highest rank of its region; a tile of no region stands alone (R457). -/
def State.topRank (s : State) (r : Nat) : Bool :=
  match s.regionOf r with
  | some g => decide (r + 1 = g.lead + 2 ^ g.lgn)
  | none => true

/-- The subcode with which SCOP refuses a value on the engine of tile `r` (R245). -/
def State.scopFault (s : State) (r v : Nat) : Option Nat :=
  if (s.fab r).compacts then some 0
  else if scopIllegal v (s.topRank r) then some 5
  else if (s.scan r).busy then some 1
  else none

/-- SCOP (R245). -/
def execScop (ga : BitVec 5) (s : State) : Host.Outcome State Fault Refusal :=
  .next (s.memWord [ga] [] fun r =>
    let v := s.reg r ga
    match s.scopFault r v.toNat with
    | some sub => .trap s 18 (ptrSub v sub)
    | none => .retire (s.restartScan r (some v)) 1)

/-- The checks that SCGO makes on the engine of tile `r` after those of R64: a cause and a subcode (R246). -/
def State.scgoFault (s : State) (r : Nat) (p : DWord) (count : Nat) : Option (Nat × Nat) :=
  if count = 0 ∨ count > 65536 then some (18, 5)
  else
    let (q, off) := tilePart p
    match (s.mtile r q).plainRegion (wordsOf off (4 * (s.scan r).width * count)) with
    | .error sub => some (6, sub)
    | .ok _ => none

/-- A run is queued behind the engine's earlier input (R246); one of a core releases the core's earlier stores (R251). -/
def State.queueRun (s : State) (r : Nat) (p : DWord) (count : Nat) (task : Option Nat) : State :=
  let (q, off) := tilePart p
  let x : ScanRun :=
    { id := s.nextId, q := q, byte := off, count := count, read := 0, wrote := 0, words := [], task := task,
      accs := if task.isSome then [] else s.releases r,
      before := (s.scan r).join.filter fun i => s.joinActive r [i] }
  s.bumpId.modScan r fun g => { g with runs := g.runs ++ [x], inq := g.inq ++ [.run x.id] }

/-- SCGO (R246). -/
def execScgo (gd ga gb : BitVec 5) (s : State) : Host.Outcome State Fault Refusal :=
  .next (s.memWord [ga, gb] [gd] fun r =>
    let p := s.reg r ga
    let n := (s.reg r gb).toNat
    if s.scanUnusable r then .trap s 18 (ptrSub p 0)
    else match ptrFault [1] (s.core r).level 4 p with
      | some c => .trap s c p
      | none => match s.scgoFault r p n with
        | some (c, sub) => .trap s c (ptrSub p sub)
        | none =>
          if (s.core r).ocTl ≥ 16 then .wait s 5 else
          let gen := BitVec.ofNat 64 (s.scan r).ogen
          .retire (((s.queueRun r p n none).modCore r fun c => { c with ocTl := c.ocTl + 1 }).setReg r gd gen) 1)

/-- The elements that some inputs of an engine still bring. -/
def Scan.elements (g : Scan) (l : List ScanIn) : Nat :=
  (l.map fun i => match i with
    | .block _ l => l.length
    | .run id => (g.run? id).elim 0 fun x => x.count - (x.read / g.width - x.words.length / g.width)
    | _ => 0).sum

/-- The sums of the first close counts: 1, 2, … of them. -/
def closeSums (n : Nat) : List Nat → List Nat
  | [] => []
  | k :: ks => (n + k) :: closeSums (n + k) ks

/-- Whether the generation that is open behind all that waits at the input has taken in no element by then. DEDUCED (log 131),
unsafe. -/
def Scan.opens (g : Scan) : Bool :=
  let n := g.count + g.elements g.inq
  n == 0 || (closeSums 0 g.closes).contains n

/-- SCCIN (R247, R251): C is set once the engine has taken in what stood before it and the core's earlier stores have
performed. -/
def execSccin (ga : BitVec 5) (s : State) : Host.Outcome State Fault Refusal :=
  .next (s.memWord [ga] [] fun r =>
    let p := s.reg r ga
    let g := s.scan r
    if s.scanUnusable r then .trap s 18 (ptrSub p 0)
    else match s.carryRecord r p with
      | .error (c, sub) => .trap s c (sub.elim p (ptrSub p))
      | .ok (s', v) =>
        let accs := s.releases r
        let before := g.join.filter fun i => s.joinActive r [i]
        if g.follows ∨ !g.opens then .trap s 18 (ptrSub p 3)
        else if g.inq.isEmpty ∧ accs.isEmpty ∧ before.isEmpty then
          .retire (s'.modScan r fun g => { g with carry := carryOf g.width v }) 1
        else .retire (s.bumpId.modScan r fun g => { g with inq := g.inq ++ [.carry s.nextId p accs before] }) 1)

/-- The carry record of a carry-out of a generation (R247, R248). -/
def carryBytes (gen : Nat) (v : Option (List Nat)) : Nat :=
  packElems 32 (v.getD []) + (gen + 2 ^ 8 * b2n v.isSome) * 2 ^ (6 * 32)

/-- SCCOUT (R248): waits until every generation with a close count has its carry-out. -/
def execSccout (gd : BitVec 5) (s : State) : Host.Outcome State Fault Refusal :=
  .next (s.memWord [] [gd] fun r =>
    let g := s.scan r
    if s.scanUnusable r then .trap s 18 0
    else if !g.closes.isEmpty ∨ !g.closed.isEmpty then .wait s 3
    else
      let p := BitVec.ofNat 64 (2 ^ 60 + bits (g.opw.getD 0).toNat 32 21)
      let (q, off) := tilePart p
      match (s.mtile r q).plainRegion (wordsOf off 32) with
      | .error sub => .trap s 6 (BitVec.ofNat 64 sub)
      | .ok _ =>
        let (gen, v) := g.last.getD (0, none)
        let s := s.modMtile r q fun m => m.write off 32 (carryBytes gen v)
        .retire (s.setReg r gd (BitVec.ofNat 64 (b2n g.last.isSome * 2 ^ 63 + gen))) 1)

/-- The elements that count as taken in by the open generation and those that follow it: those combined, and those of
the input up to the last command (R249). -/
def Scan.takenIn (g : Scan) : Nat :=
  let upTo := g.inq.reverse.dropWhile fun i => match i with
    | .run _ => false
    | _ => true
  g.count + g.elements upTo

/-- SCBAR (R249). -/
def execScbar (ga : BitVec 5) (s : State) : Host.Outcome State Fault Refusal :=
  .next (s.memWord [ga] [] fun r =>
    let v := s.reg r ga
    let g := s.scan r
    if s.scanUnusable r then .trap s 18 (ptrSub v 0)
    else if v.toNat ≥ 2 ^ 32 then .trap s 18 (ptrSub v 5)
    else if g.closes.length ≥ 4 then .wait s 5
    else if g.closes.sum + v.toNat < g.takenIn then .trap s 18 (ptrSub v 2)
    else .retire (s.modScan r fun g => (({ g with closes := g.closes ++ [v.toNat] } : Scan).closeAll s.now).settle s.now) 1)

/-! ### The operation words of port sc (R195, R243) -/

/-- The elements that a SEND on port sc delivers: word j of each from register v + j. -/
def OpCtx.scanElems (x : OpCtx) (v w : Nat) (pm : BitVec 4) : List (List Nat) :=
  (List.range x.lanes).map fun i => (List.range w).map fun j =>
    if x.selects pm i then (lane (x.f.reg x.lanes (v + j)) i).toNat else 0

/-- SEND on port sc (R243). DEDUCED (log 54), safe. -/
def OpCtx.sendScan (x : OpCtx) (s : State) (v n lvl flg : Nat) (pm : BitVec 4) : OpEnd :=
  let g := s.scan x.r
  if g.opw.isNone ∨ !g.inq.isEmpty ∨ !(if flg % 2 = 1 then !g.stopped else g.canTake x.lanes) then .stall s x.f 2
  else if flg % 2 = 1 then .next (s.modScan x.r fun g => { g with inq := g.inq ++ [.marker lvl] }) x.f 1
  else if n + 1 ≠ g.width then .fault s 10 6 0
  else
    let b := ScanIn.block x.size (x.scanElems v (n + 1) pm)
    .next (s.modScan x.r fun g => { g with inq := g.inq ++ (if lvl = 0 then [b] else [b, .marker lvl]) }) x.f 1

/-- RECV on port sc (R243): one result block into v, v + 1, …, or one marker. DEDUCED (log 53), unsafe. -/
def OpCtx.recvScan (x : OpCtx) (s : State) (v : Nat) (lvl : BitVec 3) (flg pm : BitVec 4) : OpEnd :=
  let g := s.scan x.r
  let take (k : Nat) (l : List Item) (tag : Nat) : OpEnd :=
    let s := s.modScan x.r fun g => ({ g with outq := g.outq.drop k, leftAt := s.now + 1 } : Scan).settle s.now
    let f := (List.range l.length).foldl (fun f j => if v + j < 32 then x.fill f pm (v + j) (l.getD j (.marker 0)) else f) x.f
    .next s (x.markTest { f with lastTag := mapSet f.lastTag 23 tag } lvl flg tag) 1
  match peekHead s.now g.outq with
  | none => .stall s x.f 2
  | some (.marker t) => take 1 [.marker t] t
  | some _ =>
    let w := g.width
    let l := (g.outq.take w).map Held.item
    if l.length < w ∨ l.any fun i => decide (i.tag > 0) then .stall s x.f 2 else take w l 0

/-- SCNP (R195). -/
def execScnp (v : BitVec 5) (lvl : BitVec 3) (mask : BitVec 2) (s : State) : Host.Outcome State Fault Refusal :=
  .next (s.opWord fun x =>
    let g := s.scan x.r
    let m := x.f.mask x.lanes mask.toNat
    let buf := g.compact ++ ((List.range x.lanes).filter fun i => m.getD i false).map (lane (x.reg v))
    let buf := if lvl ≠ 0 ∧ buf.length % 8 ≠ 0 then buf ++ List.replicate (8 - buf.length % 8) 0 else buf
    let full := buf.length / 8
    let out := (List.range full).map (fun k => Item.data [packElems 32 (((buf.drop (8 * k)).take 8).map BitVec.toNat)] 0) ++
      (if lvl = 0 then [] else [.marker lvl.toNat])
    if outRoom g.outq out then
      .next (s.modScan x.r fun g => { g with
        compact := buf.drop (8 * full), outq := g.outq ++ out.map fun i => ⟨i, s.now + 1⟩,
        acct := g.acct.enter 0 s.now }) x.f 1
    else .stall s x.f 2)

end Sys2Proof.Machine
end

