-- ==== Sys2Proof/Machine/Image.lean ====
section
/-!
DEFINITION. Configuration images: the fields of an image, every check that CLOAD makes on one, and the lowest failing
byte (R33, R55, R82 to R84, R87 to R92, R114, R115, R144, R145, R160, R163, R165, R174, R177, R188, R197 to R200, R206, R217,
R225, R234, R455).
-/

namespace Sys2Proof.Machine

/-! ### Fields -/

/-- The bytes of an image (R197). -/
abbrev Image := List Byte

/-- The little-endian value of `n` bytes at an offset. -/
def Image.val (im : Image) (off n : Nat) : Nat := leValue ((im.drop off).take n)
/-- Doubleword `i` of the header. -/
def Image.dw (im : Image) (i : Nat) : Nat := im.val (8 * i) 8
/-- Log2 of the number of tiles. -/
def Image.lgn (im : Image) : Nat := bits (im.dw 0) 8 4
/-- Whether snapshots are taken. -/
def Image.snaps (im : Image) : Bool := (im.dw 0).testBit 12
/-- Whether a select port is declared (R206). -/
def Image.hasSel (im : Image) : Bool := (im.dw 0).testBit 13
/-- The region-relative tile, the cell and the token port of the select port. -/
def Image.selPort (im : Image) : Nat × Nat × Nat := (bits (im.dw 0) 16 9, bits (im.dw 0) 25 4, bits (im.dw 0) 29 2)
/-- The slot that a select token of a value selects. -/
def Image.selSlot (im : Image) (b : Bool) : Nat := bits (im.dw 0) (if b then 34 else 32) 2
/-- The identifier. -/
def Image.ident (im : Image) : Nat := im.dw 1
/-- The length in bytes. -/
def Image.size (im : Image) : Nat := bits (im.dw 2) 0 32
/-- The readout mask of the regions of memory tile `q`. -/
def Image.mask (im : Image) (q : Nat) : Nat := bits (im.dw 3) (8 * q) 8
/-- Whether the readout mask names the weight planes. -/
def Image.savesPlanes (im : Image) : Bool := (im.dw 3).testBit 16
/-- The snapshot area. -/
def Image.snapArea (im : Image) : DWord := BitVec.ofNat 64 (im.dw 4)
/-- Where section 10 is placed in private memory. -/
def Image.cload (im : Image) : Nat := bits (im.dw 5) 0 18
/-- Where the lead core starts. -/
def Image.entry (im : Image) : Nat := bits (im.dw 5) 32 18
/-- The offset of a section. -/
def Image.secOff (im : Image) (s : Nat) : Nat := bits (im.dw (6 + s)) 0 32
/-- The length of a section. -/
def Image.secLen (im : Image) (s : Nat) : Nat := bits (im.dw (6 + s)) 32 32
/-- The size of a tile's record in a per-tile section (R198). -/
def tileRecord (s : Nat) : Nat :=
  if s = 2 then 32 else if s = 3 then 1280 else if s = 4 then 16 else if s = 5 then 192 else 16
/-- Where byte `at_` of the record of tile `t` in a per-tile section stands. -/
def Image.place (im : Image) (s t at_ : Nat) : Nat := im.secOff s + t * tileRecord s + at_
/-- A field of a tile's record; a section of length 0 gives zeros. -/
def Image.rec (im : Image) (s t at_ n : Nat) : Nat := if im.secLen s = 0 then 0 else im.val (im.place s t at_) n
/-- The tiles, region-relative. -/
def Image.tiles (im : Image) : List Nat := List.range (2 ^ im.lgn)

/-- Switch word `i` of a tile. -/
def Image.switch (im : Image) (t i : Nat) : Half := BitVec.ofNat 16 (im.rec 2 t (2 * i) 2)
/-- The switch words of a tile. -/
def Image.switches (im : Image) (t : Nat) : List Half := (List.range 16).map (im.switch t)
/-- The channel entry of a port of a cell. -/
def Image.chan (im : Image) (t c p : Nat) : Nat := im.rec 3 t (4 * (20 * c + p)) 4
/-- Where that entry stands. -/
def Image.chanAt (im : Image) (t c p : Nat) : Nat := im.place 3 t (4 * (20 * c + p))
/-- The eight endpoint codes of a tile. -/
def Image.codes (im : Image) (t : Nat) : List Nat := (List.range 8).map fun j => im.rec 4 t (2 * j) 2
/-- The map entries of memory tile `q` of a tile. -/
def Image.mapOf (im : Image) (t q : Nat) : List Nat := (List.range 8).map fun k => im.rec 5 t (64 * q + 8 * k) 8
/-- The window descriptors of memory tile `q` of a tile. -/
def Image.winsOf (im : Image) (t q : Nat) : List Nat :=
  (List.range 2).map fun j => im.rec 5 t (128 + 32 * q + 16 * j) 16
/-- The descriptor of utility node `k` of a tile. -/
def Image.util (im : Image) (t k : Nat) : Nat := im.rec 6 t (8 * k) 8
/-- Mode of a utility descriptor. -/
def utilMode (d : Nat) : Nat := bits d 61 3

/-- A circuit: source tile and port, destination tile and port, and where its record stands. -/
structure Circuit where
  st  : Nat
  sp  : Nat
  dt  : Nat
  dp  : Nat
  off : Nat
  raw : Nat
  deriving DecidableEq, Repr
/-- The circuits. -/
def Image.circuits (im : Image) : List Circuit :=
  (List.range (im.secLen 7 / 8)).map fun i =>
    let v := im.val (im.secOff 7 + 8 * i) 8
    ⟨bits v 0 9, bits v 9 3, bits v 12 9, bits v 21 3, im.secOff 7 + 8 * i, v⟩

/-- A declared region: its base, length, mode and TOL. -/
structure Declared where
  base : DWord
  len  : Nat
  mode : Nat
  tol  : Bool
  deriving DecidableEq, Repr
/-- The declared regions. -/
def Image.declared (im : Image) : List Declared :=
  (List.range (im.secLen 8 / 16)).map fun i =>
    let o := im.secOff 8 + 16 * i
    ⟨BitVec.ofNat 64 (im.val o 8), bits (im.val (o + 8) 8) 0 48, bits (im.val (o + 8) 8) 48 3,
     (im.val (o + 8) 8).testBit 51⟩
/-- Whether `n` bytes at a pointer lie in a declared region of one of some modes (R182). -/
def Image.declares (im : Image) (modes : List Nat) (p : DWord) (n : Nat) : Bool :=
  im.declared.any fun d => modes.contains d.mode && bits d.base.toNat 48 16 == bits p.toNat 48 16 &&
    decide (ptrOff d.base ≤ ptrOff p ∧ ptrOff p + n ≤ ptrOff d.base + d.len)

/-- A preload: its source, first word, memory tile, tile and length in words, and where its record stands. -/
structure Preload where
  src   : DWord
  first : Nat
  q     : Nat
  tile  : Nat
  len   : Nat
  off   : Nat
  rsv   : Nat
  deriving DecidableEq, Repr
/-- The preloads. -/
def Image.preloads (im : Image) : List Preload :=
  (List.range (im.secLen 9 / 16)).map fun i =>
    let o := im.secOff 9 + 16 * i
    let v := im.val (o + 8) 8
    ⟨BitVec.ofNat 64 (im.val o 8), bits v 0 18, bits v 18 1, bits v 19 9, bits v 28 20, o, bits v 48 16⟩

/-! ### Actors (R87, R89, R92, R199, R200) -/

/-- An actor record. -/
structure ActorRec where
  off   : Nat
  raw   : Nat
  tile  : Nat
  cell  : Nat
  lgf   : Nat
  repl  : Nat
  len   : Nat
  stage : Nat
  code  : Nat
  ppol  : Nat
  apol  : Nat
  sp    : Bool
  deriving DecidableEq, Repr
/-- The actor records, in image order. -/
def Image.actors (im : Image) : List ActorRec :=
  (List.range (im.secLen 0 / 16)).map fun i =>
    let o := im.secOff 0 + 16 * i
    let v := im.val o 16
    ⟨o, v, bits v 0 9, bits v 9 4, bits v 13 3, bits v 16 6, bits v 25 10, bits v 48 11, bits v 64 32, bits v 96 2,
     bits v 98 2, v.testBit 100⟩
/-- The fused size. -/
def ActorRec.size (a : ActorRec) : Nat := 2 ^ Nat.min a.lgf 4
/-- The copy whose base cell a cell is. -/
def ActorRec.copyAt (a : ActorRec) (t c : Nat) : Option Nat :=
  let b := 16 * a.tile + a.cell
  let g := 16 * t + c
  if b ≤ g ∧ (g - b) % a.size = 0 ∧ (g - b) / a.size ≤ a.repl then some ((g - b) / a.size) else none
/-- Whether some copy covers a cell. -/
def ActorRec.covers (a : ActorRec) (t c : Nat) : Bool :=
  let b := 16 * a.tile + a.cell
  let g := 16 * t + c
  decide (b ≤ g ∧ (g - b) / a.size ≤ a.repl)
/-- The actors that run with a cell as their base, each with its copy, in image order. -/
def Image.hosts (im : Image) (t c : Nat) : List (ActorRec × Nat) :=
  im.actors.filterMap fun a => (a.copyAt t c).map fun n => (a, n)
/-- The number of an actor on its declared cell (R87). -/
def Image.number (im : Image) (a : ActorRec) : Nat :=
  ((im.hosts a.tile a.cell).takeWhile fun h => decide (h.1.off ≠ a.off)).length
/-- The rates that an actor declares (R200). -/
def Image.rates (im : Image) (a : ActorRec) : NMap Nat :=
  (List.range 20).filterMap fun p =>
    let e := im.chan a.tile a.cell p
    if entRate e > 0 ∧ entActor e = im.number a then some (p, entRate e) else none
/-- The code of an actor: each word with its offset. -/
def Image.code (im : Image) (a : ActorRec) : List (Nat × Word) :=
  (List.range a.len).map fun i =>
    let o := im.secOff 1 + 4 * (a.code + i)
    (o, BitVec.ofNat 32 (im.val o 4))

/-- The actors of a cell as it runs them: their code stands in its store one after another. -/
def Image.cellActors (im : Image) (t c : Nat) : List Actor :=
  ((im.hosts t c).foldl (fun (acc : List Actor × Nat) h =>
    let a := h.1
    (acc.1 ++ [{ base := acc.2, len := a.len, lgf := a.lgf, repl := a.repl, copy := h.2, ppol := a.ppol, apol := a.apol,
                 sp := a.sp || (im.code a).any fun w => wordHasSide w.2, stage := a.stage, rates := im.rates a }], acc.2 + a.len)) ([], 0)).1
/-- The instruction store of a cell. -/
def Image.cellStore (im : Image) (t c : Nat) : NMap Word :=
  let ws := (im.hosts t c).flatMap fun h => (im.code h.1).map Prod.snd
  (List.range ws.length).map fun i => (i, nth 0 ws i)
/-- The channel entries of a cell. -/
def Image.cellChans (im : Image) (t c : Nat) : NMap Nat :=
  (List.range 20).filterMap fun p => if im.chan t c p = 0 then none else some (p, im.chan t c p)

/-! ### Failing bytes -/

/-- The offset, where a check fails. -/
def failAt (bad : Bool) (off : Nat) : List Nat := if bad then [off] else []

/-- The byte of the lowest 1 among bits [lo + n − 1 : lo] of a record at `off` of value `v`, which must be zero. -/
def rsvAt (off v lo n : Nat) : List Nat :=
  match (List.range n).find? fun k => v.testBit (lo + k) with
  | some k => [off + (lo + k) / 8]
  | none => []
/-- The byte of the lowest 1 of a field that must be zero: doubleword `i`, bits [lo + n − 1 : lo]. -/
def Image.reservedAt (im : Image) (i lo n : Nat) : List Nat := rsvAt (8 * i) (im.dw i) lo n

/-- The failing bytes of the header fields (R197, R202): `want` is log2 of the size the region calls for. -/
def Image.badHeader (im : Image) (want : Nat) : List Nat :=
  let (st, sc, sp) := im.selPort
  failAt (bits (im.dw 0) 0 8 != 1) 0 ++
  failAt (im.lgn > 9 || im.lgn != want) 1 ++
  failAt (im.hasSel && decide (st ≥ 2 ^ im.lgn)) 2 ++
  failAt (sp == 3) 3 ++
  failAt (im.ident == 0) 8 ++
  failAt (im.size % 64 != 0 || im.size < 256) 16 ++
  im.reservedAt 0 14 2 ++ im.reservedAt 0 31 1 ++ im.reservedAt 0 36 28 ++ im.reservedAt 2 32 32 ++
  im.reservedAt 3 17 47 ++ im.reservedAt 5 18 14 ++ im.reservedAt 5 50 14 ++
  (if im.snaps then [] else im.reservedAt 4 0 64) ++
  ((List.range 15).flatMap fun k => im.reservedAt (17 + k) 0 64) ++
  failAt (im.hasSel && sp != 3 && (!entOut (im.chan st sc (16 + sp)) || entWired (im.chan st sc (16 + sp))))
    (im.chanAt st sc (16 + sp))

/-- The unit of a section's length. -/
def sectionUnit (s : Nat) : Nat := if s = 1 then 4 else if s = 7 then 8 else if s = 10 then 1 else 16
/-- The failing entries of the section directory (R198). DEDUCED (log 88), unsafe. -/
def Image.badDirectory (im : Image) : List Nat :=
  (List.range 11).flatMap fun s =>
    let off := im.secOff s
    let len := im.secLen s
    let meets := (List.range s).any fun u =>
      decide (len > 0 ∧ im.secLen u > 0 ∧ im.secOff u < off + len ∧ off < im.secOff u + im.secLen u)
    let perTile := decide (2 ≤ s ∧ s ≤ 6)
    failAt (off % 8 != 0 || (len != 0 && (off < 256 || decide (off + len > im.size) || meets))) (48 + 8 * s) ++
    failAt (if perTile then len != 0 && len != 2 ^ im.lgn * tileRecord s
            else len % sectionUnit s != 0 || (s == 8 && len > 256)) (52 + 8 * s) ++
    failAt (s == 10 && decide (im.cload + len > privSize)) 132

/-! ### Memory tiles and utility nodes -/

/-- The failing map entries of a tile (R145). DEDUCED (log 148), unsafe. -/
def Image.badMaps (im : Image) (t : Nat) : List Nat :=
  [0, 1].flatMap fun q => (List.range 8).flatMap fun k =>
    let g := mapEntry k (nth 0 (im.mapOf t q) k)
    let e := nth 0 (im.mapOf t q) k
    let meets := (List.range k).any fun j =>
      let h := mapEntry j (nth 0 (im.mapOf t q) j)
      decide (g.len > 0 ∧ h.len > 0 ∧ h.base < g.base + g.len ∧ g.base < h.base + h.len)
    failAt (bits e 50 11 != 0 || bits e 19 13 != 0 || g.mode == 3 || g.base % 8 != 0 ||
      (g.len != 0 && (decide (g.base + g.len > tileWords) || g.len % (if g.mode = 1 then 24 else 8) != 0)) || meets)
      (im.place 5 t (64 * q + 8 * k))

/-- Whether a window descriptor is in use. -/
def winUsed (d : Nat) : Bool := d.testBit 0
/-- Halo of a window descriptor: rows and columns. -/
def winHalo (d : Nat) : Nat × Nat := (bits d 42 2, bits d 40 2)
/-- Whether a window descriptor obeys R160 over the map of its memory tile; no descriptor holds a reserved format (R39).
DEDUCED (log 150), unsafe. -/
def winOk (map : List Nat) (d : Nat) : Bool :=
  let fmt := bits d 44 4
  let b := if fmt = 0 then 32 else 16
  let nx := bits d 80 16
  let ny := bits d 64 16
  let (hy, hx) := winHalo d
  let rw := ceilDiv (nx * b) 32
  let per := bits d 38 2 == 3
  let v := mapEntry (bits d 29 3) (nth 0 map (bits d 29 3))
  let w := mapEntry (bits d 26 3) (nth 0 map (bits d 26 3))
  bits d 1 25 == 0 && fmt ≤ 9 && (!winUsed d ||
    (fmt < 3 && decide (2 * hx + 1 ≤ nx ∧ 2 * hy + 1 ≤ ny) && (bits d 36 2 == 3) == per &&
     v.mode == 1 && decide ((hy + 1) * rw ≤ v.len / 3 ∧ bits d 48 16 < ny) && bits d 96 32 / 2 ^ b == 0 &&
     (if per then w.mode == 0 && decide (w.len > 0 ∧ 2 * hy * rw ≤ w.len)
      else bits d 48 16 == 0 && bits d 26 3 == 0)))
/-- The failing window descriptors of a tile (R160). -/
def Image.badWindows (im : Image) (t : Nat) : List Nat :=
  [0, 1].flatMap fun q => [0, 1].flatMap fun j =>
    failAt (!winOk (im.mapOf t q) (nth 0 (im.winsOf t q) j)) (im.place 5 t (128 + 32 * q + 16 * j))

/-- Whether a utility descriptor is legal (R188). -/
def utilOk (d : Nat) : Bool :=
  let m := utilMode d
  let f := bits d 57 4
  let dests := bits d 48 4
  let cap := bits d 40 8
  let flv := bits d 37 3
  bits d 52 5 == 0 && bits d 0 37 == 0 && m ≤ 5 &&
    (if m = 3 then (f == 0 || f == 1 || f == 2 || f == 9) && flv != 0 else f == 0 && flv == 0) &&
    (if m = 4 then decide (2 ≤ dests ∧ dests ≤ 8) && cap != 0 else dests == 0 && cap == 0)
/-- The failing utility descriptors of a tile. -/
def Image.badUtils (im : Image) (t : Nat) : List Nat :=
  [0, 1].flatMap fun k => failAt (!utilOk (im.util t k)) (im.place 6 t (8 * k))

/-! ### Switch words and endpoints -/

/-- The output ports of a routing word of kinds 1 to 5. -/
def swOutputs (w : Half) : List Nat :=
  let k := swKind w
  if k = 1 ∨ k = 2 ∨ k = 4 then bitList 8 (bits w.toNat 0 8) else if k = 3 ∨ k = 5 then [bits w.toNat 0 3] else []
/-- The utility node that a TURN word uses. -/
def swTurn (w : Half) : Option Nat := if swKind w = 5 then some (bits w.toNat 3 1) else none
/-- Whether a tile's routing words take a port as input. -/
def Image.takes (im : Image) (t p : Nat) : Bool := (im.switches t).any fun w => (swInputs w).contains p

/-- What leaves by a port of a tile goes to this tile and input port, where it stays in the network: by the rank of the
region's first tile. -/
def Image.onward (im : Image) (lead t p : Nat) : Option (Nat × Nat) :=
  if p ≥ 4 then none
  else match neighbour (lead + t) p with
    | some n => if lead ≤ n ∧ n < lead + 2 ^ im.lgn then some (n - lead, (p + 2) % 4) else none
    | none => (im.circuits.find? fun c => decide (c.st = t ∧ c.sp = p)).map fun c => (c.dt, c.dp)
/-- Whether an output has a consumer (R455). -/
def Image.consumed (im : Image) (lead t p : Nat) : Bool :=
  if p ≥ 4 then nth 0 (im.codes t) (2 * (p - 4) + 1) != 0
  else match neighbour (lead + t) p with
    | some n => decide (lead ≤ n ∧ n < lead + 2 ^ im.lgn) && im.takes (n - lead) ((p + 2) % 4)
    | none => im.circuits.any fun c => decide (c.st = t ∧ c.sp = p)

/-- The input ports that the items of some input ports reach through routing words. -/
def Image.reached (im : Image) (lead : Nat) : Nat → List (Nat × Nat) → List (Nat × Nat)
  | 0, l => l
  | n + 1, l =>
    let more := l.flatMap fun x => ((im.switches x.1).filter fun w => (swInputs w).contains x.2).flatMap fun w =>
      (swOutputs w).filterMap (im.onward lead x.1)
    let new := (more.filter fun x => !l.contains x).eraseDups
    if new.isEmpty then l else im.reached lead n (l ++ new)
/-- The input ports that a slot switch feeds. -/
def Image.slotFed (im : Image) (lead : Nat) : List (Nat × Nat) :=
  im.reached lead 4096 (im.tiles.flatMap fun t => (List.range 4).filterMap fun k =>
    let c := nth 0 (im.codes t) (2 * k)
    if codeKind c = 5 ∧ utilMode (im.util t (bits c 2 1)) = 4 then some (t, 4 + k) else none)

/-- The failing switch words of a tile, each by itself and against those before it (R33, R82, R83, R177, R455). -/
def Image.badSwitches (im : Image) (lead t : Nat) : List Nat :=
  let ws := im.switches t
  let fed := im.slotFed lead
  (List.range 16).flatMap fun i =>
    let w := nth 0 ws i
    let before := ws.take i
    let bad := (match decodeSwitch w with
        | .ok _ => false
        | .error _ => true) ||
      (swTurn w).any (fun k => utilMode (im.util t k) != 1) ||
      (swOutputs w).any (fun p => before.any fun v => (swOutputs v).contains p) ||
      (swInputs w).any (fun p => before.any fun v => (swInputs v).contains p) ||
      (swKind w == 7 && before.any fun v => swKind v == 7 && bits v.toNat 8 4 == bits w.toNat 8 4) ||
      (swKind w == 4 && (swInputs w).any fun p => fed.contains (t, p)) ||
      (swOutputs w).any (fun p => !im.consumed lead t p)
    failAt bad (im.place 2 t (2 * i))

/-- Whether an endpoint code is legal by itself on its side: 0 source, 1 destination (R174). -/
def codeOk (c side : Nat) : Bool :=
  let d := bits c 0 12
  match codeKind c with
  | 0 => d == 0
  | 1 => d < 4
  | 2 => d < 256 && d / 8 % 2 == side
  | 3 => side == 1 && d < 4
  | 4 => d < 16
  | 5 => d < 8 && d % 4 != 3 && ((d % 4 == 2) == (side == 0))
  | 6 => side == 0 && d == 0
  | _ => false
/-- Whether a code binds a queue index of a queue region (R165). -/
def Image.namesQueue (im : Image) (t q i : Nat) : Bool :=
  let g := mapEntry i (nth 0 (im.mapOf t q) i)
  g.mode == 2 && g.len > 0
/-- The failing endpoint codes of a tile (R174, R455). -/
def Image.badCodes (im : Image) (t : Nat) : List Nat :=
  let cs := im.codes t
  (List.range 8).flatMap fun j =>
    let c := nth 0 cs j
    let side := j % 2
    let twice := c != 0 && (List.range j).any fun i => nth 0 cs i == c
    let turned := codeKind c == 5 && (im.switches t).any fun w => swTurn w == some (bits c 2 1)
    let lost := side == 0 && c != 0 && !im.takes t (4 + j / 2)
    failAt (!codeOk c side || twice || turned || lost ||
      (codeKind c == 4 && !im.namesQueue t (bits c 3 1) (bits c 0 3))) (im.place 4 t (2 * j))

/-! ### Channel entries -/

/-- Whether a local port binds a port of a cell (R174). -/
def Image.bound (im : Image) (t c p : Nat) : Bool :=
  decide (p < 16) && (im.codes t).any fun k =>
    codeKind k == 2 && bits k 4 4 == c && (if k.testBit 3 then bits k 0 3 else 8 + bits k 0 3) == p
/-- Whether the wiring of an entry obeys R200. -/
def Image.wiringOk (im : Image) (t c p : Nat) : Bool :=
  let e := im.chan t c p
  let peer := if p ≥ 16 then 16 + entChan e else if p ≥ 8 then entChan e else 8 + entChan e
  let back := if p ≥ 16 then p - 16 else p % 8
  let f := im.chan t (entCell e) peer
  !entWired e || (entWired f && entCell f == c && entChan f == back && !im.bound t c p &&
    (p < 16 || (entChan e < 4 && entOut e != entOut f)))
/-- Whether a code word is one whose port field names a port, and that port (R79). -/
def wordPort (w : Word) : Option Nat :=
  let op := bits w.toNat 26 6
  if (0x24 ≤ op ∧ op ≤ 0x29) ∨ (0x34 ≤ op ∧ op ≤ 0x3C) then some (bits w.toNat 16 5) else none
/-- Whether a code word is a BR that tests token port `k`. -/
def wordTests (w : Word) (k : Nat) : Bool :=
  bits w.toNat 26 6 == 0x2A && (bits w.toNat 22 4 == 1 || bits w.toNat 22 4 == 2) && bits w.toNat 16 6 == k
/-- Whether an actor has t3 as its side port (R55). -/
def Image.sided (im : Image) (a : ActorRec) : Bool := a.sp || (im.code a).any fun w => wordHasSide w.2
/-- The failing channel entries of a tile (R32, R55, R88, R200). -/
def Image.badChans (im : Image) (t : Nat) : List Nat :=
  (List.range 16).flatMap fun c =>
    let hosts := im.hosts t c
    (List.range 20).flatMap fun p =>
      let e := im.chan t c p
      let out := decide (8 ≤ p ∧ p < 16)
      let depth := if p < 16 then entDepth e else 16
      let named := (hosts[entActor e]?).any fun h => h.2 == 0
      let sides := decide (p = 19) && hosts.any fun h => im.sided h.1
      let need := hosts.foldl (fun m h => Nat.max m (mapGet 0 (im.rates h.1) p)) 0
      failAt (e.testBit 31 || bits e 12 4 != 0 || entFmt e > 9 || (!out && entFmt e != 0) || (p < 16 && entOut e) ||
        entRate e > 16 || decide (need > depth) || (if entRate e = 0 then entActor e != 0 else !named) ||
        (sides && ((hosts[entActor e]?).any (fun h => im.sided h.1 && entRate e > 0) || entOut e)) ||
        !im.wiringOk t c p) (im.chanAt t c p)

/-! ### Actor records and code -/

/-- The failing fields of the actor records, each record by itself and against those before it (R87 to R89, R92, R199): each
field by the byte that holds its lowest bit, an actor with no rate and a fifth actor by the record's first byte.
DEDUCED (log 126), unsafe. -/
def Image.badActors (im : Image) : List Nat :=
  let l := im.actors
  (List.range l.length).flatMap fun i => match l[i]? with
    | none => []
    | some a =>
      let v := a.raw
      let mine : List (Nat × Nat) := (List.range ((a.repl + 1) * a.size)).map fun n =>
        ((16 * a.tile + a.cell + n) / 16, (a.cell + n) % 16)
      let others (x : Nat × Nat) : List ActorRec := (l.take i).filter fun b => b.covers x.1 x.2
      let base (b : ActorRec) : Nat := (16 * b.tile + b.cell) % b.size
      let field (bad : Bool) (bit : Nat) : List Nat := failAt bad (a.off + bit / 8)
      let clash (f : List ActorRec → Bool) : Bool := mine.any fun x => f (others x)
      rsvAt a.off v 22 3 ++ rsvAt a.off v 35 13 ++ rsvAt a.off v 59 5 ++ rsvAt a.off v 101 27 ++
        field (decide (a.tile ≥ 2 ^ im.lgn) || (im.rates a).isEmpty || clash fun o => decide (o.length ≥ 4)) 0 ++
        field (a.cell % a.size != 0 || clash fun o => o.any fun b => base b != base a) 9 ++
        field (decide (a.lgf > 4) || clash fun o => o.any fun b => b.lgf != a.lgf) 13 ++
        field (decide (16 * a.tile + a.cell + (a.repl + 1) * a.size > 16 * 2 ^ im.lgn)) 16 ++
        field (a.len == 0 || a.len > 512 || clash fun o => decide ((o.map ActorRec.len).sum + a.len > 512)) 25 ++
        field (a.stage > 1024) 48 ++ field (decide (4 * (a.code + a.len) > im.secLen 1)) 64 ++
        field (a.ppol == 3) 96 ++ field (a.apol == 3) 98

/-- The loops of an actor's code: the word of each CLOOP, the last word of its body, its level. -/
def codeLoops (ws : List Word) : List (Nat × Nat × Nat) :=
  (List.range ws.length).filterMap fun j =>
    let w := (nth 0 ws j).toNat
    if bits w 26 6 = 0x2B then some (j, j + bits w 6 10, bits w 4 2) else none
/-- Whether a CLOOP is nested as R115 requires. -/
def loopOk (n : Nat) (loops : List (Nat × Nat × Nat)) (x : Nat × Nat × Nat) : Bool :=
  let outer := loops.filter fun y => decide (y.2.2 = 0 ∧ y.1 < x.1 ∧ x.1 ≤ y.2.1)
  decide (x.2.1 < n) &&
    (if x.2.2 = 1 then outer.any fun y => decide (x.2.1 ≤ y.2.1) else outer.isEmpty)
/-- Whether a BR at word `j` of `n` has a target that R80 and R114 allow. -/
def branchOk (n : Nat) (loops : List (Nat × Nat × Nat)) (j w : Nat) : Bool :=
  let t : Int := j + signed 10 (bits w 6 10)
  decide (0 ≤ t ∧ t < n) &&
    loops.all fun x => decide (x.1 < t ∧ t ≤ x.2.1 → x.1 < j ∧ j ≤ x.2.1)

/-- Whether one code word of an actor, at a copy on a tile and cell, obeys the checks that go beyond its own fields. -/
def Image.wordOk (im : Image) (t : Nat) (c : Nat) (a : ActorRec) (loops : List (Nat × Nat × Nat)) (j : Nat) (w : Word) : Bool :=
  let op := bits w.toNat 26 6
  let port := bits w.toNat 16 5
  let out (k : Nat) : Bool := entOut (im.chan t c (16 + k))
  let side := im.sided a
  let d := nth 0 (im.winsOf t (bits w.toNat 15 1)) (bits w.toNat 14 1)
  let within (f h : Nat) : Bool := decide (3 ≤ f + h ∧ f ≤ 3 + h)
  let mode := utilMode (im.util t (port % 2))
  if op = 0x2A then
    branchOk a.len loops j w.toNat && (List.range 4).all fun k => !wordTests w k || (!out k && !(side && k == 3))
  else if op = 0x2B then loops.all fun x => x.1 != j || loopOk a.len loops x
  else if op = 0x29 then out (port % 4) && !(side && port == 19)
  else if op = 0x32 then
    winUsed d && within (bits w.toNat 11 3) (winHalo d).1 && within (bits w.toNat 8 3) (winHalo d).2
  else if op = 0x33 then winUsed d
  else if op = 0x37 then !(a.lgf == 0 && bits w.toNat 21 5 == 31)
  else if (op = 0x24 ∨ op = 0x25) ∧ (port = 20 ∨ port = 21) then im.namesQueue t (port - 20) (bits w.toNat 8 3)
  else if (op = 0x24 ∨ op = 0x25) ∧ port ≥ 24 then decide (2 ≤ mode ∧ mode ≤ 5)
  else if 0x38 ≤ op ∧ op ≤ 0x3B then mode == op - 0x38 + 2
  else true

/-- The words of the code of an actor that fail by themselves or in their place (R76 to R84, R114, R115, R163). -/
def Image.badCode (im : Image) (t c : Nat) (a : ActorRec) : List Nat :=
  let code := im.code a
  let loops := codeLoops (code.map Prod.snd)
  (List.range code.length).flatMap fun j =>
    let (o, w) := nth (0, 0) code j
    let last := decide (j + 1 = code.length)
    let ends := bits w.toNat 26 6 == 0x2C || (bits w.toNat 26 6 == 0x2A && bits w.toNat 22 4 == 0)
    failAt ((match decodeOperation w with
      | .ok _ => false
      | .error _ => true) || (last && !ends) || !im.wordOk t c a loops j w) o

/-- The operation words of the image that fail by themselves, those of no actor included (R84). -/
def Image.badWords (im : Image) : List Nat :=
  (List.range (im.secLen 1 / 4)).flatMap fun i =>
    let o := im.secOff 1 + 4 * i
    failAt (match decodeOperation (BitVec.ofNat 32 (im.val o 4)) with
      | .ok _ => false
      | .error _ => true) o

/-- The code that a tile's cells run: cell, copy, actor, offset and word, in image order of the actors on each cell. -/
def Image.tileCode (im : Image) (t : Nat) : List (Nat × Nat × ActorRec × Nat × Word) :=
  (List.range 16).flatMap fun c => (im.hosts t c).flatMap fun h =>
    (im.code h.1).map fun w => (c, h.2, h.1, w.1, w.2)

/-- The utility input that a code word feeds: node and side. -/
def wordFeeds (w : Word) : Option (Nat × Nat) :=
  let op := bits w.toNat 26 6
  let port := bits w.toNat 16 5
  if (op = 0x25 ∨ op = 0x39 ∨ op = 0x3A ∨ op = 0x3B) ∧ 24 ≤ port ∧ port < 26 then some (port - 24, 0)
  else if op = 0x38 then some (port % 2, bits w.toNat 4 1) else none

/-- Checks over all the code of a tile: one feeder of each utility input (R174, R188), one reader and one writer of each
queue (R165), the actors of one cell being one, the role of the scan engine (R234), and one user of the matrix array (R217).
DEDUCED (log 151), unsafe. -/
def Image.badTileCode (im : Image) (t : Nat) : List Nat :=
  let l := im.tileCode t
  let ports := (List.range 4).filterMap fun k =>
    let c := nth 0 (im.codes t) (2 * k + 1)
    if codeKind c = 5 then some ((bits c 2 1, bits c 0 2), im.place 4 t (4 * k + 2)) else none
  let feeders := [(0, 0), (0, 1), (1, 0), (1, 1)].flatMap fun x =>
    let cells := l.filter fun e => wordFeeds e.2.2.2.2 == some x
    let locals := ports.filter fun p => p.1 == x
    let offs := cells.map (fun e => e.2.2.2.1) ++ locals.map Prod.snd
    let several := (cells.map Prod.fst).eraseDups.length + locals.length > 1 ||
      (x.2 == 0 && utilMode (im.util t x.1) == 4 && !locals.isEmpty)
    if several then offs else []
  let queues := [(20, 0x24), (20, 0x25), (21, 0x24), (21, 0x25)].flatMap fun x => (List.range 8).flatMap fun i =>
    let u := l.filter fun e =>
      bits e.2.2.2.2.toNat 26 6 == x.2 && bits e.2.2.2.2.toNat 16 5 == x.1 && bits e.2.2.2.2.toNat 8 3 == i
    match u with
    | [] => []
    | e :: _ => (u.filter fun f => f.1 != e.1).map fun f => f.2.2.2.1
  let scnp := l.any fun e => bits e.2.2.2.2.toNat 26 6 == 0x3C
  let bound := (List.range 4).any fun k => codeKind (nth 0 (im.codes t) (2 * k)) == 6
  let scan := (l.filter fun e =>
      let op := bits e.2.2.2.2.toNat 26 6
      (op == 0x24 || op == 0x25) && bits e.2.2.2.2.toNat 16 5 == 23 && (scnp || (op == 0x24 && bound))).map
    fun e => e.2.2.2.1
  let mx := l.filter fun e => let op := bits e.2.2.2.2.toNat 26 6; decide (0x34 ≤ op ∧ op ≤ 0x37)
  let users := match mx with
    | [] => []
    | e :: _ => (mx.filter fun f => f.1 != e.1 || f.2.2.1.off != e.2.2.1.off || f.2.1 != e.2.1).map fun f => f.2.2.2.1
  feeders ++ queues ++ scan ++ users

/-! ### The whole check -/

/-- The failing circuit records (R198, R455). -/
def Image.badCircuits (im : Image) (lead : Nat) : List Nat :=
  im.circuits.flatMap fun c =>
    let n := 2 ^ im.lgn
    failAt (bits c.raw 24 40 != 0 || decide (c.st ≥ n ∨ c.dt ≥ n ∨ c.sp > 3 ∨ c.dp > 3) || c.st == c.dt ||
      (neighbour (lead + c.st) c.sp).isSome || (neighbour (lead + c.dt) c.dp).isSome || !im.takes c.dt c.dp) c.off

/-- The failing region declarations (R198). -/
def Image.badDeclared (im : Image) : List Nat :=
  (List.range (im.secLen 8 / 16)).flatMap fun i =>
    let o := im.secOff 8 + 16 * i + 8
    rsvAt o (im.val o 8) 52 12 ++ failAt (bits (im.val o 8) 48 3 > 4) (o + 6)

/-- The failing preload records (R198). DEDUCED (log 90), unsafe. -/
def Image.badPreloads (im : Image) : List Nat :=
  im.preloads.flatMap fun p =>
    let map := im.mapOf p.tile p.q
    let fits := (List.range 8).any fun k =>
      let g := mapEntry k (nth 0 map k)
      g.mode == 0 && decide (g.len > 0 ∧ g.base ≤ p.first ∧ p.first + p.len ≤ g.base + g.len)
    rsvAt (p.off + 14) p.rsv 0 16 ++ failAt (decide (p.tile ≥ 2 ^ im.lgn)) (p.off + 10) ++ failAt (!fits) (p.off + 8) ++
      failAt (!im.declares [1, 2, 4] p.src (4 * p.len)) p.off

/-- The least of some offsets. -/
def leastOf : List Nat → Option Nat
  | [] => none
  | x :: l => some (l.foldl Nat.min x)

/-- The lowest failing byte of an image for a region of 2^`want` tiles led by rank `lead` (R84, R202): that of the header
and its directory, and, where both are sound, that of the sections. -/
def Image.failing (im : Image) (want lead : Nat) : Option Nat :=
  let head := im.badHeader want ++ im.badDirectory
  match leastOf (head.filter fun o => decide (o < 256)) with
  | some o => some o
  | none => leastOf (head ++ im.badActors ++ im.badWords ++ im.badCircuits lead ++ im.badDeclared ++ im.badPreloads ++
      im.tiles.flatMap fun t =>
        im.badMaps t ++ im.badWindows t ++ im.badUtils t ++ im.badSwitches lead t ++ im.badCodes t ++ im.badChans t ++
          im.badTileCode t ++ (List.range 16).flatMap fun c => (im.hosts t c).flatMap fun h => im.badCode t c h.1)

end Sys2Proof.Machine
end

