-- ==== Sys2Proof/Machine/Streams.lean ====
section
/-!
DEFINITION. Address generators: stream parameter blocks and their checks, the walk of elements, tokens and their pieces,
held stores and their commit, and the stream words (R180 to R187, R397, R431, R433, R441).
-/

namespace Sys2Proof.Machine

/-! ### Stream parameter blocks (R180) -/

/-- Direction. -/
def spbDir (b : Nat) : Nat := bits b 500 4
/-- Element format code. -/
def spbFmt (b : Nat) : Nat := bits b 496 4
/-- Dimensions used. -/
def spbDims (b : Nat) : Nat := bits b 494 2 + 1
/-- Local port. -/
def spbPort (b : Nat) : Nat := bits b 492 2
/-- Marker level of dimension `k`. DEDUCED (log 74), unsafe. -/
def spbMark (b k : Nat) : Nat := bits b (476 + 3 * k) 3
/-- Round length in tokens. -/
def spbRound (b : Nat) : Nat := bits b 416 32
/-- Bytes of a gathered row. -/
def spbRow (b : Nat) : Nat := bits b 400 16
/-- Pointer of the gathered data. -/
def spbData (b : Nat) : DWord := BitVec.ofNat 64 (bits b 320 64)
/-- Size of dimension `k` as the block holds it. -/
def spbRawSize (b k : Nat) : Nat := bits b (96 + 64 * k) 32
/-- Size of dimension `k`, 1 where it is not used. -/
def spbSize (b k : Nat) : Nat := if k < spbDims b then spbRawSize b k else 1
/-- Stride of dimension `k` in elements. -/
def spbStride (b k : Nat) : Int := if k < spbDims b then signed 32 (bits b (64 + 64 * k) 32) else 0
/-- Pointer of element (0, 0, 0, 0). -/
def spbBase (b : Nat) : DWord := BitVec.ofNat 64 (bits b 0 64)
/-- Element width in bits: uint32 for the index list of dir 3 (R433). -/
def spbWidth (b : Nat) : Nat := if spbDir b = 3 then 32 else ((fmtOfCode (spbFmt b)).map fmtBits).getD 32

/-- Whether a block breaks R180 for a member of the STRM group that accepts some directions (R186, subcode 3). -/
def spbBad (b : Nat) (dirs : List Nat) : Bool :=
  bits b 504 8 != 1 || bits b 448 28 != 0 || bits b 384 16 != 0 || (fmtOfCode (spbFmt b)).isNone ||
    decide (bits b 489 3 > 3) || !dirs.contains (spbDir b) ||
    (List.range 4).any (fun k =>
      if k < spbDims b then spbRawSize b k == 0 else bits b (64 + 64 * k) 64 != 0) ||
    (if spbDir b = 3 then decide (spbRow b % 32 ≠ 0 ∨ spbRow b < 32 ∨ 4096 < spbRow b)
     else spbRow b != 0 || spbData b != 0)

/-! ### The walk (R181, R105) -/

/-- Tokens of a dim-0 run. -/
def spbPerRun (b : Nat) : Nat := ceilDiv (spbSize b 0 * spbWidth b) 256
/-- Tokens of a gathered row. -/
def spbPerRow (b : Nat) : Nat := spbRow b / 32
/-- Dim-0 runs. -/
def spbRuns (b : Nat) : Nat := spbSize b 1 * spbSize b 2 * spbSize b 3
/-- Data tokens of a stream; a dir-2 stream has no number of its own. -/
def spbTotal (b : Nat) : Nat :=
  if spbDir b = 3 then spbPerRow b * spbSize b 0 * spbRuns b else spbPerRun b * spbRuns b

/-- The coordinates of position `n` of a nest of some sizes, innermost first. -/
def coords : List Nat → Nat → List Nat
  | [], _ => []
  | z :: zs, n => n % z :: coords zs (n / z)

/-- The coordinates i1 to i3 of run `n`. -/
def spbRunAt (b n : Nat) : List Nat := coords [spbSize b 1, spbSize b 2, spbSize b 3] n

/-- The bit offset of an element from base (R181). -/
def spbElem (b : Nat) (i : List Nat) : Int :=
  spbWidth b * ((List.range 4).foldl (fun (x : Int) k => x + nth 0 i k * spbStride b k) 0)

/-- The level that closes the dimensions `k` up whose coordinates, in order, stand at their ends: the highest among
them (R105, R181). -/
def spbClose (b : Nat) : Nat → List Nat → Nat
  | _, [] => 0
  | k, i :: is =>
    if k < spbDims b ∧ i + 1 = spbSize b k then Nat.max (spbMark b k) (spbClose b (k + 1) is) else 0

/-- The marker that follows token `n`; 0 where none does. -/
def spbMarkAfter (b n : Nat) : Nat :=
  if spbDir b = 3 then
    if (n + 1) % spbPerRow b = 0 then
      spbClose b 0 (coords ((List.range 4).map (spbSize b)) (n / spbPerRow b))
    else 0
  else if (n + 1) % spbPerRun b = 0 then spbClose b 0 ((spbSize b 0 - 1) :: spbRunAt b (n / spbPerRun b))
  else 0

/-- The number of the round that holds token `n` of a stream. -/
def spbRoundOf (b n : Nat) : Nat := if spbRound b = 0 then 0 else n / spbRound b
/-- Whether a round ends with token `n`. -/
def spbEnds (b n : Nat) : Bool :=
  decide (n + 1 = spbTotal b) || (spbRound b != 0 && (n + 1) % spbRound b == 0)

/-! ### Pieces (R184) -/

/-- A run of bits that a token takes: where it lies, from bit 0 of its space, its length, and its place in the token. -/
structure Run where
  bit   : Int
  nbits : Nat
  pos   : Nat
  deriving DecidableEq, Repr

/-- Adjacent elements joined into runs. -/
def joinRuns : List Run → List Run
  | [] => []
  | x :: xs =>
    match joinRuns xs with
    | y :: ys => if x.bit + x.nbits = y.bit then ⟨x.bit, x.nbits + y.nbits, x.pos⟩ :: ys else x :: y :: ys
    | [] => [x]

/-- The runs of token `n` of a walk of dir 0 or 1. -/
def spbTokenRuns (b n : Nat) : List Run :=
  let w := spbWidth b
  let per := 256 / w
  let first := n % spbPerRun b * per
  joinRuns ((List.range (Nat.min per (spbSize b 0 - first))).map fun i =>
    ⟨8 * ptrOff (spbBase b) + spbElem b ((first + i) :: spbRunAt b (n / spbPerRun b)), w, i * w⟩)

/-- A piece of a token: its pointer, bytes, and its bits within them and within the token. -/
structure Span where
  ptr   : DWord
  size  : Nat
  shift : Nat
  nbits : Nat
  pos   : Nat
  deriving DecidableEq, Repr

/-- A run cut at every boundary of `step` bits. -/
def cutRun (base : DWord) (step : Nat) : Nat → Run → List Span
  | 0, _ => []
  | k + 1, x =>
    if x.nbits = 0 then []
    else
      let a := wrapNat 51 x.bit
      let n := Nat.min x.nbits (step - a % step)
      ⟨BitVec.ofNat 64 (setBits base.toNat 0 48 (a / 8)), ceilDiv (a % 8 + n) 8, a % 8, n, x.pos⟩ ::
        cutRun base step k ⟨x.bit + n, x.nbits - n, x.pos + n⟩
/-- The pieces of some runs: within a word of a memory tile, or a line elsewhere. -/
def spansOfRuns (base : DWord) (rs : List Run) : List Span :=
  let step := if ptrSpace base = 1 ∨ ptrSpace base = 2 then 32 else 512
  rs.flatMap (cutRun base step 65)

/-- tval of a cause 6 fault of a stream (R186): subcode, generator and rank. -/
def genVal (r g sub : Nat) : DWord := BitVec.ofNat 64 (r * 2 ^ 8 + g * 2 ^ 4 + sub)

/-- Where a piece of a stream reaches. -/
inductive GenReach where
  | at_ (loc : Loc) (x : Option Xlat)
  | miss
  | fault (cause : Nat) (val : DWord)

/-- Where a piece of a stream of generator `g` of tile `r` reaches (R63, R148, R183). -/
def State.genReach (s : State) (r g : Nat) (t : Stream) (p : DWord) (n : Nat) (rd wr : Bool) : State × GenReach :=
  if !ptrFormOk p then (s, .fault 3 p)
  else if ptrSpace p = 1 ∨ ptrSpace p = 2 then
    let k := if ptrSpace p = 1 then r else ptrRank p
    let (q, off) := tilePart p
    match (s.mtile k q).plainRegion (wordsOf off n) with
    | .error sub => (s, .fault 6 (genVal r g sub))
    | .ok _ => (s, .at_ (.mtile k q off) none)
  else match s.reach (.gen r g) t.part t.asid p ⟨rd, wr, decide (t.level = 3)⟩ with
    | (s, .at_ loc x) => (s, .at_ loc x)
    | (s, .miss) => (s, .miss)
    | (s, .fault c) => (s, .fault c p)

/-- Every piece of a token as it reaches its place, or the first that does not. -/
def State.genPieces (s : State) (r g : Nat) (t : Stream) (rd wr : Bool) (l : List Span) :
    State × Except GenReach (List (Span × Loc × Option Xlat)) :=
  l.foldl (fun acc x => match acc with
    | (s, .error e) => (s, .error e)
    | (s, .ok ps) => match s.genReach r g t x.ptr x.size rd wr with
      | (s, .at_ loc xl) => (s, .ok (ps ++ [(x, loc, xl)]))
      | (s, e) => (s, .error e)) (s, .ok [])

/-- The state with the stream of a generator changed by `f`. -/
def State.modStream (s : State) (r g : Nat) (f : Stream → Stream) : State :=
  s.modGen r g fun x => { x with stream := x.stream.map f }

/-- The generator enters an accounting category (R196). -/
def State.genAccount (s : State) (r g cat : Nat) : State := s.modGen r g fun x => { x with acct := x.acct.enter cat s.now }

/-- Whether the round `k` of a region has begun on tile `r`: a fault of a piece that was read ahead belongs to its own
round (R184). A tile of no running region has no rounds. -/
def State.roundBegun (s : State) (r k : Nat) : Bool := (s.regionOf r).all fun x => decide (k ≤ x.round)

/-- A stream meets a fault: it halts, and the fault is the fabric's (R184, R399). -/
def State.genFault (s : State) (r g cause : Nat) (val : DWord) : State :=
  (s.modStream r g fun t => { t with stop := true }).fabricFault r (.gen g) cause val

/-- The generator's stream ends: oc.tl of its tile's core falls (R186, R187). -/
def State.endStream (s : State) (r g : Nat) : State :=
  ((s.modStream r g fun t => { t with ended := true }).modCore r fun c => { c with ocTl := c.ocTl - 1 }).genAccount r g 6

/-! ### Starting a stream (R186) -/

/-- The bytes that the elements of a stream reach, from the first to behind the last, relative to base, in bits (R181). -/
def spbExtent (b : Nat) : Int × Int :=
  let d (k : Nat) : Int := spbStride b k * ((spbSize b k : Int) - 1)
  let lo := (List.range 4).foldl (fun (x : Int) k => if d k < 0 then x + d k else x) 0
  let hi := (List.range 4).foldl (fun (x : Int) k => if 0 < d k then x + d k else x) 0
  (lo * spbWidth b, hi * spbWidth b + spbWidth b)

/-- Modes of a declared region that permit reading. -/
def readModes : List Nat := [1, 2, 4]
/-- Modes of a declared region that permit writing. -/
def writeModes : List Nat := [3, 4]

/-- The image that is active on a tile. -/
def State.activeImage (s : State) (r : Nat) : Option Image :=
  (s.fab r).active.map fun k => (mapGet Slot.reset (s.tile r).slots k).image

/-- Whether `n` bytes at a pointer lie in a region that the active image of tile `r` declares with one of some modes. -/
def State.declares (s : State) (r : Nat) (modes : List Nat) (p : DWord) (n : Nat) : Bool :=
  (s.activeImage r).any fun im => im.declares modes p n

/-- The cycles of a circuit that joins two tiles, where the configuration has one, in either direction (R183). -/
def State.joined (s : State) (a b : Nat) : Option Nat :=
  let one (x y : Nat) : Option Nat := ((s.router x).circ.find? fun e => e.2.1 == y).map fun e => e.2.2.2
  (one a b).or (one b a)

/-- Whether every element of a stream lies in one declared region that permits it (R182). A space-2 base names a tile of
the region, to which a circuit of the configuration leads (R183). DEDUCED (log 78), unsafe. -/
def State.extentOk (s : State) (r b : Nat) : Bool :=
  let (lo, hi) := spbExtent b
  let base := spbBase b
  let first := (8 * ptrOff base : Int) + lo
  let last := (8 * ptrOff base : Int) + hi
  let write := decide (spbDir b = 1 ∨ spbDir b = 2)
  decide (0 ≤ first) &&
    s.declares r (if write then writeModes else readModes) (BitVec.ofNat 64 (setBits base.toNat 0 48 (first.toNat / 8)))
      (ceilDiv last.toNat 8 - first.toNat / 8) &&
    (ptrSpace base != 2 || (match s.regionOf r with
      | some x => decide (x.lead ≤ ptrRank base ∧ ptrRank base < x.lead + 2 ^ x.lgn) &&
          (ptrRank base == r || (s.joined r (ptrRank base)).isSome)
      | none => ptrRank base == r))

/-- The utility node whose output the routing word for local port `k` takes as its input (R186). -/
def Router.utilFor (t : Router) (k : Nat) : Option Nat :=
  (t.words.find? fun w => (swOutputs w).contains (4 + k)).bind fun w =>
    (swInputs w).findSome? fun p =>
      if p ≥ 4 ∧ codeKind (t.source (p - 4)) = 5 then some (bits (t.source (p - 4)) 2 1) else none

/-- The first check of a stream parameter block that fails, as a cause and its subcode, which is none for a fault of the
base pointer itself (R186), which is checked for an access of one element. DEDUCED (log 145), unsafe. -/
def State.spbFault (s : State) (r level : Nat) (b g : Nat) (dirs : List Nat) : Option (Nat × Option Nat) :=
  let t := s.router r
  let k := spbPort b
  let code := if spbDir b = 0 ∨ spbDir b = 3 then t.source k else t.dest k
  if spbBad b dirs then some (6, some 3)
  else match ptrFault [0, 1, 2, 3] level (ceilDiv (spbWidth b) 8) (spbBase b) with
    | some c => some (c, none)
    | none =>
      if !s.extentOk r b then some (6, some 4)
      else if code ≠ 0x1000 + g then some (6, some 5)
      else if spbDir b = 2 ∧ !((t.utilFor k).any fun u =>
          let d := ((s.fab r).ux u).desc
          bits d 61 3 == 4 && bits d 40 8 == spbSize b 0 && bits d 48 4 == spbSize b 1) then some (6, some 3)
      else none

/-- SIN, SOUT and SIDX as they run, for the directions each accepts (R186). -/
def streamWord (gd ga gb : BitVec 5) (dirs : List Nat) (s : State) : State :=
  s.memWord [ga, gb] [gd] fun r =>
    let p := s.reg r ga
    let h := (s.reg r gb).toNat
    let c := s.core r
    if h ≥ 4 then .trap s 6 (ptrSub p 5)
    else if (s.gen r h).stream.any fun t => !t.ended then .wait s 5
    else match s.readBlock r [0, 4] p 64 with
      | .stop e => e
      | .ok s l =>
        let b := leValue l
        match s.spbFault r c.level b h dirs with
        | some (6, some sub) => .trap s 6 (ptrSub p sub)
        | some (k, _) => .trap s k (spbBase b)
        | none =>
          if c.ocTl ≥ 16 then .wait s 5
          else
            let round := (s.regionOf r).elim 0 Region.round
            let old := (s.gen r h).stream
            let t : Stream :=
              { id := old.elim s.nextId Stream.id, spb := b, asid := s.engineAsid r, part := s.owner r, level := c.level,
                task := c.task, start := round, tok := 0, recTok := 0, bars := old.elim 0 Stream.bars, ends := 0, rounds := 0, seen := round, marks := [],
                out := [], idxNext := 0, idxAcc := [], index := [], held := [], commit := [], records := [], before := s.releases r,
                joins := (s.gen r h).queue, closed := false, stop := false, killed := false, ended := false }
            let s := (s.bumpId.modGen r h fun x => { x with stream := some t, nextAt := s.now + 1 }).modCore r fun c =>
              { c with ocTl := c.ocTl + 1 }
            .retire (s.setReg r gd (BitVec.ofNat 64 h)) 1

/-- SIN (R186). DEDUCED (log 77), unsafe. -/
def execSin (gd ga gb : BitVec 5) (s : State) : Host.Outcome State Fault Refusal := .next (streamWord gd ga gb [0] s)
/-- SOUT (R186). -/
def execSout (gd ga gb : BitVec 5) (s : State) : Host.Outcome State Fault Refusal := .next (streamWord gd ga gb [1, 2] s)
/-- SIDX (R186). -/
def execSidx (gd ga gb : BitVec 5) (s : State) : Host.Outcome State Fault Refusal := .next (streamWord gd ga gb [3] s)

/-! ### Reading (R181, R183, R185) -/

/-- The accesses of a generator that have not returned. -/
def State.genReads (s : State) (r g : Nat) : Nat :=
  (s.accs.filter fun a => decide (a.who = .gen r g) && (match a.kind with
    | .load _ => true
    | _ => false)).length

/-- The tokens that a generator has issued and not delivered. -/
def Stream.waiting (t : Stream) : Nat :=
  (t.out.filter fun e => match e with
    | .tok _ _ _ => true
    | .item _ => false).length

/-- The region whose declaration makes a range read-shared for a stream of tile `r`, and the slice level that the stream names for the
copies (R180, R327). -/
def State.sharedBy (s : State) (r : Nat) (t : Stream) (p : DWord) (n : Nat) : Option (Nat × Nat) :=
  if s.declares r [2] p n then (s.regionOf r).map fun g => (g.lead, bits t.spb 489 3) else none

/-- The cycles that a piece takes to its place and back over the circuit that joins its tile to a memory tile of another
(R183). -/
def State.circuitTime (s : State) (r : Nat) (loc : Loc) : Nat :=
  match loc with
  | .mtile k _ _ => if k = r then 0 else (s.joined r k).getD 0
  | _ => 0

/-- The pieces of a token are sent as reads. -/
def State.sendParts (s : State) (r g : Nat) (t : Stream) (l : List (Span × Loc × Option Xlat)) : State × List Part :=
  l.foldl (fun acc x =>
    let (s, ps) := acc
    let a := { s.newAccess (.gen r g) (.load false) x.2.1 x.1.size 0 x.1.ptr x.2.2 with
      before := t.before, part := t.part, shared := s.sharedBy r t x.1.ptr x.1.size,
      issued := s.now + s.circuitTime r x.2.1 }
    (s.send a, ps ++ [⟨a.id, x.1.shift, x.1.nbits, x.1.pos⟩])) (s, [])

/-- The cycles that a token's pieces take to issue: one for each interleave unit or place that it touches (R183, R184). -/
def issueCycles (l : List (Span × Loc × Option Xlat)) : Nat :=
  Nat.max 1 ((l.map fun x => match x.2.1 with
    | .dram t a => dramKey t (a / (if t = 0 then 256 else if t = 2 then 65536 else 4096))
    | _ => 0).foldl insertOnce []).length

/-- The pieces of the next token of a read stream: nothing where its index is not there yet, or an error where a gathered row
leaves the declared regions (R186). -/
def State.nextSpans (s : State) (r : Nat) (t : Stream) : Option (Except Unit (List Span)) :=
  let b := t.spb
  if spbDir b = 0 then some (.ok (spansOfRuns (spbBase b) (spbTokenRuns b t.tok)))
  else match mapFind t.index (t.tok / spbPerRow b) with
    | none => none
    | some (x, at_) =>
      if s.now ≤ at_ then none
      else
        let row := ptrAdd (spbData b) (x * spbRow b)
        if !s.declares r readModes row (spbRow b) then some (.error ())
        else
          let off := ptrOff row + 32 * (t.tok % spbPerRow b)
          some (.ok (spansOfRuns row [⟨(8 * off : Nat), 256, 0⟩]))

/-- The items that follow token `n` of a stream (R181): the marker, and the barrier of a round's end. -/
def Stream.after (t : Stream) (n : Nat) : List GenOut :=
  let m := spbMarkAfter t.spb n
  (if m = 0 then [] else [.item (.marker m)]) ++
    (if spbEnds t.spb n then [.item (.barrier [(t.id, t.bars, t.start + t.ends + 1)])] else [])

/-- The records and markers that a stream which has gone back sends again behind its first `n` tokens. -/
def Stream.again (t : Stream) (n : Nat) : List GenOut :=
  (t.records.filter fun e => e.1 == n).map fun e => .item e.2

/-- The next token of a read stream is issued, with what follows it. -/
def State.issueToken (s : State) (r g : Nat) (t : Stream) : State :=
  let round := t.start + spbRoundOf t.spb t.tok
  match s.nextSpans r t with
  | none => s
  | some (.error _) => if s.roundBegun r round then s.genFault r g 6 (genVal r g 4) else s
  | some (.ok spans) =>
    if 64 < s.genReads r g + spans.length then s
    else match s.genPieces r g t true false spans with
      | (s', .error .miss) => s'.genAccount r g 1
      | (s', .error (.fault c v)) => if s.roundBegun r round then s'.genFault r g c v else s
      | (s', .error (.at_ _ _)) => s'
      | (s', .ok l) =>
        let (s', ps) := s'.sendParts r g t l
        let ended := spbEnds t.spb t.tok
        let s' := s'.modStream r g fun t =>
          { t with
            tok := t.tok + 1, out := t.out ++ [.tok t.tok ps none] ++ t.after t.tok ++ t.again (t.tok + 1),
            bars := if ended then t.bars + 1 else t.bars, ends := if ended then t.ends + 1 else t.ends,
            closed := decide (t.tok + 1 = spbTotal t.spb) }
        ((s'.modGen r g fun x => { x with nextAt := s.now + issueCycles l }).genAccount r g 0).touch r

/-- The next element of an index list is read (R183, R433). -/
def State.issueIndex (s : State) (r g : Nat) (t : Stream) : State :=
  let b := t.spb
  let e := t.idxNext
  if e ≥ spbSize b 0 * spbRuns b ∨ 64 ≤ s.genReads r g then s
  else
    let bit := (8 * ptrOff (spbBase b) : Nat) + spbElem b (coords ((List.range 4).map (spbSize b)) e)
    match s.genPieces r g t true false (spansOfRuns (spbBase b) [⟨bit, 32, 0⟩]) with
    | (s', .error .miss) => s'.genAccount r g 1
    | (s', .error (.fault c v)) =>
      if s.roundBegun r (t.start + spbRoundOf b (e * spbPerRow b)) then s'.genFault r g c v else s
    | (s', .error (.at_ _ _)) => s'
    | (s', .ok l) =>
      let (s', ps) := s'.sendParts r g t l
      let id := (ps.head?.map Part.acc).getD 0
      ((s'.modStream r g fun t => { t with idxNext := e + 1, idxAcc := mapSet t.idxAcc e id }).modGen r g fun x =>
        { x with nextAt := s.now + 1 }).genAccount r g 0

/-- Whether a stream still issues. DEDUCED (log 75), safe. -/
def Stream.issues (t : Stream) : Bool := !t.ended && !t.closed && !t.stop && !t.killed

/-- STREAM_READ_ISSUE (R181, R183): the generator in focus issues the next token of its read stream, or with `arg` 1 the
read of its next index. At most 64 tokens wait to be delivered. -/
def execStreamReadIssue (s : State) : Host.Outcome State Fault Refusal :=
  let r := s.foc.unit
  let g := s.foc.sub
  let x := s.gen r g
  .next (match x.stream with
    | none => s
    | some t =>
      if (s.fab r).frozen ∨ s.now < x.nextAt ∨ s.now < x.bubble ∨ !t.issues ∨ s.joinActive r t.joins then s
      else if spbDir t.spb = 0 then if t.waiting < 64 then s.issueToken r g t else s
      else if spbDir t.spb = 3 then
        if s.foc.arg = 1 then s.issueIndex r g t else if t.waiting < 64 then s.issueToken r g t else s
      else s)

/-- Whether byte `i` of a read of a stream may be uncorrectable: by its declared region, its memory-tile region, its page or its
task's declaration (R167, R185, R330). -/
def State.genTolerant (s : State) (r : Nat) (t : Stream) (a : Access) (i : Nat) : Bool :=
  let p := ptrAdd a.ptr i
  (s.activeImage r).any (fun im => im.declared.any fun d => d.tol &&
      bits d.base.toNat 48 16 == bits p.toNat 48 16 && decide (ptrOff d.base ≤ ptrOff p ∧ ptrOff p < ptrOff d.base + d.len)) ||
    (match a.loc with
     | .mtile k q off => ((s.mtile k q).regionOf ((off + i) / 4)).any MapRegion.tol
     | _ => s.isTolerant t.task p a.xl)

/-- What a substituted element of a stream is: zero, or the canonical NaN of its format (R185). -/
def substElem (b : Nat) : Nat :=
  match fmtOfCode (spbFmt b) with
  | some f => if b.testBit 488 ∧ isFloatFmt f then canonNaN f else 0
  | none => 0

/-- The bits that a returned piece gives its token: those of every element that an uncorrectable byte touches are substituted (R185). -/
def Part.value (p : Part) (b : Nat) (a : Access) : Nat :=
  let w := spbWidth b
  if a.bad.isEmpty then bits a.val p.shift p.nbits
  else packElems w ((List.range (p.nbits / w)).map fun k =>
    let lo := p.shift + k * w
    if a.bad.any fun i => decide (lo < 8 * i + 8 ∧ 8 * i < lo + w) then substElem b else bits a.val lo w)

/-- The token that its returned pieces give. -/
def partsValue (b : Nat) (accs : List Access) (ps : List Part) : Nat :=
  ps.foldl (fun v p =>
    match accs.find? fun a => decide (a.id = p.acc) with
    | none => v
    | some a => v + p.value b a * 2 ^ p.pos) 0

/-- The first fault among some returned reads: its cause and pointer. -/
def State.readFault (s : State) (r : Nat) (t : Stream) (accs : List Access) : Option (Nat × DWord) :=
  accs.findSome? fun a =>
    if a.fault ≠ 0 then some (a.fault, a.ptr)
    else if a.bad.all (s.genTolerant r t a) then none else some (13, a.ptr)

/-- Returned reads are removed. -/
def State.dropReads (s : State) (ids : List Nat) : State := { s with accs := s.accs.filter fun a => !ids.contains a.id }

/-- Whether a void that is under way discards what a generator's reads return: one that a fault of an earlier cycle, or of this
generator, has begun (R399). DEDUCED (log 83), unsafe. -/
def State.voidsReads (s : State) (r g : Nat) : Bool :=
  (s.regionOf r).any fun x => x.voiding.any fun v => decide (v.at_ < s.now ∨ v.key = r * 32 + (FabUnit.gen g).order)

/-- STREAM_READ_REPLY (R183, R185): the read in focus has returned. An index becomes usable in the next cycle; a token is
complete once all its pieces have returned. DEDUCED (log 76), unsafe. -/
def execStreamReadReply (s : State) : Host.Outcome State Fault Refusal :=
  let r := s.foc.unit
  let g := s.foc.sub
  let id := s.foc.arg
  .next (match (s.gen r g).stream with
    | none => s
    | some t =>
      let ids := match t.idxAcc.find? fun e => decide (e.2 = id) with
        | some _ => [id]
        | none => (t.out.findSome? fun e => match e with
            | .tok _ ps none => if ps.any fun p => decide (p.acc = id) then some (ps.map Part.acc) else none
            | _ => none).getD []
      let accs := s.accs.filter fun a => ids.contains a.id
      if ids.isEmpty ∨ accs.any (fun a => !a.done) then s
      else
        let elem := (t.idxAcc.find? fun e => decide (e.2 = id)).map Prod.fst
        let tok := t.out.findSome? fun e => match e with
          | .tok n ps none => if ps.any fun p => decide (p.acc = id) then some n else none
          | _ => none
        let first := match elem with
          | some e => e * spbPerRow t.spb
          | none => tok.getD 0
        match s.readFault r t accs with
        | some (c, v) =>
          if s.voidsReads r g then s.dropReads ids
          else if s.roundBegun r (t.start + spbRoundOf t.spb first) then (s.dropReads ids).genFault r g c v else s
        | none =>
          let s := s.countSubs t.part (accs.map fun a => a.loc.units a.bad).sum
          let s := s.dropReads ids
          let s := s.modStream r g fun t =>
            match elem with
            | some e =>
              let x := (accs.head?.map Access.val).getD 0
              { t with idxAcc := mapDel t.idxAcc e, index := mapSet t.index e (x, s.now) }
            | none =>
              { t with out := t.out.map fun e => match e with
                  | .tok n ps none => if some n = tok then .tok n ps (some (partsValue t.spb accs ps)) else e
                  | e => e }
          s.touch r)

/-- The head of a read stream's ordered output as an item, once it can leave. -/
def Stream.head (t : Stream) : Option Item :=
  match t.out with
  | .tok _ _ (some v) :: _ => some (.data [v] (spbFmt t.spb))
  | .item i :: _ => some i
  | _ => none

/-- The region's round that the head of a read stream's output belongs to: one more for each end of a round sent. -/
def Stream.headRound (t : Stream) : Nat :=
  t.start + t.ends - (t.out.filter fun (o : GenOut) => match o with
    | .item (.barrier src) => src.any fun x => decide (x.2.2 > 0)
    | _ => false).length
/-- Whether snapshots are taken in a region (R398). -/
def State.snapsIn (s : State) (g : Region) : Bool := (s.activeImage g.lead).any Image.snaps
/-- Whether what a read stream would send next waits behind the barrier of a round whose snapshot is not complete: the
items of the next round wait until every node has been copied (R398). -/
def State.sendHeld (s : State) (r : Nat) (t : Stream) : Bool :=
  (s.regionOf r).any fun x => s.snapsIn x && decide (x.round < t.headRound)

/-- Generator `g` of tile `r` offers the head of its output to its local port; its stream ends when the router accepts
its last item (R183, R186). In the cycle of a bubble it sends nothing else (R171). -/
def State.emitGen (s : State) (r g : Nat) : State :=
  match (s.gen r g).stream with
  | none => s
  | some t =>
    if (s.fab r).frozen ∨ s.now < (s.gen r g).bubble ∨ t.ended ∨ s.sendHeld r t then s
    else match t.head with
      | none => s
      | some i => match s.acceptRouter r (4 + spbPort t.spb) 0 i with
        | none => s
        | some s =>
          let s := (s.modStream r g fun t => { t with out := t.out.drop 1 }).touch r
          if t.out.length ≤ 1 ∧ (t.closed ∨ t.killed) then s.endStream r g else s

/-! ### Writing (R186, R397, R431, R441) -/

/-- Where a held store goes; it was translated when its token was taken. -/
def State.placeHeld (s : State) (r : Nat) (t : Stream) (p : DWord) : Except Nat (Loc × Option Xlat) :=
  if ptrSpace p = 1 then .ok (.mtile r (tilePart p).1 (tilePart p).2, none)
  else if ptrSpace p = 2 then .ok (.mtile (ptrRank p) (tilePart p).1 (tilePart p).2, none)
  else s.placeNow t.part t.asid p ⟨false, true, decide (t.level = 3)⟩

/-- One held store goes to its home: whole bytes as a store, others as two atomic merges of their bits.
DEDUCED (log 81), unsafe. -/
def State.commitStore (s : State) (r g : Nat) (h : HeldStore) : State :=
  match (s.gen r g).stream with
  | none => s
  | some t =>
    match s.placeHeld r t h.ptr with
    | .error c => s.genFault r g c h.ptr
    | .ok (loc, x) =>
      let order := (s.accs.filter fun a => decide (a.who = .gen r g) && locOverlap a.loc a.size loc h.size).map Access.id
      let new (s : State) (k : AccKind) (v : Nat) (before : List Nat) : Access :=
        { s.newAccess (.gen r g) k loc h.size v h.ptr x with
          before := t.before ++ order ++ before, part := t.part, issued := s.now + s.circuitTime r loc }
      if h.mask = 2 ^ (8 * h.size) - 1 then
        let a := new s .store h.data []
        (s.send a).modStream r g fun t => { t with commit := t.commit ++ [a.id] }
      else
        let a := new s (.amo .and) (2 ^ (8 * h.size) - 1 - h.mask) []
        let s := s.send a
        let b := new s (.amo .or) h.data [a.id]
        (s.send b).modStream r g fun t => { t with commit := t.commit ++ [a.id, b.id] }

/-- A write stream commits the stores that it holds for rounds up to `k` (R396, R397). -/
def State.commitHeld (s : State) (r g k : Nat) : State :=
  match (s.gen r g).stream with
  | none => s
  | some t =>
    let s := s.modStream r g fun t => { t with held := t.held.filter fun h => decide (k < h.rnd) }
    (t.held.filter fun h => decide (h.rnd ≤ k)).foldl (fun s h => s.commitStore r g h) s

/-- A write stream commits everything that it holds, as at a boundary. -/
def State.commitAll (s : State) (r g : Nat) : State :=
  match (s.gen r g).stream with
  | none => s
  | some t =>
    (t.held.foldl (fun s h => s.commitStore r g h) (s.modStream r g fun t => { t with held := [] })).modStream r g fun t =>
      { t with recTok := t.tok }

/-- Round `k` of its region ends for the stream of a generator (R396): a read stream records its position, a write stream
commits. DEDUCED (log 82), unsafe. -/
def State.commitGen (s : State) (r g k : Nat) : State :=
  match (s.gen r g).stream with
  | none => s
  | some t =>
    let n := k + 1 - t.start
    if spbDir t.spb = 0 ∨ spbDir t.spb = 3 then
      if k < t.start + t.ends ∧ t.rounds < n then
        let m := if spbRound t.spb = 0 then spbTotal t.spb else Nat.min (n * spbRound t.spb) (spbTotal t.spb)
        s.modStream r g fun t => { t with rounds := n, recTok := m, records := t.records.filter fun e => decide (m ≤ e.1) }
      else s
    else if t.ended ∨ k < t.start then s
    else
      (s.commitHeld r g k).modStream r g fun t =>
        { t with rounds := n, recTok := mapGet t.recTok t.marks k, marks := t.marks.filter fun e => decide (k < e.1) }

/-- The stream of a generator goes back to its last recorded position (R184, R399): its reads are discarded, its held
stores dropped, and the records and markers that it sent behind that position are sent again. A read stream that had ended
behind it runs again; a killed one has only its last marker left. -/
def State.rewindGen (s : State) (r g : Nat) : State :=
  match (s.gen r g).stream with
  | none => s
  | some t =>
    let round := (s.regionOf r).elim 0 Region.round
    if spbDir t.spb = 0 ∨ spbDir t.spb = 3 then
      let s := { s with accs := s.accs.filter fun (a : Access) => !decide (a.who = Who.gen r g) }
      let out := if t.killed then t.records.map (fun e => GenOut.item e.2) ++ (if t.ended then [] else [.item (.marker 7)])
        else t.again t.recTok
      let closed := decide (spbTotal t.spb ≤ t.recTok)
      let ended := if t.killed then t.ended && out.isEmpty else closed && out.isEmpty
      let s := if t.ended ∧ !ended then s.modCore r fun c => { c with ocTl := c.ocTl + 1 }
        else if !t.ended ∧ ended then s.modCore r fun c => { c with ocTl := c.ocTl - 1 } else s
      s.modStream r g fun t => { t with
        tok := t.recTok, ends := t.rounds, out := out, stop := false, closed := closed, ended := ended, idxAcc := [],
        index := [], idxNext := if spbPerRow t.spb = 0 then 0 else t.recTok / spbPerRow t.spb }
    else if t.ended then s
    else s.modStream r g fun t => { t with
      tok := t.recTok, seen := Nat.max round t.start, held := [], marks := [], stop := false,
      closed := decide (spbDir t.spb = 1 ∧ spbTotal t.spb ≤ t.recTok) }

/-- Write accesses that have performed leave the stream; one that met a fault raises it. -/
def State.reapStores (s : State) (r g : Nat) (t : Stream) : State :=
  let gone := s.accs.filter fun a => t.commit.contains a.id && a.done
  let s := { s with accs := s.accs.filter fun a => !(gone.any fun b => b.id == a.id) }
  let s := if gone.isEmpty then s else
    (s.modStream r g fun t => { t with commit := t.commit.filter fun i => !(gone.any fun b => b.id == i) }).touch r
  match gone.find? fun a => a.fault != 0 with
  | some a => s.genFault r g a.fault a.ptr
  | none => s

/-- The pieces of a token of a write stream: elements of a walk, or consecutive elements from the grant of a slot switch
(R186, R431). -/
def Stream.writeSpans (t : Stream) (grant : Option (Nat × Nat × Nat)) : List Span :=
  let b := t.spb
  match grant with
  | none => spansOfRuns (spbBase b) (spbTokenRuns b t.tok)
  | some (d, slot, j) =>
    let w := spbWidth b
    let first : Int := d * spbStride b 1 + slot * spbStride b 0 + (j * (256 / w) : Nat)
    spansOfRuns (spbBase b) [⟨(8 * ptrOff (spbBase b) : Nat) + first * w, 256, 0⟩]

/-- A data token of a write stream is taken: its pieces are translated and held for the round. The 1025th token that a
round would hold commits as if a boundary had passed, and the round cannot be voided (R397). -/
def State.takeToken (s : State) (r g : Nat) (t : Stream) (tok : Nat) (grant : Option (Nat × Nat × Nat))
    (took : State → State) : State :=
  match s.genPieces r g t false true (t.writeSpans grant) with
  | (s', .error .miss) => s'.genAccount r g 1
  | (s', .error (.fault c v)) => s'.genFault r g c v
  | (s', .error (.at_ _ _)) => s'
  | (s', .ok l) =>
    let stores := l.map fun x => (⟨t.seen, x.1.ptr, x.1.size, bits tok x.1.pos x.1.nbits * 2 ^ x.1.shift,
      (2 ^ x.1.nbits - 1) * 2 ^ x.1.shift⟩ : HeldStore)
    let s := (took s').modStream r g fun t => { t with
      tok := t.tok + 1, held := t.held ++ stores,
      closed := decide (spbDir t.spb = 1 ∧ t.tok + 1 = spbTotal t.spb) }
    let s := (s.modGen r g fun x => { x with nextAt := s.now + 1 }).genAccount r g 0
    if t.tok + 1 - t.recTok ≤ 1024 then s
    else
      let s := s.commitAll r g
      match s.regionOf r with
      | some x => s.modRegion x.lead fun x => { x with unvoid := true }
      | none => s

/-- A barrier reaches a write stream's generator, which is a sink (R306): the items behind it belong to the next round.
On a tile of no running region the round commits here. -/
def State.sinkBarrier (s : State) (r g : Nat) (src : List (Nat × Nat × Nat)) : State :=
  let k := src.foldl (fun m x => Nat.max m x.2.2) 0
  if k = 0 then s
  else
    let s := s.modStream r g fun t => { t with seen := Nat.max t.seen k, marks := mapSet t.marks (k - 1) t.tok }
    if (s.regionOf r).isSome then s else (s.commitAll r g).modStream r g fun t => { t with rounds := t.rounds + 1 }

/-- A running write stream takes the item at its local port; one that SKILL has stopped drops it, with its grant (R186, R187,
R431). -/
def State.takeWrite (s : State) (r g : Nat) (t : Stream) (i : Item) : State :=
  let k := spbPort t.spb
  let dir := spbDir t.spb
  let took (s : State) : State := (s.takeOut r k).genAccount r g 0
  let close (s : State) : State :=
    (s.modStream r g fun t => { t with closed := true }).modGen r g fun x => { x with nextAt := s.now + 1 }
  match i with
  | .splice _ => s
  | .wave _ => took s
  | .barrier src => if t.killed then took s else (took s).sinkBarrier r g src
  | .marker l => if dir = 2 ∧ l = 7 then close (took s) else took s
  | .data toks _ =>
    if t.killed then
      let s := (took s).modStream r g fun t => { t with tok := t.tok + 1 }
      let s := match if dir = 2 then (s.router r).utilFor k else none with
        | some u => s.modFab r fun f => f.modUx u fun x => { x with grants := x.grants.drop 1 }
        | none => s
      if dir = 1 ∧ spbTotal t.spb ≤ t.tok + 1 then close s else s
    else if dir = 1 then
      if spbTotal t.spb ≤ t.tok then (took s).genFault r g 6 (genVal r g 4)
      else s.takeToken r g t (toks.getD 0 0) none took
    else match (s.router r).utilFor k with
      | none => s
      | some u => match ((s.fab r).ux u).grants with
        | [] => s
        | e :: _ => s.takeToken r g t (toks.getD 0 0) (some e) fun s =>
            (took s).modFab r fun f => f.modUx u fun x => { x with grants := x.grants.drop 1 }

/-- What reaches a generator whose last stream has ended, or that has run none (R186, R187, R441).
DEDUCED (log 80), unsafe. -/
def State.idleWrite (s : State) (r g k : Nat) (i : Item) : State :=
  let t := (s.gen r g).stream
  let done := t.any fun t => spbDir t.spb == 1
  if t.any Stream.killed then s
  else match i with
    | .barrier _ => s.takeOut r k
    | .wave _ => s.takeOut r k
    | .marker _ => if done then s.takeOut r k else s
    | .data _ _ => if done then (s.takeOut r k).fabricFault r (.gen g) 6 (genVal r g 4) else s
    | .splice _ => s

/-- The local port whose destination is a generator. -/
def Router.portOfGen (t : Router) (g : Nat) : Option Nat :=
  (List.range 4).find? fun k => t.dest k == 0x1000 + g

/-- STREAM_WRITE_TOKEN (R186, R397, R431, R441): the write side of the generator in focus. Stores that have performed leave
it; a stream whose last item has been taken commits in the next cycle where it has one round of its own, and ends once
nothing is held or under way; else the generator takes the item at its local port. -/
def execStreamWriteToken (s : State) : Host.Outcome State Fault Refusal :=
  let r := s.foc.unit
  let g := s.foc.sub
  let write (t : Stream) : Bool := decide (spbDir t.spb = 1 ∨ spbDir t.spb = 2)
  let s := match (s.gen r g).stream with
    | some t => if write t then s.reapStores r g t else s
    | none => s
  let x := s.gen r g
  .next (
    if (s.fab r).frozen ∨ s.now < x.nextAt then s
    else match x.stream with
      | some t =>
        if write t && !t.ended then
          if t.closed && t.killed then s.endStream r g
          else if t.closed && (spbRound t.spb == 0 || spbDir t.spb == 2) && !t.held.isEmpty then
            (s.commitAll r g).modStream r g fun t => { t with rounds := t.rounds + 1 }
          else if t.closed && t.held.isEmpty && t.commit.isEmpty then s.endStream r g
          else if t.stop || s.joinActive r t.joins then s
          else match s.waitingAt r (spbPort t.spb) with
            | some i => s.takeWrite r g t i
            | none => s
        else if t.ended then
          match (s.router r).portOfGen g with
          | some k => (s.waitingAt r k).elim s (s.idleWrite r g k)
          | none => s
        else s
      | none => match (s.router r).portOfGen g with
        | some k => (s.waitingAt r k).elim s (s.idleWrite r g k)
        | none => s)

/-! ### SKILL and SPOS (R187) -/

/-- SKILL (R187). DEDUCED (log 79), unsafe. -/
def execSkill (ga : BitVec 5) (s : State) : Host.Outcome State Fault Refusal :=
  .next (s.memWord [ga] [] fun r =>
    let h := s.reg r ga
    let g := h.toNat
    if g ≥ 4 then .trap s 6 (ptrSub h 5)
    else match (s.gen r g).stream with
      | none => .retire s 1
      | some t =>
        if t.ended ∨ t.killed then .retire s 1
        else if spbDir t.spb = 0 ∨ spbDir t.spb = 3 then
          let ids := t.idxAcc.map Prod.snd
          let left : List GenOut := if t.stop then t.out.filter fun (e : GenOut) => match e with
            | .tok _ _ none => false
            | _ => true else t.out
          let s := { s with accs := s.accs.filter fun (a : Access) =>
            !(decide (a.who = Who.gen r g) && (t.stop || ids.contains a.id)) }
          .retire (s.modStream r g fun (t : Stream) =>
            { t with killed := true, stop := false, idxAcc := [], out := left ++ [GenOut.item (.marker 7)] }) 1
        else
          .retire ((s.modStream r g fun t => { t with killed := true, stop := false, held := [] }).modGen r g fun x =>
            { x with nextAt := s.now + 1 }) 1)

/-- SPOS (R187): a read token has moved once the router has accepted it, a written one once it has been taken.
DEDUCED (log 128), unsafe. -/
def execSpos (gd ga : BitVec 5) (s : State) : Host.Outcome State Fault Refusal :=
  .next (s.memWord [ga] [gd] fun r =>
    let h := s.reg r ga
    let g := h.toNat
    if g ≥ 4 then .trap s 6 (ptrSub h 5)
    else
      let v := (s.gen r g).stream.elim 0 fun t =>
        b2n (!t.ended) * 2 ^ 63 + t.rounds % 2 ^ 16 * 2 ^ 32 + (t.tok - t.waiting - t.recTok) % 2 ^ 32
      .retire (s.setReg r gd (BitVec.ofNat 64 v)) 1)

end Sys2Proof.Machine
end

