-- ==== Sys2Proof/Machine/Utility.lean ====
section
/-!
DEFINITION. Utility nodes: corner turn, intersect, sparse accumulator, slot switch and reorder buffer, and the operation
words that feed them (R178, R188 to R194, R439, R440, R456).
-/

namespace Sys2Proof.Machine

/-! ### The descriptor (R188) and the frame of a node -/

/-- Mode of a node. -/
def Util.mode (x : Util) : Nat := bits x.desc 61 3
/-- Value format of an accumulator. -/
def Util.fmt (x : Util) : Nat := bits x.desc 57 4
/-- Destinations of a slot switch. -/
def Util.dests (x : Util) : Nat := bits x.desc 48 4
/-- Slots for each destination of a slot switch. -/
def Util.cap (x : Util) : Nat := bits x.desc 40 8
/-- Flush level of an accumulator. -/
def Util.flv (x : Util) : Nat := bits x.desc 37 3
/-- Free slots of a destination; one at or above dests reads 0 (R193). -/
def Util.freeOf (x : Util) (d : Nat) : Nat := if d < x.dests then mapGet x.cap x.free d else 0

/-- The fused size at which output Y of node `u` groups its tokens: that of the cell that reads it.
DEDUCED (log 64), unsafe. -/
def Fabric.uxSize (f : Fabric) (u : Nat) : Nat := f.readerSize (24 + u)

/-- One pending item moves to Y where it has room: at most one each cycle (R190, R456). -/
def Util.refill (x : Util) (n now : Nat) : Util :=
  match x.pend with
  | [] => x
  | i :: rest =>
    if x.outAt ≤ now ∧ portRoom n 2 x.outY i then
      { x with pend := rest, outY := pushItem n now x.outY i, outAt := now + 1,
               blocks := match i, x.blocks with
                 | .data _ _, b :: bs => if b ≤ 1 then bs else (b - 1) :: bs
                 | _, bs => bs }
    else x

/-- The head of input A or B once it counts. A wavefront marker stays there until the node switches (R205). -/
def Util.headOf (x : Util) (side now : Nat) : Option Item :=
  match if side = 0 then x.inA else x.inB with
  | ⟨.wave _, _⟩ :: _ => none
  | ⟨i, t⟩ :: _ => if t ≤ now then some i else none
  | [] => none
/-- The node without the head of input A or B. -/
def Util.drop (x : Util) (side : Nat) : Util :=
  if side = 0 then { x with inA := x.inA.drop 1 } else { x with inB := x.inB.drop 1 }

/-- tval of a node's fault (R178, R190): node, rank and subcode. -/
def utilVal (r u sub : Nat) : DWord := BitVec.ofNat 64 (u * 2 ^ 13 + r * 2 ^ 4 + sub)

/-- How one move of a node ends. -/
inductive UtilEnd where
  | to (x : Util)
  | fault (cause sub : Nat)
  | rest

/-- The node in focus moves: unless its tile is frozen, it refills Y and then makes the move of its mode (R208, R456). -/
def State.utilMove (s : State) (mode : Nat) (f : Fabric → Util → UtilEnd) : State :=
  let r := s.foc.unit
  let u := s.foc.sub
  let fb := s.fab r
  let x := fb.ux u
  if u > 1 ∨ x.mode ≠ mode ∨ fb.frozen then s
  else
    let y := x.refill (fb.uxSize u) s.now
    match f fb y with
    | .to z =>
      if z = x then s else
        (s.modFab r fun fb => fb.modUx u fun _ => { z with acct := z.acct.enter 0 s.now }).touch r
    | .fault c sub => (s.modFab r fun fb => fb.modUx u fun _ => y).fabricFault r (.ux u) c (utilVal r u sub)
    | .rest => if y = x then s else
        (s.modFab r fun fb => fb.modUx u fun _ => { y with acct := y.acct.enter 0 s.now }).touch r

/-- A joined, copied item passes straight to Y behind what is pending (R456). -/
def Util.passOn (x : Util) (i : Item) : Util := { x.drop 0 with pend := x.pend ++ [i] }

/-! ### Corner turn (R178) -/

/-- Elements per side of a block of a node. -/
def Util.edge (x : Util) : Nat := 2 ^ (x.turn + 3)
/-- The element width of a sideband code that a corner turn accepts (R178): no DQ4, and whole tokens for each row. -/
def turnWidth (edge code : Nat) : Option Nat :=
  match fmtOfCode code with
  | none => none
  | some f => if code = 5 ∨ edge * fmtBits f % 256 ≠ 0 then none else some (fmtBits f)
/-- The tokens of a block. -/
def blockTokens (edge b : Nat) : Nat := edge * (edge * b / 256)
/-- A block of `edge`² elements of width `b`, turned: its columns as rows. -/
def turnBlock (edge b : Nat) (toks : List Nat) : List Nat :=
  let per := 256 / b
  let row := edge / per
  let elem (y x : Nat) : Nat := bits (toks.getD (y * row + x / per) 0) (b * (x % per)) b
  (List.range edge).flatMap fun c =>
    (List.range row).map fun t => packElems b ((List.range per).map fun i => elem (t * per + i) c)

/-- The block under way completes with zero elements: it is turned and what waits behind it follows (R178).
DEDUCED (log 65), unsafe. -/
def Util.closeBlock (x : Util) (b : Nat) : Util :=
  let n := blockTokens x.edge b
  let toks := turnBlock x.edge b (x.block ++ List.replicate (n - x.block.length) 0)
  { x with pend := x.pend ++ toks.map (fun t => .data [t] x.bfmt) ++ x.aside, block := [], aside := [],
           blocks := x.blocks ++ [n] }

/-- CORNER_TURN_BLOCK (R178): the node in focus accepts the next token, and completes and turns its block. -/
def execCornerTurnBlock (s : State) : Host.Outcome State Fault Refusal :=
  .next (s.utilMove 1 fun _ x =>
    match x.headOf 0 s.now with
    | none => .rest
    | some (.data toks f) =>
      if x.block.isEmpty ∧ x.blocks.length ≥ 2 then .rest
      else match turnWidth x.edge f with
        | none => .fault 10 0
        | some b =>
          if !x.block.isEmpty && f != x.bfmt then .fault 10 0
          else
            let x := { x.drop 0 with block := x.block ++ [toks.getD 0 0], bfmt := f }
            .to (if x.block.length ≥ blockTokens x.edge b then x.closeBlock b else x)
    | some (.marker l) =>
      if x.block.isEmpty then .to (x.passOn (.marker l))
      else match turnWidth x.edge x.bfmt with
        | none => .fault 10 0
        | some b => .to ((x.closeBlock b).passOn (.marker l))
    | some i =>
      if x.block.isEmpty then .to (x.passOn i) else .to { x.drop 0 with aside := x.aside ++ [i] })

/-! ### Intersect (R189, R190, R456) -/

/-- The coordinate of padding. -/
def padCoord : Nat := 0xFFFFFFFF
/-- The pairs of a token, padding skipped (R189). -/
def pairsOf (tok : Nat) : List (Nat × Nat) :=
  ((List.range 4).map fun j => (bits tok (64 * j) 32, bits tok (64 * j + 32) 32)).filter fun p => p.1 != padCoord
/-- Pairs appended to an open fibre, whose coordinates must strictly ascend. -/
def joinPairs : List (Nat × Nat) → List (Nat × Nat) → Option (List (Nat × Nat))
  | acc, [] => some acc
  | acc, p :: ps =>
    match acc.getLast? with
    | some l => if p.1 ≤ l.1 then none else joinPairs (acc ++ [p]) ps
    | none => joinPairs (acc ++ [p]) ps
/-- The triples of two fibres, ascending. -/
def triplesOf (a b : List (Nat × Nat)) : List (Nat × Nat × Nat) :=
  a.filterMap fun p => (b.find? fun q => q.1 == p.1).map fun q => (p.1, p.2, q.2)
/-- Triples two to a token, the last one padded. -/
def tripleTokens : List (Nat × Nat × Nat) → List Nat
  | [] => []
  | [(c, a, b)] => [packElems 32 [c, a, b, 0, padCoord, 0, 0, 0]]
  | (c, a, b) :: (d, e, f) :: rest => packElems 32 [c, a, b, 0, d, e, f, 0] :: tripleTokens rest

/-- Fibres that have closed on both inputs are matched (R190). -/
def Util.matchFibres (x : Util) : Util :=
  match x.closedA, x.closedB with
  | (a, la, fa) :: as, (b, lb, _) :: bs =>
    { x with closedA := as, closedB := bs,
             pend := x.pend ++ (tripleTokens (triplesOf a b)).map (fun t => .data [t] fa) ++ [.marker (Nat.max la lb)] }
  | _, _ => x

/-- An item of one input is taken (R189, R190). -/
def Util.takeFibre (x : Util) (side : Nat) (i : Item) : UtilEnd :=
  match i with
  | .data toks f =>
    match joinPairs (if side = 0 then x.openA else x.openB) (toks.flatMap pairsOf) with
    | none => .fault 6 8
    | some l => .to (if side = 0 then { x.drop 0 with openA := l, fmtA := f } else { x.drop 1 with openB := l })
  | .marker l =>
    .to (if side = 0 then { x.drop 0 with openA := [], closedA := x.closedA ++ [(x.openA, l, x.fmtA)] }
         else { x.drop 1 with openB := [], closedB := x.closedB ++ [(x.openB, l, 0)] }).matchFibres
  | _ => .rest

/-- INTERSECT_MATCH (R189, R190): the unit in focus takes the next item of input A (`arg` 0) or B, and matches the fibres
that have closed; barriers pass when they stand at the heads of both inputs (R456). DEDUCED (log 66), safe. -/
def execIntersectMatch (s : State) : Host.Outcome State Fault Refusal :=
  .next (s.utilMove 2 fun _ x =>
    if !x.pend.isEmpty then .rest
    else
      let side := if s.foc.arg = 0 then 0 else 1
      match x.headOf 0 s.now, x.headOf 1 s.now with
      | some a, some b =>
        if a.isSync && b.isSync then
          match joinItems [a, b] with
          | some i => .to { (x.drop 0).drop 1 with pend := x.pend ++ [i] }
          | none => .rest
        else x.takeFibre side (if side = 0 then a else b)
      | some a, none => if side = 0 then x.takeFibre 0 a else .rest
      | none, some b => if side = 1 then x.takeFibre 1 b else .rest
      | none, none => .rest)

/-! ### Sparse accumulator (R190, R439, R440) -/

/-- The value of a pair under an accumulator of a format, given the sideband: FP32 or int32 bits, or FM (R439). -/
def accValue (accFmt sideband v : Nat) : Option Nat :=
  if accFmt = 9 then some v
  else if sideband = 0 then some v
  else if sideband = 1 then some (roundNE .fp32 (decodeFloat .fp16 (v % 2 ^ 16))).1
  else if sideband = 2 then some (roundNE .fp32 (decodeFloat .bf16 (v % 2 ^ 16))).1
  else none
/-- The sum of a held value and a new one (R190). -/
def accAdd (accFmt a b : Nat) : Nat :=
  if accFmt = 9 then (a + b) % 2 ^ 32
  else (roundNE .fp32 (faddExact (decodeFloat .fp32 a) (decodeFloat .fp32 b)).1).1
/-- A held value as a flush emits it: converted by nearest-even under the overflow rule (R190). -/
def accOut (accFmt v : Nat) : Nat :=
  if accFmt = 1 then (convertElem .fp32 .fp16 .nearestEven false v).1
  else if accFmt = 2 then (convertElem .fp32 .bf16 .nearestEven false v).1
  else v
/-- Pairs are added one after another, the first of a coordinate being kept as it is: the sums, or the cause and subcode of the first
that fails. DEDUCED (log 144), unsafe. -/
def accPairs (accFmt sideband : Nat) : NMap Nat → List (Nat × Nat) → Except (Nat × Nat) (NMap Nat)
  | sums, [] => .ok sums
  | sums, (c, v) :: ps =>
    match accValue accFmt sideband v with
    | none => .error (10, 0)
    | some w => match mapFind sums c with
      | some h => accPairs accFmt sideband (mapSet sums c (accAdd accFmt h w)) ps
      | none =>
        if sums.length ≥ 4096 then .error (6, 6) else accPairs accFmt sideband (mapSet sums c w) ps
/-- Pairs four to a token, the last one padded (R440). -/
def pairTokens (accFmt n : Nat) (l : NMap Nat) : List Nat :=
  (chunks 4 n l).map fun g =>
    packElems 64 (g.map (fun p => p.1 + accOut accFmt p.2 * 2 ^ 32) ++ List.replicate (4 - g.length) padCoord)

/-- SPARSE_ACC_ADD (R190): the accumulator in focus takes the next item of input A: its pairs are added, or a marker
flushes. Markers that a cell sends are closes, which flush whatever flv holds (R191). -/
def execSparseAccAdd (s : State) : Host.Outcome State Fault Refusal :=
  let u := s.foc.sub
  .next (s.utilMove 3 fun fb x =>
    if !x.pend.isEmpty then .rest
    else match x.headOf 0 s.now with
      | none => .rest
      | some (.data toks f) =>
        match accPairs x.fmt f x.sums (toks.flatMap pairsOf) with
        | .error (c, sub) => .fault c sub
        | .ok sums => .to { x.drop 0 with sums := sums }
      | some (.marker l) =>
        let streamed := (List.range 4).any fun k =>
          codeKind (fb.router.dest k) == 5 && bits (fb.router.dest k) 2 1 == u
        if streamed && l < x.flv then .to (x.drop 0)
        else .to { x.drop 0 with
          sums := [],
          pend := (pairTokens x.fmt x.sums.length x.sums).map (fun t => .data [t] x.fmt) ++ [.marker l] }
      | some i => .to (x.passOn i))

/-! ### Reorder buffer (R194) -/

/-- The held items in ascending distance from the expected tag. -/
def Util.heldInOrder (x : Util) : List Item :=
  ((x.held.filter fun e => decide (x.next ≤ e.1)) ++ (x.held.filter fun e => decide (e.1 < x.next))).map Prod.snd

/-- REORDER_ARRIVAL (R194): the item at input A of the buffer in focus is held, waits or faults; a marker flushes. -/
def execReorderArrival (s : State) : Host.Outcome State Fault Refusal :=
  .next (s.utilMove 5 fun _ x =>
    match x.headOf 0 s.now with
    | none => .rest
    | some (.data toks f) =>
      let t := toks.getD 0 0 % 2 ^ 16
      let d := (t + 2 ^ 16 - x.next) % 2 ^ 16
      if d ≥ 2 ^ 15 ∨ (mapFind x.held t).isSome then .fault 6 7
      else if d < 256 then .to { x.drop 0 with held := mapSet x.held t (.data toks f) }
      else .rest
    | some (.marker l) =>
      if x.pend.isEmpty then
        .to { x.drop 0 with held := [], next := 0, pend := x.heldInOrder ++ [.marker l] }
      else .rest
    | some i =>
      if x.pend.isEmpty && (mapFind x.held x.next).isNone then .to (x.passOn i) else .rest)

/-- REORDER_EMIT (R194): the held item of the expected tag goes to Y, and the expected tag advances. -/
def execReorderEmit (s : State) : Host.Outcome State Fault Refusal :=
  .next (s.utilMove 5 fun fb x =>
    match x.pend, mapFind x.held x.next with
    | [], some i =>
      if x.outAt ≤ s.now ∧ portRoom (fb.uxSize s.foc.sub) 2 x.outY i then
        .to (({ x with held := mapDel x.held x.next, next := (x.next + 1) % 2 ^ 16, pend := [i] } : Util).refill
          (fb.uxSize s.foc.sub) s.now)
      else .rest
    | _, _ => .rest)

/-! ### Operation words (R191 to R193) -/

/-- A utility word puts one item into an input of its node, or stalls while the input has no room (R191). -/
def OpCtx.feedUtil (x : OpCtx) (s : State) (u side : Nat) (i : Item) : OpEnd :=
  match s.acceptUtil x.r u side i with
  | some s => .next s x.f 1
  | none => .stall s x.f 2

/-- What a utility word with a level or a register sends: a close of the level, or the register's tokens with sideband 0
(R191, R439). -/
def OpCtx.utilItem (x : OpCtx) (v : BitVec 5) (lvl : BitVec 3) : Item :=
  if lvl = 0 then .data (x.tokens x.f 0 v.toNat) 0 else .marker lvl.toNat

/-- ISECT (R191). -/
def execIsect (v : BitVec 5) (ux : BitVec 1) (lvl : BitVec 3) (inB : BitVec 1) (s : State) :
    Host.Outcome State Fault Refusal :=
  .next (s.opWord fun x => x.feedUtil s ux.toNat inB.toNat (x.utilItem v lvl))

/-- SACC (R191). -/
def execSacc (v : BitVec 5) (ux : BitVec 1) (lvl : BitVec 3) (s : State) : Host.Outcome State Fault Refusal :=
  .next (s.opWord fun x => x.feedUtil s ux.toNat 0 (x.utilItem v lvl))

/-- SEQT (R191, R194). -/
def execSeqt (v : BitVec 5) (ux : BitVec 1) (lvl : BitVec 3) (s : State) : Host.Outcome State Fault Refusal :=
  .next (s.opWord fun x => x.feedUtil s ux.toNat 0 (x.utilItem v lvl))

/-- The destination that a choice word is granted, and whether it is the second choice (R193). -/
def Util.grant (x : Util) (choice : Nat) : Option (Nat × Nat) :=
  let first := bits choice 0 3
  let second := bits choice 4 3
  if first < x.dests ∧ x.freeOf first > 0 then some (first, 0)
  else if !choice.testBit 7 ∧ second < x.dests ∧ x.freeOf second > 0 then some (second, 1)
  else none

/-- Four free counts as lanes 1 and 2 of SLOT give them. -/
def Util.freeLane (x : Util) (d : Nat) : Nat :=
  x.freeOf (d + 3) * 2 ^ 24 + x.freeOf (d + 2) * 2 ^ 16 + x.freeOf (d + 1) * 2 ^ 8 + x.freeOf d

/-- SLOT (R193): the granted item leaves by Y with its grant; a close empties the switch's counts. Lanes 0 to 2 of the members
above the lowest keep their values, as do all that R193 does not write; the node works in this cycle (R196).
DEDUCED (log 69), unsafe. -/
def execSlot (v : BitVec 5) (ux : BitVec 1) (lvl : BitVec 3) (s : State) : Host.Outcome State Fault Refusal :=
  .next (s.opWord fun x =>
    let u := ux.toNat
    let n := (s.fab x.r).uxSize u
    let y := (s.fab x.r).ux u
    if y.pend.length ≥ 2 then .stall (s.modFab x.r fun f => f.modUx u fun y => y.refill n s.now) x.f 2
    else if lvl ≠ 0 then
      .next (s.modFab x.r fun f => f.modUx u fun y =>
        ({ y with free := [], seq := 0, pend := y.pend ++ [.marker lvl.toNat], acct := y.acct.enter 0 s.now } : Util).refill
          n s.now) x.f 1
    else
      let g := y.grant (x.lane0 v)
      let z : Util := match g with
        | none => y
        | some (d, _) =>
          { y with free := mapSet y.free d (y.freeOf d - 1),
                   pend := y.pend ++ [.data (x.tokens x.f 0 (v.toNat + 1)) 0],
                   grants := y.grants ++ (List.range x.size).map fun j => (d, y.cap - y.freeOf d, j) }
      let lane0 := y.seq * 2 ^ 16 + (match g with
        | none => 2 ^ 15
        | some (d, alt) => alt * 2 ^ 14 + d * 2 ^ 8 + (y.cap - y.freeOf d))
      let res (i : Nat) : Word :=
        if i = 0 then BitVec.ofNat 32 lane0
        else if i = 1 then BitVec.ofNat 32 (z.freeLane 0)
        else if i = 2 then BitVec.ofNat 32 (z.freeLane 4)
        else if i % 8 < 3 then lane (x.reg v) i else 0
      .next (s.modFab x.r fun f => f.modUx u fun _ =>
          ({ z with seq := (z.seq + 1) % 2 ^ 16, acct := z.acct.enter 0 s.now } : Util).refill n s.now)
        (x.f.setReg v.toNat ((List.range x.lanes).map res)) 1)

end Sys2Proof.Machine
end

