-- ==== Sys2Proof/Machine/Activate.lean ====
section
/-!
DEFINITION. Activation of an image: stream lanes, the nodes of a tile as an image sets them up, preloads, the wavefront and
the conditions under which each node switches (R147, R173, R201, R204, R205).
-/

namespace Sys2Proof.Machine

/-! ### Slots and regions (R201, R457) -/

/-- A resident slot of a tile. -/
def State.slot (s : State) (r k : Nat) : Slot := mapGet Slot.reset (s.tile r).slots k
/-- The state with a resident slot of a tile changed by `f`. -/
def State.modSlot (s : State) (r k : Nat) (f : Slot → Slot) : State :=
  s.modTile r fun t => { t with slots := mapMod Slot.reset t.slots k f }
/-- The region on which a configuration word of core `r` acts, as lead rank and log of its size (R457). -/
def State.cfgRegion (s : State) (r : Nat) : Nat × Nat := (s.region? r).elim (r, 0) fun g => (r, g.lgn)
/-- The ranks of a block of tiles. -/
def blockRanks (lead lgn : Nat) : List Nat := (List.range (2 ^ lgn)).map (lead + ·)
/-- A command counted in oc.tl has ended. -/
def State.tlDone (s : State) (core : Option Nat) : State :=
  match core with
  | some r => s.modCore r fun c => { c with ocTl := c.ocTl - 1 }
  | none => s

/-! ### Stream lanes (R173) -/

/-- The tree links, up or down, that join a tile to the switch it shares with another: 1 to 4 (R17, R18). -/
def treeLinks (a b : Nat) : Nat := if a / 4 = b / 4 then 1 else if a / 16 = b / 16 then 2 else if a / 64 = b / 64 then 3 else 4
/-- The die-to-die boundaries on the way from a tile to another: in the row first, then in the column (R21). -/
def dieSteps (a b : Nat) : List (Nat × Nat) :=
  let da := a / 128
  let db := b / 128
  let dm := da / 2 * 2 + db % 2
  (if da % 2 ≠ db % 2 then [(da, dm)] else []) ++ (if da / 2 ≠ db / 2 then [(dm, db)] else [])
/-- The links on which a circuit takes a lane, numbered by level, direction and place. -/
def circuitLinks (a b : Nat) : List Nat :=
  (List.range (treeLinks a b)).flatMap (fun l => [2 * l * 1024 + a / 4 ^ l, (2 * l + 1) * 1024 + b / 4 ^ l]) ++
    (dieSteps a b).map fun e => 16384 + 4 * e.1 + e.2
/-- The cycles that a circuit takes: its switches and four for each boundary. -/
def circuitLat (a b : Nat) : Nat :=
  let x := (dieSteps a b).length
  (if x = 0 then 2 * treeLinks a b - 1 else 7 + x) + 4 * x
/-- The lanes of a link. -/
def linkLanes (key : Nat) : Nat := if key < 16384 then 16 else 64
/-- Lanes for circuits between some tiles beside those taken: the links, or the source of the first that lacks one. -/
def takeLanes (used : List Nat) : List (Nat × Nat) → Except Nat (List Nat)
  | [] => .ok []
  | (a, b) :: cs =>
    let ls := circuitLinks a b
    if ls.any fun l => decide (linkLanes l ≤ used.count l) then .error a
    else match takeLanes (used ++ ls) cs with
      | .ok more => .ok (ls ++ more)
      | .error e => .error e
/-- The lanes that an image for a region led by `lead` takes in a slot, in place of what the slot held (R173). -/
def State.reserve (s : State) (lead slot : Nat) (im : Image) : Except Nat (List LaneSet) :=
  let rest := s.lanes.filter fun l => !decide (l.lead = lead ∧ l.slot = slot)
  match takeLanes (rest.flatMap LaneSet.links) (im.circuits.map fun c => (lead + c.st, lead + c.dt)) with
  | .error e => .error e
  | .ok [] => .ok rest
  | .ok ls => .ok (rest ++ [⟨lead, slot, ls⟩])

/-! ### Nodes as an image sets them up -/

/-- A cell under an image: its banks, side-port selection, channels and condition record are reset, its counters are kept
(R87, R104, R143, R205). -/
def Cell.configure (c : Cell) (im : Image) (t k now : Nat) : Cell :=
  { Cell.reset with
    store := im.cellStore t k, actors := im.cellActors t k, chans := im.cellChans t k, readyAt := now + 32,
    acct := c.acct.enter 4 now }

/-- The depths that the HOLD words of a router give (R175). -/
def holdDepths (ws : List Half) : NMap Nat :=
  ws.foldl (fun m w => if swKind w = 7 then mapSet m (bits w.toNat 8 3) (bits w.toNat 0 8) else m) []

/-- A router under an image; the items in its buffers stay (R205). -/
def Router.configure (x : Router) (im : Image) (t lead : Nat) : Router :=
  { x with
    words := im.switches t, codes := im.codes t,
    circ := (im.circuits.filter fun c => decide (c.st = t)).foldl (fun m c =>
      mapSet m c.sp (lead + c.dt, c.dp, circuitLat (lead + c.st) (lead + c.dt))) [],
    split := [], merge := [], deal := [], barr := [], depths := holdDepths (im.switches t) }

/-- The block code of the TURN word that uses a node. -/
def turnCode (ws : List Half) (u : Nat) : Nat :=
  match ws.find? fun w => swTurn w = some u with
  | some w => bits w.toNat 4 4
  | none => 0

/-- A utility node under an image. -/
def Util.configure (x : Util) (im : Image) (t u now : Nat) : Util :=
  { Util.reset with desc := im.util t u, turn := turnCode (im.switches t) u, acct := x.acct.enter 3 now }

/-- A memory tile under an image (R147): its slots, queues and windows are reset, its plain words keep their contents. -/
def MTile.configure (m : MTile) (im : Image) (t q : Nat) : MTile :=
  let m := { m with mapped := true, map := im.mapOf t q, wins := im.winsOf t q, win := [], queues := [], stamps := [] }
  (m.regions.filter fun g => g.mode == 1).foldl (fun m g =>
    (List.range (g.len / 3)).foldl (fun (m : MTile) k => m.setWord (g.base + 3 * k + 2) 0) m) m

/-- A memory tile of an unconfigured tile (R146), its words kept. -/
def MTile.unmap (m : MTile) : MTile := { m with mapped := false, map := [], wins := [], win := [], queues := [], stamps := [] }

/-- The fabric of a tile that becomes unconfigured: its units hold no item and no program, its memory words, its planes, its
counters and its condition records stay (R143, R146, R205, R298). DEDUCED (log 38), unsafe. -/
def Fabric.unconfigure (f : Fabric) (now : Nat) : Fabric :=
  { f with
    cells := f.cells.map fun e => (e.1, { Cell.reset with cond := e.2.cond, acct := e.2.acct.enter 5 now }),
    q0 := f.q0.unmap, q1 := f.q1.unmap, router := Router.reset,
    mx := { f.mx with rows := [] },
    ux0 := { Util.reset with acct := f.ux0.acct.enter 3 now }, ux1 := { Util.reset with acct := f.ux1.acct.enter 3 now },
    active := none, nodes := [] }

/-! ### Preloads and control words (R198, R205) -/

/-- The preloads of memory tile `q` of tile `r` are copied. A fault reaches the runtime level of the lead core, and the tile
becomes unconfigured. -/
def State.preload (s : State) (lead r t q : Nat) (im : Image) : State :=
  (im.preloads.filter fun p => decide (p.tile = t ∧ p.q = q)).foldl (fun s p =>
    match s.readNow (s.owner r) (s.core lead).asid (s.isTolerant (s.core lead).task) p.src (4 * p.len)
        ⟨true, false, (s.region? lead).isSome || decide ((s.core lead).level = 3)⟩ with
    | (s, .ok l) => s.modMtile r q fun m => m.write (4 * p.first) (4 * p.len) (leValue l)
    | (s, .error (c, v)) => (s.modFab r fun f => f.unconfigure s.now).raiseAt lead c v 2) s

/-- Section 10 of an image goes to the private memory of a tile. -/
def State.placeCode (s : State) (r : Nat) (im : Image) : State :=
  s.modCore r fun c => { c with
    mem := writeBytes c.mem im.cload ((im.drop (im.secOff 10)).take (im.secLen 10)),
    poisoned := c.poisoned.filter fun w => !(wordsOf im.cload (im.secLen 10)).contains w }

/-! ### Switching at once (R204) -/

/-- The keys of the nodes of a tile: cells, router, utility nodes, memory tiles, generators. -/
def nodeKeys : List Nat := List.range 25

/-- Every node of a tile switches to the image in a slot. -/
def State.switchTile (s : State) (lead r slot : Nat) (im : Image) : State :=
  let t := (s.slot r slot).index
  let s := s.modFab r fun f =>
    { f with
      cells := (List.range 16).foldl (fun m k => mapMod Cell.reset m k fun c => c.configure im t k s.now) f.cells,
      router := f.router.configure im t lead, mx := { f.mx with rows := [] },
      ux0 := f.ux0.configure im t 0 s.now, ux1 := f.ux1.configure im t 1 s.now,
      q0 := f.q0.configure im t 0, q1 := f.q1.configure im t 1, active := some slot, nodes := [] }
  (((s.modSlot r slot fun k => { k with used := s.now }).placeCode r im).preload lead r t 0 im).preload lead r t 1 im

/-- The stages of a chain as an image declares them: the cell of each stage number (R199, R212). -/
def Image.stages (im : Image) (lead : Nat) : NMap (Nat × Nat) :=
  (im.actors.filter fun a => decide (a.stage > 0)).foldl (fun m a => mapSet m a.stage (lead + a.tile, a.cell)) []

/-- A region's image is new: no snapshot belongs to it, and its chain has the stages that it declares (R402). -/
def State.newImage (s : State) (lead : Nat) (im : Image) : State :=
  s.modRegion lead fun g => { g with sv := false, snap := [], snapNew := [], snapAt := 0, stages := im.stages lead }

/-- The lanes of an image are taken where its slot holds none; where they lack, the circuits join nothing and the lead core
is told (R173). -/
def State.joinLanes (s : State) (lead slot : Nat) (ranks : List Nat) (im : Image) : State :=
  if s.lanes.any (fun l => decide (l.lead = lead ∧ l.slot = slot)) ∨ im.circuits.isEmpty then s
  else match s.reserve lead slot im with
    | .ok ls => { s with lanes := ls }
    | .error e =>
      (ranks.foldl (fun s r => s.modRouter r fun t => { t with circ := [] }) s).raise lead (s.core lead).level 23
        (BitVec.ofNat 64 e)

/-! ### The wavefront (R204) -/

/-- The marker stands behind what a generator has issued; one whose stream has ended puts it into the router's buffer. -/
def State.injectGen (s : State) (r g : Nat) (job : Job) : State :=
  match (s.gen r g).stream.filter fun t => !t.ended && decide (spbDir t.spb = 0 ∨ spbDir t.spb = 3) with
  | some _ => s.modStream r g fun t =>
      { t with out := t.out ++ [.item (.wave job.id)], records := t.records ++ [(t.tok, .wave job.id)] }
  | none =>
    match (List.range 4).find? fun k => (s.router r).source k == 0x1000 + g with
    | some k => s.modRouter r fun t =>
        { t with inq := mapSet t.inq (4 + k) (t.buf (4 + k) ++ [⟨.wave job.id, s.now + 1⟩]) }
    | none => s

/-- A node of a tile has switched. -/
def State.markNode (s : State) (r key : Nat) (job : Job) : State :=
  s.modFab r fun f => { f with nodes := mapSet f.nodes key (job.id + 1) }

/-- The marker is injected on every tile of an activation (R204). A generator of a read stream, or one that runs no stream,
switches with it. DEDUCED (log 91), safe. -/
def State.injectWaves (s : State) (job : Job) : State :=
  job.tiles.foldl (fun s r => (List.range 4).foldl (fun s g =>
    let s := s.injectGen r g job
    if (s.gen r g).stream.any fun t => !t.ended && decide (spbDir t.spb = 1 ∨ spbDir t.spb = 2) then s
    else s.markNode r (21 + g) job) s) s

/-- Whether an activation of a region is under way. -/
def State.activating (s : State) (lead : Nat) : Bool :=
  s.jobs.any fun j => decide (j.lead = lead) && (match j.kind with
    | .next _ => true
    | _ => false)

/-- A slot is activated on a region's tiles (R204). `core` counts the command in oc.tl until every tile has switched.
DEDUCED (log 89), unsafe. -/
def State.activate (s : State) (lead : Nat) (ranks : List Nat) (slot : Nat) (core : Option Nat) : State :=
  let im : Image := (s.slot lead slot).image
  if ranks.all fun r => (s.fab r).active.isNone then
    let s := ranks.foldl (fun s r => s.switchTile lead r slot im) s
    ((s.newImage lead im).joinLanes lead slot ranks im).tlDone core
  else
    let job : Job :=
      { id := s.nextId, kind := .next slot, core := core, lead := lead, tiles := ranks, image := im, ident := Image.ident im,
        accs := [], join := [], ready := s.now }
    ({ s.bumpId with jobs := s.jobs ++ [job] }).injectWaves job

/-! ### Conditions of the nodes (R205) -/

/-- Whether a node of a tile has switched in an activation. -/
def State.nodeDone (s : State) (r key : Nat) (job : Job) : Bool := mapGet 0 (s.fab r).nodes key == job.id + 1

/-- The cells of which a cell is a member: a base below it whose fused set covers it. -/
def State.baseOf (s : State) (r k : Nat) : List Nat :=
  (List.range k).filter fun b => decide (k < b + (s.cell r b).size)

/-- The marker goes to the end of a link, unless the node there has switched. -/
def State.giveWave (s : State) (job : Job) (e : WireEnd) : Option State :=
  let done := match e with
    | .input r k _ => s.nodeDone r k job
    | .net r k _ => s.nodeDone r k job
    | .router r _ => s.nodeDone r 16 job
  if done then some s else s.acceptEnd e (.wave job.id)

/-- The marker leaves by an output of a cell: by its rerouted link, or where it leads. -/
def State.waveOut (s : State) (r k p : Nat) (job : Job) : Option State :=
  match if p = 8 then mapFind s.wires (8192 + 16 * r + k) else none with
  | some w => s.pushWire (8192 + 16 * r + k) w (.wave job.id)
  | none => match s.leadsTo r k p with
    | some e => s.giveWave job e
    | none => some s

/-- A cell switches where the marker has reached it (R205): its outputs have drained, its other copies have switched, and
the marker can leave by every output that it uses. -/
def State.switchCell (s : State) (r k : Nat) (job : Job) : State :=
  let c := s.cell r k
  let ins := c.used.filter c.isInput
  let outs := c.used.filter fun p => !c.isInput p
  let rest := ins.map fun p => (p, behindWave s.now job.id (c.port p))
  if (s.baseOf r k).any (fun b => !s.nodeDone r b job) ∨ c.firing.isSome ∨
      (c.selectFrom s.now (c.oldImage s.now (some job))).isSome ∨
      rest.any (fun e => e.2.isNone) ∨ outs.any (fun p => !(c.port p).isEmpty) ∨
      outs.any (fun p => (s.portCopies r k p).any fun q => q != (r, k) && !s.nodeDone q.1 q.2 job) then s
  else match outs.foldl (fun (o : Option State) p => o.bind fun s => s.waveOut r k p job) (some s) with
    | none => s
    | some s' =>
      let t := (s.slot r (match job.kind with
        | .next k => k
        | _ => 0)).index
      let fifo := rest.foldl (fun (m : NMap (List Held)) e => mapPut [] m e.1 (e.2.getD [])) []
      (s'.modCell r k fun c => { c.configure job.image t k s.now with fifo := fifo }).markNode r k job

/-- The cells whose code feeds an input of a utility node. -/
def Fabric.feeders (f : Fabric) (u side : Nat) : List Nat :=
  (f.cells.filter fun e => e.2.code.any fun w => wordFeeds w == some (u, side)).map Prod.fst

/-- Whether an input of a utility node is fed by the network: by a local port, or by a TURN word. -/
def Router.feedsUtil (t : Router) (u side : Nat) : Bool :=
  (List.range 4).any (fun k => t.dest k == 0x5000 + 4 * u + side) || (side == 0 && t.words.any fun w => swTurn w == some u)
/-- Whether output Y of a utility node goes to the network. -/
def Router.takesUtil (t : Router) (u : Nat) : Bool :=
  (List.range 4).any (fun k => t.source k == 0x5000 + 4 * u + 2) || t.words.any fun w => swTurn w == some u

/-- An input of a utility node once the marker has reached it: what stands behind the marker. -/
def State.utilInput (s : State) (r u side : Nat) (job : Job) : Option (List Held) :=
  let f := s.fab r
  let l := if side = 0 then (f.ux u).inA else (f.ux u).inB
  if f.router.feedsUtil u side then
    match l with
    | ⟨.wave j, t⟩ :: rest => if j = job.id ∧ t ≤ s.now then some rest else none
    | _ => none
  else if l.isEmpty && (f.feeders u side).all fun k => s.nodeDone r k job then some [] else none

/-- A utility node switches where the marker has reached every input in use and it holds nothing (R205). -/
def State.switchUtil (s : State) (r u : Nat) (job : Job) : State :=
  let f := s.fab r
  let x := f.ux u
  let y := f.router.takesUtil u
  match s.utilInput r u 0 job, s.utilInput r u 1 job with
  | some a, some b =>
    if !(x.pend.isEmpty && x.block.isEmpty && x.aside.isEmpty && x.openA.isEmpty && x.openB.isEmpty && x.closedA.isEmpty &&
        x.closedB.isEmpty && x.held.isEmpty) ∨ (if y then decide (x.outY.length ≥ 2) else !x.outY.isEmpty) then s
    else
      let t := (s.slot r (match job.kind with
        | .next k => k
        | _ => 0)).index
      (s.modFab r fun f => f.modUx u fun x =>
        { x.configure job.image t u s.now with
          inA := a, inB := b, outY := if y then x.outY ++ [⟨.wave job.id, s.now + 1⟩] else [],
          grants := if y then x.grants else [] }).markNode r (17 + u) job
  | _, _ => s

/-- What feeds a local port from within its tile and takes no marker through, a queue region or the scan engine, has
drained, and the cells that feed it have switched: the marker enters the port's buffer. -/
def State.injectLocal (s : State) (r : Nat) (job : Job) : State :=
  if s.nodeDone r 16 job then s
  else (List.range 4).foldl (fun s k =>
    let t := s.router r
    let f := s.fab r
    let code := t.source k
    let has := (t.buf (4 + k)).any fun h => h.item == .wave job.id
    let waits (names : Word → Bool) : Bool := f.cells.any fun e => !s.nodeDone r e.1 job && e.2.code.any names
    let ready :=
      if codeKind code = 4 then
        ((f.mtile (bits code 3 1)).queue (bits code 0 3)).items.isEmpty &&
          !waits fun w => wordNamesQueue w (bits code 3 1) (bits code 0 3)
      else if codeKind code = 6 then
        f.scan.inq.isEmpty && f.scan.hold.isEmpty && f.scan.outq.isEmpty &&
          !waits fun w => bits w.toNat 26 6 == 0x25 && bits w.toNat 16 5 == 23
      else false
    if ready && !has && mapGet 0 t.waved (4 + k) != job.id + 1 then
      s.modRouter r fun t => { t with inq := mapSet t.inq (4 + k) (t.buf (4 + k) ++ [⟨.wave job.id, s.now + 1⟩]) }
    else s) s

/-- A router switches where the marker has passed every input port that its words use, and its corner-turn nodes have passed
it on (R205). -/
def State.switchRouter (s : State) (r : Nat) (job : Job) : State :=
  let t := s.router r
  let turns := t.words.filterMap swTurn
  if t.inputs.all (fun p => mapGet 0 t.waved p == job.id + 1) &&
      turns.all fun u => s.nodeDone r (17 + u) job && ((s.fab r).ux u).outY.isEmpty then
    let i := (s.slot r (match job.kind with
      | .next k => k
      | _ => 0)).index
    (s.modRouter r fun t => t.configure job.image i job.lead).markNode r 16 job
  else s

/-- A memory tile switches where every cell and the router of its tile have switched and its queues are empty (R147, R205).
Where its preload has failed, no node of the tile has anything left to switch. DEDUCED (log 92), unsafe. -/
def State.switchMtile (s : State) (r q : Nat) (job : Job) : State :=
  if (List.range 17).all (fun k => s.nodeDone r k job) && (s.mtile r q).queues.all fun e => e.2.items.isEmpty then
    let i := (s.slot r (match job.kind with
      | .next k => k
      | _ => 0)).index
    let s := (s.modMtile r q fun m => m.configure job.image i q).markNode r (19 + q) job
    let s := if q = 0 then s.modMx r fun g => { g with rows := [] } else s
    let s := s.preload job.lead r i q job.image
    if (s.fab r).nodes.isEmpty then (List.range 26).foldl (fun s k => s.markNode r k job) s else s
  else s

/-- A generator that ran a write stream at the marker switches where that stream has ended (R205). -/
def State.switchGen (s : State) (r g : Nat) (job : Job) : State :=
  if (s.gen r g).stream.all fun t => t.ended || decide (spbDir t.spb = 0 ∨ spbDir t.spb = 3) then s.markNode r (21 + g) job
  else s

/-- Once all its nodes have switched a tile's active slot is the new one; once all its tiles have, the activation is over
(R203, R205). -/
def State.finishSwitch (s : State) (r : Nat) (job : Job) (slot : Nat) : State :=
  if nodeKeys.all fun k => s.nodeDone r k job then
    let old := (s.fab r).active
    let s := (s.modFab r fun f => { f with active := if s.nodeDone r 25 job then none else some slot }).modSlot r slot fun k => { k with used := s.now }
    let s := s.placeCode r job.image
    let s := { s with lanes := s.lanes.filter fun l =>
      !(decide (l.lead = job.lead ∧ l.slot ≠ slot) && old == some l.slot) }
    if job.tiles.all fun t => nodeKeys.all fun k => s.nodeDone t k job then
      let s := { s with jobs := s.jobs.filter fun j => decide (j.id ≠ job.id) }
      let s := job.tiles.foldl (fun s t => s.modFab t fun f => { f with nodes := [] }) s
      ((s.newImage job.lead job.image).joinLanes job.lead slot job.tiles job.image).tlDone job.core
    else s
  else s

/-- NODE_SWITCH (R205): a node of the tile in focus switches to the new image where the conditions hold. -/
def execNodeSwitch (node : Node) (s : State) : Host.Outcome State Fault Refusal :=
  let r := s.foc.unit
  let key := match node with
    | .cell c => if c < 16 then c else 25
    | .router => 16
    | .ux k => if k < 2 then 17 + k else 25
    | .mtile q => if q < 2 then 19 + q else 25
    | .gen g => if g < 4 then 21 + g else 25
  .next (
    if key ≥ 25 ∨ (s.fab r).frozen then s
    else match s.waveOf r key with
      | none => s
      | some job => match job.kind with
        | .next slot =>
          let s := s.injectLocal r job
          let s' := match node with
            | .cell k => s.switchCell r k job
            | .router => s.switchRouter r job
            | .ux u => s.switchUtil r u job
            | .mtile q => s.switchMtile r q job
            | .gen g => s.switchGen r g job
          if s'.nodeDone r key job then (s'.touch r).finishSwitch r job slot else s'
        | _ => s)

end Sys2Proof.Machine
end

