-- ==== Sys2Proof/Machine/Configure.lean ====
section
/-!
DEFINITION. The configuration words: loading and activating images, the select token, freezing, saving and restoring (R113,
R202, R203, R206, R208 to R210, R457).
-/

namespace Sys2Proof.Machine

/-! ### CLOAD (R202) -/

/-- The lowest failing byte of the header and its directory. -/
def Image.headFault (im : Image) (want : Nat) : Option Nat :=
  leastOf ((im.badHeader want ++ im.badDirectory).filter fun o => decide (o < 256))

/-- A whole image read at a pointer and checked for a region of 2^`want` tiles, or how the word stops. -/
def State.readImage (s : State) (r : Nat) (p : DWord) (want lead : Nat) : BlockRead :=
  match s.readBytesOf r p 256 with
  | .stop e => .stop e
  | .ok s head =>
    match Image.headFault head want with
    | some o => .stop (.trap s 16 (BitVec.ofNat 64 o))
    | none => match s.readBytesOf r p (Image.size head) with
      | .stop e => .stop e
      | .ok s im => match Image.failing im want lead with
        | some o => .stop (.trap s 16 (BitVec.ofNat 64 o))
        | none => .ok s im

/-- The first preload of some whose source fails R64, or has still to be translated: how the word stops. -/
def State.preloadStop (s : State) (r : Nat) : List Preload → State × Option WordEnd
  | [] => (s, none)
  | p :: ps =>
    match ptrFault [0] (s.core r).level 4 p.src with
    | some c => (s, some (.trap s c p.src))
    | none => match s.warm r p.src (4 * p.len) (s.need r true false) (4 * p.len / 65536 + 2) with
      | (s, some e) => (s, some e)
      | (s, none) => s.preloadStop r ps

/-- A tile is spare where its active image gives it no actor, switch word, used map entry or utility node (R202). -/
def State.isSpare (s : State) (r : Nat) : Bool :=
  match (s.fab r).active with
  | none => true
  | some k =>
    let im : Image := (s.slot r k).image
    let t := (s.slot r k).index
    (List.range 16).all (fun c => (im.hosts t c).isEmpty) && (im.switches t).all (fun w => swKind w == 0) &&
      ([0, 1].all fun q => (im.mapOf t q).all fun e => (mapEntry 0 e).len == 0) && [0, 1].all fun u => utilMode (im.util t u) == 0

/-- The checks of CLOAD read the image at 64 bytes per cycle, and the core stalls during them (R202): whether they are over, or
how the word stops. A header that fails is told at once. DEDUCED (log 127), unsafe. -/
def State.checkTime (s : State) (r : Nat) (p : DWord) (want : Nat) : Option WordEnd :=
  match (s.core r).stall with
  | some (.latch (t :: _)) => if s.now < t then some (.wait s 5) else none
  | _ => match s.readBytesOf r p 256 with
    | .stop e => some e
    | .ok s head => match Image.headFault head want with
      | some o => some (.trap s 16 (BitVec.ofNat 64 o))
      | none => some (.wait (s.modCore r fun c => { c with stall := some (.latch [s.now + ceilDiv (Image.size head) 64]) }) 5)

/-- CLOAD (R202). -/
def execCload (gd ga gb : BitVec 5) (s : State) : Host.Outcome State Fault Refusal :=
  .next (s.memWord [ga, gb] [gd] fun r =>
    let p := s.reg r ga
    let b := (s.reg r gb).toNat
    let (lead, lgn) := s.cfgRegion r
    let stage := b.testBit 9
    let slot := b % 4
    match s.checkPtr r [0] p 256 (s.need r true false) with
    | (_, some e) => e
    | (s, none) =>
      if b ≥ 2048 ∨ bits b 2 6 ≠ 0 then .trap s 16 (cfgVal b)
      else if (s.core r).ocTl ≥ 16 ∨ s.activating lead then .wait s 5
      else match s.checkTime r p (if stage then 0 else lgn) with
      | some e => e
      | none => match s.readImage r p (if stage then 0 else lgn) lead with
        | .stop e => e
        | .ok s l =>
          let im : Image := l
          match s.preloadStop r im.preloads with
          | (_, some e) => e
          | (s, none) =>
            let ranks := blockRanks lead lgn
            let targets := if stage then ranks.filter s.isSpare else ranks
            if targets.any fun t => (s.fab t).active == some slot then .trap s 16 (cfgVal b)
            else match if stage then .ok s.lanes else s.reserve lead slot im with
              | .error e => .trap s 23 (BitVec.ofNat 64 e)
              | .ok ls =>
                let held := !b.testBit 10 && targets.all fun t => (s.slot t slot).ident == im.ident
                let job : Job :=
                  { id := s.nextId, kind := .load slot (b.testBit 8), core := some r, lead := lead, tiles := targets,
                    image := if held then [] else im, ident := im.ident, accs := [], join := mapGet [] s.cfgJoin lead,
                    ready := s.now + (if held then 1 else 32) }
                let s := { s.bumpId with lanes := ls, jobs := s.jobs ++ [job] }
                let s := if held then s else targets.foldl (fun s t => s.modSlot t slot fun k => { k with ident := 0, image := [] }) s
                let s := s.modCore r fun c => { c with ocTl := c.ocTl + 1 }
                .retire (s.setReg r gd (if held then 0 else BitVec.ofNat 64 im.size)) 1)

/-- CLOAD_SLOT_WRITTEN (R202): the image of the command in focus has been written to every target slot; oc.tl falls, and the
slot is activated where A was 1. -/
def execCloadSlotWritten (s : State) : Host.Outcome State Fault Refusal :=
  .next (match s.jobs.find? fun j => decide (j.id = s.foc.unit) with
    | none => s
    | some job => match job.kind with
      | .load slot act =>
        if s.now < job.ready ∨ s.joinActive (job.core.getD job.lead) job.join ∨ (act ∧ s.activating job.lead) then s
        else
          let one := Image.lgn job.image = 0
          let s := { s with jobs := s.jobs.filter fun j => decide (j.id ≠ job.id) }
          let s := if job.image.isEmpty then s else job.tiles.foldl (fun s t => s.modSlot t slot fun k =>
            { k with ident := job.ident, image := job.image, index := if one then 0 else t - job.lead }) s
          let s := s.tlDone job.core
          if !act then s
          else if (job.tiles.head?.map fun t => Image.lgn (s.slot t slot).image) == some 0 then
            job.tiles.foldl (fun s t => s.activate t [t] slot none) s
          else s.activate job.lead job.tiles slot none
      | _ => s)

/-! ### CNEXT and the select token (R203, R206) -/

/-- Whether every tile of a region holds an identifier in a slot. -/
def State.slotHolds (s : State) (ranks : List Nat) (slot ident : Nat) : Bool :=
  ident != 0 && ranks.all fun t => (s.slot t slot).ident == ident

/-- CNEXT (R203). -/
def execCnext (ga gb : BitVec 5) (s : State) : Host.Outcome State Fault Refusal :=
  .next (s.memWord [ga, gb] [] fun r =>
    let a := (s.reg r ga).toNat
    let (lead, lgn) := s.cfgRegion r
    let ranks := blockRanks lead lgn
    if a ≥ 4 ∨ !s.slotHolds ranks a (s.reg r gb).toNat then .trap s 16 (cfgVal a)
    else if (s.core r).ocTl ≥ 16 ∨ s.activating lead then .wait s 5
    else .retire ((s.modCore r fun c => { c with ocTl := c.ocTl + 1 }).activate lead ranks a (some r)) 1)

/-- The select port of the image that tile `r` runs is token port `p` − 16 of a cell (R206): the image, where it is. -/
def State.selectsAt (s : State) (r k p : Nat) : Option Image :=
  (s.activeImage r).filter fun im => im.hasSel && im.selPort == ((s.slot r ((s.fab r).active.getD 0)).index, k, p - 16)

/-- A token that has left by the select port of tile `r` takes effect, in a cycle after that in which it was sent (R206).
DEDUCED (log 72), safe. -/
def State.selectToken (s : State) (r : Nat) (im : Image) (v : Bool) : State :=
  let (lead, lgn) := (s.regionOf r).elim (r, 0) fun g => (g.lead, g.lgn)
  let slot := im.selSlot v
  let ranks := blockRanks lead lgn
  if s.activating lead then s
  else if s.slotHolds ranks slot (s.slot lead slot).ident then s.activate lead ranks slot none
  else s.raiseAt lead 16 (cfgVal slot) 2

/-- TOKS (R113, R206): sends one control token. A token port that is not wired sends nothing, but for the select port, whose
token says by its sideband that a wavefront was in flight as it was sent. DEDUCED (log 71), unsafe. -/
def execToks (port : BitVec 2) (flg : BitVec 4) (s : State) : Host.Outcome State Fault Refusal :=
  .next (s.opWord fun x =>
    let p := 16 + port.toNat
    let g := flg.toNat
    let v := if g.testBit 3 then (x.f.mask x.lanes (g % 4)).any id else g.testBit 0
    if x.slotsLeft x.f p = 0 then .fault s 11 1 0
    else
      let n := 16 * x.r + x.k - x.a.copy * 2 ^ x.a.lgf
      if (s.selectsAt (n / 16) (n % 16) p).isSome || s.tokenWired x.r x.k p x.a then
        let (s, f) := x.put s x.f p (.data [b2n v] (b2n (s.activating (s.leadOf x.r))))
        .next s f 1
      else .next s { x.f with sent := mapMod 0 x.f.sent p (· + 1) } 1)

/-! ### Freezing (R101, R208) -/

/-- The tiles that a selector names in a region, where it obeys R208. -/
def selectTiles (lead lgn v : Nat) : Option (List Nat) :=
  let first := bits v 0 9
  let n := bits v 9 10
  if v < 2 ^ 19 ∧ 1 ≤ n ∧ n ≤ 512 ∧ first + n ≤ 2 ^ lgn then some ((List.range n).map (lead + first + ·)) else none

/-- Whether every unit of a tile stands frozen: no firing in progress but one that a fault has stopped, no MACC, no weight load, no
read or write of a generator under way (R101, R208, R232). -/
def State.tileFrozen (s : State) (r : Nat) : Bool :=
  let f := s.fab r
  f.frozen && f.cells.all (fun e => e.2.firing.all fun x => x.dead && x.maccs.isEmpty) && f.mx.loader.isNone &&
    s.accs.all fun a => match a.who with
      | .gen t _ => t != r
      | _ => true

/-- CFRZ (R208). -/
def execCfrz (ga : BitVec 5) (s : State) : Host.Outcome State Fault Refusal :=
  .next (s.memWord [ga] [] fun r =>
    let v := (s.reg r ga).toNat
    let (lead, lgn) := s.cfgRegion r
    match selectTiles lead lgn v with
    | none => .trap s 16 (cfgVal v)
    | some ts =>
      if (s.core r).ocTl ≥ 16 then .wait s 5
      else
        let job : Job :=
          { id := s.nextId, kind := .freeze, core := some r, lead := lead, tiles := ts, image := [], ident := 0, accs := [],
            join := [], ready := s.now + 1 }
        let s := ({ s.bumpId with jobs := s.jobs ++ [job] }).setFrozen ts true
        .retire (s.modCore r fun c => { c with ocTl := c.ocTl + 1 }) 1)

/-- CTHAW (R208): it releases the tiles in the next cycle. DEDUCED (log 93), safe. -/
def execCthaw (ga : BitVec 5) (s : State) : Host.Outcome State Fault Refusal :=
  .next (s.memWord [ga] [] fun r =>
    let v := (s.reg r ga).toNat
    let (lead, lgn) := s.cfgRegion r
    match selectTiles lead lgn v with
    | none => .trap s 16 (cfgVal v)
    | some ts => .retire (s.defer (.thaw ts)) 1)

/-- FREEZE_COMPLETE (R208): every unit of the tiles of the command in focus is frozen; oc.tl falls. -/
def execFreezeComplete (s : State) : Host.Outcome State Fault Refusal :=
  .next (match s.jobs.find? fun j => decide (j.id = s.foc.unit) with
    | none => s
    | some job => match job.kind with
      | .freeze =>
        if job.tiles.all fun t => s.tileFrozen t || !(s.fab t).frozen then
          ({ s with jobs := s.jobs.filter fun j => decide (j.id ≠ job.id) }).tlDone job.core
        else s
      | _ => s)

/-! ### Saving (R209) -/

/-- The words of the masked regions of a tile's memory tiles (R209). -/
def Image.maskedWords (im : Image) (t : Nat) : Nat :=
  ([0, 1].map fun q => ((List.range 8).map fun k =>
    if (im.mask q).testBit k then (mapEntry k (nth 0 (im.mapOf t q) k)).len else 0).sum).sum
/-- The bytes of one tile's record. DEDUCED (log 94), unsafe. -/
def Image.recBytes (im : Image) (t : Nat) : Nat := 262144 + 4 * im.maskedWords t + (if im.savesPlanes then 16384 else 0)

/-- The image and index by which a tile's record is sized: its own, or those that the first configured tile of the selection
gives an unconfigured one. -/
def State.recordOf (s : State) (ts : List Nat) (r : Nat) : Option (Image × Nat) :=
  let of (t : Nat) : Option (Image × Nat) := (s.fab t).active.map fun k => ((s.slot t k).image, (s.slot t k).index)
  (of r).or (ts.findSome? fun t => (of t).map fun e => (e.1, e.2 + r - t))
/-- The bytes of one tile's record in a selection. -/
def State.recordBytes (s : State) (ts : List Nat) (r : Nat) : Nat :=
  (s.recordOf ts r).elim 262144 fun e => e.1.recBytes e.2
/-- The bytes of a save area for some tiles. -/
def State.saveBytes (s : State) (ts : List Nat) : Nat := 4096 + (ts.map (s.recordBytes ts)).sum
/-- The cycles of a transfer through the readout chains: 64 bytes per cycle per tile, the tiles concurrently. -/
def State.chainCycles (s : State) (ts : List Nat) : Nat :=
  ceilDiv (4096 + (ts.map (s.recordBytes ts)).foldl Nat.max 0) 64

/-- What a record keeps of a fabric: its units at a boundary, with the cells' counts up to now (R209). -/
def Fabric.saved (f : Fabric) (now : Nat) : Fabric :=
  { f with cells := f.cells.map fun e => (e.1, { e.2 with firing := none, acct := e.2.acct.enter e.2.acct.cat now }) }
/-- A weight load that goes on from what it has read: from the next cycle it reads as many words as before (R220, R232). -/
def Loader.resume (l : Loader) (now : Nat) : Loader := { l with issue := now - l.done / 16, next := now + 1 }
/-- A fabric written back goes on counting from now: its cells as saved, its other units as the tile counts them (R209). -/
def Fabric.counting (f cur : Fabric) (now : Nat) : Fabric :=
  { f with
    cells := f.cells.map fun e => (e.1, { e.2 with acct := { e.2.acct with since := now } }),
    mx := { f.mx with acct := cur.mx.acct, loader := f.mx.loader.map (Loader.resume · now) }, scan := { f.scan with acct := cur.scan.acct },
    ux0 := { f.ux0 with acct := cur.ux0.acct }, ux1 := { f.ux1 with acct := cur.ux1.acct },
    gens := f.gens.map fun e => (e.1, { e.2 with acct := (cur.gen e.1).acct }) }

/-- CSAVE (R209). -/
def execCsave (ga gb : BitVec 5) (s : State) : Host.Outcome State Fault Refusal :=
  .next (s.memWord [ga, gb] [] fun r =>
    let p := s.reg r ga
    let v := (s.reg r gb).toNat
    let (lead, lgn) := s.cfgRegion r
    match ptrFault [0] (s.core r).level 4096 p with
    | some c => .trap s c p
    | none => match selectTiles lead lgn v with
      | none => .trap s 16 (cfgVal v)
      | some ts =>
        if (s.core r).ocTl ≥ 16 then .wait s 5
        else
          let n := s.saveBytes ts
          match s.warm r p n (s.need r false true) (n / 65536 + 2) with
          | (_, some e) => e
          | (s, none) =>
            let job : Job :=
              { id := s.nextId, kind := .save p s.nextId, core := some r, lead := lead, tiles := ts, image := [], ident := v,
                accs := s.releases r, join := mapGet [] s.cfgJoin lead, ready := s.now + s.chainCycles ts }
            let s := ({ s.bumpId with jobs := s.jobs ++ [job] }).setFrozen ts true
            .retire (s.modCore r fun c => { c with ocTl := c.ocTl + 1 }) 1)

/-- The bytes of a save area. -/
def Saved.size (k : Saved) : Nat := 4096 + k.sizes.sum
/-- Whether a byte of a save area lies in the unused part of an unconfigured tile's record: behind its fixed part. -/
def Saved.unused (k : Saved) (o : Nat) : Bool :=
  (List.range k.count).any fun i =>
    let start := 4096 + (k.sizes.take i).sum
    (mapGet Fabric.reset k.fabs i).active.isNone && decide (start + 262144 ≤ o ∧ o < start + nth 0 k.sizes i)
/-- A save area as it lies in memory: the header's three doublewords (R209), then the device's own form, with zeros in the unused
part of a record. -/
def savedBytes (k : Saved) (n : Nat) : List Byte :=
  leBytes 8 1 ++ leBytes 8 k.ident ++ leBytes 8 (k.first + k.count * 2 ^ 9 + k.slot * 2 ^ 20) ++
    (List.range (n - 24)).map fun i => if k.unused (24 + i) then 0 else Config.saveByte k.num (24 + i)

/-- The rerouted links of some tiles' cells. -/
def State.wiresOf (s : State) (ts : List Nat) : NMap Wire := s.wires.filter fun e => ts.contains (e.1 % 8192 / 16)
/-- The rerouted links of some tiles' cells replaced. -/
def State.putWires (s : State) (ts : List Nat) (m : NMap Wire) : State :=
  let rest : NMap Wire := s.wires.filter fun e => !ts.contains (e.1 % 8192 / 16)
  { s with wires := m.foldl (fun (w : NMap Wire) (e : Nat × Wire) => mapSet w e.1 e.2) rest }

/-- The record of some tiles: the slot and identifier of the first configured one, every tile's fabric as `fabOf` gives it, and
what their rerouted links hold. -/
def State.capture (s : State) (num lead : Nat) (ts : List Nat) (fabOf : Nat → Fabric) : Saved :=
  let slot := ts.findSome? fun t => (fabOf t).active.map fun k => (t, k)
  { num := num, lead := lead, first := (ts.head?.getD lead) - lead, count := ts.length, slot := (slot.map Prod.snd).getD 0,
    ident := (slot.map fun e => (s.slot e.1 e.2).ident).getD 0, sizes := ts.map (s.recordBytes ts),
    fabs := (List.range ts.length).map fun i => (i, fabOf (nth lead ts i)), wires := s.wiresOf ts }

/-- Whether the accesses that a command waits behind have performed (R388). -/
def State.jobReady (s : State) (job : Job) : Bool :=
  decide (job.ready ≤ s.now) && s.performed job.accs &&
    !s.joinActive (job.core.getD job.lead) job.join

/-- CSAVE_COMPLETE (R209): the tiles of the command in focus are frozen and their records have been written; oc.tl falls. -/
def execCsaveComplete (s : State) : Host.Outcome State Fault Refusal :=
  .next (match s.jobs.find? fun j => decide (j.id = s.foc.unit) with
    | none => s
    | some job => match job.kind, job.core with
      | .save p num, some r =>
        if !s.jobReady job ∨ !job.tiles.all s.tileFrozen then s
        else
          let k := s.capture num job.lead job.tiles fun t => (s.fab t).saved s.now
          let l := savedBytes k k.size
          if s.writeHeld (s.owner r) (s.core r).asid p l.length (decide ((s.core r).level = 3)) then s else
          let (s, e) := s.writeNow (s.owner r) (s.core r).asid p l (decide ((s.core r).level = 3))
          let s := { s with saved := mapSet s.saved num k, jobs := s.jobs.filter fun j => decide (j.id ≠ job.id) }
          let s := match e with
            | some (c, v) => s.raise r (s.core r).level c v
            | none => s
          s.tlDone job.core
      | _, _ => s)

/-! ### Moving to another block (R210, R408) -/

/-- A fabric's circuits by the block that it moves to. -/
def Fabric.relocate (f : Fabric) (self old new : Nat) : Fabric :=
  { f with router := { f.router with circ := f.router.circ.map fun e =>
      let d := new + (e.2.1 - old)
      (e.1, d, e.2.2.1, circuitLat self d) } }
/-- The end of a rerouted link by the block that it moves to. -/
def WireEnd.relocate (e : WireEnd) (old new : Nat) : WireEnd :=
  let at_ (r : Nat) : Nat := new + (r - old)
  match e with
  | .input r k p => .input (at_ r) k p
  | .net r k p => .net (at_ r) k p
  | .router r p => .router (at_ r) p
/-- Rerouted links by the block that they move to. -/
def relocateWires (m : NMap Wire) (old new : Nat) : NMap Wire :=
  m.foldl (fun (m : NMap Wire) (e : Nat × Wire) =>
    mapSet m (e.1 + 16 * new - 16 * old) { e.2 with dest := e.2.dest.relocate old new }) []
/-- A save area by the block that it moves to. -/
def Saved.relocate (k : Saved) (new : Nat) : Saved :=
  { k with
    lead := new, fabs := k.fabs.map fun e => (e.1, e.2.relocate (new + k.first + e.1) k.lead new),
    wires := relocateWires k.wires k.lead new }

/-! ### Restoring (R210) -/

/-- Words of a memory tile taken over from another, each with its error state. -/
def MTile.takeWords (m from_ : MTile) (b n : Nat) : MTile :=
  let inside (w : Nat) : Bool := decide (b ≤ w ∧ w < b + n)
  { m with
    mem := writeBytes m.mem (4 * b) (readBytes from_.mem (4 * b) (4 * n)),
    poisoned := (m.poisoned.filter fun w => !inside w) ++ from_.poisoned.filter inside,
    soft := (m.soft.filter fun w => !inside w) ++ from_.soft.filter inside }
/-- Words of a memory tile made zero. -/
def MTile.zeroWords (m : MTile) (b n : Nat) : MTile :=
  let outside (w : Nat) : Bool := decide (w < b ∨ b + n ≤ w)
  { m with mem := clearBytes m.mem (4 * b) (4 * n), poisoned := m.poisoned.filter outside, soft := m.soft.filter outside }

/-- A memory tile as a record restores it (R210): masked regions as saved, others zero with their tags as saved. -/
def MTile.restore (cur from_ : MTile) (mask : Nat) : MTile :=
  if !from_.mapped then { from_ with mem := cur.mem, poisoned := cur.poisoned, soft := cur.soft }
  else
    let m := from_.regions.foldl (fun (m : MTile) g =>
      if mask.testBit g.idx then m.takeWords from_ g.base g.len
      else
        let m := m.zeroWords g.base g.len
        if g.mode = 1 then
          (List.range (g.len / 3)).foldl (fun (m : MTile) k => m.takeWords from_ (g.base + 3 * k + 2) 1) m
        else m) cur
    { from_ with mem := m.mem, poisoned := m.poisoned, soft := m.soft }

/-- A fabric as a record restores it, frozen. -/
def Fabric.restore (cur from_ : Fabric) (im : Option Image) (now : Nat) : Fabric :=
  let mask (q : Nat) : Nat := im.elim 0 fun im => im.mask q
  let planes := im.any Image.savesPlanes
  { from_ with
    q0 := cur.q0.restore from_.q0 (mask 0), q1 := cur.q1.restore from_.q1 (mask 1),
    mx := if planes then from_.mx else { from_.mx with active := Plane.reset, shadow := Plane.reset },
    nodes := [], frozen := true : Fabric }.counting cur now

/-- The unmasked plain regions of tile `r` are refilled by their preloads (R210). -/
def State.refill (s : State) (lead r t : Nat) (im : Image) : State :=
  (im.preloads.filter fun p => decide (p.tile = t)).foldl (fun s p =>
    let m := s.mtile r p.q
    if (m.regionOf p.first).any fun g => (im.mask p.q).testBit g.idx then s
    else match s.readNow (s.owner r) (s.core lead).asid (s.isTolerant (s.core lead).task) p.src (4 * p.len)
        ⟨true, false, (s.region? lead).isSome⟩ with
      | (s, .ok l) => s.modMtile r p.q fun m => m.write (4 * p.first) (4 * p.len) (leValue l)
      | (s, .error (c, v)) => (s.modFab r fun f => { f.unconfigure s.now with frozen := true }).raiseAt lead c v 2) s

/-- The record of one tile is written back; its slot is loaded with the image where it does not hold it (R210). -/
def State.restoreTile (s : State) (lead r slot ident : Nat) (from_ : Fabric) (im : Image) : State :=
  if from_.active.isNone then s.modFab r fun f => f.restore from_ none s.now
  else
    let s := if (s.slot r slot).ident = ident then s
      else s.modSlot r slot fun k =>
        { k with ident := ident, image := im, index := if im.lgn = 0 then 0 else r - lead }
    let img : Image := (s.slot r slot).image
    let s := s.modFab r fun f => { f.restore from_ (some img) s.now with active := some slot }
    s.refill lead r (s.slot r slot).index img

/-- The save areas that CSAVEs have written with a header's selection, slot and identifier. -/
def State.savesLike (s : State) (first count slot ident : Nat) : List Saved :=
  (s.saved.map Prod.snd).filter fun k => decide (k.first = first ∧ k.count = count ∧ k.slot = slot ∧ k.ident = ident)

/-- The first of some save areas whose bytes stand at a pointer, as core `r` reads them; a read that has to wait tells its
category. -/
def State.savedAt (s : State) (r : Nat) (p : DWord) : List Saved → State × Except Nat (Option Saved)
  | [] => (s, .ok none)
  | k :: ks => match s.readBytesOf r p k.size with
    | .stop (.wait s c) => (s, .error c)
    | .stop _ => s.savedAt r p ks
    | .ok s l => if savedBytes k k.size = l then (s, .ok (some k)) else s.savedAt r p ks

/-- The record of a save area of another origin that passes the check code, which leaves fabrics that the manual does not define
(R210). DEDUCED (log 19), unsafe. -/
def foreignSaved (l : List Byte) (num lead first slot ident : Nat) (sizes : List Nat) : Option Saved :=
  if Config.foreignCheck l then
    some { num := num, lead := lead, first := first, count := sizes.length, slot := slot, ident := ident, sizes := sizes,
           fabs := (List.range sizes.length).map fun i => (i, Config.foreignFabric (l ++ leBytes 8 i)), wires := [] }
  else none

/-- Whether some tile of a save area, written back over the tiles `ts`, needs the image of its identifier: its record is a
configured one, and its slot does not hold the image (R210). -/
def State.needsImage (s : State) (k : Saved) (ts : List Nat) : Bool :=
  (List.range k.count).any fun i =>
    (mapGet Fabric.reset k.fabs i).active.isSome && (s.slot (nth 0 ts i) k.slot).ident != k.ident

/-- The image at the configuration image pointer of the region task that core `r` leads, where it carries an identifier
(R210). -/
def State.taskImage (s : State) (r ident : Nat) : BlockRead :=
  match (s.region? r).bind fun g => s.tasks.find? fun (k : Task) => decide (k.id = g.task) with
  | none => .stop (.done s)
  | some k =>
    let p := BitVec.ofNat 64 (nth 0 k.rec_ 2)
    match s.readBytesOf r p 256 with
    | .stop (.wait s c) => .stop (.wait s c)
    | .stop _ => .stop (.done s)
    | .ok s head =>
      if Image.ident head ≠ ident ∨ (Image.headFault head (Image.lgn head)).isSome then .stop (.done s)
      else match s.readBytesOf r p (Image.size head) with
        | .stop (.wait s c) => .stop (.wait s c)
        | .stop _ => .stop (.done s)
        | .ok s im => .ok s im

/-- CREST of core `r` with the record that its checks have found: it is written over the tiles, each at 64 bytes per cycle at one
time (R210). -/
def State.crestWith (s : State) (r : Nat) (k : Saved) (lead : Nat) (ts : List Nat) (p : DWord) : WordEnd :=
  match if s.needsImage k ts then s.taskImage r k.ident else .ok s [] with
  | .stop (.wait s c) => .wait s c
  | .stop _ => .trap s 16 (cfgVal p.toNat)
  | .ok s im =>
    let job : Job :=
      { id := s.nextId, kind := .restore s.nextId, core := some r, lead := lead, tiles := ts, image := im, ident := k.ident,
        accs := [], join := mapGet [] s.cfgJoin lead, ready := s.now + ceilDiv (4096 + k.sizes.foldl Nat.max 0) 64 }
    let s := { s.bumpId with saved := mapSet s.saved job.id k, jobs := s.jobs ++ [job] }
    .retire (s.modCore r fun c => { c with ocTl := c.ocTl + 1 }) 1

/-- CREST (R210). -/
def execCrest (ga gb : BitVec 5) (s : State) : Host.Outcome State Fault Refusal :=
  .next (s.memWord [ga, gb] [] fun r =>
    let p := s.reg r ga
    let v := (s.reg r gb).toNat
    let (lead, lgn) := s.cfgRegion r
    let bad : WordEnd := .trap s 16 (cfgVal p.toNat)
    match ptrFault [0] (s.core r).level 4096 p with
    | some c => .trap s c p
    | none => match selectTiles lead lgn v with
      | none => .trap s 16 (cfgVal v)
      | some ts =>
        if (s.core r).ocTl ≥ 16 then .wait s 5
        else match s.readBytesOf r p 24 with
          | .stop e => e
          | .ok s head =>
            let sel := blockWord head 2
            let ident := blockWord head 1
            let slot := bits sel 20 2
            if blockWord head 0 ≠ 1 ∨ bits sel 0 19 ≠ v ∨ sel ≥ 2 ^ 22 ∨ bits sel 19 1 ≠ 0 then bad
            else match s.savedAt r p (s.savesLike (bits v 0 9) (bits v 9 10) slot ident) with
              | (s, .error c) => .wait s c
              | (s, .ok (some k)) => s.crestWith r k lead ts p
              | (s, .ok none) => match s.taskImage r ident with
                | .stop (.wait s c) => .wait s c
                | image =>
                  let im : Image := match image with
                    | .ok _ l => l
                    | .stop _ => []
                  let sizes := ts.map fun t => if ident = 0 then 262144 else im.recBytes (t - lead)
                  match s.readBytesOf r p (4096 + sizes.sum) with
                  | .stop e => e
                  | .ok s l => match foreignSaved l s.nextId lead (bits v 0 9) slot ident sizes with
                    | none => bad
                    | some k => s.crestWith r k lead ts p)

/-- CREST_COMPLETE (R210): every tile of the command in focus has been written; oc.tl falls. -/
def execCrestComplete (s : State) : Host.Outcome State Fault Refusal :=
  .next (match s.jobs.find? fun j => decide (j.id = s.foc.unit) with
    | none => s
    | some job => match job.kind with
      | .restore num =>
        if !s.jobReady job then s
        else match mapFind s.saved num with
          | none => s
          | some k =>
            let k := k.relocate job.lead
            let s := (List.range job.tiles.length).foldl (fun s i =>
              s.restoreTile job.lead (nth 0 job.tiles i) k.slot k.ident (mapGet Fabric.reset k.fabs i) job.image) s
            let s := s.putWires job.tiles k.wires
            ({ s with jobs := s.jobs.filter fun j => decide (j.id ≠ job.id) }).tlDone job.core
      | _ => s)

end Sys2Proof.Machine
end

