-- ==== Sys2Proof/Machine/Splices.lean ====
section
/-!
DEFINITION. Splices: the word that issues a record, the stage that a record acts on, and the sink (R211 to R215).
-/

namespace Sys2Proof.Machine

/-! ### CSPLICE (R211) -/

/-- Whether a splice descriptor obeys its table. -/
def spliceOk (d : Nat) : Bool :=
  let op := bits d 0 2
  let pos := bits d 3 11
  let host := bits d 64 64
  let slot := bits d 14 2
  decide (op < 3 ∧ 1 ≤ pos ∧ pos ≤ 1024) && bits d 16 48 == 0 && (op == 2 || host == 0) &&
    (op == 0 || (slot == 0 && !d.testBit 2))

/-- CSPLICE (R211). -/
def execCsplice (gd ga gb : BitVec 5) (s : State) : Host.Outcome State Fault Refusal :=
  .next (s.memWord [ga, gb] [gd] fun r =>
    let p := s.reg r ga
    let h := s.reg r gb
    let g := h.toNat
    match s.readBlock r [0, 4] p 16 with
    | .stop e => e
    | .ok s l =>
      let d := leValue l
      let c := s.core r
      if !spliceOk d then .trap s 16 (cfgVal p.toNat)
      else if g ≥ 4 ∨ !((s.gen r g).stream.any fun t => !t.ended && decide (spbDir t.spb = 0 ∨ spbDir t.spb = 3)) then
        .trap s 6 (ptrSub h 5)
      else if c.ocTl ≥ 16 then .wait s 5
      else
        let rec_ : Splice :=
          { op := bits d 0 2, pos := bits d 3 11, slot := bits d 14 2, inh := d.testBit 2,
            host := BitVec.ofNat 64 (bits d 64 64), seq := c.spliceSeq, rank := r, failed := false }
        let s := s.modStream r g fun t =>
          { t with out := t.out ++ [.item (.splice rec_)], records := t.records ++ [(t.tok, .splice rec_)] }
        let s := s.modCore r fun c => { c with ocTl := c.ocTl + 1, spliceSeq := (c.spliceSeq + 1) % 2 ^ 16 }
        .retire (s.setReg r gd (BitVec.ofNat 64 rec_.seq)) 1)

/-! ### A record at a cell -/

/-- The data ports that a cell uses: inputs, outputs. -/
def Cell.dataPorts (c : Cell) : List Nat × List Nat :=
  (c.used.filter fun p => decide (p < 8), c.used.filter fun p => decide (8 ≤ p ∧ p < 16))

/-- The record that stands at the head of every data input of a cell that fires no actor. -/
def Cell.recordAt (c : Cell) (now : Nat) : Option Splice :=
  let heads := c.dataPorts.1.map fun p => match c.port p with
    | ⟨.splice x, t⟩ :: _ => if t ≤ now then some x else none
    | _ => none
  if c.firing.isSome then none
  else match heads with
    | some x :: rest => if rest.all (· == some x) then some x else none
    | _ => none

/-- The record passes a cell on which it does not act: one record at each output that the cell uses. The predecessor of an
inserted stage that inherits is held (R212, R213). -/
def State.passSplice (s : State) (r k : Nat) (p : Splice) : State :=
  let c := s.cell r k
  let (ins, outs) := c.dataPorts
  if outs.any fun q => decide (c.free s.now q = 0) then s
  else
    let hold := !s.hasActed p && p.op == 0 && p.inh &&
      (s.regionOf p.rank).any fun g => mapFind g.stages (p.pos - 1) == some (r, k)
    let s := (s.modCell r k fun c =>
      let c := ins.foldl (fun c q => (c.setPort q ((c.port q).drop 1)).freeSlots s.now q 1) c
      let c := outs.foldl (fun c q => c.setPort q (c.port q ++ [⟨.splice p, s.now + 1⟩])) c
      { c with frozen := c.frozen || hold }).touch r
    if outs.isEmpty then s.sinkSplice p else s

/-- Whether a stage qualifies for a splice (R212): the one actor of its tile, not replicated, fed on i0 and feeding on o0. -/
def State.qualifies (s : State) (r k : Nat) : Bool :=
  ((s.fab r).cells.flatMap fun e => e.2.actors).length == 1 &&
    (s.cell r k).actors.any fun a => a.repl == 0 && a.rate 0 > 0 && a.rate 8 > 0 &&
      (a.ports.filter fun p => decide (p < 16)) == [0, 8]

/-- The one actor of a stage image. -/
def Image.stageActor (im : Image) : Option ActorRec :=
  match im.actors with
  | [a] => if im.lgn = 0 ∧ a.tile = 0 ∧ a.repl = 0 ∧ mapGet 0 (im.rates a) 0 > 0 ∧ mapGet 0 (im.rates a) 8 > 0 then some a else none
  | _ => none

/-- The rerouted link that ends at i0 of a cell. -/
def State.wireTo (s : State) (r k : Nat) : Option (Nat × Wire) := s.wires.find? fun e => e.2.dest == .input r k 0
/-- The link that brings items to i0 of a cell ends elsewhere from now on, with `items`, which had reached the cell, ahead of what
is on it. -/
def State.reroute (s : State) (r k : Nat) (dest : WireEnd) (lat : Nat) (items : List Held) : State :=
  match s.wireTo r k with
  | some (key, w) => { s with wires := mapSet s.wires key ⟨dest, lat, items ++ w.items⟩ }
  | none => { s with wires := mapSet s.wires (16 * r + k) ⟨dest, lat, items⟩ }
/-- Where o0 of a cell leads. -/
def State.nextEnd (s : State) (r k : Nat) : Option WireEnd :=
  match mapFind s.wires (8192 + 16 * r + k) with
  | some w => some w.dest
  | none => s.leadsTo r k 8
/-- The tile at the end of a link. -/
def WireEnd.tile : WireEnd → Nat
  | .input r _ _ => r
  | .net r _ _ => r
  | .router r _ => r

/-- Lanes for rerouted links between pairs of tiles (R173, R213). -/
def State.spliceLanes (s : State) (g : Region) (l : List (Nat × Nat)) : Option State :=
  match takeLanes (s.lanes.flatMap LaneSet.links) (l.filter fun e => decide (e.1 ≠ e.2)) with
  | .ok [] => some s
  | .ok ls => some { s with lanes := s.lanes ++ [⟨g.lead, ((s.fab g.lead).active).getD 0, ls⟩] }
  | .error _ => none

/-- The tile that feeds a stage: that of its predecessor, or the tile whose generator issued the record. -/
def Region.feeder (g : Region) (p : Splice) : Nat := ((mapFind g.stages (p.pos - 1)).map Prod.fst).getD p.rank

/-- The windows of a memory tile, with the words and state of another's that have the same map index (R213, INH). -/
def MTile.takeWindows (m from_ : MTile) : MTile :=
  (List.range 2).foldl (fun (m : MTile) j =>
    if (nth 0 from_.wins j).testBit 0 ∧ (nth 0 m.wins j).testBit 0 then
      let w := from_.window j
      let m := [w.vreg, w.wreg].foldl (fun (m : MTile) i =>
        let a := mapEntry i (nth 0 from_.map i)
        let b := mapEntry i (nth 0 m.map i)
        { m with mem := writeBytes m.mem (4 * b.base) (readBytes from_.mem (4 * a.base) (4 * Nat.min a.len b.len)) }) m
      match mapFind from_.win j with
      | some st => { m with win := mapSet m.win j st }
      | none => m
    else m) m

/-- A stage image is made active on a spare tile of the region that `lead` leads; the tile's router keeps the links that pass
through it. -/
def State.startStage (s : State) (lead r slot : Nat) : State :=
  let im : Image := (s.slot r slot).image
  (((s.modFab r fun f => { f with
    cells := (List.range 16).foldl (fun m k => mapMod Cell.reset m k fun c => c.configure im 0 k s.now) f.cells,
    mx := { f.mx with rows := [] }, q0 := f.q0.configure im 0 0, q1 := f.q1.configure im 0 1,
    ux0 := f.ux0.configure im 0 0 s.now, ux1 := f.ux1.configure im 0 1 s.now, active := some slot }).placeCode r im).preload lead r 0 0 im).preload lead r 0 1 im

/-- A memory tile with every word zero (R213). -/
def MTile.clear (m : MTile) : MTile := { m.unmap with mem := [], poisoned := [], soft := [] }
/-- The tile of a stage that has left the chain becomes spare, and its cells, memory tiles and matrix array are cleared, with its
counters kept; what passes through its router goes on (R213). DEDUCED (log 129), unsafe. -/
def State.clearStage (s : State) (r : Nat) : State := s.modFab r fun f =>
  let u := f.unconfigure s.now
  { u with
    cells := u.cells.map fun e => (e.1, { e.2 with cond := [] }), q0 := u.q0.clear, q1 := u.q1.clear,
    mx := { Matrix.reset with macAt := f.mx.macAt, acct := f.mx.acct }, router := f.router }

/-- Stages numbered `pos` and above move up by one. -/
def stagesUp (pos : Nat) (m : NMap (Nat × Nat)) : NMap (Nat × Nat) := m.map fun e => if pos ≤ e.1 then (e.1 + 1, e.2) else e
/-- Stage `pos` is gone, and those above it move down by one. -/
def stagesDown (pos : Nat) (m : NMap (Nat × Nat)) : NMap (Nat × Nat) :=
  (m.filter fun e => e.1 != pos).map fun e => if pos < e.1 then (e.1 - 1, e.2) else e

/-- What stands behind the record at i0 of a cell, the record first. -/
def Cell.behindRecord (c : Cell) (now : Nat) (p : Splice) : List Held := ⟨.splice p, now + 1⟩ :: (c.port 0).drop 1
/-- The state with a record noted as having acted. -/
def State.noteActed (s : State) (p : Splice) : State := { s with spliced := p :: s.spliced }

/-- The record acts at stage `pos`, which runs on cell `k` of tile `r` (R213). A chain of 1024 stages takes no further one (R27),
and a stage whose preload fails is none (R205). DESIGN CHOICE (log 130), unsafe. -/
def State.actSplice (s : State) (r k : Nat) (p : Splice) (g : Region) : State :=
  let c := s.cell r k
  let items := c.behindRecord s.now p
  let a := g.feeder p
  if !s.qualifies r k ∨ (p.op = 0 ∧ (mapFind g.stages 1024).isSome) then s.failSplice p 4
  else if p.op = 0 then
    match g.ranks.find? s.isSpare with
    | none => s.failSplice p 0
    | some n =>
      let im : Image := (s.slot n p.slot).image
      match if (s.slot n p.slot).ident = 0 then none else im.stageActor with
      | none => s.failSplice p 1
      | some st => match s.spliceLanes g [(a, n), (n, r)] with
        | none => s.failSplice p 3
        | some s' =>
          let s' := s'.startStage g.lead n p.slot
          if (s'.fab n).active.isNone then { s' with lanes := s.lanes }.failSplice p 1
          else
          let s := s'.noteActed p
          let s := s.reroute r k (.input n st.cell 0) (circuitLat a n) []
          let s := { s with wires := mapSet s.wires (8192 + 16 * n + st.cell) ⟨.input r k 0, circuitLat n r, []⟩ }
          let s := s.modCell r k fun c => c.setPort 0 []
          let s := s.modCell n st.cell fun c => c.setPort 0 items
          let s := s.modRegion g.lead fun g => { g with stages := mapSet (stagesUp p.pos g.stages) p.pos (n, st.cell) }
          match mapFind g.stages (p.pos - 1) with
          | some (x, y) =>
            if p.inh then
              let bank := mapGet [] (s.cell x y).banks 0
              let from_ := s.fab x
              let s := s.modCell n st.cell fun c => { c with banks := mapSet c.banks 0 bank }
              let s := s.modFab n fun f => { f with q0 := f.q0.takeWindows from_.q0, q1 := f.q1.takeWindows from_.q1 }
              s.modCell x y fun c => { c with frozen := false }
            else s
          | none => s
  else if !(c.port 8).isEmpty then s
  else match s.nextEnd r k with
    | none => s.failSplice p 4
    | some e =>
      let far := match e with
        | .router _ _ => []
        | _ => [e.tile]
      if p.op = 1 then
        match s.spliceLanes g (far.map fun t => (a, t)) with
        | none => s.failSplice p 3
        | some s =>
          let s := (s.noteActed p).reroute r k e (circuitLat a e.tile) items
          let s := { s with wires := mapDel s.wires (8192 + 16 * r + k) }
          (s.clearStage r).modRegion g.lead fun g => { g with stages := stagesDown p.pos g.stages }
      else
        match (s.regions.map Prod.snd).find? fun h => decide (h.task = p.host.toNat) with
        | none => s.failSplice p 2
        | some h =>
          if s.owner h.lead ≠ s.owner g.lead then s.failSplice p 2
          else match h.ranks.find? s.isSpare with
            | none => s.failSplice p 0
            | some n => match s.spliceLanes g ((a, n) :: far.map fun t => (n, t)) with
              | none => s.failSplice p 3
              | some s =>
                let f := s.fab r
                let slot := f.active.getD 0
                let s := (s.noteActed p).modSlot n slot fun _ => s.slot r slot
                let s := s.modFab n fun x => { f with router := x.router, gens := x.gens, nodes := [], frozen := x.frozen }
                let s := s.modCell n k fun c => c.setPort 0 items
                let s := s.reroute r k (.input n k 0) (circuitLat a n) []
                let w : Wire := ⟨e, circuitLat n e.tile, []⟩
                let s := { s with wires := mapSet (mapDel s.wires (8192 + 16 * r + k)) (8192 + 16 * n + k) w }
                (s.clearStage r).modRegion g.lead fun g => { g with stages := mapSet g.stages p.pos (n, k) }

/-- SPLICE_ARRIVAL (R212, R213): the record at the cell in focus acts where the cell runs the stage that it names in the
region of the core that issued it, and passes elsewhere. -/
def execSpliceArrival (s : State) : Host.Outcome State Fault Refusal :=
  let r := s.foc.unit
  let k := s.foc.sub
  .next (if (s.fab r).frozen then s
    else match (s.cell r k).recordAt s.now with
      | none => s
      | some p => match (s.regionOf p.rank).filter fun g => mapFind g.stages p.pos == some (r, k) with
        | some g => if s.hasActed p then s.passSplice r k p else s.actSplice r k p g
        | none => s.passSplice r k p)

/-- SPLICE_SINK (R214, R215): the sink in focus consumes the record or marker that stands before it. A port that a BARR
feeds and nothing consumes takes it with that word. -/
def execSpliceSink (node : Node) (s : State) : Host.Outcome State Fault Refusal :=
  let r := s.foc.unit
  let port (ok : Nat → Bool) : State :=
    match (List.range 4).findSome? fun k => if ok ((s.router r).dest k) then
        (match s.waitingAt r k with
         | some (.splice p) => some (k, p)
         | _ => none) else none with
    | some (k, p) => (s.takeOut r k).sinkSplice p
    | none => s
  .next (match node with
    | .gen g => port fun c => c == 0x1000 + g
    | .mtile q => port fun c => (codeKind c == 3 && bits c 1 1 == q) || (codeKind c == 4 && bits c 3 1 == q)
    | .cell k =>
      match (s.cell r k).recordAt s.now with
      | some p => if (s.cell r k).dataPorts.2.isEmpty ∧ !(s.fab r).frozen then s.passSplice r k p else s
      | none => s
    | .router => s
    | .ux _ => s)

end Sys2Proof.Machine
end

