-- ==== Sys2Proof/Machine/Barriers.lean ====
section
/-!
DEFINITION. Barrier tokens: the words that place and await them, and their passing at a cell (R102, R305, R306, R398).
-/

namespace Sys2Proof.Machine

/-! ### BTOK and BDRAIN (R305, R306) -/

/-- Whether a generator runs a read stream. -/
def State.readsOn (s : State) (r g : Nat) : Bool :=
  (s.gen r g).stream.any fun t => !t.ended && decide (spbDir t.spb = 0 ∨ spbDir t.spb = 3)

/-- The generators that ga of BTOK and BDRAIN names: every one that runs a read stream for a mask of 0; nothing where the
operand is bad. -/
def State.barrierGens (s : State) (r : Nat) (v : DWord) : Option (List Nat) :=
  let named := if v = 0 then (List.range 4).filter (s.readsOn r) else bitList 4 v.toNat
  if v.toNat < 16 ∧ named.all (s.readsOn r) then some named else none

/-- BTOK (R305). -/
def execBtok (ga : BitVec 5) (s : State) : Host.Outcome State Fault Refusal :=
  .next (s.memWord [ga] [] fun r =>
    let v := s.reg r ga
    match s.barrierGens r v with
    | none => .trap s 6 (valSub v 5)
    | some gs =>
      .retire (gs.foldl (fun s g => s.modStream r g fun t =>
        { t with out := t.out ++ [.item (.barrier [(t.id, t.bars, 0)])], bars := t.bars + 1 }) s) 1)

/-- Whether an item stands for a barrier of some stream with a number below `n`. -/
def Item.barrierBelow (i : Item) (id n : Nat) : Bool :=
  match i with
  | .barrier src => src.any fun x => x.1 == id && decide (x.2.1 < n)
  | _ => false

/-- Whether every barrier of a stream numbered below `n` has reached the sinks that it feeds (R306). -/
def State.drained (s : State) (id n : Nat) : Bool := !(s.itemsIn (s.tiles.map Prod.fst)).any fun i => i.barrierBelow id n

/-- Whether all barriers that a BDRAIN waits for have drained: pairs of a stream and the count of its barriers. -/
def State.allDrained (s : State) : List Nat → Bool
  | id :: n :: rest => s.drained id n && s.allDrained rest
  | _ => true

/-- BDRAIN (R306): the barriers that it waits for are fixed at its first attempt. -/
def execBdrain (gd ga : BitVec 5) (s : State) : Host.Outcome State Fault Refusal :=
  .next (s.memWord [ga] [gd] fun r =>
    let v := s.reg r ga
    let finish (l : List Nat) : WordEnd :=
      if s.allDrained l then .retire (s.setReg r gd s.cycle) 1
      else .wait (s.modCore r fun c => { c with stall := some (.latch l) }) 3
    match (s.core r).stall with
    | some (.latch l) => finish l
    | _ => match s.barrierGens r v with
      | none => .trap s 6 (valSub v 5)
      | some gs => finish (gs.flatMap fun g => (s.gen r g).stream.elim [] fun t => [t.id, t.bars]))

/-! ### Barriers at a cell (R102, R398) -/

/-- What a snapshot keeps of a cell: everything but a firing, which none is at a boundary. -/
def Cell.saved (c : Cell) : Cell := { c with firing := none }

/-- The barrier that ends the round in progress passes a cell of a region that takes snapshots: the cell is copied (R398). -/
def State.copyCell (s : State) (r k : Nat) (src : List (Nat × Nat × Nat)) : State :=
  match s.regionOf r with
  | none => s
  | some g =>
    if s.snapsIn g && src.any (fun x => x.2.2 == g.round + 1) then
      s.modRegion g.lead fun g => { g with snapNew := mapMod Fabric.reset g.snapNew (r - g.lead) fun f =>
        { f with cells := mapSet f.cells k (s.cell r k).saved } }
    else s

/-- BARRIER_PASS (R102): a cell in which no firing is in progress in this cycle, its FEND included, or begins in it removes the
barriers at the heads of its used inputs and places one on each used output. A firing that this cycle selects begins in the
next one (R95). DEDUCED (log 37), unsafe. -/
def execBarrierPass (s : State) : Host.Outcome State Fault Refusal :=
  let r := s.foc.unit
  let k := s.foc.sub
  let c := s.cell r k
  .next (
    if (s.fab r).frozen ∨ c.frozen ∨ s.now < c.readyAt ∨ c.acct.since = s.now ∨
        c.firing.any (fun f => decide (f.first ≤ s.now)) then s
    else match c.passBarriers s.now with
      | none => s
      | some (c', src) =>
        (((s.modCell r k fun _ => { c' with acct := c'.acct.enter 7 s.now }).copyCell r k src).touch r))

end Sys2Proof.Machine
end

