-- ==== Sys2Proof/Machine/Tasks.lean ====
section
/-!
DEFINITION. Tasks: records and their checks, queue contexts, the join counter, the end of a task, and the words of the TASK
group that name them (R285 to R304, R458).
-/

namespace Sys2Proof.Machine

/-! ### Task records (R285, R286) -/

/-- Doubleword `i` of a record. -/
def recWord (l : List Nat) (i : Nat) : Nat := nth 0 l i
/-- Kind of task. -/
def recKind (l : List Nat) : Nat := bits (recWord l 0) 8 4
/-- Priority. -/
def recPrio (l : List Nat) : Nat := bits (recWord l 0) 12 3
/-- The barrier flag. -/
def recBarrier (l : List Nat) : Bool := (recWord l 0).testBit 16
/-- Queue context. -/
def recQueue (l : List Nat) : Nat := bits (recWord l 0) 30 12
/-- Partition. -/
def recPart (l : List Nat) : Nat := bits (recWord l 0) 42 6
/-- Log of the region's size. -/
def recLgn (l : List Nat) : Nat := bits (recWord l 0) 48 4
/-- Group level. -/
def recLvl (l : List Nat) : Nat := bits (recWord l 0) 52 3
/-- Group number. -/
def recGidx (l : List Nat) : Nat := bits (recWord l 0) 55 9
/-- The pointer of the join counter. -/
def recJoin (l : List Nat) : DWord := BitVec.ofNat 64 (recWord l 1)
/-- The pointer of the image or of the command block. -/
def recImage (l : List Nat) : DWord := BitVec.ofNat 64 (recWord l 2)
/-- The pointer of the counter that completion decrements. -/
def recDone (l : List Nat) : DWord := BitVec.ofNat 64 (recWord l 3)
/-- The value that g1 of the lead core takes. -/
def recArg (l : List Nat) : Nat := recWord l 4
/-- The operand declarations whose mode is not 0. -/
def recDecls (l : List Nat) : List Nat := ((List.range 8).map fun k => recWord l (8 + k)).filter fun d => bits d 62 2 != 0

/-- The tiles of a group of a level. -/
def groupSize (lvl : Nat) : Nat := if lvl = 0 then 512 else 4 ^ (lvl - 1)
/-- Whether an operand declaration obeys R286. -/
def declOk (d : Nat) : Bool :=
  if bits d 62 2 = 0 then d == 0 else bits d 4 2 == 0 && bits d 48 13 != 0
/-- Whether a record obeys R285 and R286. -/
def recOk (l : List Nat) : Bool :=
  let w := recWord l 0
  let region := recKind l == 0
  bits w 0 8 == 1 && decide (recKind l ≤ 4 ∧ recLvl l ≤ 4) && !w.testBit 15 && bits w 17 13 == 0 &&
    ([5, 6, 7].all fun i => recWord l i == 0) &&
    ([recJoin l, recImage l, recDone l].all fun p => ptrSpace p == 0 || ptrSpace p == 7) &&
    ((List.range 8).all fun k => declOk (recWord l (8 + k))) &&
    (if region then
      decide (recLgn l ≤ 9 ∧ 2 ^ recLgn l ≤ groupSize (recLvl l)) &&
        (if recLvl l = 0 then recGidx l == 511 else decide (recGidx l < 512 / groupSize (recLvl l)))
    else recArg l == 0 && recLgn l == 0 && recLvl l == 0 && recGidx l == 511)

/-! ### Queue contexts (R287, R301) -/

/-- The identifier of the task with sequence `n` in a context. -/
def taskId (q gen n : Nat) : Nat := q + gen * 2 ^ 12 + n * 2 ^ 24
/-- The context that a task identifier names. -/
def Task.queue (t : Task) : Nat := bits t.id 0 12
/-- The task with an identifier. -/
def State.taskOf (s : State) (id : Nat) : Option Task := s.tasks.find? fun (t : Task) => decide (t.id = id)
/-- The state with a task changed by `f`. -/
def State.modTask (s : State) (id : Nat) (f : Task → Task) : State :=
  { s with tasks := s.tasks.map fun (t : Task) => if t.id = id then f t else t }
/-- The accepted tasks of a context that have not started. -/
def State.unstarted (s : State) (q : Nat) : List Task :=
  s.tasks.filter fun (t : Task) => decide (t.queue = q ∧ t.phase = .accepted)
/-- The open context of a partition that a handle names. -/
def State.handle (s : State) (part : Option Nat) (h : Nat) : Option Nat :=
  let q := bits h 0 12
  let x := s.queue q
  if h < 2 ^ 24 ∧ x.open_ ∧ x.gen = bits h 12 12 ∧ some x.part = part then some q else none
/-- The status of a task is entered in its context, which becomes free once it is closing and nothing is left in it. -/
def State.setStatus (s : State) (id status : Nat) : State :=
  let q := bits id 0 12
  let s := { s with tasks := s.tasks.filter fun (t : Task) => decide (t.id ≠ id) }
  let left := s.tasks.any fun (t : Task) => t.queue == q
  s.modQueue q fun x =>
    { x with status := mapSet x.status (bits id 24 16) status, closing := x.closing && left }

/-- A task is accepted from a record (R289, R300); the scheduler reads nothing for it before some accesses have performed (R38). -/
def State.submit (s : State) (q : Nat) (l : List Nat) (block before : List Nat) : State × Nat :=
  let x := s.queue q
  let id := taskId q x.gen x.seq
  let t : Task :=
    { id := id, rec_ := l, accepted := s.now, order := s.nextId, joinRead := recJoin l == 0,
      join := if recJoin l = 0 then some s.now else none, phase := .accepted, lead := 0, startAt := 0, core := 0, left := 0,
      status := 0, save := none, joinLoc := none, block := block, before := before }
  let s := { s.bumpId with tasks := s.tasks ++ [t] }
  (s.modQueue q fun x => { x with seq := (x.seq + 1) % 2 ^ 16, status := mapDel x.status x.seq }, id)

/-- TSUB (R300). -/
def execTsub (gd ga gb : BitVec 5) (s : State) : Host.Outcome State Fault Refusal :=
  .next (s.memWord [ga, gb] [gd] fun r =>
    let p := s.reg r ga
    let h := s.reg r gb
    match s.checkPtr r [0, 4, 7] p 128 (s.need r true false) with
    | (_, some e) => e
    | (s, none) => match s.handle (s.owner r) h.toNat with
      | none => .trap s 6 (valSub h 9)
      | some q => match s.readBlock r [0, 4, 7] p 128 with
        | .stop e => e
        | .ok s l =>
          let rec_ := (List.range 16).map (blockWord l)
          if !recOk rec_ ∨ recQueue rec_ ≠ q ∨ some (recPart rec_) ≠ s.owner r then .trap s 6 (ptrSub p 10)
          else if (s.unstarted q).length ≥ 16 then .wait s 5
          else
            let (s, id) := s.submit q rec_ [] (s.releases r)
            .retire (s.setReg r gd (BitVec.ofNat 64 id)) 1)

/-- Whether the partition and the sub-partition of a core hold right 3 (R363); the operator holds every right. -/
def State.mayBind (s : State) (r : Nat) : Bool :=
  match s.owner r with
  | none => true
  | some p => decide ((s.core r).level = 0) ||
      ((s.part p).rights.testBit 3 && (decide ((s.core r).level = 1) || (s.subp (s.core r).subp).rights.testBit 3))

/-- The contexts in use by a partition, or by one of its sub-partitions. -/
def State.contextsOf (s : State) (part : Nat) (sub : Option Nat) : Nat :=
  (s.queues.filter fun e => (e.2.open_ || e.2.closing) && e.2.part == part &&
    sub.all fun n => (s.asid e.2.asid).subp == n).length

/-- TQOPEN (R301, R363, R364). -/
def execTqopen (gd ga : BitVec 5) (s : State) : Host.Outcome State Fault Refusal :=
  .next (s.memWord [ga] [gd] fun r =>
    let v := s.reg r ga
    let a := s.asid v.toNat
    if !s.mayBind r then s.trapFree 1
    else match s.owner r with
      | none => .trap s 6 (valSub v 9)
      | some p =>
        if v.toNat ≥ 4096 ∨ !a.live ∨ (s.subp a.subp).part ≠ p then .trap s 6 (valSub v 9)
        else match (List.range 4096).find? fun q => !(s.queue q).open_ && !(s.queue q).closing with
          | none => .trap s 23 v
          | some q =>
            if mapGet 0 (s.part p).quotas 1 ≤ s.contextsOf p none ∨
                mapGet 0 (s.subp a.subp).quotas 1 ≤ s.contextsOf p (some a.subp) then .trap s 23 v
            else
              let gen := ((s.queue q).gen + 1) % 2 ^ 12
              let s := s.modQueue q fun _ =>
                { open_ := true, closing := false, part := p, asid := v.toNat, gen := gen, seq := 0, status := [] }
              .retire (s.setReg r gd (BitVec.ofNat 64 (q + gen * 2 ^ 12))) 1)

/-- A context closes (R301): its unstarted tasks are discarded with status 2, and it becomes free once its last task in
flight has completed. -/
def State.closeQueue (s : State) (q : Nat) : State :=
  let gone := s.unstarted q
  let s := gone.foldl (fun s (t : Task) => s.setStatus t.id 2) s
  let left := s.tasks.any fun (t : Task) => t.queue == q
  s.modQueue q fun x => { x with open_ := false, closing := left }

/-- TQCLOSE (R301). -/
def execTqclose (ga : BitVec 5) (s : State) : Host.Outcome State Fault Refusal :=
  .next (s.memWord [ga] [] fun r =>
    let h := s.reg r ga
    match s.handle (s.owner r) h.toNat with
    | none => .trap s 6 (valSub h 9)
    | some q => .retire (s.closeQueue q) 1)

/-- The status that TJOIN gives for an identifier of no task that is still under way (R302). -/
def State.joinStatus (s : State) (id : Nat) : Nat :=
  let x := s.queue (bits id 0 12)
  let n := bits id 24 16
  if id ≥ 2 ^ 40 ∨ !(x.open_ || x.closing) ∨ x.gen ≠ bits id 12 12 then 3
  else if 256 ≤ (x.seq + 2 ^ 16 - 1 - n) % 2 ^ 16 then 3
  else mapGet 3 x.status n

/-- TJOIN (R302). -/
def execTjoin (gd ga : BitVec 5) (s : State) : Host.Outcome State Fault Refusal :=
  .next (s.memWord [ga] [gd] fun r =>
    let id := (s.reg r ga).toNat
    if (s.taskOf id).isSome then .wait s 3 else .retire (s.setReg r gd (BitVec.ofNat 64 (s.joinStatus id))) 1)

/-- TSELF (R304). -/
def execTself (gd : BitVec 5) (s : State) : Host.Outcome State Fault Refusal :=
  .next (s.word [] [gd] fun r =>
    let v : DWord := (s.region? r).elim (BitVec.allOnes 64) fun g => BitVec.ofNat 64 g.task
    .retire (s.setReg r gd v) 1)

/-! ### Completion (R298) -/

/-- The partition of a task. -/
def State.taskPart (s : State) (t : Task) : Nat := (s.queue t.queue).part
/-- The ASID of a task's queue. -/
def State.taskAsid (s : State) (t : Task) : Nat := (s.queue t.queue).asid
/-- Where a location of the scheduler's own access lies: by its caches, or by the tables (R359). -/
def State.schedPlace (s : State) (t : Task) (p : DWord) (rd wr : Bool) : State × Except Nat (Loc × Option Xlat) :=
  let part := some (s.taskPart t)
  match s.reach (.sched t.id) part (s.taskAsid t) p ⟨rd, wr, false⟩ with
  | (s', .at_ loc x) => (s', .ok (loc, x))
  | (s', .fault c) => (s', .error c)
  | (_, .miss) => (s, s.placeNow part (s.taskAsid t) p ⟨rd, wr, false⟩)

/-- A done decrement of a task, given by its identifier, partition, ASID and pointer (R298): an access of the scheduler's own, which
waits where its translation does. -/
def State.tryDone (s : State) (d : Nat × Nat × Nat × DWord) : State :=
  let (id, part, asid, p) := d
  match s.reach (.sched id) (some part) asid p ⟨true, true, false⟩ with
  | (s, .miss) => { s with dones := s.dones ++ [d] }
  | (s, .fault c) => s.raiseSteward part c p
  | (s, .at_ loc x) => s.send { s.newAccess (.sched id) (.amo .tsig) loc 4 0 p x with rel := true, part := some part }
/-- The done decrements that wait for a translation are tried again. -/
def State.retryDones (s : State) : State := s.dones.foldl State.tryDone { s with dones := [] }
/-- The counter at `done` is decremented as by TSIG (R298). -/
def State.doneDecrement (s : State) (t : Task) : State :=
  let p := recDone t.rec_
  if p = 0 then s
  else if !ptrFormOk p then s.raiseSteward (s.taskPart t) 3 p
  else s.tryDone (t.id, s.taskPart t, s.taskAsid t, p)

/-- A task completes (R298): its hazard entries are released, its status is entered, and at status 0 its counter is
decremented. -/
def State.completeTask (s : State) (id status : Nat) : State :=
  match s.taskOf id with
  | none => s
  | some t =>
    let s := { s with hazards := s.hazards.filter fun e => decide (e.1 ≠ id), saves := mapDel s.saves id }
    let s := if status = 0 then s.doneDecrement t else s
    s.setStatus id status

/-! ### The tiles of a region that ends -/

/-- What a core has outstanding is completed or discarded (R259, R298): stores and atomics perform, loads are dropped, and its
copies end. DEDUCED (log 39), unsafe. -/
def State.drainCore (s : State) (r : Nat) : State :=
  let s := (s.accsOf r).foldl (fun s (a : Access) => if a.done then s else match a.kind with
    | .load _ => s
    | _ => s.perform a) s
  let s := s.cancelCopies fun c => c.core == r && !c.sched
  let s := { s with
    accs := s.accs.filter fun (a : Access) => !decide (a.who = Who.core r),
    packets := s.packets.map fun (k : Packet) => if k.from_ = some r then { k with from_ := none } else k }
  s.modCore r fun c => { c with
    ocLd := 0, ocSt := 0, ocCp := 0, ocTl := 0, pend := [], poison := [], acquires := [], stall := none, wake := none }

/-- A core stops, in category 7, and belongs to no task (R295, R298). -/
def Core.stop (c : Core) (now : Nat) : Core :=
  { c.account 7 now with mode := c.rest, stall := none, task := none, helper := false, wake := none, abort := false }

/-- A scan engine holds no item (R298). -/
def Scan.discard (g : Scan) : Scan :=
  { g.restart g.opw with inq := [], join := [], runs := [], chainIn := [], link := [], outq := [], compact := [] }

/-- The tiles of a block become free (R298): their cores stop, every item on them is discarded, their slots stay. -/
def State.freeBlock (s : State) (lead : Nat) (ranks : List Nat) : State :=
  let s := ranks.foldl (fun s r =>
    let s := (s.drainCore r).modCore r fun c => c.stop s.now
    let s := { s with accs := s.accs.filter fun (a : Access) => match a.who with
      | .gen t _ => t != r
      | _ => true }
    s.modFab r fun f => { f.unconfigure s.now with
      scan := f.scan.discard, frozen := false,
      gens := f.gens.map fun e => (e.1, { Gen.reset with acct := e.2.acct.enter 6 s.now }) }) s
  { s with
    regions := mapDel s.regions lead,
    jobs := s.jobs.filter fun j => decide (j.lead ≠ lead),
    cfgJoin := mapDel s.cfgJoin lead,
    lanes := s.lanes.filter fun l => decide (l.lead ≠ lead),
    copies := s.copies.filter fun e => decide (e.2.1 ≠ lead),
    wires := s.wires.filter fun e => !ranks.contains (e.1 % 8192 / 16),
    spliced := s.spliced.filter fun p => !ranks.contains p.rank }

/-- A region task ends with a status (R298): its tiles become free and it completes. -/
def State.endRegion (s : State) (g : Region) (status : Nat) : State :=
  (s.freeBlock g.lead g.ranks).completeTask g.task status

/-! ### TEND and tk.wake (R295, R298) -/

/-- A core with nothing outstanding. -/
def Core.idle (c : Core) : Bool := c.ocLd == 0 && c.ocSt == 0 && c.ocCp == 0 && c.ocTl == 0
/-- The helper cores of the region that core `r` leads that are awake or about to wake. -/
def State.helpers (s : State) (g : Region) : List Nat :=
  g.ranks.filter fun t => decide (t ≠ g.lead) && ((s.core t).helper || (s.core t).wake.isSome)
/-- The helper cores of a region that are awake: those that have started and not stopped. -/
def State.awake (s : State) (g : Region) : List Nat :=
  g.ranks.filter fun t => decide (t ≠ g.lead) && (s.core t).helper && (s.core t).mode == .running

/-- TEND (R295, R298, R303). DEDUCED (log 49), unsafe. -/
def execTend (s : State) : Host.Outcome State Fault Refusal :=
  .next (s.memWord [] [] fun r =>
    let c := s.core r
    match s.region? r with
    | some g =>
      let waking := g.ranks.any fun t => (s.core t).wake.isSome
      if c.idle && (s.awake g).isEmpty && !waking then .done (s.endRegion g 0) else .wait s 3
    | none =>
      if c.helper then
        if c.idle then .done (s.modCore r fun c => c.stop s.now) else .wait s 3
      else .trap s 6 (valSub 0 11))

/-- A write of tk.wake by the core of tile `r` (R295). DEDUCED (log 29), unsafe. -/
def State.wakeWord (s : State) (r : Nat) (v : DWord) : WordEnd :=
  let k := bits v.toNat 32 9
  let entry := bits v.toNat 0 18
  let bad : WordEnd := .trap s 6 (valSub v 18)
  match s.region? r with
  | none => bad
  | some g =>
    let t := g.lead + k
    if k = 0 ∨ 2 ^ g.lgn ≤ k ∨ (s.core t).mode ≠ .stopped ∨ entry % 4 ≠ 0 then bad
    else .retire (s.modCore t fun c => { c with wake := some (entry, s.releases r) }) 1

/-- TK_WAKE_WRITE (R295): the write of tk.wake by the core in focus. -/
def execTkWakeWrite (v : BitVec 64) (s : State) : Host.Outcome State Fault Refusal :=
  let r := s.foc.unit
  .next (s.endWord r (s.wakeWord r v))

/-- A core at task level, as R294 and R295 start one: g1, g2 and the identities are given, the rest is zero. The trap registers
of the other levels hold what the tile's owner left in them. One that HALT has stopped does not start (R279).
DEDUCED (log 48), unsafe. -/
def Core.enterTask (c : Core) (now entry : Nat) (arg : DWord) (id asid subp : Nat) (helper : Bool) : Core :=
  if c.mode = .halted then c else
  { c.start now with
    regs := ((Vector.replicate 32 (0 : DWord)).set 1 arg).set 2 (BitVec.ofNat 64 id),
    pc := entry, level := 3,
    loops := if helper then [] else mapDel c.loops 3, traps := mapDel c.traps 3,
    ocLd := 0, ocSt := 0, ocCp := 0, ocTl := 0, pend := [], poison := [], acquires := [], boLatch := none,
    wake := none, abort := false, asid := asid, subp := subp, cpbin := 0, cpbout := 0,
    task := some id, helper := helper }

/-- HELPER_CORE_START (R295): the core in focus starts once the stores that the write of tk.wake releases have performed. -/
def execHelperCoreStart (s : State) : Host.Outcome State Fault Refusal :=
  let r := s.foc.unit
  .next (match (s.core r).wake, s.regionOf r with
    | some (entry, ids), some g =>
      if !s.performed ids then s
      else match s.taskOf g.task with
        | none => s
        | some t =>
          let l := s.core g.lead
          s.modCore r fun c => c.enterTask s.now entry (BitVec.ofNat 64 (recArg t.rec_)) t.id l.asid l.subp true
    | _, _ => s)

/-! ### The join counter (R289) -/

/-- A task that cannot start ends with status 1, and the steward of its partition learns of the fault (R289). -/
def State.taskFails (s : State) (t : Task) (fault : Option (Nat × DWord)) : State :=
  let s := match fault with
    | some (c, v) => s.raiseSteward (s.taskPart t) c v
    | none => s
  s.completeTask t.id 1

/-- JOIN_COUNTER_READ (R289, R292): the scheduler reads the join counter of the task in focus, once, when it has learned of the task
and what its TSUB releases has performed (R38). -/
def execJoinCounterRead (s : State) : Host.Outcome State Fault Refusal :=
  .next (match s.taskOf s.foc.unit with
    | none => s
    | some t =>
      let p := recJoin t.rec_
      if t.phase ≠ .accepted ∨ t.joinRead ∨ s.now < t.accepted + 64 ∨ !s.performed t.before then s
      else if !ptrFormOk p then s.taskFails t (some (3, p))
      else match s.reach (.sched t.id) (some (s.taskPart t)) (s.taskAsid t) p ⟨true, false, false⟩ with
        | (s', .miss) => s'
        | (s', .fault c) => s'.taskFails t (some (c, p))
        | (s', .at_ loc x) =>
          if s'.isLost loc then s'.taskFails t (some (19, p))
          else
            let disc := x.any fun x => (s'.discarded x.subp x.page).isSome
            let (s', v, bad) := if disc then (s', 0, []) else (x.elim s' fun x => s'.hotAccess x 1).homeRead loc 4
            if !bad.isEmpty then s'.taskFails t (some (13, p))
            else s'.modTask t.id fun t =>
              { t with joinRead := true, joinLoc := some (s'.atHome loc), join := if v = 0 then some s.now else none })

end Sys2Proof.Machine
end

