-- ==== Sys2Proof/Machine/Rounds.lean ====
section
/-!
DEFINITION. Rounds: their end, snapshots, the voiding of a round, the watchdog, and the return from a trap, which begins a
rerun (R282, R396 to R402, R404, R405).
-/

namespace Sys2Proof.Machine

/-! ### The end of a round (R396, R398) -/

/-- The streams of a region's generators. -/
def State.streamsOf (s : State) (g : Region) : List Stream :=
  g.ranks.flatMap fun r => (List.range 4).filterMap fun k => (s.gen r k).stream
/-- Whether a stream has issued the barrier of the region's round `k`. -/
def Stream.ending (t : Stream) (k : Nat) : Bool := decide (t.start ≤ k ∧ k < t.start + t.ends)
/-- Whether the barrier of a stream for round `k` is still to come. -/
def Stream.owes (t : Stream) (k : Nat) : Bool :=
  !t.ended && !t.killed && !t.closed && decide (t.start + t.ends ≤ k)

/-- Whether the barriers of round `k` of every read stream of a region have drained. -/
def State.roundDrained (s : State) (g : Region) (k : Nat) : Bool :=
  let reads := (s.streamsOf g).filter fun t => decide (spbDir t.spb = 0 ∨ spbDir t.spb = 3)
  reads.any (fun t => t.ending k) && !reads.any (fun t => t.owes k) &&
    !(s.itemsIn g.ranks).any fun i => match i with
      | .barrier src => src.any fun x => x.2.2 == k + 1
      | _ => false

/-- A cell as a snapshot holds it: what it held as the barrier passed it, with what has reached its ports since. -/
def Cell.asCopied (now : Cell) (old : Option Cell) : Cell :=
  match old with
  | some c => if c.actors = now.actors then { now with banks := c.banks, alt := c.alt, altNext := c.altNext, altAt := c.altAt, cond := c.cond }
    else now
  | none => now

/-- The snapshot of a region, by region-relative tile. DEDUCED (log 85), unsafe. -/
def State.snapshot (s : State) (g : Region) : NMap Fabric :=
  (List.range (2 ^ g.lgn)).map fun i =>
    let f := (s.fab (g.lead + i)).saved s.now
    let old := mapGet Fabric.reset g.snapNew i
    (i, { f with cells := f.cells.map fun e => (e.1, e.2.asCopied (mapFind old.cells e.1)) })

/-- Round `g.round` ends: every generator records its position or commits, and the next round begins. -/
def State.endRound (s : State) (g : Region) : State :=
  let s := g.ranks.foldl (fun s r => (List.range 4).foldl (fun s k => s.commitGen r k g.round) s) s
  s.modRegion g.lead fun g => { g with round := g.round + 1, unvoid := false, moved := true }

/-- The record of a region's new snapshot, in the form of a save area of R209 for the whole region (R398). -/
def State.snapRecord (s : State) (g : Region) : Saved :=
  { s.capture s.nextId g.lead g.ranks fun t => mapGet Fabric.reset (s.snapshot g) (t - g.lead) with num := s.nextId }
/-- Bytes of the snapshot area of a region, written at an offset by the device (R398). -/
def State.writeSnap (s : State) (g : Region) (off : Nat) (l : List Byte) : State × Option (Nat × DWord) :=
  s.writeNow (s.owner g.lead) (s.engineAsid g.lead) (ptrAdd ((s.activeImage g.lead).elim 0 Image.snapArea) off) l true
/-- Whether a write to the snapshot area must wait for a page in motion (R338). -/
def State.snapHeld (s : State) (g : Region) (off n : Nat) : Bool :=
  s.writeHeld (s.owner g.lead) (s.engineAsid g.lead) (ptrAdd ((s.activeImage g.lead).elim 0 Image.snapArea) off) n true
/-- Where the copy that is not valid begins in the snapshot area: behind the 4 KiB header lie two copies of one size. -/
def Region.snapOff (g : Region) (size : Nat) : Nat := 4096 + (1 - g.snapCopy) * size
/-- The new snapshot in memory (R398): the copy that is not valid, and then the header that names it, in the device's own form. A
write that fails is told to the lead core. DESIGN CHOICE (log 153), unsafe. -/
def State.storeSnap (s : State) (g : Region) : State :=
  let k := s.snapRecord g
  let tell (x : State × Option (Nat × DWord)) : State := x.2.elim x.1 fun e => x.1.raise g.lead 3 e.1 e.2
  let s := tell (s.bumpId.writeSnap g (g.snapOff k.size) (savedBytes k k.size))
  tell (s.bumpId.writeSnap g 0 ((List.range 4096).map (Config.saveByte s.nextId)))

/-- ROUND_END (R396, R398): the region in focus, by its lead rank, ends its round once the barriers have drained. Where
snapshots are taken, the tiles are copied first at 64 bytes each cycle, and the copy becomes the valid one. -/
def execRoundEnd (s : State) : Host.Outcome State Fault Refusal :=
  .next (match s.region? s.foc.unit with
    | none => s
    | some g =>
      if g.frozen ∨ g.voiding.isSome ∨ !s.roundDrained g g.round then s
      else if !s.snapsIn g then s.endRound g
      else if g.snapAt = 0 then s.modRegion g.lead fun g => { g with snapAt := s.now + s.chainCycles g.ranks }
      else
        let size := (s.snapRecord g).size
        if s.now < g.snapAt ∨ s.snapHeld g 0 4096 ∨ s.snapHeld g (g.snapOff size) size then s
        else
          let snap := s.snapshot g
          let links := (g.stages, s.wiresOf g.ranks)
          let u := (s.storeSnap g).modRegion g.lead fun g =>
            { g with
              snap := snap, snapLinks := links, snapId := s.nextId, snapNew := [], snapAt := 0, snapCopy := 1 - g.snapCopy,
              sv := true }
          u.endRound g)

/-! ### Voiding a round (R399, R400) -/

/-- A memory tile written back from a snapshot: masked regions with their poison and queue state, and the windows; the rest
keeps what the round left in it. DEDUCED (log 86), unsafe. -/
def MTile.rollBack (cur from_ : MTile) (mask : Nat) : MTile :=
  let m := (from_.regions.filter fun g => mask.testBit g.idx).foldl (fun (m : MTile) g => m.takeWords from_ g.base g.len) cur
  { m with
    mapped := from_.mapped, map := from_.map, wins := from_.wins, win := from_.win,
    queues := (List.range 8).foldl (fun (q : NMap QState) k =>
      match mapFind (if mask.testBit k then from_.queues else cur.queues) k with
      | some x => mapSet q k x
      | none => q) [] }

/-- A weight load in progress goes on where no plane is written back. -/
def Fabric.keepLoad (f cur : Fabric) (planes : Bool) : Fabric :=
  if planes then f else { f with mx := { f.mx with loader := cur.mx.loader } }

/-- A fabric written back from a snapshot, frozen; its generators are rewound by themselves. A scan engine in memory mode goes
on. -/
def Fabric.rollBack (cur from_ : Fabric) (im : Option Image) (now : Nat) : Fabric :=
  let mask (q : Nat) : Nat := im.elim 0 fun im => im.mask q
  let mx := if im.any Image.savesPlanes then from_.mx
    else { from_.mx with active := cur.mx.active, shadow := cur.mx.shadow, loader := none }
  { from_ with
    q0 := cur.q0.rollBack from_.q0 (mask 0), q1 := cur.q1.rollBack from_.q1 (mask 1), mx := mx,
    scan := if cur.scan.runs.isEmpty && from_.scan.runs.isEmpty then from_.scan else cur.scan,
    gens := cur.gens, frozen := true : Fabric }.counting cur now |>.keepLoad cur (im.any Image.savesPlanes)

/-- The splice records that a void takes back are outstanding again (R211, R214). -/
def State.recount (s : State) (g : Region) : State :=
  let flying := s.itemsIn g.ranks
  ((s.streamsOf g).flatMap Stream.records).foldl (fun s e => match e.2 with
    | .splice p =>
      let same (i : Item) : Bool := match i with
        | .splice q => q.rank == p.rank && q.seq == p.seq
        | _ => false
      if flying.any same then s else s.modCore p.rank fun c => { c with ocTl := c.ocTl + 1 }
    | _ => s) s

/-- The markers of an activation that began after the snapshot are injected again, where no stream sends them again. -/
def State.rejoinWave (s : State) (job : Job) : State :=
  job.tiles.foldl (fun s r => (List.range 4).foldl (fun s g =>
    let t := (s.gen r g).stream
    let s := if t.any fun t => t.records.any fun e => e.2 == .wave job.id then s else s.injectGen r g job
    if t.any fun t => !t.ended && decide (spbDir t.spb = 1 ∨ spbDir t.spb = 2) then s else s.markNode r (21 + g) job) s) s

/-- The valid snapshot of a region is written back over its tiles (R399). DEDUCED (log 84), unsafe. -/
def State.writeBack (s : State) (g : Region) : State :=
  let im := s.activeImage g.lead
  let s := (List.range (2 ^ g.lgn)).foldl (fun s i =>
    s.modFab (g.lead + i) fun f => f.rollBack (mapGet Fabric.reset g.snap i) im s.now) s
  let s := s.putWires g.ranks g.snapLinks.2
  let s := { s with spliced := s.spliced.filter fun p => !g.ranks.contains p.rank }
  let s := s.modRegion g.lead fun g => { g with stages := g.snapLinks.1 }
  (s.jobs.filter fun (j : Job) => decide (j.lead = g.lead ∧ g.snapId ≤ j.id) && (match j.kind with
    | .next _ => true
    | _ => false)).foldl State.rejoinWave s

/-- ROUND_VOID (R399): the region in focus, which a fault has frozen, drops its uncommitted stores, rewinds its generators and
writes its snapshot back, once its firings have come to an end. DEDUCED (log 87), safe. -/
def execRoundVoid (s : State) : Host.Outcome State Fault Refusal :=
  .next (match s.region? s.foc.unit with
    | none => s
    | some g => match g.voiding with
      | none => s
      | some v =>
        if v.watchdog ∨ v.told ∨ v.readyAt ≠ 0 ∨ s.now ≤ v.at_ ∨
            !(g.ranks.all fun r => (s.fab r).cells.all fun e => e.2.firing.all Firing.dead) then s
        else
          let back := s.snapsIn g && g.sv && !g.unvoid
          let s := if back then s.recount g else s
          let s := g.ranks.foldl (fun s r => (List.range 4).foldl (fun s k => s.rewindGen r k) s) s
          let s := if back then s.writeBack g else s
          s.modRegion g.lead fun g => { g with
            voids := satAdd 0xFFFF g.voids 1, snapNew := [], snapAt := 0,
            voiding := some { v with readyAt := s.now + (if back then s.chainCycles g.ranks else 0) } })

/-- VOID_TRAP_DELIVERY (R399, R400): once the voiding is complete the fault goes to the lead core as an event. -/
def execVoidTrapDelivery (s : State) : Host.Outcome State Fault Refusal :=
  .next (match s.region? s.foc.unit with
    | none => s
    | some g => match g.voiding with
      | none => s
      | some v =>
        if v.told ∨ v.readyAt = 0 ∨ s.now < v.readyAt then s
        else
          let e : Event := { cause := v.cause, tval := v.tval, tgt := s.target g.lead 3 v.cause, void := true }
          (s.modCore g.lead fun c => c.pushEvent e).modRegion g.lead fun g =>
            { g with voiding := some { v with told := true } })

/-! ### The watchdog (R405) -/

/-- A region by its lead rank that has stood still for 2^24 cycles freezes, and its lead core is told (R405). -/
def State.expireWatch (s : State) (lead : Nat) : State :=
  match s.region? lead with
  | none => s
  | some g =>
    if g.wdog < 2 ^ 24 ∨ g.frozen ∨ g.voiding.isSome then s
    else
      let v : Voiding :=
        { at_ := s.now, key := 0, cause := 12, tval := BitVec.ofNat 64 g.lead, readyAt := s.now, told := true,
          watchdog := true, lvl := none }
      let e : Event := { cause := 12, tval := v.tval, tgt := 2, void := true }
      ((s.modRegion g.lead fun g => { g with voiding := some v, frozen := true, fz := true }).setFrozen g.ranks
        true).modCore g.lead fun c => c.pushEvent e

/-- WATCHDOG_EXPIRY (R405): the region in focus has stood still for 2^24 cycles. Where its turn does not come, the clock brings it
about (`State.tick`). -/
def execWatchdogExpiry (s : State) : Host.Outcome State Fault Refusal := .next (s.expireWatch s.foc.unit)

/-! ### The return (R282, R401, R405) -/

/-- IH of a level of the core of tile `r` has been cleared (R401, R405): where that level received the trap of a void or of
the watchdog, the rerun begins in the next cycle. -/
def State.ihCleared (s : State) (r level : Nat) : State :=
  match s.region? r with
  | none => s
  | some g => match g.voiding with
    | none => s
    | some v => if !v.told ∨ v.lvl ≠ some level ∨ (s.core r).ih level then s else s.defer (.rerun r)
/-- The rerun of the round of the region that the core of tile `r` leads (R401, R405): the region thaws, or its task ends with
status 1. -/
def State.rerun (s : State) (r : Nat) : State :=
  match s.region? r with
  | none => s
  | some g => match g.voiding with
    | none => s
    | some v =>
      if !v.told then s
      else
        let abort := (s.core r).abort
        let s := s.modCore r fun c => { c with abort := false }
        if abort ∨ (!v.watchdog ∧ (!s.snapsIn g ∨ !g.sv ∨ g.unvoid)) then s.endRegion g 1
        else
          (s.modRegion g.lead fun g => { g with voiding := none, frozen := false, fz := false, wdog := 0 }).setFrozen
            g.ranks false

/-- TRET (R282). -/
def execTret (s : State) : Host.Outcome State Fault Refusal :=
  .next (s.word [] [] fun r =>
    let c := s.core r
    let l := c.level
    if l = 3 ∨ (c.trap l).stat.toNat % 4 < l then s.trapFree 1
    else .done ((s.modCore r fun c => { (c.account 0 s.now).leaveTrap with nextAt := s.now + 1 }).ihCleared r l))

end Sys2Proof.Machine
end

