-- ==== Sys2Proof/Machine/Owners.lean ====
section
/-!
DEFINITION. A change of owner: what it zeroes on a tile and in the slice banks above it (R147, R201, R259, R328, R402).
-/

namespace Sys2Proof.Machine

/-- A fabric with no configuration whose counters begin now. -/
def Fabric.fresh (now : Nat) : Fabric :=
  { Fabric.reset with
    cells := (List.range 16).map fun k => (k, { Cell.reset with acct := ⟨[], 5, now⟩ }),
    mx := { Matrix.reset with acct := ⟨[], 4, now⟩ }, scan := { Scan.reset with acct := ⟨[], 4, now⟩ },
    gens := (List.range 4).map fun k => (k, { Gen.reset with acct := ⟨[], 6, now⟩ }),
    ux0 := { Util.reset with acct := ⟨[], 3, now⟩ }, ux1 := { Util.reset with acct := ⟨[], 3, now⟩ } }

/-- A core as a change of owner leaves it: stopped, everything zero but the trap registers of operator level (R259).
DEDUCED (log 33), unsafe. -/
def Core.zeroed (c : Core) (now : Nat) : Core :=
  { Core.reset with mode := c.rest, traps := c.traps.filter fun e => decide (e.1 = 0), acct := ⟨[], 7, now⟩ }

/-- Tile `r` has left its owner: a bank whose tiles have all done so since it became window storage is zeroed (R328). -/
def State.leaveBanks (s : State) (r : Nat) : State :=
  let w : NMap (List Nat) := s.windowed.map fun e => (e.1, e.2.filter (· != r))
  { s with windowed := w.filter fun e => !e.2.isEmpty,
           banks := s.banks.filter fun e => !(w.any fun x => x.1 == e.1 && x.2.isEmpty) }

/-- Tile `r` has left its owner: once every tile of its branch has, the counters of the branch's copy engine are zeroed (R323). -/
def State.leaveEngine (s : State) (r : Nat) : State :=
  s.modEngine (r / 4) fun e =>
    let l := insertOnce e.left r
    if l.length = 4 then { e with acct := ⟨[], e.acct.cat, s.now⟩, left := [] } else { e with left := l }

/-- Tile `r` changes owner; no started region task holds it. -/
def State.changeOwner (s : State) (r : Nat) (owner : Option Nat) (granted : Bool) : State :=
  let s := s.drainCore r
  let s := { s with
    accs := s.accs.filter fun (a : Access) => match a.who with
      | .gen t _ => t != r
      | _ => true
    later := s.later.filter fun e => match e with
      | .cond t _ _ _ => t != r
      | .miss t _ => t != r
      | .deleg 2 t _ => t != r
      | _ => true }
  ((s.modTile r fun t => { t with
    core := t.core.zeroed s.now, fab := Fabric.fresh s.now, slots := [], owner := owner, granted := granted }).leaveBanks r).leaveEngine r

end Sys2Proof.Machine
end

