-- ==== Sys2Proof/Machine/Pages.lean ====
section
/-!
DEFINITION. Pages and their migration: frame pools, the PAGE group, and the events of a Garnet agent (R331, R336 to
R351, R424).
-/

namespace Sys2Proof.Machine

/-! ### The PAGE operand (R344) -/

/-- A page that a PAGE word names: its sub-partition, its sub-partition-physical page and its stage-B entry. -/
structure PageRef where
  subp : Nat
  page : Nat
  ent  : Nat
  deriving DecidableEq, Repr

/-- The page that a pointer names for the core of tile `r`, or the cause it raises (R344). -/
def State.pageRef (s : State) (r : Nat) (p : DWord) : Except Nat PageRef :=
  let c := s.core r
  match ptrFault [0] c.level 1 p with
  | some k => .error k
  | none => match s.leafA c.asid (ptrOff p / 65536) with
    | .error k => .error k
    | .ok (leaf, page) =>
      if c.level = 3 ∧ !leaf.testBit 57 then .error 3
      else
        let sp := (s.asid c.asid).subp
        match s.entryB sp page with
        | .error k => .error k
        | .ok e => .ok ⟨sp, page, e⟩

/-- The agent of a page's home copy (R336). -/
def State.agentOf (s : State) (x : PageRef) : Option Nat :=
  (s.homeOf x.subp x.ent).map Prod.fst

/-- The caches lose the entries that `x` names, whole translations, and `b`, stage-B entries of the base dies; a walk of a virtual
page that `w` names begins again, and its failure is forgotten (R339, R360, R374). -/
def State.dropXlats (s : State) (x : Xlat → Bool) (b : Nat → Nat → Bool) (w : Nat × Nat → Bool) : State :=
  let keep (l : List Xlat) : List Xlat := l.filter fun y => !x y
  let all (m : NMap (List Xlat)) : NMap (List Xlat) := m.map fun e => (e.1, keep e.2)
  { s with
    unitTlb := all s.unitTlb, brTlb := all s.brTlb, schedTlb := keep s.schedTlb,
    dieTlb := s.dieTlb.map fun e => (e.1, e.2.filter fun
      | .whole y => !x y
      | .stageB n k _ => !b n k),
    walks := s.walks.map fun (k : Walk) => if w k.key then { k with vals := [] } else k,
    wfaults := s.wfaults.filter fun (f : WalkFault) => !w f.key }

/-- Every cache loses the translations of a page (R339). -/
def State.dropPage (s : State) (sp page : Nat) : State :=
  s.dropXlats (fun x => x.subp == sp && x.page == page) (fun n k => n == sp && k == page)
    fun key => (s.asid key.1).subp == sp

/-! ### Frame pools (R331) -/

/-- The frames that a pool holds before the pushes of this cycle (R331). -/
def Partition.poolCount (x : Partition) (tier : Nat) : Nat := mapGet 0 x.fpcount tier - mapGet 0 x.fpnew tier

/-- A pool without its head entry (R331). -/
def Partition.advance (x : Partition) (tier : Nat) : Partition :=
  { x with fphead := mapMod 0 x.fphead tier fun h => (h + 1) % mapGet 0 x.fpsize tier,
           fpcount := mapMod 0 x.fpcount tier (· - 1) }

/-- The frame in the head entry of a tier's pool, or the cause that reading the ring meets. DESIGN CHOICE (log 137), unsafe. -/
def State.headFrame (s : State) (p tier : Nat) : Except Nat Nat :=
  let base := mapGet 0 (s.part p).fpbase tier
  let off := ptrOff base + 8 * mapGet 0 (s.part p).fphead tier
  let t := off / 2 ^ 46 % 4
  if !ptrFormOk base ∨ ptrSpace base ≠ 7 then .error 3
  else match s.stageC (some p) t (off % 2 ^ 46) with
    | none => .error 5
    | some a =>
      if s.lostLine t a then .error 19
      else if s.badLines.contains (t, a / 64) then .error 13 else .ok (bits (s.dramRead t a 8) 0 36)

/-! ### Starting a migration (R336, R346) -/

/-- The pages that an agent has in motion. -/
def State.inMotion (s : State) (agent : Nat) : Nat :=
  (s.motions.filter fun m => decide (m.agent = agent) && m.inval.isNone).length

/-- The agent of the present home of a request's page. -/
def State.reqAgent (s : State) (q : MigReq) : Option Nat :=
  match s.entryB q.subp q.page with
  | .ok e => (s.homeOf q.subp e).map Prod.fst
  | .error _ => none

/-- Whether a request that has come to an agent must queue (R336, R341). -/
def State.mustQueue (s : State) (q : MigReq) (agent : Nat) : Bool :=
  (s.motionOf q.subp q.page).isSome || decide (s.inMotion agent ≥ 16)

/-- A request that need not queue is evaluated (R346): the answer of PGMOVE, or the cause of an unreadable ring; `queued` is one that
has waited, which is told by notifications instead. -/
def State.tryMove (s : State) (q : MigReq) (queued : Bool) : State × Except Nat Nat :=
  let note (s : State) (frame reason : Nat) : State := s.postNote q.part (noteEntry frame q.subp q.page reason q.tier 2)
  match s.entryB q.subp q.page with
  | .error _ => (s, .ok 4)
  | .ok e =>
    if !entV e ∨ entDisc e then (s, .ok 4)
    else if entTier e = q.tier then (s, .ok 1)
    else if (s.part q.part).poolCount q.tier = 0 then (if queued then note s 0 3 else s, .ok 3)
    else
      let s' := s.modPart q.part fun x => x.advance q.tier
      match s.headFrame q.part q.tier with
      | .error c => if queued then (note s' 0 6, .ok 6) else (s, .error c)
      | .ok f => match s.frameOf q.subp q.tier f, s.frameOf q.subp (entTier e) (entFrame e) with
        | some d, some src =>
          let m : Motion :=
            { agent := s.home (entTier e) (src * 65536), subp := q.subp, page := q.page, part := q.part, core := q.core,
              task := q.task, srcTier := entTier e, src := src, srcPage := entFrame e, dstTier := q.tier, dst := d,
              dstPage := f, wb := q.wb, start := s.now, copied := 0, lastAt := s.now, carried := [], failed := false,
              inval := none }
          ({ s'.setEntryB q.subp q.page (setBits e 58 2 (2 + b2n q.wb)) with motions := s.motions ++ [m] }, .ok 0)
        | _, _ => (note s' f 6, .ok 6)

/-- A request reaches the agent of a page (R341, R346): it queues behind a migration of the page or a full agent. -/
def State.requestMove (s : State) (q : MigReq) (agent : Nat) : State × Except Nat Nat :=
  if s.mustQueue q agent then
    if (s.agent agent).queue.length ≥ 64 then (s, .ok 5)
    else (s.modAgent agent fun a => { a with queue := a.queue ++ [q] }, .ok 2)
  else s.tryMove q false

/-- A page of a migration task has been dealt with: a start that failed or an abort gives the task status 1 (R351). -/
def State.taskPage (s : State) (task : Option Nat) (failed : Bool) : State :=
  match task with
  | none => s
  | some t => { s with tasks := s.tasks.map fun k => if k.id = t ∧ failed then { k with status := 1 } else k }

/-- Whether an answer of R346 says that a page could not start (R351). -/
def moveFailed : Except Nat Nat → Bool
  | .ok c => decide (3 ≤ c)
  | .error _ => true

/-- A queued request of an agent is evaluated again (R341, R346). One whose page has another home by now passes to that agent, whose
limit of 16 it is under (R336); where that agent's queue is full, it stays. -/
def State.evalReq (s : State) (agent : Nat) (q : MigReq) : State :=
  let home := (s.reqAgent q).getD agent
  let s' := s.modAgent agent fun a => { a with queue := a.queue.erase q }
  if s.mustQueue q home then
    if home = agent ∨ (s.agent home).queue.length ≥ 64 then s
    else s'.modAgent home fun a => { a with queue := a.queue ++ [q] }
  else
    let (s', code) := s'.tryMove q true
    s'.taskPage q.task (moveFailed code)

/-- The first queued request of an agent that can be evaluated: neither its page nor the agent of its home is in the way (R341).
DEDUCED (log 99), safe. -/
def State.nextQueued (s : State) (agent : Nat) : Option MigReq :=
  (s.agent agent).queue.find? fun q => !s.mustQueue q ((s.reqAgent q).getD agent)

/-- The next queued request of an agent is evaluated. -/
def State.evalQueued (s : State) (agent : Nat) : State := (s.nextQueued agent).elim s (s.evalReq agent)

/-- The queued requests for a page are evaluated in queue order when its migration ends (R341). -/
def State.evalPage (s : State) (agent sp page : Nat) : State :=
  ((s.agent agent).queue.filter fun q => decide (q.subp = sp ∧ q.page = page)).foldl (fun s q => s.evalReq agent q) s

/-! ### The PAGE words -/

/-- Whether the partition of a core holds a right (R363); the operator holds every one.
DESIGN CHOICE (log 97), unsafe. -/
def State.partRight (s : State) (r bit : Nat) : Bool :=
  (s.core r).level == 0 || match s.owner r with
    | some p => (s.part p).rights.testBit bit
    | none => true

/-- A PAGE word on the page that ga names: where the core may run it, with the defined bits of gb below `gbBits`.
DEDUCED (log 98), unsafe. -/
def pageWord (s : State) (reads writes : List (BitVec 5)) (ga : BitVec 5) (gbv : Nat → DWord) (gbBits : Nat)
    (allowed : Nat → Bool) (f : Nat → PageRef → WordEnd) : State :=
  s.memWord reads writes fun r =>
    let p := s.reg r ga
    if !allowed r then .trap s 1 p
    else match s.pageRef r p with
      | .error c => .trap s c p
      | .ok x => if (gbv r).toNat ≥ 2 ^ gbBits then .trap s 6 (ptrSub p 14) else f r x

/-- Whether the core of tile `r` runs at partition level or above (R344). -/
def State.partLevel (s : State) (r : Nat) : Bool := decide ((s.core r).level ≤ 1)

/-- PGHINT (R345). -/
def execPghint (ga gb : BitVec 5) (s : State) : Host.Outcome State Fault Refusal :=
  .next (pageWord s [ga, gb] [] ga (fun r => s.reg r gb) 3 (fun _ => true) fun r x =>
    if !entV x.ent then .trap s 4 (s.reg r ga)
    else .retire (s.postNote (s.subp x.subp).part (noteEntry 0 x.subp x.page (s.reg r gb).toNat 0 4)) 1)

/-- PGMOVE (R346): it also needs the migrate right, and releases the core's earlier stores. -/
def execPgmove (gd ga gb : BitVec 5) (s : State) : Host.Outcome State Fault Refusal :=
  .next (pageWord s [ga, gb] [gd] ga (fun r => s.reg r gb) 3 (fun r => s.partLevel r && s.partRight r 4) fun r x =>
    let p := s.reg r ga
    let v := (s.reg r gb).toNat
    if !entV x.ent then .trap s 4 p
    else if !(s.releases r).isEmpty then .wait s 5
    else if entDisc x.ent then .retire (s.setReg r gd 4) 1
    else match s.agentOf x with
      | none => .trap s 5 p
      | some a =>
        match s.requestMove ⟨x.subp, x.page, (s.subp x.subp).part, v % 4, v.testBit 2, some r, none, false⟩ a with
        | (s', .ok code) => .retire (s'.setReg r gd (BitVec.ofNat 64 code)) 1
        | (s', .error c) => .trap s' c p)

/-- PGQRY (R347): it reports V = 0 without a fault. -/
def execPgqry (gd ga : BitVec 5) (s : State) : Host.Outcome State Fault Refusal :=
  .next (pageWord s [ga] [gd] ga (fun _ => 0) 1 (fun _ => true) fun r x =>
    let high := if (s.core r).level ≥ 2 then setBits (x.ent / 65536 * 65536) 16 36 0 else x.ent / 65536 * 65536
    let low := match entIM x.ent, s.motionOf x.subp x.page with
      | true, some m => m.dstTier * 2 ^ 14 + m.copied * 2 ^ 7
      | _, _ => match s.agentOf x with
        | some a => (((s.agent a).hotIndex x.subp x.page).bind fun i => mapFind (s.agent a).hot i).elim 0 HotEntry.count
        | none => 0
    .retire (s.setReg r gd (BitVec.ofNat 64 (high + low))) 1)

/-- A migration ends before its switch (R340): IM and WB are cleared, the destination frame is zeroed where it can be
reached, and kind 2 and kind 3 are posted. The caller has the queued requests for the page evaluated again. -/
def State.abortMove (s : State) (m : Motion) (reason : Nat) : State :=
  let s := match s.entryB m.subp m.page with
    | .ok e => s.setEntryB m.subp m.page (setBits e 58 2 0)
    | .error _ => s
  let s := { s with motions := s.motions.erase m }
  let s := if s.lostLine m.dstTier (m.dst * 65536) then s else s.zeroFrame m.dstTier m.dst
  let s := s.postNote m.part (noteEntry 0 m.subp m.page reason m.dstTier 2)
  let s := s.postNote m.part (noteEntry m.dstPage m.subp m.page 0 m.dstTier 3)
  s.taskPage m.task true

/-- tval of cause 14 (R343). -/
def abortVal (m : Motion) (reason : Nat) : DWord := BitVec.ofNat 64 (m.subp * 2 ^ 52 + m.page * 2 ^ 16 + reason)

/-- A migration aborts and raises cause 14, at the core that issued the PGMOVE or at the steward (R340, R343). -/
def State.breakMove (s : State) (m : Motion) (reason : Nat) : State :=
  let s := (s.abortMove m reason).evalPage m.agent m.subp m.page
  let r := m.core.getD (s.part m.part).steward
  s.raiseAt r 14 (abortVal m reason) (Nat.min (s.core r).level 1)

/-- Accesses to a page that has been reclaimed, translated before that, meet cause 4 (R342). -/
def State.reclaimed (s : State) (sp page : Nat) : State :=
  { s with accs := s.accs.map fun (a : Access) =>
      if !a.done && a.xl.any (fun x => x.subp == sp && x.page == page) then { a with fault := 4 } else a }

/-- PGDISC (R348): a migration is cancelled with reason 2, the page becomes discarded, with R = 1 the frame is reclaimed, and requests
that were queued behind the migration find the page so (R341). -/
def execPgdisc (ga gb : BitVec 5) (s : State) : Host.Outcome State Fault Refusal :=
  .next (pageWord s [ga, gb] [] ga (fun r => s.reg r gb) 2 s.partLevel fun r x =>
    let v := (s.reg r gb).toNat
    if !entV x.ent then .trap s 4 (s.reg r ga)
    else
      let m := s.motionOf x.subp x.page
      let eval (s : State) : State := m.elim s fun m => s.evalPage m.agent m.subp m.page
      let s := m.elim s fun m => s.abortMove m 2
      match s.entryB x.subp x.page with
      | .error _ => .retire (eval s) 1
      | .ok e =>
        let e' := setBits e 57 2 (1 + 2 * (v % 2))
        if v.testBit 1 then
          let s := (s.frameOf x.subp (entTier e) (entFrame e)).elim s fun f => s.zeroFrame (entTier e) f
          let s := ((s.setEntryB x.subp x.page (setBits e' 63 1 0)).dropPage x.subp x.page).reclaimed x.subp x.page
          .retire (eval (s.postNote (s.subp x.subp).part (noteEntry (entFrame e) x.subp x.page 0 (entTier e) 3))) 1
        else .retire (eval (s.setEntryB x.subp x.page e')) 1)

/-- PGNOTE (R349). -/
def execPgnote (gd : BitVec 5) (s : State) : Host.Outcome State Fault Refusal :=
  .next (s.memWord [] [gd] fun r =>
    if (s.core r).level > 1 then s.trapFree 1
    else match s.owner r with
      | none => .retire (s.setReg r gd 0) 1
      | some p =>
        let x := s.part p
        if x.nqcount = 0 then .retire ((s.modPart p fun x => { x with nqheld := false }).setReg r gd 0) 1
        else
          .retire ((s.modPart p fun x =>
            { x with nqheld := true, nqhead := (x.nqhead + 1) % x.nqsize, nqcount := x.nqcount - 1 }).setReg r gd
              (x.nqbase + BitVec.ofNat 64 (16 * x.nqhead))) 1)

/-- PGTHR (R350). DEDUCED (log 124), unsafe. -/
def execPgthr (ga gb : BitVec 5) (s : State) : Host.Outcome State Fault Refusal :=
  .next (pageWord s [ga, gb] [] ga (fun r => s.reg r gb) 16 s.partLevel fun r x =>
    let thr := (s.reg r gb).toNat
    let s := s.setEntryB x.subp x.page (setBits x.ent 55 1 (b2n (thr ≠ 0)))
    .retire (match s.agentOf x with
      | none => s
      | some a => s.modAgent a fun g =>
        if thr = 0 then g.hotFree x.subp x.page
        else
          let g := g.hotAlloc x.subp x.page thr
          match g.hotIndex x.subp x.page with
          | some i => { g with hot := g.hot.map fun e => if e.1 = i then (i, { e.2 with thr := thr }) else e }
          | none => g) 1)

/-! ### The events of an agent -/

/-- The next page of a migration task (R351): the scheduler asks for it, once its caches or a walk give the page (R359). -/
def State.taskMove (s : State) (t : Task) : State :=
  let p := ptrAdd (BitVec.ofNat 64 (nth 0 t.block 0)) (65536 * (nth 0 t.block 2 - t.left))
  let v := nth 0 t.block 1
  let asked (s : State) (failed : Bool) : State :=
    ({ s with tasks := s.tasks.map fun (k : Task) => if k.id = t.id then { k with left := k.left - 1 } else k }).taskPage
      (some t.id) failed
  if !ptrFormOk p ∨ ptrSpace p ≠ 0 then asked s true
  else match s.translate (.sched t.id) (s.queue (bits t.id 0 12)).asid (ptrOff p / 65536) ⟨false, false, false⟩ with
    | (s, .miss) => s
    | (s, .fault _) => asked s true
    | (s, .at_ x) =>
      let q : MigReq := ⟨x.subp, x.page, (s.queue (bits t.id 0 12)).part, v % 4, v.testBit 2, none, some t.id, false⟩
      match s.reqAgent q with
      | none => asked s true
      | some a =>
        let (s, code) := s.requestMove q a
        asked s (moveFailed code)

/-- MIGRATION_START (R336, R341, R351): the agent in focus takes its next queued request, or, where `sub` names a
migration task by its identifier and 1 more, the scheduler issues that task's next page. -/
def execMigrationStart (s : State) : Host.Outcome State Fault Refusal :=
  .next (
    if s.foc.sub = 0 then s.evalQueued s.foc.unit
    else match s.tasks.find? fun t => decide (t.id + 1 = s.foc.sub ∧ t.phase = .running ∧ t.left > 0) &&
        decide (bits (nth 0 t.rec_ 0) 8 4 = 3) with
      | some t => s.taskMove t
      | none => s)

/-- CHUNK_COPY (R337): the next chunk of the page in focus (sub-partition, page) is copied, no earlier than its cycle, poisoned lines
as poisoned. -/
def execChunkCopy (s : State) : Host.Outcome State Fault Refusal :=
  .next (match s.motionOf s.foc.unit s.foc.sub with
    | none => s
    | some m =>
      if m.copied ≥ 64 ∨ s.now < m.nextAt ∨ s.lostLine m.dstTier (m.dst * 65536) ∨ s.lostLine m.srcTier (m.src * 65536) then s
      else
        let a := m.src * 65536 + 1024 * m.copied
        let b := m.dst * 65536 + 1024 * m.copied
        let bad := ((linesOf a 1024).filter fun l => s.badLines.contains (m.srcTier, l)).map fun l => l - a / 64 + b / 64
        let s := s.locWrite (.dram m.dstTier b) 1024 (s.dramRead m.srcTier a 1024)
        { s with
          badLines := s.badLines ++ bad.map fun l => (m.dstTier, l),
          motions := s.motions.map fun (k : Motion) =>
            if k = m then { k with copied := k.copied + 1, lastAt := s.now, carried := k.carried ++ bad } else k })

/-- The hotness entry of a page follows it to the agent of its new home with count 0 (R333). -/
def State.hotMove (s : State) (m : Motion) : State :=
  let new := s.home m.dstTier (m.dst * 65536)
  match ((s.agent m.agent).hotIndex m.subp m.page).bind fun i => mapFind (s.agent m.agent).hot i with
  | none => s
  | some e => (s.modAgent m.agent fun a => a.hotFree m.subp m.page).modAgent new fun a => a.hotAlloc m.subp m.page e.thr

/-- Tasks that wait on a counter in the page wait on it at its new home (R289). -/
def Motion.moveJoin (m : Motion) (l : Loc) : Loc :=
  match l with
  | .dram t x => if t = m.srcTier ∧ x / 65536 = m.src then .dram m.dstTier (m.dst * 65536 + x % 65536) else l
  | _ => l

/-- MIGRATION_SWITCH (R339): in the cycle after the last chunk has been copied or a later one, with the destination sound (R340), the
stage-B entry takes the destination and the invalidation begins. -/
def execMigrationSwitch (s : State) : Host.Outcome State Fault Refusal :=
  .next (match s.motionOf s.foc.unit s.foc.sub with
    | none => s
    | some m =>
      if m.copied < 64 ∨ s.now ≤ m.lastAt ∨ m.failed ∨ s.lostLine m.dstTier (m.dst * 65536) then s
      else
        let s := match s.entryB m.subp m.page with
          | .ok e => s.setEntryB m.subp m.page (setBits (setBits (setBits e 60 3 m.dstTier) 16 36 m.dstPage) 58 2 0)
          | .error _ => s
        let s := s.hotMove m
        let s := { s with
          motions := s.motions.map fun k => if k = m then { k with inval := some s.now } else k,
          tasks := s.tasks.map fun (t : Task) => { t with joinLoc := t.joinLoc.map m.moveJoin } }
        s.evalPage m.agent m.subp m.page)

/-- INVALIDATION_COMPLETE (R339): the caches hold the page's old translation no longer, the old frame is zeroed, and
kinds 1 and 3 are posted. Accesses still on their way to the old home come first. -/
def execInvalidationComplete (s : State) : Host.Outcome State Fault Refusal :=
  .next (match s.motions.find? fun m => decide (m.subp = s.foc.unit ∧ m.page = s.foc.sub) && m.inval.isSome with
    | none => s
    | some m =>
      let waiting := s.accs.any fun a => !a.done && (match a.loc with
        | .dram t x => decide (t = m.srcTier ∧ x / 65536 = m.src)
        | _ => false)
      if waiting then s
      else
        let s := { (s.dropPage m.subp m.page) with motions := s.motions.erase m }
        let s := s.zeroFrame m.srcTier m.src
        let s := s.postNote m.part (noteEntry m.dstPage m.subp m.page 0 m.dstTier 1)
        s.postNote m.part (noteEntry m.srcPage m.subp m.page 0 m.srcTier 3))

/-- MIGRATION_ABORT (R340, R343): before the switch the destination of the page in focus returns an uncorrectable error
(`arg` 0) or its link is lost (`arg` 1); cause 14 goes to the core that issued the PGMOVE, or to the steward.
DESIGN CHOICE (log 100), safe. -/
def execMigrationAbort (s : State) : Host.Outcome State Fault Refusal :=
  .next (match s.motionOf s.foc.unit s.foc.sub with
    | none => s
    | some m =>
      let reason := s.foc.arg
      if reason = 0 ∨ (reason = 1 ∧ s.lostLine m.dstTier (m.dst * 65536)) then s.breakMove m reason else s)

/-- Migrations whose destination has been found poisoned, or whose link is lost, abort (R340). -/
def State.breakMoves (s : State) : State :=
  (s.motions.filter fun m => m.inval.isNone).foldl (fun s m =>
    if !s.motions.contains m then s
    else if m.failed then s.breakMove m 0
    else if s.lostLine m.dstTier (m.dst * 65536) then s.breakMove m 1 else s) s

/-- The category of an agent in this cycle (R352). A copy waits on its source until the cycles of its next chunk, and from their end
on its destination. DESIGN CHOICE (log 138), unsafe. -/
def State.agentCat (s : State) (agent : Nat) : Nat :=
  let mine := s.motions.filter fun m => decide (m.agent = agent)
  let moving := mine.filter fun m => m.inval.isNone
  if moving.any fun m => (m.locked s.now && decide (s.now ≤ m.nextAt)) || decide (0 < m.copied ∧ m.lastAt = s.now) then 0
  else if moving.any fun m => decide (m.copied = 64 ∨ m.nextAt < s.now) then 1
  else if !moving.isEmpty then 2
  else if !mine.isEmpty then 3
  else if (s.agent agent).zeroAt = s.now + 1 then 4 else 5

/-- GARNET_DOORBELL (R341, R424): a host request of the function of the partition in focus, passed to the agent of the
page's home copy, which hears it after the device requests of the cycle; a request that names no valid page is reported with
reason 5. -/
def execGarnetDoorbell (v : DWord) (s : State) : Host.Outcome State Fault Refusal :=
  let p := s.foc.unit
  let sp := bits v.toNat 48 12
  let page := bits v.toNat 16 32
  let drop := s.postNote p (noteEntry 0 sp page 5 (v.toNat % 4) 2)
  .next (
    if !(s.part p).live then s
    else if !(s.subp sp).live ∨ (s.subp sp).part ≠ p then drop
    else match s.entryB sp page with
      | .error _ => drop
      | .ok e =>
        if !entryOk s sp e then drop
        else match s.agentOf ⟨sp, page, e⟩ with
          | none => drop
          | some a => s.defer (.request ⟨sp, page, p, v.toNat % 4, v.toNat.testBit 2, none, none, true⟩ a))

/-- A host request that an agent hears at the end of the cycle (R341). -/
def State.hearRequest (s : State) (q : MigReq) (agent : Nat) : State := (s.requestMove q ((s.reqAgent q).getD agent)).1

end Sys2Proof.Machine
end

