-- ==== Sys2Proof/Machine/Schedule.lean ====
section
/-!
DEFINITION. The scheduler: the pool and the choice of a task, placement, starts and entries, time slices, pre-emption and
restoring (R207, R285, R290 to R294, R297, R351, R371, R406 to R408, R426).
-/

namespace Sys2Proof.Machine

/-! ### Reading for a task (R285, R294) -/

/-- Bytes that the scheduler reads for a task, or the cause and pointer of the failure (R289): through its caches (R359), which
`State.schedWarm` has filled. DEDUCED (log 40), unsafe. -/
def State.schedRead (s : State) (t : Task) (p : DWord) (n : Nat) : State × Except (Nat × DWord) (List Byte) :=
  if !ptrFormOk p then (s, .error (3, p))
  else s.readSpans (fun s q => if ptrFormOk q then s.schedPlace t q true false else (s, .error 3)) (some (s.taskPart t))
    (s.isTolerant (some t.id)) p n

/-- Whether the scheduler's caches reach every page of `n` bytes at a pointer, or its walks have failed; else a walk begins (R359).
The fuel bounds the pages. -/
def State.schedWarm (s : State) (t : Task) (p : DWord) (n : Nat) : Nat → State × Bool
  | 0 => (s, true)
  | k + 1 =>
    if n = 0 ∨ !ptrFormOk p ∨ ptrSpace p ≠ 0 then (s, true)
    else
      let m := Nat.min n (65536 - ptrOff p % 65536)
      let key := (s.taskAsid t, ptrOff p / 65536)
      if s.wfaults.any fun f => decide (f.who = .sched t.id ∧ f.key = key) then s.schedWarm t (ptrAdd p m) (n - m) k
      else match s.translate (.sched t.id) key.1 key.2 ⟨true, false, false⟩ with
        | (s, .miss) => (s, false)
        | (s, _) => s.schedWarm t (ptrAdd p m) (n - m) k

/-- The image of a region task, checked for a block led by `lead`, or the cause and tval that the steward gets (R202, R294). -/
def State.schedImage (s : State) (t : Task) (lead : Nat) : State × Except (Nat × DWord) Image :=
  let p := recImage t.rec_
  let fail (e : Nat × DWord) : Nat × DWord := (e.1, p)
  match s.schedRead t p 256 with
  | (s, .error e) => (s, .error (fail e))
  | (s, .ok head) =>
    if (Image.headFault head (recLgn t.rec_)).isSome then (s, .error (16, p))
    else match s.schedRead t p (Image.size head) with
      | (s, .error e) => (s, .error (fail e))
      | (s, .ok im) => if (Image.failing im (recLgn t.rec_) lead).isSome then (s, .error (16, p)) else (s, .ok im)

/-! ### Placement (R294, R408) -/

/-- Whether a tile is free for a task: its partition's, not the steward's, held by no region task, no part of the old
block of a pre-empted task that has not been restored (R408), and not waiting to pass to the next entry of a time slice. -/
def State.tileFree (s : State) (t : Task) (r : Nat) : Bool :=
  let p := s.taskPart t
  (s.tile r).owner == some p && r != (s.part p).steward && (s.regionOf r).isNone &&
    !(s.saves.any fun e => e.1 != t.id && e.2.region.ranks.contains r && s.tasks.any fun k => k.id == e.1 && s.taskPart k == p) &&
    !(s.slices.any fun x => x.waiting && decide (x.base ≤ r ∧ r < x.base + 2 ^ x.lgn))

/-- The lead ranks of the aligned blocks among which a task may be placed. DEDUCED (log 47), unsafe. -/
def placements (l : List Nat) : List Nat :=
  let n := 2 ^ recLgn l
  let all := (List.range (512 / n)).map (· * n)
  if recGidx l = 511 then all else all.filter fun b => decide (b / groupSize (recLvl l) = recGidx l)

/-- The lowest block of free tiles, where the circuits of the task's image find lanes. -/
def State.place (s : State) (t : Task) : Option Nat :=
  (placements t.rec_).find? fun b => (blockRanks b (recLgn t.rec_)).all (s.tileFree t) &&
    (match (s.schedImage t b).2 with
     | .error _ => true
     | .ok im => match s.reserve b 0 im with
       | .ok _ => true
       | .error _ => false)

/-! ### Tasks of the other kinds (R285, R351, R426) -/

/-- What a scan task asks for: the operator word, the tile, the space-1 pointer and the count. -/
structure ScanTask where
  opw   : Nat
  tile  : Nat
  ptr   : DWord
  count : Nat

/-- The scan task that a command block holds. -/
def ScanTask.ofBytes (l : List Byte) : ScanTask :=
  { opw := blockWord l 0, tile := bits (blockWord l 1) 0 9, ptr := BitVec.ofNat 64 (blockWord l 2), count := blockWord l 3 }

/-- Why the values of a scan task are refused: nothing, or a cause with its subcode, where it has one; a tile of another owner gives
none (R285). DEDUCED (log 42), unsafe. -/
def State.scanRefused (s : State) (t : Task) (x : ScanTask) : Option (Option (Nat × Option Nat)) :=
  let r := x.tile
  let s' := s.restartScan r (some (BitVec.ofNat 64 x.opw))
  if (s.tile r).owner ≠ some (s.taskPart t) then some none
  else if (s.fab r).compacts then some (some (18, some 0))
  else if scopIllegal x.opw false ∨ x.opw.testBit 11 then some (some (18, some 5))
  else match ptrFault [1] 3 4 x.ptr with
    | some c => some (some (c, none))
    | none => (s'.scgoFault r x.ptr x.count).map fun e => some (e.1, some e.2)

/-- Whether a task of a kind other than 0 has room in its engine's queue (R285, R291): a block that cannot be used is found out at
the start. -/
def State.hasRoom (s : State) (t : Task) : Bool :=
  match recKind t.rec_ with
  | 1 => match (s.schedRead t (recImage t.rec_) 64).2 with
    | .error _ => true
    | .ok l =>
      let c := Config.copyTaskCommand l
      decide (((s.cqueue (c.1 % 128) (c.2.1 % 16)).cmds.filter fun k => k.done.isNone).length < 32)
  | 2 => match (s.schedRead t (recImage t.rec_) 32).2 with
    | .error _ => true
    | .ok l => !(s.scan (ScanTask.ofBytes l).tile).busy
  | _ => true

/-! ### The pool and the choice (R290 to R293) -/

/-- Whether a task is in flight. -/
def Task.inFlight (t : Task) : Bool := t.phase != .accepted
/-- The effective priority (R290). -/
def Task.priority (t : Task) (now : Nat) : Nat := Nat.min 7 (recPrio t.rec_ + (now - t.accepted) / 65536)
/-- The first and the last line of an operand declaration's range. -/
def declLines (d : Nat) : Nat × Nat := (bits d 6 42, bits d 6 42 + bits d 48 13 * 2 ^ bits d 0 4 - 1)
/-- Whether two declarations conflict (R293), their tasks being of one partition and one ASID. -/
def declConflict (a b : Nat) : Bool :=
  let x := declLines a
  let y := declLines b
  decide (x.1 ≤ y.2 ∧ y.1 ≤ x.2) && decide (bits a 62 2 ≥ 2 ∨ bits b 62 2 ≥ 2)

/-- Whether a declaration of a task conflicts with one of a task in flight (R293). -/
def State.hazard (s : State) (t : Task) : Bool :=
  s.tasks.any fun (k : Task) => k.inFlight && k.id != t.id && s.taskPart k == s.taskPart t && s.taskAsid k == s.taskAsid t &&
    (recDecls t.rec_).any fun a => (recDecls k.rec_).any (declConflict a)

/-- Whether an accepted task meets the conditions of R291 that its own and other tasks set, in a cycle in which it can be in the pool
(R289, R292). -/
def State.eligible (s : State) (t : Task) : Bool :=
  let earlier := s.tasks.filter fun (k : Task) => decide (k.queue = t.queue ∧ k.order < t.order)
  t.phase == .accepted && decide (t.accepted + 224 ≤ s.now) && t.joinRead && t.join.any (fun c => decide (c ≤ s.now)) &&
    s.performed t.before && earlier.all (fun k => k.inFlight && !recBarrier t.rec_) && !s.hazard t &&
    decide (s.hazards.length + (recDecls t.rec_).length ≤ 1024)

/-- Whether a task has a place, or room at its engine (R291, condition 5). -/
def State.canPlace (s : State) (t : Task) : Bool := if recKind t.rec_ = 0 then (s.place t).isSome else s.hasRoom t

/-- The scheduler's caches get the translations with which it judges a task; it cannot yet where one is missing (R359). -/
def State.taskWarm (s : State) (t : Task) : State × Bool :=
  let p := recImage t.rec_
  if recKind t.rec_ = 0 then
    match s.schedWarm t p 256 2 with
    | (s, false) => (s, false)
    | (s, true) => match (s.schedRead t p 256).2 with
      | .error _ => (s, true)
      | .ok head =>
        if (Image.headFault head (recLgn t.rec_)).isSome then (s, true)
        else s.schedWarm t p (Image.size head) (Image.size head / 65536 + 2)
  else s.schedWarm t p (if recKind t.rec_ = 2 ∨ recKind t.rec_ = 3 then 32 else 64) 2

/-- The pool of the cycle that begins (R291): what ends or starts in a cycle counts from the next one on (R292). -/
def State.fillPool (s : State) : State :=
  (s.tasks.filter s.eligible).foldl (fun s t => match s.taskWarm t with
    | (s, true) => if s.canPlace t then { s with pool := s.pool ++ [t.id] } else s
    | (s, false) => s) { s with pool := [] }

/-- Whether a task comes before another within a partition (R292). -/
def Task.precedes (a b : Task) : Bool :=
  decide (a.accepted < b.accepted ∨ (a.accepted = b.accepted ∧ a.queue < b.queue) ∨
    (a.accepted = b.accepted ∧ a.queue = b.queue ∧ a.order < b.order))

/-- The scheduling weight of a partition (R364). -/
def State.weight (s : State) (p : Nat) : Nat := mapGet 1 (s.part p).quotas 5

/-- The task that the scheduler chooses, with the round-robin pointer and credit after the choice (R292). -/
def State.choose (s : State) : Option (Task × Nat × Nat) :=
  let pool := s.tasks.filter fun (t : Task) => s.pool.contains t.id && t.phase == .accepted
  let top := pool.foldl (fun m (t : Task) => Nat.max m (t.priority s.now)) 0
  let kept := pool.filter fun (t : Task) => t.priority s.now == top
  match ((List.range 64).map fun i => (s.schedPtr + i) % 64).find? fun p => kept.any fun (t : Task) => s.taskPart t == p with
  | none => none
  | some p =>
    let credit := if p ≠ s.schedPtr then s.weight p else if s.schedCr = 0 then s.weight p else s.schedCr
    let mine := kept.filter fun (t : Task) => s.taskPart t == p
    match mine with
    | [] => none
    | t :: ts =>
      let best := ts.foldl (fun (a b : Task) => if b.precedes a then b else a) t
      some (best, if credit ≤ 1 then (p + 1) % 64 else p, credit - 1)

/-! ### Starting a task (R285, R294) -/

/-- The slot that a block takes for an image: one that holds it on every tile, else the lowest that is empty on every tile, else
the one activated least recently (R294); with whether it is held already. DEDUCED (log 41), unsafe. -/
def State.slotFor (s : State) (ranks : List Nat) (ident : Nat) : Nat × Bool :=
  match (List.range 4).find? fun k => s.slotHolds ranks k ident with
  | some k => (k, true)
  | none => match (List.range 4).find? fun k => ranks.all fun r => (s.slot r k).ident == 0 with
    | some k => (k, false)
    | none =>
      let used (k : Nat) : Nat := (ranks.map fun r => (s.slot r k).used).foldl Nat.max 0
      ((List.range 4).foldl (fun b k => if used k < used b then k else b) 0, false)

/-- A region as its task starts. -/
def newRegion (t : Task) (lead : Nat) : Region where
  task := t.id
  lead := lead
  lgn := recLgn t.rec_
  round := 0
  frozen := false
  fz := false
  sv := false
  voids := 0
  flost := 0
  wdog := 0
  moved := false
  unvoid := false
  snap := []
  snapLinks := ([], [])
  snapId := 0
  snapNew := []
  snapAt := 0
  snapCopy := 1
  voiding := none
  stages := []

/-- A region task starts on a block (R294): its lanes are taken, its slot is loaded where it does not hold the image, and the
activation follows, so that the first operation word issues no earlier than 420 cycles after the task was accepted (R297). -/
def State.startRegion (s : State) (t : Task) (lead : Nat) : State :=
  match s.schedImage t lead with
  | (s, .error e) => s.taskFails t (some e)
  | (s, .ok im) =>
    let ranks := blockRanks lead (recLgn t.rec_)
    let (slot, held) := s.slotFor ranks im.ident
    let a := s.taskAsid t
    let s := match s.reserve lead slot im with
      | .ok ls => { s with lanes := ls }
      | .error _ => s
    let s := { s with regions := mapSet s.regions lead (newRegion t lead) }
    let s := s.modTask t.id fun t => { t with phase := .started, lead := lead, startAt := s.now, core := slot }
    let s := s.modCore lead fun c => { c with asid := a, subp := (s.asid a).subp, task := some t.id }
    let job : Job :=
      { id := s.nextId, kind := .load slot true, core := none, lead := lead, tiles := ranks, image := if held then [] else im,
        ident := im.ident, accs := [], join := [], ready := s.now + (if held then 163 else 195) }
    let s := { s.bumpId with jobs := s.jobs ++ [job] }
    if held then s else ranks.foldl (fun s r => s.modSlot r slot fun k => { k with ident := 0, image := [] }) s

/-- A scan task starts: SCOP, SCGO and SCBAR with its values (R285). -/
def State.startScan (s : State) (t : Task) (l : List Byte) : State :=
  let x := ScanTask.ofBytes l
  match s.scanRefused t x with
  | some none => s.taskFails t none
  | some (some (c, sub)) => s.taskFails t (some (c, sub.elim (recImage t.rec_) (ptrSub (recImage t.rec_))))
  | none =>
    let s := (s.restartScan x.tile (some (BitVec.ofNat 64 x.opw))).queueRun x.tile x.ptr x.count (some t.id)
    let s := s.modScan x.tile fun g => (({ g with closes := g.closes ++ [x.count] } : Scan).closeAll s.now).settle s.now
    s.modTask t.id fun t => { t with phase := .running, core := x.tile }

/-- A task starts: its hazard entries are taken, and its engine gets its command (R291, R293). Where its place has gone in this cycle,
it does not. -/
def State.startTask (s : State) (t : Task) : State :=
  let begun := ({ s with hazards := s.hazards ++ (recDecls t.rec_).map fun d => (t.id, d), startedAt := s.now + 1 }).modTask t.id
    fun t => { t with startAt := s.now }
  if recKind t.rec_ = 0 then
    match s.place t with
    | some b => begun.startRegion t b
    | none => s
  else if !s.hasRoom t then s
  else
    let s := begun
    let n := if recKind t.rec_ = 2 ∨ recKind t.rec_ = 3 then 32 else 64
    match s.schedRead t (recImage t.rec_) n with
    | (s, .error e) => s.taskFails t (some (e.1, recImage t.rec_))
    | (s, .ok l) =>
      let block := (List.range (n / 8)).map (blockWord l)
      match recKind t.rec_ with
      | 1 =>
        let c := Config.copyTaskCommand l
        let e := c.1 % 128
        let (s, _) := s.acceptCopy e (c.2.1 % 16) (4 * e) true (some t.id) c.2.2 (s.taskAsid t) (some (s.taskPart t)) 3 none none []
        s.modTask t.id fun t => { t with phase := .running }
      | 2 => s.startScan t l
      | 3 =>
        let n := nth 0 block 2
        if n = 0 ∨ 65536 < n ∨ nth 0 block 3 ≠ 0 then s.taskFails t none
        else s.modTask t.id fun t => { t with phase := .running, block := block, left := n }
      | _ => s.modTask t.id fun t => { t with phase := .running, block := block }

/-! ### Moving a region to another block (R408) -/

/-- The stages of a chain by the block that they move to. -/
def relocateStages (m : NMap (Nat × Nat)) (old new : Nat) : NMap (Nat × Nat) := m.map fun e => (e.1, new + (e.2.1 - old), e.2.2)
/-- A region by the block that it moves to. -/
def Region.relocate (g : Region) (new : Nat) : Region :=
  { g with
    lead := new, stages := relocateStages g.stages g.lead new,
    snap := g.snap.map fun e => (e.1, e.2.relocate (new + e.1) g.lead new),
    snapLinks := (relocateStages g.snapLinks.1 g.lead new, relocateWires g.snapLinks.2 g.lead new) }

/-! ### Pre-emption (R371, R406, R407) -/

/-- The time slice that waits for a region to leave its block. -/
def State.sliceOver (s : State) (g : Region) : Bool :=
  s.slices.any fun x => x.waiting && g.ranks.any fun r => decide (x.base ≤ r ∧ r < x.base + 2 ^ x.lgn)

/-- The owner that an entry of a schedule names: a partition, or the operator where its partition has been destroyed. -/
def entryOwner (e : Nat) : Option Nat := if e < 64 then some e else none
/-- A block passes to the entry whose quantum it is, once no region task is on it; where slicing has ended it becomes unowned
(R371). -/
def State.passBlock (s : State) (base : Nat) : State :=
  match s.slices.find? fun x => decide (x.base = base) with
  | none => s
  | some x =>
    let ranks := blockRanks x.base x.lgn
    if !x.waiting ∨ ranks.any fun r => (s.regionOf r).isSome then s
    else
      let next := x.entries[x.index]?
      let owner := next.bind entryOwner
      let s := ranks.foldl (fun s r => if (s.tile r).owner = owner then s else s.changeOwner r owner false) s
      if next.isNone then { s with slices := s.slices.filter fun y => decide (y.base ≠ base) }
      else { s with slices := s.slices.map fun y => if y.base = base then { y with waiting := false } else y }

/-- QUANTUM_END (R371): the quantum of the slice in focus, by its base rank, is over: the next entry's begins, or the schedule
that waits for this boundary; the block passes as soon as its region tasks have left it.
DEDUCED (log 46), unsafe. -/
def execQuantumEnd (s : State) : Host.Outcome State Fault Refusal :=
  let base := s.foc.unit
  .next (match s.slices.find? fun x => decide (x.base = base) with
    | none => s
    | some x =>
      if x.entries.isEmpty ∨ s.now < x.endAt then s.passBlock base
      else
        let y : Slice := match x.next with
          | some (0, _) => { x with entries := [], index := 0, waiting := true, next := none }
          | some (q, es) => { x with quantum := q, entries := es, index := 0, endAt := x.endAt + q, waiting := true, next := none }
          | none => { x with index := (x.index + 1) % x.entries.length, endAt := x.endAt + x.quantum, waiting := true }
        ({ s with slices := s.slices.map fun (z : Slice) => if z.base = base then y else z }).passBlock base)

/-- The running streams of a tile. -/
def State.runningStreams (s : State) (r : Nat) : Nat :=
  ((List.range 4).filter fun g => (s.gen r g).stream.any fun t => !t.ended).length
/-- Whether a core can be pre-empted (R406): it runs at task level outside a handler, with nothing outstanding but running
streams. -/
def State.canLeave (s : State) (r : Nat) : Bool :=
  let c := s.core r
  c.mode == .running && c.level == 3 && !c.ih 3 && c.ocLd == 0 && c.ocSt == 0 && c.ocCp == 0 && c.ocTl == s.runningStreams r

/-- The cores of a region's task that are awake, the lead first. -/
def State.taskCores (s : State) (g : Region) : List Nat := g.lead :: s.awake g

/-- The cycles in which the record of a region moves, with `n` core records of 264 KiB. -/
def State.recordCycles (s : State) (g : Region) (n : Nat) : Nat := s.chainCycles g.ranks + n * 4224

/-- The activation in progress on a region, by its slot and image (R207). -/
def State.pendingNext (s : State) (lead : Nat) : Option (Nat × List Byte) :=
  s.jobs.findSome? fun j => if j.lead = lead then match j.kind with
    | .next k => some (k, j.image)
    | _ => none else none

/-- A fabric as pre-emption reads it out: one on which nodes have switched to a new image is made unconfigured (R207). -/
def State.leavingFab (s : State) (r : Nat) (next : Option (Nat × List Byte)) : Fabric :=
  let f := (s.fab r).saved s.now
  let switched := next.any fun n => f.active == some n.1 || (List.range 21).any fun k => mapGet 0 f.nodes k != 0
  if switched then { f.unconfigure s.now with gens := f.gens } else { f with nodes := [] }

/-- The record of a region that leaves its block, and its bytes in memory (R406, R407). -/
def State.leavingRecord (s : State) (g : Region) (cores : List Nat) : SavedRegion × List Byte :=
  let next := s.pendingNext g.lead
  let k := s.capture s.nextId g.lead g.ranks fun r => s.leavingFab r next
  let size := s.saveBytes g.ranks + 270336 * cores.length
  let rec_ : SavedRegion :=
    { region := g, saved := k, size := size,
      cores := (List.range (2 ^ g.lgn)).filterMap fun i =>
        if cores.contains (g.lead + i) then some (i, s.core (g.lead + i)) else none,
      next := next }
  (rec_, savedBytes k size)

/-- PREEMPTION (R406, R407): the region task in focus, by its lead rank, leaves a block whose quantum is over: its cores stop and
it freezes once the conditions hold, its record is written once every unit is frozen, and its tiles become free once the
record is complete. -/
def execPreemption (s : State) : Host.Outcome State Fault Refusal :=
  .next (match s.region? s.foc.unit with
    | none => s
    | some g => match s.taskOf g.task with
      | none => s
      | some t =>
        if t.phase = .running then
          let cores := s.taskCores g
          let waking := g.ranks.any fun r => (s.core r).wake.isSome
          let returning := s.later.any fun x => x == .rerun g.lead
          if !s.sliceOver g ∨ !cores.all s.canLeave ∨ waking ∨ returning ∨ !(g.voiding.all fun v => v.told) then s
          else
            let s := cores.foldl (fun s r => s.modCore r fun c => { c.account 7 s.now with mode := c.rest, stall := none }) s
            let s := (s.modRegion g.lead fun g => { g with frozen := true, snapAt := 0 }).setFrozen g.ranks true
            s.modTask t.id fun t => { t with phase := .preempted, save := none }
        else if t.phase ≠ .preempted then s
        else match t.save with
          | some c =>
            if s.now < c then s
            else
              let due := s.slices.filter fun x => x.waiting
              due.foldl (fun s x => s.passBlock x.base) (s.freeBlock g.lead g.ranks)
          | none =>
            let cores := g.ranks.filter fun r => decide ((s.core r).task = some t.id)
            if !g.ranks.all s.tileFrozen then s
            else
              let p := s.taskPart t
              let x := s.part p
              let (rec_, l) := s.leavingRecord g cores
              if x.psave = 0 ∨ 2 ^ g.lgn * x.pstride.toNat < l.length then
                (s.endRegion g 1).raiseSteward p 23 (BitVec.ofNat 64 t.id)
              else if s.writeHeld (some p) 0 (ptrAdd x.psave (g.lead * x.pstride.toNat)) l.length false then s
              else match s.bumpId.writeNow (some p) 0 (ptrAdd x.psave (g.lead * x.pstride.toNat)) l false with
                | (s, some (c, v)) => (s.endRegion g 1).raiseSteward p c v
                | (s, none) =>
                  ({ s with saves := mapSet s.saves t.id rec_ }).modTask t.id fun t =>
                    { t with save := some (s.now + s.recordCycles g cores.length) })

/-! ### Restoring (R408) -/

/-- A core as its record restores it: operator and partition level keep what the tile's owner left (R408), and one that HALT has
stopped does not start (R279).
DEDUCED (log 44), unsafe. -/
def Core.restore (cur from_ : Core) (now : Nat) : Core :=
  let low {V : Type} (m : NMap V) : NMap V := m.filter fun e => decide (e.1 < 2)
  let high {V : Type} (m : NMap V) : NMap V := m.filter fun e => decide (2 ≤ e.1)
  if cur.mode = .halted then cur else
  { cur.start now with
    regs := from_.regs, pc := from_.pc, level := 3, mem := from_.mem, poisoned := from_.poisoned,
    loops := low cur.loops ++ high from_.loops, traps := low cur.traps ++ high from_.traps, rtDeleg := from_.rtDeleg,
    ocLd := 0, ocSt := 0, ocCp := 0, ocTl := from_.ocTl, pend := [], poison := [], acquires := [], events := from_.events,
    elost := 0, abort := false, boLatch := none, wake := none,
    cstsel := 0, usel := 0, mxsel := 0, scsel := 0, ccsel := 0, asid := from_.asid, subp := from_.subp,
    cpbin := from_.cpbin, cpbout := from_.cpbout, spliceSeq := from_.spliceSeq, pktSeq := from_.pktSeq,
    task := from_.task, helper := from_.helper }

/-- A pre-empted task is placed again (R299, R408). DEDUCED (log 45), unsafe. -/
def State.placeAgain (s : State) (t : Task) : State :=
  match mapFind s.saves t.id, s.place t with
  | some k, some b => match s.schedImage t b with
    | (s, .error e) => s.taskFails t (some e)
    | (s, .ok im) =>
      let s := match s.reserve b k.saved.slot im with
        | .ok ls => { s with lanes := ls }
        | .error _ => s
      let g := { (k.region.relocate b) with frozen := true, moved := false }
      let s := ({ s with regions := mapSet s.regions b g }).setFrozen g.ranks true
      s.modTask t.id fun t => { t with phase := .started, lead := b, startAt := s.now }
  | _, _ => s

/-- TASK_START (R291, R292): the scheduler starts the task that it chooses, at most one in a cycle; where `sub` names a pre-empted
task by its identifier and 1 more, it places that task again. DESIGN CHOICE (log 21), safe. -/
def execTaskStart (s : State) : Host.Outcome State Fault Refusal :=
  .next (
    if s.foc.sub = 0 then
      if s.startedAt = s.now + 1 then s
      else match s.choose with
        | none => s
        | some (t, p, c) => ({ s with schedPtr := p, schedCr := c }).startTask t
    else match s.tasks.find? fun (t : Task) => decide (t.id + 1 = s.foc.sub ∧ t.phase = .preempted) with
      | some t => if (s.regionOf t.lead).any fun g => g.task == t.id then s else s.placeAgain t
      | none => s)

/-- The region of a placed task takes its record (R408). -/
def State.restoreRegion (s : State) (g : Region) (t : Task) (k : SavedRegion) : State :=
  let fail (s : State) (c : Nat) : State := (s.endRegion g 1).raiseSteward (s.taskPart t) c (recImage t.rec_)
  let x := s.part (s.taskPart t)
  match s.schedImage t g.lead with
  | (s, .error e) => fail s e.1
  | (s, .ok im) =>
    let p := ptrAdd x.psave (k.region.lead * x.pstride.toNat)
    match s.readNow (some (s.taskPart t)) 0 intolerant p k.size ⟨true, false, false⟩ with
    | (s, .error e) => fail s e.1
    | (s, .ok l) =>
      if l ≠ savedBytes k.saved k.size ∨ (s.needsImage k.saved g.ranks ∧ im.ident ≠ k.saved.ident) then fail s 16
      else
        let m := k.saved.relocate g.lead
        let s := (List.range (2 ^ g.lgn)).foldl (fun s i =>
          s.restoreTile g.lead (g.lead + i) m.slot m.ident (mapGet Fabric.reset m.fabs i) im) s
        let s := k.cores.foldl (fun s e => s.modCore (g.lead + e.1) fun c => c.restore e.2 s.now) s
        let s := { s.putWires g.ranks m.wires with saves := mapDel s.saves t.id }
        let s := s.modTask t.id fun t => { t with phase := .running, save := none }
        let s := if g.voiding.isSome then s
          else (s.modRegion g.lead fun g => { g with frozen := false }).setFrozen g.ranks false
        match k.next with
        | none => s
        | some (slot, image) =>
          if s.slotHolds g.ranks slot (Image.ident image) then s.activate g.lead g.ranks slot none
          else
            let job : Job :=
              { id := s.nextId, kind := .load slot true, core := none, lead := g.lead, tiles := g.ranks, image := image,
                ident := Image.ident image, accs := [], join := [], ready := s.now + 32 }
            { s.bumpId with jobs := s.jobs ++ [job] }

/-- LEAD_CORE_ENTRY (R294, R408): the lead core in focus enters task level once the activation is over, or the region's record has
been written back. DEDUCED (log 43), unsafe. -/
def execLeadCoreEntry (s : State) : Host.Outcome State Fault Refusal :=
  .next (match s.region? s.foc.unit with
    | none => s
    | some g => match s.taskOf g.task with
      | none => s
      | some t =>
        if t.phase ≠ .started then s
        else match mapFind s.saves t.id with
          | some k => if s.now < t.startAt + s.recordCycles g k.cores.length then s else s.restoreRegion g t k
          | none =>
            if s.jobs.any fun j => decide (j.lead = g.lead) then s
            else
              let a := s.taskAsid t
              let entry := Image.entry (s.slot g.lead t.core).image
              (s.modCore g.lead fun c =>
                c.enterTask s.now entry (BitVec.ofNat 64 (recArg t.rec_)) t.id a (s.asid a).subp false).modTask t.id fun t =>
                  { t with phase := .running })

/-! ### Completion of the other kinds (R298, R351, R426) -/

/-- What the command of a copy task has come to: nothing while it runs, else whether it ended by fault. -/
def State.copyTaskEnd (s : State) (id : Nat) : Option Bool :=
  (s.engines.flatMap fun e => e.2.queues.flatMap fun q => q.2.cmds).findSome? fun (c : Cmd) =>
    if c.sched ∧ c.task = some id ∧ c.done.isSome then some c.fault.isSome else none

/-- ENGINE_TASK_COMPLETE (R298): the engine of the task in focus reports completion. -/
def execEngineTaskComplete (s : State) : Host.Outcome State Fault Refusal :=
  .next (match s.taskOf s.foc.unit with
    | none => s
    | some t =>
      if t.phase ≠ .running then s
      else match recKind t.rec_ with
        | 1 => match s.copyTaskEnd t.id with
          | some bad => s.completeTask t.id (b2n bad)
          | none => s
        | 2 => if (s.scan t.core).runs.any fun x => x.task == some t.id then s else s.completeTask t.id t.status
        | 3 =>
          let busy := s.motions.any (fun (m : Motion) => m.task == some t.id && m.inval.isNone) ||
            s.agents.any fun e => e.2.queue.any fun q => q.task == some t.id
          if t.left = 0 ∧ !busy then s.completeTask t.id t.status else s
        | _ => s)

/-- Where a byte of the host's own memory lies. DEDUCED (log 103), unsafe. -/
def hostLoc (a : Nat) : Loc := .dram 3 a

/-- HOST_MESSAGE_TASK (R425, R426): the message of the task in focus is written at the completion tail, the tail moves on and the
vector is signalled; a full completion ring holds the task. -/
def execHostMessageTask (s : State) : Host.Outcome State Fault Refusal :=
  .next (match s.taskOf s.foc.unit with
    | none => s
    | some t =>
      if t.phase ≠ .running ∨ recKind t.rec_ ≠ 4 then s
      else
        let p := s.taskPart t
        let x := s.part p
        let base := x.area.toNat
        let word (i : Nat) : Nat := (s.locRead (hostLoc (base + 8 * i)) 8).1
        let cmds := word 1
        let slots := word 2
        if slots = 0 ∨ (x.cplTail + 1) % slots = word 5 % slots then s
        else
          let at_ := base + 64 + 64 * cmds + 64 * (x.cplTail % slots)
          let v := leValue (leBytes 8 0 ++ (List.range 7).flatMap fun i => leBytes 8 (nth 0 t.block (i + 1)))
          let tail := (x.cplTail + 1) % slots
          let s := (s.locWrite (hostLoc at_) 64 v).locWrite (hostLoc (base + 24)) 8 tail
          (s.modPart p fun x => { x with cplTail := tail, msix := x.msix ++ [nth 0 t.block 0 % 32] }).completeTask t.id 0)

end Sys2Proof.Machine
end

