-- ==== Sys2Proof/Machine/Partitions.lean ====
section
/-!
DEFINITION. Partitions, sub-partitions and ASIDs: quotas and what of them is in use, and the words of the MGMT group (R361 to
R375, R436 to R438).
-/

namespace Sys2Proof.Machine

/-! ### What a partition has and uses (R361, R364, R437) -/

/-- The numbers of the sub-partitions of a partition. -/
def State.subsOf (s : State) (p : Nat) : List Nat :=
  (s.subps.filter fun (e : Nat × SubPart) => e.2.live && e.2.part == p).map Prod.fst
/-- The ASIDs of the sub-partitions that `f` names. -/
def State.asidsOf (s : State) (f : Nat → Bool) : List Nat :=
  (s.asids.filter fun (e : Nat × AsidRec) => e.2.live && f e.2.subp).map Prod.fst
/-- Whether a sub-partition is one of a partition's, or the one asked for. -/
def State.within (s : State) (p : Nat) (sub : Option Nat) (n : Nat) : Bool :=
  match sub with
  | some k => n == k
  | none => (s.subp n).live && (s.subp n).part == p
/-- Whether a tile lies in a block that is sliced. -/
def State.sliced (s : State) (r : Nat) : Bool :=
  s.slices.any fun (x : Slice) => decide (x.base ≤ r ∧ r < x.base + 2 ^ x.lgn)
/-- The tiles granted to a partition by kind 1 of R370. -/
def State.grantedTiles (s : State) (p : Nat) : List Nat :=
  (List.range 512).filter fun r => (s.tile r).owner == some p && (s.tile r).granted
/-- The pseudo-channel of a tier-0 address (R23, R324). -/
def pseudoChannel (a : Nat) : Nat := a / (48 * 2 ^ 30) * 64 + a % (48 * 2 ^ 30) / 256 % 64
/-- The pseudo-channels that hold a request of a partition. -/
def State.channelsOf (s : State) (p : Nat) : Nat :=
  (s.accs.foldl (fun (l : List Nat) (a : Access) => match a.loc with
    | .dram 0 x => if !a.done && a.part == some p then insertOnce l (pseudoChannel x) else l
    | _ => l) []).length
/-- The queues that hold an uncompleted command of a partition or sub-partition on some engine, as a mask. -/
def State.queuesBusy (s : State) (p : Nat) (sub : Option Nat) : Nat :=
  maskOf ((List.range 16).filter fun q => s.engines.any fun (e : Nat × Engine) =>
    (mapGet CQueue.reset e.2.queues q).cmds.any fun (c : Cmd) =>
      c.done.isNone && c.part == some p && sub.all fun n => (s.asid c.asid).subp == n)

/-- The default of a quota: 0, except weight 1 (R364). -/
def quotaDefault (code : Nat) : Nat := if code = 5 then 1 else 0
/-- The quota, or the granted amount, of a resource (R437). -/
def State.quotaLimit (s : State) (p : Nat) (sub : Option Nat) (code : Nat) : Nat :=
  let x := s.part p
  match sub with
  | some n => if code = 1 ∨ code = 2 ∨ code = 4 then mapGet 0 (s.subp n).quotas code else 0
  | none =>
    if code ≤ 5 then mapGet (quotaDefault code) x.quotas code
    else if code = 6 then (s.grantedTiles p).length
    else if code ≤ 10 then
      ((x.extents.filter fun (e : Nat × Nat × Nat) => e.1 / 16 == code - 7).map fun e => e.2.2).foldl (· + ·) 0
    else 0
/-- The amount in use of a resource (R437). -/
def State.quotaUsed (s : State) (p : Nat) (sub : Option Nat) (code : Nat) : Nat :=
  match code with
  | 0 => if sub.isSome then 0 else s.channelsOf p
  | 1 => (s.queues.filter fun (e : Nat × QueueCtx) =>
      e.2.open_ && e.2.part == p && sub.all fun n => (s.asid e.2.asid).subp == n).length
  | 2 => (s.asidsOf (s.within p sub)).length
  | 3 => if sub.isSome then 0 else (s.subsOf p).length
  | 4 => s.queuesBusy p sub &&& s.quotaLimit p sub 4
  | 6 => if sub.isSome then 0 else ((s.grantedTiles p).filter fun r => (s.regionOf r).isSome).length
  | _ => 0

/-! ### The frame of an MGMT word (R367) -/

/-- A cause 6 of a management word: the manual does not state where the subcode and the operand stand in tval. -/
def mgmtFault (s : State) (sub : Nat) (v : DWord) : WordEnd := .trap s 6 (Config.mgmtVal sub v)

/-- An MGMT word, which runs at levels 0 to `deepest`. DESIGN CHOICE (log 6), unsafe. -/
def mgmtWord (s : State) (reads writes : List (BitVec 5)) (deepest : Nat) (body : Nat → WordEnd) : State :=
  s.word reads writes fun r => if (s.core r).level > deepest then s.trapFree 1 else body r

/-- A word that has left the state `t` retires, unless its own tile has changed owner: that core is as the change leaves it. -/
def State.finish (s t : State) (r : Nat) : WordEnd :=
  if (t.tile r).owner = (s.tile r).owner then .retire t 1 else .done t

/-- What a word names: a partition, or a sub-partition of the issuer's partition. -/
structure Target where
  part : Nat
  sub  : Option Nat

/-- The target of a word (R367, R369): refused with cause 6 where other bits are set, with cause 1 where it names none, or a
partition locked under TDISP. -/
def State.target? (s : State) (r : Nat) (v : DWord) : Except Nat Target :=
  let n := v.toNat
  if n ≥ 4096 then .error 6
  else if (s.core r).level = 0 then
    if n < 64 ∧ (s.part n).live ∧ !(s.part n).locked then .ok ⟨n, none⟩ else .error 1
  else match s.owner r with
    | none => .error 1
    | some p => if (s.subp n).live ∧ (s.subp n).part = p then .ok ⟨p, some n⟩ else .error 1

/-- A word that acts on a target. -/
def State.onTarget (s : State) (r : Nat) (v : DWord) (f : Target → WordEnd) : WordEnd :=
  match s.target? r v with
  | .error 6 => mgmtFault s 15 v
  | .error c => s.trapFree c
  | .ok t => f t

/-! ### PCREATE (R368) -/

/-- Whether the number asked for breaks R368. -/
def createNumberBad (op : Bool) (v : Nat) : Bool :=
  if v.testBit 63 then v != 2 ^ 63 else decide ((if op then 64 else 4096) ≤ v)
/-- Whether a field of a create block breaks R368. DEDUCED (log 104), unsafe. -/
def createBlockBad (op : Bool) (w0 w1 w2 w3 : Nat) : Bool :=
  w3 != 0 ||
  (if op then
    bits w0 6 58 != 0 || decide (512 ≤ w1 ∨ 2 ^ 36 ≤ w2) || w2 % 4 != 0 || bits w2 18 18 % 4 != 0 ||
      decide (privSize < bits w2 0 18 + bits w2 18 18)
  else
    let root := BitVec.ofNat 64 w1
    (w0 &&& 0xF28) != w0 || !ptrFormOk root || ptrSpace root != 7 || ptrOff root % 16384 != 0 || w2 != 0)

/-- A partition begins (R364, R368, R436): its steward tile changes owner, takes the code and starts at partition level.
DEDUCED (log 105), unsafe. -/
def State.createPartition (s : State) (r num rights stew off len : Nat) : State :=
  let code := readBytes (s.core r).mem off len
  let bad := ((s.core r).poisoned.filter fun w => decide (off / 4 ≤ w ∧ w < (off + len) / 4)).map fun w => w - off / 4
  let s := { s.changeOwner stew (some num) false with
    parts := mapSet s.parts num { Partition.reset with live := true, rights := rights, steward := stew, quotas := [(5, 1)] } }
  s.modCore stew fun c => { c.start s.now with
    mem := writeBytes [] 0 code, poisoned := bad, level := 1, pc := 0,
    traps := c.traps.map fun (e : Nat × TrapRegs) => (e.1, { e.2 with pbound := 0 }) }

/-- PCREATE (R368). The tier mask of a sub-partition is 0b0001 unless the block gives another, which takes right 2 (R363). -/
def execPcreate (gd ga gb : BitVec 5) (s : State) : Host.Outcome State Fault Refusal :=
  .next (mgmtWord s [ga, gb] [gd] 1 fun r =>
    let op := (s.core r).level == 0
    let p := s.reg r ga
    let v := (s.reg r gb).toNat
    match s.readBlock r [4] p 32 with
    | .stop e => e
    | .ok s l =>
      let w0 := blockWord l 0
      let w1 := blockWord l 1
      let w2 := blockWord l 2
      if createNumberBad op v then mgmtFault s 15 (s.reg r gb)
      else if createBlockBad op w0 w1 w2 (blockWord l 3) then mgmtFault s 15 p
      else
        let taken (n : Nat) : Bool := if op then (s.part n).live else (s.subp n).live
        let n := if v.testBit 63 then (List.range (if op then 64 else 4096)).find? fun n => !taken n
          else if taken v then none else some v
        match n with
        | none => s.trapFree 23
        | some n =>
          if op then
            let stew := w1
            if (s.tile stew).owner.isSome ∨ s.sliced stew then mgmtFault s 16 p
            else
              let t := s.createPartition r n (bits w0 0 6) stew (bits w2 0 18) (bits w2 18 18)
              if stew = r then .done t else .retire (t.setReg r gd (BitVec.ofNat 64 n)) 1
          else match s.owner r with
            | none => s.trapFree 1
            | some k =>
              let x := s.part k
              let rights := bits w0 0 6
              let tiers := if bits w0 8 4 = 0 then 1 else bits w0 8 4
              if !x.rights.testBit 0 ∨ rights &&& x.rights ≠ rights ∨ (tiers ≠ 1 ∧ !x.rights.testBit 2) then s.trapFree 1
              else if mapGet 0 x.quotas 3 ≤ (s.subsOf k).length ∨ 4095 ≤ (s.subps.filter fun e => e.2.live).length then
                s.trapFree 23
              else
                let y : SubPart :=
                  { live := true, part := k, root := BitVec.ofNat 64 w1, rights := rights, tiers := tiers, quotas := [] }
                .retire ((s.modSubp n fun _ => y).setReg r gd (BitVec.ofNat 64 n)) 1)

/-! ### PQUOTA (R364, R369) -/

/-- Whether a resource code and a value are legal for a target. -/
def quotaLegal (sub : Bool) (code v : Nat) : Bool :=
  match code with
  | 0 => !sub && decide (v ≤ 512)
  | 1 => decide (v ≤ 4096)
  | 2 => decide (v ≤ 4096)
  | 3 => !sub && decide (v ≤ 4095)
  | 4 => decide (v < 65536)
  | 5 => !sub && decide (1 ≤ v ∧ v ≤ 255)
  | _ => false

/-- The sum of a quota over some numbered quota tables. -/
def quotaSum (l : List (Nat × NMap Nat)) (but code : Nat) : Nat :=
  (l.filter fun e => e.1 != but).foldl (fun n e => n + mapGet 0 e.2 code) 0

/-- Whether a value lies below what is in use, or breaks a sum limit (R364); a partition that holds HBM extents has a weight (R325). -/
def State.quotaRefused (s : State) (t : Target) (code v : Nat) : Bool :=
  let subs : List (Nat × NMap Nat) := (s.subsOf t.part).map fun n => (n, (s.subp n).quotas)
  let parts : List (Nat × NMap Nat) :=
    (s.parts.filter fun (e : Nat × Partition) => e.2.live).map fun e => (e.1, e.2.quotas)
  let used := s.quotaUsed t.part t.sub code
  let none_ := 4096
  if code = 5 then false
  else if code = 4 then
    used &&& v != used || (match t.sub with
      | some _ => v &&& mapGet 0 (s.part t.part).quotas 4 != v
      | none => subs.any fun e => mapGet 0 e.2 4 &&& v != mapGet 0 e.2 4)
  else
    decide (v < used) || (code == 0 && v == 0 && (s.part t.part).extents.any fun e => e.1 / 16 == 0) || (match t.sub with
      | some n => decide (mapGet 0 (s.part t.part).quotas code < v + quotaSum subs n code)
      | none =>
        let limit := if code = 0 then 512 else if code = 3 then 4095 else 4096
        decide (limit < v + quotaSum parts t.part code) || decide (code ≠ 3 ∧ v < quotaSum subs none_ code))

/-- A quota takes a value; a lower weight cuts the scheduler's credit for the partition (R292). -/
def State.setQuota (s : State) (t : Target) (code v : Nat) : State :=
  match t.sub with
  | some n => s.modSubp n fun x => { x with quotas := mapSet x.quotas code v }
  | none =>
    let s := s.modPart t.part fun x => { x with quotas := mapSet x.quotas code v }
    if code = 5 ∧ s.schedPtr = t.part then { s with schedCr := Nat.min s.schedCr v } else s

/-- The state with the quotas of this cycle's PQUOTAs in force, and the extents of its PREVOKEs gone from the tables, which the checks
of a further one look at. -/
def State.settled (s : State) : State :=
  s.later.foldl (fun s e => match e with
    | .quota p sub code v => s.setQuota ⟨p, sub⟩ code v
    | .revoke p key => s.modPart p fun x => { x with extents := mapDel x.extents key }
    | _ => s) s

/-- PQUOTA (R369): the new quota governs from the next cycle on. -/
def execPquota (ga gb : BitVec 5) (s : State) : Host.Outcome State Fault Refusal :=
  .next (mgmtWord s [ga, gb] [] 1 fun r =>
    let v := (s.reg r gb).toNat
    if (s.core r).level = 1 ∧ !s.partRight r 1 then s.trapFree 1
    else s.onTarget r (s.reg r ga) fun t =>
      let code := bits v 56 8
      let n := bits v 0 32
      if bits v 32 24 ≠ 0 ∨ !quotaLegal t.sub.isSome code n then mgmtFault s 15 (s.reg r gb)
      else if s.settled.quotaRefused t code n then s.trapFree 23
      else .retire (s.defer (.quota t.part t.sub code n)) 1)

/-! ### PGRANT and PREVOKE (R363, R370) -/

/-- Whether the tiles of a block at `base` form an aligned block of the device. -/
def blockOk (base lgn : Nat) : Bool := decide (lgn ≤ 9) && base % 2 ^ lgn == 0

/-- The size of a tier in GiB (R22, R454): the host has set that of its window. -/
def State.tierSize (s : State) (tier : Nat) : Nat :=
  if tier = 0 then 384 else if tier = 1 then 1024
  else if tier = 2 then [0, 1, 2, 3].foldl (fun n p => n + mapGet 0 s.cxlen p) 0 else s.hostGib

/-- The next free index of a tier's extents. -/
def Partition.nextExtent (x : Partition) (tier : Nat) : Nat :=
  ((List.range 16).find? fun k => (mapFind x.extents (tier * 16 + k)).isNone).getD 16

/-- Whether an extent may be granted. -/
def State.extentFree (s : State) (p k tier base len : Nat) : Bool :=
  k == (s.part p).nextExtent tier && decide (base + len ≤ s.tierSize tier) &&
    !(s.parts.any fun (e : Nat × Partition) => e.1 != p && e.2.live && e.2.extents.any fun (x : Nat × Nat × Nat) =>
      x.1 / 16 == tier && decide (x.2.1 < base + len ∧ base < x.2.1 + x.2.2)) &&
    (tier != 0 || decide (0 < mapGet 0 (s.part p).quotas 0))

/-- The range of an extent is zeroed, its lines without error. -/
def State.zeroExtent (s : State) (tier base len : Nat) : State :=
  let lo := dramKey tier (base * 2 ^ 30)
  let n := len * 2 ^ 30
  { s with
    dram := clearBytes s.dram lo n,
    badLines := s.badLines.filter fun (l : Nat × Nat) => !decide (l.1 = tier ∧ base * 2 ^ 24 ≤ l.2 ∧ l.2 < (base + len) * 2 ^ 24),
    copies := s.copies.filter fun (e : Nat × Nat × List Byte) =>
      !decide (lo ≤ e.1 % 2 ^ 64 * 64 ∧ e.1 % 2 ^ 64 * 64 < lo + n) }

/-- An extent is revoked (R370): accesses that have still to reach its range raise cause 5, migrations into it abort with reason
4, and it is zeroed. DEDUCED (log 107), unsafe. -/
def State.revokeExtent (s : State) (p key : Nat) : State :=
  match mapFind (s.part p).extents key with
  | none => s
  | some (base, len) =>
    let tier := key / 16
    let inFrames (t f : Nat) : Bool := t == tier && decide (base * 16384 ≤ f ∧ f < (base + len) * 16384)
    let s := s.modPart p fun x => { x with extents := mapDel x.extents key }
    let s := s.dropXlats (fun x => inFrames x.tier x.frame) (fun _ _ => false) fun _ => false
    let s := (s.motions.filter fun (m : Motion) => m.inval.isNone && inFrames m.dstTier m.dst).foldl
      (fun s m => s.breakMove m 4) s
    let s := s.zeroExtent tier base len
    { s with accs := s.accs.map fun (a : Access) => match a.loc with
        | .dram t x => if !a.done ∧ inFrames t (x / 65536) then { a with fault := 5 } else a
        | _ => a }

/-- Rights are granted to a target, or revoked from it: from a partition, in its sub-partitions too. A sub-partition gets none that its
partition does not hold (R363). -/
def State.changeRights (s : State) (t : Target) (grant : Bool) (m : Nat) : State :=
  let f (x : Nat) : Nat := if grant then x ||| m else x &&& (63 - m)
  match t.sub with
  | some n => s.modSubp n fun x => { x with rights := f x.rights &&& (s.part t.part).rights }
  | none =>
    let s := s.modPart t.part fun x => { x with rights := f x.rights }
    if grant then s
    else { s with subps := s.subps.map fun (e : Nat × SubPart) =>
      (e.1, if e.2.part = t.part then { e.2 with rights := f e.2.rights } else e.2) }

/-- Kinds 1 and 2 of a grant or a revocation, which the operator makes. A range is zeroed before its PREVOKE retires and revoked in the
cycle after (R370). -/
def State.changeHoldings (s : State) (r p : Nat) (grant : Bool) (vd : DWord) : WordEnd :=
  let v := vd.toNat
  let bad := mgmtFault s 15 vd
  if bits v 60 4 = 1 then
    let base := bits v 0 9
    let lgn := bits v 9 4
    let ranks := blockRanks base lgn
    if bits v 13 47 ≠ 0 ∨ !blockOk base lgn then bad
    else if grant then
      if ranks.any fun t => (s.tile t).owner.isSome || s.sliced t then bad
      else s.finish (ranks.foldl (fun s t => s.changeOwner t (some p) true) s) r
    else if ranks.any fun t => (s.tile t).owner != some p || s.sliced t then bad
    else if ranks.any fun t => (s.regionOf t).isSome || t == (s.part p).steward then mgmtFault s 16 vd
    else s.finish (ranks.foldl (fun s t => s.changeOwner t none false) s) r
  else
    let k := bits v 56 4
    let tier := bits v 54 2
    let base := bits v 24 24
    let len := bits v 0 24
    if bits v 48 6 ≠ 0 ∨ len = 0 then bad
    else if grant then
      if s.settled.extentFree p k tier base len then
        .retire (s.modPart p fun x => { x with extents := mapSet x.extents (tier * 16 + k) (base, len) }) 1
      else bad
    else if k + 1 = (s.settled.part p).nextExtent tier then
      let (base, len) := mapGet (0, 0) (s.part p).extents (tier * 16 + k)
      .retire ((s.zeroExtent tier base len).defer (.revoke p (tier * 16 + k))) 1
    else bad

/-- PGRANT and PREVOKE (R370): kinds 0 and 3 here, kinds 1 and 2 by the operator alone. Rights change with the next cycle (R363,
R438). -/
def grantWord (s : State) (ga gb : BitVec 5) (grant : Bool) : State :=
  mgmtWord s [ga, gb] [] 1 fun r =>
    let vd := s.reg r gb
    let v := vd.toNat
    s.onTarget r (s.reg r ga) fun t => match bits v 60 4, t.sub with
      | 0, _ =>
        let m := bits v 0 6
        if bits v 6 54 ≠ 0 then mgmtFault s 15 vd
        else if t.sub.isSome ∧ m &&& 0x28 ≠ m then mgmtFault s 15 vd
        else if grant ∧ t.sub.isSome ∧ m &&& (s.part t.part).rights ≠ m then s.trapFree 1
        else .retire (s.defer (.rights t.part t.sub grant m)) 1
      | 3, some n =>
        let m := bits v 0 4
        if bits v 4 56 ≠ 0 then mgmtFault s 15 vd
        else if !(s.part t.part).rights.testBit 2 then s.trapFree 1
        else .retire (s.modSubp n fun x => { x with tiers := if grant then m else x.tiers &&& (15 - m) }) 1
      | k, none => if k = 1 ∨ k = 2 then s.changeHoldings r t.part grant vd else if k = 3 then s.trapFree 1
          else mgmtFault s 15 vd
      | k, some _ => if k = 1 ∨ k = 2 then s.trapFree 1 else mgmtFault s 15 vd

/-- PGRANT (R370). DEDUCED (log 106), unsafe. -/
def execPgrant (ga gb : BitVec 5) (s : State) : Host.Outcome State Fault Refusal := .next (grantWord s ga gb true)
/-- PREVOKE (R370). -/
def execPrevoke (ga gb : BitVec 5) (s : State) : Host.Outcome State Fault Refusal := .next (grantWord s ga gb false)

/-- The deleg register of a partition, or of a core for level 2, takes a value (R365). -/
def State.setDeleg (s : State) (level num : Nat) (v : DWord) : State :=
  match level with
  | 0 => s.modPart num fun x => { x with opDeleg := v }
  | 1 => s.modPart num fun x => { x with pmDeleg := v }
  | _ => s.modCore num fun c => { c with rtDeleg := v }

/-! ### PSLICE (R371, R438) -/

/-- The schedule of a block: at the end of the current quantum where the block is sliced already, in the next cycle where it was
unowned.
DEDUCED (log 108), unsafe. -/
def State.setSlice (s : State) (base lgn quantum : Nat) (entries : List Nat) : State :=
  if s.slices.any fun (x : Slice) => x.base == base then
    { s with slices := s.slices.map fun (x : Slice) => if x.base = base then { x with next := some (quantum, entries) } else x }
  else if quantum = 0 then s
  else
    let x : Slice :=
      { base := base, lgn := lgn, quantum := quantum, entries := entries, index := 0, endAt := s.now + 1 + quantum,
        waiting := false, next := none }
    { s with slices := s.slices ++ [x] }.defer (.slice base)

/-- A schedule starts: its first entry gets the block (R371). -/
def State.startSlice (s : State) (base : Nat) : State :=
  match s.slices.find? fun (x : Slice) => decide (x.base = base) with
  | some x => (blockRanks x.base x.lgn).foldl (fun s r => s.changeOwner r (x.entries.head?.bind entryOwner) false) s
  | none => s

/-- PSLICE (R371): the slice entries of a partition locked under TDISP stay as they are (R367, R375). -/
def execPslice (ga gb : BitVec 5) (s : State) : Host.Outcome State Fault Refusal :=
  .next (mgmtWord s [ga, gb] [] 0 fun r =>
    let v := (s.reg r ga).toNat
    let base := bits v 0 9
    let lgn := bits v 9 4
    if v ≥ 2 ^ 13 ∨ !blockOk base lgn then mgmtFault s 15 (s.reg r ga)
    else match s.readBlock r [4] (s.reg r gb) 16 with
      | .stop e => e
      | .ok s l =>
        let quantum := bits (blockWord l 0) 0 32
        let entries := (l.drop 8).take (bits (blockWord l 0) 32 3 + 1) |>.map BitVec.toNat
        let old := s.slices.find? fun (x : Slice) => x.base == base && x.lgn == lgn
        let held := (entries ++ old.elim [] Slice.entries).any fun p => (s.part p).locked
        if (0 < quantum ∧ quantum < 65536) ∨ !(entries.all fun p => decide (p < 64) && (s.part p).live) then
          mgmtFault s 15 (s.reg r gb)
        else if old.isNone ∧ (blockRanks base lgn).any fun t => (s.tile t).owner.isSome || s.sliced t then
          mgmtFault s 16 (s.reg r ga)
        else if held then s.trapFree 1
        else .retire (s.setSlice base lgn quantum entries) 1)

/-! ### PDESTROY (R372) -/

/-- A task that has started ends with status 1, raising nothing: its copy command, its run on a scan engine and its queued requests for
pages end with it. -/
def State.endTask (s : State) (t : Task) : State :=
  match (s.regions.map Prod.snd).find? fun (g : Region) => g.task == t.id with
  | some g => s.endRegion g 1
  | none =>
    let s := s.cancelCopies fun c => c.sched && c.task == some t.id
    let s := if (s.scan t.core).runs.any fun x => x.task == some t.id then s.modScan t.core Scan.discard else s
    let s := { s with agents := s.agents.map fun (e : Nat × Agent) =>
      (e.1, { e.2 with queue := e.2.queue.filter fun (q : MigReq) => q.task != some t.id }) }
    s.completeTask t.id 1

/-- Some queue contexts close and their tasks end. -/
def State.endQueues (s : State) (qs : List Nat) : State :=
  let s := qs.foldl State.closeQueue s
  (s.tasks.filter fun (t : Task) => qs.contains t.queue).foldl State.endTask s

/-- A sub-partition is destroyed: its queues close, its tasks end, its ASIDs are freed, and no cache holds what it translated. -/
def State.destroySub (s : State) (n : Nat) : State :=
  let qs := (s.queues.filter fun (e : Nat × QueueCtx) => (e.2.open_ || e.2.closing) && (s.asid e.2.asid).subp == n).map Prod.fst
  let s := s.endQueues qs
  let s := s.dropXlats (fun x => x.subp == n) (fun k _ => k == n) fun key => (s.asid key.1).subp == n
  { s with
    dones := s.dones.filter fun d => (s.asid d.2.2.1).subp != n,
    asids := s.asids.filter fun (e : Nat × AsidRec) => e.2.subp != n, subps := mapDel s.subps n }

/-- A partition is destroyed: its sub-partitions with it, its extents revoked and zeroed, its tiles, its slice entries and its
steward the operator's. DEDUCED (log 109), unsafe. -/
def State.destroyPart (s : State) (p : Nat) : State :=
  let s := (s.subsOf p).foldl State.destroySub s
  let s := s.endQueues ((s.queues.filter fun (e : Nat × QueueCtx) => (e.2.open_ || e.2.closing) && e.2.part == p).map Prod.fst)
  let s := (s.part p).extents.foldl (fun s (e : Nat × Nat × Nat) => s.revokeExtent p e.1) s
  let drop (l : List Nat) : List Nat := l.map fun e => if e = p then 64 else e
  let s := { s with
    slices := s.slices.map fun (x : Slice) =>
      { x with entries := drop x.entries, next := x.next.map fun (n : Nat × List Nat) => (n.1, drop n.2) },
    motions := s.motions.filter fun (m : Motion) => m.part != p,
    agents := s.agents.map fun (e : Nat × Agent) =>
      (e.1, { e.2 with queue := e.2.queue.filter fun (q : MigReq) => q.part != p }) }
  let s := ((List.range 512).filter fun r => (s.tile r).owner == some p).foldl (fun s r => s.changeOwner r none false) s
  { s with parts := mapDel s.parts p }

/-- PDESTROY (R372). -/
def execPdestroy (ga : BitVec 5) (s : State) : Host.Outcome State Fault Refusal :=
  .next (mgmtWord s [ga] [] 1 fun r =>
    s.onTarget r (s.reg r ga) fun t => match t.sub with
      | some n => s.finish (s.destroySub n) r
      | none => s.finish (s.destroyPart t.part) r)

/-! ### ASIDs and TINV (R373, R374) -/

/-- Whether a sub-partition is one that the running level may act on: any for the operator, the partition's own at partition
level, the core's own at runtime level. -/
def State.reaches (s : State) (r n : Nat) : Bool :=
  let c := s.core r
  (s.subp n).live && (c.level == 0 || (s.owner r == some (s.subp n).part && (c.level == 1 || c.subp == n)))

/-- AALLOC (R373). -/
def execAalloc (gd ga : BitVec 5) (s : State) : Host.Outcome State Fault Refusal :=
  .next (mgmtWord s [ga] [gd] 2 fun r =>
    let v := (s.reg r ga).toNat
    let n := bits v 0 12
    if bits v 12 2 ≠ 0 ∨ 2 ^ 48 ≤ v then mgmtFault s 15 (s.reg r ga)
    else if !s.reaches r n then s.trapFree 1
    else
      let p := (s.subp n).part
      if mapGet 0 (s.subp n).quotas 2 ≤ s.quotaUsed p (some n) 2 ∨ mapGet 0 (s.part p).quotas 2 ≤ s.quotaUsed p none 2 then
        s.trapFree 23
      else match (List.range 4096).find? fun a => !(s.asid a).live with
        | none => s.trapFree 23
        | some a =>
          let x : AsidRec := { live := true, subp := n, root := v - n }
          .retire ({ s with asids := mapSet s.asids a x }.setReg r gd (BitVec.ofNat 64 a)) 1)

/-- The translations that a TINV of a kind names, by identifier and address. -/
def State.tinvHits (s : State) (kind id : Nat) (a : DWord) (x : Xlat) : Bool :=
  match kind with
  | 0 => x.asid == id && x.vpage == ptrOff a / 65536
  | 1 => x.asid == id
  | 2 => x.subp == id && x.page == bits a.toNat 16 32
  | 3 => x.subp == id
  | 4 => (s.subp x.subp).part == id
  | _ => true
/-- The stage-B entries that it names. -/
def State.tinvHitsB (s : State) (kind id : Nat) (a : DWord) (n page : Nat) : Bool :=
  match kind with
  | 0 => false
  | 1 => false
  | 2 => n == id && page == bits a.toNat 16 32
  | 3 => n == id
  | 4 => (s.subp n).part == id
  | _ => true
/-- The walks under way that it makes begin again. -/
def State.tinvHitsW (s : State) (kind id : Nat) (a : DWord) (key : Nat × Nat) : Bool :=
  match kind with
  | 0 => key.1 == id && key.2 == ptrOff a / 65536
  | 1 => key.1 == id
  | 2 => (s.asid key.1).subp == id
  | 3 => (s.asid key.1).subp == id
  | 4 => (s.subp (s.asid key.1).subp).part == id
  | _ => true

/-- Every cache loses what a TINV names. -/
def State.invalidate (s : State) (kind id : Nat) (a : DWord) : State :=
  s.dropXlats (s.tinvHits kind id a) (s.tinvHitsB kind id a) (s.tinvHitsW kind id a)
/-- The accesses translated by what a TINV names that have not performed. -/
def State.tinvWaits (s : State) (kind id : Nat) (a : DWord) : List Nat :=
  (s.accs.filter fun (b : Access) => !b.done && b.xl.any (s.tinvHits kind id a)).map Access.id

/-- A word that invalidates: it removes the entries, and `done` follows once every access that one of them translated has
performed. -/
def State.invalidateWord (s : State) (r kind id : Nat) (a : DWord) (done : State → WordEnd) : WordEnd :=
  let ids := match (s.core r).stall with
    | some (.latch l) => l
    | _ => s.tinvWaits kind id a
  let t := match (s.core r).stall with
    | some (.latch _) => s
    | _ => s.invalidate kind id a
  if t.accs.any fun (b : Access) => ids.contains b.id && !b.done then
    .wait (t.modCore r fun c => { c with stall := some (.latch ids) }) 5
  else done t

/-- AFREE (R373). DEDUCED (log 111), unsafe. -/
def execAfree (ga : BitVec 5) (s : State) : Host.Outcome State Fault Refusal :=
  .next (mgmtWord s [ga] [] 2 fun r =>
    let v := (s.reg r ga).toNat
    if 4096 ≤ v ∨ !(s.asid v).live then mgmtFault s 15 (s.reg r ga)
    else if !s.reaches r (s.asid v).subp then s.trapFree 1
    else if s.queues.any fun (e : Nat × QueueCtx) => e.2.open_ && e.2.asid == v then mgmtFault s 16 (s.reg r ga)
    else s.invalidateWord r 1 v 0 fun t => .retire { t with asids := mapDel t.asids v } 1)

/-- Whether a TINV of a kind may be issued at the running level (R367). -/
def State.mayInvalidate (s : State) (r kind id : Nat) : Bool :=
  let l := (s.core r).level
  l == 0 || (l == 1 && decide (kind ≤ 3) && s.reaches r (if kind ≤ 1 then (s.asid id).subp else id) &&
      (decide (2 ≤ kind) || (s.asid id).live)) ||
    (l == 2 && decide (kind ≤ 1) && (s.asid id).live && s.reaches r (s.asid id).subp)

/-- TINV (R374). -/
def execTinv (ga gb : BitVec 5) (s : State) : Host.Outcome State Fault Refusal :=
  .next (mgmtWord s [ga, gb] [] 2 fun r =>
    let v := (s.reg r gb).toNat
    let kind := bits v 60 4
    let id := bits v 0 12
    let a := s.reg r ga
    let width := if kind = 4 then 6 else if kind = 5 then 0 else 12
    if kind > 5 ∨ bits v width (60 - width) ≠ 0 then mgmtFault s 15 (s.reg r gb)
    else if kind ≠ 0 ∧ (if kind = 2 then a.toNat ≠ bits a.toNat 16 32 * 65536 else a ≠ 0) then mgmtFault s 15 a
    else if !s.mayInvalidate r kind id then s.trapFree 1
    else match (if kind = 0 then ptrFault [0] (s.core r).level 1 a else none) with
      | some c => .trap s c a
      | none => s.invalidateWord r kind id a fun t => .retire t 1)

end Sys2Proof.Machine
end

