-- ==== Sys2Proof/Machine/Packets.lean ====
section
/-!
DEFINITION. Packets: their head flits and turn lists, the words of the PKT group, their way through the switches and over a link,
recovery, and delivery (R412 to R419).
-/

namespace Sys2Proof.Machine

/-! ### Head flits and turn lists (R412, R413) -/

/-- A head flit. -/
def headFlit (seq peer srank drank flits cls part turns : Nat) : Nat :=
  seq * 2 ^ 64 + peer * 2 ^ 55 + srank * 2 ^ 46 + drank * 2 ^ 37 + flits * 2 ^ 34 + cls * 2 ^ 30 + part * 2 ^ 24 + turns
/-- The destination rank of a head flit. -/
def headDrank (h : Nat) : Nat := bits h 37 9
/-- The class of a head flit. -/
def headClass (h : Nat) : Nat := bits h 30 4
/-- The turn list of a head flit. -/
def headTurns (h : Nat) : Nat := bits h 0 24

/-- The turns that cross from one die to another (R21). -/
def crossTurns (src dst : Nat) : List Nat :=
  let x := src ^^^ dst
  if x = 0 then [] else if x = 1 then [5] else if x = 2 then [6] else [7]
/-- The turns down from the root of a die to a tile of it. -/
def downTurns (d : Nat) : List Nat := [d / 64 % 2, d / 16 % 4, d / 4 % 4, d % 4]
/-- The turns from one tile to another. -/
def tileTurns (s d : Nat) : List Nat :=
  if s / 4 = d / 4 then [d % 4]
  else if s / 16 = d / 16 then [4, d / 4 % 4, d % 4]
  else if s / 64 = d / 64 then [4, 4, d / 16 % 4, d / 4 % 4, d % 4]
  else [4, 4, 4] ++ crossTurns (s / 128) (d / 128) ++ downTurns d
/-- The turns from a tile to an I/O chiplet (R414). -/
def chipletTurns (s c : Nat) : List Nat := [4, 4, 4] ++ crossTurns (s / 128) c ++ [2]
/-- A turn list as its 24 bits, turn 0 lowest. -/
def turnList : List Nat → Nat
  | [] => 0
  | t :: ts => t + 8 * turnList ts

/-- The chiplet of a link port (R24). -/
def chipletOf (port : Nat) : Nat := port / 6

/-! ### The words of the PKT group (R417 to R419) -/

/-- Whether the operand of PSEND breaks its table. DEDUCED (log 118), unsafe. -/
def psendBad (v : Nat) : Bool :=
  decide (2 ≤ bits v 62 2) || bits v 37 25 != 0 || bits v 31 3 != 0 || bits v 4 9 != 0 ||
    (bits v 62 2 == 0 && bits v 22 9 != 0)

/-- A peer number's entry, where it is valid: its part and its port (R423). -/
def State.peerEntry (s : State) (num : Nat) : Option (Nat × Nat) :=
  let e := (mapGet 0 s.peers num).toNat
  if e.testBit 63 ∧ bits e 0 4 < 12 then some (bits e 30 6, bits e 0 4) else none

/-- Why PSEND refuses its operands, as the subcode of cause 17 (R417). -/
def State.psendFault (s : State) (r : Nat) (v : Nat) (gb : DWord) : Option Nat :=
  let c := s.core r
  let ends := decide (privSize < ptrOff gb + 32 * bits v 34 3)
  if psendBad v ∨ (ptrFault [4] c.level 32 gb).isSome ∨ (privFault c gb).isSome ∨ ends then some 0
  else if bits v 0 4 ≥ 14 ∧ c.level > 0 then some 1
  else if bits v 62 2 = 0 then
    if (s.owner r).isSome ∧ s.owner (bits v 13 9) = s.owner r then none else some 2
  else match s.peerEntry (bits v 22 9) with
    | some (p, _) => if s.owner r = some p then none else some 4
    | none => some 4

/-- PSEND (R417): the packet enters the branch switch of its tile. -/
def execPsend (gd ga gb : BitVec 5) (s : State) : Host.Outcome State Fault Refusal :=
  .next (s.memWord [ga, gb] [gd] fun r =>
    let a := s.reg r ga
    let v := a.toNat
    let b := s.reg r gb
    match s.psendFault r v b with
    | some sub => .trap s 17 (ptrSub a sub)
    | none =>
      let c := s.core r
      let flits := bits v 34 3
      if c.ocSt ≥ 32 then .wait s 5
      else
        let load := (List.range flits).map fun i => s.locRead (.priv r (ptrOff b + 32 * i)) 32
        if load.any Prod.snd then .trap s 13 b
        else
          let peer := bits v 62 2 == 1
          let port := if peer then (s.peerEntry (bits v 22 9)).map Prod.snd else none
          let drank := bits v 13 9
          let turns := match port with
            | some p => chipletTurns r (chipletOf p)
            | none => tileTurns r drank
          let k : Packet :=
            { id := s.nextId, head := headFlit c.pktSeq 0 r drank flits (bits v 0 4) ((s.owner r).getD 0) (turnList turns),
              payload := load.map Prod.fst, from_ := some r, ga := a, pos := .switch 0 (r / 4), via := .tile r,
              since := s.now + 1, blocked := false, escape := false, toPeer := port, before := s.releases r }
          let seq : DWord := BitVec.ofNat 64 c.pktSeq
          let s := { s.bumpId with packets := s.packets ++ [k] }
          let s := s.modCore r fun c => { c with pktSeq := (c.pktSeq + 1) % 65536, ocSt := c.ocSt + 1 }
          .retire (s.setReg r gd seq) (Nat.max 1 flits))

/-- Route classes of a partition masked or unmasked (R418). -/
def State.setMask (s : State) (p : Nat) (set : Bool) (m : Nat) : State :=
  s.modPart p fun x => { x with pkmask := if set then x.pkmask ||| m else x.pkmask &&& (65535 - m) }
/-- PMASK and PUNMASK (R418): a bit governs deliveries from the next cycle on. -/
def maskWord (s : State) (ga : BitVec 5) (set : Bool) : State :=
  s.word [ga] [] fun r =>
    let v := s.reg r ga
    if (s.core r).level = 3 then s.trapFree 1
    else if v.toNat ≥ 65536 then .trap s 17 (ptrSub v 0)
    else match s.owner r with
      | none => .retire s 1
      | some p => .retire (s.defer (.mask p set v.toNat)) 1

/-- PMASK (R418). -/
def execPmask (ga : BitVec 5) (s : State) : Host.Outcome State Fault Refusal := .next (maskWord s ga true)
/-- PUNMASK (R418). -/
def execPunmask (ga : BitVec 5) (s : State) : Host.Outcome State Fault Refusal := .next (maskWord s ga false)

/-- Whether a template can be bound by a partition (R416): a region record of an open queue of it. -/
def State.templateOk (s : State) (p : Nat) (l : List Nat) : Bool :=
  let q := s.queue (recQueue l)
  recOk l && recKind l == 0 && recPart l == p && q.open_ && q.part == p

/-- A route class of a partition bound or unbound (R419). -/
def State.setBinding (s : State) (p cls : Nat) (b : Option Binding) : State :=
  s.modPart p fun x => { x with binds := match b with
    | some k => mapSet x.binds cls k
    | none => mapDel x.binds cls }
/-- PBIND (R419): the template is read and checked as it is bound; packets that arrive from the next cycle on use the binding.
DEDUCED (log 116), unsafe. -/
def execPbind (ga gb : BitVec 5) (s : State) : Host.Outcome State Fault Refusal :=
  .next (s.memWord [ga, gb] [] fun r =>
    let a := s.reg r ga
    let b := s.reg r gb
    let bad : WordEnd := .trap s 17 (ptrSub a 0)
    let cls := a.toNat
    if (s.core r).level > 1 then s.trapFree 1
    else if 16 ≤ cls ∨ (b ≠ 0 ∧ (ptrFault [4] (s.core r).level 32 b).isSome) then bad
    else match s.owner r with
      | none => bad
      | some p =>
        if b = 0 then .retire (s.defer (.bind p cls none)) 1
        else match s.readBlock r [4] b 32 with
          | .stop e => e
          | .ok s l =>
            let template := BitVec.ofNat 64 (blockWord l 0)
            let ring := BitVec.ofNat 64 (blockWord l 1)
            let slots := blockWord l 2
            if slots = 0 ∨ 65536 ≤ slots ∨ blockWord l 3 ≠ 0 ∨ (ptrFault [0, 7] 0 128 template).isSome ∨
                (ptrFault [0, 7] 0 256 ring).isSome then bad
            else match s.readBlock r [0, 7] template 128 with
              | .stop e => e
              | .ok s l =>
                let rec_ := (List.range 16).map (blockWord l)
                if s.templateOk p rec_ then
                  let k : Binding :=
                    { template := template, rec_ := rec_, ring := ring, slots := slots, asid := (s.queue (recQueue rec_)).asid }
                  .retire (s.defer (.bind p cls (some k))) 1
                else .trap s 17 (ptrSub a 0))

/-! ### On the way (R413 to R415) -/

/-- The packet with an identifier. -/
def State.packet? (s : State) (id : Nat) : Option Packet := s.packets.find? fun (k : Packet) => decide (k.id = id)
/-- The state with a packet changed by `f`. -/
def State.modPacket (s : State) (id : Nat) (f : Packet → Packet) : State :=
  { s with packets := s.packets.map fun (k : Packet) => if k.id = id then f k else k }
/-- A packet has ended, delivered, dropped or lost: oc.st of its sender falls (R417). -/
def State.endPacket (s : State) (k : Packet) : State :=
  let s := { s with packets := s.packets.filter fun (j : Packet) => decide (j.id ≠ k.id) }
  match k.from_ with
  | some r => s.modCore r fun c => { c with ocSt := c.ocSt - 1 }
  | none => s

/-- Where a switch sends a packet by turn 0, and whether it shifts the list (R413). -/
def Packet.nextHop (k : Packet) : Option (PacketAt × Bool) :=
  let t := headTurns k.head % 8
  match k.pos with
  | .switch 0 b => if t < 4 then some (.tile (4 * b + t), true) else if t = 4 then some (.switch 1 (b / 4), true) else none
  | .switch 1 b => if t < 4 then some (.switch 0 (4 * b + t), true) else if t = 4 then some (.switch 2 (b / 4), true) else none
  | .switch 2 b => if t < 4 then some (.switch 1 (4 * b + t), true) else if t = 4 then some (.switch 3 (b / 2), true) else none
  | .switch _ d =>
    if t < 2 then some (.switch 2 (2 * d + t), true)
    else if t = 2 then k.toPeer.map fun p => (.link p, true)
    else if t = 5 then some (.switch 3 (d ^^^ 1), true)
    else if t = 6 then some (.switch 3 (d ^^^ 2), true)
    else if t = 7 then some (.middle (d ^^^ 1), true)
    else none
  | .middle d => some (.switch 3 (d ^^^ 2), false)
  | _ => none

/-- Whether a packet may take the way to `next` (R415, R416): an escape lane holds one packet and goes first, and a tile holds four
packets and one more that came by an escape lane. DESIGN CHOICE (log 114), safe. -/
def State.hopFree (s : State) (k : Packet) (next : PacketAt) : Bool :=
  let ahead := !k.escape && s.packets.any fun (j : Packet) =>
    j.escape && j.pos == k.pos && (j.nextHop.map Prod.fst) == some next
  let room := match next with
    | .tile r =>
      let here := s.packets.filter fun (j : Packet) => j.pos == .tile r && j.escape == k.escape
      decide (here.length < if k.escape then 1 else 4)
    | _ => !k.escape || !(s.packets.any fun (j : Packet) => j.escape && j.via == k.pos && j.pos == next)
  !ahead && room

/-- A packet reaches a place; where packets wait in order of arrival, it comes last. -/
def State.arrive (s : State) (k : Packet) : State :=
  { s with packets := (s.packets.filter fun (j : Packet) => decide (j.id ≠ k.id)) ++ [k] }

/-- A packet goes one switch further, out over its link as a flit, or, at the peer, is answered for (R413, R414, R420). -/
def State.hop (s : State) (id : Nat) : State :=
  match s.packet? id with
  | none => s
  | some k =>
    if s.now ≤ k.since then s
    else match k.pos with
      | .link p =>
        if (s.link p).state = .up ∧ (s.link p).unacked < 64 then
          (s.modLink p fun l => { l with unacked := l.unacked + 1 }).modPacket id fun k =>
            { k with pos := .peer p, via := .link p, since := s.now, escape := false, blocked := false }
        else s
      | .peer _ => s.endPacket k
      | _ => match k.nextHop with
        | none => s
        | some (next, shift) =>
          if s.hopFree k next then
            let head := if shift then k.head - headTurns k.head + headTurns k.head / 8 else k.head
            s.arrive { k with pos := next, via := k.pos, head := head, since := s.now, blocked := false }
          else s

/-- PACKET_BLOCKED (R415): the packet in focus has waited 1024 cycles at one switch. -/
def execPacketBlocked (s : State) : Host.Outcome State Fault Refusal :=
  .next (s.modPacket s.foc.unit fun k => match k.pos with
    | .switch _ _ => if k.since + 1024 ≤ s.now ∧ !k.escape then { k with blocked := true } else k
    | .middle _ => if k.since + 1024 ≤ s.now ∧ !k.escape then { k with blocked := true } else k
    | _ => k)

/-- The switches of a level. -/
def switchCount (level : Nat) : Nat := if level = 0 then 128 else if level = 1 then 32 else if level = 2 then 8 else 4
/-- Whether a packet waits at a switch. -/
def Packet.at (k : Packet) (level num : Nat) : Bool := k.pos == .switch level num || (level == 3 && k.pos == .middle num)

/-- RECOVERY_TOKEN_VISIT (R415): the recovery token of the level in focus grants the oldest blocked packet of its switch the
escape lane, stays until that packet has left, or goes on to the next switch. It visits one switch in each cycle. -/
def execRecoveryTokenVisit (s : State) : Host.Outcome State Fault Refusal :=
  let level := s.foc.unit
  let (num, from_) := mapGet (0, 0) s.tokens level
  let here := s.packets.filter fun (k : Packet) => k.at level num && k.blocked
  .next (
    if level ≥ 4 ∨ s.now < from_ ∨ here.any Packet.escape then s
    else match here with
      | [] => { s with tokens := mapSet s.tokens level ((num + 1) % switchCount level, s.now + 1) }
      | k :: ks =>
        let oldest := ks.foldl (fun (a b : Packet) => if b.since < a.since then b else a) k
        s.modPacket oldest.id fun k => { k with escape := true })

/-- PEER_PACKET_ARRIVAL (R414): a packet comes over the link port in focus; the chiplet names its sender by the lowest peer number
of that port and sends it down to its tile, or drops it. -/
def execPeerPacketArrival (head : BitVec 256) (payload : List (BitVec 256)) (s : State) : Host.Outcome State Fault Refusal :=
  let port := s.foc.unit
  let h := head.toNat
  let drank := headDrank h
  let c := chipletOf port
  .next (
    if port ≥ 12 ∨ (s.link port).state ≠ .up then s
    else match (List.range 512).find? fun n => (s.peerEntry n).any fun e => e.2 == port with
      | none => s
      | some n =>
        if (s.owner drank).isNone then s
        else
          let turns := crossTurns c (drank / 128) ++ downTurns drank
          let k : Packet :=
            { id := s.nextId, head := setBits (setBits h 55 9 n) 0 24 (turnList turns),
              payload := (payload.map BitVec.toNat).take (bits h 34 3), from_ := none, ga := 0, pos := .switch 3 c,
              via := .link port, since := s.now, blocked := false, escape := false, toPeer := none, before := [] }
          { s.bumpId with packets := s.packets ++ [k] })

/-! ### Delivery (R416) -/

/-- The slots of a class's ring that are in use: those of the tasks that packets submitted. -/
def State.slotsUsed (s : State) (p cls : Nat) (k : Binding) : List Nat :=
  s.tasks.filterMap fun (t : Task) => match t.block with
    | [c, r, i] => if recKind t.rec_ = 0 ∧ s.taskPart t = p ∧ c = cls ∧ r = k.ring.toNat then some i else none
    | _ => none

/-- The slot that a packet of a class takes: the lowest free one, where the class is not masked and its queue takes a task. -/
def State.freeSlot (s : State) (p cls : Nat) (k : Binding) : Option Nat :=
  if (s.part p).pkmask.testBit cls ∨ (s.unstarted (recQueue k.rec_)).length ≥ 16 then none
  else
    let used := s.slotsUsed p cls k
    (List.range k.slots).find? fun i => !used.contains i

/-- The bytes of a packet as its slot receives them. -/
def Packet.bytes (k : Packet) : List Byte := leBytes 32 k.head ++ k.payload.flatMap (leBytes 32)

/-- A packet is delivered into a slot and submits its task. DEDUCED (log 117), unsafe. -/
def State.deliver (s : State) (p : Nat) (k : Packet) (b : Binding) (slot : Nat) : State :=
  let at_ := ptrAdd b.ring (256 * slot)
  match s.writeNow (some p) b.asid at_ k.bytes false with
  | (s, some (c, v)) => (s.endPacket k).raiseSteward p c v
  | (s, none) =>
    let q := recQueue b.rec_
    let (s, _) := s.submit q (b.rec_.set 4 at_.toNat) [headClass k.head, b.ring.toNat, slot] []
    s.endPacket k

/-- Whether a packet at its tile can be dealt with now: what its sender released has performed, and it can be delivered, its slot not
held by a page in motion (R338), or has to be dropped. DESIGN CHOICE (log 115), unsafe. -/
def State.deliverable (s : State) (p : Nat) (k : Packet) : Bool :=
  s.performed k.before &&
    (match mapFind (s.part p).binds (headClass k.head) with
     | none => true
     | some b => !(s.queue (recQueue b.rec_)).open_ || (s.freeSlot p (headClass k.head) b).any fun i =>
         !s.writeHeld (some p) b.asid (ptrAdd b.ring (256 * i)) k.bytes.length false)

/-- PACKET_DELIVERY (R416): of the packets that wait at the tile in focus, the first to have arrived that can be delivered takes
the lowest free slot of its class's ring and submits its task; a class that has no binding drops it. -/
def execPacketDelivery (s : State) : Host.Outcome State Fault Refusal :=
  let r := s.foc.unit
  let here := s.packets.filter fun (k : Packet) => k.pos == .tile r
  .next (match s.owner r with
    | none => here.foldl State.endPacket s
    | some p => match here.find? (s.deliverable p) with
      | none => s
      | some k =>
        let drop := (s.endPacket k).raiseSteward p 17 (BitVec.ofNat 64 (k.head % 2 ^ 64))
        match mapFind (s.part p).binds (headClass k.head) with
        | none => drop
        | some b =>
          if !(s.queue (recQueue b.rec_)).open_ then drop
          else match s.freeSlot p (headClass k.head) b with
            | none => s
            | some i => s.deliver p k b i)

end Sys2Proof.Machine
end

