-- ==== Sys2Proof/Machine/Links.lean ====
section
/-!
DEFINITION. Llynoz Link and the CXL links: training, CRC errors and replay, failing lanes, loss, and accesses from peers (R420 to
R423, R454).
-/

namespace Sys2Proof.Machine

/-! ### Training (R421, R423) -/

/-- The highest protocol version that both ends support: this device has versions 1 and 2. -/
def linkVersion (peer : Nat) : Nat := Nat.min 2 peer

/-- LINK_UP (R421): the link of the port in focus trains, and once it has, runs at the highest version that it shares with its peer,
whose highest version `arg` gives. -/
def execLinkUp (s : State) : Host.Outcome State Fault Refusal :=
  let p := s.foc.unit
  let peer := s.foc.arg
  .next (
    if p ≥ 12 then s
    else match (s.link p).state with
      | .up => s
      | .training =>
        if peer = 0 then s
        else s.modLink p fun l =>
          { l with state := .up, ver := linkVersion peer, half := false, spares := 2, healthy := 16, unacked := 0,
                   replaying := false, tries := 0, crc := [], deferred := [] }
      | _ => s.modLink p fun l => { l with state := .training })

/-! ### Errors and lanes (R420, R421) -/

/-- A failing lane is dealt with: a spare replaces it live under version 2; else the link goes to half width.
DEDUCED (log 119), unsafe. -/
def Link.repair (l : Link) (lane : Nat) : Link :=
  let l := { l with crc := mapDel l.crc lane }
  if l.ver = 2 ∧ l.spares > 0 then { l with spares := l.spares - 1 }
  else { l with half := true, healthy := l.healthy - 1 }

/-- The sender replays from the oldest flit that has not been acknowledged (R420). -/
def Link.replay (l : Link) : Link := { l with replays := satAdd (2 ^ 32 - 1) l.replays l.unacked, replaying := true }

/-- Deferred repairs cannot wait any longer: the link drops to half width on the healthy lanes (R421). -/
def Link.giveUp (l : Link) : Link :=
  { l with half := true, healthy := l.healthy - l.deferred.length,
           crc := l.crc.filter fun (e : Nat × List Nat) => !l.deferred.contains e.1, deferred := [] }

/-- FLIT_CRC_FAIL (R420, R421): a flit on the port in focus fails its CRC, by an error on lane `sub`; the sender replays. -/
def execFlitCrcFail (s : State) : Host.Outcome State Fault Refusal :=
  let p := s.foc.unit
  let lane := s.foc.sub
  .next (
    if p ≥ 12 ∨ 16 ≤ lane ∨ (s.link p).state ≠ .up ∨ (s.link p).unacked = 0 then s
    else s.modLink p fun l =>
      let times := (s.now :: mapGet [] l.crc lane).take 4
      let l := { l with crc := mapSet l.crc lane times, tries := if l.replaying then l.tries + 1 else 0 }
      (if l.replaying && !l.deferred.isEmpty then l.giveUp else l).replay)

/-- Whether a lane has caused four CRC errors within 2^20 cycles (R421). -/
def Link.failing (l : Link) (lane now : Nat) : Bool :=
  match mapGet [] l.crc lane with
  | [_, _, _, t] => decide (now < t + 2 ^ 20)
  | _ => false

/-- LANE_FAILING (R421): a failing lane of the port in focus is dealt with, or, while a replay is outstanding, later. -/
def execLaneFailing (s : State) : Host.Outcome State Fault Refusal :=
  let p := s.foc.unit
  let lane := s.foc.sub
  .next (
    if p ≥ 12 ∨ (s.link p).state ≠ .up ∨ !(s.link p).failing lane s.now then s
    else s.modLink p fun l =>
      if l.deferred.contains lane then l
      else if l.replaying then { l with deferred := l.deferred ++ [lane] } else l.repair lane)

/-- FLIT_ACKNOWLEDGED (R420, R421): the partner acknowledges the `arg` oldest flits of the port in focus; a replay ends when none is
left, and the repairs that waited for it are made. -/
def execFlitAcknowledged (s : State) : Host.Outcome State Fault Refusal :=
  let p := s.foc.unit
  .next (
    if p ≥ 12 ∨ s.foc.arg = 0 ∨ (s.link p).state ≠ .up then s
    else s.modLink p fun l =>
      let l := { l with unacked := l.unacked - s.foc.arg, tries := 0 }
      if l.unacked = 0 then l.deferred.foldl Link.repair { l with replaying := false, deferred := [] } else l)

/-! ### Loss (R422) -/

/-- Whether a packet is on a link. -/
def Packet.onLink (k : Packet) (p : Nat) : Bool := k.pos == .link p || k.pos == .peer p

/-- A packet is lost with its link: its sender learns of it, and its oc.st falls. -/
def State.losePacket (s : State) (k : Packet) : State :=
  let s := match k.from_ with
    | some r => s.raise r (s.core r).level 19 k.ga
    | none => s
  s.endPacket k

/-- LINK_LOST (R422): the link of the port in focus has fewer than 8 healthy lanes or 16 failed replays of one flit: the accesses on
it end with cause 19 and the packets on it are dropped. -/
def execLinkLost (s : State) : Host.Outcome State Fault Refusal :=
  let p := s.foc.unit
  let l := s.link p
  .next (
    if p ≥ 12 ∨ l.state ≠ .up ∨ (8 ≤ l.healthy ∧ l.tries < 16) then s
    else
      let s := s.modLink p fun l =>
        { l with state := .lost, unacked := 0, replaying := false, tries := 0, crc := [], deferred := [] }
      let s := { s with accs := s.accs.map fun (a : Access) => match a.loc with
        | .peer num _ => if !a.done ∧ s.peerPort num = p then { a with fault := 19 } else a
        | _ => a }
      (s.packets.filter fun (k : Packet) => k.onLink p).foldl State.losePacket s)

/-- CXL_LINK_LOST (R454): the link of the CXL port in focus is lost; accesses to its range then raise cause 19. -/
def execCxlLinkLost (s : State) : Host.Outcome State Fault Refusal :=
  let p := s.foc.unit
  .next (if p ≥ 4 then s else { s with cxlLost := insertOnce s.cxlLost p })

/-! ### Accesses from peers (R353, R423) -/

/-- Whether every page of an access from a peer may be reached through space 6, or the cause that goes back.
DEDUCED (log 102), unsafe. -/
def State.peerReach (s : State) (part asid : Nat) (p : DWord) (n : Nat) (need : Need) : Option Nat :=
  (spansOf p n).findSome? fun x => match s.placeNow (some part) asid x.1 need with
    | .error c => some c
    | .ok (_, some y) => if y.bp then none else some 4
    | .ok (_, none) => some 4

/-- PEER_ACCESS_ARRIVAL (R353, R423): a write to a page in motion waits at the port where R338 says so; an access of the peer on the link
port `sub` is translated in the receiving queue in focus and reaches only pages that peers may reach; a fault goes back to the sender. A
read is of `arg` bytes, and its data leave the device. -/
def execPeerAccessArrival (write : Bool) (addr : BitVec 48) (data : List Byte) (s : State) : Host.Outcome State Fault Refusal :=
  let q := s.queue s.foc.unit
  let p := mkPtr 0 addr.toNat
  .next (
    if s.foc.sub ≥ 12 ∨ (s.link s.foc.sub).state ≠ .up ∨ !q.open_ then s
    else if write then
      match s.peerReach q.part q.asid p data.length ⟨false, true, false⟩ with
      | some _ => s
      | none => if s.writeHeld (some q.part) q.asid p data.length false then s else (s.writeNow (some q.part) q.asid p data false).1
    else match s.peerReach q.part q.asid p s.foc.arg ⟨true, false, false⟩ with
      | some _ => s
      | none => (s.readNow (some q.part) q.asid intolerant p s.foc.arg ⟨true, false, false⟩).1)

end Sys2Proof.Machine
end

