-- ==== Sys2Proof/Machine/Host.lean ====
section
/-!
DEFINITION. The host and the health of the device: device reset and boot, the register page of a virtual function, and the power
controller (R259, R260, R375, R424 to R428, R454).
-/

namespace Sys2Proof.Machine

/-! ### Reset and boot (R259, R260, R454) -/

/-- DEVICE_RESET (R259, R454): every unit is as after reset and the ranges of the CXL ports are as they are enumerated. The bytes of
memory outside the compute dies and the host's window stay. DESIGN CHOICE (log 10), unsafe. DESIGN CHOICE (log 112), unsafe. -/
def execDeviceReset (gib0 gib1 gib2 gib3 : BitVec 15) (s : State) : Host.Outcome State Fault Refusal :=
  let g := [gib0.toNat, gib1.toNat, gib2.toNat, gib3.toNat]
  .next (
    if 16384 < g.sum then s
    else { State.reset with
      foc := s.foc, turns := s.turns, draws := s.draws, nextId := s.nextId, dram := s.dram, badLines := s.badLines, hostGib := s.hostGib,
      cxlen := [(0, gib0.toNat), (1, gib1.toNat), (2, gib2.toNat), (3, gib3.toNat)] })

/-- BOOT_WINDOW_ACCESS (R260): the host writes a byte of tile 0's private memory, or reads one; once the window is closed writes are
ignored and reads return all ones. -/
def execBootWindowAccess (write : Bool) (off : BitVec 18) (data : Byte) (s : State) : Host.Outcome State Fault Refusal :=
  .next (
    if s.booted then (if write then s else { s with hostRead := BitVec.allOnes 8 })
    else if write then s.locWrite (.priv 0 off.toNat) 1 data.toNat
    else { s with hostRead := mapGet 0 (s.core 0).mem off.toNat })

/-- BOOT_REGISTER_WRITE (R260): a value with bit 0 set starts tile 0's core at operator level, pc 0, and closes the boot window.
DEDUCED (log 30), unsafe. -/
def execBootRegisterWrite (v : DWord) (s : State) : Host.Outcome State Fault Refusal :=
  .next (
    if s.booted ∨ !v.toNat.testBit 0 then s
    else { s.modCore 0 fun c => { c.start s.now with level := 0, pc := 0 } with booted := true })

/-- The host reads the boot register (R260): 0 before the start, 1 after it. -/
def State.readBootRegister (s : State) : State := { s with hostRead := if s.booted then 1 else 0 }

/-- The host gives its window a capacity (R22), which holds the extents granted there. DESIGN CHOICE (log 142), unsafe. -/
def State.setHostSize (s : State) (gib : Nat) : State :=
  if s.parts.all fun e => e.2.extents.all fun x => x.1 / 16 != 3 || decide (x.2.1 + x.2.2 ≤ gib) then { s with hostGib := gib } else s

/-! ### Virtual functions (R375, R424 to R426) -/

/-- COMMAND_TAIL_WRITE (R424): the host writes the command tail of the function of the partition in focus; the steward's
program does the rest of R425. DESIGN CHOICE (log 154), unsafe. -/
def execCommandTailWrite (v : BitVec 32) (s : State) : Host.Outcome State Fault Refusal :=
  let p := s.foc.unit
  .next (if (s.part p).live then s.modPart p fun x => { x with hdb := v.toNat } else s)

/-- TDISP_LOCK (R375): the host locks or releases the interface of the partition in focus. -/
def execTdispLock (lock : Bool) (s : State) : Host.Outcome State Fault Refusal :=
  let p := s.foc.unit
  .next (if (s.part p).live then s.modPart p fun x => { x with locked := lock } else s)

/-- COMPLETION_HEAD_ADVANCE (R425, R426): the host writes doubleword 5 of the header of its command area for the partition in
focus. -/
def execCompletionHeadAdvance (v : BitVec 32) (s : State) : Host.Outcome State Fault Refusal :=
  let x := s.part s.foc.unit
  .next (if x.live then s.locWrite (hostLoc (x.area.toNat + 40)) 8 v.toNat else s)

/-- The host writes the base of a command area, 4 KiB aligned (R424). -/
def State.setHostArea (s : State) (p : Nat) (base : DWord) : State :=
  if (s.part p).live ∧ base.toNat % 4096 = 0 then s.modPart p fun x => { x with area := base } else s

/-- The interface versions (R427). -/
def interfaceVersions : DWord := 0x0001020101010101
/-- The host reads a byte of the register page of a function (R424): the interface versions, or the base of the command area; no other
offset can be read. -/
def State.readPage (s : State) (p off : Nat) : State :=
  let byte (v : DWord) : Byte := BitVec.ofNat 8 (bits v.toNat (8 * (off % 8)) 8)
  if !(s.part p).live then s
  else if off / 8 = 2 then { s with hostRead := byte interfaceVersions }
  else if off / 8 = 3 then { s with hostRead := byte (s.part p).area }
  else s

/-! ### Health and power (R428) -/

/-- At the end of a 4096-cycle window the bubble fraction rises or falls by 1/64, as the power estimate, a free value, lies above op.plim
or not, and the readings are refreshed (R428). DESIGN CHOICE (log 34), safe. -/
def State.closeWindow (s : State) : State :=
  if s.now / 4096 ≤ s.window then s
  else
    let above := decide (s.plim.toNat < (Config.freeWord s.nextId).toNat)
    { s.bumpId with window := s.window + 1, bubble := if above then Nat.min 63 (s.bubble + 1) else s.bubble - 1 }
/-- POWER_WINDOW (R428): a power window closes. -/
def execPowerWindow (s : State) : Host.Outcome State Fault Refusal := .next s.closeWindow

/-- The temperature reading of a tile in eighths of a degree. -/
def State.temperature (s : State) (r : Nat) : Int := (Config.healthReading 0 r s.window).toInt
/-- The bubble fraction at the sources of a tile, in 64ths (R428). -/
def State.bubbleOf (s : State) (r : Nat) : Nat := if s.hot.contains r then Nat.max 32 s.bubble else s.bubble

/-- THERMAL_LIMIT (R428): the tile in focus is at 105 °C or above. -/
def execThermalLimit (s : State) : Host.Outcome State Fault Refusal :=
  let r := s.foc.unit
  .next (if r < 512 ∧ 840 ≤ s.temperature r then { s with hot := insertOnce s.hot r } else s)
/-- TEMPERATURE_FALL (R428): the tile in focus is below 100 °C again. -/
def execTemperatureFall (s : State) : Host.Outcome State Fault Refusal :=
  let r := s.foc.unit
  .next (if s.temperature r < 800 then { s with hot := s.hot.filter (· != r) } else s)

end Sys2Proof.Machine
end

