-- ==== Sys2Proof/Machine/Matrix.lean ====
section
/-!
DEFINITION. The matrix array: the weight loader, the planes, MACC and the drain and preset of accumulator rows (R56, R216 to
R233).
-/

namespace Sys2Proof.Machine

/-! ### Planes and the loader (R218 to R222) -/

/-- Image words of a weight format (R218). -/
def planeWords (fmt : Nat) : Nat := if fmt = 5 then 2113 else 2048
/-- Load cycles of a weight format (R218). -/
def planeCycles (fmt : Nat) : Nat := if fmt = 5 then 133 else 128
/-- Plane depth Kp of a weight format (R218). -/
def planeDepth (fmt : Nat) : Nat := if fmt = 5 then 128 else if fmt = 1 ∨ fmt = 2 then 32 else 64
/-- The width of a weight. -/
def weightBits (fmt : Nat) : Nat := ((fmtOfCode fmt).map fmtBits).getD 8

/-- Word `w` of a plane's image; a plane that holds no image is zero. -/
def Plane.word (p : Plane) (w : Nat) : Nat := (mapGet 0 p.words w).toNat
/-- The superscale of a DQ4 plane. -/
def Plane.superscale (p : Plane) : Nat := p.word 2112
/-- The bits of weight (k, c) (R219). -/
def Plane.weight (p : Plane) (k c : Nat) : Nat :=
  let b := weightBits p.fmt
  let e := if p.t then k * 128 + c else c * planeDepth p.fmt + k
  bits (p.word (e * b / 32)) (e * b % 32) b
/-- The value of weight (k, c): a DQ4 weight is ±M × SB8, without the superscale (R47, R56). -/
def Plane.weightVal (p : Plane) (k c : Nat) : FVal :=
  if p.fmt = 5 then
    let i := 2 * c + k / 64
    dqUnscaled (p.weight k c) (bits (p.word (2048 + i / 4)) (8 * (i % 4)) 8)
  else elemVal ((fmtOfCode p.fmt).getD .fp16) (p.weight k c)

/-- MWLD (R220): starts a load of the shadow plane, once the loader is idle. -/
def execMwld (v : BitVec 5) (t q : BitVec 1) (fmt : BitVec 4) (s : State) : Host.Outcome State Fault Refusal :=
  .next (s.opWord fun x =>
    let g := s.mx x.r
    if g.loader.isSome then .stall s x.f 2
    else
      let base := x.lane0 v
      match (x.mt s q).plainFault ((List.range (planeWords fmt.toNat)).map (base + ·)) with
      | some (a, sub) => laneFault s 6 sub a
      | none =>
        .next (s.modMx x.r fun g => { g with
          shadow := ⟨.loading, fmt.toNat, t == 1, []⟩, loader := some ⟨q.toNat, base, s.now, 0, s.now + 1, false⟩ }) x.f 1)

/-- The loader reads its 16 words of cycle `now`, once in it: after every cell's access of that cycle and before any on port E
(R150, R220, R221). Each bad word of a tolerant region is one substitution. -/
def State.loaderReads (s : State) (r : Nat) : State :=
  let g := s.mx r
  match g.loader with
  | none => s
  | some l =>
    if s.now < l.next then s
    else
      let n := Nat.min 16 (planeWords g.shadow.fmt - l.done)
      let m := s.mtile r l.q
      let ws := (List.range n).map (l.done + ·)
      let bad := ws.filter fun w => m.poisoned.contains (l.base + w)
      let tol := (m.regionOf l.base).any MapRegion.tol
      let s := if tol then s.countSubs (s.owner r) bad.length else s
      let s := s.modMtile r l.q fun m => m.correctAll (ws.map (l.base + ·))
      s.modMx r fun g => { g with
        shadow := { g.shadow with words := ws.foldl (fun acc w =>
          mapSet acc w (if m.poisoned.contains (l.base + w) then 0 else m.word (l.base + w))) g.shadow.words },
        loader := some { l with done := l.done + n, next := s.now + 1, bad := l.bad || (!bad.isEmpty && !tol) } }

/-- PLANE_LOAD_COMPLETE (R220, R221): the shadow plane of the tile in focus becomes full or poisoned. -/
def execPlaneLoadComplete (s : State) : Host.Outcome State Fault Refusal :=
  let r := s.foc.unit
  .next (match (s.mx r).loader with
    | none => s
    | some l =>
      if l.issue + planeCycles (s.mx r).shadow.fmt < s.now ∧ planeWords (s.mx r).shadow.fmt ≤ l.done then
        (s.modMx r fun g => { g with
          shadow := { g.shadow with state := if l.bad then .poisoned else .full }, loader := none }).touch r
      else s)

/-- MWSW (R222): swaps the planes, once the shadow plane is not loading; a poisoned plane does not become active. -/
def execMwsw (s : State) : Host.Outcome State Fault Refusal :=
  .next (s.opWord fun x =>
    let g := s.mx x.r
    match g.shadow.state with
    | .loading => .stall s x.f 2
    | .poisoned => .fault s 13 0 0
    | _ => .next (s.modMx x.r fun g => { g with active := g.shadow, shadow := g.active }) x.f 1)

/-! ### MACC (R223 to R227) -/

/-- The activations of a MACC and the segments of a legal pair of formats (R223). -/
def pairShape (weights acts : Nat) : Option (Nat × Nat) :=
  let half (f : Nat) := f == 1 || f == 2
  let byte (f : Nat) := f == 3 || f == 4
  if half weights && half acts then some (32, 1)
  else if byte weights && byte acts then some (64, 1)
  else if weights == 6 && (acts == 6 || acts == 7) then some (64, 1)
  else if weights == 5 && half acts then some (32, 4)
  else if weights == 5 && byte acts then some (64, 2)
  else none

/-- The operand row of a MACC: 16 words (R224). -/
def OpCtx.operandRow (x : OpCtx) (v : BitVec 5) : List Word :=
  if x.size = 1 then x.reg v ++ x.f.reg x.lanes (v.toNat + 1) else (x.reg v).take 16
/-- Activation `k` of an operand row. -/
def rowElem (row : List Word) (b k : Nat) : Nat := elemOf b (k % (32 / b)) (row.getD (k / (32 / b)) 0)

/-- One float accumulator value after a segment: groups of eight products, each group summed exactly and added with one
rounding (R56). -/
def macFloat (pol : Policy) (prods : List (FVal × Conds)) (acc : Nat) : Nat × Conds :=
  (chunks 8 prods.length prods).foldl (fun (a : Nat × Conds) g =>
    let (sum, c) := fsumExact (g.map Prod.fst)
    let (t, d) := faddExact (decodeFloat .fp32 a.1) sum
    let (v, e) := roundNE .fp32 t
    (pol.fix .fp32 v, (((g.foldl (fun k p => k.join p.2) a.2).join c).join d).join e)) (acc, noConds)

/-- One integer accumulator value after a segment (R56): wraps, or saturates under that policy. -/
def macInt (pol : Policy) (prods : List Int) (acc : Nat) : Nat × Conds :=
  (chunks 8 prods.length prods).foldl (fun (a : Nat × Conds) g =>
    let t := signed 32 a.1 + g.sum
    let (lo, hi) := intRange .int32
    if lo ≤ t ∧ t ≤ hi then (wrapNat 32 t, a.2)
    else (wrapNat 32 (if pol = .saturate then (if t < lo then lo else hi) else t), a.2.join condOV)) (acc, noConds)

/-- The values of a row; those of an empty row are zero. -/
def AccRow.value (w : AccRow) (c : Nat) : Nat := (w.vals.getD c 0).toNat

/-- A row after one operand row has been multiplied into it, and the conditions (R225). -/
def macRow (p : Plane) (pol : Policy) (actFmt seg k : Nat) (operand : List Word) (w : AccRow) : AccRow × Conds :=
  let af := (fmtOfCode actFmt).getD .fp16
  let int := p.fmt == 6
  let res := (List.range 128).map fun c =>
    if int then
      macInt pol ((List.range k).map fun i =>
        decodeInt af (rowElem operand (fmtBits af) i) * decodeInt .int8 (p.weight (seg * k + i) c)) (w.value c)
    else
      macFloat pol ((List.range k).map fun i =>
        fmulExact (elemVal af (rowElem operand (fmtBits af) i)) (p.weightVal (seg * k + i) c)) (w.value c)
  (⟨if int then 2 else 1, some (if p.fmt = 5 then some p.superscale else none), res.map fun v => BitVec.ofNat 32 v.1⟩,
    res.foldl (fun c v => c.join v.2) noConds)

/-- The accumulator row `i` of an array. -/
def Matrix.row (g : Matrix) (i : Nat) : AccRow := mapGet AccRow.empty g.rows i

/-- FM with a subcode: recorded, and raised as cause 10 (R143, R231). -/
def OpCtx.formatFault (x : OpCtx) (s : State) (sub : Nat) : OpEnd := .fault (x.record s condFM) 10 sub 0

/-- MACC (R225, R227): the update completes six cycles later. Under the trap policy a faulting MACC leaves its row, and
later ones of the firing are discarded. -/
def execMacc (v row : BitVec 5) (z : BitVec 1) (seg : BitVec 2) (fmt : BitVec 4) (s : State) :
    Host.Outcome State Fault Refusal :=
  .next (s.opWord fun x =>
    let g := s.mx x.r
    let p := g.active
    match p.state, pairShape p.fmt fmt.toNat with
    | .empty, _ => x.formatFault s 1
    | _, none => x.formatFault s 2
    | _, some (k, segs) =>
      let old := if z = 1 then AccRow.empty else g.row row.toNat
      let kind := if p.fmt = 6 then 2 else 1
      let tag := if p.fmt = 5 then some p.superscale else none
      if seg.toNat ≥ segs then x.formatFault s 3
      else if old.kind ≠ 0 ∧ (old.kind ≠ kind ∨ old.tag ≠ some tag) then x.formatFault s 4
      else
        let s := s.modMx x.r fun g => { g with macAt := s.now, acct := g.acct.enter 0 s.now }
        if x.f.macTrap.isSome then .next s x.f 1
        else
          let (new, c) := macRow p x.policy fmt.toNat seg.toNat k (x.operandRow v) old
          let trapped := x.policy == .trap && c.arith
          let f := { x.f with
            maccs := x.f.maccs ++ [⟨row.toNat, s.now + 6, c.toBits⟩],
            macTrap := if trapped then some (s.now + 7) else none }
          .next (if trapped then s else s.modMx x.r fun g => { g with rows := mapSet g.rows row.toNat new }) f 1)

/-- MACC_COMPLETE (R227): the updates of the firing of the cell in focus that are due have completed, and their conditions
are recorded. -/
def execMaccComplete (s : State) : Host.Outcome State Fault Refusal :=
  let r := s.foc.unit
  let k := s.foc.sub
  .next (match (s.cell r k).firing with
    | none => s
    | some f =>
      let due := f.maccs.filter fun m => decide (m.done < s.now)
      if due.isEmpty then s
      else (s.modCell r k fun c =>
        { due.foldl (fun (c : Cell) m => c.record f.actor m.cond) c with
          firing := some { f with maccs := f.maccs.filter fun m => !decide (m.done < s.now) } }).touch r)

/-! ### Drain and preset (R228 to R230) -/

/-- The fields of a drain descriptor (R228). -/
structure Drain where
  row  : Nat
  keep : Bool
  dfmt : Nat
  ctl  : Nat
  rsv  : Bool

/-- A drain descriptor from its word. DEDUCED (log 58), unsafe. -/
def drainOf (d : Nat) : Drain := ⟨bits d 0 5, d.testBit 10, bits d 11 4, bits d 15 9, bits d 24 8 != 0 || bits d 5 5 != 0⟩

/-- The element width of a drain format, where it suits a row of a kind (0 unset, 1 float, 2 integer) (R228). -/
def drainWidth (kind dfmt : Nat) : Option Nat :=
  let float := decide (dfmt ≤ 4)
  let int := dfmt == 9 || dfmt == 8 || dfmt == 6 || dfmt == 7
  if (float && kind != 2) || (int && kind != 1) then (fmtOfCode dfmt).map fmtBits else none
/-- The registers a drain or preset uses. -/
def drainRegs (size b : Nat) : Nat := ceilDiv 128 (8 * size * (32 / b))
/-- The column at element `e` of lane `i` of register `j` (R229). -/
def drainCol (size b j i e : Nat) : Nat := (j * 8 * size + i) * (32 / b) + e

/-- A drained value of a column, and its conditions (R229): the value as it stands, but for a row with a superscale, whose product
the policy in force governs. -/
def OpCtx.drainVal (x : OpCtx) (d : Drain) (w : AccRow) (c : Nat) : Nat × Conds :=
  let (v, k) := match w.tag with
    | some (some t) => let p := mul32 (w.value c) t; (x.policy.fix .fp32 p.1, p.2)
    | _ => (w.value c, noConds)
  if d.dfmt = 0 ∨ d.dfmt = 9 then (v, k)
  else
    let (mode, sat) := convPair d.ctl (x.f.alt && x.a.sp) x.policy
    let dst := (fmtOfCode d.dfmt).getD .fp16
    let (o, l) := convertElem (if isIntFmt dst then .int32 else .fp32) dst mode sat v
    (o, k.join l)

/-- The wait of a MAST for the firing's MACCs into its row (R229). -/
def OpCtx.rowBusy (x : OpCtx) (row : Nat) : Bool := x.f.maccs.any fun m => m.row == row

/-- MAST, drain (R229). -/
def execMast (v vn : BitVec 5) (s : State) : Host.Outcome State Fault Refusal :=
  .next (s.opWord fun x =>
    let d := drainOf (x.lane0 vn)
    let w := (s.mx x.r).row d.row
    match drainWidth w.kind d.dfmt with
    | none => x.formatFault s 5
    | some b =>
      let n := drainRegs x.size b
      if d.rsv || !ctlOk (BitVec.ofNat 9 d.ctl) || decide (v.toNat + n - 1 > 31) then x.formatFault s 5
      else if x.rowBusy d.row then .stall s x.f 2
      else
        let vals := (List.range 128).map fun c => x.drainVal d w c
        let cond := vals.foldl (fun k r => k.join r.2) noConds
        let s := x.record s cond
        if x.policy == .trap && cond.arith then .fault s 10 0 0
        else
          let f := (List.range n).foldl (fun (f : Firing) j =>
            f.setReg (v.toNat + j) ((List.range x.lanes).map fun i =>
              BitVec.ofNat 32 (packElems b ((List.range (32 / b)).map fun e =>
                (vals.getD (drainCol x.size b j i e) (0, noConds)).1)))) x.f
          .next (s.modMx x.r fun g => { g with
            rows := if d.keep then g.rows else mapDel g.rows d.row, acct := g.acct.enter 1 s.now }) f 1)

/-- MAST, preset (R229): moves bits and raises no arithmetic condition. -/
def execMastPreset (v vn : BitVec 5) (s : State) : Host.Outcome State Fault Refusal :=
  .next (s.opWord fun x =>
    let d := drainOf (x.lane0 vn)
    let n := drainRegs x.size 32
    if d.rsv || d.keep || d.ctl != 0 || (d.dfmt != 0 && d.dfmt != 9) || decide (v.toNat + n - 1 > 31) then
      x.formatFault s 5
    else if x.rowBusy d.row then .stall s x.f 2
    else
      let vals := (List.range 128).map fun c => lane (x.f.reg x.lanes (v.toNat + c / x.lanes)) (c % x.lanes)
      .next (s.modMx x.r fun g => { g with
        rows := mapSet g.rows d.row ⟨if d.dfmt = 0 then 1 else 2, some none, vals⟩, acct := g.acct.enter 1 s.now }) x.f 1)

end Sys2Proof.Machine
end

