-- ==== Sys2Proof/Machine/Transport.lean ====
section
/-!
DEFINITION. What moves by itself in the fabric: items from the endpoints of a tile into its router and through its crossbar,
items on rerouted links, and the errors that the environment brings to stored words (R91, R166, R171 to R174, R213, R329).
-/

namespace Sys2Proof.Machine

/-- The cell of tile `r` is a copy whose outputs on a port are collected at copy 0 (R93). -/
def State.collected (s : State) (r k p : Nat) : Bool :=
  (s.cell r k).actors.any fun a => decide (a.copy > 0 ∧ a.rate p > 0)

/-- An item that leaves an output or token port of a cell goes into the rerouted link that leaves there (R213), or to where the
port leads. A token on the select port acts as a CNEXT, unless a wavefront was in flight as it was sent (R206); a token port
that leads nowhere drops what is sent on it. -/
def State.giveOut (s : State) (r k p : Nat) (i : Item) : Option State :=
  match if p = 8 then mapFind s.wires (8192 + 16 * r + k) else none with
  | some w => s.pushWire (8192 + 16 * r + k) w i
  | none => match s.leadsTo r k p with
    | some e => s.acceptEnd e i
    | none =>
      if 16 ≤ p ∧ !s.collected r k p then
        some (match s.selectsAt r k p, i with
          | some im, .data _ flying => if flying = 0 then s.selectToken r im (tokenBit i) else s
          | _, _ => s)
      else none

/-- Output or token port `p` of a cell gives its next item to what it leads to, at most one a cycle. -/
def State.moveCell (s : State) (r k p : Nat) : State :=
  if (8 ≤ p ∧ p < 16) ∨ (16 ≤ p ∧ entOut ((s.cell r k).entry p)) then
    match s.emitCell r k p with
    | none => s
    | some (i, s') => match s'.giveOut r k p i with
      | none => s
      | some s' => s'.touch r
  else s

/-- The next item of output Y of utility node `u` that local port `k` takes (R174, R456). -/
def State.moveUtil (s : State) (r k u : Nat) : State :=
  let s := if (s.fab r).frozen then s else s.modFab r fun f => f.modUx u fun x => x.refill (f.uxSize u) s.now
  match s.emitUtil r u with
  | none => s
  | some (i, s') => ((s'.acceptRouter r (4 + k) 0 i).map fun t => t.touch r).getD s

/-- The next item of the scan engine's output that local port `k` takes (R174, R244). -/
def State.moveScan (s : State) (r k : Nat) : State :=
  match popTok s.now (s.scan r).outq with
  | none => s
  | some (i, rest) => match s.acceptRouter r (4 + k) 0 i with
    | none => s
    | some s' => (s'.modScan r fun g => ({ g with outq := rest, leftAt := s.now + 1 } : Scan).settle s.now).touch r

/-- The source of local port `k` offers its next item to the router (R174). A cell's output moves by its own link, and a queue
region's pop is STREAM_QUEUE_ACCESS. -/
def State.moveLocal (s : State) (r k : Nat) : State :=
  let c := (s.router r).source k
  match codeKind c with
  | 1 => s.emitGen r (c % 4)
  | 5 => s.moveUtil r k (bits c 2 1)
  | 6 => s.moveScan r k
  | _ => s

/-- The head of a rerouted link reaches its end (R213). -/
def State.moveWire (s : State) (r key : Nat) : State :=
  match mapFind s.wires key with
  | none => s
  | some w => match popTok s.now w.items with
    | none => s
    | some (i, rest) =>
      match ({ s with wires := mapSet s.wires key { w with items := rest } } : State).acceptEnd w.dest i with
      | none => s
      | some s' => s'.touch r

/-- A link of tile `r` moves: 0 to 3 what feeds a local port, 4 + 20 × cell + port an output of a cell, 400 + 2 × cell and the
next one the rerouted links of a cell. -/
def State.moveLink (s : State) (r link : Nat) : State :=
  if link < 4 then s.moveLocal r link
  else if link < 324 then s.moveCell r ((link - 4) / 20) ((link - 4) % 20)
  else if 400 ≤ link ∧ link < 432 then
    s.moveWire r (16 * r + (link - 400) / 2 + (if link % 2 = 0 then 0 else 8192))
  else s

/-- An error that the environment brings to a stored word: one that ECC corrects, or one that it does not (R166, R255, R329).
DEDUCED (log 14), unsafe. -/
def State.upset (s : State) (loc : Loc) (hard : Bool) : State :=
  match loc with
  | .dram t a => if hard then { s with badLines := s.badLines ++ (if s.badLines.contains (t, a / 64) then [] else [(t, a / 64)]) } else s
  | .mtile r q off =>
    if off / 4 < tileWords then
      s.modMtile r q fun m =>
        if hard then { m with poisoned := insertOnce m.poisoned (off / 4), soft := m.soft.erase (off / 4) }
        else if m.poisoned.contains (off / 4) then m else { m with soft := insertOnce m.soft (off / 4) }
    else s
  | .priv r off =>
    if hard ∧ off < privSize then s.modCore r fun c => { c with poisoned := insertOnce c.poisoned (off / 4) } else s
  | .slice _ _ _ => s
  | .peer _ _ => s

end Sys2Proof.Machine
end

