-- ==== Sys2Proof/Machine/Clock.lean ====
section
/-!
DEFINITION. The end of a fabric cycle: what the weight loaders read in it, the category in which each unit counts it, the
watchdogs, and what begins with the next one (R103, R171, R196, R220, R233, R254, R291, R319, R323, R341, R352, R363, R365, R369 to
R371, R401, R404, R418, R419, R428).
-/

namespace Sys2Proof.Machine

/-- A unit that has done nothing in this cycle counts it in a category; one that has entered a category in it stays there.
DEDUCED (log 50), unsafe. -/
def Acct.rest (a : Acct) (cat now : Nat) : Acct := if a.since = now ∨ a.cat = cat then a else a.enter cat now

/-- Whether a cell of a fabric is a member of a fused set other than its lowest: such a cell counts nothing (R103). -/
def Fabric.fusedInto (f : Fabric) (k : Nat) : Bool :=
  f.cells.any fun e => decide (e.1 < k ∧ k < e.1 + e.2.size)

/-- The category of a cell in a cycle in which no firing of it issues or stalls (R103). Category 8 is not counted. -/
def Fabric.cellCat (f : Fabric) (k : Nat) (c : Cell) (now : Nat) : Nat :=
  if f.fusedInto k then 8
  else if f.frozen ∨ c.frozen then 3
  else if now < c.readyAt then 4
  else if c.actors.isEmpty then 5
  else if !c.actors.any (c.ready now) && c.actors.any (c.hasInputs now) then 6
  else 7

/-- A cell at the end of a cycle (R103). -/
def Fabric.tickCell (f : Fabric) (k : Nat) (c : Cell) (now : Nat) : Cell :=
  if c.firing.any fun x => !x.dead && decide (x.first ≤ now) then c
  else { c with acct := c.acct.rest (f.cellCat k c now) now }

/-- The category of a generator that has issued and accepted nothing in this cycle (R196), the first that matches: a walk, a reply
with nothing to issue, a full downstream, a bubble. -/
def State.genCat (s : State) (r g : Nat) : Nat :=
  match (s.gen r g).stream with
  | none => 6
  | some t =>
    if t.ended then 6
    else if s.walks.any fun w => w.who.contains (.gen r g) then 1
    else if spbDir t.spb = 1 ∨ spbDir t.spb = 2 then
      if (((s.router r).portOfGen g).any fun k => !(mapGet [] (s.router r).outq k).isEmpty) || !t.commit.isEmpty then 2 else 5
    else match t.head with
      | none => if s.now < (s.gen r g).bubble ∧ (s.genReads r g = 0 ∨ (t.issues ∧ t.waiting < 64)) then 4 else 2
      | some i => if s.now < (s.gen r g).bubble ∧ (s.acceptRouter r (4 + spbPort t.spb) 0 i).isSome then 4 else 3
/-- A generator at the end of a cycle. DEDUCED (log 35), safe. -/
def State.tickGen (s : State) (r g : Nat) : State :=
  if s.now < (s.gen r g).nextAt then s
  else s.modGen r g fun x => { x with acct := x.acct.rest (s.genCat r g) s.now }

/-- The category of a utility node that has done nothing in this cycle (R196). -/
def Util.restCat (x : Util) : Nat := if x.mode = 0 then 3 else if !x.outY.isEmpty || !x.pend.isEmpty then 1 else 2
/-- The category of a matrix array in which no MACC and no MAST has issued in this cycle (R233). -/
def Matrix.restCat (g : Matrix) (now : Nat) : Nat :=
  if g.loader.any fun l => decide (l.issue < now) then 2 else if g.active.state = .full ∨ g.active.state = .poisoned then 3 else 4
/-- The category of a scan engine that has processed nothing in this cycle (R254). DEDUCED (log 132), safe. -/
def Scan.restCat (g : Scan) (now : Nat) : Nat :=
  if g.hold.any fun o => o.vals.any fun v => v.waits && !(g.chainIn.any fun c => c.gen == v.gen) then 1
  else if (g.hold.head?.any ScanOut.free) || (g.leftAt != now + 1 && (peekHead now g.outq).isSome) then 2
  else if g.opw.isSome && g.inq.isEmpty then 3
  else 4
/-- The conditions of a scan engine's cycle join its status (R253). -/
def Scan.noteCycle (g : Scan) : Scan := { g with iv := g.iv || g.ivNew, ov := g.ov || g.ovNew, ivNew := false, ovNew := false }
/-- A tile at the end of a cycle: its loader reads, and every unit counts the cycle. -/
def State.tickTile (s : State) (r : Nat) : State :=
  let s := s.loaderReads r
  let s := ((s.fab r).gens.map Prod.fst).foldl (fun s g => s.tickGen r g) s
  s.modFab r fun f => { f with
    cells := f.cells.map fun e => (e.1, f.tickCell e.1 e.2 s.now),
    mx := { f.mx with acct := f.mx.acct.rest (f.mx.restCat s.now) s.now },
    scan := { f.scan.noteCycle with acct := f.scan.acct.rest (f.scan.restCat s.now) s.now },
    ux0 := { f.ux0 with acct := f.ux0.acct.rest f.ux0.restCat s.now },
    ux1 := { f.ux1 with acct := f.ux1.acct.rest f.ux1.restCat s.now } }

/-- Whether an access of a kind brings a reply to its unit: a read, a load or an AMO; a store and a TSIG bring none. -/
def AccKind.replies : AccKind → Bool
  | .load _ => true
  | .store => false
  | .amo op => op != .tsig
/-- Whether something that R404 names has happened in a region in this cycle. -/
def State.progress (s : State) (g : Region) : Bool :=
  let ranks := g.ranks
  g.moved ||
  ranks.any (fun r =>
    let f := s.fab r
    f.cells.any (fun e => e.2.firing.any fun x => !x.dead) || f.mx.loader.isSome ||
      [f.mx.acct, f.scan.acct, f.ux0.acct, f.ux1.acct].any (fun a => a.cat == 0) ||
      f.gens.any (fun e => e.2.acct.cat == 0)) ||
  s.accs.any (fun a => a.kind.replies && (match a.who with
    | .core r => ranks.contains r
    | .gen r _ => ranks.contains r
    | _ => false)) ||
  (s.engine (g.lead / 4)).queues.any fun e => e.2.cmds.any fun c =>
    !c.sched && c.core == g.lead && c.done.isNone && c.fault.isNone && decide (s.now ≤ c.promise)

/-- The watchdog of a region at the end of a cycle (R404). DEDUCED (log 51), unsafe. -/
def State.watch (s : State) (lead : Nat) : State :=
  match s.region? lead with
  | none => s
  | some g =>
    s.modRegion lead fun x => { x with
      moved := false, wdog := if x.frozen then x.wdog else if s.progress g then 0 else x.wdog + 1 }

/-- In the cycle that begins, a bubble may stand at a generator that reads: it issues nothing else (R171, R428). -/
def State.bubbleAt (s : State) (r g : Nat) : State :=
  let x := s.gen r g
  if x.stream.any (fun t => !t.ended && (spbDir t.spb == 0 || spbDir t.spb == 3)) ∧ 0 < s.bubbleOf r then
    let s' := { s with draws := s.draws + 1 }
    if (Config.freeWord s.draws).toNat % 64 < s.bubbleOf r then
      s'.modGen r g fun x => { x with bubble := s.now + 1 }
    else s'
  else s

/-- Copy engines and agents count the cycle in its category (R323, R352). -/
def State.tickEngines (s : State) : State :=
  let s := { s with engines := s.engines.map fun (e : Nat × Engine) =>
    (e.1, { e.2 with acct := e.2.acct.enter (s.engineCat e.1) s.now }) }
  (List.range 10).foldl (fun s a =>
    if (s.agent a).acct.cat = s.agentCat a then s
    else s.modAgent a fun g => { g with acct := g.acct.enter (s.agentCat a) s.now }) s

/-- What the end of this cycle brings: a host request that its agent hears (R341). -/
def State.close (s : State) : Later → State
  | .request q agent => s.hearRequest q agent
  | _ => s

/-- An effect that begins with this cycle. -/
def State.begin (s : State) : Later → State
  | .thaw ranks => s.setFrozen ranks false
  | .cond r k a b => s.modCell r k fun c => c.record a b
  | .miss r q => s.modMtile r q MTile.countMiss
  | .sub p n => s.modPart p fun x => { x with subcnt := satAdd countMax x.subcnt n }
  | .rights p sub grant m => if (s.part p).live then s.changeRights ⟨p, sub⟩ grant m else s
  | .deleg level num v => s.setDeleg level num v
  | .quota p sub code v => if (s.part p).live then s.setQuota ⟨p, sub⟩ code v else s
  | .revoke p key => s.revokeExtent p key
  | .slice base => s.startSlice base
  | .push p tier => s.modPart p fun x => { x with fpnew := mapDel x.fpnew tier }
  | .mask p set m => if (s.part p).live then s.setMask p set m else s
  | .bind p cls b => if (s.part p).live then s.setBinding p cls b else s
  | .rerun r => s.rerun r
  | .request _ _ => s

/-- The fabric clock goes on to the next cycle, with which what was deferred begins: the scheduler has
its pool (R291), and promises that the counter has passed are missed (R319). A region that has stood still freezes (R405), and a power
window closes (R428), by the end of the cycle at the latest. DESIGN CHOICE (log 4), safe. -/
def State.tick (s : State) : State :=
  let ranks := s.tiles.map Prod.fst
  let s := (ranks.foldl State.tickTile s).tickEngines
  let s := (s.regions.map Prod.fst).foldl (fun s r => (s.expireWatch r).watch r) s.closeWindow
  let s := (s.later.foldl State.close s).breakMoves
  let s := s.later.foldl State.begin { s with now := s.now + 1, later := [] }
  let s := s.retryDones.fillPool.missPromises
  ranks.foldl (fun s r => ((s.fab r).gens.map Prod.fst).foldl (fun s g => s.bubbleAt r g) s) s

end Sys2Proof.Machine
end

