-- ==== Sys2Proof/Machine/Alu.lean ====
section
/-!
DEFINITION. Integer, bit and immediate words of the control core (R265, R266, R267).
-/

namespace Sys2Proof.Machine

/-- A word that writes a function of ga and gb to gd and occupies the core for `cycles` (R265, R258). -/
def aluWord (s : State) (gd ga gb : BitVec 5) (cycles : Nat) (f : DWord → DWord → DWord) : State :=
  s.word [ga, gb] [gd] fun r => .retire (s.setReg r gd (f (s.reg r ga) (s.reg r gb))) cycles

/-- A word that writes a function of ga to gd in one cycle (R266, R267). -/
def aluWord1 (s : State) (gd ga : BitVec 5) (f : DWord → DWord) : State :=
  s.word [ga] [gd] fun r => .retire (s.setReg r gd (f (s.reg r ga))) 1

/-- A Bool as a 64-bit 1 or 0. -/
def flag64 (b : Bool) : DWord := if b then 1 else 0

/-- The high 64 bits of the signed product (R265). -/
def mulHigh (a b : DWord) : DWord := BitVec.ofInt 64 ((a.toInt * b.toInt) / 2 ^ 64)
/-- The high 64 bits of the unsigned product (R265). -/
def mulHighU (a b : DWord) : DWord := BitVec.ofNat 64 (a.toNat * b.toNat / 2 ^ 64)
/-- The signed quotient rounded toward zero, with the results at the limits (R265). -/
def divSigned (a b : DWord) : DWord := if b = 0 then BitVec.allOnes 64 else BitVec.ofInt 64 (a.toInt.tdiv b.toInt)
/-- The unsigned quotient (R265). -/
def divUnsigned (a b : DWord) : DWord := if b = 0 then BitVec.allOnes 64 else BitVec.ofNat 64 (a.toNat / b.toNat)
/-- The signed remainder, with the sign of ga (R265). -/
def remSigned (a b : DWord) : DWord := if b = 0 then a else BitVec.ofInt 64 (a.toInt.tmod b.toInt)
/-- The unsigned remainder (R265). -/
def remUnsigned (a b : DWord) : DWord := if b = 0 then a else BitVec.ofNat 64 (a.toNat % b.toNat)

/-- The number of leading zero bits of 64 (R266). -/
def leadingZeros (a : DWord) : DWord := BitVec.ofNat 64 (64 - bitLen a.toNat)
/-- The number of trailing zero bits of 64 (R266). -/
def trailingZeros (a : DWord) : DWord :=
  BitVec.ofNat 64 (((List.range 64).find? fun i => a.toNat.testBit i).getD 64)

/-- The field position of BEXT and BINS: lo = gb[5:0] and wid = gb[11:6] + 1 (R266). -/
def fieldOf (b : DWord) : Nat × Nat := (bits b.toNat 0 6, bits b.toNat 6 6 + 1)
/-- ga[lo + wid − 1 : lo], zero-extended (R266). -/
def extractField (a b : DWord) : DWord := BitVec.ofNat 64 (bits a.toNat (fieldOf b).1 (fieldOf b).2)
/-- gd with bits lo to lo + wid − 1 replaced by ga[wid − 1 : 0], positions above 63 dropped (R266). -/
def insertField (d a b : DWord) : DWord :=
  BitVec.ofNat 64 (setBits d.toNat (fieldOf b).1 (Nat.min (fieldOf b).2 (64 - (fieldOf b).1)) a.toNat)


/-- ADD (R265). -/
def execAdd (gd ga gb : BitVec 5) (s : State) : Host.Outcome State Fault Refusal :=
  .next (aluWord s gd ga gb 1 fun a b => a + b)

/-- SUB (R265). -/
def execSub (gd ga gb : BitVec 5) (s : State) : Host.Outcome State Fault Refusal :=
  .next (aluWord s gd ga gb 1 fun a b => a - b)

/-- AND (R265). -/
def execAnd (gd ga gb : BitVec 5) (s : State) : Host.Outcome State Fault Refusal :=
  .next (aluWord s gd ga gb 1 fun a b => a &&& b)

/-- OR (R265). -/
def execOr (gd ga gb : BitVec 5) (s : State) : Host.Outcome State Fault Refusal :=
  .next (aluWord s gd ga gb 1 fun a b => a ||| b)

/-- XOR (R265). -/
def execXor (gd ga gb : BitVec 5) (s : State) : Host.Outcome State Fault Refusal :=
  .next (aluWord s gd ga gb 1 fun a b => a ^^^ b)

/-- SLL (R265). -/
def execSll (gd ga gb : BitVec 5) (s : State) : Host.Outcome State Fault Refusal :=
  .next (aluWord s gd ga gb 1 fun a b => a <<< (b.toNat % 64))

/-- SRL (R265). -/
def execSrl (gd ga gb : BitVec 5) (s : State) : Host.Outcome State Fault Refusal :=
  .next (aluWord s gd ga gb 1 fun a b => a >>> (b.toNat % 64))

/-- SRA (R265). -/
def execSra (gd ga gb : BitVec 5) (s : State) : Host.Outcome State Fault Refusal :=
  .next (aluWord s gd ga gb 1 fun a b => a.sshiftRight (b.toNat % 64))

/-- SLT (R265). -/
def execSlt (gd ga gb : BitVec 5) (s : State) : Host.Outcome State Fault Refusal :=
  .next (aluWord s gd ga gb 1 fun a b => flag64 (a.slt b))

/-- SLTU (R265). -/
def execSltu (gd ga gb : BitVec 5) (s : State) : Host.Outcome State Fault Refusal :=
  .next (aluWord s gd ga gb 1 fun a b => flag64 (a.ult b))

/-- MUL (R265). -/
def execMul (gd ga gb : BitVec 5) (s : State) : Host.Outcome State Fault Refusal :=
  .next (aluWord s gd ga gb 3 fun a b => a * b)

/-- MULH (R265). -/
def execMulh (gd ga gb : BitVec 5) (s : State) : Host.Outcome State Fault Refusal :=
  .next (aluWord s gd ga gb 3 fun a b => mulHigh a b)

/-- MULHU (R265). -/
def execMulhu (gd ga gb : BitVec 5) (s : State) : Host.Outcome State Fault Refusal :=
  .next (aluWord s gd ga gb 3 fun a b => mulHighU a b)

/-- DIV (R265). -/
def execDiv (gd ga gb : BitVec 5) (s : State) : Host.Outcome State Fault Refusal :=
  .next (aluWord s gd ga gb 20 fun a b => divSigned a b)

/-- DIVU (R265). -/
def execDivu (gd ga gb : BitVec 5) (s : State) : Host.Outcome State Fault Refusal :=
  .next (aluWord s gd ga gb 20 fun a b => divUnsigned a b)

/-- REM (R265). -/
def execRem (gd ga gb : BitVec 5) (s : State) : Host.Outcome State Fault Refusal :=
  .next (aluWord s gd ga gb 20 fun a b => remSigned a b)

/-- REMU (R265). -/
def execRemu (gd ga gb : BitVec 5) (s : State) : Host.Outcome State Fault Refusal :=
  .next (aluWord s gd ga gb 20 fun a b => remUnsigned a b)

/-- MIN (R265). -/
def execMin (gd ga gb : BitVec 5) (s : State) : Host.Outcome State Fault Refusal :=
  .next (aluWord s gd ga gb 1 fun a b => if a.slt b then a else b)

/-- MAX (R265). -/
def execMax (gd ga gb : BitVec 5) (s : State) : Host.Outcome State Fault Refusal :=
  .next (aluWord s gd ga gb 1 fun a b => if b.slt a then a else b)

/-- MINU (R265). -/
def execMinu (gd ga gb : BitVec 5) (s : State) : Host.Outcome State Fault Refusal :=
  .next (aluWord s gd ga gb 1 fun a b => if a.ult b then a else b)

/-- MAXU (R265). -/
def execMaxu (gd ga gb : BitVec 5) (s : State) : Host.Outcome State Fault Refusal :=
  .next (aluWord s gd ga gb 1 fun a b => if b.ult a then a else b)

/-- CLZ (R266). -/
def execClz (gd ga : BitVec 5) (s : State) : Host.Outcome State Fault Refusal :=
  .next (aluWord1 s gd ga fun a => leadingZeros a)

/-- CTZ (R266). -/
def execCtz (gd ga : BitVec 5) (s : State) : Host.Outcome State Fault Refusal :=
  .next (aluWord1 s gd ga fun a => trailingZeros a)

/-- POPC (R266). -/
def execPopc (gd ga : BitVec 5) (s : State) : Host.Outcome State Fault Refusal :=
  .next (aluWord1 s gd ga fun a => BitVec.ofNat 64 (popCount 64 a.toNat))

/-- BEXT (R266). -/
def execBext (gd ga gb : BitVec 5) (s : State) : Host.Outcome State Fault Refusal :=
  .next (aluWord s gd ga gb 1 extractField)

/-- BINS (R266): gd is read before it is written. -/
def execBins (gd ga gb : BitVec 5) (s : State) : Host.Outcome State Fault Refusal :=
  .next (s.word [gd, ga, gb] [gd] fun r =>
    .retire (s.setReg r gd (insertField (s.reg r gd) (s.reg r ga) (s.reg r gb))) 1)

/-- PTAG (R266): 1 if ga passes step 1 of R64 for its own space. -/
def execPtag (gd ga : BitVec 5) (s : State) : Host.Outcome State Fault Refusal :=
  .next (aluWord1 s gd ga fun a => flag64 (ptrFormOk a))

/-- PSPACE (R266): a pointer of space gb[3:0] with offset ga[47:0]. -/
def execPspace (gd ga gb : BitVec 5) (s : State) : Host.Outcome State Fault Refusal :=
  .next (aluWord s gd ga gb 1 fun a b => BitVec.ofNat 64 (bits b.toNat 0 4 * 2 ^ 60 + bits a.toNat 0 48))

/-- PRANK (R266): ga with [58:50] := gb[8:0]. -/
def execPrank (gd ga gb : BitVec 5) (s : State) : Host.Outcome State Fault Refusal :=
  .next (aluWord s gd ga gb 1 fun a b => BitVec.ofNat 64 (setBits a.toNat 50 9 b.toNat))

/-- PADD (R266): ga with its offset advanced by gb. -/
def execPadd (gd ga gb : BitVec 5) (s : State) : Host.Outcome State Fault Refusal :=
  .next (aluWord s gd ga gb 1 fun a b => ptrAdd a b.toNat)

/-- ADDI (R267). -/
def execAddi (gd ga : BitVec 5) (imm : BitVec 16) (s : State) : Host.Outcome State Fault Refusal :=
  .next (aluWord1 s gd ga fun a => a + imm.signExtend 64)

/-- ANDI (R267). -/
def execAndi (gd ga : BitVec 5) (imm : BitVec 16) (s : State) : Host.Outcome State Fault Refusal :=
  .next (aluWord1 s gd ga fun a => a &&& imm.zeroExtend 64)

/-- ORI (R267). -/
def execOri (gd ga : BitVec 5) (imm : BitVec 16) (s : State) : Host.Outcome State Fault Refusal :=
  .next (aluWord1 s gd ga fun a => a ||| imm.zeroExtend 64)

/-- XORI (R267). -/
def execXori (gd ga : BitVec 5) (imm : BitVec 16) (s : State) : Host.Outcome State Fault Refusal :=
  .next (aluWord1 s gd ga fun a => a ^^^ imm.zeroExtend 64)

/-- SLTI (R267). -/
def execSlti (gd ga : BitVec 5) (imm : BitVec 16) (s : State) : Host.Outcome State Fault Refusal :=
  .next (aluWord1 s gd ga fun a => flag64 (a.slt (imm.signExtend 64)))

/-- SLTUI (R267). -/
def execSltui (gd ga : BitVec 5) (imm : BitVec 16) (s : State) : Host.Outcome State Fault Refusal :=
  .next (aluWord1 s gd ga fun a => flag64 (a.ult (imm.signExtend 64)))

/-- SLLI (R267). -/
def execSlli (gd ga : BitVec 5) (sh : BitVec 6) (s : State) : Host.Outcome State Fault Refusal :=
  .next (aluWord1 s gd ga fun a => a <<< sh.toNat)

/-- SRLI (R267). -/
def execSrli (gd ga : BitVec 5) (sh : BitVec 6) (s : State) : Host.Outcome State Fault Refusal :=
  .next (aluWord1 s gd ga fun a => a >>> sh.toNat)

/-- SRAI (R267). -/
def execSrai (gd ga : BitVec 5) (sh : BitVec 6) (s : State) : Host.Outcome State Fault Refusal :=
  .next (aluWord1 s gd ga fun a => a.sshiftRight sh.toNat)

/-- LUI (R67): gd := SignExt(imm16, 64) × 2^16. -/
def execLui (gd : BitVec 5) (imm : BitVec 16) (s : State) : Host.Outcome State Fault Refusal :=
  .next (s.word [] [gd] fun r => .retire (s.setReg r gd (imm.signExtend 64 <<< 16)) 1)

/-- ADDPC (R67): gd := address of the ADDPC + SignExt(imm16, 64) × 4. -/
def execAddpc (gd : BitVec 5) (imm : BitVec 16) (s : State) : Host.Outcome State Fault Refusal :=
  .next (s.word [] [gd] fun r =>
    .retire (s.setReg r gd (BitVec.ofNat 64 (s.core r).pc + (imm.signExtend 64 <<< 2))) 1)

end Sys2Proof.Machine
end

