-- ==== Sys2Proof/Machine/Branch.lean ====
section
/-!
DEFINITION. Branches, jumps and hardware loops of the control core (R29, R68, R69, R268 to R270).
-/

namespace Sys2Proof.Machine

/-- The address `n` words from `pc`, modulo 2^18 (R60). -/
def wordsFrom (pc : Nat) (n : Int) : Nat := (((pc : Int) + n * 4) % 262144).toNat

/-- A branch: to its own address + SignExt(disp16) × 4 where the condition holds, else to the next word (R68). -/
def branchWord (s : State) (ga gb : BitVec 5) (disp : BitVec 16) (cond : DWord → DWord → Bool) : State :=
  s.word [ga, gb] [] fun r =>
    if cond (s.reg r ga) (s.reg r gb) then .jump s (wordsFrom (s.core r).pc disp.toInt) else .retire s 1

/-- BR.EQ (R68). -/
def execBrEq (ga gb : BitVec 5) (imm : BitVec 16) (s : State) : Host.Outcome State Fault Refusal :=
  .next (branchWord s ga gb imm fun a b => a == b)
/-- BR.NE (R68). -/
def execBrNe (ga gb : BitVec 5) (imm : BitVec 16) (s : State) : Host.Outcome State Fault Refusal :=
  .next (branchWord s ga gb imm fun a b => a != b)
/-- BR.LT (R68). -/
def execBrLt (ga gb : BitVec 5) (imm : BitVec 16) (s : State) : Host.Outcome State Fault Refusal :=
  .next (branchWord s ga gb imm fun a b => a.slt b)
/-- BR.GE (R68). -/
def execBrGe (ga gb : BitVec 5) (imm : BitVec 16) (s : State) : Host.Outcome State Fault Refusal :=
  .next (branchWord s ga gb imm fun a b => !a.slt b)
/-- BR.LO (R68). -/
def execBrLo (ga gb : BitVec 5) (imm : BitVec 16) (s : State) : Host.Outcome State Fault Refusal :=
  .next (branchWord s ga gb imm fun a b => a.ult b)
/-- BR.HS (R68). -/
def execBrHs (ga gb : BitVec 5) (imm : BitVec 16) (s : State) : Host.Outcome State Fault Refusal :=
  .next (branchWord s ga gb imm fun a b => !a.ult b)

/-- The link of a jump at `pc`: the address of the next word. -/
def linkOf (pc : Nat) : DWord := BitVec.ofNat 64 ((pc + 4) % privSize)

/-- JMPL (R68). -/
def execJmpl (gd : BitVec 5) (imm : BitVec 21) (s : State) : Host.Outcome State Fault Refusal :=
  .next (s.word [] [gd] fun r =>
    .jump (s.setReg r gd (linkOf (s.core r).pc)) (wordsFrom (s.core r).pc imm.toInt))

/-- Whether a value is a legal JR target: a word-aligned byte offset in private memory (R68). -/
def jrTargetOk (a : DWord) : Bool := decide (a.toNat < privSize ∧ a.toNat % 4 = 0)

/-- JR (R68): a bad target raises cause 2 with tval = ga. -/
def execJr (ga : BitVec 5) (s : State) : Host.Outcome State Fault Refusal :=
  .next (s.word [ga] [] fun r =>
    if jrTargetOk (s.reg r ga) then .jump s (s.reg r ga).toNat else .trap s 2 (s.reg r ga))

/-- JRL (R68): JR that also writes the link; a link register that is also the target is read before it is written
(R268). -/
def execJrl (gd ga : BitVec 5) (s : State) : Host.Outcome State Fault Refusal :=
  .next (s.word [ga] [gd] fun r =>
    if jrTargetOk (s.reg r ga) then .jump (s.setReg r gd (linkOf (s.core r).pc)) (s.reg r ga).toNat
    else .trap s 2 (s.reg r ga))

/-- The count of a LOOP: an immediate, or the register that bits [18:14] name (R29, R69). -/
def loopCount (s : State) (r : Nat) (k : BitVec 1) (cnt : BitVec 9) : Nat :=
  if k = 0 then cnt.toNat else (s.reg r (cnt.setWidth 5)).toNat

/-- The bits of a LOOP word whose len is 0 (R69), which tval holds when that word raises cause 0 (R60). -/
def loopBits (lvl : BitVec 2) (k : BitVec 1) (cnt : BitVec 9) : Nat :=
  0x14 * 2 ^ 26 + lvl.toNat * 2 ^ 24 + k.toNat * 2 ^ 23 + cnt.toNat * 2 ^ 14

/-- LOOP (R29, R69): sets the level's start, end and count; a count of 0 skips the body.
DEDUCED (log 22), unsafe. -/
def execLoop (lvl : BitVec 2) (k : BitVec 1) (cnt : BitVec 9) (len : BitVec 14) (s : State) :
    Host.Outcome State Fault Refusal :=
  .next (s.word (if k = 0 ∨ len = 0 then [] else [cnt.setWidth 5]) [] fun r =>
    if len = 0 then .trap s 0 (BitVec.ofNat 64 (loopBits lvl k cnt))
    else
      let pc := (s.core r).pc
      let lsa := (pc + 4) % privSize
      let lea := (lsa + 4 * (len.toNat - 1)) % privSize
      let n := loopCount s r k cnt
      let s' := s.modCore r fun c => c.modBank c.level fun b =>
        { lct := mapSet b.lct lvl.toNat (BitVec.ofNat 64 n), lsa := mapSet b.lsa lvl.toNat lsa,
          lea := mapSet b.lea lvl.toNat lea }
      if n = 0 then .jump s' (lea + 4) else .retire s' 1)

/-- The bank after LEXIT of level `n`: lct of `n`, and of every other active level whose range lies within that of `n`,
is 0 (R270). -/
def LoopBank.exit (b : LoopBank) (n : Nat) : LoopBank :=
  let inside (k : Nat) : Bool :=
    decide (k = n ∨ (b.count k > 0 ∧ b.start n ≤ b.start k ∧ b.stop k ≤ b.stop n))
  ([0, 1, 2, 3].filter inside).foldl (fun b k => b.setCount k 0) b

/-- LEXIT (R270): a level that is not active has no effect, and no end-of-body check follows it (R269). -/
def execLexit (n : BitVec 5) (s : State) : Host.Outcome State Fault Refusal :=
  .next (s.word [] [] fun r =>
    let b := (s.core r).bank (s.core r).level
    if b.count n.toNat = 0 then .jump s ((s.core r).pc + 4)
    else .jump (s.modCore r fun c => c.modBank c.level fun b => b.exit n.toNat) (b.stop n.toNat + 4))

/-- The loop register that `n` names: 0 to 3 lct, 4 to 7 lsa, 8 to 11 lea (R73). -/
def LoopBank.read (b : LoopBank) (n : Nat) : DWord :=
  if n < 4 then mapGet 0 b.lct n
  else if n < 8 then BitVec.ofNat 64 (b.start (n - 4))
  else BitVec.ofNat 64 (b.stop (n - 8))

/-- LREAD (R270). -/
def execLread (gd n : BitVec 5) (s : State) : Host.Outcome State Fault Refusal :=
  .next (s.word [] [gd] fun r =>
    .retire (s.setReg r gd (((s.core r).bank (s.core r).level).read n.toNat)) 1)

end Sys2Proof.Machine
end

