-- ==== Sys2Proof/Machine/Channels.lean ====
section
/-!
DEFINITION. RECV and SEND on every port: reserved items and slots of the cell's own channels, queue regions, the scan engine
and utility nodes (R79, R98, R108, R110, R165, R191, R243).
-/

namespace Sys2Proof.Machine

/-- The items of an engine port are taken into v, v + 1, … and the last one's tag is recorded (R108). -/
def OpCtx.takeItems (x : OpCtx) (port : Nat) (pm : BitVec 4) : Nat → List Item → Firing → Firing
  | _, [], f => f
  | v, i :: is, f => x.takeItems port pm (v + 1) is { x.fill f pm v i with lastTag := mapSet f.lastTag port i.tag }

/-- RECV on a queue region (R165, R167). -/
def OpCtx.recvQueue (x : OpCtx) (s : State) (v q n idx : Nat) (pm : BitVec 4) : OpEnd :=
  let m := s.mtile x.r q
  match m.regionAt idx 2 with
  | none => .fault s 6 1 0
  | some g =>
    let h := m.queue idx
    let es := h.items.take n
    if es.length < n ∨ es.any fun e => !e.present s.now x.size then .stall s x.f 2
    else
      let ws := (List.range n).flatMap fun p => (List.range (8 * x.size)).map (g.tokenWord h x.size p 0 + ·)
      match if g.tol then none else ws.find? m.poisoned.contains with
      | some a => laneFault s 13 0 a
      | none =>
        let items := (List.range n).filterMap (m.queueItem g h x.size)
        let s := if m.anyBad ws then s.countSub (s.owner x.r) else s
        .next (s.modMtile x.r q fun m => (m.correctAll ws).popQueue g x.size n)
          (x.takeItems (20 + q) pm v items x.f) 1

/-- SEND to a queue region (R165). -/
def OpCtx.sendQueue (x : OpCtx) (s : State) (v q n idx : Nat) (pm : BitVec 4) : OpEnd :=
  let m := s.mtile x.r q
  match m.regionAt idx 2 with
  | none => .fault s 6 1 0
  | some g =>
    if (m.queue idx).items.length + n > g.capacity x.size then .stall s x.f 2
    else
      .next (s.modMtile x.r q fun m => (List.range n).foldl (fun (m : MTile) j =>
        m.pushQueue g x.size s.now (.data (x.tokens x.f pm (v + j)) 0)) m) x.f 1

/-- RECV on a utility port (R191). -/
def OpCtx.recvUtil (x : OpCtx) (s : State) (v u n : Nat) (lvl : BitVec 3) (flg pm : BitVec 4) : OpEnd :=
  let s := s.modFab x.r fun f => f.modUx u fun y => y.refill x.size s.now
  let y := (s.fab x.r).ux u
  let l := y.outY.take n
  if l.length < n ∨ l.any fun h => decide (h.ready > s.now) || !h.item.counts || !h.item.whole x.size then .stall s x.f 2
  else
    let f := x.takeItems (24 + u) pm v (l.map Held.item) x.f
    .next (s.modFab x.r fun fb => fb.modUx u fun y =>
        let dropped := (l.map fun h => h.item.toks.length).sum
        { y with outY := y.outY.drop n, grants := y.grants.drop dropped })
      (x.markTest f lvl flg (mapGet 0 f.lastTag (24 + u))) 1

/-- SEND to input A of a utility node (R191). -/
def OpCtx.sendUtil (x : OpCtx) (s : State) (v u n : Nat) (pm : BitVec 4) : OpEnd :=
  if ((s.fab x.r).ux u).inA.length + n > 2 then .stall s x.f 2
  else
    .next (s.modFab x.r fun fb => fb.modUx u fun y =>
      { y with inA := y.inA ++ (List.range n).map fun j => ⟨.data (x.tokens x.f pm (v + j)) 0, s.now + 1⟩ }) x.f 1

/-- RECV (R108, R165, R191, R243). -/
def execRecv (v port n : BitVec 5) (lvl : BitVec 3) (flg pm : BitVec 4) (s : State) : Host.Outcome State Fault Refusal :=
  .next (s.opWord fun x =>
    let p := port.toNat
    let cnt := n.toNat + 1
    if p < 20 then
      match x.recvFrom p pm cnt v.toNat x.f with
      | none => .fault s 11 1 0
      | some (f, tag) => .next s (x.markTest f lvl flg tag) 1
    else if p < 22 then x.recvQueue s v.toNat (p - 20) cnt lvl.toNat pm
    else if p = 23 then x.recvScan s v.toNat lvl flg pm
    else x.recvUtil s v.toNat (p - 24) cnt lvl flg pm)

/-- SEND (R110, R165, R191, R243): where a slot is lacking on a channel, the items before it have been sent. -/
def execSend (v port n : BitVec 5) (lvl : BitVec 3) (flg pm : BitVec 4) (s : State) : Host.Outcome State Fault Refusal :=
  .next (s.opWord fun x =>
    let p := port.toNat
    let cnt := n.toNat + 1
    if p < 20 then
      let (short, s', f) := x.sendTo p pm cnt v.toNat s x.f
      if short then .fault s' 11 1 0 else .next s' f 1
    else if p < 22 then x.sendQueue s v.toNat (p - 20) cnt lvl.toNat pm
    else if p = 23 then x.sendScan s v.toNat n.toNat lvl.toNat flg.toNat pm
    else x.sendUtil s v.toNat (p - 24) cnt pm)

end Sys2Proof.Machine
end

