-- ==== Sys2Proof/Machine/SysRegs.lean ====
section
/-!
DEFINITION. The system registers, as SYSR reads them and SYSW writes them, and the writes that have a behaviour of their own (R72,
R104, R143, R168, R196, R233, R253, R254, R261 to R264, R284, R295, R322, R323, R330, R331, R335, R352, R362, R363, R365, R366,
R402 to R405, R407, R410, R418, R423, R424, R427, R428, R436, R437, R454).
-/

namespace Sys2Proof.Machine

/-! ### Names and levels (R72, R261) -/

/-- The numbers that are defined at a level besides the trap and loop registers, which every level has. -/
def sysNumbers (level : Nat) : List Nat :=
  if level = 0 then [0x110, 0x111, 0x112, 0x113, 0x114, 0x115, 0x184, 0x185, 0x201, 0x202, 0x203, 0x204, 0x205, 0x206]
  else if level = 1 then
    [0x100, 0x101, 0x102, 0x103, 0x104, 0x105, 0x106, 0x107, 0x108, 0x109, 0x10A, 0x10B, 0x10C, 0x181, 0x182, 0x183, 0x186, 0x208,
     0x209, 0x283, 0x284]
  else if level = 2 then
    [0x40, 0x41, 0x42, 0x43, 0x44, 0x45, 0x46, 0x47, 0x48, 0x49, 0x4A, 0x4B, 0x4C, 0xC0, 0xC1, 0x180, 0x187, 0x280, 0x281, 0x282]
  else [0x20, 0x21, 0x22, 0x80, 0xC2, 0xC3, 0x200]
/-- Whether a number is defined at a level. -/
def sysDefined (level num : Nat) : Bool :=
  decide (num ≤ 7) || decide (0x10 ≤ num ∧ num ≤ 0x1B) || (sysNumbers level).contains num

/-- The low `n` bits of a value. -/
def lowBits (v : DWord) (n : Nat) : DWord := BitVec.ofNat 64 (v.toNat % 2 ^ n)
/-- Some bits of a value, kept in place. -/
def keepBits (v m : DWord) : DWord := v &&& m

/-! ### Trap and loop registers (R261, R262, R365, R436) -/

/-- The partition whose copy of op.deleg a core reads and writes: its own, or on a tile that none owns the one that op.qsel names
(R365, R436). -/
def State.delegPart (s : State) (r : Nat) : Option Nat :=
  match s.owner r with
  | some p => some p
  | none =>
    let p := bits (s.core r).opqsel.toNat 10 12
    if p < 64 ∧ (s.part p).live then some p else none

/-- deleg of a level. -/
def State.readDeleg (s : State) (r level : Nat) : DWord :=
  match level with
  | 0 => (s.delegPart r).elim 0 fun p => (s.part p).opDeleg
  | 1 => (s.owner r).elim 0 fun p => (s.part p).pmDeleg
  | 2 => (s.core r).rtDeleg
  | _ => 0
/-- The state with deleg of a level written: the new mask governs the faults of the next cycle on (R365). -/
def State.writeDeleg (s : State) (r level : Nat) (v : DWord) : State :=
  let v := lowBits v 24
  match level with
  | 0 => (s.delegPart r).elim s fun p => s.defer (.deleg 0 p v)
  | 1 => (s.owner r).elim s fun p => s.defer (.deleg 1 p v)
  | 2 => s.defer (.deleg 2 r v)
  | _ => s

/-- A trap or loop register of a level. -/
def State.readTrapReg (s : State) (r level num : Nat) : DWord :=
  let c := s.core r
  let t := c.trap level
  let b := c.bank level
  match num with
  | 0 => t.cause
  | 1 => t.epc
  | 2 => t.val
  | 3 => t.stat
  | 4 => t.vec
  | 5 => s.readDeleg r level
  | 6 => t.scr
  | 7 => t.pbound
  | _ =>
    if num < 0x14 then BitVec.ofNat 64 (b.count (num - 0x10))
    else if num < 0x18 then BitVec.ofNat 64 (b.start (num - 0x14))
    else BitVec.ofNat 64 (b.stop (num - 0x18))

/-- The bound that a write of a pbound sets: the writer's own bound where the value lies below it (R257). -/
def State.newBound (s : State) (r : Nat) (v : DWord) : DWord :=
  let own := ((s.core r).trap (s.core r).level).pbound
  if (keepBits v 0x3F000).toNat < own.toNat then own else keepBits v 0x3F000

/-- The state with a trap or loop register of a level written. -/
def State.writeTrapReg (s : State) (r level num : Nat) (v : DWord) : State :=
  let trap (f : TrapRegs → TrapRegs) : State := s.modCore r fun c => c.modTrap level f
  let bank (f : LoopBank → LoopBank) : State := s.modCore r fun c => c.modBank level f
  match num with
  | 0 => trap fun t => { t with cause := lowBits v 6 }
  | 1 => trap fun t => { t with epc := keepBits v 0x3FFFC }
  | 2 => trap fun t => { t with val := v }
  | 3 => (trap fun t => { t with stat := lowBits v 3 }).ihCleared r level
  | 4 => trap fun t => { t with vec := keepBits v 0x3FFFC }
  | 5 => s.writeDeleg r level v
  | 6 => trap fun t => { t with scr := v }
  | 7 => if level = 0 then s else trap fun t => { t with pbound := s.newBound r v }
  | _ =>
    if num < 0x14 then bank fun b => { b with lct := mapSet b.lct (num - 0x10) v }
    else if num < 0x18 then bank fun b => { b with lsa := mapSet b.lsa (num - 0x14) (v.toNat % privSize) }
    else bank fun b => { b with lea := mapSet b.lea (num - 0x18) (v.toNat % privSize) }

/-! ### Task level (R263, R295, R322, R427) -/

/-- The outstanding counters (R263). -/
def Core.counters (c : Core) : DWord :=
  BitVec.ofNat 64 (c.ocTl % 256 * 2 ^ 24 + c.ocCp % 256 * 2 ^ 16 + c.ocSt % 256 * 2 ^ 8 + c.ocLd % 256)
/-- A register of task level. -/
def State.readTask (s : State) (r num : Nat) : DWord :=
  let c := s.core r
  match num with
  | 0x20 => c.counters
  | 0x21 => BitVec.ofNat 64 c.level
  | 0x22 => BitVec.ofNat 64 r
  | 0x80 => BitVec.ofNat 64 (((s.regionOf r).elim 0 fun g => (s.awake g).length) % 1024 * 2 ^ 54)
  | 0xC2 => c.cpbin
  | 0xC3 => c.cpbout
  | _ => interfaceVersions

/-! ### Runtime level (R104, R143, R168, R196, R233, R253, R254, R284, R323, R362, R363, R402 to R404) -/

/-- A count of a unit as SYSR sees it. -/
def countWord (a : Acct) (cat now : Nat) : DWord := BitVec.ofNat 64 (a.read cat now)
/-- The account of the unit that rt.usel names (R196). -/
def State.unitAcct (s : State) (r unit : Nat) : Option Acct :=
  if unit < 4 then some (s.gen r unit).acct
  else if unit < 6 then some ((s.fab r).ux (unit - 4)).acct else none
/-- rt.acond of a cell (R143). -/
def Cell.condWord (c : Cell) : Nat := ([0, 1, 2, 3].map fun a => mapGet 0 c.cond a % 16 * 2 ^ (4 * a)).sum
/-- A cell whose conditions named by a mask are cleared. -/
def Cell.clearCond (c : Cell) (m : Nat) : Cell :=
  { c with cond := [0, 1, 2, 3].foldl (fun (l : NMap Nat) a =>
      mapMod 0 l a fun x => x &&& (15 - bits m (4 * a) 4)) c.cond }
/-- rt.mtstat (R168). -/
def Fabric.tileCounts (f : Fabric) : DWord :=
  BitVec.ofNat 64 (f.q1.rmiss % 65536 * 2 ^ 48 + f.q0.rmiss % 65536 * 2 ^ 32 + f.q1.cecc % 65536 * 2 ^ 16 + f.q0.cecc % 65536)
/-- rt.scstat (R253). -/
def Scan.statusWord (g : Scan) : DWord :=
  let w := (g.opw.getD 0).toNat
  BitVec.ofNat 64 ((g.last.elim 0 Prod.fst) % 256 * 2 ^ 40 + g.ogen % 256 * 2 ^ 32 + g.closes.length % 8 * 2 ^ 29 +
    g.heldResults % 8192 * 2 ^ 16 + bits w 11 1 * 128 + bits w 0 3 * 16 + b2n g.ov * 2 + b2n g.iv)
/-- rt.fab (R402): the region's fields on its lead core alone. -/
def State.faultWord (s : State) (r : Nat) : DWord :=
  let c := s.core r
  let own := c.elost % 256 * 2 ^ 40 + b2n c.abort
  let g := (s.region? r).elim 0 fun g =>
    g.voids % 65536 * 2 ^ 48 + g.flost % 256 * 2 ^ 32 + b2n g.sv * 2 ^ 9 + b2n g.fz * 2 ^ 8
  BitVec.ofNat 64 (own + g)
/-- Whether a core that runs at runtime level may read counters (R363, R437): its partition and its sub-partition hold right 5.
DEDUCED (log 26), unsafe. -/
def State.mayCount (s : State) (r : Nat) : Bool :=
  match s.owner r with
  | none => true
  | some p => (s.core r).level != 2 ||
      ((s.part p).rights.testBit 5 && (s.subp (s.core r).subp).part == p && (s.subp (s.core r).subp).rights.testBit 5)

/-- A register of runtime level. -/
def State.readRuntime (s : State) (r num : Nat) : DWord :=
  let c := s.core r
  let f := s.fab r
  let sel (v : DWord) : Nat := v.toNat % 8
  match num with
  | 0x40 => c.cstsel
  | 0x41 => countWord (s.cell r (bits c.cstsel.toNat 3 4)).acct (sel c.cstsel) s.now
  | 0x42 => BitVec.ofNat 64 (s.cell r (bits c.cstsel.toNat 3 4)).condWord
  | 0x43 => f.tileCounts
  | 0x44 => c.usel
  | 0x45 => (s.unitAcct r (bits c.usel.toNat 3 3)).elim 0 fun a => countWord a (sel c.usel) s.now
  | 0x46 => c.mxsel
  | 0x47 => countWord f.mx.acct (sel c.mxsel) s.now
  | 0x48 => f.scan.statusWord
  | 0x49 => c.scsel
  | 0x4A => countWord f.scan.acct (sel c.scsel) s.now
  | 0x4B => c.ccsel
  | 0x4C => countWord c.acct (sel c.ccsel) s.now
  | 0xC0 => c.cesel
  | 0xC1 => countWord (s.engine (r / 4)).acct (sel c.cesel) s.now
  | 0x180 => BitVec.ofNat 64 c.asid
  | 0x187 =>
    let x := s.subp c.subp
    if x.live then BitVec.ofNat 64 (x.tiers % 16 * 256 + x.rights % 64) else 0
  | 0x280 => s.faultWord r
  | 0x282 => BitVec.ofNat 64 ((s.region? r).elim 0 fun g => g.wdog % 2 ^ 24)
  | _ => 0

/-! ### Partition level (R330, R331, R335, R362, R363, R366, R407, R418, R424) -/

/-- limit and used of a resource (R366). -/
def State.quotaWord (s : State) (p : Nat) (sub : Option Nat) (code : Nat) : DWord :=
  BitVec.ofNat 64 (s.quotaLimit p sub code % 2 ^ 32 * 2 ^ 32 + s.quotaUsed p sub code % 2 ^ 32)
/-- A ring's control register (R331). -/
def ringWord (size head count : Nat) : DWord :=
  BitVec.ofNat 64 (size % 65536 * 2 ^ 32 + head % 65536 * 2 ^ 16 + count % 65536)

/-- A register of partition level, on a tile that partition `p` owns. DESIGN CHOICE (log 27), unsafe. -/
def State.readPart (s : State) (r p num : Nat) : DWord :=
  let x := s.part p
  let c := s.core r
  match num with
  | 0x109 => x.nqbase
  | 0x10A => ringWord x.nqsize x.nqhead x.nqcount
  | 0x10B => BitVec.ofNat 64 x.nqlost
  | 0x10C => BitVec.ofNat 64 x.subcnt
  | 0x183 =>
    let t := bits c.pmqsel.toNat 10 12
    let code := c.pmqsel.toNat % 16
    if t = 0 then s.quotaWord p none code
    else if (s.subp (t - 1)).live ∧ (s.subp (t - 1)).part = p then s.quotaWord p (some (t - 1)) code else 0
  | 0x186 => BitVec.ofNat 64 (x.rights % 64)
  | 0x208 => BitVec.ofNat 64 (x.pkmask % 65536)
  | 0x209 => BitVec.ofNat 64 x.hdb
  | 0x283 => x.psave
  | 0x284 => x.pstride
  | _ =>
    if num < 0x104 then mapGet 0 x.fpbase (num - 0x100)
    else if num < 0x108 then
      let k := num - 0x104
      ringWord (mapGet 0 x.fpsize k) (mapGet 0 x.fphead k) (mapGet 0 x.fpcount k)
    else 0

/-! ### Operator level (R352, R366, R423, R428, R454) -/

/-- The number of a link's state (R423). -/
def LinkState.code : LinkState → Nat
  | .down => 0
  | .training => 1
  | .up => 2
  | .lost => 3
/-- op.lkstat (R423). -/
def Link.statusWord (l : Link) : DWord :=
  BitVec.ofNat 64 (l.replays % 2 ^ 32 * 2 ^ 32 + l.state.code * 2 ^ 14 + l.ver % 4 * 2 ^ 12 + b2n l.half * 2 ^ 11 + l.spares % 4 * 512)
/-- op.hval (R428): a reading of the last window. -/
def State.healthWord (s : State) (sel : Nat) : DWord :=
  let kind := bits sel 9 2
  let r := bits sel 0 9
  if kind = 3 then BitVec.ofNat 64 (s.bubbleOf r) else (Config.healthReading kind r s.window).setWidth 64

/-- A register of operator level. -/
def State.readOper (s : State) (r num : Nat) : DWord :=
  let c := s.core r
  match num with
  | 0x110 => c.gasel
  | 0x111 =>
    let a := bits c.gasel.toNat 3 4
    if a < 10 then countWord (s.agent a).acct (c.gasel.toNat % 8) s.now else 0
  | 0x184 => c.opqsel
  | 0x185 =>
    let p := bits c.opqsel.toNat 10 12
    if p < 64 ∧ (s.part p).live then s.quotaWord p none (c.opqsel.toNat % 16) else 0
  | 0x201 => s.plim
  | 0x202 => c.hsel
  | 0x203 => s.healthWord c.hsel.toNat
  | 0x204 => c.lksel
  | 0x205 =>
    let e := mapGet 0 s.peers (c.lksel.toNat % 512)
    if e.toNat % 16 < 12 then e else lowBits e 63
  | 0x206 =>
    let p := c.lksel.toNat % 16
    if p < 12 then (s.link p).statusWord else 0
  | _ => BitVec.ofNat 64 (mapGet 0 s.cxlen (num - 0x112))

/-! ### SYSR (R264) -/

/-- The value of a register that is defined. -/
def State.sysRead (s : State) (r level num : Nat) : DWord :=
  if num ≤ 0x1B then s.readTrapReg r level num
  else if level = 0 then s.readOper r num
  else if level = 1 then
    if num = 0x181 then BitVec.ofNat 64 (s.core r).subp
    else if num = 0x182 then (s.core r).pmqsel
    else (s.owner r).elim 0 fun p => s.readPart r p num
  else if level = 2 then s.readRuntime r num
  else s.readTask r num

/-- The level rule and the numbers of R72: what a word that names a register raises, if anything. `w` is the word.
DEDUCED (log 25), unsafe. -/
def State.sysFault (s : State) (r level num w : Nat) : Option WordEnd :=
  if level < (s.core r).level then some (s.trapFree 1)
  else if !sysDefined level num then some (.trap s 0 (BitVec.ofNat 64 w))
  else none

/-- SYSR (R264, R363). -/
def execSysr (gd : BitVec 5) (sysreg : BitVec 12) (s : State) : Host.Outcome State Fault Refusal :=
  let level := sysreg.toNat / 1024
  let num := sysreg.toNat % 1024
  .next (s.word [] [gd] fun r =>
    match s.sysFault r level num (encode (.sysr gd sysreg)) with
    | some e => e
    | none =>
      if 0x40 ≤ num ∧ num ≤ 0x4C ∧ !s.mayCount r then s.trapFree 1
      else .retire (s.setReg r gd (s.sysRead r level num)) 1)

/-! ### Writes with a behaviour of their own (R331, R362, R403) -/

/-- Where slot `i` of a tier's pool ring lies. -/
def State.poolSlot (s : State) (p tier i : Nat) : Option (Nat × Nat) :=
  let base := mapGet 0 (s.part p).fpbase tier
  let off := ptrOff base + 8 * i
  if ptrFormOk base && ptrSpace base == 7 then
    (s.stageC (some p) (off / 2 ^ 46 % 4) (off % 2 ^ 46)).map fun a => (off / 2 ^ 46 % 4, a)
  else none

/-- A write of pm.fpush (R331): a frame is appended to a tier's pool ring, where a take of this cycle does not see it; a full ring, or
one of size 0, raises cause 23, and a ring that cannot be reached the cause of the failing stage or of its lost link. -/
def State.fpushWord (s : State) (r : Nat) (v : DWord) : WordEnd :=
  let tier := bits v.toNat 62 2
  match s.owner r with
  | none => .trap s 23 v
  | some p =>
    let x := s.part p
    let size := mapGet 0 x.fpsize tier
    let count := mapGet 0 x.fpcount tier
    if size ≤ count then .trap s 23 v
    else
      let base := mapGet 0 x.fpbase tier
      match s.poolSlot p tier ((mapGet 0 x.fphead tier + count) % size) with
      | some (t, a) =>
        if s.lostLine t a then .trap s 19 base
        else if s.writeBlocked t a 8 then .wait s 5
        else
          .retire (((s.writeHome (.dram t a) 8 (bits v.toNat 0 36)).modPart p fun x =>
            { x with fpcount := mapSet x.fpcount tier (count + 1), fpnew := mapMod 0 x.fpnew tier (· + 1) }).defer (.push p tier)) 1
      | none => .trap s (if ptrFormOk base && ptrSpace base == 7 then 5 else 3) base
/-- PM_FPUSH_WRITE (R331). -/
def execPmFpushWrite (v : BitVec 64) (s : State) : Host.Outcome State Fault Refusal :=
  let r := s.foc.unit
  .next (s.endWord r (s.fpushWord r v))

/-- A write of the size of a pool ring (`ring` 0 to 3) or of the notification ring (4), which empties it (R331). -/
def State.ringSizeWord (s : State) (r ring : Nat) (v : DWord) : WordEnd :=
  let size := bits v.toNat 32 16
  match s.owner r with
  | none => .retire s 1
  | some p => .retire (s.modPart p fun x =>
      if ring < 4 then
        { x with fpsize := mapSet x.fpsize ring size, fphead := mapSet x.fphead ring 0, fpcount := mapSet x.fpcount ring 0,
                 fpnew := mapDel x.fpnew ring }
      else { x with nqsize := size, nqhead := 0, nqcount := 0 }) 1
/-- RING_SIZE_WRITE (R331). -/
def execRingSizeWrite (ring : Nat) (v : BitVec 64) (s : State) : Host.Outcome State Fault Refusal :=
  let r := s.foc.unit
  .next (s.endWord r (s.ringSizeWord r ring v))

/-- A write of rt.side (R403): it acts where the named cell is frozen and its actor has SP = 1. -/
def State.sideWord (s : State) (r : Nat) (v : DWord) : WordEnd :=
  let k := bits v.toNat 16 9
  let cell := bits v.toNat 12 4
  match s.regionOf r with
  | none => .retire s 1
  | some g =>
    let t := g.lead + k
    let c := s.cell t cell
    if k < 2 ^ g.lgn ∧ (s.fab t).frozen ∧ c.actors.any Actor.sp then
      .retire (s.modCell t cell fun c => c.sideToken s.now (v.toNat.testBit 0)) 1
    else .retire s 1
/-- RT_SIDE_WRITE (R403). -/
def execRtSideWrite (v : BitVec 64) (s : State) : Host.Outcome State Fault Refusal :=
  let r := s.foc.unit
  .next (s.endWord r (s.sideWord r v))

/-- A write of rt.asid (R362): an ASID of another sub-partition raises cause 1. DEDUCED (log 28), unsafe. -/
def State.asidWord (s : State) (r : Nat) (v : DWord) : WordEnd :=
  let a := bits v.toNat 0 12
  if (s.asid a).live ∧ (s.asid a).subp ≠ (s.core r).subp then s.trapFree 1
  else .retire (s.modCore r fun c => { c with asid := a }) 1
/-- RT_ASID_WRITE (R362). -/
def execRtAsidWrite (v : BitVec 64) (s : State) : Host.Outcome State Fault Refusal :=
  let r := s.foc.unit
  .next (s.endWord r (s.asidWord r v))

/-! ### Plain writes -/

/-- A write of a register of task level. -/
def State.writeTask (s : State) (r num : Nat) (v : DWord) : State :=
  match num with
  | 0xC2 => s.modCore r fun c => { c with cpbin := v }
  | 0xC3 => s.modCore r fun c => { c with cpbout := v }
  | _ => s

/-- A write of a register of runtime level. -/
def State.writeRuntime (s : State) (r num : Nat) (v : DWord) : State :=
  let set (f : Core → Core) : State := s.modCore r f
  match num with
  | 0x40 => set fun c => { c with cstsel := lowBits v 7 }
  | 0x42 => s.modCell r (bits (s.core r).cstsel.toNat 3 4) fun c => c.clearCond v.toNat
  | 0x43 => s.modFab r fun f => { f with
      q0 := { f.q0 with cecc := bits v.toNat 0 16, rmiss := bits v.toNat 32 16 },
      q1 := { f.q1 with cecc := bits v.toNat 16 16, rmiss := bits v.toNat 48 16 } }
  | 0x44 => set fun c => { c with usel := lowBits v 6 }
  | 0x46 => set fun c => { c with mxsel := lowBits v 3 }
  | 0x48 => s.modScan r fun g => { g with ov := g.ov && !v.toNat.testBit 1, iv := g.iv && !v.toNat.testBit 0 }
  | 0x49 => set fun c => { c with scsel := lowBits v 3 }
  | 0x4B => set fun c => { c with ccsel := lowBits v 3 }
  | 0xC0 => set fun c => { c with cesel := lowBits v 3 }
  | 0x280 => set fun c => { c with abort := v.toNat.testBit 0 }
  | _ => s

/-- A write of a register of partition level that a partition holds. -/
def Partition.write (x : Partition) (num : Nat) (v : DWord) : Partition :=
  match num with
  | 0x109 => { x with nqbase := v }
  | 0x10B => { x with nqlost := v.toNat % 2 ^ 32 }
  | 0x10C => { x with subcnt := v.toNat % 2 ^ 48 }
  | 0x283 => { x with psave := v }
  | 0x284 => { x with pstride := lowBits v 32 }
  | _ => if 0x100 ≤ num ∧ num < 0x104 then { x with fpbase := mapSet x.fpbase (num - 0x100) v } else x

/-- A write of a register of partition level. pm.subp takes a sub-partition of the tile's partition, else nothing (R362). -/
def State.writePart (s : State) (r num : Nat) (v : DWord) : State :=
  if num = 0x181 then
    let n := v.toNat % 4096
    if (s.subp n).live ∧ s.owner r = some (s.subp n).part then s.modCore r fun c => { c with subp := n } else s
  else if num = 0x182 then s.modCore r fun c => { c with pmqsel := keepBits v 0x3FFC0F }
  else (s.owner r).elim s fun p => s.modPart p fun x => x.write num v

/-- A write of a register of operator level. -/
def State.writeOper (s : State) (r num : Nat) (v : DWord) : State :=
  let set (f : Core → Core) : State := s.modCore r f
  match num with
  | 0x110 => set fun c => { c with gasel := lowBits v 7 }
  | 0x184 => set fun c => { c with opqsel := keepBits v 0x3FFC0F }
  | 0x201 => { s with plim := BitVec.ofNat 64 (Nat.max 600 (Nat.min 2400 (v.toNat % 4096))) }
  | 0x202 => set fun c => { c with hsel := lowBits v 11 }
  | 0x204 => set fun c => { c with lksel := lowBits v 9 }
  | 0x205 => { s with peers := mapSet s.peers ((s.core r).lksel.toNat % 512) (keepBits v 0x8000000FC000FFFF) }
  | _ => s

/-! ### SYSW (R264) -/

/-- A SYSW whose write has left the state `t` retires, unless the write ended the core's own task (R401). -/
def State.wrote (t : State) (s : State) (r : Nat) : WordEnd :=
  if (s.core r).mode = .running ∧ (t.core r).mode ≠ .running then .done t else .retire t 1

/-- The write of a defined register. -/
def State.sysWrite (s : State) (r level num : Nat) (v : DWord) : WordEnd :=
  if num ≤ 0x1B then (s.writeTrapReg r level num v).wrote s r
  else if level = 0 then .retire (s.writeOper r num v) 1
  else if level = 1 then
    if num = 0x108 then s.fpushWord r v
    else if 0x104 ≤ num ∧ num < 0x108 then s.ringSizeWord r (num - 0x104) v
    else if num = 0x10A then s.ringSizeWord r 4 v
    else .retire (s.writePart r num v) 1
  else if level = 2 then
    if num = 0x180 then s.asidWord r v
    else if num = 0x281 then s.sideWord r v
    else .retire (s.writeRuntime r num v) 1
  else if num = 0x80 then s.wakeWord r v
  else .retire (s.writeTask r num v) 1

/-- SYSW (R264). -/
def execSysw (ga : BitVec 5) (sysreg : BitVec 12) (s : State) : Host.Outcome State Fault Refusal :=
  let level := sysreg.toNat / 1024
  let num := sysreg.toNat % 1024
  .next (s.word [ga] [] fun r =>
    match s.sysFault r level num (encode (.sysw ga sysreg)) with
    | some e => e
    | none => s.sysWrite r level num (s.reg r ga))

end Sys2Proof.Machine
end

