-- ==== Sys2Proof/Machine/Dispatch.lean ====
section
/-!
DEFINITION. What each instruction and each event does: one arm for every constructor of Instr, one direct call of its
meaning.
-/

namespace Sys2Proof.Machine

def exec (i : Instr) (s : State) : Host.Outcome State Fault Refusal :=
  match i with
  | .add gd ga gb => Sys2Proof.Machine.execAdd gd ga gb s
  | .sub gd ga gb => Sys2Proof.Machine.execSub gd ga gb s
  | .and gd ga gb => Sys2Proof.Machine.execAnd gd ga gb s
  | .or gd ga gb => Sys2Proof.Machine.execOr gd ga gb s
  | .xor gd ga gb => Sys2Proof.Machine.execXor gd ga gb s
  | .sll gd ga gb => Sys2Proof.Machine.execSll gd ga gb s
  | .srl gd ga gb => Sys2Proof.Machine.execSrl gd ga gb s
  | .sra gd ga gb => Sys2Proof.Machine.execSra gd ga gb s
  | .slt gd ga gb => Sys2Proof.Machine.execSlt gd ga gb s
  | .sltu gd ga gb => Sys2Proof.Machine.execSltu gd ga gb s
  | .mul gd ga gb => Sys2Proof.Machine.execMul gd ga gb s
  | .mulh gd ga gb => Sys2Proof.Machine.execMulh gd ga gb s
  | .mulhu gd ga gb => Sys2Proof.Machine.execMulhu gd ga gb s
  | .div gd ga gb => Sys2Proof.Machine.execDiv gd ga gb s
  | .divu gd ga gb => Sys2Proof.Machine.execDivu gd ga gb s
  | .rem gd ga gb => Sys2Proof.Machine.execRem gd ga gb s
  | .remu gd ga gb => Sys2Proof.Machine.execRemu gd ga gb s
  | .min gd ga gb => Sys2Proof.Machine.execMin gd ga gb s
  | .max gd ga gb => Sys2Proof.Machine.execMax gd ga gb s
  | .minu gd ga gb => Sys2Proof.Machine.execMinu gd ga gb s
  | .maxu gd ga gb => Sys2Proof.Machine.execMaxu gd ga gb s
  | .clz gd ga => Sys2Proof.Machine.execClz gd ga s
  | .ctz gd ga => Sys2Proof.Machine.execCtz gd ga s
  | .popc gd ga => Sys2Proof.Machine.execPopc gd ga s
  | .bext gd ga gb => Sys2Proof.Machine.execBext gd ga gb s
  | .bins gd ga gb => Sys2Proof.Machine.execBins gd ga gb s
  | .ptag gd ga => Sys2Proof.Machine.execPtag gd ga s
  | .pspace gd ga gb => Sys2Proof.Machine.execPspace gd ga gb s
  | .prank gd ga gb => Sys2Proof.Machine.execPrank gd ga gb s
  | .padd gd ga gb => Sys2Proof.Machine.execPadd gd ga gb s
  | .addi gd ga imm => Sys2Proof.Machine.execAddi gd ga imm s
  | .andi gd ga imm => Sys2Proof.Machine.execAndi gd ga imm s
  | .ori gd ga imm => Sys2Proof.Machine.execOri gd ga imm s
  | .xori gd ga imm => Sys2Proof.Machine.execXori gd ga imm s
  | .slli gd ga sh => Sys2Proof.Machine.execSlli gd ga sh s
  | .srli gd ga sh => Sys2Proof.Machine.execSrli gd ga sh s
  | .srai gd ga sh => Sys2Proof.Machine.execSrai gd ga sh s
  | .slti gd ga imm => Sys2Proof.Machine.execSlti gd ga imm s
  | .sltui gd ga imm => Sys2Proof.Machine.execSltui gd ga imm s
  | .lui gd imm => Sys2Proof.Machine.execLui gd imm s
  | .addpc gd imm => Sys2Proof.Machine.execAddpc gd imm s
  | .brEq ga gb imm => Sys2Proof.Machine.execBrEq ga gb imm s
  | .brNe ga gb imm => Sys2Proof.Machine.execBrNe ga gb imm s
  | .brLt ga gb imm => Sys2Proof.Machine.execBrLt ga gb imm s
  | .brGe ga gb imm => Sys2Proof.Machine.execBrGe ga gb imm s
  | .brLo ga gb imm => Sys2Proof.Machine.execBrLo ga gb imm s
  | .brHs ga gb imm => Sys2Proof.Machine.execBrHs ga gb imm s
  | .jmpl gd imm => Sys2Proof.Machine.execJmpl gd imm s
  | .jr ga => Sys2Proof.Machine.execJr ga s
  | .jrl gd ga => Sys2Proof.Machine.execJrl gd ga s
  | .loop lvl k cnt len => Sys2Proof.Machine.execLoop lvl k cnt len s
  | .lexit n => Sys2Proof.Machine.execLexit n s
  | .lread gd n => Sys2Proof.Machine.execLread gd n s
  | .ld g ga sz ord off => Sys2Proof.Machine.execLd g ga sz ord off s
  | .ldu g ga sz ord off => Sys2Proof.Machine.execLdu g ga sz ord off s
  | .st g ga sz ord off => Sys2Proof.Machine.execSt g ga sz ord off s
  | .ldv gd ga gb => Sys2Proof.Machine.execLdv gd ga gb s
  | .stv gs ga gb => Sys2Proof.Machine.execStv gs ga gb s
  | .recl ga gb => Sys2Proof.Machine.execRecl ga gb s
  | .vqry gd ga => Sys2Proof.Machine.execVqry gd ga s
  | .amoAdd gd ga gb aq rl dbl => Sys2Proof.Machine.execAmoAdd gd ga gb aq rl dbl s
  | .amoAnd gd ga gb aq rl dbl => Sys2Proof.Machine.execAmoAnd gd ga gb aq rl dbl s
  | .amoOr gd ga gb aq rl dbl => Sys2Proof.Machine.execAmoOr gd ga gb aq rl dbl s
  | .amoXor gd ga gb aq rl dbl => Sys2Proof.Machine.execAmoXor gd ga gb aq rl dbl s
  | .amoMin gd ga gb aq rl dbl => Sys2Proof.Machine.execAmoMin gd ga gb aq rl dbl s
  | .amoMax gd ga gb aq rl dbl => Sys2Proof.Machine.execAmoMax gd ga gb aq rl dbl s
  | .amoMinu gd ga gb aq rl dbl => Sys2Proof.Machine.execAmoMinu gd ga gb aq rl dbl s
  | .amoMaxu gd ga gb aq rl dbl => Sys2Proof.Machine.execAmoMaxu gd ga gb aq rl dbl s
  | .amoSwp gd ga gb aq rl dbl => Sys2Proof.Machine.execAmoSwp gd ga gb aq rl dbl s
  | .amoCas gd ga gb aq rl dbl => Sys2Proof.Machine.execAmoCas gd ga gb aq rl dbl s
  | .amoFadd gd ga gb aq rl => Sys2Proof.Machine.execAmoFadd gd ga gb aq rl s
  | .amoFadd2 gd ga gb aq rl => Sys2Proof.Machine.execAmoFadd2 gd ga gb aq rl s
  | .fence scope => Sys2Proof.Machine.execFence scope s
  | .qfence ga => Sys2Proof.Machine.execQfence ga s
  | .wait ld st cp tl => Sys2Proof.Machine.execWait ld st cp tl s
  | .time gd => Sys2Proof.Machine.execTime gd s
  | .sleep ga => Sys2Proof.Machine.execSleep ga s
  | .pchk gd ga => Sys2Proof.Machine.execPchk gd ga s
  | .sin gd ga gb => Sys2Proof.Machine.execSin gd ga gb s
  | .sout gd ga gb => Sys2Proof.Machine.execSout gd ga gb s
  | .sidx gd ga gb => Sys2Proof.Machine.execSidx gd ga gb s
  | .skill ga => Sys2Proof.Machine.execSkill ga s
  | .spos gd ga => Sys2Proof.Machine.execSpos gd ga s
  | .cload gd ga gb => Sys2Proof.Machine.execCload gd ga gb s
  | .cnext ga gb => Sys2Proof.Machine.execCnext ga gb s
  | .nodeSwitch node => Sys2Proof.Machine.execNodeSwitch node s
  | .csplice gd ga gb => Sys2Proof.Machine.execCsplice gd ga gb s
  | .spliceSink node => Sys2Proof.Machine.execSpliceSink node s
  | .cfrz ga => Sys2Proof.Machine.execCfrz ga s
  | .cthaw ga => Sys2Proof.Machine.execCthaw ga s
  | .csave ga gb => Sys2Proof.Machine.execCsave ga gb s
  | .crest ga gb => Sys2Proof.Machine.execCrest ga gb s
  | .btok ga => Sys2Proof.Machine.execBtok ga s
  | .bdrain gd ga => Sys2Proof.Machine.execBdrain gd ga s
  | .boinit ga gb => Sys2Proof.Machine.execBoinit ga gb s
  | .boarr ga => Sys2Proof.Machine.execBoarr ga s
  | .bowait ga => Sys2Proof.Machine.execBowait ga s
  | .boxfer ga gb => Sys2Proof.Machine.execBoxfer ga gb s
  | .tsub gd ga gb => Sys2Proof.Machine.execTsub gd ga gb s
  | .tqopen gd ga => Sys2Proof.Machine.execTqopen gd ga s
  | .tqclose ga => Sys2Proof.Machine.execTqclose ga s
  | .tjoin gd ga => Sys2Proof.Machine.execTjoin gd ga s
  | .tsig ga => Sys2Proof.Machine.execTsig ga s
  | .tself gd => Sys2Proof.Machine.execTself gd s
  | .tkWakeWrite v => Sys2Proof.Machine.execTkWakeWrite v s
  | .cpy gd ga gb => Sys2Proof.Machine.execCpy gd ga gb s
  | .cpy2d gd ga gb => Sys2Proof.Machine.execCpy2d gd ga gb s
  | .cpyg gd ga gb => Sys2Proof.Machine.execCpyg gd ga gb s
  | .cpyz gd ga => Sys2Proof.Machine.execCpyz gd ga s
  | .cpq gd ga => Sys2Proof.Machine.execCpq gd ga s
  | .scop ga => Sys2Proof.Machine.execScop ga s
  | .scgo gd ga gb => Sys2Proof.Machine.execScgo gd ga gb s
  | .sccin ga => Sys2Proof.Machine.execSccin ga s
  | .sccout gd => Sys2Proof.Machine.execSccout gd s
  | .scbar ga => Sys2Proof.Machine.execScbar ga s
  | .pghint ga gb => Sys2Proof.Machine.execPghint ga gb s
  | .pgmove gd ga gb => Sys2Proof.Machine.execPgmove gd ga gb s
  | .pgqry gd ga => Sys2Proof.Machine.execPgqry gd ga s
  | .pgdisc ga gb => Sys2Proof.Machine.execPgdisc ga gb s
  | .pgnote gd => Sys2Proof.Machine.execPgnote gd s
  | .pgthr ga gb => Sys2Proof.Machine.execPgthr ga gb s
  | .psend gd ga gb => Sys2Proof.Machine.execPsend gd ga gb s
  | .pmask ga => Sys2Proof.Machine.execPmask ga s
  | .punmask ga => Sys2Proof.Machine.execPunmask ga s
  | .pbind ga gb => Sys2Proof.Machine.execPbind ga gb s
  | .peerPacketArrival head payload => Sys2Proof.Machine.execPeerPacketArrival head payload s
  | .pcreate gd ga gb => Sys2Proof.Machine.execPcreate gd ga gb s
  | .pquota ga gb => Sys2Proof.Machine.execPquota ga gb s
  | .pgrant ga gb => Sys2Proof.Machine.execPgrant ga gb s
  | .prevoke ga gb => Sys2Proof.Machine.execPrevoke ga gb s
  | .pslice ga gb => Sys2Proof.Machine.execPslice ga gb s
  | .pdestroy ga => Sys2Proof.Machine.execPdestroy ga s
  | .aalloc gd ga => Sys2Proof.Machine.execAalloc gd ga s
  | .afree ga => Sys2Proof.Machine.execAfree ga s
  | .tinv ga gb => Sys2Proof.Machine.execTinv ga gb s
  | .sysr gd sysreg => Sys2Proof.Machine.execSysr gd sysreg s
  | .sysw ga sysreg => Sys2Proof.Machine.execSysw ga sysreg s
  | .pmFpushWrite v => Sys2Proof.Machine.execPmFpushWrite v s
  | .ringSizeWrite ring v => Sys2Proof.Machine.execRingSizeWrite ring v s
  | .rtSideWrite v => Sys2Proof.Machine.execRtSideWrite v s
  | .rtAsidWrite v => Sys2Proof.Machine.execRtAsidWrite v s
  | .trap code => Sys2Proof.Machine.execTrap code s
  | .brk code => Sys2Proof.Machine.execBrk code s
  | .fadd vd va vb w pm => Sys2Proof.Machine.execFadd vd va vb w pm s
  | .fsub vd va vb w pm => Sys2Proof.Machine.execFsub vd va vb w pm s
  | .fmul vd va vb w pm => Sys2Proof.Machine.execFmul vd va vb w pm s
  | .fma vd va vb vc w pm => Sys2Proof.Machine.execFma vd va vb vc w pm s
  | .fms vd va vb vc w pm => Sys2Proof.Machine.execFms vd va vb vc w pm s
  | .fmin vd va vb w pm => Sys2Proof.Machine.execFmin vd va vb w pm s
  | .fmax vd va vb w pm => Sys2Proof.Machine.execFmax vd va vb w pm s
  | .fabs vd va w pm => Sys2Proof.Machine.execFabs vd va w pm s
  | .fneg vd va w pm => Sys2Proof.Machine.execFneg vd va w pm s
  | .fcpys vd va vb w pm => Sys2Proof.Machine.execFcpys vd va vb w pm s
  | .fxsgn vd va vb w pm => Sys2Proof.Machine.execFxsgn vd va vb w pm s
  | .fcmp m va vb cond w pm => Sys2Proof.Machine.execFcmp m va vb cond w pm s
  | .sel vd va vb mask pm => Sys2Proof.Machine.execSel vd va vb mask pm s
  | .iadd vd va vb w pm => Sys2Proof.Machine.execIadd vd va vb w pm s
  | .isub vd va vb w pm => Sys2Proof.Machine.execIsub vd va vb w pm s
  | .imul vd va vb half w pm => Sys2Proof.Machine.execImul vd va vb half w pm s
  | .imad vd va vb vc w pm => Sys2Proof.Machine.execImad vd va vb vc w pm s
  | .imin vd va vb uns w pm => Sys2Proof.Machine.execImin vd va vb uns w pm s
  | .imax vd va vb uns w pm => Sys2Proof.Machine.execImax vd va vb uns w pm s
  | .iand vd va vb w pm => Sys2Proof.Machine.execIand vd va vb w pm s
  | .ior vd va vb w pm => Sys2Proof.Machine.execIor vd va vb w pm s
  | .ixor vd va vb w pm => Sys2Proof.Machine.execIxor vd va vb w pm s
  | .ishl vd va vb w pm => Sys2Proof.Machine.execIshl vd va vb w pm s
  | .ishr vd va vb logical w pm => Sys2Proof.Machine.execIshr vd va vb logical w pm s
  | .icmp m va vb cond w pm => Sys2Proof.Machine.execIcmp m va vb cond w pm s
  | .iaddi vd va imm pm => Sys2Proof.Machine.execIaddi vd va imm pm s
  | .movi vd imm pm => Sys2Proof.Machine.execMovi vd imm pm s
  | .cvt vd va wid skind dkind ctl => Sys2Proof.Machine.execCvt vd va wid skind dkind ctl s
  | .pack vd va skind dfmt sel ctl => Sys2Proof.Machine.execPack vd va skind dfmt sel ctl s
  | .unpk vd va sfmt sel => Sys2Proof.Machine.execUnpk vd va sfmt sel s
  | .dqdec vd va vb vc dfmt part => Sys2Proof.Machine.execDqdec vd va vb vc dfmt part s
  | .dqenc vd va vb sfmt ctl => Sys2Proof.Machine.execDqenc vd va vb sfmt ctl s
  | .rcpa vd va pm => Sys2Proof.Machine.execRcpa vd va pm s
  | .rsqa vd va pm => Sys2Proof.Machine.execRsqa vd va pm s
  | .exp2a vd va pm => Sys2Proof.Machine.execExp2a vd va pm s
  | .log2a vd va pm => Sys2Proof.Machine.execLog2a vd va pm s
  | .sinpa vd va pm => Sys2Proof.Machine.execSinpa vd va pm s
  | .cospa vd va pm => Sys2Proof.Machine.execCospa vd va pm s
  | .rcpstep vd va vb pm => Sys2Proof.Machine.execRcpstep vd va vb pm s
  | .rsqstep vd va vb pm => Sys2Proof.Machine.execRsqstep vd va vb pm s
  | .red vd va int op w pm => Sys2Proof.Machine.execRed vd va int op w pm s
  | .perm vd va vb pm => Sys2Proof.Machine.execPerm vd va vb pm s
  | .lshf vd va dist pm => Sys2Proof.Machine.execLshf vd va dist pm s
  | .bcst vd va vb pm => Sys2Proof.Machine.execBcst vd va vb pm s
  | .recv v port n lvl flg pm => Sys2Proof.Machine.execRecv v port n lvl flg pm s
  | .send v port n lvl flg pm => Sys2Proof.Machine.execSend v port n lvl flg pm s
  | .peek v port n lvl flg pm => Sys2Proof.Machine.execPeek v port n lvl flg pm s
  | .sendm v port inp lvl pm => Sys2Proof.Machine.execSendm v port inp lvl pm s
  | .mklv port lvl => Sys2Proof.Machine.execMklv port lvl s
  | .toks port flg => Sys2Proof.Machine.execToks port flg s
  | .br cc src disp => Sys2Proof.Machine.execBr cc src disp s
  | .cloop k cnt len lvl => Sys2Proof.Machine.execCloop k cnt len lvl s
  | .tld v va q g pm => Sys2Proof.Machine.execTld v va q g pm s
  | .tst v va q g pm => Sys2Proof.Machine.execTst v va q g pm s
  | .tldv v va vv q pm => Sys2Proof.Machine.execTldv v va vv q pm s
  | .tstv v va vv q pm => Sys2Proof.Machine.execTstv v va vv q pm s
  | .trcl va vv q mk pm => Sys2Proof.Machine.execTrcl va vv q mk pm s
  | .wld vd va q win dy dx pm => Sys2Proof.Machine.execWld vd va q win dy dx pm s
  | .wadv q win => Sys2Proof.Machine.execWadv q win s
  | .mwld v t q fmt => Sys2Proof.Machine.execMwld v t q fmt s
  | .mast v vn => Sys2Proof.Machine.execMast v vn s
  | .mastPreset v vn => Sys2Proof.Machine.execMastPreset v vn s
  | .macc v row z seg fmt => Sys2Proof.Machine.execMacc v row z seg fmt s
  | .isect v ux lvl inB => Sys2Proof.Machine.execIsect v ux lvl inB s
  | .sacc v ux lvl => Sys2Proof.Machine.execSacc v ux lvl s
  | .slot v ux lvl => Sys2Proof.Machine.execSlot v ux lvl s
  | .seqt v ux lvl => Sys2Proof.Machine.execSeqt v ux lvl s
  | .scnp v lvl mask => Sys2Proof.Machine.execScnp v lvl mask s
  | .nul inp => Sys2Proof.Machine.execNul inp s
  | .route inp out => Sys2Proof.Machine.execRoute inp out s
  | .split inp out => Sys2Proof.Machine.execSplit inp out s
  | .merge inp inp2 out => Sys2Proof.Machine.execMerge inp inp2 out s
  | .deal inp out => Sys2Proof.Machine.execDeal inp out s
  | .turn inp code ux out => Sys2Proof.Machine.execTurn inp code ux out s
  | .barr out inps => Sys2Proof.Machine.execBarr out inps s
  | .hold port depth => Sys2Proof.Machine.execHold port depth s
  | .deviceReset gib0 gib1 gib2 gib3 => Sys2Proof.Machine.execDeviceReset gib0 gib1 gib2 gib3 s
  | .bootWindowAccess write off data => Sys2Proof.Machine.execBootWindowAccess write off data s
  | .bootRegisterWrite v => Sys2Proof.Machine.execBootRegisterWrite v s
  | .commandTailWrite v => Sys2Proof.Machine.execCommandTailWrite v s
  | .garnetDoorbell v => Sys2Proof.Machine.execGarnetDoorbell v s
  | .illegalInstruction w => Sys2Proof.Machine.execIllegalInstruction w s
  | .tdispLock lock => Sys2Proof.Machine.execTdispLock lock s
  | .peerAccessArrival write addr data => Sys2Proof.Machine.execPeerAccessArrival write addr data s
  | .completionHeadAdvance v => Sys2Proof.Machine.execCompletionHeadAdvance v s
  | .loadReply => Sys2Proof.Machine.execLoadReply s
  | .storeAck => Sys2Proof.Machine.execStoreAck s
  | .streamReadIssue => Sys2Proof.Machine.execStreamReadIssue s
  | .streamReadReply => Sys2Proof.Machine.execStreamReadReply s
  | .streamWriteToken => Sys2Proof.Machine.execStreamWriteToken s
  | .streamQueueAccess => Sys2Proof.Machine.execStreamQueueAccess s
  | .cloadSlotWritten => Sys2Proof.Machine.execCloadSlotWritten s
  | .spliceArrival => Sys2Proof.Machine.execSpliceArrival s
  | .freezeComplete => Sys2Proof.Machine.execFreezeComplete s
  | .csaveComplete => Sys2Proof.Machine.execCsaveComplete s
  | .crestComplete => Sys2Proof.Machine.execCrestComplete s
  | .tend => Sys2Proof.Machine.execTend s
  | .joinCounterRead => Sys2Proof.Machine.execJoinCounterRead s
  | .taskStart => Sys2Proof.Machine.execTaskStart s
  | .leadCoreEntry => Sys2Proof.Machine.execLeadCoreEntry s
  | .helperCoreStart => Sys2Proof.Machine.execHelperCoreStart s
  | .engineTaskComplete => Sys2Proof.Machine.execEngineTaskComplete s
  | .hostMessageTask => Sys2Proof.Machine.execHostMessageTask s
  | .copyPieceIssue => Sys2Proof.Machine.execCopyPieceIssue s
  | .copyComplete => Sys2Proof.Machine.execCopyComplete s
  | .promiseMissed => Sys2Proof.Machine.execPromiseMissed s
  | .copyPieceFault => Sys2Proof.Machine.execCopyPieceFault s
  | .scanMemoryTransfer => Sys2Proof.Machine.execScanMemoryTransfer s
  | .scanBlockCombine => Sys2Proof.Machine.execScanBlockCombine s
  | .carryArrival => Sys2Proof.Machine.execCarryArrival s
  | .carryApply => Sys2Proof.Machine.execCarryApply s
  | .migrationStart => Sys2Proof.Machine.execMigrationStart s
  | .chunkCopy => Sys2Proof.Machine.execChunkCopy s
  | .migrationSwitch => Sys2Proof.Machine.execMigrationSwitch s
  | .invalidationComplete => Sys2Proof.Machine.execInvalidationComplete s
  | .migrationAbort => Sys2Proof.Machine.execMigrationAbort s
  | .accessAtHome => Sys2Proof.Machine.execAccessAtHome s
  | .translationWalk => Sys2Proof.Machine.execTranslationWalk s
  | .packetDelivery => Sys2Proof.Machine.execPacketDelivery s
  | .packetBlocked => Sys2Proof.Machine.execPacketBlocked s
  | .recoveryTokenVisit => Sys2Proof.Machine.execRecoveryTokenVisit s
  | .flitCrcFail => Sys2Proof.Machine.execFlitCrcFail s
  | .laneFailing => Sys2Proof.Machine.execLaneFailing s
  | .linkLost => Sys2Proof.Machine.execLinkLost s
  | .linkUp => Sys2Proof.Machine.execLinkUp s
  | .quantumEnd => Sys2Proof.Machine.execQuantumEnd s
  | .preemption => Sys2Proof.Machine.execPreemption s
  | .tret => Sys2Proof.Machine.execTret s
  | .nop => Sys2Proof.Machine.execNop s
  | .halt => Sys2Proof.Machine.execHalt s
  | .idle => Sys2Proof.Machine.execIdle s
  | .eventDelivery => Sys2Proof.Machine.execEventDelivery s
  | .fend => Sys2Proof.Machine.execFend s
  | .nopOp => Sys2Proof.Machine.execNopOp s
  | .firingStart => Sys2Proof.Machine.execFiringStart s
  | .firingOverrun => Sys2Proof.Machine.execFiringOverrun s
  | .barrierPass => Sys2Proof.Machine.execBarrierPass s
  | .versionedWaitResume => Sys2Proof.Machine.execVersionedWaitResume s
  | .windowRowArrival => Sys2Proof.Machine.execWindowRowArrival s
  | .planeLoadComplete => Sys2Proof.Machine.execPlaneLoadComplete s
  | .mwsw => Sys2Proof.Machine.execMwsw s
  | .maccComplete => Sys2Proof.Machine.execMaccComplete s
  | .cornerTurnBlock => Sys2Proof.Machine.execCornerTurnBlock s
  | .intersectMatch => Sys2Proof.Machine.execIntersectMatch s
  | .sparseAccAdd => Sys2Proof.Machine.execSparseAccAdd s
  | .reorderArrival => Sys2Proof.Machine.execReorderArrival s
  | .reorderEmit => Sys2Proof.Machine.execReorderEmit s
  | .roundEnd => Sys2Proof.Machine.execRoundEnd s
  | .roundVoid => Sys2Proof.Machine.execRoundVoid s
  | .voidTrapDelivery => Sys2Proof.Machine.execVoidTrapDelivery s
  | .watchdogExpiry => Sys2Proof.Machine.execWatchdogExpiry s
  | .powerWindow => Sys2Proof.Machine.execPowerWindow s
  | .thermalLimit => Sys2Proof.Machine.execThermalLimit s
  | .sleepWake => Sys2Proof.Machine.execSleepWake s
  | .temperatureFall => Sys2Proof.Machine.execTemperatureFall s
  | .cxlLinkLost => Sys2Proof.Machine.execCxlLinkLost s
  | .flitAcknowledged => Sys2Proof.Machine.execFlitAcknowledged s

end Sys2Proof.Machine
end

