-- ==== Sys2Proof/Machine/Cycle.lean ====
section
/-!
DEFINITION. One turn of one unit: the fabric clock, the fetch of a control core, the next word of a firing, a switch
word of a router, and the events of the units and of the outside world.
-/

namespace Sys2Proof.Machine

/-- The number of tiles (R15). -/
def tileCount : Nat := 512

/-- Whether a row of the opcode table is an event that a unit or the outside world brings about by itself. The others
are words, or what a word does (a write of a system register, TEND, an illegal word). -/
def isTurnEvent : Instr → Bool
  | .nodeSwitch _ | .spliceSink _ | .peerPacketArrival _ _ | .deviceReset _ _ _ _ | .bootWindowAccess _ _ _
  | .bootRegisterWrite _ | .commandTailWrite _ | .garnetDoorbell _ | .tdispLock _ | .peerAccessArrival _ _ _
  | .completionHeadAdvance _ | .loadReply | .storeAck | .streamReadIssue | .streamReadReply | .streamWriteToken
  | .streamQueueAccess | .cloadSlotWritten | .spliceArrival | .freezeComplete | .csaveComplete | .crestComplete
  | .joinCounterRead | .taskStart | .leadCoreEntry | .helperCoreStart | .engineTaskComplete | .hostMessageTask
  | .copyPieceIssue | .copyComplete | .promiseMissed | .copyPieceFault | .scanMemoryTransfer | .scanBlockCombine
  | .carryArrival | .carryApply | .migrationStart | .chunkCopy | .migrationSwitch | .invalidationComplete
  | .migrationAbort | .accessAtHome | .translationWalk | .packetDelivery | .packetBlocked | .recoveryTokenVisit
  | .flitCrcFail | .laneFailing | .linkLost | .linkUp | .quantumEnd | .preemption | .eventDelivery | .firingStart
  | .firingOverrun | .barrierPass | .versionedWaitResume | .windowRowArrival | .planeLoadComplete | .maccComplete
  | .cornerTurnBlock | .intersectMatch | .sparseAccAdd | .reorderArrival | .reorderEmit | .roundEnd | .roundVoid
  | .voidTrapDelivery | .watchdogExpiry | .powerWindow | .thermalLimit | .sleepWake | .temperatureFall | .cxlLinkLost
  | .flitAcknowledged => true
  | _ => false

/-- The control word at the pc of a core (R60). -/
def Core.fetch (c : Core) : Word := BitVec.ofNat 32 (readVal c.mem c.pc 4)

/-- The instruction a control core executes for a fetched word: what it decodes to, or the illegal-instruction event. -/
def controlInstr (w : Word) : Instr :=
  match decodeControl w with
  | .ok i => i
  | .error _ => .illegalInstruction w

/-! ### The order of the accesses to a memory tile in one cycle (R150, R221) -/

/-- The memory tile that an operation word accesses. -/
def wordTile (w : Word) : Option Nat :=
  let op := bits w.toNat 26 6
  if 0x2D ≤ op ∧ op ≤ 0x31 then some (bits w.toNat 10 1)
  else if op = 0x32 ∨ op = 0x33 then some (bits w.toNat 15 1)
  else if (op = 0x24 ∨ op = 0x25) ∧ (bits w.toNat 16 5 = 20 ∨ bits w.toNat 16 5 = 21) then some (bits w.toNat 16 5 - 20)
  else none
/-- Whether an operation word is one that may wait at a memory tile under R36. -/
def wordWaits (w : Word) : Bool :=
  let op := bits w.toNat 26 6
  op == 0x2F || op == 0x30 || op == 0x32
/-- The pointer by which the word of a core may reach its tile's memory tiles. -/
def State.tilePtr (s : State) (r : Nat) : Instr → Option DWord
  | .ld _ ga _ _ off | .ldu _ ga _ _ off | .st _ ga _ _ off => some (cmPtr s r ga off)
  | .ldv _ ga _ | .stv _ ga _ | .recl ga _ | .vqry _ ga
  | .amoAdd _ ga _ _ _ _ | .amoAnd _ ga _ _ _ _ | .amoOr _ ga _ _ _ _ | .amoXor _ ga _ _ _ _ | .amoMin _ ga _ _ _ _
  | .amoMax _ ga _ _ _ _ | .amoMinu _ ga _ _ _ _ | .amoMaxu _ ga _ _ _ _ | .amoSwp _ ga _ _ _ _ | .amoCas _ ga _ _ _ _
  | .amoFadd _ ga _ _ _ | .amoFadd2 _ ga _ _ _ => some (s.reg r ga)
  | _ => none
/-- The memory tile that the word of a core accesses. -/
def State.coreTile (s : State) (r : Nat) : Option Nat :=
  (s.tilePtr r (controlInstr (s.core r).fetch)).bind fun p => if ptrSpace p = 1 then some (tilePart p).1 else none

/-- The places of the accesses to memory tile `q` of tile `r` that wait and have still to be evaluated in this cycle: those of
cells by their number, that of the control core as 16. -/
def State.dueWaiters (s : State) (r q : Nat) : List Nat :=
  let c := s.core r
  ((s.fab r).cells.filterMap fun e => e.2.firing.bind fun f =>
    let w := mapGet 0 e.2.store f.pc
    if f.waiting && !f.dead && decide (f.nextAt ≤ s.now) && wordWaits w && wordTile w == some q then some e.1 else none) ++
  (if c.mode == .running && decide (c.nextAt ≤ s.now) && c.stall == some (.latch []) && c.takeEvent.isNone &&
      s.coreTile r == some q then [16] else [])
/-- Whether an access at a place may be evaluated now: those already waiting come first, and none after it in the order has been
evaluated in this cycle. The places are 0 to 16 for accesses that wait, 32 + cell on port C, 49 for the control core, 50 + g for
generator g and what streams bring, 54 for copy engines, 55 for the rest. -/
def State.portFree (s : State) (r q place : Nat) : Bool :=
  let l := mapGet (0, 0) s.ports (2 * r + q)
  (l.1 != s.now || decide (l.2 ≤ place)) && !((s.dueWaiters r q).any fun k => decide (k < place))
/-- The access at a place is evaluated: a weight load reads the words of this cycle before any access on port E. -/
def State.takePort (s : State) (r q place : Nat) : State :=
  let s := if 49 ≤ place ∧ ((s.mx r).loader.any fun l => l.q == q) then s.loaderReads r else s
  { s with ports := mapSet s.ports (2 * r + q) (s.now, place) }
/-- A turn that accesses a memory tile at a place, where that is its turn in the order of R150; else nothing happens. -/
def State.inOrder (s : State) (at_ : Option (Nat × Nat × Nat)) (go : State → Host.Outcome State Fault Refusal) :
    Host.Outcome State Fault Refusal :=
  match at_ with
  | none => go s
  | some (r, q, place) => if s.portFree r q place then go (s.takePort r q place) else .next s
/-- The memory tile that an event accesses, and its place. -/
def State.eventPlace (s : State) (f : Focus) : Instr → Option (Nat × Nat × Nat)
  | .accessAtHome => (s.accs.find? fun a => decide (a.id = f.unit)).bind fun a => match a.loc with
      | .mtile r q _ => some (r, q, match a.who with
        | .core _ => 49
        | .gen _ g => 50 + g
        | .copy _ _ _ => 54
        | _ => 55)
      | _ => none
  | .versionedWaitResume => (s.cell f.unit f.sub).firing.bind fun x =>
      (wordTile (mapGet 0 (s.cell f.unit f.sub).store x.pc)).map fun q => (f.unit, q, f.sub)
  | .windowRowArrival =>
      let c := (s.router f.unit).dest f.sub
      if codeKind c = 3 then some (f.unit, bits c 1 1, 53) else none
  | .streamQueueAccess =>
      let c := if f.arg = 0 then (s.router f.unit).dest f.sub else (s.router f.unit).source f.sub
      if codeKind c = 4 then some (f.unit, bits c 3 1, 53) else none
  | .scanMemoryTransfer => (s.scanTile f.unit).map fun q => (f.unit, q, 49)
  | _ => none

/-- Whether the control core of tile `r` has made an access on port E of memory tile `q` in this cycle, or is about to make one. -/
def State.coreUses (s : State) (r q : Nat) : Bool :=
  let c := s.core r
  mapGet (0, 0) s.ports (2 * r + q) == (s.now, 49) ||
    (c.mode == .running && decide (c.nextAt ≤ s.now) && c.stall != some .idle && s.coreTile r == some q)
/-- Whether an event may take its turn now: a transfer of the scan engine uses the core's slot of port E in a cycle in which the
core makes no access there (R246). -/
def State.mayTurn (s : State) (f : Focus) : Instr → Bool
  | .scanMemoryTransfer => (s.scanTile f.unit).all fun q => !s.coreUses f.unit q
  | _ => true

/-! ### Turns -/

/-- A turn of the control core of tile `r`: a held event that can be delivered comes first (R394), then the word at the
pc, below the level's bound a privilege fault (R257) and on an uncorrectable error cause 13.
DEDUCED (log 121), unsafe. -/
def coreTurn (r : Nat) (s : State) : Host.Outcome State Fault Refusal :=
  let c := s.core r
  let s' := { s with foc := ⟨r, 0, 0⟩ }
  if c.mode ≠ .running ∨ s.now < c.nextAt then .next s
  else if c.takeEvent.isSome then exec .eventDelivery s'
  else if c.stall = some .idle then .next s
  else if c.pc < (c.trap c.level).pbound.toNat then .next (s'.endWord r (.trap s' 1 (BitVec.ofNat 64 c.pc)))
  else if c.poisoned.contains (c.pc / 4) then .next (s'.endWord r (.trap s' 13 (BitVec.ofNat 64 c.pc)))
  else s.inOrder ((s.coreTile r).map fun q => (r, q, if c.stall = some (.latch []) then 16 else 49)) fun s =>
    exec (controlInstr c.fetch) { s with foc := ⟨r, 0, 0⟩ }

/-- A turn of the sequencer of a cell: the next word of the firing in progress (R96). -/
def cellTurn (r k : Nat) (s : State) : Host.Outcome State Fault Refusal :=
  let c := s.cell r k
  match c.firing with
  | none => .next s
  | some f =>
    if s.now < f.nextAt ∨ f.dead then .next s
    else
      let w := mapGet 0 c.store f.pc
      match decodeOperation w with
      | .ok i => s.inOrder ((wordTile w).map fun q => (r, q, if f.waiting && wordWaits w then k else 32 + k)) fun s =>
          exec i { s with foc := ⟨r, k, 0⟩ }
      | .error _ => .next s

/-- A turn of switch word `k` of the router of tile `r` (R175). -/
def routerTurn (r k : Nat) (s : State) : Host.Outcome State Fault Refusal :=
  match (s.router r).words[k]? with
  | none => .next s
  | some w => match decodeSwitch w with
    | .ok i => exec i { s with foc := ⟨r, k, 0⟩ }
    | .error _ => .next s

/-- One turn. DESIGN CHOICE (log 2), unsafe. -/
def runTurn (t : Turn) (s : State) : Host.Outcome State Fault Refusal :=
  match t with
  | .tick => .next s.tick
  | .core r => if r < tileCount then coreTurn r s else .fault .noSuchUnit
  | .cell r k => if r < tileCount ∧ k < 16 then cellTurn r k s else .fault .noSuchUnit
  | .router r k => if r < tileCount ∧ k < 16 then routerTurn r k s else .fault .noSuchUnit
  | .move r link => if r < tileCount then .next (s.moveLink r link) else .fault .noSuchUnit
  | .hop id => .next (s.hop id)
  | .event f i => if isTurnEvent i && s.mayTurn f i then s.inOrder (s.eventPlace f i) fun s => exec i { s with foc := f } else .next s
  | .upset loc hard => .next (s.upset loc hard)
  | .hostStore a b => .next { s with dram := mapPut 0 s.dram (3 * 2 ^ 48 + a) b }
  | .hostArea p base => .next (s.setHostArea p base)
  | .bootRead => .next s.readBootRegister
  | .pageRead p off => .next (s.readPage p off)
  | .hostSize gib => .next (s.setHostSize gib)

end Sys2Proof.Machine
end

