-- ==== Sys2Proof/Machine/Step.lean ====
section
/-!
DEFINITION. One step of the device: the turn that State has planned, or else the turn that the outside world draws.
-/

namespace Sys2Proof.Machine

/-- One step. -/
def step (s : State) : Host.Outcome State Fault Refusal :=
  match s.turns with
  | t :: ts => runTurn t { s with turns := ts }
  | [] => runTurn (Config.nextTurn s.draws) { s with draws := s.draws + 1 }

/-- The state in which the very next step runs the instruction whose bits are `w`: a switch word of the router of tile
0, a control word at the pc of the core of tile 0, or an operation word of a firing in cell 0 of tile 0.
DEDUCED (log 1), safe. -/
def State.withFetchWord (s : State) (nbits w : Nat) : State :=
  if nbits = 16 then
    { s.modRouter 0 (fun x => { x with words := BitVec.ofNat 16 w :: x.words.tail }) with turns := [.router 0 0] }
  else match decodeControl (BitVec.ofNat 32 w) with
    | .ok _ =>
      { s.modCore 0 (fun c => { c with
          mode := .running, nextAt := 0, stall := none, events := [], mem := writeVal c.mem c.pc 4 w }) with
        turns := [.core 0] }
    | .error _ =>
      { s.modCell 0 0 (fun c => { c with
          actors := if c.actors.isEmpty then [⟨0, 1, 0, 0, 0, 0, 0, false, 0, []⟩] else c.actors,
          store := mapSet c.store 0 (BitVec.ofNat 32 w),
          firing := some ⟨0, 0, s.now, s.now, [], [], [], [], [], [], false, false, [], none, false⟩ }) with
        turns := [.cell 0 0] }

end Sys2Proof.Machine
end

