-- ==== Sys2Proof/Safety.lean ====
section
/-!
DEFINITION. The terms that claims use: what a safe run is, when a control word runs unhindered, and the state in which a word of
the core in focus ends.
-/

namespace Sys2Proof.Machine

/-- A step that ends in a next state. -/
def goesOn (s : State) : Prop := ∃ s', step s = .next s'

/-- A run of `n` steps that meets neither a fault nor a refusal. -/
def safeFor : Nat → State → Prop
  | 0, _ => True
  | n + 1, s => ∃ s', step s = .next s' ∧ safeFor n s'

/-- The registers that a word of the core in focus reads and writes have been loaded, and none that it reads is poisoned (R271,
R273). -/
def State.wordReady (s : State) (reads writes : List (BitVec 5)) : Prop :=
  (s.core s.foc.unit).waitsOn (reads ++ writes) = false ∧ (s.core s.foc.unit).firstPoison reads = none

/-- As `wordReady`, for a load, store, atomic or engine command: no acquire holds it at issue (R272). -/
def State.memReady (s : State) (reads writes : List (BitVec 5)) : Prop :=
  s.wordReady reads writes ∧ (s.core s.foc.unit).acquires = []

/-- A register of the core in focus. -/
def State.val (s : State) (g : BitVec 5) : DWord := s.reg s.foc.unit g
/-- The state with a register of the core in focus written; g0 discards the value (R61). -/
def State.puts (s : State) (g : BitVec 5) (v : DWord) : State := s.setReg s.foc.unit g v
/-- The core in focus. -/
def State.self (s : State) : Core := s.core s.foc.unit

/-- The word of the core in focus has had its effect in `t`, and retires after `n` cycles: the core goes on with the next word, or
with the start of a hardware loop that ends here (R258, R269). -/
def State.retired (s t : State) (n : Nat) : State := s.endWord s.foc.unit (.retire t n)
/-- The word of the core in focus has had its effect in `t` and continues at `pc` (R268). -/
def State.jumped (s t : State) (pc : Nat) : State := s.endWord s.foc.unit (.jump t pc)
/-- The word of the core in focus raises a cause with a tval, in `t` (R280, R393). -/
def State.trapped (s t : State) (cause : Nat) (val : DWord) : State := s.endWord s.foc.unit (.trap t cause val)
/-- The word of the core in focus stalls in a category of R284, in `t`, and begins again in the next cycle. -/
def State.stalls (s t : State) (cat : Nat) : State := s.endWord s.foc.unit (.wait t cat)

/-- Nothing but the core of tile `r` differs between two states. -/
def State.sameButCore (r : Nat) (s t : State) : Prop :=
  { t with tiles := [] } = { s with tiles := [] } ∧
  (∀ x, x ≠ r → t.tile x = s.tile x) ∧ { t.tile r with core := s.core r } = s.tile r

/-- Nothing but general registers differs between two cores, in some registers, and what a word that completes moves on: the pc,
the loop bank of the running level, the account of cycles, and when the next word may issue. -/
def Core.sameBut (gs : List (BitVec 5)) (c d : Core) : Prop :=
  (∀ g, g ∉ gs → d.reg g = c.reg g) ∧ (∀ l, l ≠ c.level → d.bank l = c.bank l) ∧
  { d with regs := c.regs, poison := c.poison, pc := c.pc, loops := c.loops, acct := c.acct, nextAt := c.nextAt,
           stall := c.stall } = c

/-- The value of byte `x` of the private memory of the core in focus. -/
def State.privByte (s : State) (x : Nat) : Byte := mapGet 0 s.self.mem x
/-- The little-endian value of `n` bytes of the private memory of the core in focus. -/
def State.privVal (s : State) (x n : Nat) : Nat := readVal s.self.mem x n
/-- None of the words that `n` bytes of the private memory of the core in focus touch is uncorrectable. -/
def State.privGood (s : State) (x n : Nat) : Prop := (wordsOf x n).all (fun w => !s.self.poisoned.contains w) = true

/-- A pointer passes R64 for space 4 of the core in focus with an access size, and names offset `x` (R257). -/
def State.privPtr (s : State) (p : DWord) (n x : Nat) : Prop :=
  ptrFormOk p = true ∧ ptrSpace p = 4 ∧ ptrOff p = x ∧ x % n = 0 ∧ (s.self.trap s.self.level).pbound.toNat ≤ x

/-- The access that a word of the core in focus sends: of a kind and size, to a home, for a register. -/
def State.sends (s t : State) (a : Access) (k : AccKind) (loc : Loc) (n : Nat) (g : BitVec 5) : Prop :=
  t.accs = s.accs ++ [a] ∧ a.id = s.nextId ∧ a.who = .core s.foc.unit ∧ a.kind = k ∧ a.loc = loc ∧ a.size = n ∧
  a.gd = g.toNat ∧ a.done = false ∧ a.fault = 0

/-- The byte of storage that a location names: its store, the part of it, and the offset there. -/
def Loc.byte : Loc → Nat × Nat × Nat
  | .dram t a => (0, 0, dramKey t a)
  | .slice l b off => (1, bankKey l b, off)
  | .mtile r q off => (2, 2 * r + (if q = 0 then 0 else 1), off)
  | .priv r off => (3, r, off)
  | .peer k off => (4, k, off)

/-- The byte at a location of DRAM, of a slice bank, of a memory tile or of a private memory. -/
def State.byteAt (s : State) : Loc → Byte
  | .dram t a => mapGet 0 s.dram (dramKey t a)
  | .slice l b off => mapGet 0 (mapGet [] s.banks (bankKey l b)) off
  | .mtile r q off => mapGet 0 (s.mtile r q).mem off
  | .priv r off => mapGet 0 (s.core r).mem off
  | .peer _ _ => 0

/-- Every byte of DRAM, of the slice banks, of the memory tiles and of the private memories reads in `t` as in `s`, but for the
`n` bytes from a location up, which in `t` hold the little-endian bytes of `v`. -/
def State.storesAt (s t : State) (loc : Loc) (n v : Nat) : Prop :=
  let (store, part, off) := loc.byte
  ∀ l : Loc, t.byteAt l =
    if l.byte.1 = store ∧ l.byte.2.1 = part ∧ off ≤ l.byte.2.2 ∧ l.byte.2.2 < off + n then
      BitVec.ofNat 8 (v / 256 ^ (l.byte.2.2 - off))
    else s.byteAt l

/-- Every byte of DRAM, of the slice banks, of the memory tiles and of the private memories reads in `t` as in `s`. -/
def State.sameBytes (s t : State) : Prop := ∀ l : Loc, t.byteAt l = s.byteAt l

/-- An access is recorded as performed: what it read, which bytes of that were uncorrectable, and the cause it met. -/
def State.settles (s t : State) (a : Access) (v : Nat) (bad : List Nat) (fault : Nat) : Prop :=
  t.accs = s.accs.map fun b => if b.id = a.id then { b with done := true, val := v, bad := bad, fault := fault } else b

/-- An access meets nothing on its way but the bytes of its home: no page in motion, no discarded page, no page that is counted,
no lost link, no read-shared copy. -/
def State.plainAccess (s : State) (a : Access) : Prop :=
  a.copyKey = none ∧ (∀ k off, a.loc ≠ .peer k off) ∧
  (∀ t x, a.loc = .dram t x → s.motionAt t x = none ∧ s.lostLine t x = false) ∧
  ∀ x, a.xl = some x → (∀ k, (s.agent k).hotIndex x.subp x.page = none) ∧
    ∀ e, s.entryB x.subp x.page = .ok e → entHN e = false ∧ entDisc e = false

/-- A load of the core that made access `a` waits at its home for that access. -/
def State.awaits (s : State) (a b : Access) : Prop :=
  b ∈ s.accs ∧ b.who = a.who ∧ a.id ∈ b.before ∧ ∃ sg, b.kind = .load sg

/-- The cell in focus runs the next word of a firing: the context is its own, and the firing is neither stopped, nor overrun, nor
stopped by a trap of a MACC (R94 to R99, R227). -/
def State.fires (s : State) (x : OpCtx) : Prop :=
  x.r = s.foc.unit ∧ x.k = s.foc.sub ∧ x.c = s.cell x.r x.k ∧ x.c.firing = some x.f ∧ x.c.actors[x.f.actor]? = some x.a ∧
  x.f.dead = false ∧ s.now < x.f.first + 4096 ∧ ∀ t, x.f.macTrap = some t → s.now < t

/-- The operation word has had its effect in `t` and `f`, and issues over `n` cycles: the next word follows, or the start of a loop
that ends here (R115). -/
def State.opNext (s t : State) (x : OpCtx) (f : Firing) (n : Nat) : State := s.opEnd x.r x.k x.a x.f (.next t f n)
/-- The operation word has had its effect in `f`, and the word at `pc` follows. -/
def State.opJump (s : State) (x : OpCtx) (f : Firing) (pc : Nat) : State := s.opEnd x.r x.k x.a x.f (.jump s f pc)
/-- The operation word stalls in a category of R103. -/
def State.opStall (s t : State) (x : OpCtx) (cat : Nat) : State := s.opEnd x.r x.k x.a x.f (.stall t x.f cat)
/-- The operation word faults in `t`: a cause, a subcode and the address of R158. -/
def State.opFault (s t : State) (x : OpCtx) (cause sub addr : Nat) : State := s.opEnd x.r x.k x.a x.f (.fault t cause sub addr)

/-- Element `e` of width `b` of lane `L` of a register of the firing (R121). -/
def OpCtx.elem (x : OpCtx) (b : Nat) (v : BitVec 5) (L e : Nat) : Nat := (lane (x.reg v) L).toNat / 2 ^ (b * e) % 2 ^ b

/-- A register value whose selected lanes hold `res`, element by element, the others what register `v` holds (R118). -/
def OpCtx.fills (x : OpCtx) (v : BitVec 5) (sel : Nat → Bool) (b : Nat) (res : Nat → Nat → Nat) (l : Lanes) : Prop :=
  l.length = x.lanes ∧ ∀ L < x.lanes,
    if sel L then ∀ e < 32 / b, (lane l L).toNat / 2 ^ (b * e) % 2 ^ b = res L e % 2 ^ b else lane l L = lane (x.reg v) L

/-- What a lane word does (R118 to R120): `res` gives each element of width `b` of a selected lane its code and the conditions it
raises. The conditions are recorded; where IV, DZ or OV is among them, the trap policy writes nothing and raises cause 10; else
register `vd` takes the elements, over `n` cycles. -/
def State.runsLanes (s : State) (x : OpCtx) (i : Instr) (vd : BitVec 5) (sel : Nat → Bool) (b : Nat)
    (res : Nat → Nat → Nat × Conds) (n : Nat) : Prop :=
  let met (flag : Conds → Bool) : Prop := ∃ L < x.lanes, sel L = true ∧ ∃ e < 32 / b, flag (res L e).2 = true
  ∃ c : Conds, (c.iv = true ↔ met Conds.iv) ∧ (c.dz = true ↔ met Conds.dz) ∧ (c.ov = true ↔ met Conds.ov) ∧
    (c.fm = true ↔ met Conds.fm) ∧
    let trap := x.policy = .trap ∧ (c.iv = true ∨ c.dz = true ∨ c.ov = true)
    (trap → exec i s = .next (s.opFault (x.record s c) x 10 0 0)) ∧
    (¬ trap → ∃ l, exec i s = .next (s.opNext (x.record s c) x (x.f.setReg vd.toNat l) n) ∧
      x.fills vd sel b (fun L e => (res L e).1) l)

/-- Every byte of DRAM, of the slice banks, of the memory tiles and of the private memories reads in `t` as in `s`, but for those of
memory tile `q` of tile `r`. -/
def State.sameElsewhere (s t : State) (r q : Nat) : Prop :=
  ∀ l : Loc, l.byte.1 ≠ 2 ∨ l.byte.2.1 ≠ 2 * r + (if q = 0 then 0 else 1) → t.byteAt l = s.byteAt l

/-- No cache of translations holds one of a page of a sub-partition (R339, R359). -/
def State.forgets (s : State) (sp page : Nat) : Prop :=
  (∀ n, ∀ y ∈ s.schedTlb ++ mapGet [] s.unitTlb n ++ mapGet [] s.brTlb n, ¬ (y.subp = sp ∧ y.page = page)) ∧
  ∀ n, ∀ y ∈ mapGet [] s.dieTlb n, (∀ x, y = .whole x → ¬ (x.subp = sp ∧ x.page = page)) ∧ ∀ e, y ≠ .stageB sp page e

/-- Every byte of storage reads in `t` as in `s`, but for a frame of a tier, which is zero in `t` (R339, R340, R342). -/
def State.zeroes (s t : State) (tier frame : Nat) : Prop :=
  ∀ l : Loc, t.byteAt l =
    if l.byte.1 = 0 ∧ dramKey tier (frame * 65536) ≤ l.byte.2.2 ∧ l.byte.2.2 < dramKey tier (frame * 65536) + 65536 then 0
    else s.byteAt l

/-- The stage-B entry of a page is rewritten, where a walk of the tables finds its place (R339). -/
def State.rewrites (s t : State) (sp page e : Nat) : Prop :=
  (s.entryAddr sp page = none → t = s) ∧
  ∀ tier a, s.entryAddr sp page = some (tier, a) → s.storesAt t (.dram tier a) 8 e ∧ { t with dram := s.dram } = s

/-- A notification entry is posted to a partition's queue, or dropped and counted (R334, R335). -/
def State.posts (s t : State) (p entry : Nat) : Prop :=
  let k := s.part p
  let full := k.nqsize ≤ k.nqcount + (if k.nqheld then 1 else 0)
  let place := s.noteSlot p ((k.nqhead + k.nqcount) % k.nqsize)
  let writes (tier a : Nat) : Prop := place = some (tier, a) ∧ (tier, a / 64) ∉ s.badLines ∧ s.lostLine tier a = false
  (full ∨ (∀ tier a, ¬ writes tier a) → t = s.modPart p fun k => { k with nqlost := Nat.min (2 ^ 32 - 1) (k.nqlost + 1) }) ∧
  (¬ full → ∀ tier a, writes tier a → s.storesAt t (.dram tier a) 16 entry ∧
    { t with dram := s.dram } = s.modPart p fun k => { k with nqcount := k.nqcount + 1 })

/-- A migration of a page ends before its switch, for a reason (R340): the entry loses IM and WB, the destination frame is zeroed
where it can be reached, and kinds 2 and 3 are posted. Requests that the agent holds are then evaluated again. -/
def State.aborts (s t : State) (m : Motion) (reason : Nat) : Prop :=
  let entry (frame info kind : Nat) : Nat :=
    frame * 2 ^ 92 + m.subp * 2 ^ 76 + m.page * 2 ^ 32 + info * 2 ^ 16 + m.dstTier * 2 ^ 12 + kind * 2 ^ 8 + 1
  ∃ u1 u2 u3 u4 : State,
    (∀ e, s.entryB m.subp m.page = .ok e → s.rewrites u1 m.subp m.page (setBits e 58 2 0)) ∧
    (∀ c, s.entryB m.subp m.page = .error c → u1 = s) ∧
    (let v := { u1 with motions := u1.motions.erase m }
     if v.lostLine m.dstTier (m.dst * 65536) then u2 = v
     else v.zeroes u2 m.dstTier m.dst ∧ u2.motions = v.motions ∧ u2.tiles = v.tiles ∧
       ∀ k, u2.agent k = { v.agent k with zeroAt := (u2.agent k).zeroAt }) ∧
    u2.posts u3 m.part (entry 0 reason 2) ∧ u3.posts u4 m.part (entry m.dstPage 0 3) ∧
    t.tiles = u4.tiles ∧
    ((u4.agent m.agent).queue = [] → t.dram = u4.dram ∧ t.motions = u4.motions ∧ t.agents = u4.agents ∧ t.parts = u4.parts)

end Sys2Proof.Machine
end

