-- ==== Sys2Proof/Certificates/Slice0/Obligations.lean ====
section
/-!
DEFINITION. The statements for the provers. Each is a proposition about the model, written from the numbered rules of the
specification.
-/

open Sys2Proof Sys2Proof.Machine

/-! ### Words of the control core -/

/-- ALU results (R265). -/
def Obligations.AluResults : Prop :=
  ∀ (s : State) (gd ga gb : BitVec 5), s.wordReady [ga, gb] [gd] →
    let a := s.val ga
    let b := s.val gb
    let gives (i : Instr) (v : DWord) (n : Nat) : Prop := exec i s = .next (s.retired (s.puts gd v) n)
    gives (.add gd ga gb) (BitVec.ofNat 64 (a.toNat + b.toNat)) 1 ∧
    gives (.sub gd ga gb) (BitVec.ofNat 64 (a.toNat + 2 ^ 64 - b.toNat)) 1 ∧
    gives (.and gd ga gb) (a &&& b) 1 ∧
    gives (.or gd ga gb) (a ||| b) 1 ∧
    gives (.xor gd ga gb) (a ^^^ b) 1 ∧
    gives (.sll gd ga gb) (a <<< (b.toNat % 64)) 1 ∧
    gives (.srl gd ga gb) (a >>> (b.toNat % 64)) 1 ∧
    gives (.sra gd ga gb) (BitVec.ofInt 64 (a.toInt >>> (b.toNat % 64))) 1 ∧
    gives (.slt gd ga gb) (if a.toInt < b.toInt then 1 else 0) 1 ∧
    gives (.sltu gd ga gb) (if a.toNat < b.toNat then 1 else 0) 1 ∧
    gives (.mul gd ga gb) (BitVec.ofNat 64 (a.toNat * b.toNat)) 3 ∧
    gives (.mulh gd ga gb) (((a.signExtend 128 * b.signExtend 128) >>> 64).setWidth 64) 3 ∧
    gives (.mulhu gd ga gb) (((a.setWidth 128 * b.setWidth 128) >>> 64).setWidth 64) 3 ∧
    gives (.div gd ga gb) (if b = 0 then BitVec.allOnes 64 else a.sdiv b) 20 ∧
    gives (.divu gd ga gb) (if b = 0 then BitVec.allOnes 64 else a / b) 20 ∧
    gives (.rem gd ga gb) (if b = 0 then a else a.srem b) 20 ∧
    gives (.remu gd ga gb) (if b = 0 then a else a % b) 20 ∧
    gives (.min gd ga gb) (if a.toInt ≤ b.toInt then a else b) 1 ∧
    gives (.max gd ga gb) (if a.toInt ≤ b.toInt then b else a) 1 ∧
    gives (.minu gd ga gb) (if a.toNat ≤ b.toNat then a else b) 1 ∧
    gives (.maxu gd ga gb) (if a.toNat ≤ b.toNat then b else a) 1

/-- BITS results (R266): each result is given bit by bit. -/
def Obligations.BitsResults : Prop :=
  ∀ (s : State) (gd ga gb : BitVec 5), s.wordReady [ga, gb] [gd] →
    let a := s.val ga
    let b := s.val gb
    let d := s.val gd
    let lo := b.toNat % 64
    let wid := b.toNat / 64 % 64 + 1
    let gives (i : Instr) (v : DWord) : Prop := exec i s = .next (s.retired (s.puts gd v) 1)
    (∀ n ≤ 64, (∀ i < n, a.getLsbD (63 - i) = false) → (n < 64 → a.getLsbD (63 - n) = true) →
      gives (.clz gd ga) (BitVec.ofNat 64 n)) ∧
    (∀ n ≤ 64, (∀ i < n, a.getLsbD i = false) → (n < 64 → a.getLsbD n = true) → gives (.ctz gd ga) (BitVec.ofNat 64 n)) ∧
    gives (.popc gd ga) (BitVec.ofNat 64 ((List.range 64).filter fun i => a.getLsbD i).length) ∧
    (∀ v : DWord, (∀ j < 64, v.getLsbD j = (decide (j < wid) && a.getLsbD (lo + j))) → gives (.bext gd ga gb) v) ∧
    (s.wordReady [gd, ga, gb] [gd] →
      ∀ v : DWord, (∀ j < 64, v.getLsbD j = if lo ≤ j ∧ j < lo + wid then a.getLsbD (j - lo) else d.getLsbD j) →
        gives (.bins gd ga gb) v) ∧
    gives (.ptag gd ga) (if ptrFormOk a then 1 else 0) ∧
    gives (.pspace gd ga gb) (BitVec.ofNat 64 (b.toNat % 16 * 2 ^ 60 + a.toNat % 2 ^ 48)) ∧
    (∀ v : DWord, (∀ j < 64, v.getLsbD j = if 50 ≤ j ∧ j < 59 then b.getLsbD (j - 50) else a.getLsbD j) →
      gives (.prank gd ga gb) v) ∧
    gives (.padd gd ga gb) (BitVec.ofNat 64 (a.toNat / 2 ^ 48 * 2 ^ 48 + (a.toNat + b.toNat) % 2 ^ 48))

/-- Immediate results (R67, R267). -/
def Obligations.ImmediateResults : Prop :=
  ∀ (s : State) (gd ga : BitVec 5) (imm : BitVec 16) (sh : BitVec 6), s.wordReady [ga] [gd] →
    let a := s.val ga
    let gives (i : Instr) (v : DWord) : Prop := exec i s = .next (s.retired (s.puts gd v) 1)
    gives (.addi gd ga imm) (BitVec.ofInt 64 (a.toInt + imm.toInt)) ∧
    gives (.andi gd ga imm) (BitVec.ofNat 64 (a.toNat &&& imm.toNat)) ∧
    gives (.ori gd ga imm) (BitVec.ofNat 64 (a.toNat ||| imm.toNat)) ∧
    gives (.xori gd ga imm) (BitVec.ofNat 64 (a.toNat ^^^ imm.toNat)) ∧
    gives (.slli gd ga sh) (BitVec.ofNat 64 (a.toNat * 2 ^ sh.toNat)) ∧
    gives (.srli gd ga sh) (BitVec.ofNat 64 (a.toNat / 2 ^ sh.toNat)) ∧
    gives (.srai gd ga sh) (BitVec.ofInt 64 (a.toInt >>> sh.toNat)) ∧
    gives (.slti gd ga imm) (if a.toInt < imm.toInt then 1 else 0) ∧
    gives (.sltui gd ga imm) (if a.toNat < (BitVec.ofInt 64 imm.toInt).toNat then 1 else 0) ∧
    gives (.lui gd imm) (BitVec.ofInt 64 (imm.toInt * 65536)) ∧
    gives (.addpc gd imm) (BitVec.ofInt 64 ((s.self.pc : Int) + imm.toInt * 4))

/-- Branches and jumps (R68): where each continues, and the link. The next word follows where a branch is not taken. -/
def Obligations.BranchTargets : Prop :=
  ∀ (s : State) (gd ga gb : BitVec 5) (disp : BitVec 16) (far : BitVec 21), s.wordReady [ga, gb] [gd] →
    let a := s.val ga
    let b := s.val gb
    let there (n : Int) : Nat := (((s.self.pc : Int) + 4 * n) % 262144).toNat
    let link : DWord := BitVec.ofNat 64 ((s.self.pc + 4) % 262144)
    let branches (i : Instr) (taken : Prop) : Prop :=
      (taken → exec i s = .next (s.jumped s (there disp.toInt))) ∧ (¬ taken → exec i s = .next (s.retired s 1))
    branches (.brEq ga gb disp) (a = b) ∧
    branches (.brNe ga gb disp) (a ≠ b) ∧
    branches (.brLt ga gb disp) (a.toInt < b.toInt) ∧
    branches (.brGe ga gb disp) (b.toInt ≤ a.toInt) ∧
    branches (.brLo ga gb disp) (a.toNat < b.toNat) ∧
    branches (.brHs ga gb disp) (b.toNat ≤ a.toNat) ∧
    exec (.jmpl gd far) s = .next (s.jumped (s.puts gd link) (there far.toInt)) ∧
    (a.toNat < 262144 → a.toNat % 4 = 0 →
      exec (.jr ga) s = .next (s.jumped s a.toNat) ∧ exec (.jrl gd ga) s = .next (s.jumped (s.puts gd link) a.toNat)) ∧
    (¬ (a.toNat < 262144 ∧ a.toNat % 4 = 0) →
      exec (.jr ga) s = .next (s.trapped s 2 a) ∧ exec (.jrl gd ga) s = .next (s.trapped s 2 a))

/-- Hardware loops (R69, R270): LOOP sets the registers of its level, a count of 0 skips the body, a len of 0 raises cause 0;
LEXIT leaves the range of an active level; LREAD reads the register that n selects. The end-of-body check (R269): the highest
level whose lea is the word that completes and whose count is above 1 goes round again; levels above it that end there fall
through; else the next word follows.
Where the manual leaves a point open, this follows the model's choice (log entry 22). -/
def Obligations.HardwareLoops : Prop :=
  (∀ (s : State) (gd n gc : BitVec 5) (lvl : BitVec 2) (cnt : BitVec 9) (len : BitVec 14), s.wordReady [gc] [gd] →
     let pc := s.self.pc
     let b := s.self.bank s.self.level
     let lsa := (pc + 4) % 262144
     let lea := (lsa + 4 * (len.toNat - 1)) % 262144
     let sets (v : DWord) : State := s.modCore s.foc.unit fun c => c.modBank c.level fun b =>
       { lct := mapSet b.lct lvl.toNat v, lsa := mapSet b.lsa lvl.toNat lsa, lea := mapSet b.lea lvl.toNat lea }
     let loops (i : Instr) (v : DWord) : Prop :=
       (v ≠ 0 → exec i s = .next (s.retired (sets v) 1)) ∧ (v = 0 → exec i s = .next (s.jumped (sets v) (lea + 4)))
     (len ≠ 0 → loops (.loop lvl 0 cnt len) (cnt.setWidth 64)) ∧
     (len ≠ 0 → loops (.loop lvl 1 (gc.setWidth 9) len) (s.val gc)) ∧
     (∀ k, len = 0 → exec (.loop lvl k cnt len) s =
       .next (s.trapped s 0 (BitVec.ofNat 64 (encode (.loop lvl k cnt len))))) ∧
     (b.count n.toNat = 0 → exec (.lexit n) s = .next (s.jumped s (pc + 4))) ∧
     (n.toNat < 4 → b.count n.toNat ≠ 0 → ∃ t, exec (.lexit n) s = .next (s.jumped t (b.stop n.toNat + 4)) ∧
       ∀ k < 4, (t.self.bank s.self.level).count k =
         if k = n.toNat ∨ (b.start n.toNat ≤ b.start k ∧ b.stop k ≤ b.stop n.toNat) then 0 else b.count k) ∧
     exec (.lread gd n) s = .next (s.retired (s.puts gd
       (if n.toNat < 4 then BitVec.ofNat 64 (b.count n.toNat)
        else if n.toNat < 8 then BitVec.ofNat 64 (b.start (n.toNat - 4)) else BitVec.ofNat 64 (b.stop (n.toNat - 8)))) 1)) ∧
  (∀ (s : State) (n : Nat),
     let c := s.self
     let b := c.bank c.level
     let d := (s.retired s n).self
     let here (k : Nat) : Prop := 0 < b.count k ∧ b.stop k = c.pc
     d.nextAt = s.now + n ∧
     (∀ k < 4, here k → 1 < b.count k → (∀ j < 4, k < j → here j → b.count j = 1) →
       d.pc = b.start k ∧ (d.bank c.level).count k = b.count k - 1 ∧ (∀ j < k, (d.bank c.level).count j = b.count j) ∧
       ∀ j < 4, k < j → (here j → (d.bank c.level).count j = 0) ∧ (¬ here j → (d.bank c.level).count j = b.count j)) ∧
     ((∀ k < 4, here k → b.count k = 1) →
       d.pc = (c.pc + 4) % 262144 ∧
       ∀ j < 4, (here j → (d.bank c.level).count j = 0) ∧ (¬ here j → (d.bank c.level).count j = b.count j)))

/-- The frame of the words that only write a register or move the pc: no other register, no other core, no byte of memory and no
special register changes. -/
def Obligations.RegisterWordsFrame : Prop :=
  ∀ (s : State) (gd ga gb n : BitVec 5) (imm : BitVec 16) (sh : BitVec 6) (far : BitVec 21), s.wordReady [ga, gb] [gd] →
    let frame (gs : List (BitVec 5)) (i : Instr) : Prop :=
      ∀ t, exec i s = .next t → s.sameButCore s.foc.unit t ∧ s.self.sameBut gs t.self
    (∀ i ∈ [Instr.add gd ga gb, .sub gd ga gb, .and gd ga gb, .or gd ga gb, .xor gd ga gb, .sll gd ga gb, .srl gd ga gb,
        .sra gd ga gb, .slt gd ga gb, .sltu gd ga gb, .mul gd ga gb, .mulh gd ga gb, .mulhu gd ga gb, .div gd ga gb,
        .divu gd ga gb, .rem gd ga gb, .remu gd ga gb, .min gd ga gb, .max gd ga gb, .minu gd ga gb, .maxu gd ga gb,
        .clz gd ga, .ctz gd ga, .popc gd ga, .bext gd ga gb, .ptag gd ga, .pspace gd ga gb, .prank gd ga gb,
        .padd gd ga gb, .addi gd ga imm, .andi gd ga imm, .ori gd ga imm, .xori gd ga imm, .slli gd ga sh, .srli gd ga sh,
        .srai gd ga sh, .slti gd ga imm, .sltui gd ga imm, .lui gd imm, .addpc gd imm, .jmpl gd far, .lread gd n, .time gd],
      frame [gd] i) ∧
    (∀ i ∈ [Instr.brEq ga gb imm, .brNe ga gb imm, .brLt ga gb imm, .brGe ga gb imm, .brLo ga gb imm, .brHs ga gb imm,
        .lexit n, .nop], frame [] i) ∧
    (s.wordReady [gd, ga, gb] [gd] → frame [gd] (.bins gd ga gb)) ∧
    (jrTargetOk (s.val ga) → frame [] (.jr ga) ∧ frame [gd] (.jrl gd ga))

/-- Waiting, time and ordering words (R31, R276, R277, R283, R391): when each retires, and that it stalls till then. Service
words (R60, R279, R281, R283): TRAP to the next level up with tepc behind it, BRK, an illegal word, HALT, IDLE.
Where the manual leaves a point open, this follows the model's choice (log entry 155). -/
def Obligations.WaitingAndServiceWords : Prop :=
  (∀ (s : State) (gd ga scope : BitVec 5) (ld st cp tl : BitVec 4), s.wordReady [ga] [gd] →
     let c := s.self
     let met (imm : BitVec 4) (n : Nat) : Prop := imm.toNat < 15 → n ≤ imm.toNat
     let all := met ld c.ocLd ∧ met st c.ocSt ∧ met cp c.ocCp ∧ met tl c.ocTl
     let clear := ∀ a ∈ s.accs, a.who = .core s.foc.unit → a.done = true ∧ (a.kind = .store ∨ a.kind = .amo .tsig)
     (all → exec (.wait ld st cp tl) s = .next (s.retired s 1)) ∧
     (¬ all → exec (.wait ld st cp tl) s = .next (s.stalls s 3)) ∧
     exec (.time gd) s = .next (s.retired (s.puts gd (BitVec.ofNat 64 s.now)) 1) ∧
     ((s.val ga).toNat ≤ s.now % 2 ^ 64 → exec (.sleep ga) s = .next (s.retired s 1)) ∧
     (¬ (s.val ga).toNat ≤ s.now % 2 ^ 64 → exec (.sleep ga) s = .next (s.stalls s 4)) ∧
     (scope.toNat < 8 → clear → exec (.fence scope) s = .next (s.retired s 1)) ∧
     (scope.toNat < 8 → ¬ clear → exec (.fence scope) s = .next (s.stalls s 1)) ∧
     exec .nop s = .next (s.retired s 1)) ∧
  (∀ (s : State) (code : BitVec 12) (w : Word),
     let c := s.self
     let up := c.level - 1
     (c.ih up = false → ∃ t, exec (.trap code) s = .next t ∧ s.sameButCore s.foc.unit t ∧
       t.self.level = up ∧ t.self.pc = (c.trap up).vec.toNat ∧ t.self.regs = c.regs ∧ t.self.mem = c.mem ∧
       t.self.trap up = { c.trap up with
         cause := 20, epc := BitVec.ofNat 64 ((c.pc + 4) % 262144), val := code.setWidth 64,
         stat := BitVec.ofNat 64 (4 + c.level) }) ∧
     exec (.brk code) s = .next (s.trapped s 21 (code.setWidth 64)) ∧
     exec (.illegalInstruction w) s = .next (s.trapped s 0 (w.setWidth 64)) ∧
     (c.level = 0 → ∃ t, exec .halt s = .next t ∧ s.sameButCore s.foc.unit t ∧
       t.self = { c with mode := .halted, stall := none, acct := t.self.acct }) ∧
     (c.level ≠ 0 → ∃ v, exec .halt s = .next (s.trapped s.bumpId 1 v)) ∧
     exec .idle s = .next (s.stalls (s.modCore s.foc.unit fun c => { c with stall := some .idle }) 4))

/-! ### Traps -/

/-- Trap entry (R280, R394): a fault of a word goes to the highest level at or below its target number whose IH is 0; where every
such level has IH set, the core stops as by HALT. Nothing else of the machine changes. The level that receives a delegable
cause (R393, R365). TRET (R282): pc from tepc, the level from tstat.PL, IH cleared; at task level, or toward a higher
privilege, cause 1. -/
def Obligations.TrapsAndReturn : Prop :=
  ((∀ (s : State) (cause : Nat) (val : DWord),
      let c := s.self
      let tgt := s.target s.foc.unit c.level cause
      let t := s.trapped s cause val
      let d := t.self
      s.sameButCore s.foc.unit t ∧
      (∀ l ≤ tgt, c.ih l = false → (∀ k ≤ tgt, l < k → c.ih k = true) →
        d.level = l ∧ d.pc = (c.trap l).vec.toNat ∧ d.mode = c.mode ∧ d.regs = c.regs ∧ d.mem = c.mem ∧ d.loops = c.loops ∧
        d.nextAt = s.now + 1 ∧ (∀ k, k ≠ l → d.trap k = c.trap k) ∧
        d.trap l = { c.trap l with
          cause := BitVec.ofNat 64 cause, epc := BitVec.ofNat 64 (c.pc % 262144), val := val,
          stat := BitVec.ofNat 64 (4 + c.level) }) ∧
      ((∀ k ≤ tgt, c.ih k = true) → d = { c with mode := .halted, stall := none, acct := d.acct })) ∧
   (∀ (s : State) (r run cause : Nat), run ≤ 3 → cause ≠ 15 →
      let floor := if cause = 3 then 2 else if cause = 4 then 1 else if cause = 5 then 0 else 3
      let pass (l : Nat) : Prop :=
        if l = 2 then (s.core r).rtDeleg.getLsbD cause = true
        else ∃ p, (s.tile r).owner = some p ∧
          (if l = 0 then (s.part p).opDeleg.getLsbD cause else (s.part p).pmDeleg.getLsbD cause) = true
      ∀ l ≤ run, (∀ k < l, pass k) → (l = run ∨ ¬ pass l) → s.target r run cause = min l floor)) ∧
  (∀ (s : State),
     let c := s.self
     let l := c.level
     let pl := (c.trap l).stat.toNat % 4
     (l ≠ 3 → l ≤ pl → (∀ g, s.region? s.foc.unit = some g → g.voiding = none) →
       ∃ t, exec .tret s = .next t ∧ s.sameButCore s.foc.unit t ∧
         t.self.pc = (c.trap l).epc.toNat ∧ t.self.level = pl ∧ t.self.ih l = false ∧ t.self.regs = c.regs ∧
         t.self.mem = c.mem ∧ t.self.nextAt = s.now + 1 ∧ (∀ k, k ≠ l → t.self.trap k = c.trap k) ∧
         t.self.trap l = { c.trap l with stat := (c.trap l).stat &&& 3 }) ∧
     (l = 3 ∨ pl < l → ∃ v, exec .tret s = .next (s.trapped s.bumpId 1 v)))

/-- Events between words (R280, R394): the oldest held event whose level can take it is delivered; tepc is the next word, or the
word behind an IDLE. Events that wait (R394): one that no level can take leaves the core as it is, and a core that holds
sixteen drops the next and counts it. A SLEEP whose time has come retires (R277, R37). -/
def Obligations.EventsBetweenWords : Prop :=
  (∀ (s : State) (e : Event) (pre post : List Event),
     let c := s.self
     c.mode = .running → c.nextAt ≤ s.now → c.events = pre ++ e :: post → e.void = false →
     (∀ x ∈ pre, c.level < x.tgt ∨ c.ih x.tgt = true) → e.tgt ≤ c.level → c.ih e.tgt = false →
     ∃ t, exec .eventDelivery s = .next t ∧ s.sameButCore s.foc.unit t ∧
       t.self.events = pre ++ post ∧ t.self.level = e.tgt ∧ t.self.pc = (c.trap e.tgt).vec.toNat ∧ t.self.regs = c.regs ∧
       t.self.mem = c.mem ∧ t.self.stall = none ∧
       t.self.trap e.tgt = { c.trap e.tgt with
         cause := BitVec.ofNat 64 e.cause,
         epc := BitVec.ofNat 64 ((if c.stall = some .idle then c.pc + 4 else c.pc) % 262144), val := e.tval,
         stat := BitVec.ofNat 64 (4 + c.level) }) ∧
  (∀ (s : State) (r cause tgt : Nat) (val : DWord),
     ((∀ x ∈ s.self.events, s.self.level < x.tgt ∨ s.self.ih x.tgt = true) → exec .eventDelivery s = .next s) ∧
     (let d := (s.raiseAt r cause val tgt).core r
      ((s.core r).events.length < 16 →
        d = { s.core r with events := (s.core r).events ++ [⟨cause, val, tgt, false⟩] }) ∧
      (16 ≤ (s.core r).events.length → d = { s.core r with elost := min 255 ((s.core r).elost + 1) }))) ∧
  (∀ (s : State) (ga : BitVec 5),
     let c := s.self
     c.mode = .running → c.nextAt ≤ s.now → (∀ x ∈ c.events, c.level < x.tgt ∨ c.ih x.tgt = true) →
     decodeControl (BitVec.ofNat 32 (readVal c.mem c.pc 4)) = .ok (.sleep ga) → s.wordReady [ga] [] →
     ((s.val ga).toNat ≤ s.now % 2 ^ 64 → exec .sleepWake s = .next (s.retired s 1)) ∧
     (s.now % 2 ^ 64 < (s.val ga).toNat → exec .sleepWake s = .next s))

/-! ### Pointers and memory words of the control core -/

/-- The form of a pointer (R62, R63, step 1 of R64), and the address of a memory word (R70): the offset alone moves, modulo 2^48.
The checks of R64 on the pointer of a memory word, in their order: the first that fails raises its cause with the pointer in
tval. -/
def Obligations.PointerChecks : Prop :=
  ((∀ p : DWord,
     let sp := p.toNat / 2 ^ 60
     let off := p.toNat % 2 ^ 48
     ptrFormOk p = true ↔
       sp < 8 ∧ p.getLsbD 59 = false ∧ p.getLsbD 49 = false ∧ p.getLsbD 48 = false ∧
       (sp = 0 ∨ sp = 1 ∨ sp = 4 ∨ sp = 7 → p.toNat / 2 ^ 50 % 2 ^ 9 = 0) ∧
       (sp = 1 ∨ sp = 2 ∨ sp = 5 → off < 2 ^ 21) ∧
       (sp = 3 → off / 2 ^ 46 < 3 ∧ off % 2 ^ 46 < [2097152, 8388608, 33554432].getD (off / 2 ^ 46) 0) ∧
       (sp = 4 → off < 2 ^ 18)) ∧
   (∀ (s : State) (r : Nat) (ga : BitVec 5) (off : BitVec 12),
     let a := (s.reg r ga).toNat
     (cmPtr s r ga off).toNat = a / 2 ^ 48 * 2 ^ 48 + (((a : Int) + off.toInt) % 2 ^ 48).toNat)) ∧
  (∀ (s : State) (g ga gb : BitVec 5) (sz ord : BitVec 2) (off : BitVec 12) (aq rl dbl : BitVec 1),
     let l := s.self.level
     let checks (i : Instr) (p : DWord) (n : Nat) (accept : List Nat) : Prop :=
       let raises (cause : Nat) : Prop := exec i s = .next (s.trapped s cause p)
       let ok := ptrFormOk p = true
       let taken := ptrSpace p ∈ accept
       let level := ¬ (ptrSpace p = 7 ∧ 2 ≤ l)
       (¬ ok → raises 3) ∧ (ok → ¬ taken → raises 3) ∧ (ok → taken → ¬ level → raises 1) ∧
       (ok → taken → level → ptrOff p % n ≠ 0 → raises 2) ∧
       (ok → taken → ptrOff p % n = 0 → ptrSpace p = 4 → ptrOff p < (s.self.trap l).pbound.toNat → raises 1)
     let p := cmPtr s s.foc.unit ga off
     (s.memReady [ga] [g] → checks (.ld g ga sz ord off) p (2 ^ sz.toNat) [0, 1, 3, 4, 7]) ∧
     (s.memReady [ga] [g] → checks (.ldu g ga sz ord off) p (2 ^ sz.toNat) [0, 1, 3, 4, 7]) ∧
     (s.memReady [g, ga] [] → checks (.st g ga sz ord off) p (2 ^ sz.toNat) [0, 1, 3, 4, 7]) ∧
     (s.memReady [ga] [] → checks (.tsig ga) (s.val ga) 4 [0, 7]) ∧
     (s.memReady [ga, gb] [g] → ∀ i ∈ [Instr.amoAdd g ga gb aq rl dbl, .amoAnd g ga gb aq rl dbl, .amoOr g ga gb aq rl dbl,
       .amoXor g ga gb aq rl dbl, .amoMin g ga gb aq rl dbl, .amoMax g ga gb aq rl dbl, .amoMinu g ga gb aq rl dbl,
       .amoMaxu g ga gb aq rl dbl, .amoSwp g ga gb aq rl dbl],
       checks i (s.val ga) (if dbl = 1 then 8 else 4) [0, 1, 4, 7]) ∧
     (s.memReady [g, ga, gb] [g] → checks (.amoCas g ga gb aq rl dbl) (s.val ga) (if dbl = 1 then 8 else 4) [0, 1, 4, 7]) ∧
     (s.memReady [ga, gb] [g] → ∀ i ∈ [Instr.amoFadd g ga gb aq rl, .amoFadd2 g ga gb aq rl],
       checks i (s.val ga) 4 [0, 1, 4, 7]))

/-- LD, LDU and ST on private memory (R70, R271, R257, R273): each completes as it issues; a load of an uncorrectable word poisons its
register; a store changes the bytes it names and no others, and one of a poisoned register raises nothing. The twelve atomics on private
memory (R74, R274): what each leaves at the location and in gd; nothing is written where the location is uncorrectable, or where a CAS
does not match. Where the manual leaves a point open, this follows the model's choice (log entry 134). -/
def Obligations.PrivateMemory : Prop :=
  (∀ (s : State) (g ga : BitVec 5) (sz ord : BitVec 2) (off : BitVec 12) (x : Nat),
     let p := cmPtr s s.foc.unit ga off
     let n := 2 ^ sz.toNat
     s.privPtr p n x →
     (s.memReady [ga] [g] → s.privGood x n →
       exec (.ld g ga sz ord off) s = .next (s.retired (s.puts g (BitVec.ofInt 64
         (if s.privVal x n < 2 ^ (8 * n - 1) then (s.privVal x n : Int) else s.privVal x n - 2 ^ (8 * n)))) 1) ∧
       exec (.ldu g ga sz ord off) s = .next (s.retired (s.puts g (BitVec.ofNat 64 (s.privVal x n))) 1)) ∧
     (s.memReady [ga] [g] → ¬ s.privGood x n →
       let t := s.retired (s.modCore s.foc.unit fun c => c.setPoison g p) 1
       exec (.ld g ga sz ord off) s = .next t ∧ exec (.ldu g ga sz ord off) s = .next t) ∧
     (s.memReady [g, ga] [] → ∃ u, exec (.st g ga sz ord off) s = .next (s.retired u 1) ∧ s.sameButCore s.foc.unit u ∧
       u.self = { s.self with mem := u.self.mem, poisoned := s.self.poisoned.filter fun w => !(wordsOf x n).contains w } ∧
       ∀ y, u.privByte y = if x ≤ y ∧ y < x + n then BitVec.ofNat 8 ((s.val g).toNat / 256 ^ (y - x)) else s.privByte y) ∧
     (s.memReady [ga] [g] → ∃ u, exec (.st g ga sz ord off) s = .next (s.retired u 1) ∧
       ∀ y, ¬ (x ≤ y ∧ y < x + n) → u.privByte y = s.privByte y)) ∧
  (∀ (s : State) (gd ga gb : BitVec 5) (aq rl dbl : BitVec 1) (x : Nat),
     let p := s.val ga
     let gives (i : Instr) (n : Nat) (new : Nat) (res : DWord) : Prop :=
       s.privPtr p n x →
       (s.privGood x n → ∃ u, exec i s = .next (s.retired (u.puts gd res) 1) ∧ s.sameButCore s.foc.unit u ∧
         (∀ k, u.val k = s.val k) ∧
         ∀ y, u.privByte y = if x ≤ y ∧ y < x + n then BitVec.ofNat 8 (new / 256 ^ (y - x)) else s.privByte y) ∧
       (¬ s.privGood x n → exec i s = .next (s.trapped s 13 p))
     let n := if dbl = 1 then 8 else 4
     let w := 8 * n
     let old := s.privVal x n
     let b := (s.val gb).toNat % 2 ^ w
     let num (v : Nat) : Int := (BitVec.ofNat w v).toInt
     let sx : DWord := BitVec.ofInt 64 (num old)
     let old32 := s.privVal x 4
     let b32 := (s.val gb).toNat % 2 ^ 32
     let sum (f : ElemFormat) (u v : Nat) : Nat := (roundNE f (faddExact (decodeFloat f u) (decodeFloat f v)).1).1
     (s.memReady [ga, gb] [gd] →
       gives (.amoAdd gd ga gb aq rl dbl) n ((old + b) % 2 ^ w) sx ∧
       gives (.amoAnd gd ga gb aq rl dbl) n (old &&& b) sx ∧
       gives (.amoOr gd ga gb aq rl dbl) n (old ||| b) sx ∧
       gives (.amoXor gd ga gb aq rl dbl) n (old ^^^ b) sx ∧
       gives (.amoMin gd ga gb aq rl dbl) n (if num old ≤ num b then old else b) sx ∧
       gives (.amoMax gd ga gb aq rl dbl) n (if num old ≤ num b then b else old) sx ∧
       gives (.amoMinu gd ga gb aq rl dbl) n (min old b) (BitVec.ofNat 64 old) ∧
       gives (.amoMaxu gd ga gb aq rl dbl) n (max old b) (BitVec.ofNat 64 old) ∧
       gives (.amoSwp gd ga gb aq rl dbl) n b sx ∧
       gives (.amoFadd gd ga gb aq rl) 4 (sum .fp32 old32 b32) (BitVec.ofNat 64 old32) ∧
       gives (.amoFadd2 gd ga gb aq rl) 4
         (sum .fp16 (old32 % 65536) (b32 % 65536) + 65536 * sum .fp16 (old32 / 65536) (b32 / 65536)) (BitVec.ofNat 64 old32)) ∧
     (s.memReady [gd, ga, gb] [gd] →
       gives (.amoCas gd ga gb aq rl dbl) n (if old = (s.val gd).toNat % 2 ^ w then b else old) sx))

/-- Loads, stores, atomics and TSIG on spaces 0, 3 and 7 as they issue (R271, R272, R303): the checks of R64 come first; a full
counter stalls; the word then retires with its access on the way, gd waiting for it, and an acquire holding later words.
Where the manual leaves a point open, this follows the model's choice (log entry 23). -/
def Obligations.RemoteIssue : Prop :=
  ∀ (s : State) (g ga gb : BitVec 5) (sz ord : BitVec 2) (off : BitVec 12) (aq rl dbl : BitVec 1),
    let c := s.self
    let reach (p : DWord) (rd wr : Bool) := s.reach (.core s.foc.unit) (s.owner s.foc.unit) c.asid p ⟨rd, wr, decide (c.level = 3)⟩
    let far (p : DWord) : Prop := ptrSpace p = 0 ∨ ptrSpace p = 3 ∨ ptrSpace p = 7
    -- a load or an atomic: it raises oc.ld and awaits gd
    let fetches (i : Instr) (p : DWord) (n : Nat) (accept : List Nat) (wr : Bool) (k : AccKind) (acq rel : Bool) (v : Nat) : Prop :=
      far p → ptrFault accept c.level n p = none →
      (32 ≤ c.ocLd → exec i s = .next (s.stalls s 5)) ∧
      (c.ocLd < 32 → ∀ s' e, reach p true wr = (s', .fault e) → exec i s = .next (s.trapped s' e p)) ∧
      (c.ocLd < 32 → ∀ s', reach p true wr = (s', .miss) → exec i s = .next (s.stalls s' 2)) ∧
      (c.ocLd < 32 → ∀ s' loc xl, reach p true wr = (s', .at_ loc xl) →
        ∃ t a, exec i s = .next (s.retired t 1) ∧ s'.sends t a k loc n g ∧ a.acq = acq ∧ a.rel = rel ∧ a.data = v ∧
          t.self = { s'.self with
            ocLd := s'.self.ocLd + 1, pend := if g = 0 then s'.self.pend else s'.self.pend ++ [g.toNat],
            acquires := if acq then s'.self.acquires ++ [a.id] else s'.self.acquires })
    let stores (i : Instr) (p : DWord) (n : Nat) (accept : List Nat) (rd : Bool) (k : AccKind) (rel : Bool) (v : Nat) : Prop :=
      far p → ptrFault accept c.level n p = none →
      (32 ≤ c.ocSt → exec i s = .next (s.stalls s 5)) ∧
      (c.ocSt < 32 → ∀ s' e, reach p rd true = (s', .fault e) → exec i s = .next (s.trapped s' e p)) ∧
      (c.ocSt < 32 → ∀ s', reach p rd true = (s', .miss) → exec i s = .next (s.stalls s' 2)) ∧
      (c.ocSt < 32 → ∀ s' loc xl, reach p rd true = (s', .at_ loc xl) →
        ∃ t a, exec i s = .next (s.retired t 1) ∧ s'.sends t a k loc n 0 ∧ a.rel = rel ∧ a.data = v ∧
          t.self = { s'.self with ocSt := s'.self.ocSt + 1 })
    let p := cmPtr s s.foc.unit ga off
    let n := 2 ^ sz.toNat
    let q := s.val ga
    let m := if dbl = 1 then 8 else 4
    let b := (s.val gb).toNat % 2 ^ (8 * m)
    let amo (i : Instr) (op : AmoOp) : Prop := fetches i q m [0, 1, 4, 7] true (.amo op) (aq == 1) (rl == 1) b
    let famo (i : Instr) (op : AmoOp) : Prop :=
      fetches i q 4 [0, 1, 4, 7] true (.amo op) (aq == 1) (rl == 1) ((s.val gb).toNat % 2 ^ 32)
    (s.memReady [ga] [g] →
      fetches (.ld g ga sz ord off) p n [0, 1, 3, 4, 7] false (.load true) (ord == 1) false 0 ∧
      fetches (.ldu g ga sz ord off) p n [0, 1, 3, 4, 7] false (.load false) (ord == 1) false 0) ∧
    (s.memReady [g, ga] [] →
      stores (.st g ga sz ord off) p n [0, 1, 3, 4, 7] false .store (ord == 1) ((s.val g).toNat % 2 ^ (8 * n))) ∧
    (s.memReady [ga] [] → stores (.tsig ga) q 4 [0, 7] true (.amo .tsig) true 0) ∧
    (s.memReady [ga, gb] [g] →
      amo (.amoAdd g ga gb aq rl dbl) .add ∧ amo (.amoAnd g ga gb aq rl dbl) .and ∧ amo (.amoOr g ga gb aq rl dbl) .or ∧
      amo (.amoXor g ga gb aq rl dbl) .xor ∧ amo (.amoMin g ga gb aq rl dbl) .min ∧ amo (.amoMax g ga gb aq rl dbl) .max ∧
      amo (.amoMinu g ga gb aq rl dbl) .minu ∧ amo (.amoMaxu g ga gb aq rl dbl) .maxu ∧
      amo (.amoSwp g ga gb aq rl dbl) .swp ∧ famo (.amoFadd g ga gb aq rl) .fadd ∧ famo (.amoFadd2 g ga gb aq rl) .fadd2) ∧
    (s.memReady [g, ga, gb] [g] → amo (.amoCas g ga gb aq rl dbl) .cas)

/-- LD, LDU, ST and the atomics on a plain region of the tile's own memory tiles (R148, R166, R167, R271): each completes as it
issues, behind earlier accesses where it is a release; a tolerant region reads uncorrectable words as zero. The words that an
access of a memory tile names (R148, R158): all within one used region of plain mode, else the subcode of the first failure:
outside every region, in a region of another mode, across two regions.
Where the manual leaves a point open, this follows the model's choice (log entries 60 and 135). -/
def Obligations.LocalTileAccess : Prop :=
  (∀ (s : State) (g ga gb : BitVec 5) (sz ord : BitVec 2) (off : BitVec 12) (aq rl dbl : BitVec 1) (reg : MapRegion),
     let r := s.foc.unit
     let p := cmPtr s r ga off
     let n := 2 ^ sz.toNat
     let mine (p : DWord) (n : Nat) (accept : List Nat) : Prop :=
       ptrFault accept s.self.level n p = none ∧ ptrSpace p = 1 ∧
       (s.mtile r (tilePart p).1).plainRegion (wordsOf (tilePart p).2 n) = .ok (some reg)
     let mt (p : DWord) := s.mtile r (tilePart p).1
     let ws (p : DWord) (n : Nat) := wordsOf (tilePart p).2 n
     let quiet := ∀ a ∈ s.accs, a.who = .core r → a.done = true
     let fixed (p : DWord) (n : Nat) := s.modMtile r (tilePart p).1 fun m => m.correctAll (ws p n)
     let sx (n v : Nat) : DWord := BitVec.ofInt 64 (BitVec.ofNat (8 * n) v).toInt
     (mine p n [0, 1, 3, 4, 7] → s.memReady [ga] [g] →
       let v := readVal (mt p).mem (tilePart p).2 n
       ((mt p).anyBad (ws p n) = false →
         exec (.ld g ga sz ord off) s = .next (s.retired ((fixed p n).puts g (sx n v)) 1) ∧
         exec (.ldu g ga sz ord off) s = .next (s.retired ((fixed p n).puts g (BitVec.ofNat 64 v)) 1)) ∧
       ((mt p).anyBad (ws p n) = true → reg.tol = true →
         let u := (fixed p n).countSub (s.owner r)
         let z := (mt p).tolerant (tilePart p).2 n
         exec (.ld g ga sz ord off) s = .next (s.retired (u.puts g (sx n z)) 1) ∧
         exec (.ldu g ga sz ord off) s = .next (s.retired (u.puts g (BitVec.ofNat 64 z)) 1)) ∧
       ((mt p).anyBad (ws p n) = true → reg.tol = false →
         let u := (fixed p n).modCore r fun c => c.setPoison g p
         exec (.ld g ga sz ord off) s = .next (s.retired u 1) ∧ exec (.ldu g ga sz ord off) s = .next (s.retired u 1))) ∧
     (mine p n [0, 1, 3, 4, 7] → s.memReady [g, ga] [] →
       (ord = 1 → ¬ quiet → exec (.st g ga sz ord off) s = .next (s.stalls s 6)) ∧
       (ord ≠ 1 ∨ quiet → ∃ u, exec (.st g ga sz ord off) s = .next (s.retired u 1) ∧
         s.storesAt u (.mtile r (tilePart p).1 (tilePart p).2) n (s.val g).toNat ∧ u.self = s.self)) ∧
     (let q := s.val ga
      let amo (i : Instr) (op : AmoOp) (n : Nat) : Prop :=
       mine q n [0, 1, 4, 7] →
       let old := readVal (mt q).mem (tilePart q).2 n
       let b := (s.val gb).toNat % 2 ^ (8 * n)
       let cmp := (s.val g).toNat % 2 ^ (8 * n)
       (rl = 1 → ¬ quiet → exec i s = .next (s.stalls s 6)) ∧
       ((rl ≠ 1 ∨ quiet) → (mt q).anyBad (ws q n) = true → exec i s = .next (s.trapped (fixed q n) 13 q)) ∧
       ((rl ≠ 1 ∨ quiet) → (mt q).anyBad (ws q n) = false →
         ∃ u, exec i s = .next (s.retired (u.puts g (amoResult op n old)) 1) ∧ u.self = s.self ∧
           s.storesAt u (.mtile r (tilePart q).1 (tilePart q).2) n (if amoWrites op old cmp then amoNew op (8 * n) old b cmp else old))
      let m := if dbl = 1 then 8 else 4
      (s.memReady [ga, gb] [g] →
       amo (.amoAdd g ga gb aq rl dbl) .add m ∧ amo (.amoAnd g ga gb aq rl dbl) .and m ∧ amo (.amoOr g ga gb aq rl dbl) .or m ∧
       amo (.amoXor g ga gb aq rl dbl) .xor m ∧ amo (.amoMin g ga gb aq rl dbl) .min m ∧ amo (.amoMax g ga gb aq rl dbl) .max m ∧
       amo (.amoMinu g ga gb aq rl dbl) .minu m ∧ amo (.amoMaxu g ga gb aq rl dbl) .maxu m ∧
       amo (.amoSwp g ga gb aq rl dbl) .swp m ∧ amo (.amoFadd g ga gb aq rl) .fadd 4 ∧
       amo (.amoFadd2 g ga gb aq rl) .fadd2 4) ∧
      (s.memReady [g, ga, gb] [g] → amo (.amoCas g ga gb aq rl dbl) .cas m))) ∧
  (∀ (m : MTile) (w : Nat) (ws : List Nat),
     let inside (v : Nat) (reg : MapRegion) : Prop := m.regionOf v = some reg
     (∀ reg, (∀ v ∈ w :: ws, inside v reg) → reg.mode = 0 → m.plainRegion (w :: ws) = .ok (some reg)) ∧
     ((∃ v ∈ w :: ws, m.regionOf v = none) → m.plainRegion (w :: ws) = .error 0) ∧
     ((∀ v ∈ w :: ws, ∃ reg, inside v reg) → (∃ v ∈ w :: ws, ∃ reg, inside v reg ∧ reg.mode ≠ 0) →
       m.plainRegion (w :: ws) = .error 1) ∧
     ((∀ v ∈ w :: ws, ∃ reg, inside v reg ∧ reg.mode = 0) →
       (∃ v ∈ ws, ∃ a b, inside w a ∧ inside v b ∧ a.idx ≠ b.idx) → m.plainRegion (w :: ws) = .error 2) ∧
     (m.mapped = false → ∀ v < 262144, inside v ⟨0, 0, false, 0, 262144⟩))

/-- An access performs at its home (R377, R274, R303, R329): a load reads the bytes there, a store writes them, an atomic reads
and writes with nothing between; an uncorrectable line stops an atomic from writing. No other byte changes. The completion of
an access of a core (R271, R273, R274, R303): the counter falls, and a load or an atomic writes its register, poisons it
where the data was uncorrectable, or reports an error that no register can carry as an event.
Where the manual leaves a point open, this follows the model's choice (log entries 135 and 136). -/
def Obligations.RemoteAccess : Prop :=
  (∀ (s : State) (a : Access),
     s.accs.find? (fun b => decide (b.id = s.foc.unit)) = some a → s.mayPerform a = true → (∀ t, a.who ≠ .sched t) →
     let old := (s.locRead a.loc a.size).1
     let bad := s.locBad a.loc a.size
     ((∀ b, ¬ s.awaits a b) → a.fault ≠ 0 → ∃ t, exec .accessAtHome s = .next t ∧ s.settles t a 0 [] a.fault ∧ s.sameBytes t) ∧
     ((∀ b, ¬ s.awaits a b) → a.fault = 0 → s.plainAccess a →
       ∃ t, exec .accessAtHome s = .next t ∧ match a.kind with
         | .load _ => s.sameBytes t ∧ s.settles t a (blankBytes old bad) (if a.tol then [] else bad) 0
         | .store => s.storesAt t a.loc a.size a.data ∧ s.settles t a 0 [] 0
         | .amo op =>
           if bad ≠ [] then s.sameBytes t ∧ s.settles t a 0 bad 0
           else s.storesAt t a.loc a.size (if amoWrites op old a.cmp then amoNew op (8 * a.size) old a.data a.cmp else old) ∧
             s.settles t a old [] 0) ∧
     (∀ b r, a.who = .core r → a.kind = .store → a.fault = 0 → s.plainAccess a → s.awaits a b → (∀ c, s.awaits a c → c = b) →
       (∀ c ∈ s.accs, c.id = a.id → c = a) → (∀ c ∈ s.accs, c.id = b.id → c = b) → b.before = [a.id] → b.done = false →
       b.issued ≤ s.now → b.fault = 0 → b.loc = a.loc → b.size = a.size → b.shared = none → a.xl = none → b.xl = none → bad = [] →
       ∃ t, exec .accessAtHome s = .next t ∧
         { b with done := true, val := a.data % 2 ^ (8 * a.size), bad := [] } ∈ t.accs)) ∧
  (∀ (s : State) (a : Access),
     let r := s.foc.unit
     let c := s.self
     let g := BitVec.ofNat 5 a.gd
     let gone (t : State) : Prop := t.accs = s.accs.filter fun b => decide (b.id ≠ a.id)
     let less : Core := { c with pend := c.pend.erase a.gd, ocLd := c.ocLd - 1, acquires := c.acquires.erase a.id }
     let tells (t : State) (d : Core) (cause : Nat) : Prop :=
       c.events.length < 16 → t.self = { d with events := d.events ++ [⟨cause, a.ptr, s.target r c.level cause, false⟩] }
     let loaded : DWord := match a.kind with
       | .load true => BitVec.ofInt 64 (BitVec.ofNat (8 * a.size) a.val).toInt
       | .load false => BitVec.ofNat 64 a.val
       | .amo op => amoResult op a.size a.val
       | .store => 0
     (s.replyOf r s.foc.sub true = some a → ∃ t, exec .loadReply s = .next t ∧ gone t ∧ s.sameBytes t ∧
       (a.fault = 0 → a.bad = [] → t.self = less.setReg g loaded) ∧
       ((a.fault = 13 ∨ a.fault = 0 ∧ a.bad ≠ []) → (g ≠ 0 ∨ a.kind = .load true ∨ a.kind = .load false) → a.gd < 32 →
         t.self = less.setPoison g a.ptr) ∧
       ((a.fault = 13 ∨ a.fault = 0 ∧ a.bad ≠ []) → (∃ op, a.kind = .amo op) → a.gd = 0 → tells t less 13) ∧
       (a.fault ≠ 0 → a.fault ≠ 13 → ∃ v, tells t (less.setReg g v) a.fault)) ∧
     (s.replyOf r s.foc.sub false = some a → ∃ t, exec .storeAck s = .next t ∧ gone t ∧ s.sameBytes t ∧
       (a.fault = 0 → a.bad = [] → t.self = { c with ocSt := c.ocSt - 1 }) ∧
       (a.fault = 0 → a.bad ≠ [] → tells t { c with ocSt := c.ocSt - 1 } 13) ∧
       (a.fault ≠ 0 → tells t { c with ocSt := c.ocSt - 1 } a.fault)))

/-- A walk of a page (R359): the next table entry of the stage that needs one is read, or the walk fails for every unit that
waits for it, or it fills the cache of its base die. The permissions of a translated access (R355, R356, R358): stage A
before stage B, and a write to a page discarded for good raises cause 15. -/
def Obligations.Translation : Prop :=
  (∀ (s : State) (k : Walk),
     s.walks.find? (fun j => decide (j.id = s.foc.unit)) = some k →
     ((s.walks.filter fun j => decide (j.stack = k.stack)).take 16).contains k = true →
     let others := s.walks.filter fun j => decide (j.id ≠ k.id)
     ∃ t, exec .translationWalk s = .next t ∧ s.sameBytes t ∧ t.tiles = s.tiles ∧ t.accs = s.accs ∧
       (∀ tier a, walkVirt s k.key.1 k.key.2 k.vals = .read tier a none →
         s.badLines.contains (tier, a / 64) = false → s.lostLine tier a = false →
         t.walks = s.walks.map fun j => if j.id = k.id then { j with vals := j.vals ++ [some (s.dramRead tier a 8)] } else j) ∧
       (∀ cause leaf e, walkVirt s k.key.1 k.key.2 k.vals = .fail cause leaf e →
         t.walks = others ∧ t.wfaults = s.wfaults ++ k.who.map fun w => ⟨w, k.key, cause, leaf, e⟩) ∧
       (∀ x e, walkVirt s k.key.1 k.key.2 k.vals = .ok x e →
         t.walks = others ∧ dieWhole (mapGet [] t.dieTlb k.stack) x.asid x.vpage = some x)) ∧
  (∀ (s : State) (w : Who) (asid vpage : Nat) (n : Need) (x : Xlat),
     s.cached w asid vpage = some x →
     let out := (s.translate w asid vpage n).2
     let okA := (n.r = true → x.ar = true) ∧ (n.w = true → x.aw = true) ∧ (n.task = true → x.aT = true)
     let okB := (n.r = true → x.br = true) ∧ (n.w = true → x.bw = true)
     let lost := n.w = true ∧ s.discarded x.subp x.page = some false
     (¬ okA → out = .fault 3) ∧ (okA → ¬ okB → out = .fault 4) ∧ (okA → okB → lost → out = .fault 15) ∧
     (okA → okB → ¬ lost → out = .at_ x))

/-- The versioned words of the control core (R155, R159): a load performs on a slot that holds its version, a store on an empty
one, a reclaim on a slot that holds its version; the distance of versions decides between a wait, a miss and a fault.
Where the manual leaves a point open, this follows the model's choice (log entry 149). -/
def Obligations.VersionedWords : Prop :=
  ∀ (s : State) (gd ga gb : BitVec 5) (q k : Nat) (reg : MapRegion),
    let r := s.foc.unit
    let p := s.val ga
    let v := (s.val gb).toNat % 256
    let m := s.mtile r q
    let slot := m.slot reg.base k v
    let d := (slot.2 + 256 - v) % 256
    let data := reg.base + 3 * k + v % 2
    let tag := reg.base + 3 * k + 2
    verWord s r p = .ok (q, reg, k) → m.poisoned.contains tag = false → (s.self.stall = none ∨ m.settled s.now reg.base k v = true) →
    let waits (i : Instr) : Prop :=
      exec i s = .next (s.stalls (s.modCore r fun c => { c with stall := some (.latch []) }) 6)
    let faults (i : Instr) (cause : Nat) : Prop := exec i s = .next (s.trapped s cause p)
    (s.memReady [ga, gb] [gd] →
      let i := Instr.ldv gd ga gb
      (slot.1 = false → waits i) ∧ (slot.1 = true → 128 < d → waits i) ∧ (slot.1 = true → d = 128 → faults i 7) ∧
      (slot.1 = true → 0 < d → d < 128 → faults i 8) ∧
      (slot.1 = true → d = 0 → m.poisoned.contains data = false → ∃ u, s.sameBytes u ∧ u.self = s.self ∧
        exec i s = .next (s.retired (u.puts gd ((m.word data).setWidth 64)) 1)) ∧
      (slot.1 = true → d = 0 → m.poisoned.contains data = true → ∃ u, s.sameBytes u ∧ u.self = s.self ∧
        (reg.tol = true → exec i s = .next (s.retired (u.puts gd 0) 1)) ∧
        (reg.tol = false → exec i s = .next (s.trapped u 13 p)))) ∧
    (s.memReady [gd, ga, gb] [] →
      let i := Instr.stv gd ga gb
      (slot.1 = true → 128 < d → waits i) ∧ (slot.1 = true → d ≤ 128 → faults i 7) ∧
      (slot.1 = false → ∃ u, exec i s = .next (s.retired u 1) ∧ u.self = s.self ∧
        (u.mtile r q).slot reg.base k v = (true, v) ∧ (u.mtile r q).word data = (s.val gd).setWidth 32 ∧
        (u.mtile r q).slot reg.base k (v + 1) = m.slot reg.base k (v + 1) ∧
        ∀ w, w ≠ data → w ≠ tag → (u.mtile r q).word w = m.word w)) ∧
    (s.memReady [ga, gb] [] →
      let i := Instr.recl ga gb
      (slot.1 = true → d = 128 → faults i 7) ∧
      (slot.1 = false ∨ (d ≠ 0 ∧ d ≠ 128) → exec i s = .next (s.retired (s.defer (.miss r q)) 1)) ∧
      (slot.1 = true → d = 0 → ∃ u, exec i s = .next (s.retired u 1) ∧ u.self = s.self ∧
        (u.mtile r q).slot reg.base k v = (false, 0) ∧ (u.mtile r q).slot reg.base k (v + 1) = m.slot reg.base k (v + 1) ∧
        ∀ w, w ≠ tag → (u.mtile r q).word w = m.word w)) ∧
    (s.memReady [ga] [gd] → ∃ u, s.sameBytes u ∧ u.self = s.self ∧
      exec (.vqry gd ga) s = .next (s.retired (u.puts gd ((m.word tag).setWidth 64)) 1))

/-! ### Operand blocks and streams -/

/-- The operand block of a word (R64, R257, R273): in private memory it is the bytes at the pointer, an uncorrectable word among
them raises cause 13, and a pointer that fails a check raises its cause; the state is as it was. The fields of a stream
parameter block that break its rules (R180): version, reserved bits, format, reuse, direction, sizes and strides of the
dimensions, the gathered row. SIN, SOUT and SIDX (R186): the handle and the block are checked in order; a running generator
or a full oc.tl stalls; then the generator runs the block's stream from its first token, oc.tl rises and gd receives the
handle.
Where the manual leaves a point open, this follows the model's choice (log entries 24, 74, 77, 78 and 145). -/
def Obligations.StreamBlocksAndStarts : Prop :=
  (∀ (s : State) (spaces : List Nat) (p : DWord) (n x : Nat),
     let r := s.foc.unit
     (∀ c, ptrFault spaces s.self.level n p = some c → s.readBlock r spaces p n = .stop (.trap s c p)) ∧
     (4 ∈ spaces → s.privPtr p n x →
       (s.privGood x n → s.readBlock r spaces p n = .ok s (leBytes n (s.privVal x n))) ∧
       (¬ s.privGood x n → s.readBlock r spaces p n = .stop (.trap s 13 p))) ∧
     (4 ∈ spaces → ptrFault spaces s.self.level n p = none → ptrSpace p = 4 →
       ptrOff p < (s.self.trap s.self.level).pbound.toNat → s.readBlock r spaces p n = .stop (.trap s 1 p)) ∧
     (ptrFault spaces s.self.level n p = none → ptrSpace p ≠ 4 → s.releases r ≠ [] → s.readBlock r spaces p n = .stop (.wait s 5))) ∧
  (∀ (b : Nat) (dirs : List Nat),
     let field (lo n : Nat) : Nat := b / 2 ^ lo % 2 ^ n
     let dims := field 494 2 + 1
     let dir := field 500 4
     let row := field 400 16
     spbBad b dirs = false ↔
       field 504 8 = 1 ∧ field 448 28 = 0 ∧ field 384 16 = 0 ∧ field 496 4 ≤ 9 ∧ field 489 3 ≤ 3 ∧ dir ∈ dirs ∧
       (∀ k < 4, k < dims → field (96 + 64 * k) 32 ≠ 0) ∧ (∀ k < 4, dims ≤ k → field (64 + 64 * k) 64 = 0) ∧
       (dir = 3 → row % 32 = 0 ∧ 32 ≤ row ∧ row ≤ 4096) ∧ (dir ≠ 3 → row = 0 ∧ field 320 64 = 0)) ∧
  (∀ (s : State) (gd ga gb : BitVec 5), s.memReady [ga, gb] [gd] →
     let r := s.foc.unit
     let p := s.val ga
     let g := (s.val gb).toNat
     let busy := ∃ t, (s.gen r g).stream = some t ∧ t.ended = false
     let rule (i : Instr) (dirs : List Nat) : Prop :=
       (4 ≤ g → exec i s = .next (s.trapped s 6 (ptrSub p 5))) ∧
       (g < 4 → busy → exec i s = .next (s.stalls s 5)) ∧
       (g < 4 → ¬ busy → ∀ s' l, s.readBlock r [0, 4] p 64 = .ok s' l →
         let b := leValue l
         (∀ sub, s'.spbFault r s.self.level b g dirs = some (6, some sub) → exec i s = .next (s.trapped s' 6 (ptrSub p sub))) ∧
         (∀ c, s'.spbFault r s.self.level b g dirs = some (c, none) → exec i s = .next (s.trapped s' c (spbBase b))) ∧
         (s'.spbFault r s.self.level b g dirs = none → 16 ≤ s.self.ocTl → exec i s = .next (s.stalls s' 5)) ∧
         (s'.spbFault r s.self.level b g dirs = none → s.self.ocTl < 16 →
           ∃ u t, exec i s = .next (s.retired (u.puts gd (BitVec.ofNat 64 g)) 1) ∧
             u.self = { s'.self with ocTl := s'.self.ocTl + 1 } ∧ s'.sameBytes u ∧ u.accs = s'.accs ∧
             (u.gen r g).stream = some t ∧ (∀ k, k ≠ g → u.gen r k = s'.gen r k) ∧
             t.spb = b ∧ t.asid = s'.engineAsid r ∧ t.part = s'.owner r ∧ t.level = s.self.level ∧ t.tok = 0 ∧ t.recTok = 0 ∧
             t.out = [] ∧ t.held = [] ∧ t.rounds = 0 ∧ t.closed = false ∧ t.stop = false ∧ t.killed = false ∧ t.ended = false))
     rule (.sin gd ga gb) [0] ∧ rule (.sout gd ga gb) [1, 2] ∧ rule (.sidx gd ga gb) [3])

/-- SKILL and SPOS (R187): a killed read stream issues nothing more but a level-7 marker, a killed write stream drops what no round
has committed; SPOS gives the running flag, the rounds committed and the tokens that have moved since.
Where the manual leaves a point open, this follows the model's choice (log entries 79 and 128). -/
def Obligations.StreamControl : Prop :=
  ∀ (s : State) (gd ga : BitVec 5), s.memReady [ga] [gd] →
    let r := s.foc.unit
    let h := s.val ga
    let g := h.toNat
    let reads (t : Stream) := spbDir t.spb = 0 ∨ spbDir t.spb = 3
    (4 ≤ g → exec (.skill ga) s = .next (s.trapped s 6 (ptrSub h 5)) ∧ exec (.spos gd ga) s = .next (s.trapped s 6 (ptrSub h 5))) ∧
    (g < 4 → (∀ t, (s.gen r g).stream = some t → t.ended = true ∨ t.killed = true) →
      exec (.skill ga) s = .next (s.retired s 1)) ∧
    (g < 4 → ∀ t, (s.gen r g).stream = some t → t.ended = false → t.killed = false →
      ∃ u t', exec (.skill ga) s = .next (s.retired u 1) ∧ (u.gen r g).stream = some t' ∧ u.self = s.self ∧ s.sameBytes u ∧
        t'.killed = true ∧ t'.stop = false ∧ t'.ended = false ∧ t'.tok = t.tok ∧ t'.rounds = t.rounds ∧
        (reads t → t.stop = false → t'.out = t.out ++ [.item (.marker 7)]) ∧
        (¬ reads t → t'.held = [] ∧ t'.commit = t.commit)) ∧
    (g < 4 → (s.gen r g).stream = none → exec (.spos gd ga) s = .next (s.retired (s.puts gd 0) 1)) ∧
    (g < 4 → ∀ t, (s.gen r g).stream = some t →
      exec (.spos gd ga) s = .next (s.retired (s.puts gd (BitVec.ofNat 64
        ((if t.ended then 0 else 2 ^ 63) + t.rounds % 65536 * 2 ^ 32 + (t.tok - t.waiting - t.recTok) % 2 ^ 32))) 1))

/-- A read stream issues its next token (R181, R183): one read for each piece of it, and behind it in the ordered output its
marker and, where a round ends with it, its barrier. The reads of a token return (R183, R184): once all of them have, the
token has its value and the reads are gone. A write stream (R186, R396, R397): a token at its local port is taken, and its
bytes are held until the round commits; a token behind its last one raises cause 6; a stream with nothing left to take or to
commit ends, and oc.tl falls.
Where the manual leaves a point open, this follows the model's choice (log entries 75, 76 and 80). -/
def Obligations.StreamsMove : Prop :=
  (∀ (s s' : State) (t : Stream) (l : List (Span × Loc × Option Xlat)),
     let r := s.foc.unit
     let g := s.foc.sub
     let b := t.spb
     (s.gen r g).stream = some t → (s.fab r).frozen = false → (s.gen r g).nextAt ≤ s.now → (s.gen r g).bubble ≤ s.now → t.issues = true →
     s.joinActive r t.joins = false → spbDir b = 0 → t.waiting < 64 →
     s.genReads r g + (spansOfRuns (spbBase b) (spbTokenRuns b t.tok)).length ≤ 64 →
     s.genPieces r g t true false (spansOfRuns (spbBase b) (spbTokenRuns b t.tok)) = (s', .ok l) →
     ∃ u t' parts, exec .streamReadIssue s = .next u ∧ (u.gen r g).stream = some t' ∧ s.sameBytes u ∧
       t'.tok = t.tok + 1 ∧ t'.closed = decide (t.tok + 1 = spbTotal b) ∧ parts.length = l.length ∧
       u.accs.length = s.accs.length + l.length ∧
       (∀ x ∈ parts, ∃ a ∈ u.accs, a.id = x.acc ∧ a.who = .gen r g ∧ a.kind = .load false ∧ a.done = false) ∧
       t'.out = t.out ++ [.tok t.tok parts none] ++ (if spbMarkAfter b t.tok = 0 then [] else [.item (.marker (spbMarkAfter b t.tok))]) ++
         (if spbEnds b t.tok then [.item (.barrier [(t.id, t.bars, t.start + t.ends + 1)])] else []) ++ t.again (t.tok + 1)) ∧
  (∀ (s : State) (t : Stream) (pre post : List GenOut) (n : Nat) (ps : List Part),
     let r := s.foc.unit
     let g := s.foc.sub
     let id := s.foc.arg
     let mine (a : Access) : Bool := (ps.map Part.acc).contains a.id
     (s.gen r g).stream = some t → t.idxAcc = [] → t.out = pre ++ .tok n ps none :: post → id ∈ ps.map Part.acc →
     (∀ m qs, .tok m qs none ∈ pre → id ∉ qs.map Part.acc) → (∀ m qs, .tok m qs none ∈ pre ++ post → m ≠ n) →
     (∀ a ∈ s.accs, mine a = true → a.done = true ∧ a.fault = 0 ∧ a.bad = []) →
     ∃ u, exec .streamReadReply s = .next u ∧ s.sameBytes u ∧ u.accs = s.accs.filter (fun a => !mine a) ∧
       (u.gen r g).stream = some { t with
         out := pre ++ .tok n ps (some (partsValue t.spb (s.accs.filter mine) ps)) :: post }) ∧
  (∀ (s : State) (t : Stream),
     let r := s.foc.unit
     let g := s.foc.sub
     let b := t.spb
     let k := spbPort b
     (s.gen r g).stream = some t → t.ended = false → t.killed = false → t.commit = [] → (s.fab r).frozen = false →
     (s.gen r g).nextAt ≤ s.now → spbDir b = 1 →
     (∀ s' l toks fmt, t.closed = false → t.stop = false → s.joinActive r t.joins = false →
       s.waitingAt r k = some (.data toks fmt) → t.tok < spbTotal b → t.tok + 1 - t.recTok ≤ 1024 →
       s.genPieces r g t false true (spansOfRuns (spbBase b) (spbTokenRuns b t.tok)) = (s', .ok l) →
       ∃ u t', exec .streamWriteToken s = .next u ∧ (u.gen r g).stream = some t' ∧ s.sameBytes u ∧ u.accs = s.accs ∧
         t'.tok = t.tok + 1 ∧ t'.closed = decide (t.tok + 1 = spbTotal b) ∧
         t'.held = t.held ++ l.map (fun x => ⟨t.seen, x.1.ptr, x.1.size,
           toks.getD 0 0 / 2 ^ x.1.pos % 2 ^ x.1.nbits * 2 ^ x.1.shift, (2 ^ x.1.nbits - 1) * 2 ^ x.1.shift⟩) ∧
         mapGet [] (u.router r).outq k = (mapGet [] (s.router r).outq k).drop 1) ∧
     (t.closed = true → t.held = [] → ∃ u, exec .streamWriteToken s = .next u ∧ s.sameBytes u ∧
       (u.gen r g).stream = some { t with ended := true } ∧ (u.core r).ocTl = (s.core r).ocTl - 1))

/-! ### Configurations, splices, barriers -/

/-- CLOAD (R202) on an operand that names one slot: the pointer and the operand are checked, a full oc.tl or an activation
stalls, the header is checked, the core stalls for the time in which the image is read; then the image, its preloads and the lanes
of its circuits are checked; then oc.tl rises, the slot empties, and a command
writes the image. An image that every tile already holds is not written. A slot write ends (R202): every tile of the command
holds the image under its identifier, and oc.tl of the core falls.
Where the manual leaves a point open, this follows the model's choice (log entries 23, 88, 126 and 127). -/
def Obligations.ConfigurationLoad : Prop :=
  (∀ (s s1 s2 s3 : State) (gd ga gb : BitVec 5) (im : List Byte) (ls : List LaneSet), s.memReady [ga, gb] [gd] →
     let r := s.foc.unit
     let p := s.val ga
     let b := (s.val gb).toNat
     let i := Instr.cload gd ga gb
     let lead := (s.cfgRegion r).1
     let lgn := (s.cfgRegion r).2
     let ranks := blockRanks lead lgn
     let slot := b % 4
     (∀ e, s.checkPtr r [0] p 256 (s.need r true false) = (s1, some e) → exec i s = .next (s.endWord r e)) ∧
     (s.checkPtr r [0] p 256 (s.need r true false) = (s1, none) →
       (2048 ≤ b ∨ b / 4 % 64 ≠ 0 → exec i s = .next (s.trapped s1 16 (cfgVal b))) ∧
       (b < 2048 → b / 4 % 64 = 0 → 16 ≤ (s1.core r).ocTl ∨ s1.activating lead = true → exec i s = .next (s.stalls s1 5)) ∧
       (b < 1024 → b / 4 % 64 = 0 → b / 512 % 2 = 0 → (s1.core r).ocTl < 16 → s1.activating lead = false →
         (∀ e l, (s1.core r).stall = some (.latch (e :: l)) → s1.now < e → exec i s = .next (s.stalls s1 5)) ∧
         ((∀ e l, (s1.core r).stall ≠ some (.latch (e :: l))) → s1.readBytesOf r p 256 = .ok s2 im →
           (∀ o, Image.headFault im lgn = some o → exec i s = .next (s.trapped s2 16 (BitVec.ofNat 64 o))) ∧
           (Image.headFault im lgn = none → exec i s = .next (s.stalls (s2.modCore r fun c =>
             { c with stall := some (.latch [s2.now + (Image.size im + 63) / 64]) }) 5)))) ∧
       (∀ e l, b < 1024 → b / 4 % 64 = 0 → b / 512 % 2 = 0 → (s1.core r).ocTl < 16 → s1.activating lead = false →
         (s1.core r).stall = some (.latch (e :: l)) → e ≤ s1.now →
         (∀ e, s1.readImage r p lgn lead = .stop e → exec i s = .next (s.endWord r e)) ∧
         (∀ e, s1.readImage r p lgn lead = .ok s2 im → s2.preloadStop r (Image.preloads im) = (s3, some e) →
           exec i s = .next (s.endWord r e)) ∧
         (s1.readImage r p lgn lead = .ok s2 im → s2.preloadStop r (Image.preloads im) = (s3, none) →
         ((∃ t ∈ ranks, (s3.fab t).active = some slot) → exec i s = .next (s.trapped s3 16 (cfgVal b))) ∧
         (∀ e, (∀ t ∈ ranks, (s3.fab t).active ≠ some slot) → s3.reserve lead slot im = .error e →
           exec i s = .next (s.trapped s3 23 (BitVec.ofNat 64 e))) ∧
         ((∀ t ∈ ranks, (s3.fab t).active ≠ some slot) → s3.reserve lead slot im = .ok ls →
           let held := ∀ t ∈ ranks, (s3.slot t slot).ident = Image.ident im
           ∃ (u : State) (job : Job) (v : DWord), exec i s = .next (s.retired (u.puts gd v) 1) ∧ u.jobs = s3.jobs ++ [job] ∧ u.lanes = ls ∧
             job.kind = .load slot (decide (b / 256 % 2 = 1)) ∧ job.core = some r ∧ job.lead = lead ∧ job.tiles = ranks ∧
             (u.core r).ocTl = (s3.core r).ocTl + 1 ∧
             (held → v = 0 ∧ job.image = [] ∧ job.ready = s3.now + 1 ∧ ∀ t, u.slot t slot = s3.slot t slot) ∧
             (¬ held → v = BitVec.ofNat 64 (Image.size im) ∧ job.image = im ∧ job.ready = s3.now + 32 ∧
               ∀ t ∈ ranks, (u.slot t slot).ident = 0)))))) ∧
  (∀ (s : State) (job : Job) (slot core : Nat),
     s.jobs.find? (fun j => decide (j.id = s.foc.unit)) = some job → job.kind = .load slot false → job.core = some core →
     job.image ≠ [] → job.ready ≤ s.now → s.joinActive core job.join = false →
     ∃ u, exec .cloadSlotWritten s = .next u ∧ u.jobs = s.jobs.filter (fun j => decide (j.id ≠ job.id)) ∧
       (u.core core).ocTl = (s.core core).ocTl - 1 ∧
       (∀ t ∈ job.tiles, (u.slot t slot).ident = job.ident ∧ (u.slot t slot).image = job.image) ∧
       ∀ t k, t ∉ job.tiles ∨ k ≠ slot → u.slot t k = s.slot t k)

/-- CNEXT (R203, R204): a slot whose identifier does not stand on every tile raises cause 16; a full oc.tl or an activation under
way stalls; on configured tiles the activation is under way afterwards, and oc.tl counts it. A generator switches in an
activation once its stream leaves it free (R205); with the last node of its tile the slot becomes the tile's active one. A
memory tile takes the new map once the cells and the router have switched and its queues are empty.
Where the manual leaves a point open, this follows the model's choice (log entries 72, 89 and 91). -/
def Obligations.Activation : Prop :=
  (∀ (s : State) (ga gb : BitVec 5), s.memReady [ga, gb] [] →
     let r := s.foc.unit
     let a := (s.val ga).toNat
     let lead := (s.cfgRegion r).1
     let ranks := blockRanks lead (s.cfgRegion r).2
     let holds := (s.val gb).toNat ≠ 0 ∧ ∀ t ∈ ranks, (s.slot t a).ident = (s.val gb).toNat
     (4 ≤ a ∨ ¬ holds → exec (.cnext ga gb) s = .next (s.trapped s 16 (cfgVal a))) ∧
     (a < 4 → holds → 16 ≤ s.self.ocTl ∨ s.activating lead = true → exec (.cnext ga gb) s = .next (s.stalls s 5)) ∧
     (a < 4 → holds → s.self.ocTl < 16 → s.activating lead = false → (∃ t ∈ ranks, (s.fab t).active ≠ none) →
       ∃ u job, exec (.cnext ga gb) s = .next (s.retired u 1) ∧ u.jobs = s.jobs ++ [job] ∧ job.kind = .next a ∧
         job.core = some r ∧ job.tiles = ranks ∧ job.image = (s.slot lead a).image ∧ u.self = { s.self with ocTl := s.self.ocTl + 1 } ∧
         ∀ t, (u.fab t).active = (s.fab t).active)) ∧
  (∀ (s : State) (g q slot : Nat) (job : Job),
     let r := s.foc.unit
     let done (t : State) (k : Nat) : Prop := mapGet 0 (t.fab r).nodes k = job.id + 1
     (s.fab r).frozen = false → job.kind = .next slot → done s 16 → ¬ done s 25 →
     (g < 4 → s.waveOf r (21 + g) = some job →
       (∀ t, (s.gen r g).stream = some t → t.ended = true ∨ spbDir t.spb = 0 ∨ spbDir t.spb = 3) →
       ∃ u, exec (.nodeSwitch (.gen g)) s = .next u ∧
         ((∃ k < 25, k ≠ 21 + g ∧ ¬ done s k) →
           done u (21 + g) ∧ (∀ k, k ≠ 21 + g → done s k → done u k) ∧ (u.fab r).active = (s.fab r).active) ∧
         ((∀ k < 25, k ≠ 21 + g → done s k) → (u.fab r).active = some slot)) ∧
     (q < 2 → s.waveOf r (19 + q) = some job → (∀ k < 17, done s k) → (∀ e ∈ (s.mtile r q).queues, e.2.items = []) →
       (∀ p ∈ Image.preloads job.image, p.tile ≠ (s.slot r slot).index ∨ p.q ≠ q) →
       ∃ u, exec (.nodeSwitch (.mtile q)) s = .next u ∧ ((∃ k < 25, k ≠ 19 + q ∧ ¬ done s k) → done u (19 + q)) ∧
         (u.mtile r q).map = Image.mapOf job.image (s.slot r slot).index q ∧ (u.mtile r q).mapped = true ∧
         (u.mtile r q).queues = [] ∧ (u.mtile r q).win = []))

/-- CFRZ, CTHAW and CSAVE (R208, R209): a selector outside the region raises cause 16; a full oc.tl stalls; CFRZ and CSAVE freeze
exactly the tiles selected and count in oc.tl, CTHAW releases them with the next cycle. The end of CFRZ, CSAVE and CREST (R208 to R210): once
every unit of the tiles is frozen CFRZ ends; CSAVE ends with the record of its tiles; CREST ends with the tiles frozen and
their cells as saved. oc.tl falls each time. CREST (R210): the pointer, the selector and oc.tl are checked, then the header
of the area and its record, and the image of the region task where a slot needs it; the command that writes the record back counts
in oc.tl. An area of neither this device nor another that its check code names raises cause 16.
Where the manual leaves a point open, this follows the model's choice (log entries 8, 19, 93 and 94). -/
def Obligations.FreezeSaveRestore : Prop :=
  (∀ (s s1 : State) (ga gb : BitVec 5),
     let r := s.foc.unit
     let lead := (s.cfgRegion r).1
     let size := 2 ^ (s.cfgRegion r).2
     let first (v : Nat) := v % 512
     let n (v : Nat) := v / 512 % 1024
     let good (v : Nat) : Prop := v < 2 ^ 19 ∧ 1 ≤ n v ∧ n v ≤ 512 ∧ first v + n v ≤ size
     let named (v t : Nat) : Prop := lead + first v ≤ t ∧ t < lead + first v + n v
     let frozen (t : State) (v : Nat) (b : Bool) : Prop :=
       ∀ k, t.fab k = if lead + first v ≤ k ∧ k < lead + first v + n v then { s.fab k with frozen := b } else s.fab k
     (s.memReady [ga] [] →
       let v := (s.val ga).toNat
       (¬ good v → exec (.cfrz ga) s = .next (s.trapped s 16 (cfgVal v)) ∧ exec (.cthaw ga) s = .next (s.trapped s 16 (cfgVal v))) ∧
       (good v → 16 ≤ s.self.ocTl → exec (.cfrz ga) s = .next (s.stalls s 5)) ∧
       (good v → s.self.ocTl < 16 → ∃ u job, exec (.cfrz ga) s = .next (s.retired u 1) ∧ frozen u v true ∧
         u.jobs = s.jobs ++ [job] ∧ job.kind = .freeze ∧ job.core = some r ∧ (∀ t, t ∈ job.tiles ↔ named v t) ∧
         u.self = { s.self with ocTl := s.self.ocTl + 1 }) ∧
       (good v → ∃ ts, exec (.cthaw ga) s = .next (s.retired (s.defer (.thaw ts)) 1) ∧ frozen (s.begin (.thaw ts)) v false)) ∧
     (s.memReady [ga, gb] [] →
       let p := s.val ga
       let v := (s.val gb).toNat
       (∀ c, ptrFault [0] s.self.level 4096 p = some c → exec (.csave ga gb) s = .next (s.trapped s c p)) ∧
       (ptrFault [0] s.self.level 4096 p = none → ¬ good v → exec (.csave ga gb) s = .next (s.trapped s 16 (cfgVal v))) ∧
       (ptrFault [0] s.self.level 4096 p = none → good v → 16 ≤ s.self.ocTl → exec (.csave ga gb) s = .next (s.stalls s 5)) ∧
       (ptrFault [0] s.self.level 4096 p = none → good v → s.self.ocTl < 16 →
         (let m := s.saveBytes ((List.range (n v)).map (lead + first v + ·))
          s.warm r p m (s.need r false true) (m / 65536 + 2) = (s1, none)) →
         ∃ u job num, exec (.csave ga gb) s = .next (s.retired u 1) ∧ (∀ t, named v t → (u.fab t).frozen = true) ∧
           u.jobs = s1.jobs ++ [job] ∧ job.kind = .save p num ∧ job.core = some r ∧ (∀ t, t ∈ job.tiles ↔ named v t) ∧
           (u.core r).ocTl = (s1.core r).ocTl + 1))) ∧
  (∀ (s : State) (job : Job) (core : Nat),
     s.jobs.find? (fun j => decide (j.id = s.foc.unit)) = some job → job.core = some core →
     let isOver (u : State) : Prop := u.jobs = s.jobs.filter (fun j => decide (j.id ≠ job.id))
     (job.kind = .freeze → (∀ t ∈ job.tiles, s.tileFrozen t = true) →
       ∃ u, exec .freezeComplete s = .next u ∧ isOver u ∧ (u.core core).ocTl = (s.core core).ocTl - 1 ∧ s.sameBytes u) ∧
     (∀ area num, job.kind = .save area num → (∀ t ∈ job.tiles, s.tileFrozen t = true) → s.jobReady job = true →
       (∀ n b, s.writeHeld (s.owner core) (s.core core).asid area n b = false) →
       ∃ u k, exec .csaveComplete s = .next u ∧ isOver u ∧ (u.core core).ocTl = (s.core core).ocTl - 1 ∧
         mapFind u.saved num = some k ∧ k.count = job.tiles.length ∧
         ∀ i < job.tiles.length, mapFind k.fabs i = some ((s.fab (job.tiles.getD i job.lead)).saved s.now)) ∧
     (∀ num k t, job.kind = .restore num → s.jobReady job = true → mapFind s.saved num = some k → job.tiles = [t] →
       (mapGet Fabric.reset k.fabs 0).active = none →
       ∃ u, exec .crestComplete s = .next u ∧ isOver u ∧ (u.core core).ocTl = (s.core core).ocTl - 1 ∧
         (u.fab t).frozen = true ∧ (u.fab t).active = none ∧
         ∀ c, (u.cell t c).banks = (mapGet Cell.reset (mapGet Fabric.reset k.fabs 0).cells c).banks)) ∧
  (∀ (s s1 s2 : State) (ga gb : BitVec 5) (head bytes : List Byte), s.memReady [ga, gb] [] →
     let r := s.foc.unit
     let p := s.val ga
     let v := (s.val gb).toNat
     let lead := (s.cfgRegion r).1
     let i := Instr.crest ga gb
     (∀ c, ptrFault [0] s.self.level 4096 p = some c → exec i s = .next (s.trapped s c p)) ∧
     (ptrFault [0] s.self.level 4096 p = none → selectTiles lead (s.cfgRegion r).2 v = none →
       exec i s = .next (s.trapped s 16 (cfgVal v))) ∧
     ∀ ts, ptrFault [0] s.self.level 4096 p = none → selectTiles lead (s.cfgRegion r).2 v = some ts →
       (16 ≤ s.self.ocTl → exec i s = .next (s.stalls s 5)) ∧
       (s.self.ocTl < 16 → s.readBytesOf r p 24 = .ok s1 head →
         let sel := blockWord head 2
         let ident := blockWord head 1
         let slot := sel / 2 ^ 20 % 4
         let sound := blockWord head 0 = 1 ∧ sel % 2 ^ 19 = v ∧ sel < 2 ^ 22 ∧ sel / 2 ^ 19 % 2 = 0
         (¬ sound → exec i s = .next (s.trapped s 16 (cfgVal p.toNat))) ∧
         (sound →
           let saves := s1.savesLike (v % 512) (v / 512 % 1024) slot ident
           let restores (s2 : State) (k : Saved) (im : List Byte) : Prop :=
             ∃ u job num, exec i s = .next (s.retired u 1) ∧ u.jobs = s2.jobs ++ [job] ∧ job.kind = .restore num ∧
               job.core = some r ∧ job.tiles = ts ∧ job.image = im ∧ mapFind u.saved num = some k ∧
               (u.core r).ocTl = (s2.core r).ocTl + 1
           (∀ c, s1.savedAt r p saves = (s2, .error c) → exec i s = .next (s.stalls s2 c)) ∧
           (∀ k, s1.savedAt r p saves = (s2, .ok (some k)) →
             (s2.needsImage k ts = false → restores s2 k []) ∧
             (s2.needsImage k ts = true → ∀ s3 im, s2.taskImage r k.ident = .ok s3 im → restores s3 k im) ∧
             (s2.needsImage k ts = true → ∀ s3, s2.taskImage r k.ident = .stop (.done s3) →
               exec i s = .next (s.trapped s2 16 (cfgVal p.toNat)))) ∧
           (s1.savedAt r p saves = (s2, .ok none) → ident = 0 → ∀ s3 s4, s2.taskImage r ident = .stop (.done s3) →
             s2.readBytesOf r p (4096 + 262144 * ts.length) = .ok s4 bytes → Config.foreignCheck bytes = false →
             exec i s = .next (s.trapped s4 16 (cfgVal p.toNat)))))) ∧
  (∀ (s s' : State) (r : Nat) (p : DWord) (k : Saved) (ks : List Saved) (l : List Byte),
     s.readBytesOf r p k.size = .ok s' l →
     (savedBytes k k.size = l → s.savedAt r p (k :: ks) = (s', .ok (some k))) ∧
     (savedBytes k k.size ≠ l → s.savedAt r p (k :: ks) = s'.savedAt r p ks))

/-- CSPLICE (R211): the descriptor and the handle are checked, a full oc.tl stalls; then the record stands behind the last item
of the read stream with this core's next sequence number, which gd receives. A splice record on its way (R212 to R214): a cell
that is not the stage it names passes it from every input to every output; a stage that it removes leaves the chain, and what stood
at its input goes on behind the record on a link around it; a sink consumes it, and with its last copy oc.tl
of the core that issued it falls.
Where the manual leaves a point open, this follows the model's choice (log entries 95, 129 and 130). -/
def Obligations.Splices : Prop :=
  (∀ (s s' : State) (gd ga gb : BitVec 5) (l : List Byte), s.memReady [ga, gb] [gd] →
     let r := s.foc.unit
     let p := s.val ga
     let h := s.val gb
     let g := h.toNat
     let d := leValue l
     let i := Instr.csplice gd ga gb
     let reads (t : Stream) : Prop := t.ended = false ∧ (spbDir t.spb = 0 ∨ spbDir t.spb = 3)
     let sound := d % 4 < 3 ∧ 1 ≤ d / 8 % 2048 ∧ d / 8 % 2048 ≤ 1024 ∧ d / 2 ^ 16 % 2 ^ 48 = 0 ∧
       (d % 4 ≠ 2 → d / 2 ^ 64 % 2 ^ 64 = 0) ∧ (d % 4 ≠ 0 → d / 2 ^ 14 % 4 = 0 ∧ d / 4 % 2 = 0)
     (∀ e, s.readBlock r [0, 4] p 16 = .stop e → exec i s = .next (s.endWord r e)) ∧
     (s.readBlock r [0, 4] p 16 = .ok s' l →
       (¬ sound → exec i s = .next (s.trapped s' 16 (cfgVal p.toNat))) ∧
       (sound → (4 ≤ g ∨ ∀ t, (s'.gen r g).stream = some t → ¬ reads t) → exec i s = .next (s.trapped s' 6 (ptrSub h 5))) ∧
       (sound → g < 4 → ∀ t, (s'.gen r g).stream = some t → reads t →
         (16 ≤ (s'.core r).ocTl → exec i s = .next (s.stalls s' 5)) ∧
         ((s'.core r).ocTl < 16 → ∃ (u : State) (t' : Stream) (x : Splice), exec i s =
             .next (s.retired (u.puts gd (BitVec.ofNat 64 (s'.core r).spliceSeq)) 1) ∧ (u.gen r g).stream = some t' ∧
           t'.out = t.out ++ [.item (.splice x)] ∧ t'.tok = t.tok ∧ x.op = d % 4 ∧ x.pos = d / 8 % 2048 ∧
           x.slot = d / 2 ^ 14 % 4 ∧ x.rank = r ∧ x.seq = (s'.core r).spliceSeq ∧ x.failed = false ∧
           u.core r = { s'.core r with ocTl := (s'.core r).ocTl + 1, spliceSeq := ((s'.core r).spliceSeq + 1) % 65536 }))) ∧
     (∀ x t, s.privPtr p 16 x → s.privGood x 16 → g < 4 → (s.gen r g).stream = some t → reads t → s.self.ocTl < 16 →
       (let d := s.privVal x 16
        d % 4 < 3 ∧ 1 ≤ d / 8 % 2048 ∧ d / 8 % 2048 ≤ 1024 ∧ d / 2 ^ 16 % 2 ^ 48 = 0 ∧
          (d % 4 ≠ 2 → d / 2 ^ 64 % 2 ^ 64 = 0) ∧ (d % 4 ≠ 0 → d / 2 ^ 14 % 4 = 0 ∧ d / 4 % 2 = 0)) →
       ∃ u, exec i s = .next (s.retired (u.puts gd (BitVec.ofNat 64 s.self.spliceSeq)) 1) ∧ s.sameBytes u ∧
         u.self = { s.self with ocTl := s.self.ocTl + 1, spliceSeq := (s.self.spliceSeq + 1) % 65536 })) ∧
  (∀ (s : State) (p : Splice) (g k : Nat),
     let r := s.foc.unit
     let c := s.cell r s.foc.sub
     let ins := (c.dataPorts).1
     let outs := (c.dataPorts).2
     ((s.fab r).frozen = false → c.recordAt s.now = some p →
       (s.hasActed p = true ∨ ∀ x, s.regionOf p.rank = some x → mapFind x.stages p.pos ≠ some (r, s.foc.sub)) →
       outs ≠ [] → (∀ q ∈ outs, c.free s.now q ≠ 0) →
       ∃ u, exec .spliceArrival s = .next u ∧
         (∀ q ∈ ins, (u.cell r s.foc.sub).port q = (c.port q).drop 1) ∧
         (∀ q ∈ outs, (u.cell r s.foc.sub).port q = c.port q ++ [⟨.splice p, s.now + 1⟩])) ∧
     (∀ x e s1, (s.fab r).frozen = false → c.recordAt s.now = some p → s.hasActed p = false → p.op = 1 →
       s.regionOf p.rank = some x → s.region? x.lead = some x → mapFind x.stages p.pos = some (r, s.foc.sub) →
       s.qualifies r s.foc.sub = true → c.port 8 = [] → s.nextEnd r s.foc.sub = some e →
       (∀ y ∈ s.wires, y.2.dest ≠ .input r s.foc.sub 0) →
       s.spliceLanes x (match e with
         | .router _ _ => []
         | _ => [(x.feeder p, e.tile)]) = some s1 →
       ∃ u, exec .spliceArrival s = .next u ∧ u.spliced = p :: s.spliced ∧ (u.fab r).active = none ∧
         u.region? x.lead = some { x with stages := stagesDown p.pos x.stages } ∧
         mapFind u.wires (16 * r + s.foc.sub) =
           some ⟨e, circuitLat (x.feeder p) e.tile, ⟨.splice p, s.now + 1⟩ :: (c.port 0).drop 1⟩) ∧
     (g < 4 → k < 4 → (s.router r).dest k = 0x1000 + g → (∀ j < 4, j < k → (s.router r).dest j ≠ 0x1000 + g) →
       s.waitingAt r k = some (.splice p) →
       (∀ i ∈ (s.takeOut r k).itemsIn ((s.takeOut r k).tiles.map Prod.fst), ∀ x, i = .splice x → x.rank ≠ p.rank ∨ x.seq ≠ p.seq) →
       ∃ u, exec (.spliceSink (.gen g)) s = .next u ∧
         mapGet [] (u.router r).outq k = (mapGet [] (s.router r).outq k).drop 1 ∧
         (u.core p.rank).ocTl = (s.core p.rank).ocTl - 1 ∧ u.hasActed p = false))

/-- Barrier tokens (R305, R306): BTOK puts one behind the last item of each read stream that the mask names, 0 naming all of
them; a mask that names another generator, or more than four, raises cause 6. BDRAIN returns the cycle once the barriers sent
have drained, and waits till then. Barrier objects (R307, R308): the words check their pointer in space 5, its region and its
words; each updates the object's fields, and an update that leaves nothing pending and nothing in transfer completes it. A
barrier passes a cell that fires nothing (R102): it leaves every used input, and one leaves by every used output.
Where the manual leaves a point open, this follows the model's choice (log entries 36 and 37). -/
def Obligations.BarrierWords : Prop :=
  (∀ (s : State) (gd ga : BitVec 5),
     let r := s.foc.unit
     let v := s.val ga
     let reads (g : Nat) : Prop := ∃ t, (s.gen r g).stream = some t ∧ t.ended = false ∧ (spbDir t.spb = 0 ∨ spbDir t.spb = 3)
     let named (g : Nat) : Prop := g < 4 ∧ if v = 0 then reads g else v.getLsbD g = true
     let bad := 16 ≤ v.toNat ∨ ∃ g, named g ∧ ¬ reads g
     let sent := ∀ g t, named g → (s.gen r g).stream = some t →
       ∀ i ∈ s.itemsIn (s.tiles.map Prod.fst), ∀ src, i = .barrier src → ∀ x ∈ src, ¬ (x.1 = t.id ∧ x.2.1 < t.bars)
     (s.memReady [ga] [] →
       (bad → exec (.btok ga) s = .next (s.trapped s 6 (valSub v 5))) ∧
       (¬ bad → ∃ u, exec (.btok ga) s = .next (s.retired u 1) ∧ u.self = s.self ∧ s.sameBytes u ∧
         ∀ g, (¬ named g → u.gen r g = s.gen r g) ∧
           ∀ t, named g → (s.gen r g).stream = some t → (u.gen r g).stream = some { t with
             out := t.out ++ [.item (.barrier [(t.id, t.bars, 0)])], bars := t.bars + 1 })) ∧
     (s.memReady [ga] [gd] → (∀ l, s.self.stall ≠ some (.latch l)) →
       (bad → exec (.bdrain gd ga) s = .next (s.trapped s 6 (valSub v 5))) ∧
       (¬ bad → sent → exec (.bdrain gd ga) s = .next (s.retired (s.puts gd (BitVec.ofNat 64 s.now)) 1)) ∧
       (¬ bad → ¬ sent → ∃ l, exec (.bdrain gd ga) s =
         .next (s.stalls (s.modCore r fun c => { c with stall := some (.latch l) }) 3)))) ∧
  (∀ (s : State) (ga gb : BitVec 5),
     let r := s.foc.unit
     let p := s.val ga
     let v := (s.val gb).toNat
     let place : Loc := .mtile (p.toNat / 2 ^ 50 % 512) (p.toNat % 2 ^ 48 / 2 ^ 20) (p.toNat % 2 ^ 20)
     let x := (s.locRead place 16).1
     let gen := x % 16
     let expected := x / 2 ^ 4 % 2 ^ 28
     let pending := x / 2 ^ 32 % 2 ^ 32
     let inb := x / 2 ^ 64 % 2 ^ 32
     let outb := x / 2 ^ 96 % 2 ^ 32
     let holds (u : State) (g e n i o : Nat) : Prop :=
       s.storesAt u place 16 (if n = 0 ∧ i = 0 ∧ o = 0 then (g + 1) % 16 + e * 2 ^ 4 + e * 2 ^ 32
         else g + e * 2 ^ 4 + n * 2 ^ 32 + i * 2 ^ 64 + o * 2 ^ 96)
     let words : List Instr := [.boarr ga, .bowait ga, .boinit ga gb, .boxfer ga gb]
     (s.memReady [ga, gb] [] → ∀ c, s.objFault r p = some c → ∀ i ∈ words, exec i s = .next (s.trapped s c p)) ∧
     (s.objFault r p = none →
       (s.memReady [ga, gb] [] →
         (2 ^ 28 ≤ v → exec (.boinit ga gb) s = .next (s.trapped s 18 (ptrSub p 8))) ∧
         (v < 2 ^ 28 → ∃ u, exec (.boinit ga gb) s = .next (s.retired u 1) ∧ u.self = s.self ∧
           s.storesAt u place 16 ((gen + 1) % 16 + v * 2 ^ 4 + v * 2 ^ 32)) ∧
         (2 ^ 32 ≤ inb + v % 2 ^ 32 ∨ 2 ^ 32 ≤ outb + v / 2 ^ 32 →
           exec (.boxfer ga gb) s = .next (s.trapped s 18 (ptrSub p 8))) ∧
         (inb + v % 2 ^ 32 < 2 ^ 32 → outb + v / 2 ^ 32 < 2 ^ 32 →
           ∃ u, exec (.boxfer ga gb) s = .next (s.retired u 1) ∧ u.self = s.self ∧
             holds u gen expected pending (inb + v % 2 ^ 32) (outb + v / 2 ^ 32))) ∧
       (s.memReady [ga] [] →
         (pending = 0 → exec (.boarr ga) s = .next (s.trapped s 18 (ptrSub p 11))) ∧
         (0 < pending → ∃ u, exec (.boarr ga) s = .next (s.retired u 1) ∧
           u.self = { s.self with boLatch := some (p, gen) } ∧ holds u gen expected (pending - 1) inb outb) ∧
         ((∀ g, s.self.boLatch ≠ some (p, g)) → exec (.bowait ga) s = .next (s.trapped s 18 (ptrSub p 9))) ∧
         (s.self.boLatch = some (p, gen) → exec (.bowait ga) s = .next (s.stalls s 3)) ∧
         (∀ g, s.self.boLatch = some (p, g) → g ≠ gen → exec (.bowait ga) s = .next (s.retired s 1))))) ∧
  (∀ (s : State) (c' : Cell) (src : List (Nat × Nat × Nat)),
     let r := s.foc.unit
     let k := s.foc.sub
     let c := s.cell r k
     let stands := (s.fab r).frozen = false ∧ c.frozen = false ∧ c.readyAt ≤ s.now ∧ c.acct.since ≠ s.now ∧
       ∀ f, c.firing = some f → s.now < f.first
     (stands → c.passBarriers s.now = some (c', src) →
       ∃ u, exec .barrierPass s = .next u ∧ s.sameBytes u ∧ u.cell r k = { c' with acct := c'.acct.enter 7 s.now }) ∧
     (¬ stands ∨ c.passBarriers s.now = none → exec .barrierPass s = .next s) ∧
     (c.passBarriers s.now = some (c', src) →
       (∀ p ∈ c.used, p < 8 → c'.port p = (c.port p).drop 1 ∧ ∃ x t, (c.port p).head? = some ⟨.barrier x, t⟩) ∧
       (∀ p ∈ c.used, 8 ≤ p → p < 16 → c'.port p = c.port p ++ [⟨.barrier src, s.now + 1⟩])))

/-! ### Tasks -/

/-- The fields of a task record that break its rules (R285, R286): version, kind, reserved bits, spaces of the pointers, operand
declarations, and the size and group of a region. TSUB (R300): pointer, handle, block and record are checked in this order;
sixteen unstarted tasks stall; then the task is accepted under the next sequence number of its context, and gd receives its
identifier.
Where the manual leaves a point open, this follows the model's choice (log entries 23, 24 and 47). -/
def Obligations.TaskRecords : Prop :=
  (∀ l : List Nat,
     let d (i : Nat) : Nat := l.getD i 0
     let field (i lo n : Nat) : Nat := d i / 2 ^ lo % 2 ^ n
     let lgn := field 0 48 4
     let lvl := field 0 52 3
     let gidx := field 0 55 9
     let tiles := if lvl = 0 then 512 else 4 ^ (lvl - 1)
     recOk l = true ↔
       field 0 0 8 = 1 ∧ field 0 8 4 ≤ 4 ∧ lvl ≤ 4 ∧ field 0 15 1 = 0 ∧ field 0 17 13 = 0 ∧ d 5 = 0 ∧ d 6 = 0 ∧ d 7 = 0 ∧
       (∀ i, i = 1 ∨ i = 2 ∨ i = 3 → field i 60 4 = 0 ∨ field i 60 4 = 7) ∧
       (∀ k < 8, (field (8 + k) 62 2 = 0 → d (8 + k) = 0) ∧ (field (8 + k) 62 2 ≠ 0 → field (8 + k) 4 2 = 0 ∧ field (8 + k) 48 13 ≠ 0)) ∧
       (field 0 8 4 = 0 → lgn ≤ 9 ∧ 2 ^ lgn ≤ tiles ∧ (lvl = 0 → gidx = 511) ∧ (lvl ≠ 0 → gidx < 512 / tiles)) ∧
       (field 0 8 4 ≠ 0 → d 4 = 0 ∧ lgn = 0 ∧ lvl = 0 ∧ gidx = 511)) ∧
  (∀ (s s1 s2 : State) (gd ga gb : BitVec 5) (q : Nat) (l : List Byte), s.memReady [ga, gb] [gd] →
     let r := s.foc.unit
     let p := s.val ga
     let h := s.val gb
     let i := Instr.tsub gd ga gb
     let check := s.checkPtr r [0, 4, 7] p 128 (s.need r true false)
     let rec_ := (List.range 16).map (blockWord l)
     let fits := recOk rec_ = true ∧ recQueue rec_ = q ∧ s2.owner r = some (recPart rec_)
     let x := s2.queue q
     let id := q + x.gen * 2 ^ 12 + x.seq * 2 ^ 24
     (∀ e, check = (s1, some e) → exec i s = .next (s.endWord r e)) ∧
     (check = (s1, none) → s1.handle (s1.owner r) h.toNat = none → exec i s = .next (s.trapped s1 6 (valSub h 9))) ∧
     (check = (s1, none) → s1.handle (s1.owner r) h.toNat = some q →
       (∀ e, s1.readBlock r [0, 4, 7] p 128 = .stop e → exec i s = .next (s.endWord r e)) ∧
       (s1.readBlock r [0, 4, 7] p 128 = .ok s2 l →
         (¬ fits → exec i s = .next (s.trapped s2 6 (ptrSub p 10))) ∧
         (fits → 16 ≤ (s2.unstarted q).length → exec i s = .next (s.stalls s2 5)) ∧
         (fits → (s2.unstarted q).length < 16 →
           ∃ (u : State) (t : Task), exec i s = .next (s.retired (u.puts gd (BitVec.ofNat 64 id)) 1) ∧ u.tasks = s2.tasks ++ [t] ∧
             u.self = s2.self ∧ t.id = id ∧ t.rec_ = rec_ ∧ t.phase = .accepted ∧
             u.queue q = { x with seq := (x.seq + 1) % 65536, status := mapDel x.status x.seq } ∧
             ∀ k, k ≠ q → u.queue k = s2.queue k))))

/-- TQOPEN, TQCLOSE, TJOIN and TSELF (R301, R302, R304, R363, R364). The status that TJOIN returns for a task no longer under way
(R302): 3 for an identifier of another generation or behind the last 256 of its context, else what its context has entered. -/
def Obligations.Queues : Prop :=
  (∀ (s : State) (gd ga : BitVec 5) (part : Nat),
     let r := s.foc.unit
     let v := s.val ga
     let sub := (s.asid v.toNat).subp
     let free (q : Nat) : Prop := (s.queue q).open_ = false ∧ (s.queue q).closing = false
     let room := s.contextsOf part none < mapGet 0 (s.part part).quotas 1 ∧
       s.contextsOf part (some sub) < mapGet 0 (s.subp sub).quotas 1
     let mine := v.toNat < 4096 ∧ (s.asid v.toNat).live = true ∧ (s.subp sub).part = part
     (s.memReady [ga] [gd] →
       (s.mayBind r = false → ∃ x, exec (.tqopen gd ga) s = .next (s.trapped s.bumpId 1 x)) ∧
       (s.mayBind r = true → s.owner r = some part → ¬ mine → exec (.tqopen gd ga) s = .next (s.trapped s 6 (valSub v 9))) ∧
       (s.mayBind r = true → s.owner r = some part → mine → (∀ q < 4096, ¬ free q) ∨ ¬ room →
         exec (.tqopen gd ga) s = .next (s.trapped s 23 v)) ∧
       (s.mayBind r = true → s.owner r = some part → mine → room → ∀ q < 4096, free q → (∀ k < q, ¬ free k) →
         let gen := ((s.queue q).gen + 1) % 4096
         ∃ (u : State), exec (.tqopen gd ga) s = .next (s.retired (u.puts gd (BitVec.ofNat 64 (q + gen * 4096))) 1) ∧ u.self = s.self ∧
           u.queue q = ⟨true, false, part, v.toNat, gen, 0, []⟩ ∧ ∀ k, k ≠ q → u.queue k = s.queue k) ∧
       (s.taskOf v.toNat ≠ none → exec (.tjoin gd ga) s = .next (s.stalls s 3)) ∧
       (s.taskOf v.toNat = none → exec (.tjoin gd ga) s = .next (s.retired (s.puts gd (BitVec.ofNat 64 (s.joinStatus v.toNat))) 1))) ∧
     (s.memReady [ga] [] →
       (s.handle (s.owner r) v.toNat = none → exec (.tqclose ga) s = .next (s.trapped s 6 (valSub v 9))) ∧
       (∀ q, s.handle (s.owner r) v.toNat = some q → ∃ (u : State), exec (.tqclose ga) s = .next (s.retired u 1) ∧ u.self = s.self ∧
         (u.queue q).open_ = false ∧ ((u.queue q).closing = true ↔ ∃ t ∈ s.tasks, t.queue = q ∧ t.phase ≠ .accepted) ∧
         (∀ t ∈ u.tasks, ¬ (t.queue = q ∧ t.phase = .accepted)) ∧
         ∀ t ∈ s.tasks, t.queue ≠ q → (∀ k ∈ s.tasks, k.id = t.id → k = t) → t ∈ u.tasks)) ∧
     (s.wordReady [] [gd] →
       (∀ g, s.region? r = some g → exec (.tself gd) s = .next (s.retired (s.puts gd (BitVec.ofNat 64 g.task)) 1)) ∧
       (s.region? r = none → exec (.tself gd) s = .next (s.retired (s.puts gd (BitVec.allOnes 64)) 1)))) ∧
  (∀ (s : State) (id : Nat),
     let q := s.queue (id % 4096)
     let n := id / 2 ^ 24 % 65536
     let known := id < 2 ^ 40 ∧ (q.open_ = true ∨ q.closing = true) ∧ q.gen = id / 4096 % 4096 ∧ (q.seq + 65535 - n) % 65536 < 256
     (¬ known → s.joinStatus id = 3) ∧ (known → s.joinStatus id = mapGet 3 q.status n))

/-- TEND (R295, R298, R303): on the lead core of a region with nothing outstanding and no helper awake or about to wake, the task ends
with status 0 and its tiles become free; on an idle helper core, that core stops; elsewhere cause 6.
Where the manual leaves a point open, this follows the model's choice (log entries 38, 39 and 49). -/
def Obligations.TasksEnd : Prop :=
  ∀ (s : State), s.memReady [] [] →
    let r := s.foc.unit
    let c := s.self
    let quiet := c.ocLd = 0 ∧ c.ocSt = 0 ∧ c.ocCp = 0 ∧ c.ocTl = 0
    (∀ g, s.region? r = some g →
      let alone := ∀ t ∈ g.ranks, (s.core t).wake = none ∧ (t ≠ g.lead → (s.core t).helper = true → (s.core t).mode ≠ .running)
      (¬ (quiet ∧ alone) → exec .tend s = .next (s.stalls s 3)) ∧
      (quiet → alone → g.lead = r → ∃ u, exec .tend s = .next u ∧ mapFind u.regions r = none ∧
        (∀ t ∈ g.ranks, (u.core t).mode = (if (s.core t).mode = .halted then .halted else .stopped) ∧ (u.core t).task = none ∧ (u.fab t).active = none ∧ (u.fab t).frozen = false) ∧
        ∀ k ∈ u.tasks, k.id ≠ g.task)) ∧
    (s.region? r = none → c.helper = true →
      (¬ quiet → exec .tend s = .next (s.stalls s 3)) ∧
      (quiet → ∃ u, exec .tend s = .next u ∧ s.sameButCore r u ∧ (c.mode ≠ .halted → u.self.mode = .stopped) ∧ u.self.task = none ∧ u.self.helper = false)) ∧
    (s.region? r = none → c.helper = false → exec .tend s = .next (s.trapped s 6 (valSub 0 11)))

/-- Helper cores (R295): a write of tk.wake is checked and arms one core of the region; it starts, once the stores that the write releases
have performed, at task level with the task's argument and identifier. The join counter of a task (R289): the scheduler reads it once,
when it has learned of the task and the stores before its TSUB have performed; a task whose counter is 0 may start, one above 0 waits for
the decrement that reaches 0, and one whose counter cannot be read ends with status 1. Where the manual leaves a point open, this follows
the model's choice (log entries 29, 40 and 48). -/
def Obligations.HelpersAndJoins : Prop :=
  (∀ (s : State) (v : DWord),
     let r := s.foc.unit
     let k := v.toNat / 2 ^ 32 % 512
     let entry := v.toNat % 2 ^ 18
     let x := (s.regionOf r).getD default
     (s.region? r = none → exec (.tkWakeWrite v) s = .next (s.trapped s 6 (valSub v 18))) ∧
     (∀ g, s.region? r = some g →
       let t := g.lead + k
       let ok := k ≠ 0 ∧ k < 2 ^ g.lgn ∧ (s.core t).mode = .stopped ∧ entry % 4 = 0
       (¬ ok → exec (.tkWakeWrite v) s = .next (s.trapped s 6 (valSub v 18))) ∧
       (ok → exec (.tkWakeWrite v) s =
         .next (s.retired (s.modCore t fun c => { c with wake := some (entry, s.releases r) }) 1))) ∧
     (∀ e ids t, s.self.wake = some (e, ids) → s.regionOf r = some x → s.self.mode ≠ .halted →
       (∀ a ∈ s.accs, a.id ∈ ids → a.done = true) → s.taskOf x.task = some t →
       ∃ u, exec .helperCoreStart s = .next u ∧ s.sameButCore r u ∧ u.self.mode = .running ∧ u.self.level = 3 ∧ u.self.pc = e ∧
         u.self.reg 1 = BitVec.ofNat 64 (recArg t.rec_) ∧ u.self.reg 2 = BitVec.ofNat 64 t.id ∧
         (∀ g, g ≠ 1 → g ≠ 2 → u.self.reg g = 0) ∧ u.self.asid = (s.core x.lead).asid ∧ u.self.task = some t.id ∧
         u.self.helper = true ∧ u.self.wake = none ∧ u.self.mem = s.self.mem)) ∧
  (∀ (s s' : State) (t : Task),
     s.taskOf s.foc.unit = some t → t.phase = .accepted → t.joinRead = false → (∀ k ∈ s.tasks, k.id = t.id → k = t) →
     t.accepted + 64 ≤ s.now → (∀ a ∈ s.accs, a.id ∈ t.before → a.done = true) →
     let p := recJoin t.rec_
     let reached := s.reach (.sched t.id) (some (s.taskPart t)) (s.taskAsid t) p ⟨true, false, false⟩
     (ptrFormOk p = false → ∃ u, exec .joinCounterRead s = .next u ∧ ∀ k ∈ u.tasks, k.id ≠ t.id) ∧
     (ptrFormOk p = true → ∀ c, reached = (s', .fault c) → ∃ u, exec .joinCounterRead s = .next u ∧ ∀ k ∈ u.tasks, k.id ≠ t.id) ∧
     (ptrFormOk p = true → ∀ loc, reached = (s', .at_ loc none) → s'.isLost loc = false → s'.locBad (s'.atHome loc) 4 = [] →
       ∃ u, exec .joinCounterRead s = .next u ∧ s.sameBytes u ∧
         u.taskOf t.id = some { t with
           joinRead := true, joinLoc := some (s'.atHome loc), join := if (s'.readHome loc 4).1 = 0 then some s.now else none }))



/-! ### Cells -/

/-- Integer lane words (R119, R127 to R129) and words that move lanes (R126, R139 to R141): what each element or lane of the result
is; none raises a condition. ICMP sets a mask bit where every element of the lane meets its condition.
Where the manual leaves a point open, this follows the model's choice (log entry 146). -/
def Obligations.LaneIntegers : Prop :=
  ∀ (s : State) (x : OpCtx) (vd va vb vc : BitVec 5) (w half mask : BitVec 2) (one : BitVec 1) (cond : BitVec 3) (imm : BitVec 12)
    (pm : BitVec 4), s.fires x →
    let b := if w = 0 then 32 else if w = 1 then 16 else 8
    let sel := x.selects pm
    let A (L e : Nat) : Nat := x.elem b va L e
    let B (L e : Nat) : Nat := x.elem b vb L e
    let C (L e : Nat) : Nat := x.elem b vc L e
    let num (v : Nat) : Int := (BitVec.ofNat b v).toInt
    let code (v : Int) : Nat := (BitVec.ofInt b v).toNat
    let elems (i : Instr) (res : Nat → Nat → Nat) : Prop := s.runsLanes x i vd sel b (fun L e => (res L e, noConds)) 1
    let lanes (i : Instr) (res : Nat → Word) : Prop := s.runsLanes x i vd sel 32 (fun L _ => ((res L).toNat, noConds)) 1
    elems (.iadd vd va vb w pm) (fun L e => (A L e + B L e) % 2 ^ b) ∧
    elems (.isub vd va vb w pm) (fun L e => (A L e + 2 ^ b - B L e) % 2 ^ b) ∧
    elems (.imul vd va vb half w pm) (fun L e =>
      if half = 0 then A L e * B L e % 2 ^ b
      else if half = 1 then code (num (A L e) * num (B L e) / 2 ^ b) else A L e * B L e / 2 ^ b) ∧
    elems (.imad vd va vb vc w pm) (fun L e => (A L e * B L e + C L e) % 2 ^ b) ∧
    elems (.imin vd va vb one w pm) (fun L e =>
      if (if one = 1 then A L e ≤ B L e else num (A L e) ≤ num (B L e)) then A L e else B L e) ∧
    elems (.imax vd va vb one w pm) (fun L e =>
      if (if one = 1 then A L e ≤ B L e else num (A L e) ≤ num (B L e)) then B L e else A L e) ∧
    elems (.iand vd va vb w pm) (fun L e => A L e &&& B L e) ∧
    elems (.ior vd va vb w pm) (fun L e => A L e ||| B L e) ∧
    elems (.ixor vd va vb w pm) (fun L e => A L e ^^^ B L e) ∧
    elems (.ishl vd va vb w pm) (fun L e => A L e * 2 ^ (B L e % b) % 2 ^ b) ∧
    elems (.ishr vd va vb one w pm) (fun L e =>
      if one = 1 then A L e / 2 ^ (B L e % b) else code (num (A L e) / 2 ^ (B L e % b))) ∧
    (∃ m : List Bool, exec (.icmp mask va vb cond w pm) s = .next (s.opNext s x (x.f.setMask mask.toNat m) 1) ∧
      m.length = x.lanes ∧
      let holds (p q : Nat) : Prop :=
        match cond.toNat with
        | 0 => p = q
        | 1 => p ≠ q
        | 2 => num p < num q
        | 3 => num p ≤ num q
        | 4 => num q < num p
        | 5 => num q ≤ num p
        | 6 => p < q
        | _ => q ≤ p
      ∀ L < x.lanes,
        (sel L = true → (m.getD L false = true ↔ ∀ e < 32 / b, holds (A L e) (B L e))) ∧
        (sel L = false → m.getD L false = (x.f.mask x.lanes mask.toNat).getD L false)) ∧
    lanes (.iaddi vd va imm pm) (fun L => lane (x.reg va) L + BitVec.ofInt 32 imm.toInt) ∧
    lanes (.movi vd imm pm) (fun _ => BitVec.ofInt 32 imm.toInt) ∧
    lanes (.sel vd va vb mask pm) (fun L =>
      if (x.f.mask x.lanes mask.toNat).getD L false then lane (x.reg va) L else lane (x.reg vb) L) ∧
    lanes (.perm vd va vb pm) (fun L =>
      let src := (lane (x.reg vb) L).toNat % 128
      if src < x.lanes then lane (x.reg va) src else 0) ∧
    lanes (.lshf vd va vc pm) (fun L =>
      let src := (L : Int) - vc.toInt
      if 0 ≤ src ∧ src < x.lanes ∧ sel src.toNat = true then lane (x.reg va) src.toNat else 0) ∧
    lanes (.bcst vd va vb pm) (fun _ =>
      let src := (lane (x.reg vb) 0).toNat % 128
      if src < x.lanes ∧ sel src = true then lane (x.reg va) src else 0)

/-- Floating-point lane words (R42, R43, R120, R122 to R125, R136, R137): each result is the exact value rounded once, bounded under the
saturate policy; the conditions are recorded, and IV, DZ or OV traps under the trap policy.
Where the manual leaves a point open, this follows the model's choice (log entries 55, 143 and 147). -/
def Obligations.LaneFloats : Prop :=
  ∀ (s : State) (x : OpCtx) (vd va vb vc : BitVec 5) (w mask : BitVec 2) (cond : BitVec 3) (pm : BitVec 4), s.fires x →
    let f : ElemFormat := if w = 0 then .fp32 else if w = 1 then .fp16 else .bf16
    let b := fmtBits f
    let sel := x.selects pm
    let A (L e : Nat) : Nat := x.elem b va L e
    let B (L e : Nat) : Nat := x.elem b vb L e
    let C (L e : Nat) : Nat := x.elem b vc L e
    let bounded (f : ElemFormat) (v : Nat) : Nat :=
      match decodeFloat f v with
      | .inf neg => if x.policy = .saturate then maxOf f neg else v
      | _ => v
    let once (r : FVal × Conds) : Nat × Conds := (bounded f (roundNE f r.1).1, (roundNE f r.1).2.join r.2)
    let floats (i : Instr) (res : Nat → Nat → Nat × Conds) : Prop := s.runsLanes x i vd sel b res 1
    let fused (p q r : FVal) : FVal × Conds :=
      if r = .nan then (.nan, noConds)
      else ((faddExact (fmulExact p q).1 r).1, (fmulExact p q).2.join (faddExact (fmulExact p q).1 r).2)
    let neg (v : Nat) : Bool := decide (2 ^ (b - 1) ≤ v)
    let before (p q : Nat) : Bool :=
      match fcompare (decodeFloat f p) (decodeFloat f q) with
      | some .lt => true
      | some .eq => neg p && !neg q
      | _ => false
    let pick (larger : Bool) (p q : Nat) : Nat :=
      if decodeFloat f p = .nan then (if decodeFloat f q = .nan then canonNaN f else q)
      else if decodeFloat f q = .nan then p
      else if larger then (if before p q then q else p) else (if before q p then q else p)
    let signed (v : Nat) (n : Bool) : Nat :=
      if decodeFloat f v = .nan then canonNaN f else v % 2 ^ (b - 1) + if n then 2 ^ (b - 1) else 0
    let val (v : Nat) : FVal := decodeFloat f v
    floats (.fadd vd va vb w pm) (fun L e => once (faddExact (val (A L e)) (val (B L e)))) ∧
    floats (.fsub vd va vb w pm) (fun L e => once (faddExact (val (A L e)) (fneg (val (B L e))))) ∧
    floats (.fmul vd va vb w pm) (fun L e => once (fmulExact (val (A L e)) (val (B L e)))) ∧
    floats (.fma vd va vb vc w pm) (fun L e => once (fused (val (A L e)) (val (B L e)) (val (C L e)))) ∧
    floats (.fms vd va vb vc w pm) (fun L e => once (fused (val (A L e)) (val (B L e)) (fneg (val (C L e))))) ∧
    floats (.fmin vd va vb w pm) (fun L e => (bounded f (pick false (A L e) (B L e)), noConds)) ∧
    floats (.fmax vd va vb w pm) (fun L e => (bounded f (pick true (A L e) (B L e)), noConds)) ∧
    floats (.fabs vd va w pm) (fun L e => (bounded f (signed (A L e) false), noConds)) ∧
    floats (.fneg vd va w pm) (fun L e => (bounded f (signed (A L e) (!neg (A L e))), noConds)) ∧
    floats (.fcpys vd va vb w pm) (fun L e => (bounded f (signed (A L e) (neg (B L e))), noConds)) ∧
    floats (.fxsgn vd va vb w pm) (fun L e => (bounded f (signed (A L e) (neg (A L e) != neg (B L e))), noConds)) ∧
    (∃ m : List Bool, exec (.fcmp mask va vb cond w pm) s = .next (s.opNext s x (x.f.setMask mask.toNat m) 1) ∧
      m.length = x.lanes ∧
      let holds (p q : Nat) : Prop :=
        let o := fcompare (val p) (val q)
        match cond.toNat with
        | 0 => o = some .eq
        | 1 => o ≠ some .eq
        | 2 => o = some .lt
        | 3 => o = some .lt ∨ o = some .eq
        | 4 => o = some .gt
        | 5 => o = some .gt ∨ o = some .eq
        | 6 => o = none
        | _ => o ≠ none
      ∀ L < x.lanes,
        (sel L = true → (m.getD L false = true ↔ ∀ e < 32 / b, holds (A L e) (B L e))) ∧
        (sel L = false → m.getD L false = (x.f.mask x.lanes mask.toNat).getD L false)) ∧
    (let word (v : BitVec 5) (L : Nat) : Nat := (lane (x.reg v) L).toNat
     let single (i : Instr) (res : Nat → Nat × Conds) : Prop :=
      s.runsLanes x i vd sel 32 (fun L _ => (bounded .fp32 (res L).1, (res L).2)) 1
     single (.rcpa vd va pm) (fun L => sfa .rcpa (word va L)) ∧
     single (.rsqa vd va pm) (fun L => sfa .rsqa (word va L)) ∧
     single (.exp2a vd va pm) (fun L => sfa .exp2a (word va L)) ∧
     single (.log2a vd va pm) (fun L => sfa .log2a (word va L)) ∧
     single (.sinpa vd va pm) (fun L => sfa .sinpa (word va L)) ∧
     single (.cospa vd va pm) (fun L => sfa .cospa (word va L)) ∧
     single (.rcpstep vd va vb pm) (fun L => sfstep false (word va L) (word vb L)) ∧
     single (.rsqstep vd va vb pm) (fun L => sfstep true (word va L) (word vb L)))

/-- Conversions (R40, R45 to R49, R54, R55, R131 to R135) and RED (R138): CVT converts every element, PACK one element of vd, UNPK widens
one element, DQDEC and DQENC decode and encode the blocks of each member cell; RED gives every element taking part the reduction of
all of them.
Where the manual leaves a point open, this follows the model's choice (log entries 56, 57, 143 and 147). -/
def Obligations.LaneConversions : Prop :=
  ∀ (s : State) (x : OpCtx) (vd va vb vc : BitVec 5) (wid skind dkind w op : BitVec 2) (one : BitVec 1) (code : BitVec 4)
    (sel2 : BitVec 2) (ctl : BitVec 9) (part : BitVec 3) (pm : BitVec 4), s.fires x →
    let word (v : BitVec 5) (L : Nat) : Nat := (lane (x.reg v) L).toNat
    let other := ctl.getLsbD 8 = true ∧ x.f.alt = true
    let mode := (modeOfCode (if other then ctl.toNat / 32 % 8 else ctl.toNat / 2 % 8)).getD .nearestEven
    let sat := decide ((if other then ctl.getLsbD 4 else ctl.getLsbD 0) = true ∨ x.policy = .saturate)
    let converted (src dst : ElemFormat) (v : Nat) : Nat × Conds :=
      let r := convertElem src dst mode sat v
      (if isFloatFmt dst then x.policy.fix dst r.1 else r.1, r.2)
    let all (i : Instr) (b : Nat) (res : Nat → Nat → Nat × Conds) : Prop := s.runsLanes x i vd (fun _ => true) b res 1
    (let src := cvtFmt wid.toNat skind.toNat
     let dst := cvtFmt wid.toNat dkind.toNat
     all (.cvt vd va wid skind dkind ctl) (fmtBits src) (fun L e => converted src dst (x.elem (fmtBits src) va L e))) ∧
    (∀ dst, fmtOfCode code.toNat = some dst → dst ≠ .dq4 → sel2.toNat * fmtBits dst < 32 →
      let src : ElemFormat := if one = 0 then .fp32 else .int32
      all (.pack vd va one code sel2 ctl) (fmtBits dst) (fun L e =>
        if e = sel2.toNat then converted src dst (word va L) else (x.elem (fmtBits dst) vd L e, noConds))) ∧
    (∀ src, fmtOfCode code.toNat = some src → src ≠ .dq4 →
      all (.unpk vd va code sel2) 32 (fun L _ =>
        let v := x.elem (fmtBits src) va L sel2.toNat
        (if isFloatFmt src then x.policy.fix .fp32 (roundNE .fp32 (decodeFloat src v)).1 else (BitVec.ofInt 32 (decodeInt src v)).toNat, noConds))) ∧
    (let f : ElemFormat := if w = 0 then .fp32 else if w = 1 then .fp16 else .bf16
     let per := 32 / fmtBits f
     all (.dqdec vd va vb vc w part) (fmtBits f) (fun L e =>
      -- the element's place in the block of its member cell, whose scales stand in lane 0 of vb and vc
      let cell := L / 8 * 8
      let n := part.toNat * (8 * per) + L % 8 * per + e
      let q := word va (cell + n / 8) / 16 ^ (n % 8) % 16
      let sb := word vb cell % 256
      if q % 8 = 0 ∨ sb = 0 then (x.policy.fix f 0, noConds)
      else
        let v := dqValue (q % 8) sb (word vc cell)
        let r := roundNE f v.1
        (x.policy.fix f (if 8 ≤ q ∧ decodeFloat f r.1 ≠ .nan then (r.1 + 2 ^ (fmtBits f - 1)) % 2 ^ fmtBits f else r.1), v.2.join r.2))) ∧
    (let f : ElemFormat := if w = 0 then .fp32 else if w = 1 then .fp16 else .bf16
     let source (m i : Nat) : FVal :=
       if w = 0 then decodeFloat f (lane (x.f.reg x.lanes (va.toNat + i / 8)) (8 * m + i % 8)).toNat
       else decodeFloat f ((lane (x.f.reg x.lanes (va.toNat + i / 16)) (8 * m + i % 16 / 2)).toNat / 65536 ^ (i % 2) % 65536)
     let enc (m : Nat) := dqEncodeBlock (word vb (8 * m)) ((List.range 64).map (source m))
     let met (flag : Conds → Bool) : Prop := ∃ m < x.size, flag (enc m).2.2 = true
     ∃ c : Conds, (c.iv = true ↔ met Conds.iv) ∧ (c.dz = true ↔ met Conds.dz) ∧ (c.ov = true ↔ met Conds.ov) ∧
      (c.fm = true ↔ met Conds.fm) ∧
      let trap := x.policy = .trap ∧ (c.iv = true ∨ c.dz = true ∨ c.ov = true)
      (trap → exec (.dqenc vd va vb w ctl) s = .next (s.opFault (x.record s c) x 10 0 0)) ∧
      (¬ trap → ∃ codes scales : Lanes, exec (.dqenc vd va vb w ctl) s = .next (s.opNext (x.record s c) x
          ((x.f.setReg vd.toNat codes).setReg (vd.toNat + 1) scales) (if w = 0 then 8 else 4)) ∧
        codes.length = x.lanes ∧ scales.length = x.lanes ∧ ∀ L < x.lanes,
          (∀ e < 8, (lane codes L).toNat / 16 ^ e % 16 = (enc (L / 8)).2.1.getD (L % 8 * 8 + e) 0 % 16) ∧
          lane scales L = if L % 8 = 0 then BitVec.ofNat 32 (enc (L / 8)).1 else 0)) ∧
    (let f : ElemFormat := if w = 0 then .fp32 else if w = 1 then .fp16 else .bf16
     let b := if one = 1 then (if w = 0 then 32 else if w = 1 then 16 else 8) else fmtBits f
     let i := Instr.red vd va one op w pm
     let n := 1 + Nat.log2 x.size
     let part (L : Nat) : Bool := x.selects pm L
     let leaves := ((List.range x.lanes).filter part).flatMap fun L => (List.range (32 / b)).map fun e => x.elem b va L e
     let num (v : Nat) : Int := (BitVec.ofNat b v).toInt
     let gives (v : Nat) (c : Conds) : Prop := s.runsLanes x i vd part b (fun _ _ => (v, c)) n
     let some_ := ∃ L < x.lanes, part L = true
     (¬ some_ → exec i s = .next (s.opNext s x x.f n)) ∧
     (some_ → one = 1 → op = 0 → gives (leaves.sum % 2 ^ b) noConds) ∧
     (some_ → one = 1 → op = 1 → ∃ v ∈ leaves, gives v noConds ∧ ∀ u ∈ leaves, num u ≤ num v) ∧
     (some_ → one = 1 → op = 2 → ∃ v ∈ leaves, gives v noConds ∧ ∀ u ∈ leaves, num v ≤ num u) ∧
     (let real := leaves.filter fun u => decide (decodeFloat f u ≠ .nan)
      real ≠ [] → one = 0 →
        (op = 1 → ∃ v ∈ real, gives (x.policy.fix f v) noConds ∧ ∀ u ∈ real, floatBefore f v u = false) ∧
        (op = 2 → ∃ v ∈ real, gives (x.policy.fix f v) noConds ∧ ∀ u ∈ real, floatBefore f u v = false)) ∧
     (let leaf (p : Nat) : Option Nat :=
        let v := x.elem b va (p / (32 / b)) (p % (32 / b))
        if part (p / (32 / b)) then some (roundNE .fp32 (decodeFloat f v)).1 else none
      let add (p q : Nat) : Nat × Conds :=
        let r := faddExact (decodeFloat .fp32 p) (decodeFloat .fp32 q)
        ((roundNE .fp32 r.1).1, (roundNE .fp32 r.1).2.join r.2)
      -- a balanced tree over the positions: each level adds neighbours, and a child whose neighbour is absent passes unchanged
      ∀ v c, one = 0 → op = 0 → redTree add 9 ((List.range (x.lanes * (32 / b))).map leaf) = (some v, c) →
        let r := roundNE f (decodeFloat .fp32 v)
        gives (x.policy.fix f r.1) (c.join r.2)))

/-- Firings (R94 to R99, R114 to R116): FIRING_START takes the ready actor of the highest key, the lowest number among equals; BR, CLOOP
and NOP and the end of a loop body; FEND removes exactly the declared items and keeps v24 to v31 in the actor's bank; a firing of
4096 cycles overruns.
Where the manual leaves a point open, this follows the model's choice (log entries 73 and 91). -/
def Obligations.Firings : Prop :=
  (∀ (s : State) (i : Nat) (a : Actor),
    let r := s.foc.unit
    let k := s.foc.sub
    let c := s.cell r k
    let idle := c.firing = none ∧ c.frozen = false ∧ (s.fab r).frozen = false ∧ c.readyAt ≤ s.now ∧
      s.preloading r k = false
    -- an actor has its items and its slots; behind the marker of an activation one without inputs fires for the old image no more
    let ready (a : Actor) : Prop :=
      (∀ p, 0 < a.rate p →
        (c.isInput p = true → a.rate p ≤ c.avail s.now p) ∧ (c.isInput p = false → a.rate p ≤ c.free s.now p)) ∧
      ∀ j, s.waveOf r k = some j → c.atWave s.now j.id = true → ∃ p, 0 < a.rate p ∧ c.isInput p = true
    let above (b a : Actor) : Prop := ∃ p, 0 < b.rate p ∧ c.isInput p = true ∧
      ∀ q, 0 < a.rate q → c.isInput q = true → entPrio (c.entry q) < entPrio (c.entry p)
    (∀ a ∈ c.actors, a.rates.Pairwise (fun d e => d.1 < e.1)) →
    (idle → c.actors[i]? = some a → ready a →
      (∀ j b, c.actors[j]? = some b → ready b → ¬ above b a ∧ (above a b ∨ i ≤ j)) →
      ∃ t f, exec .firingStart s = .next t ∧ s.sameBytes t ∧ t.cell r k = { c with firing := some f } ∧
        f.actor = i ∧ f.pc = a.base ∧ f.nextAt = s.now + 1 ∧ f.first = s.now + 1 ∧ f.regs = mapGet [] c.banks i ∧
        (∀ m, 0 < m → ∀ L, (f.mask (8 * c.size) m).getD L false = false) ∧
        (∀ l, (mapGet (0, 0, 0) f.loops l).2.2 = 0) ∧ (∀ p, mapGet 0 f.taken p = 0 ∧ mapGet 0 f.sent p = 0)) ∧
    ((∀ b ∈ c.actors, ¬ ready b) ∨ ¬ idle → exec .firingStart s = .next s) ∧
    (∀ f, c.firing = some f → f.dead = false → f.first + 4096 ≤ s.now →
      exec .firingOverrun s = .next (s.cellFault r k f.actor 11 0 0))) ∧
  (∀ (s : State) (x : OpCtx) (cc : BitVec 4) (src : BitVec 6) (disp len : BitVec 10) (k : BitVec 1) (cnt : BitVec 9)
      (lvl : BitVec 2), s.fires x →
    let pc := x.f.pc
    let target := ((pc + disp.toInt) % 2 ^ 32).toNat
    let p := 16 + src.toNat
    let bit (v : List Nat) : Bool := decide (v.getD 0 0 % 2 = 1)
    let mask := x.f.mask x.lanes (src.toNat - 4)
    let goes (f : Firing) (taken : Prop) : Prop :=
      (¬ taken → exec (.br cc src disp) s = .next (s.opNext s x f 1)) ∧
      (taken → ∃ g : Firing, exec (.br cc src disp) s = .next (s.opJump x g target) ∧ g = { f with loops := g.loops } ∧
        ∀ l, mapGet (0, 0, 0) g.loops l =
          let e := mapGet (0, 0, 0) f.loops l
          -- a loop that the branch leaves ends
          if (e.1 ≤ pc ∧ pc ≤ e.2.1) ∧ ¬ (e.1 ≤ target ∧ target ≤ e.2.1) then (e.1, e.2.1, 0) else e)
    (cc = 0 → goes x.f True) ∧
    (cc ≠ 0 → src.toNat < 4 → x.itemAt x.f p 0 = none → exec (.br cc src disp) s = .next (s.opFault s x 11 1 0)) ∧
    (∀ i, cc = 1 ∨ cc = 2 → src.toNat < 4 → x.itemAt x.f p 0 = some i →
      goes (x.f.take p i.tag) (if cc = 1 then bit i.toks = true else bit i.toks = false)) ∧
    (cc = 1 → 4 ≤ src.toNat → goes x.f (true ∈ mask)) ∧
    (cc = 2 → 4 ≤ src.toNat → goes x.f (true ∉ mask)) ∧
    (cc = 3 → 4 ≤ src.toNat → goes x.f (false ∉ mask)) ∧
    (cc = 4 → 4 ≤ src.toNat → goes x.f (false ∈ mask)) ∧
    (let n := if k = 0 then cnt.toNat else (lane (x.reg (cnt.setWidth 5)) 0).toNat
     let f := { x.f with loops := mapSet x.f.loops lvl.toNat (pc + 1, pc + len.toNat, n) }
     (n = 0 → exec (.cloop k cnt len lvl) s = .next (s.opJump x f (pc + len.toNat + 1))) ∧
     (n ≠ 0 → exec (.cloop k cnt len lvl) s = .next (s.opNext s x f 1))) ∧
    exec .nopOp s = .next (s.opNext s x x.f 1)) ∧
  (∀ (s : State) (x : OpCtx), s.fires x →
    (x.f.maccs ≠ [] → exec .fend s = .next (s.opStall s x 2)) ∧
    (x.f.maccs = [] → x.a.ports.Nodup → ∃ t, exec .fend s = .next t ∧ s.sameBytes t ∧
      let d := t.cell x.r x.k
      d.firing = none ∧ d.actors = x.c.actors ∧ d.store = x.c.store ∧
      (∀ p, d.port p = if p ∈ x.a.ports ∧ x.c.isInput p = true then (x.c.port p).drop (x.a.rate p) else x.c.port p) ∧
      ∀ b v, mapGet [] (mapGet [] d.banks b) v =
        if b = x.f.actor then (if 24 ≤ v then mapGet [] x.f.regs v else []) else mapGet [] (mapGet [] x.c.banks b) v)) ∧
  (∀ (s t : State) (x : OpCtx) (f : Firing) (n : Nat),
    let e (l : Nat) := mapGet (0, 0, 0) f.loops l
    let here (l : Nat) : Prop := 0 < (e l).2.2 ∧ (e l).2.1 = x.f.pc
    ∃ g : Firing, ((s.opNext t x f n).cell x.r x.k).firing = some g ∧ g.nextAt = s.now + n ∧ g.waiting = false ∧ g.regs = f.regs ∧
      -- level 1 ends before level 0; a loop whose count is above 1 goes round again
      (here 1 → 1 < (e 1).2.2 → g.pc = (e 1).1 ∧ mapGet (0, 0, 0) g.loops 1 = ((e 1).1, (e 1).2.1, (e 1).2.2 - 1) ∧
        mapGet (0, 0, 0) g.loops 0 = e 0) ∧
      (¬ (here 1 ∧ 1 < (e 1).2.2) →
        mapGet (0, 0, 0) g.loops 1 = (if here 1 then ((e 1).1, (e 1).2.1, 0) else e 1) ∧
        (here 0 → 1 < (e 0).2.2 → g.pc = (e 0).1 ∧ mapGet (0, 0, 0) g.loops 0 = ((e 0).1, (e 0).2.1, (e 0).2.2 - 1)) ∧
        (¬ (here 0 ∧ 1 < (e 0).2.2) → g.pc = x.f.pc + 1 ∧
          mapGet (0, 0, 0) g.loops 0 = (if here 0 then ((e 0).1, (e 0).2.1, 0) else e 0))))

/-- Channel words on the ports of a cell (R96, R97, R99, R107 to R113): RECV takes reserved items one after another, PEEK copies one,
SEND, SENDM, MKLV and TOKS fill reserved slots; a word that asks for an item or a slot beyond the reservation raises cause 11.
Where the manual leaves a point open, this follows the model's choice (log entries 52 and 71). -/
def Obligations.ChannelWords : Prop :=
  ∀ (s : State) (x : OpCtx) (v port n : BitVec 5) (near lvl inp : BitVec 3) (tport : BitVec 2) (flg pm : BitVec 4) (it : Nat → Item),
    s.fires x →
    let p := port.toNat
    let cnt := n.toNat + 1
    let taken := mapGet 0 x.f.taken p
    let left := x.a.rate p - taken
    let slots (p : Nat) : Nat := x.a.rate p - mapGet 0 x.f.sent p
    let sel (L : Nat) : Bool := x.f.selects x.lanes pm.toNat L
    -- a marker gives zero, a data item the bits of its tokens
    let lanes (i : Item) (L : Nat) : Word :=
      match i with
      | .data toks _ => BitVec.ofNat 32 (toks.getD (L / 8) 0 / 2 ^ (32 * (L % 8)))
      | _ => 0
    let tag (i : Item) : Nat :=
      match i with
      | .marker l => l
      | _ => 0
    let hit (i : Item) : Bool := decide (0 < tag i ∧ (if flg.getLsbD 2 then tag i = lvl.toNat else lvl.toNat ≤ tag i))
    let tests (f : Firing) (i : Item) : Prop := ∀ m, f.mask x.lanes m =
      if flg.getLsbD 3 = true ∧ m = flg.toNat % 4 ∧ m ≠ 0 then List.replicate x.lanes (hit i) else x.f.mask x.lanes m
    let token (v j : Nat) : Nat := packElems 32 ((List.range 8).map fun e =>
      if sel (8 * j + e) then (lane (x.f.reg x.lanes v) (8 * j + e)).toNat else 0)
    let sends (i : Instr) (p : Nat) (items : List Item) : Prop :=
      let now (u : State) (items : List Item) : Prop := s.sameBytes u ∧
        ∀ q, (u.cell x.r x.k).port q = if q = p then x.c.port p ++ items.map (fun j => ⟨j, s.now + 1⟩) else x.c.port q
      (items.length ≤ slots p → ∃ u f, exec i s = .next (s.opNext u x f 1) ∧ now u items ∧ f = { x.f with sent := f.sent } ∧
        ∀ q, mapGet 0 f.sent q = mapGet 0 x.f.sent q + if q = p then items.length else 0) ∧
      (slots p < items.length → ∃ u, exec i s = .next (s.opFault u x 11 1 0) ∧ now u (items.take (slots p)))
    (p < 20 → left < cnt → exec (.recv v port n lvl flg pm) s = .next (s.opFault s x 11 1 0)) ∧
    (p < 20 → cnt ≤ left → (∀ j < cnt, ((x.c.port p)[taken + j]?).map Held.item = some (it j)) →
      ∃ f, exec (.recv v port n lvl flg pm) s = .next (s.opNext s x f 1) ∧
        (∀ q, mapGet 0 f.taken q = if q = p then taken + cnt else mapGet 0 x.f.taken q) ∧
        (∀ q, mapGet 0 f.lastTag q = if q = p then tag (it (cnt - 1)) else mapGet 0 x.f.lastTag q) ∧
        tests f (it (cnt - 1)) ∧ f.sent = x.f.sent ∧ f.loops = x.f.loops ∧
        ∀ g, ∀ L < x.lanes, lane (f.reg x.lanes g) L =
          if v.toNat ≤ g ∧ g < v.toNat + cnt ∧ sel L = true then lanes (it (g - v.toNat)) L else lane (x.f.reg x.lanes g) L) ∧
    (let q := near.toNat
     let left := x.a.rate q - mapGet 0 x.f.taken q
     (left ≤ n.toNat → exec (.peek v near n lvl flg pm) s = .next (s.opFault s x 11 1 0)) ∧
     (∀ h, n.toNat < left → (x.c.port q)[mapGet 0 x.f.taken q + n.toNat]? = some h →
      ∃ f, exec (.peek v near n lvl flg pm) s = .next (s.opNext s x f 1) ∧ tests f h.item ∧
        f.taken = x.f.taken ∧ f.lastTag = x.f.lastTag ∧ f.sent = x.f.sent ∧ f.loops = x.f.loops ∧
        ∀ g, ∀ L < x.lanes, lane (f.reg x.lanes g) L =
          if g = v.toNat ∧ sel L = true then lanes h.item L else lane (x.f.reg x.lanes g) L)) ∧
    (p < 20 → sends (.send v port n lvl flg pm) p
      ((List.range cnt).map fun j => .data ((List.range x.size).map (token (v.toNat + j))) (entFmt (x.c.entry p)))) ∧
    (let last := mapGet 0 x.f.lastTag inp.toNat
     (last = 0 → sends (.sendm v port inp lvl pm) p [.data ((List.range x.size).map (token v.toNat)) (entFmt (x.c.entry p))]) ∧
     (0 < last → lvl.toNat ≤ last → sends (.sendm v port inp lvl pm) p [.marker last]) ∧
     (0 < last → last < lvl.toNat → exec (.sendm v port inp lvl pm) s = .next (s.opNext s x x.f 1))) ∧
    sends (.mklv port lvl) p [.marker lvl.toNat] ∧
    (let q := 16 + tport.toNat
     let i := Instr.toks tport flg
     let bit := if flg.getLsbD 3 = true then (if true ∈ x.f.mask x.lanes (flg.toNat % 4) then 1 else 0) else flg.toNat % 2
     -- the cell of copy 0, whose port collects; the port leads somewhere, or is the select port of the image
     let home := 16 * x.r + x.k - x.a.copy * 2 ^ x.a.lgf
     let leaves := (s.selectsAt (home / 16) (home % 16) q).isSome = true ∨ s.tokenWired x.r x.k q x.a = true
     (slots q = 0 → exec i s = .next (s.opFault s x 11 1 0)) ∧
     (leaves → sends i q [.data [bit] (if s.activating (s.leadOf x.r) = true then 1 else 0)]) ∧
     (¬ leaves → 0 < slots q →
       ∃ f, exec i s = .next (s.opNext s x f 1) ∧ f = { x.f with sent := f.sent } ∧
         ∀ k, mapGet 0 f.sent k = mapGet 0 x.f.sent k + if k = q then 1 else 0) ∧
     (∀ im, s.activeImage x.r = some im →
       let u := s.selectToken x.r im (decide (bit = 1))
       let g := (s.regionOf x.r).elim (x.r, 0) fun g => (g.lead, g.lgn)
       let ranks := blockRanks g.1 g.2
       let slot := im.selSlot (decide (bit = 1))
       let ident := (s.slot g.1 slot).ident
       let holds := ident ≠ 0 ∧ ∀ t ∈ ranks, (s.slot t slot).ident = ident
       -- the slot that the token's value selects is activated, unless an activation is under way or the slot holds no image
       (s.activating g.1 = true → u = s) ∧
       (s.activating g.1 = false → ¬ holds → u = s.raiseAt g.1 16 (cfgVal slot) 2) ∧
       (s.activating g.1 = false → holds → ∃ job : Job, u.jobs = s.jobs ++ [job] ∧ job.kind = .next slot ∧ job.tiles = ranks ∧
         job.core = none)))

/-! ### Memory tiles -/

/-- TLD and TST (R148, R152, R153, R158, R166, R167): each lane taking part reads or writes the word at its address; the lowest
lane outside a plain region, or in another than the first lane's, faults; a tolerant region reads an uncorrectable word as
zero. TLDV, TSTV and TRCL (R36, R151, R154 to R158, R167): the lowest lane that faults stops all; a lane whose slot another
version holds or leaves empty makes all wait (TRCL misses instead); else every lane performs at its slot. A word that waited
is evaluated again.
Where the manual leaves a point open, this follows the model's choice (log entries 59, 60, 135, 149 and 152). -/
def Obligations.TileWords : Prop :=
  (∀ (s : State) (x : OpCtx) (v va : BitVec 5) (q g : BitVec 1) (pm : BitVec 4), s.fires x →
     let m := s.mtile x.r q.toNat
     let parts (L : Nat) : Prop := L < x.lanes ∧ x.selects pm L = true
     let addr (L : Nat) : Nat := if g = 1 then (lane (x.reg va) L).toNat else ((lane (x.reg va) 0).toNat + L) % 2 ^ 32
     let ld := Instr.tld v va q g pm
     let st := Instr.tst v va q g pm
     let bad (L : Nat) : Bool := m.poisoned.contains (addr L)
     (∀ reg : MapRegion, reg.mode = 0 → (∀ L, parts L → m.regionOf (addr L) = some reg) →
       let reads (u : State) (val : Nat → Word) : Prop := s.sameBytes u ∧
         ∃ l, exec ld s = .next (s.opNext u x (x.f.setReg v.toNat l) 1) ∧
           x.fills v (x.selects pm) 32 (fun L _ => (val L).toNat) l
       ((∀ L, parts L → bad L = false) → ∃ u, reads u fun L => m.word (addr L)) ∧
       (reg.tol = true → (∃ L, parts L ∧ bad L = true) → ∃ u, reads u (fun L => if bad L then 0 else m.word (addr L)) ∧
         ∀ p, s.owner x.r = some p → u.later = s.later ++ [.sub p 1]) ∧
       (∀ L, reg.tol = false → parts L → bad L = true → (∀ k < L, parts k → bad k = false) →
         exec ld s = .next (s.opFault s x 13 0 (addr L % 2 ^ 18))) ∧
       (∃ u, exec st s = .next (s.opNext u x x.f 1) ∧ s.sameElsewhere u x.r q.toNat ∧
         let n := u.mtile x.r q.toNat
         (∀ L, parts L → (∀ k, L < k → parts k → addr k ≠ addr L) →
           n.word (addr L) = lane (x.reg v) L ∧ n.poisoned.contains (addr L) = false) ∧
         ∀ w, (∀ L, parts L → addr L ≠ w) → n.word w = m.word w ∧ n.poisoned.contains w = m.poisoned.contains w)) ∧
     (∀ first L, parts first → (∀ k < first, ¬ parts k) → parts L →
       let fails (L sub : Nat) : Prop :=
         (m.regionOf (addr L) = none ∧ sub = 0) ∨ ∃ reg, m.regionOf (addr L) = some reg ∧
           ((reg.mode ≠ 0 ∧ sub = 1) ∨
             (reg.mode = 0 ∧ sub = 2 ∧ ∃ r0, m.regionOf (addr first) = some r0 ∧ r0.idx ≠ reg.idx))
       ∀ sub, fails L sub → (∀ k < L, parts k → ∀ n, ¬ fails k n) → ∀ i ∈ [ld, st],
         exec i s = .next (s.opFault s x 6 sub (addr L % 2 ^ 18)))) ∧
  (∀ (s : State) (x : OpCtx) (v va vv : BitVec 5) (q win : BitVec 1) (mk : BitVec 2) (dy dx : BitVec 3) (pm : BitVec 4), s.fires x →
     let m := s.mtile x.r q.toNat
     let ver := (lane (x.reg vv) 0).toNat % 256
     let parts (L : Nat) : Prop := L < x.lanes ∧ x.selects pm L = true
     let addr (L : Nat) : Nat := ((lane (x.reg va) 0).toNat + L) % 2 ^ 32
     let ld := Instr.tldv v va vv q pm
     let st := Instr.tstv v va vv q pm
     let rc := Instr.trcl va vv q mk pm
     let placed (reg : MapRegion) (L : Nat) : Prop :=
       m.regionOf (addr L) = some reg ∧ reg.mode = 1 ∧ addr L - reg.base < reg.len / 3
     let tag (reg : MapRegion) (L : Nat) : Nat := reg.base + 3 * (addr L - reg.base) + 2
     let data (reg : MapRegion) (L : Nat) : Nat := reg.base + 3 * (addr L - reg.base) + ver % 2
     let full (reg : MapRegion) (L : Nat) : Bool := (m.slot reg.base (addr L - reg.base) ver).1
     let d (reg : MapRegion) (L : Nat) : Nat := ((m.slot reg.base (addr L - reg.base) ver).2 + 256 - ver) % 256
     -- the cause and subcode of R155 on a full slot at a distance of versions
     let loads (d : Nat) : Option (Nat × Nat) := if 0 < d ∧ d < 128 then some (8, 0) else if d = 128 then some (7, 2) else none
     let stores (d : Nat) : Option (Nat × Nat) :=
       if d = 0 then some (7, 0) else if d < 128 then some (7, 1) else if d = 128 then some (7, 2) else none
     let frees (d : Nat) : Option (Nat × Nat) := if d = 128 then some (7, 2) else none
     let faulty (i : Instr) (reads : Bool) (harm : Nat → Option (Nat × Nat)) : Prop :=
       ∀ first L, parts first → (∀ k < first, ¬ parts k) → parts L →
         let fails (L c sub : Nat) : Prop :=
           (m.regionOf (addr L) = none ∧ c = 6 ∧ sub = 0) ∨ ∃ reg, m.regionOf (addr L) = some reg ∧
             ((reg.mode ≠ 1 ∧ c = 6 ∧ sub = 1) ∨ (reg.mode = 1 ∧ reg.len / 3 ≤ addr L - reg.base ∧ c = 6 ∧ sub = 0) ∨
              (placed reg L ∧ c = 6 ∧ sub = 2 ∧ ∃ r0, m.regionOf (addr first) = some r0 ∧ r0.idx ≠ reg.idx) ∨
              (placed reg L ∧ (∀ r0, m.regionOf (addr first) = some r0 → r0.idx = reg.idx) ∧
                ((m.poisoned.contains (tag reg L) = true ∧ c = 13 ∧ sub = 0) ∨
                 (m.poisoned.contains (tag reg L) = false ∧ full reg L = true ∧ harm (d reg L) = some (c, sub)) ∨
                 (reads = true ∧ m.poisoned.contains (tag reg L) = false ∧ full reg L = true ∧ d reg L = 0 ∧ reg.tol = false ∧
                  m.poisoned.contains (data reg L) = true ∧ c = 13 ∧ sub = 0))))
         ∀ c sub, fails L c sub → (∀ k < L, parts k → ∀ c' n, ¬ fails k c' n) →
           exec i s = .next (s.opFault s x c sub (addr L % 2 ^ 18))
     faulty ld true loads ∧ faulty st false stores ∧ faulty rc false frees ∧
     (∀ reg, (∀ L, parts L → placed reg L ∧ m.poisoned.contains (tag reg L) = false) →
       let settled := x.f.waiting = false ∨
         ∀ L t, parts L → m.slotStamp reg.base (addr L - reg.base) ver = some t → t < s.now
       let sound := reg.tol = true ∨ ∀ L, parts L → m.poisoned.contains (data reg L) = false
       (sound → (∀ L, parts L → full reg L = true → loads (d reg L) = none) → (∃ L, parts L ∧ (full reg L = false ∨ d reg L ≠ 0)) →
         exec ld s = .next (s.opStall s x 1)) ∧
       ((∀ L, parts L → full reg L = true ∧ d reg L = 0) → settled → sound →
         ∃ u l, exec ld s = .next (s.opNext u x (x.f.setReg v.toNat l) 1) ∧ s.sameBytes u ∧
           x.fills v (x.selects pm) 32 (fun L _ =>
             if m.poisoned.contains (data reg L) = true then 0 else (m.word (data reg L)).toNat) l) ∧
       ((∀ L, parts L → full reg L = true → stores (d reg L) = none) → (∃ L, parts L ∧ full reg L = true) →
         exec st s = .next (s.opStall s x 1)) ∧
       ((∀ L, parts L → full reg L = false) → settled →
         ∃ u, exec st s = .next (s.opNext u x x.f 1) ∧ s.sameElsewhere u x.r q.toNat ∧
           let n := u.mtile x.r q.toNat
           (∀ L, parts L → n.slot reg.base (addr L - reg.base) ver = (true, ver) ∧ n.word (data reg L) = lane (x.reg v) L ∧
             n.slot reg.base (addr L - reg.base) (ver + 1) = m.slot reg.base (addr L - reg.base) (ver + 1)) ∧
           ∀ w, (∀ L, parts L → w ≠ data reg L ∧ w ≠ tag reg L) → n.word w = m.word w) ∧
       ((∀ L, parts L → full reg L = true → frees (d reg L) = none) →
         let hit (L : Nat) : Prop := full reg L = true ∧ d reg L = 0
         ∃ u f, exec rc s = .next (s.opNext u x f 1) ∧ s.sameElsewhere u x.r q.toNat ∧
           (let n := u.mtile x.r q.toNat
            (∀ L, parts L → hit L → n.slot reg.base (addr L - reg.base) ver = (false, 0) ∧
              n.slot reg.base (addr L - reg.base) (ver + 1) = m.slot reg.base (addr L - reg.base) (ver + 1)) ∧
            (∀ w, (∀ L, parts L → hit L → w ≠ tag reg L) → n.word w = m.word w) ∧
            ((∀ L, parts L → hit L) → u.later = s.later) ∧
            ((∃ L, parts L ∧ ¬ hit L) → u.later = s.later ++ [.miss x.r q.toNat])) ∧
           (mk = 0 → f = x.f) ∧
           (mk ≠ 0 → f = { x.f with masks := f.masks } ∧ (∀ k, k ≠ mk.toNat → f.mask x.lanes k = x.f.mask x.lanes k) ∧
             ∀ L < x.lanes, ((f.mask x.lanes mk.toNat).getD L false = true ↔
               if x.selects pm L = true then ¬ hit L else (x.f.mask x.lanes mk.toNat).getD L false = true)))) ∧
     (x.f.waiting = true → x.f.nextAt ≤ s.now → ∀ i ∈ [ld, st, .wld v va q win dy dx pm],
       decodeOperation (mapGet 0 x.c.store x.f.pc) = .ok i → ∀ t, exec i s = .next t → exec .versionedWaitResume s = .next t))

/-- Windows (R160 to R164): where an element of a window read comes from; WLD gives each lane its elements, and waits for a row that is
not present; WADV moves the centre on, and reclaims the row that leaves it, or at the end of a pass every row; a row enters by the
stream as versioned stores, and waits for its slots or for the next pass.
Where the manual leaves a point open, this follows the model's choice (log entries 61 and 63). -/
def Obligations.Windows : Prop :=
  (∀ (w : Window) (row col : Int), 0 < w.nx → 0 < w.ny →
    let nx : Int := w.nx
    let ny : Int := w.ny
    let at_ (y c : Int) : WinSrc := if w.npol = 3 ∧ ny ≤ y then .wrap ((y - ny).toNat * w.rowWords + c.toNat / w.per) (c.toNat % w.per)
      else .row y.toNat (c.toNat / w.per) (c.toNat % w.per)
    let inside (c : Int) : Prop := 0 ≤ c ∧ c < nx
    -- the row and the column that stand for a place outside, by the policy of its side
    let col' (pol : Nat) : Int := if pol = 1 then (if col < 0 then 0 else nx - 1)
      else if pol = 2 then (if col < 0 then -col else 2 * (nx - 1) - col) else col % nx
    let row' (pol : Nat) : Int := if pol = 1 then (if row < 0 then 0 else ny - 1)
      else if row < 0 then -row else 2 * (ny - 1) - row
    (inside col → 0 ≤ row → row < ny ∨ w.npol = 3 → w.source row col = at_ row col) ∧
    (inside col → w.npol ≠ 3 → row < 0 → w.npol = 0 → w.source row col = .const) ∧
    (inside col → w.spol < 3 → w.npol ≠ 3 → ny ≤ row → w.spol = 0 → w.source row col = .const) ∧
    (inside col → row < 0 → w.npol = 1 ∨ w.npol = 2 → w.source row col = at_ (row' w.npol) col) ∧
    (inside col → w.npol ≠ 3 → ny ≤ row → w.spol = 1 ∨ w.spol = 2 → 0 ≤ row' w.spol → w.source row col = at_ (row' w.spol) col) ∧
    (0 ≤ row → row < ny ∨ w.npol = 3 →
      (col < 0 → w.wpol = 0 → w.source row col = .const) ∧ (nx ≤ col → w.epol = 0 → w.source row col = .const) ∧
      (col < 0 → 0 < w.wpol → w.wpol < 4 → inside (col' w.wpol) → w.source row col = at_ row (col' w.wpol)) ∧
      (nx ≤ col → 0 < w.epol → w.epol < 4 → inside (col' w.epol) → w.source row col = at_ row (col' w.epol)))) ∧
  (∀ (s : State) (x : OpCtx) (vd va : BitVec 5) (q win : BitVec 1) (dy dx : BitVec 3) (pm : BitVec 4) (val : Nat → Nat), s.fires x →
    let m := s.mtile x.r q.toNat
    let w := m.window win.toNat
    let st := m.winState win.toNat
    let parts (L : Nat) : Prop := L < x.lanes ∧ x.selects pm L = true
    let src (n : Nat) : WinSrc :=
      w.source (st.centre + (dy.toNat : Int) - 3) ((lane (x.reg va) 0).toInt + n + dx.toNat - 3)
    -- element n of the read, over all lanes: the constant, or the bits of a word of the wrap region or of a row that is present
    let gives (n : Nat) : Prop :=
      match src n with
      | .const => val n = w.const
      | .outside => False
      | .wrap j e => m.poisoned.contains ((m.baseOf w.wreg).1 + j) = false ∧
        val n = (m.word ((m.baseOf w.wreg).1 + j)).toNat / 2 ^ (w.width * e) % 2 ^ w.width
      | .row y j e =>
        let b := (m.baseOf w.vreg).1
        let k := w.index y j
        let word := b + 3 * k + y % 256 % 2
        m.poisoned.contains (b + 3 * k + 2) = false ∧ m.poisoned.contains word = false ∧ m.slot b k (y % 256) = (true, y % 256) ∧
        (x.f.waiting = true → m.settled s.now b k (y % 256) = true) ∧
        val n = (m.word word).toNat / 2 ^ (w.width * e) % 2 ^ w.width
    let absent (n : Nat) : Prop := ∃ y j e, src n = .row y j e ∧ m.poisoned.contains ((m.baseOf w.vreg).1 + 3 * w.index y j + 2) = false ∧
      (m.slot (m.baseOf w.vreg).1 (w.index y j) (y % 256)).1 = false
    let i := Instr.wld vd va q win dy dx pm
    ((∀ L, parts L → ∀ e < w.per, gives (L * w.per + e)) → ∃ u l, exec i s = .next (s.opNext u x (x.f.setReg vd.toNat l) 1) ∧
      s.sameBytes u ∧ x.fills vd (x.selects pm) w.width (fun L e => val (L * w.per + e)) l) ∧
    ((∀ L, parts L → ∀ e < w.per, gives (L * w.per + e) ∨ absent (L * w.per + e)) →
      (∃ L, parts L ∧ ∃ e < w.per, absent (L * w.per + e)) → exec i s = .next (s.opStall s x 1)) ∧
    (let c := st.centre
     let start := if w.npol = 3 then w.hy else 0
     let last := c + 1 = start + w.ny
     let leaves (row : Nat) : Prop := w.hy ≤ c ∧ (row = c - w.hy ∨ (last ∧ c - w.hy < row ∧ row < w.ny)) ∨
       (c < w.hy ∧ last ∧ row < w.ny) ∨ (last ∧ row + w.hy < c ∧ m.holdsRow w row = true)
     let i := Instr.wadv q win
     let copied (row : Nat) : Bool := decide (w.npol = 3 ∧ row < 2 * w.hy ∧ row + w.hy = c)
     (∀ row a cause sub, leaves row → m.reclaimFault w row (copied row) = some (a, cause, sub) →
       (∀ k, leaves k → (if c ≤ k + w.hy then row + w.hy < c ∨ k < row else row + w.hy < c ∧ k < row) →
         m.reclaimFault w k (copied k) = none) → exec i s = .next (s.opFault s x cause sub (a % 2 ^ 18))) ∧
     ((∀ row, leaves row → m.reclaimFault w row (copied row) = none) →
       ∃ u, exec i s = .next (s.opNext u x x.f 1) ∧ s.sameElsewhere u x.r q.toNat ∧
         let n := u.mtile x.r q.toNat
         n.winState win.toNat = (if last then ⟨start, 0, 0⟩ else { st with centre := c + 1 }) ∧
         (w.npol ≠ 3 → ∀ row j, leaves row → j < w.rowWords →
           n.slot (m.baseOf w.vreg).1 (w.index row j) (row % 256) ≠ (true, row % 256))))) ∧
  (∀ (s : State) (it : Item),
    let r := s.foc.unit
    let k := s.foc.sub
    let code := (s.router r).dest k
    let q := code / 2 % 2
    let j := code % 2
    let m := s.mtile r q
    let w := m.window j
    let st := m.winState j
    let b := (m.baseOf w.vreg).1
    let v := st.row % 256
    let here (i : Nat) : Prop := st.word ≤ i ∧ i < st.word + 8 ∧ i < w.rowWords
    code / 4096 % 16 = 3 → s.waitingAt r k = some it →
    let taken (u : State) : Prop := mapGet [] (u.router r).outq k = (mapGet [] (s.router r).outq k).drop 1
    (∀ toks f, it = .data toks f →
      (w.ny ≤ st.row → exec .windowRowArrival s = .next s) ∧
      (st.row < w.ny → (∀ i, here i → m.poisoned.contains (b + 3 * w.index st.row i + 2) = false) →
        ((∃ i, here i ∧ (m.slot b (w.index st.row i) v).1 = true) →
          (∀ i, here i → (m.slot b (w.index st.row i) v).1 = true →
            128 < ((m.slot b (w.index st.row i) v).2 + 256 - v) % 256) → exec .windowRowArrival s = .next s) ∧
        ((∀ i, here i → (m.slot b (w.index st.row i) v).1 = false ∧ m.settled s.now b (w.index st.row i) v = true) →
          ∃ u, exec .windowRowArrival s = .next u ∧ taken u ∧ s.sameElsewhere u r q ∧
            let n := u.mtile r q
            (∀ i, here i → n.slot b (w.index st.row i) v = (true, v) ∧
              n.word (b + 3 * w.index st.row i + v % 2) = BitVec.ofNat 32 (toks.getD 0 0 / 2 ^ (32 * (i - st.word)))) ∧
            n.winState j = if w.rowWords ≤ st.word + 8 then ⟨st.centre, st.row + 1, 0⟩ else { st with word := st.word + 8 }))) ∧
    ((∃ l, it = .marker l) ∨ (∃ l, it = .barrier l) → ∃ u, exec .windowRowArrival s = .next u ∧ taken u ∧ s.sameBytes u))

/-- Queue regions (R91, R108, R110, R165): RECV and SEND on q0 and q1 take and append whole items, or stall; a stream's tokens join into
items at its end, and leave one at a time.
Where the manual leaves a point open, this follows the model's choice (log entry 64). -/
def Obligations.QueueRegions : Prop :=
  (∀ (s : State) (x : OpCtx) (v n port : BitVec 5) (lvl : BitVec 3) (pm : BitVec 4) (g : MapRegion), s.fires x →
    port = 20 ∨ port = 21 →
    let q := port.toNat - 20
    let m := s.mtile x.r q
    let h := m.queue lvl.toNat
    let cnt := n.toNat + 1
    let cap := g.len / (8 * x.size)
    -- word `i` of the item at position `p`
    let place (p i : Nat) : Nat := g.base + (h.head + p) % cap * (8 * x.size) + i
    let sel (L : Nat) : Bool := x.selects pm L
    let recv := Instr.recv v port n lvl 0 pm
    let send := Instr.send v port n lvl 0 pm
    (m.regionAt lvl.toNat 2 = none → ∀ i ∈ [recv, send], exec i s = .next (s.opFault s x 6 1 0)) ∧
    (m.regionAt lvl.toNat 2 = some g →
      (cap < h.items.length + cnt → exec send s = .next (s.opStall s x 2)) ∧
      (h.items.length + cnt ≤ cap → ∃ u, exec send s = .next (s.opNext u x x.f 1) ∧ s.sameElsewhere u x.r q ∧
        let k := u.mtile x.r q
        k.queue lvl.toNat = { h with items := h.items ++ List.replicate cnt ⟨0, 0, x.size, 0, s.now + 1⟩ } ∧
        (∀ j < cnt, ∀ i < 8 * x.size, k.word (place (h.items.length + j) i) =
          if sel i then lane (x.f.reg x.lanes (v.toNat + j)) i else 0) ∧
        ∀ w, (∀ j < cnt, ∀ i < 8 * x.size, w ≠ place (h.items.length + j) i) → k.word w = m.word w) ∧
      (let whole (e : QEntry) : Prop := e.ready ≤ s.now ∧ e.gone = 0 ∧ (0 < e.tag ∨ x.size ≤ e.came)
       (h.items.length < cnt ∨ (∃ e ∈ h.items.take cnt, ¬ whole e) → exec recv s = .next (s.opStall s x 2)) ∧
       (cnt ≤ h.items.length → (∀ e ∈ h.items.take cnt, whole e) →
         (∀ p < cnt, ∀ i < 8 * x.size, m.poisoned.contains (place p i) = false) →
         ∃ u f, exec recv s = .next (s.opNext u x f 1) ∧ s.sameBytes u ∧
           (u.mtile x.r q).queue lvl.toNat = ⟨(h.head + cnt) % cap, h.items.drop cnt⟩ ∧
           mapGet 0 f.lastTag port.toNat = ((h.items.getD n.toNat ⟨0, 0, 0, 0, 0⟩).tag) ∧
           ∀ r, ∀ L < x.lanes, lane (f.reg x.lanes r) L =
             if v.toNat ≤ r ∧ r < v.toNat + cnt ∧ sel L = true then
               (if (h.items.getD (r - v.toNat) ⟨0, 0, 0, 0, 0⟩).tag = 0 then m.word (place (r - v.toNat) L) else 0)
             else lane (x.f.reg x.lanes r) L)))) ∧
  (∀ (s : State) (g : MapRegion) (it : Item),
    let r := s.foc.unit
    let k := s.foc.sub
    let dest := (s.router r).dest k
    let source := (s.router r).source k
    let push (code : Nat) : Prop := code / 4096 % 16 = 4 ∧ (s.mtile r (code / 8 % 2)).regionAt (code % 8) 2 = some g
    (s.foc.arg = 0 → push dest → s.waitingAt r k = some it →
      let q := dest / 8 % 2
      let idx := dest % 8
      let n := (s.fab r).queueSize q idx
      let m := s.mtile r q
      let h := m.queue idx
      let cap := g.len / (8 * n)
      let place (p i : Nat) : Nat := g.base + (h.head + p) % cap * (8 * n) + i
      let taken (u : State) : Prop := mapGet [] (u.router r).outq k = (mapGet [] (s.router r).outq k).drop 1 ∧ s.sameElsewhere u r q
      let ended := ∀ pre e, h.items = pre ++ [e] → 0 < e.tag ∨ n ≤ e.came
      let holds (u : State) (p j tok : Nat) : Prop :=
        ∀ i < 8, (u.mtile r q).word (place p (8 * j + i)) = BitVec.ofNat 32 (tok / 2 ^ (32 * i))
      (∀ toks f, it = .data toks f → 0 < n →
        (ended → cap ≤ h.items.length → exec .streamQueueAccess s = .next s) ∧
        (ended → h.items.length < cap → ∃ u, exec .streamQueueAccess s = .next u ∧ taken u ∧
          ((u.mtile r q).queue idx).head = h.head ∧
          ((u.mtile r q).queue idx).items = h.items ++ [⟨0, f, toks.length, 0, s.now + 1⟩] ∧
          holds u h.items.length 0 (toks.getD 0 0)) ∧
        (∀ pre e, h.items = pre ++ [e] → e.tag = 0 → e.came < n → ∃ u, exec .streamQueueAccess s = .next u ∧ taken u ∧
          ((u.mtile r q).queue idx).head = h.head ∧
          ((u.mtile r q).queue idx).items = pre ++ [{ e with came := e.came + 1, ready := s.now + 1 }] ∧
          holds u pre.length e.came (toks.getD 0 0))) ∧
      (∀ l, it = .marker l →
        (cap ≤ h.items.length → exec .streamQueueAccess s = .next s) ∧
        (ended → h.items.length < cap → ∃ u, exec .streamQueueAccess s = .next u ∧ taken u ∧
          ((u.mtile r q).queue idx).items = h.items ++ [⟨l, 0, n, 0, s.now + 1⟩]))) ∧
    (s.foc.arg = 1 → push source →
      let q := source / 8 % 2
      let idx := source % 8
      let n := (s.fab r).queueSize q idx
      let m := s.mtile r q
      let h := m.queue idx
      let cap := g.len / (8 * n)
      let place (i : Nat) : Nat := g.base + h.head % cap * (8 * n) + i
      ((h.items = [] ∨ ∃ e rest, h.items = e :: rest ∧ (s.now < e.ready ∨ (e.tag = 0 ∧ e.came < n))) →
        exec .streamQueueAccess s = .next s) ∧
      (∀ e rest s', h.items = e :: rest → e.ready ≤ s.now →
        (0 < e.tag → s.acceptRouter r (4 + k) 0 (.marker e.tag) = some s' → ∃ u, exec .streamQueueAccess s = .next u ∧
          s.sameBytes u ∧ u.router r = s'.router r ∧ (u.mtile r q).queue idx = ⟨(h.head + 1) % cap, rest⟩) ∧
        (e.tag = 0 → n ≤ e.came → (∀ i < 8, m.poisoned.contains (place (8 * e.gone + i)) = false) →
          s.acceptRouter r (4 + k) 0 (.data [packElems 32 ((List.range 8).map fun i => (m.word (place (8 * e.gone + i))).toNat)] e.fmt) =
            some s' →
          ∃ u, exec .streamQueueAccess s = .next u ∧ s.sameBytes u ∧ u.router r = s'.router r ∧
            (u.mtile r q).queue idx = if n ≤ e.gone + 1 then ⟨(h.head + 1) % cap, rest⟩
              else { h with items := { e with gone := e.gone + 1 } :: rest }))))

/-! ### Matrix array and utility nodes -/

/-- The matrix array (R56, R216 to R231): MWLD starts a load of the shadow plane, whose words are read sixteen a cycle; MWSW swaps the
planes; MACC adds one operand row's products, in groups of eight, to a row; MAST drains a row into registers or presets it.
Where the manual leaves a point open, this follows the model's choice (log entry 58). -/
def Obligations.MatrixWords : Prop :=
  (∀ (s : State) (x : OpCtx) (v row : BitVec 5) (t q z : BitVec 1) (seg : BitVec 2) (fmt : BitVec 4), s.fires x →
    let g := s.mx x.r
    let base := (lane (x.reg v) 0).toNat
    let m := s.mtile x.r q.toNat
    let words := if fmt = 5 then 2113 else 2048
    let mwld := Instr.mwld v t q fmt
    (g.loader ≠ none → exec mwld s = .next (s.opStall s x 2)) ∧
    (∀ reg, g.loader = none → reg.mode = 0 → (∀ w < words, m.regionOf (base + w) = some reg) →
      ∃ u, exec mwld s = .next (s.opNext u x x.f 1) ∧ s.sameBytes u ∧
        u.mx x.r = { g with shadow := ⟨.loading, fmt.toNat, decide (t = 1), []⟩, loader := some ⟨q.toNat, base, s.now, 0, s.now + 1, false⟩ }) ∧
    (∀ w, g.loader = none → w < words → (∀ k < w, ∃ reg, m.regionOf (base + k) = some reg ∧ reg.mode = 0 ∧
        ∃ r0, m.regionOf base = some r0 ∧ r0.idx = reg.idx) → m.regionOf (base + w) = none →
      exec mwld s = .next (s.opFault s x 6 0 ((base + w) % 2 ^ 18))) ∧
    (g.shadow.state = .loading → exec .mwsw s = .next (s.opStall s x 2)) ∧
    (g.shadow.state = .poisoned → exec .mwsw s = .next (s.opFault s x 13 0 0)) ∧
    (g.shadow.state = .empty ∨ g.shadow.state = .full → ∃ u, exec .mwsw s = .next (s.opNext u x x.f 1) ∧ s.sameBytes u ∧
      u.mx x.r = { g with active := g.shadow, shadow := g.active }) ∧
    (let p := g.active
     let macc := Instr.macc v row z seg fmt
     let half (f : Nat) : Prop := f = 1 ∨ f = 2
     let byte (f : Nat) : Prop := f = 3 ∨ f = 4
     let pair (k n : Nat) : Prop :=
       ((half p.fmt ∧ half fmt.toNat) ∧ k = 32 ∧ n = 1) ∨ ((byte p.fmt ∧ byte fmt.toNat) ∧ k = 64 ∧ n = 1) ∨
       ((p.fmt = 6 ∧ (fmt = 6 ∨ fmt = 7)) ∧ k = 64 ∧ n = 1) ∨ ((p.fmt = 5 ∧ half fmt.toNat) ∧ k = 32 ∧ n = 4) ∨
       ((p.fmt = 5 ∧ byte fmt.toNat) ∧ k = 64 ∧ n = 2)
     let faults (sub : Nat) : Prop := exec macc s = .next (s.opFault (x.record s condFM) x 10 sub 0)
     let old : AccRow := if z = 1 then AccRow.empty else mapGet AccRow.empty g.rows row.toNat
     let kind := if p.fmt = 6 then 2 else 1
     let tag := if p.fmt = 5 then some (p.word 2112) else none
     let fits := old.kind = 0 ∨ (old.kind = kind ∧ old.tag = some tag)
     -- weight (k, c), its place in the image by the plane's orientation
     let weight (k c : Nat) : Nat :=
       let b := ((fmtOfCode p.fmt).map fmtBits).getD 8
       let depth := if p.fmt = 5 then 128 else if half p.fmt then 32 else 64
       let e := if p.t then k * 128 + c else c * depth + k
       p.word (e * b / 32) / 2 ^ (e * b % 32) % 2 ^ b
     let af := (fmtOfCode fmt.toNat).getD .fp16
     let operand (k : Nat) : Nat :=
       let b := fmtBits af
       let w := k / (32 / b)
       let word := if x.size = 1 then (if w < 8 then lane (x.reg v) w else lane (x.f.reg x.lanes (v.toNat + 1)) (w - 8))
         else lane (x.reg v) w
       word.toNat / 2 ^ (b * (k % (32 / b))) % 2 ^ b
     let value (c : Nat) : Nat := (old.vals.getD c 0).toNat
     (p.state = .empty → faults 1) ∧
     (p.state ≠ .empty → (∀ k n, ¬ pair k n) → faults 2) ∧
     (∀ k n, p.state ≠ .empty → pair k n → n ≤ seg.toNat → faults 3) ∧
     (∀ k n, p.state ≠ .empty → pair k n → seg.toNat < n → ¬ fits → faults 4) ∧
     (∀ k n, p.state ≠ .empty → pair k n → seg.toNat < n → fits → x.policy = .propagate → x.f.macTrap = none →
       (x.f.reg x.lanes (v.toNat + 1)).length = x.lanes → (x.reg v).length = x.lanes → x.size ≠ 0 →
       ∃ u d new cond, exec macc s = .next (s.opNext u x d 1) ∧ s.sameBytes u ∧
         d = { x.f with maccs := x.f.maccs ++ [⟨row.toNat, s.now + 6, cond⟩] } ∧
         (∀ r, mapGet AccRow.empty (u.mx x.r).rows r = if r = row.toNat then new else mapGet AccRow.empty g.rows r) ∧
         new.kind = kind ∧ new.tag = some tag ∧ new.vals.length = 128 ∧
         ∀ c < 128, new.vals.getD c 0 = BitVec.ofNat 32 (
           if p.fmt = 6 then
             (BitVec.ofInt 32 ((BitVec.ofNat 32 (value c)).toInt + ((List.range k).map fun i =>
               decodeInt af (operand i) * decodeInt .int8 (weight (seg.toNat * k + i) c)).sum)).toNat
           else
             -- groups of eight products in ascending order, each sum exact, one rounding at each addition
             (List.range (k / 8)).foldl (fun acc grp =>
               (roundNE .fp32 (faddExact (decodeFloat .fp32 acc) (fsumExact ((List.range 8).map fun j =>
                 let i := 8 * grp + j
                 let w := if p.fmt = 5 then
                     dqUnscaled (weight (seg.toNat * k + i) c)
                       (p.word (2048 + (2 * c + (seg.toNat * k + i) / 64) / 4) / 256 ^ ((2 * c + (seg.toNat * k + i) / 64) % 4) % 256)
                   else decodeFloat ((fmtOfCode p.fmt).getD .fp16) (weight (seg.toNat * k + i) c)
                 (fmulExact (decodeFloat af (operand i)) w).1)).1).1).1) (value c))))) ∧
  (∀ (s : State) (x : OpCtx) (v vn : BitVec 5), s.fires x →
    let g := s.mx x.r
    let d := (lane (x.reg vn) 0).toNat
    let row := d % 32
    let keep := d / 1024 % 2 = 1
    let dfmt := d / 2048 % 16
    let ctl := d / 32768 % 512
    let w : AccRow := mapGet AccRow.empty g.rows row
    let reserved := d / 32 % 32 ≠ 0 ∨ d / 2 ^ 24 ≠ 0
    let float := dfmt ≤ 4
    let int := dfmt = 6 ∨ dfmt = 7 ∨ dfmt = 8 ∨ dfmt = 9
    let suits := (float ∧ w.kind ≠ 2) ∨ (int ∧ w.kind ≠ 1)
    let dst := (fmtOfCode dfmt).getD .fp32
    let b := fmtBits dst
    let per := 32 / b
    let regs (per : Nat) : Nat := (128 + 8 * x.size * per - 1) / (8 * x.size * per)
    let busy := ∃ m ∈ x.f.maccs, m.row = row
    let faults (i : Instr) : Prop := exec i s = .next (s.opFault (x.record s condFM) x 10 5 0)
    let drain := Instr.mast v vn
    let preset := Instr.mastPreset v vn
    let dOk := ¬ reserved ∧ suits ∧ ctlOk (BitVec.ofNat 9 ctl) = true ∧ v.toNat + regs per ≤ 32
    let pOk := ¬ reserved ∧ ¬ keep ∧ ctl = 0 ∧ (dfmt = 0 ∨ dfmt = 9) ∧ v.toNat + regs 1 ≤ 32
    0 < x.size → x.size ≤ 16 →
    (¬ dOk → faults drain) ∧ (¬ pOk → faults preset) ∧
    (dOk → busy → exec drain s = .next (s.opStall s x 2)) ∧ (pOk → busy → exec preset s = .next (s.opStall s x 2)) ∧
    (dOk → ¬ busy → x.policy = .propagate →
      -- the superscale is applied once, at the drain
      let scaled (c : Nat) : Nat :=
        match w.tag with
        | some (some t) => (roundNE .fp32 (fmulExact (decodeFloat .fp32 (w.vals.getD c 0).toNat) (decodeFloat .fp32 t)).1).1
        | _ => (w.vals.getD c 0).toNat
      let other := x.a.sp = true ∧ x.f.alt = true ∧ ctl / 256 = 1
      let mode := (modeOfCode (if other then ctl / 32 % 8 else ctl / 2 % 8)).getD .nearestEven
      let sat := decide ((if other then ctl / 16 % 2 else ctl % 2) = 1)
      let out (c : Nat) : Nat := if dfmt = 0 ∨ dfmt = 9 then scaled c
        else (convertElem (if int then .int32 else .fp32) dst mode sat (scaled c)).1
      ∃ u f, exec drain s = .next (s.opNext u x f 1) ∧ s.sameBytes u ∧
        (∀ r, mapGet AccRow.empty (u.mx x.r).rows r = if r = row ∧ ¬ keep then AccRow.empty else mapGet AccRow.empty g.rows r) ∧
        (∀ c < 128, (lane (f.reg x.lanes (v.toNat + c / (8 * x.size * per))) (c / per % (8 * x.size))).toNat / 2 ^ (b * (c % per)) % 2 ^ b =
          out c % 2 ^ b) ∧
        ∀ r, r < v.toNat ∨ v.toNat + regs per ≤ r → f.reg x.lanes r = x.f.reg x.lanes r) ∧
    (pOk → ¬ busy → ∃ u, exec preset s = .next (s.opNext u x x.f 1) ∧ s.sameBytes u ∧
      ∀ r, mapGet AccRow.empty (u.mx x.r).rows r = if r = row then
          ⟨if dfmt = 0 then 1 else 2, some none, (List.range 128).map fun c => lane (x.f.reg x.lanes (v.toNat + c / (8 * x.size))) (c % (8 * x.size))⟩
        else mapGet AccRow.empty g.rows r)) ∧
  (∀ (s : State) (l : Loader) (f : Firing),
    let r := s.foc.unit
    let k := s.foc.sub
    let g := s.mx r
    let cycles := if g.shadow.fmt = 5 then 133 else 128
    let words := if g.shadow.fmt = 5 then 2113 else 2048
    (g.loader = some l →
      (l.issue + cycles < s.now → words ≤ l.done → ∃ u, exec .planeLoadComplete s = .next u ∧ s.sameBytes u ∧
        u.mx r = { g with shadow := { g.shadow with state := if l.bad then .poisoned else .full }, loader := none }) ∧
      (s.now ≤ l.issue + cycles ∨ l.done < words → exec .planeLoadComplete s = .next s) ∧
      (s.now < l.next → s.loaderReads r = s) ∧
      (l.next ≤ s.now → l.done ≤ words → ∃ b, ((s.loaderReads r).mx r).loader =
        some { l with done := min (l.done + 16) words, next := s.now + 1, bad := b }) ∧
      (l.next ≤ s.now → ∀ w, mapGet 0 ((s.loaderReads r).mx r).shadow.words w =
        if l.done ≤ w ∧ w < l.done + 16 ∧ w < words then
          (if (s.mtile r l.q).poisoned.contains (l.base + w) then 0 else (s.mtile r l.q).word (l.base + w))
        else mapGet 0 g.shadow.words w)) ∧
    ((s.cell r k).firing = some f → (∃ m ∈ f.maccs, m.done < s.now) →
      ∃ u c, exec .maccComplete s = .next u ∧ s.sameBytes u ∧ u.cell r k = { s.cell r k with
          cond := c, firing := some { f with maccs := f.maccs.filter fun m => decide (s.now ≤ m.done) } } ∧
        ∀ m ∈ f.maccs, m.done < s.now → ∀ i, m.cond.testBit i = true → (mapGet 0 c f.actor).testBit i = true))

/-- Utility words (R190 to R193) and the ports of a node: ISECT, SACC and SEQT feed an input, or stall; SLOT grants a destination with a
free slot and numbers every choice; SEND feeds input A and RECV takes whole items from Y, or stalls.
Where the manual leaves a point open, this follows the model's choice (log entries 64 and 69). -/
def Obligations.UtilityWords : Prop :=
  ∀ (s : State) (x : OpCtx) (v n port : BitVec 5) (ux inB : BitVec 1) (lvl : BitVec 3) (flg pm : BitVec 4), s.fires x →
    let u := ux.toNat
    let y := (s.fab x.r).ux u
    let word (v L : Nat) : Nat := (lane (x.f.reg x.lanes v) L).toNat
    let token (sel : Nat → Bool) (v j : Nat) : Nat := packElems 32 ((List.range 8).map fun e => if sel (8 * j + e) then word v (8 * j + e) else 0)
    let item : Item := if lvl = 0 then .data ((List.range x.size).map (token (fun _ => true) v.toNat)) 0 else .marker lvl.toNat
    let held (l : List Held) (i : List Item) : List Held := l ++ i.map fun i => ⟨i, s.now + 1⟩
    let feeds (i : Instr) (b : Bool) : Prop :=
      (2 ≤ (if b then y.inB else y.inA).length → exec i s = .next (s.opStall s x 2)) ∧
      ((if b then y.inB else y.inA).length < 2 → ∃ t, exec i s = .next (s.opNext t x x.f 1) ∧ s.sameBytes t ∧
        (t.fab x.r).ux u = if b then { y with inB := held y.inB [item] } else { y with inA := held y.inA [item] })
    feeds (.isect v ux lvl inB) (inB == 1) ∧ feeds (.sacc v ux lvl) false ∧ feeds (.seqt v ux lvl) false ∧
    (port.toNat = 24 + u →
      let cnt := n.toNat + 1
      let send := Instr.send v port n lvl flg pm
      let recv := Instr.recv v port n lvl flg pm
      (2 < y.inA.length + cnt → exec send s = .next (s.opStall s x 2)) ∧
      (y.inA.length + cnt ≤ 2 → ∃ t, exec send s = .next (s.opNext t x x.f 1) ∧ s.sameBytes t ∧
        (t.fab x.r).ux u = { y with inA := held y.inA ((List.range cnt).map fun j =>
          .data ((List.range x.size).map (token (x.selects pm) (v.toNat + j))) 0) }) ∧
      (let z := y.refill x.size s.now
       let whole (h : Held) : Prop := h.ready ≤ s.now ∧ ((∃ l, h.item = .marker l) ∨ ∃ t f, h.item = .data t f ∧ x.size ≤ t.length)
       (z.outY.length < cnt ∨ (∃ h ∈ z.outY.take cnt, ¬ whole h) → ∃ t, exec recv s = .next (s.opStall t x 2) ∧ s.sameBytes t ∧
         (t.fab x.r).ux u = z) ∧
       (cnt ≤ z.outY.length → (∀ h ∈ z.outY.take cnt, whole h) → ∃ t f, exec recv s = .next (s.opNext t x f 1) ∧ s.sameBytes t ∧
         ((t.fab x.r).ux u).outY = z.outY.drop cnt ∧ ((t.fab x.r).ux u).inA = y.inA ∧
         ∀ r, ∀ L < x.lanes, lane (f.reg x.lanes r) L =
           if v.toNat ≤ r ∧ r < v.toNat + cnt ∧ x.selects pm L = true then
             (match (z.outY.getD (r - v.toNat) default).item with
              | .data t _ => BitVec.ofNat 32 (t.getD (L / 8) 0 / 2 ^ (32 * (L % 8)))
              | _ => 0)
           else lane (x.f.reg x.lanes r) L))) ∧
    (let slot := Instr.slot v ux lvl
     let free (y : Util) (d : Nat) : Nat := if d < y.dests then mapGet y.cap y.free d else 0
     let choice := word v.toNat 0
     let first := choice % 8
     let second := choice / 16 % 8
     let r := (s.fab x.r).uxSize u
     let counts (y : Util) (d : Nat) : Nat := free y (d + 3) * 2 ^ 24 + free y (d + 2) * 2 ^ 16 + free y (d + 1) * 2 ^ 8 + free y d
     -- the node `z` after the word; lane 0 of the result names the destination and its slot, lanes 1 and 2 the free counts
     let numbered (z : Util) (lane0 : Nat) : Prop := ∃ t l, exec slot s = .next (s.opNext t x (x.f.setReg v.toNat l) 1) ∧ s.sameBytes t ∧
       (t.fab x.r).ux u = ({ z with seq := (y.seq + 1) % 65536, acct := y.acct.enter 0 s.now } : Util).refill r s.now ∧ l.length = x.lanes ∧
       lane l 0 = BitVec.ofNat 32 (y.seq * 65536 + lane0) ∧ lane l 1 = BitVec.ofNat 32 (counts z 0) ∧
       lane l 2 = BitVec.ofNat 32 (counts z 4) ∧ ∀ L < x.lanes, 3 ≤ L % 8 → lane l L = 0
     let granted (d alt : Nat) : Prop := ∃ g, numbered { y with
         free := g, pend := y.pend ++ [.data ((List.range x.size).map (token (fun _ => true) (v.toNat + 1))) 0],
         grants := y.grants ++ (List.range x.size).map fun j => (d, y.cap - free y d, j) }
         (alt * 2 ^ 14 + d * 2 ^ 8 + (y.cap - free y d)) ∧
       ∀ k < y.dests, mapGet y.cap g k = if k = d then free y d - 1 else free y k
     0 < x.size →
     (2 ≤ y.pend.length → ∃ t, exec slot s = .next (s.opStall t x 2) ∧ s.sameBytes t ∧ (t.fab x.r).ux u = y.refill r s.now) ∧
     (y.pend.length < 2 → lvl ≠ 0 → ∃ t, exec slot s = .next (s.opNext t x x.f 1) ∧ s.sameBytes t ∧
       (t.fab x.r).ux u = ({ y with free := [], seq := 0, pend := y.pend ++ [.marker lvl.toNat], acct := y.acct.enter 0 s.now } : Util).refill r s.now) ∧
     (y.pend.length < 2 → lvl = 0 →
       (0 < free y first → granted first 0) ∧
       (free y first = 0 → choice / 128 % 2 = 0 → 0 < free y second → granted second 1) ∧
       (free y first = 0 → choice / 128 % 2 = 1 ∨ free y second = 0 → numbered y (2 ^ 15))))

/-- Utility nodes (R178, R189, R190, R194, R439, R440, R456): a corner turn completes a block and turns it; an intersect matches the
fibres that have closed on both inputs; an accumulator adds pairs at their coordinates and flushes at a marker; a reorder buffer
holds tagged items and emits them in tag order.
Where the manual leaves a point open, this follows the model's choice (log entries 65, 66 and 144). -/
def Obligations.UtilityNodes : Prop :=
  (∀ (edge b : Nat) (toks : List Nat), b ∈ [8, 16, 32] → edge * b % 256 = 0 → 0 < edge →
    let row := edge / (256 / b)
    let elem (l : List Nat) (i j : Nat) : Nat := l.getD (i * row + j / (256 / b)) 0 / 2 ^ (b * (j % (256 / b))) % 2 ^ b
    (turnBlock edge b toks).length = blockTokens edge b ∧
    ∀ i < edge, ∀ j < edge, elem (turnBlock edge b toks) i j = elem toks j i) ∧
  (∀ (a b : List (Nat × Nat)) (c p q : Nat), b.Pairwise (fun d e => d.1 < e.1) →
    ((c, p, q) ∈ triplesOf a b ↔ (c, p) ∈ a ∧ (c, q) ∈ b)) ∧
  (∀ (s : State),
    let r := s.foc.unit
    let u := s.foc.sub
    let fb := s.fab r
    let y := (fb.ux u).refill (fb.uxSize u) s.now
    let head (l : List Held) (i : Item) : Prop := ∃ h rest, l = h :: rest ∧ h.item = i ∧ h.ready ≤ s.now
    let runs (mode : Nat) : Prop := u < 2 ∧ (fb.ux u).mode = mode ∧ fb.frozen = false
    -- the event leaves the node as `z`, but for its account
    let becomes (i : Instr) (z : Util) : Prop := ∃ t a, exec i s = .next t ∧ s.sameBytes t ∧ (t.fab r).ux u = { z with acct := a }
    let faults (i : Instr) (cause sub : Nat) : Prop := exec i s =
      .next ((s.modFab r fun fb => fb.modUx u fun _ => y).fabricFault r (.ux u) cause (BitVec.ofNat 64 (u * 2 ^ 13 + r * 2 ^ 4 + sub)))
    (runs 1 →
      let i := Instr.cornerTurnBlock
      let edge := 2 ^ (y.turn + 3)
      ∀ tok f b, head y.inA (.data [tok] f) → (y.block ≠ [] ∨ y.blocks.length < 2) →
        let fits := ∃ k, fmtOfCode f = some k ∧ k ≠ .dq4 ∧ fmtBits k = b ∧ edge * b % 256 = 0 ∧ (y.block = [] ∨ f = y.bfmt)
        let full := y.block.length + 1 = blockTokens edge b
        ((¬ ∃ b k, fmtOfCode f = some k ∧ k ≠ .dq4 ∧ fmtBits k = b ∧ edge * b % 256 = 0 ∧ (y.block = [] ∨ f = y.bfmt)) →
          faults i 10 0) ∧
        (fits → y.block.length + 1 < blockTokens edge b →
          becomes i { y with inA := y.inA.drop 1, block := y.block ++ [tok], bfmt := f }) ∧
        (fits → full → becomes i { y with
          inA := y.inA.drop 1, block := [], bfmt := f, aside := [], blocks := y.blocks ++ [blockTokens edge b],
          pend := y.pend ++ (turnBlock edge b (y.block ++ [tok])).map (fun t => .data [t] f) ++ y.aside })) ∧
    (runs 2 → y.pend = [] →
      let i := Instr.intersectMatch
      (∀ toks f, s.foc.arg = 0 → head y.inA (.data toks f) → (∀ j, head y.inB j → j.isSync = false) →
        (∀ l, joinPairs y.openA (toks.flatMap pairsOf) = some l → becomes i { y with inA := y.inA.drop 1, openA := l, fmtA := f }) ∧
        (joinPairs y.openA (toks.flatMap pairsOf) = none → faults i 6 8)) ∧
      (∀ l, s.foc.arg = 0 → head y.inA (.marker l) → y.closedA = [] →
        (y.closedB = [] → becomes i { y with inA := y.inA.drop 1, openA := [], closedA := [(y.openA, l, y.fmtA)] }) ∧
        (∀ b lb fb rest, y.closedB = (b, lb, fb) :: rest → becomes i { y with
          inA := y.inA.drop 1, openA := [], closedA := [], closedB := rest,
          pend := (tripleTokens (triplesOf y.openA b)).map (fun t => .data [t] y.fmtA) ++ [.marker (max l lb)] }))) ∧
    (runs 3 → y.pend = [] →
      let i := Instr.sparseAccAdd
      (∀ toks f, head y.inA (.data toks f) →
        (∀ sums, accPairs y.fmt f y.sums (toks.flatMap pairsOf) = .ok sums → becomes i { y with inA := y.inA.drop 1, sums := sums }) ∧
        (∀ c sub, accPairs y.fmt f y.sums (toks.flatMap pairsOf) = .error (c, sub) → faults i c sub)) ∧
      (∀ l, head y.inA (.marker l) →
        let streamed := ∃ k < 4, fb.router.dest k / 4096 % 16 = 5 ∧ fb.router.dest k / 4 % 2 = u
        (streamed → l < y.flv → becomes i { y with inA := y.inA.drop 1 }) ∧
        (¬ (streamed ∧ l < y.flv) → becomes i { y with
          inA := y.inA.drop 1, sums := [],
          pend := (pairTokens y.fmt y.sums.length y.sums).map (fun t => .data [t] y.fmt) ++ [.marker l] }))) ∧
    (runs 5 →
      let i := Instr.reorderArrival
      ∀ toks f, head y.inA (.data toks f) →
        let t := toks.getD 0 0 % 65536
        let d := (t + 65536 - y.next) % 65536
        (32768 ≤ d ∨ mapFind y.held t ≠ none → faults i 6 7) ∧
        (d < 256 → mapFind y.held t = none → becomes i { y with inA := y.inA.drop 1, held := mapSet y.held t (.data toks f) }) ∧
        (256 ≤ d → d < 32768 → mapFind y.held t = none → ∃ a, exec i s = .next s ∨ becomes i { y with acct := a })) ∧
    (runs 5 → y.pend = [] → ∀ it, mapFind y.held y.next = some it → y.outAt ≤ s.now → portRoom (fb.uxSize u) 2 y.outY it = true →
      ∃ t, exec .reorderEmit s = .next t ∧ s.sameBytes t ∧
        let z := (t.fab r).ux u
        z.next = (y.next + 1) % 65536 ∧ mapFind z.held y.next = none ∧ z.pend = [] ∧
        z.outY = pushItem (fb.uxSize u) s.now y.outY it)) ∧
  (∀ (fmt sideband c v : Nat) (sums : NMap Nat) (rest : List (Nat × Nat)), fmt = 0 ∨ fmt = 9 →
    let w : Option Nat := if fmt = 9 ∨ sideband = 0 then some v
      else if sideband = 1 then some (roundNE .fp32 (decodeFloat .fp16 (v % 65536))).1
      else if sideband = 2 then some (roundNE .fp32 (decodeFloat .bf16 (v % 65536))).1 else none
    (w = none → accPairs fmt sideband sums ((c, v) :: rest) = .error (10, 0)) ∧
    (∀ n, w = some n →
      (∀ h, mapFind sums c = some h → accPairs fmt sideband sums ((c, v) :: rest) = accPairs fmt sideband
        (mapSet sums c (if fmt = 9 then (h + n) % 2 ^ 32 else (roundNE .fp32 (faddExact (decodeFloat .fp32 h) (decodeFloat .fp32 n)).1).1)) rest) ∧
      (mapFind sums c = none → 4096 ≤ sums.length → accPairs fmt sideband sums ((c, v) :: rest) = .error (6, 6)) ∧
      (mapFind sums c = none → sums.length < 4096 →
        accPairs fmt sideband sums ((c, v) :: rest) = accPairs fmt sideband (mapSet sums c n) rest)))

/-! ### Routers -/

/-- Switch words (R33, R34, R172, R173, R175 to R179, R455): what each does with the item at the head of its input. An item passes where
its output takes it; SPLIT copies to every output at its own pace; MERGE passes segments of its inputs in turn; DEAL gives groups to
its outputs in turn; TURN feeds the corner-turn node; BARR joins barriers; HOLD sets a depth; NUL does nothing.
Where the manual leaves a point open, this follows the model's choice (log entries 67 and 68). -/
def Obligations.SwitchWords : Prop :=
  (∀ (s : State) (r o : Nat) (i : Item), s.now < mapGet 0 (s.router r).outAt o → s.offer r o i = none) ∧
  (∀ (s : State) (r o : Nat) (i : Item) (n p lat : Nat),
    let joined := o < 4 ∧ ((neighbour r o = some n ∧ p = (o + 2) % 4 ∧ lat = 0) ∨
      (neighbour r o = none ∧ mapFind (s.router r).circ o = some (n, p, lat)))
    let room := ((s.router n).buf p).length < (s.router n).depth p + lat ∧ mapGet 0 (s.router n).inAt p ≤ s.now
    joined → mapGet 0 (s.router r).outAt o ≤ s.now →
      (¬ room → s.offer r o i = none) ∧
      (room → ∃ u, s.offer r o i = some u ∧ s.sameBytes u ∧ (u.router n).buf p = (s.router n).buf p ++ [⟨i, s.now + 1 + lat⟩] ∧
        mapGet 0 (u.router r).outAt o = s.now + 1)) ∧
  (∀ (s : State) (inp inp2 port : BitVec 3) (ux : BitVec 1) (code : BitVec 4) (out inps depth : BitVec 8) (o : BitVec 3) (i : Item)
      (f : Nat → State) (got : Nat → Bool),
    let r := s.foc.unit
    let k := s.foc.sub
    let t := s.router r
    let p := inp.toNat
    let outs := (List.range 8).filter fun o => out.getLsbD o
    let head := s.routeHead r p = some i
    -- the outputs have the item one after another, but for those that had it before and those that have no room
    let copies (key : Nat) : Prop := f 0 = s ∧ ∀ j < outs.length,
      if (mapGet 0 t.split key).testBit (outs.getD j 0) then f (j + 1) = f j ∧ got j = true
      else match (f j).offer r (outs.getD j 0) i with
        | some u => f (j + 1) = u ∧ got j = true
        | none => f (j + 1) = f j ∧ got j = false
    let passes (w : Instr) (key : Nat) : Prop := head → copies key →
      ((∀ j < outs.length, got j = true) → exec w s =
        .next (((f outs.length).takeAt r p).modRouter r fun t => { t with split := mapDel t.split key })) ∧
      ((∃ j < outs.length, got j = false) → ∃ sent, exec w s =
          .next ((f outs.length).modRouter r fun t => { t with split := mapPut 0 t.split key sent }) ∧
        ∀ j < outs.length, sent.testBit (outs.getD j 0) = got j)
    exec (.nul inp) s = .next s ∧
    (s.routeHead r p = none → exec (.route inp out) s = .next s ∧ exec (.split inp out) s = .next s ∧ exec (.deal inp out) s = .next s) ∧
    passes (.route inp out) k ∧ passes (.split inp out) k ∧
    (let q := inp2.toNat
     let side := mapGet 0 t.merge k
     let turn := if side = 0 then p else q
     let w := Instr.merge inp inp2 o
     (s.routeHead r turn = none → exec w s = .next s) ∧
     (s.routeHead r turn = some i → i.isSync = false →
       (s.offer r o.toNat i = none → exec w s = .next s) ∧
       (∀ u, s.offer r o.toNat i = some u → (∀ l, i ≠ .marker l) → exec w s = .next (u.takeAt r turn)) ∧
       (∀ u l, s.offer r o.toNat i = some u → i = .marker l → 0 < l → exec w s =
         .next ((u.takeAt r turn).modRouter r fun t => { t with merge := mapSet t.merge k (1 - side) }))) ∧
     (∀ a b, s.routeHead r p = some (.barrier a) → s.routeHead r q = some (.barrier b) → ∀ u,
       s.offer r o.toNat (.barrier (joinSrc [a, b])) = some u → exec w s = .next ((u.takeAt r p).takeAt r q)) ∧
     (∀ a, s.routeHead r turn = some (.barrier a) → s.routeHead r (if side = 0 then q else p) = none → exec w s = .next s)) ∧
    (let n := (mapGet (0, 0) t.deal k).1
     let cnt := (mapGet (0, 0) t.deal k).2
     let group := (s.dealGroup r outs).1
     let one := (s.dealGroup r outs).2
     let w := Instr.deal inp out
     head →
       (i.isSync = true → 0 < cnt → exec w s = .next s) ∧
       (i.isSync = true → cnt = 0 → passes w k) ∧
       (i.isSync = false → s.offer r (outs.getD n 0) i = none → exec w s = .next s) ∧
       (∀ u, i.isSync = false → s.offer r (outs.getD n 0) i = some u →
         -- a marker counts as a whole item
         let c := if 0 < i.tag then (cnt + one - 1) / one * one + one else cnt + 1
         exec w s = .next ((u.takeAt r p).modRouter r fun t => { t with
           deal := mapSet t.deal k (if group ≤ c then ((n + 1) % outs.length, 0) else (n, c)) }))) ∧
    (let w := Instr.turn inp code ux o
     s.emitUtil r ux.toNat = none →
       (s.routeHead r p = none → exec w s = .next s) ∧
       (head → 2 ≤ ((s.fab r).ux ux.toNat).inA.length → exec w s = .next s) ∧
       (∀ u, head → s.acceptUtil r ux.toNat 0 i = some u → exec w s = .next (u.takeAt r p))) ∧
    (∀ u v, s.emitUtil r ux.toNat = some (i, u) → u.offer r o.toNat i = some v →
      v.routeHead r p = none → exec (.turn inp code ux o) s = .next v) ∧
    (let ps := (List.range 8).filter fun p => inps.getLsbD p
     let w := Instr.barr o inps
     -- what each joined input has delivered, or delivers now
     ∀ g : Nat → List (Nat × Nat × Nat), (∀ p ∈ ps, mapFind t.barr (8 * k + p) = some (g p)) → ps ≠ [] →
       (s.hasConsumer r o.toNat = true → s.offer r o.toNat (.barrier (joinSrc (ps.map g))) = none → exec w s = .next s) ∧
       (∀ u, (s.hasConsumer r o.toNat = true ∧ s.offer r o.toNat (.barrier (joinSrc (ps.map g))) = some u) ∨
           (s.hasConsumer r o.toNat = false ∧ u = s) →
         exec w s = .next ((u.modRouter r fun t => { t with barr := t.barr.filter fun e => decide (e.1 / 8 ≠ k) }).touch r))) ∧
    exec (.hold port depth) s = .next (s.modRouter r fun t => { t with depths := mapSet t.depths port.toNat depth.toNat })) ∧
  (∀ (s : State) (k p q : Nat) (src : List (Nat × Nat × Nat)) (o : BitVec 3) (inps : BitVec 8),
    let r := s.foc.unit
    k = s.foc.sub → inps = 2 ^ p → p < 8 → q = 8 * k + p → mapFind (s.router r).barr q = none →
    s.headAt r p = some (.barrier src) → s.hasConsumer r o.toNat = false →
    -- a barrier that nothing consumes ends at the word
    ∃ u, exec (.barr o inps) s = .next u ∧ s.sameBytes u ∧ (u.router r).buf p = ((s.router r).buf p).drop 1 ∧
      mapFind (u.router r).barr q = none) ∧
  -- what leaves by a local port has a consumer where a destination is bound, by a neighbour port where a word of kinds 1 to 5 takes it
  (∀ (s : State) (r o n : Nat), (o < 4 → neighbour r o = some n → (∀ g, s.regionOf r = some g → g.lead ≤ n ∧ n < g.lead + 2 ^ g.lgn) →
      (s.hasConsumer r o = true ↔ ∃ w ∈ (s.router n).words, 1 ≤ swKind w ∧ swKind w ≤ 5 ∧
        ((o + 2) % 4 = w.toNat / 2 ^ 8 % 16 ∨ swKind w = 3 ∧ (o + 2) % 4 = w.toNat / 2 ^ 4 % 8))) ∧
    (4 ≤ o → (s.hasConsumer r o = true ↔ (s.router r).dest (o - 4) / 2 ^ 12 % 16 ≠ 0)))

/-! ### Scan engines -/

/-- SCAN words of the control core, SCNP and the port sc (R195, R243 to R250): the checks of each in their order with their subcodes,
and its effect on the engine.
Where the manual leaves a point open, this follows the model's choice (log entries 53, 54 and 131). -/
def Obligations.ScanWords : Prop :=
  (∀ (s : State) (gd ga gb : BitVec 5),
    let r := s.foc.unit
    let p := s.val ga
    let v := p.toNat
    let g := s.scan r
    let field (lo n : Nat) : Nat := v / 2 ^ lo % 2 ^ n
    let idle := (∀ i ∈ g.inq, ∃ id p l b, i = .carry id p l b) ∧ g.runs = [] ∧ g.hold = [] ∧ g.closes = [] ∧ g.closed = [] ∧ g.count = 0
    let off := (s.fab r).compacts = true ∨ g.opw = none
    let becomes (u : State) (h : Scan) : Prop := s.sameBytes u ∧ u.scan r = h
    (s.memReady [ga] [] →
      let i := Instr.scop ga
      let legal := field 53 11 = 0 ∧ field 14 18 = 0 ∧ field 3 1 = 0 ∧ field 0 3 ≠ 7 ∧ (field 4 4 = 0 ∨ (field 4 4 = 9 ∧ field 0 3 < 4)) ∧
        (field 11 1 = 0 → field 12 2 = 0) ∧ (field 11 1 = 1 → field 13 1 = 1 ∨ s.topRank r = false)
      ((s.fab r).compacts = true → exec i s = .next (s.trapped s 18 (ptrSub p 0))) ∧
      ((s.fab r).compacts = false → ¬ legal → exec i s = .next (s.trapped s 18 (ptrSub p 5))) ∧
      ((s.fab r).compacts = false → legal → ¬ idle → exec i s = .next (s.trapped s 18 (ptrSub p 1))) ∧
      ((s.fab r).compacts = false → legal → idle → g.chainIn = [] → ∃ u, exec i s = .next (s.retired u 1) ∧ u.self = s.self ∧
        becomes u { g with inq := [], opw := some p, ogen := 0, carry := none, fell := false, last := none, stopped := false })) ∧
    (s.memReady [ga, gb] [gd] →
      let i := Instr.scgo gd ga gb
      let n := (s.val gb).toNat
      let m := s.mtile r (v % 2 ^ 48 / 2 ^ 20)
      let ws := wordsOf (v % 2 ^ 20) (4 * g.width * n)
      (off → exec i s = .next (s.trapped s 18 (ptrSub p 0))) ∧
      (¬ off → ∀ c, ptrFault [1] s.self.level 4 p = some c → exec i s = .next (s.trapped s c p)) ∧
      (¬ off → ptrFault [1] s.self.level 4 p = none →
        (n = 0 ∨ 65536 < n → exec i s = .next (s.trapped s 18 (ptrSub p 5))) ∧
        (0 < n → n ≤ 65536 →
          (∀ sub, m.plainRegion ws = .error sub → exec i s = .next (s.trapped s 6 (ptrSub p sub))) ∧
          (∀ reg, m.plainRegion ws = .ok reg →
            (16 ≤ s.self.ocTl → exec i s = .next (s.stalls s 5)) ∧
            (s.self.ocTl < 16 → ∃ u x, exec i s = .next (s.retired (u.puts gd (BitVec.ofNat 64 g.ogen)) 1) ∧
              u.self = { s.self with ocTl := s.self.ocTl + 1 } ∧ becomes u { g with runs := g.runs ++ [x], inq := g.inq ++ [.run x.id] } ∧
              x.id = s.nextId ∧ x.q = v % 2 ^ 48 / 2 ^ 20 ∧ x.byte = v % 2 ^ 20 ∧ x.count = n ∧ x.read = 0 ∧ x.wrote = 0 ∧ x.words = [] ∧
              x.task = none ∧ x.accs = s.releases r))))) ∧
    (s.memReady [ga] [] →
      let i := Instr.sccin ga
      let fixed := (g.ch = true ∧ g.hd = false) ∨ g.opens = false
      let clear := g.inq = [] ∧ s.releases r = [] ∧ ∀ i ∈ g.join, s.joinActive r [i] = false
      (g.inq = [] → (g.opens = true ↔ g.count = 0 ∨ ∃ k, 0 < k ∧ k ≤ g.closes.length ∧ (g.closes.take k).sum = g.count)) ∧
      (off → exec i s = .next (s.trapped s 18 (ptrSub p 0))) ∧
      (¬ off → ∀ c, ptrFault [1, 4] s.self.level 32 p = some c → exec i s = .next (s.trapped s c p)) ∧
      (¬ off → ∀ x, s.privPtr p 32 x → s.privGood x 32 →
        (fixed → exec i s = .next (s.trapped s 18 (ptrSub p 3))) ∧
        (¬ fixed → clear → ∃ u, exec i s = .next (s.retired u 1) ∧ becomes u { g with
          carry := if s.privVal (x + 24) 4 / 256 % 2 = 1 then some ((List.range g.width).map fun j => s.privVal (x + 4 * j) 4) else none }) ∧
        -- behind what stands at the input, or behind stores that have not performed, it waits there
        (¬ fixed → ¬ clear → ∃ u b, exec i s = .next (s.retired u 1) ∧
          becomes u { g with inq := g.inq ++ [.carry s.nextId p (s.releases r) b] })) ∧
      (¬ off → ∀ x, s.privPtr p 32 x → ¬ s.privGood x 32 → exec i s = .next (s.trapped s 13 p))) ∧
    (s.memReady [] [gd] →
      let i := Instr.sccout gd
      let cout := (g.opw.getD 0).toNat / 2 ^ 32 % 2 ^ 21
      let m := s.mtile r (cout / 2 ^ 20)
      (off → exec i s = .next (s.trapped s 18 0)) ∧
      (¬ off → g.closes ≠ [] ∨ g.closed ≠ [] → exec i s = .next (s.stalls s 3)) ∧
      (¬ off → g.closes = [] → g.closed = [] →
        (∀ sub, m.plainRegion (wordsOf (cout % 2 ^ 20) 32) = .error sub → exec i s = .next (s.trapped s 6 (BitVec.ofNat 64 sub))) ∧
        (∀ reg, m.plainRegion (wordsOf (cout % 2 ^ 20) 32) = .ok reg →
          let gen := (g.last.getD (0, none)).1
          let val := (g.last.getD (0, none)).2
          ∃ u, exec i s = .next (s.retired (u.puts gd (BitVec.ofNat 64 (if g.last = none then 0 else 2 ^ 63 + gen))) 1) ∧
            s.storesAt u (.mtile r (cout / 2 ^ 20) (cout % 2 ^ 20)) 32 (packElems 32 (val.getD []) +
              (gen + if val = none then 0 else 256) * 2 ^ 192)))) ∧
    (s.memReady [ga] [] →
      let i := Instr.scbar ga
      (off → exec i s = .next (s.trapped s 18 (ptrSub p 0))) ∧
      (¬ off → 2 ^ 32 ≤ v → exec i s = .next (s.trapped s 18 (ptrSub p 5))) ∧
      (¬ off → v < 2 ^ 32 → 4 ≤ g.closes.length → exec i s = .next (s.stalls s 5)) ∧
      (¬ off → v < 2 ^ 32 → g.closes.length < 4 → g.closes.sum + v < g.takenIn → exec i s = .next (s.trapped s 18 (ptrSub p 2))) ∧
      (¬ off → v < 2 ^ 32 → g.closes.length < 4 → g.takenIn ≤ g.closes.sum + v → g.hold = [] →
        (g.closes ++ [v]).head? ≠ some g.count →
        ∃ u, exec i s = .next (s.retired u 1) ∧ u.self = s.self ∧ becomes u { g with closes := g.closes ++ [v] }) ∧
      -- a count that the open generation has already taken in closes it at once: outside the chain its carry is the carry-out
      (¬ off → v = g.count → v < 2 ^ 32 → g.closes = [] → g.takenIn ≤ v → 0 < v → g.hold = [] → g.ch = false →
        ∃ u, exec i s = .next (s.retired u 1) ∧ u.self = s.self ∧ becomes u { g with
          ogen := (g.ogen + 1) % 256, count := 0, carry := none, fell := false, last := some (g.ogen, g.carry) }))) ∧
  (∀ (s : State) (x : OpCtx) (v n : BitVec 5) (lvl : BitVec 3) (flg pm : BitVec 4) (mask : BitVec 2), s.fires x →
    let g := s.scan x.r
    let w (v L : Nat) : Nat := (lane (x.f.reg x.lanes v) L).toNat
    let send := Instr.send v 23 n lvl flg pm
    let recv := Instr.recv v 23 n lvl flg pm
    let scnp := Instr.scnp v lvl mask
    let stands := g.opw ≠ none ∧ g.inq = [] ∧ g.stopped = false
    -- a block needs room for its results: in the hold buffer of an engine that waits for carries, else the last block has left
    let full := ¬ stands ∨ (flg.getLsbD 0 = false ∧ ¬ if g.ch = true ∧ g.hd = false
      then (g.hold.map fun o => o.vals.length).sum + x.lanes ≤ 4096 else g.hold = [])
    let becomes (i : Instr) (h : Scan) : Prop := ∃ u, exec i s = .next (s.opNext u x x.f 1) ∧ s.sameBytes u ∧ u.scan x.r = h
    (full → exec send s = .next (s.opStall s x 2)) ∧
    (¬ full → flg.getLsbD 0 = true → becomes send { g with inq := g.inq ++ [.marker lvl.toNat] }) ∧
    (¬ full → flg.getLsbD 0 = false → n.toNat + 1 ≠ g.width → exec send s = .next (s.opFault s x 10 6 0)) ∧
    (¬ full → flg.getLsbD 0 = false → n.toNat + 1 = g.width →
      let b : ScanIn := .block x.size ((List.range x.lanes).map fun L => (List.range g.width).map fun j =>
        if x.selects pm L = true then w (v.toNat + j) L else 0)
      becomes send { g with inq := g.inq ++ (if lvl = 0 then [b] else [b, .marker lvl.toNat]) }) ∧
    (g.outq = [] ∨ (∃ h rest, g.outq = h :: rest ∧ s.now < h.ready) → exec recv s = .next (s.opStall s x 2)) ∧
    (∀ blk : Nat → Held, (∀ j < g.width, g.outq[j]? = some (blk j) ∧ (blk j).ready ≤ s.now ∧ ∃ t, ∃ f, (blk j).item = .data [t] f) →
      0 < g.width → v.toNat + g.width ≤ 32 → x.size = 1 → g.hold = [] →
      ∃ u f, exec recv s = .next (s.opNext u x f 1) ∧ s.sameBytes u ∧ u.scan x.r = { g with outq := g.outq.drop g.width, leftAt := s.now + 1 } ∧
        mapGet 0 f.lastTag 23 = 0 ∧
        ∀ r, ∀ L < x.lanes, lane (f.reg x.lanes r) L =
          if v.toNat ≤ r ∧ r < v.toNat + g.width ∧ x.selects pm L = true then
            BitVec.ofNat 32 ((blk (r - v.toNat)).item.toks.getD 0 0 / 2 ^ (32 * L))
          else lane (x.f.reg x.lanes r) L) ∧
    (∀ h rest l, g.outq = h :: rest → h.item = .marker l → h.ready ≤ s.now → v.toNat < 32 → g.hold = [] →
      ∃ u f, exec recv s = .next (s.opNext u x f 1) ∧ s.sameBytes u ∧ u.scan x.r = { g with outq := rest, leftAt := s.now + 1 } ∧
        mapGet 0 f.lastTag 23 = l ∧ ∀ r, ∀ L < x.lanes, lane (f.reg x.lanes r) L =
          if r = v.toNat ∧ x.selects pm L = true then 0 else lane (x.f.reg x.lanes r) L) ∧
    (let taken := ((List.range x.lanes).filter fun L => (x.f.mask x.lanes mask.toNat).getD L false).map (lane (x.reg v))
     let buf := g.compact ++ taken
     let all := if lvl = 0 then buf else buf ++ List.replicate ((8 - buf.length % 8) % 8) 0
     let toks := (List.range (all.length / 8)).map fun k =>
       Item.data [packElems 32 (((all.drop (8 * k)).take 8).map BitVec.toNat)] 0
     let out := toks ++ if lvl = 0 then [] else [.marker lvl.toNat]
     let room := outTokens g.outq + toks.length ≤ 96 ∧ outMarkers g.outq + (if lvl = 0 then 0 else 1) ≤ 2
     (¬ room → exec scnp s = .next (s.opStall s x 2)) ∧
     (room → ∃ u, exec scnp s = .next (s.opNext u x x.f 1) ∧ s.sameBytes u ∧
       (u.scan x.r).outq = g.outq ++ out.map (fun i => ⟨i, s.now + 1⟩) ∧ (u.scan x.r).compact = all.drop (8 * (all.length / 8)) ∧
       (u.scan x.r).hold = g.hold ∧ (u.scan x.r).inq = g.inq)))

/-- Scan engines at work (R235 to R242, R246): the prefixes of a block under an associative operator are those of the sequence; a block
is combined with the running carry, its results leaving at once or waiting for a carry; a marker at the segment's level resets the
carry; memory mode reads and writes up to eight words in an access; a carry meets the results of its generation; a SCCIN that
waits at the input takes effect behind what stood before it.
Where the manual leaves a point open, this follows the model's choice (log entries 70, 131 and 143). -/
def Obligations.ScanBlocks : Prop :=
  (∀ (f n : Nat) (carry : Nat) (v : Nat → Nat), f ∈ [1, 2, 4, 8, 16] → n ≤ 8 * f →
    let xs := (List.range (8 * f)).map fun p => if p < n then some [v p] else none
    let out (op : Nat) := (scanBlock op 9 f (some [carry]) xs).1
    let num (v : Nat) : Int := signed 32 v
    ∀ p < n,
      (out 0).getD p none = some [(carry + ((List.range (p + 1)).map v).sum) % 2 ^ 32] ∧
      (out 1).getD p none = some [(List.range (p + 1)).foldl (fun acc i => acc * v i % 2 ^ 32) (carry % 2 ^ 32)] ∧
      (∃ m, (out 2).getD p none = some [m] ∧ (m = carry ∨ ∃ i ≤ p, m = v i) ∧ num carry ≤ num m ∧ ∀ i ≤ p, num (v i) ≤ num m) ∧
      (∃ m, (out 3).getD p none = some [m] ∧ (m = carry ∨ ∃ i ≤ p, m = v i) ∧ num m ≤ num carry ∧ ∀ i ≤ p, num m ≤ num (v i))) ∧
  (∀ (x y : List Nat), x.length = 2 → y.length = 2 →
    -- an affine step composes: (p, q) after (a, b) is (a c, b c + d)
    (scanCombine 4 0 x y).1 = [(roundNE .fp32 (fmulExact (decodeFloat .fp32 (x.getD 0 0)) (decodeFloat .fp32 (y.getD 0 0))).1).1,
      (fma32 (x.getD 1 0) (y.getD 0 0) (y.getD 1 0)).1]) ∧
  -- an operand that is a NaN makes a sum of products the canonical NaN with no condition
  (∀ (ps : List (Nat × Nat)) (adds : List Nat), (∃ v, (v ∈ adds ∨ ∃ w, (v, w) ∈ ps ∨ (w, v) ∈ ps) ∧ decodeFloat .fp32 v = .nan) →
    sumOfProducts ps adds = (canonNaN .fp32, noConds)) ∧
  -- a SCCIN that waited takes effect once it stands first and the stores before it have performed
  (∀ (s s1 : State) (id v : Nat) (p : DWord) (accs before : List Nat) (rest : List ScanIn),
    let r := s.foc.unit
    let g := s.scan r
    (s.fab r).compacts = false → (s.fab r).frozen = false → g.inq = .carry id p accs before :: rest → s.performed accs = true →
    s.joinActive r before = false → s.carryRecord r p = .ok (s1, v) →
    ∃ u, exec .scanBlockCombine s = .next u ∧ s1.sameBytes u ∧ u.scan r = { s1.scan r with
      inq := rest, carry := if v / 2 ^ 200 % 2 = 1 then some ((List.range (s1.scan r).width).map fun j => v / 2 ^ (32 * j) % 2 ^ 32) else none }) ∧
  (∀ (s : State) (f l : Nat) (elems : List (List Nat)) (rest : List ScanIn),
    let r := s.foc.unit
    let g := s.scan r
    let xs := (List.range (8 * f)).map fun p => elems[p]?
    let b := scanBlock g.op g.fmt f g.carry xs
    let stands := (s.fab r).compacts = false ∧ (s.fab r).frozen = false ∧ g.opw ≠ none ∧ g.stopped = false
    stands → g.hold = [] → g.closes = [] → elems.length = 8 * f → 0 < f →
    (g.inq = .block f elems :: rest → elems.length ≤ 4096 → ∃ u, exec .scanBlockCombine s = .next u ∧ s.sameBytes u ∧
      let h := u.scan r
      h.inq = rest ∧ h.count = g.count + elems.length ∧ h.carry = b.2.1 ∧ h.ogen = g.ogen ∧
      -- a chain engine behind the head keeps its results for a carry
      ((g.ch = true ∧ g.hd = false) → g.fell = false →
        h.hold = [⟨f, 0, (List.range (8 * f)).map fun p => ⟨g.ogen, (b.1.getD p none).getD [], true, true⟩, none⟩] ∧ h.outq = g.outq) ∧
      (¬ (g.ch = true ∧ g.hd = false) → outTokens g.outq + g.width * f ≤ 96 → outMarkers g.outq ≤ 2 → h.hold = [] ∧
        h.outq.map Held.item = g.outq.map Held.item ++ (List.range g.width).map fun j => .data ((List.range f).map fun m =>
          packElems 32 ((List.range 8).map fun e => ((b.1.getD (8 * m + e) none).getD []).getD j 0)) (if g.fmt = 9 then 9 else 0))) ∧
    (g.inq = .marker l :: rest → 0 < l → outMarkers g.outq < 2 → ∃ u, exec .scanBlockCombine s = .next u ∧ s.sameBytes u ∧
      let h := u.scan r
      h.inq = rest ∧ h.outq = g.outq ++ (if outTokens g.outq ≤ 96 then [⟨.marker l, s.now + 1⟩] else []) ∧
      h.carry = if g.seg ≠ 0 ∧ g.seg ≤ l then none else g.carry)) ∧
  (∀ (s : State) (x : ScanRun) (rest : List ScanIn),
    let r := s.foc.unit
    let g := s.scan r
    let w := g.width
    let n := min 8 (w * x.count - x.read)
    let at_ := x.byte + 4 * x.read
    (s.fab r).frozen = false → g.stopped = false → g.inq = .run x.id :: rest → g.run? x.id = some x → 0 < n →
    x.words.length < 128 * w → s.performed x.accs = true → s.joinActive r x.before = false → g.hold = [] → g.portAt ≤ s.now →
    (∀ k ∈ wordsOf at_ (4 * n), (s.mtile r x.q).poisoned.contains k = false) →
    ∃ u y, exec .scanMemoryTransfer s = .next u ∧ s.sameBytes u ∧ (u.scan r).run? x.id = some y ∧
      y = { x with read := x.read + n, words := y.words } ∧ y.words.length = x.words.length + n ∧
      (∀ j < x.words.length, y.words.getD j 0 = x.words.getD j 0) ∧
      ∀ j < n, y.words.getD (x.words.length + j) 0 = readVal (s.mtile r x.q).mem (at_ + 4 * j) 4) ∧
  (∀ (s : State) (x : ScanRun) (f m first : Nat) (vals : List ScanVal) (rest : List ScanOut),
    let r := s.foc.unit
    let g := s.scan r
    let flat := vals.flatMap ScanVal.val
    let part := (flat.drop (x.wrote - g.width * first)).take 8
    (s.fab r).frozen = false → g.hold = ⟨f, m, vals, some (x.id, first)⟩ :: rest → (∀ v ∈ vals, v.waits = false) →
    g.run? x.id = some x → part ≠ [] → x.task = none → g.portAt ≤ s.now →
    ∃ u, exec .scanMemoryTransfer s = .next u ∧
      s.storesAt u (.mtile r x.q (x.byte + 4 * x.wrote)) (4 * part.length) (packElems 32 part) ∧
      (x.wrote + part.length < g.width * x.count → (u.core r).ocTl = (s.core r).ocTl) ∧
      (g.width * x.count ≤ x.wrote + part.length → (u.core r).ocTl = (s.core r).ocTl - 1)) ∧
  (∀ (s : State) (c : Carry) (rest : List Carry),
    let r := s.foc.unit
    let g := s.scan r
    0 < r → (s.scan (r - 1)).link = c :: rest → c.at_ ≤ s.now → g.ch = true → g.chainIn.length < 4 →
    (g.hd = false → c.gen = g.expects → c.op = (g.opw.getD 0).toNat % 256 → ∃ u, exec .carryArrival s = .next u ∧ s.sameBytes u ∧
      (u.scan (r - 1)).link = rest ∧ u.scan r = { g with chainIn := g.chainIn ++ [c] }) ∧
    (g.hd = true ∨ c.gen ≠ g.expects ∨ c.op ≠ (g.opw.getD 0).toNat % 256 → s.self.events.length < 16 →
      ∃ u, exec .carryArrival s = .next u ∧ s.sameBytes u ∧ (u.scan (r - 1)).link = rest ∧ u.scan r = { g with stopped := true } ∧
        u.self = { s.self with events := s.self.events ++ [⟨18, BitVec.ofNat 64 (c.gen * 256 + 4), 3, false⟩] })) ∧
  (∀ (s : State) (d : Closed) (ds : List Closed) (c : Carry) (cs : List Carry),
    let r := s.foc.unit
    let g := s.scan r
    (s.fab r).frozen = false → g.closed = d :: ds → g.chainIn = c :: cs → c.gen = d.gen → g.hold = [] →
    ∃ u, exec .carryApply s = .next u ∧ s.sameBytes u ∧
      let h := u.scan r
      let out := if d.reset then d.carry else (scanOp g.op g.fmt c.value d.carry noConds).1
      h.closed = ds ∧ h.chainIn = cs ∧ h.last = some (d.gen, out) ∧
      h.link = if g.tl then g.link else g.link ++ [⟨d.gen, (g.opw.getD 0).toNat % 256, out, s.now + 4⟩])

/-! ### Copies -/

/-- CPY, CPY2D, CPYG, CPYZ, CPQ, PCHK and QFENCE (R278, R309, R312 to R316, R320, R392): the checks of a copy in their order; a full queue
or oc.cp stalls; the command enters its queue and gd receives its ticket. CPQ and PCHK read a ticket; QFENCE makes later commands of
the queues it names wait.
Where the manual leaves a point open, this follows the model's choice (log entries 101 and 139). -/
def Obligations.CopyWords : Prop :=
  (∀ (s : State) (gd ga gb : BitVec 5),
    let r := s.foc.unit
    let e := r / 4
    let ctl := s.val gd
    let arg := ctl.toNat % 2 ^ 48
    let q := ctl.toNat / 2 ^ 56 % 16
    let a := s.val ga
    let b := s.val gb
    let k := s.cqueue e q
    let word (n : Nat) : Nat := s.privVal (arg + 8 * n) 8
    let signed (n : Nat) : Int := (BitVec.ofNat 64 (word n)).toInt
    -- what is wrong with the arg field: a length, or the shape block of `n` bytes that it names
    let len : Option (Nat × DWord) := if 4 ≤ arg ∧ arg ≤ 2 ^ 32 ∧ arg % 4 = 0 then none else some (2, ctl)
    let block (n : Nat) (ok : Bool) : Option (Nat × DWord) :=
      if arg < (s.self.trap s.self.level).pbound.toNat then some (1, ctl) else if 2 ^ 18 < arg + n then some (2, ctl)
      else if (List.range n).any (fun i => s.self.poisoned.contains ((arg + i) / 4)) then some (13, ctl)
      else if ok = false then some (6, ptrSub ctl 12) else if arg % 8 ≠ 0 then some (2, ctl) else none
    let rule (i : Instr) (arg : Option (Nat × DWord)) (shape : CopyShape) : Prop :=
      let bad := ctl.getLsbD 63 = true ∨ ctl.getLsbD 60 = true ∨ ctl.toNat / 2 ^ 48 % 256 ≠ 0 ∨ s.queueGranted r q = false
      let side (p : DWord) : Option Nat := ptrFault [0, 1, 3, 6, 7] s.self.level 4 p
      let fits := ¬ bad ∧ arg = none
      let full := 32 ≤ (k.cmds.filter fun c => c.done.isNone).length ∨ 16 ≤ s.self.ocCp
      let object (p : DWord) : Prop := ptrFault [5] s.self.level 16 p = none ∧
        ∃ g, (s.mtile (objPlace p).1 (objPlace p).2.1).plainRegion (wordsOf (objPlace p).2.2 16) = .ok g
      -- the pointers pass R64, the extents in the core's own tile R148, no byte is read and written, the barrier objects are objects
      let clear := (∀ p, shape.src = some p → side p = none) ∧ side shape.dst = none ∧
        (∀ p d x n b, shape = .gather p d x n b → ptrFault [0, 1, 4] s.self.level 4 x = none ∧
          (ptrSpace x = 4 → (s.self.trap s.self.level).pbound.toNat ≤ ptrOff x)) ∧
        (∀ x ∈ shape.extents, ptrSpace x.1 = 1 → (s.mtile r (tilePart x.1).1).extentSub (tilePart x.1).2 x.2 = none) ∧
        (∀ x ∈ shape.srcRanges, ∀ y ∈ shape.dstRanges, rangesMeet x y = false) ∧
        (ctl.getLsbD 61 = true → object s.self.cpbin) ∧ (ctl.getLsbD 62 = true → object s.self.cpbout)
      (bad → exec i s = .next (s.trapped s 6 (ptrSub ctl 12))) ∧
      (¬ bad → ∀ c v, arg = some (c, v) → exec i s = .next (s.trapped s c v)) ∧
      (fits → ∀ p c, shape.src = some p → side p = some c → exec i s = .next (s.trapped s c p)) ∧
      (fits → (∀ p, shape.src = some p → side p = none) → ∀ c, side shape.dst = some c → exec i s = .next (s.trapped s c shape.dst)) ∧
      (fits → ¬ clear → ∃ c v, s.copyFault r ctl arg shape = some (c, v) ∧ exec i s = .next (s.trapped s c v)) ∧
      (fits → clear →
        (full → exec i s = .next (s.stalls s 5)) ∧
        (¬ full → ∃ u c, exec i s = .next (s.retired (u.puts gd (BitVec.ofNat 64 (e * 2 ^ 20 + q * 2 ^ 16 + k.seq))) 1) ∧
          s.sameBytes u ∧ u.accs = s.accs ∧ u.self = { s.self with ocCp := s.self.ocCp + 1 } ∧
          (u.cqueue e q).seq = (k.seq + 1) % 65536 ∧
          (k.cmds.length < 256 → (∀ d ∈ k.cmds, d.seq ≠ k.seq) → (u.cqueue e q).cmds = k.cmds ++ [c]) ∧
          (∀ j, j ≠ q → u.cqueue e j = s.cqueue e j) ∧
          c.seq = k.seq ∧ c.core = r ∧ c.sched = false ∧ c.shape = shape ∧ c.asid = s.engineAsid r ∧ c.part = s.owner r ∧
          c.level = s.self.level ∧ c.before = s.releases r ∧ c.next = 0 ∧ c.pieces = [] ∧ c.fault = none ∧ c.done = none ∧ c.missed = false ∧
          c.bin = (if ctl.getLsbD 61 = true then some s.self.cpbin else none) ∧
          c.bout = (if ctl.getLsbD 62 = true then some s.self.cpbout else none)))
    (s.memReady [gd, ga, gb] [gd] →
      rule (.cpy gd ga gb) len (.flat a b arg) ∧
      (let rowb := word 0 % 2 ^ 32
       let rows := word 0 / 2 ^ 32
       rule (.cpy2d gd ga gb)
        (block 24 (decide (4 ≤ rowb ∧ rowb ≤ 65536 ∧ rowb % 4 = 0 ∧ 1 ≤ rows ∧ rows ≤ 65536 ∧ signed 1 % 4 = 0 ∧ signed 2 % 4 = 0)))
        (.rows a b rowb rows (signed 1) (signed 2))) ∧
      (let count := word 1 % 2 ^ 32
       let size := word 1 / 2 ^ 32 % 2 ^ 16
       rule (.cpyg gd ga gb)
        (block 16 (decide (1 ≤ count ∧ count ≤ 65536 ∧ 4 ≤ size ∧ size ≤ 4096 ∧ size % 4 = 0 ∧ word 1 / 2 ^ 48 = 0)))
        (.gather a b (BitVec.ofNat 64 (word 0)) count size))) ∧
    (s.memReady [gd, ga] [gd] → rule (.cpyz gd ga) len (.zero a arg))) ∧
  (∀ (s : State) (gd ga : BitVec 5) (c : Cmd),
    let r := s.foc.unit
    let t := (s.val ga).toNat
    let e := t / 2 ^ 20 % 128
    let q := t / 2 ^ 16 % 16
    let names (c : Cmd) : Prop := t < 2 ^ 27 ∧ s.cmd? e q (t % 65536) = some c ∧ c.core = r ∧ c.sched = false
    let gives (i : Instr) (v : Nat) : Prop := exec i s = .next (s.retired (s.puts gd (BitVec.ofNat 64 v)) 1)
    (s.wordReady [ga] [gd] →
      ((∀ c, ¬ names c) → gives (.cpq gd ga) (2 ^ 64 - 1) ∧ gives (.pchk gd ga) 3) ∧
      (names c →
        (∀ k n, c.fault = some (k, n) → c.done ≠ none → gives (.cpq gd ga) (2 ^ 63 + n)) ∧
        (∀ n, c.fault = none → c.done = some n → gives (.cpq gd ga) n) ∧
        (c.done = none → c.missed = false → gives (.cpq gd ga) c.promise) ∧
        (c.done = none → c.missed = true → ∃ u d, s.sameBytes u ∧ u.self = s.self ∧
          exec (.cpq gd ga) s = .next (s.retired (u.puts gd (BitVec.ofNat 64 d.promise)) 1) ∧
          u.cmd? e q (t % 65536) = some d ∧ d = { c with promise := s.promiseAfter e c s.now c.remaining, missed := false }) ∧
        (c.done ≠ none → gives (.pchk gd ga) 0) ∧
        (c.done = none → gives (.pchk gd ga) (if c.promise < s.now then 2 else 1))))) ∧
  (∀ (s : State) (ga : BitVec 5), s.memReady [ga] [] →
    let r := s.foc.unit
    let v := s.val ga
    let kind := v.toNat / 2 ^ 60
    let mask := v.toNat % 65536
    let e := r / 4
    let named (k : Nat) : Prop := v.getLsbD k = true
    let bad := 1 < kind ∨ v.toNat / 65536 % 2 ^ 44 ≠ 0 ∨ (kind = 1 ∧ 64 ≤ mask) ∨ (kind = 0 ∧ ∃ q < 16, named q ∧ s.queueGranted r q = false)
    (bad → exec (.qfence ga) s = .next (s.trapped s 6 (ptrSub v 17))) ∧
    (¬ bad → mask = 0 → exec (.qfence ga) s = .next (s.retired s 1)) ∧
    (¬ bad → mask ≠ 0 → kind = 0 → ∃ u, exec (.qfence ga) s = .next (s.retired u 1) ∧ s.sameBytes u ∧ u.self = s.self ∧
      ∀ q < 16, (¬ named q → u.cqueue e q = s.cqueue e q) ∧
        (named q → u.cqueue e q = { s.cqueue e q with join := (u.cqueue e q).join } ∧ ∀ x, x ∈ (u.cqueue e q).join ↔
          (x ∈ (s.cqueue e q).join ∧ ∃ c, s.cmd? e x.2.1 x.2.2 = some c ∧ c.done = none) ∨
          ∃ p < 16, named p ∧ ∃ c ∈ (s.cqueue e p).cmds, c.core = r ∧ c.done = none ∧ x = (0, p, c.seq))) ∧
    (¬ bad → mask ≠ 0 → kind = 1 → ∃ u, exec (.qfence ga) s = .next (s.retired u 1) ∧ s.sameBytes u ∧ u.self = s.self ∧
      let later (old new : List Nat) : Prop := ∀ x, x ∈ new ↔ (x ∈ old ∧ s.joinActive r [x] = true) ∨ ∃ k < 6, named k ∧ x ∈ s.localPending r k
      (∀ g < 4, if v.getLsbD g then u.gen r g = { s.gen r g with queue := (u.gen r g).queue } ∧ later (s.gen r g).queue (u.gen r g).queue
        else u.gen r g = s.gen r g) ∧
      (if v.getLsbD 4 then u.scan r = { s.scan r with join := (u.scan r).join } ∧ later (s.scan r).join (u.scan r).join
        else u.scan r = s.scan r) ∧
      (if v.getLsbD 5 then later (mapGet [] s.cfgJoin (s.leadOf r)) (mapGet [] u.cfgJoin (s.leadOf r)) else u.cfgJoin = s.cfgJoin)))

/-- Copies at work (R310, R311, R317, R319, R321): a unit is a read of at most 256 bytes that crosses no boundary, and a read that has
returned becomes a write of its bytes; a command with nothing left completes, and oc.cp falls; a missed promise is told once; a fault
ends the command and is told once.
Where the manual leaves a point open, this follows the model's choice (log entries 125 and 140). -/
def Obligations.CopyWork : Prop :=
  (∀ (s s1 s2 : State) (q : Nat) (c : Cmd) (p d : DWord) (len : Nat) (sl dl : Loc) (sx dx : Option Xlat),
    let e := s.foc.unit
    let off := c.next
    let quiet := ∀ k < 16, ∀ c ∈ (s.cqueue e k).cmds, c.pieces = []
    let src := ptrAdd p off
    let dst := ptrAdd d off
    (quiet → s.now < (s.engine e).unitAt → exec .copyPieceIssue s = .next s) ∧
    (q < 16 → (s.engine e).turn = q → s.copyReady e q = some c → s.cmd? e q c.seq = some c → quiet → c.shape = .flat p d len →
    (s.engine e).unitAt ≤ s.now →
    (∀ k, s.copyReach e q c src true false = (s1, .fault k) → ∃ u done, exec .copyPieceIssue s = .next u ∧ s.sameBytes u ∧
      u.cmd? e q c.seq = some { c with fault := some (k, done) } ∧ done ≤ off) ∧
    (s.copyReach e q c src true false = (s1, .at_ sl sx) → s1.copyReach e q c dst false true = (s2, .at_ dl dx) →
      ∃ u a n, exec .copyPieceIssue s = .next u ∧ s.sameBytes u ∧ u.accs = s2.accs ++ [a] ∧
        a.who = .copy e q c.seq ∧ a.kind = .load false ∧ a.loc = sl ∧ a.size = n ∧ a.done = false ∧ a.before = c.before ∧
        0 < n ∧ n ≤ 256 ∧ off + n ≤ len ∧ ptrOff src % pieceStep sl + n ≤ pieceStep sl ∧ ptrOff dst % pieceStep dl + n ≤ pieceStep dl ∧
        (∀ b, s2.cmd? e q c.seq = some b →
          u.cmd? e q c.seq = some { b with next := off + n, pieces := b.pieces ++ [⟨off, n, a.id⟩] }) ∧
        -- the next unit may start once this one has moved, 64 bytes in a cycle
        (u.engine e).turn = (q + 1) % 16 ∧ (u.engine e).unitAt = s.now + (n + 63) / 64))) ∧
  (∀ (c : CopyShape) (off i : Nat),
    let r := c.run off i
    (∀ p d len, c = .flat p d len → r = (0, len, ptrAdd p off, ptrAdd d off)) ∧
    (∀ p d rowb n ss ds, c = .rows p d rowb n ss ds → r.2.2 =
      (ptrAddInt p (ss * (off / rowb : Nat) + (off % rowb : Nat)), ptrAddInt d (ds * (off / rowb : Nat) + (off % rowb : Nat)))) ∧
    (∀ p d x n eb, c = .gather p d x n eb → r.2.2 = (ptrAdd p (i * eb + off % eb), ptrAdd d off))) ∧
  (∀ (s : State) (c : Cmd),
    let e := s.foc.unit
    let q := s.foc.sub
    s.cmd? e q s.foc.arg = some c → c.done = none →
    (∀ s1 x a dl dx, c.fault = none → c.pieces = [x] → s.accs.find? (fun b => decide (b.id = x.acc)) = some a → a.kind = .load false →
      a.done = true → c.next < c.shape.total →
      let good := a.fault = 0 ∧ ∀ i ∈ a.bad, s.copyTolerant c a.ptr a.loc a.xl i = true
      (good → s.copyReach e q c (c.shape.run x.off a.gd).2.2.2 false true = (s1, .at_ dl dx) →
        let others := s1.accs.filter fun b => decide (b.id ≠ a.id)
        ∃ u b, exec .copyComplete s = .next u ∧ s.sameBytes u ∧ u.accs = others ++ [b] ∧ b.who = .copy e q c.seq ∧ b.kind = .store ∧
          b.loc = dl ∧ b.size = x.len ∧ b.data = a.val ∧ b.done = false ∧
          ∀ w ∈ others, w.who = .copy e q c.seq → w.kind = .store → w.id ∈ b.before) ∧
      -- the command ends by the fault of its read, with the prefix before that read
      (¬ good → ∃ u, exec .copyComplete s = .next u ∧ s.sameBytes u ∧ u.cmd? e q s.foc.arg =
        some { c with fault := some (if a.fault = 0 then 13 else a.fault, a.cmp), pieces := [] })) ∧
    (c.fault = none → c.pieces = [] → c.next = c.shape.total → c.bin = none → c.bout = none → c.sched = false →
      ∃ u, exec .copyComplete s = .next u ∧ s.sameBytes u ∧ u.cmd? e q s.foc.arg = some { c with boutDone := true, done := some s.now } ∧
        u.core c.core = { s.core c.core with ocCp := (s.core c.core).ocCp - 1 }) ∧
    (c.sched = false → c.fault = none → c.missed = false → c.promise < s.now → (s.core c.core).events.length < 16 →
      ∃ u, exec .promiseMissed s = .next u ∧ s.sameBytes u ∧ u.cmd? e q s.foc.arg = some { c with missed := true } ∧
        u.core c.core = { s.core c.core with
          events := (s.core c.core).events ++ [⟨9, BitVec.ofNat 64 (e * 2 ^ 20 + q * 2 ^ 16 + c.seq), 3, false⟩] }) ∧
    (c.missed = true ∨ s.now ≤ c.promise → exec .promiseMissed s = .next s) ∧
    (∀ k n, c.fault = some (k, n) → c.told = false → c.sched = false → c.pieces = [] → (s.core c.core).events.length < 16 →
      ∃ u, exec .copyPieceFault s = .next u ∧ s.sameBytes u ∧ u.cmd? e q s.foc.arg = some { c with told := true, done := some s.now } ∧
        (let o := s.core c.core
         u.core c.core = { o with
           ocCp := o.ocCp - 1,
           events := o.events ++ [⟨k, BitVec.ofNat 64 (e * 2 ^ 20 + q * 2 ^ 16 + c.seq), s.target c.core o.level k, false⟩] })))

/-! ### Pages -/

/-- The PAGE words (R344 to R350): who may run one, the page that ga names and the faults on the way to it, and what each does with
the page, its stage-B entry, its agent's queue and table, the frame pool and the notification queue.
Where the manual leaves a point open, this follows the model's choice (log entries 98, 124 and 137). -/
def Obligations.PageWords : Prop :=
  (∀ (s : State) (gd ga gb : BitVec 5) (x : PageRef), s.memReady [ga, gb] [gd] →
    let r := s.foc.unit
    let c := s.self
    let p := s.val ga
    let v := (s.val gb).toNat
    let e := x.ent
    let part := (s.subp x.subp).part
    let k := s.part part
    let vpage := ptrOff p / 65536
    let leafOk (leaf : Nat) : Prop := c.level = 3 → leaf.testBit 57 = true
    let names : Prop := ptrFault [0] c.level 1 p = none ∧ (∃ leaf, s.leafA c.asid vpage = .ok (leaf, x.page) ∧ leafOk leaf) ∧
      x.subp = (s.asid c.asid).subp ∧ s.entryB x.subp x.page = .ok e
    let entry (frame info tier kind : Nat) : Nat :=
      frame * 2 ^ 92 + x.subp * 2 ^ 76 + x.page * 2 ^ 32 + info * 2 ^ 16 + tier * 2 ^ 12 + kind * 2 ^ 8 + 1
    let traps (i : Instr) (n : Nat) : Prop := exec i s = .next (s.trapped s n p)
    let fails (i : Instr) (may : Prop) (bits : Nat) : Prop :=
      (¬ may → traps i 1) ∧
      (may → (∀ n, ptrFault [0] c.level 1 p = some n → traps i n) ∧
        (ptrFault [0] c.level 1 p = none →
          (∀ n, s.leafA c.asid vpage = .error n → traps i n) ∧
          ∀ leaf page, s.leafA c.asid vpage = .ok (leaf, page) → (¬ leafOk leaf → traps i 3) ∧
            (leafOk leaf → ∀ n, s.entryB (s.asid c.asid).subp page = .error n → traps i n)) ∧
        (names → 2 ^ bits ≤ v → exec i s = .next (s.trapped s 6 (ptrSub p 14))))
    let high := c.level ≤ 1
    let right := c.level = 0 ∨ ∀ o, s.owner r = some o → (s.part o).rights.testBit 4 = true
    fails (.pghint ga gb) True 3 ∧ fails (.pgmove gd ga gb) (high ∧ right) 3 ∧ fails (.pgdisc ga gb) high 2 ∧
    fails (.pgthr ga gb) high 16 ∧
    (names → v < 8 → (e.testBit 63 = false → traps (.pghint ga gb) 4) ∧
      (e.testBit 63 = true → ∃ u, exec (.pghint ga gb) s = .next (s.retired u 1) ∧ s.posts u part (entry 0 v 0 4))) ∧
    (names → v < 8 → high → right →
      let tier := v % 4
      let answers (u : State) (n : Nat) : Prop := exec (.pgmove gd ga gb) s = .next (s.retired (u.puts gd (BitVec.ofNat 64 n)) 1)
      (e.testBit 63 = false → traps (.pgmove gd ga gb) 4) ∧
      (e.testBit 63 = true → s.releases r ≠ [] → exec (.pgmove gd ga gb) s = .next (s.stalls s 5)) ∧
      (e.testBit 63 = true → s.releases r = [] → (e.testBit 57 = true → answers s 4) ∧
        (e.testBit 57 = false → ∀ a, s.agentOf x = some a →
          let g := s.agent a
          let waits := s.motionOf x.subp x.page ≠ none ∨ 16 ≤ s.inMotion a
          let req : MigReq := ⟨x.subp, x.page, part, tier, v.testBit 2, some r, none, false⟩
          (waits → 64 ≤ g.queue.length → answers s 5) ∧
          (waits → g.queue.length < 64 → answers (s.modAgent a fun g => { g with queue := g.queue ++ [req] }) 2) ∧
          (¬ waits → entTier e = tier → answers s 1) ∧
          -- what was pushed in this cycle does not count yet
          (¬ waits → entTier e ≠ tier → mapGet 0 k.fpcount tier ≤ mapGet 0 k.fpnew tier → answers s 3) ∧
          (¬ waits → entTier e ≠ tier → mapGet 0 k.fpnew tier < mapGet 0 k.fpcount tier → ∀ at_,
            let base := mapGet 0 k.fpbase tier
            let n := mapGet 0 k.fphead tier
            let off := ptrOff base + 8 * n
            let ring := off / 2 ^ 46 % 4
            ptrFormOk base = true → ptrSpace base = 7 → s.stageC (some part) ring (off % 2 ^ 46) = some at_ →
            s.lostLine ring at_ = false → (ring, at_ / 64) ∉ s.badLines →
            let frame := readVal s.dram (dramKey ring at_) 8 % 2 ^ 36
            let taken := s.modPart part fun k => { k with fphead := mapSet k.fphead tier ((n + 1) % mapGet 0 k.fpsize tier),
                                                          fpcount := mapSet k.fpcount tier (mapGet 0 k.fpcount tier - 1) }
            (s.frameOf x.subp tier frame = none → ∃ u, answers u 6 ∧ taken.posts u part (entry frame 6 tier 2)) ∧
            (∀ dst src, s.frameOf x.subp tier frame = some dst → s.frameOf x.subp (entTier e) (entFrame e) = some src →
              ∃ u, answers { u with motions := s.motions ++ [⟨s.home (entTier e) (src * 65536), x.subp, x.page, part, some r, none,
                  entTier e, src, entFrame e, tier, dst, frame, v.testBit 2, s.now, 0, s.now, [], false, none⟩] } 0 ∧
                taken.rewrites u x.subp x.page (setBits e 58 2 (2 + b2n (v.testBit 2)))))))) ∧
    (names → v < 4 → high → (e.testBit 63 = false → traps (.pgdisc ga gb) 4) ∧
      (e.testBit 63 = true →
        -- from `u` on, with what `after` does once the page is discarded
        let disc (u : State) (e : Nat) (after : State → State) : Prop := ∃ t, exec (.pgdisc ga gb) s = .next (s.retired (after t) 1) ∧
          let e' := setBits e 57 2 (1 + 2 * (v % 2))
          (v.testBit 1 = false → u.rewrites t x.subp x.page e') ∧
          (v.testBit 1 = true → ∀ f, u.frameOf x.subp (entTier e) (entFrame e) = some f → ∃ u2 u3 u4 : State, u.zeroes u2 (entTier e) f ∧
            u2.rewrites u3 x.subp x.page (setBits e' 63 1 0) ∧ u4.dram = u3.dram ∧ u4.forgets x.subp x.page ∧
            -- an access on its way by an earlier translation of the page meets cause 4
            (∀ a ∈ u4.accs, a.done = false → ∀ y, a.xl = some y → y.subp = x.subp → y.page = x.page → a.fault = 4) ∧
            u4.posts t part (entry (entFrame e) 0 (entTier e) 3))
        (s.motionOf x.subp x.page = none → disc s e id) ∧
        -- the requests that waited for the migration find the page discarded
        (∀ m, s.motionOf x.subp x.page = some m → ∃ u, s.aborts u m 2 ∧ ∀ e, u.entryB x.subp x.page = .ok e →
          disc u e fun t => t.evalPage m.agent m.subp m.page))) ∧
    (names → v < 65536 → high → ∀ a, s.agentOf x = some a →
      let h := (s.agent a).hot
      let here (y : HotEntry) : Prop := y.subp = x.subp ∧ y.page = x.page
      (h.map Prod.fst).Pairwise (· < ·) → (h.map fun y => (y.2.subp, y.2.page)).Nodup →
      ∃ u t, exec (.pgthr ga gb) s = .next (s.retired t 1) ∧ s.rewrites u x.subp x.page (setBits e 55 1 (if v = 0 then 0 else 1)) ∧
        { t with agents := s.agents } = u ∧ (∀ n, n ≠ a → t.agent n = s.agent n) ∧
        let h2 := (t.agent a).hot
        (v = 0 → ∀ i y, mapFind h2 i = some y ↔ mapFind h i = some y ∧ ¬ here y) ∧
        (v ≠ 0 → (∀ i y, mapFind h i = some y → here y →
            mapFind h2 i = some { y with thr := v } ∧ ∀ j, j ≠ i → mapFind h2 j = mapFind h j) ∧
          ((∀ i y, mapFind h i = some y → ¬ here y) → ∃ i, mapFind h2 i = some ⟨x.subp, x.page, 0, v⟩ ∧
            (∀ j, j ≠ i → mapFind h2 j = mapFind h j) ∧
            (h.length < 8192 → mapFind h i = none ∧ ∀ j < i, mapFind h j ≠ none) ∧
            (8192 ≤ h.length → (∀ i y, mapFind h i = some y → y.count < 65536) → ∃ y, mapFind h i = some y ∧
              ∀ j z, mapFind h j = some z → y.count < z.count ∨ (y.count = z.count ∧ i ≤ j)))))) ∧
  (∀ (s : State) (gd ga : BitVec 5) (x : PageRef) (leaf : Nat), s.memReady [ga] [gd] →
    let c := s.self
    let p := s.val ga
    ptrFault [0] c.level 1 p = none → s.leafA c.asid (ptrOff p / 65536) = .ok (leaf, x.page) → (c.level = 3 → leaf.testBit 57 = true) →
    x.subp = (s.asid c.asid).subp → s.entryB x.subp x.page = .ok x.ent →
    let top := if c.level ≤ 1 then x.ent / 2 ^ 16 * 2 ^ 16 else x.ent / 2 ^ 52 * 2 ^ 52
    let gives (n : Nat) : Prop := exec (.pgqry gd ga) s = .next (s.retired (s.puts gd (BitVec.ofNat 64 (top + n))) 1)
    (∀ m, x.ent.testBit 59 = true → s.motionOf x.subp x.page = some m → gives (m.dstTier * 2 ^ 14 + m.copied * 2 ^ 7)) ∧
    (x.ent.testBit 59 = false → ∀ a, s.agentOf x = some a →
      ((s.agent a).hotIndex x.subp x.page = none → gives 0) ∧
      ∀ i y, (s.agent a).hotIndex x.subp x.page = some i → mapFind (s.agent a).hot i = some y → gives y.count)) ∧
  (∀ (s : State) (gd : BitVec 5), s.memReady [] [gd] →
    let gives (u : State) (v : DWord) : Prop := exec (.pgnote gd) s = .next (s.retired (u.puts gd v) 1)
    (1 < s.self.level → ∃ v, exec (.pgnote gd) s = .next (s.trapped s.bumpId 1 v)) ∧
    (s.self.level ≤ 1 → (s.owner s.foc.unit = none → gives s 0) ∧
      ∀ p, s.owner s.foc.unit = some p →
        let k := s.part p
        (k.nqcount = 0 → gives (s.modPart p fun k => { k with nqheld := false }) 0) ∧
        let next := (k.nqhead + 1) % k.nqsize
        (k.nqcount ≠ 0 → gives (s.modPart p fun k => { k with nqheld := true, nqhead := next, nqcount := k.nqcount - 1 }) (k.nqbase + BitVec.ofNat 64 (16 * k.nqhead)))))

/-- Pages in motion (R336 to R343, R351, R424): a request of the host, of a queue or of a migration task starts, waits or is dropped; a
chunk is copied with its poison; the switch rewrites the entry and moves the page's count; the end of the invalidation zeroes the old
frame and tells; an abort leaves the page where it is and raises cause 14.
Where the manual leaves a point open, this follows the model's choice (log entries 99 and 100). -/
def Obligations.PagesMove : Prop :=
  let note (sp page frame info tier kind : Nat) : Nat :=
    frame * 2 ^ 92 + sp * 2 ^ 76 + page * 2 ^ 32 + info * 2 ^ 16 + tier * 2 ^ 12 + kind * 2 ^ 8 + 1
  let waits (s : State) (sp page a : Nat) : Prop := s.motionOf sp page ≠ none ∨ 16 ≤ s.inMotion a
  let pooled (s : State) (part tier frame : Nat) (t : State) : Prop :=
    let k := s.part part
    let n := mapGet 0 k.fphead tier
    let off := ptrOff (mapGet 0 k.fpbase tier) + 8 * n
    let ring := off / 2 ^ 46 % 4
    ptrFormOk (mapGet 0 k.fpbase tier) = true ∧ ptrSpace (mapGet 0 k.fpbase tier) = 7 ∧ mapGet 0 k.fpnew tier < mapGet 0 k.fpcount tier ∧
    (∃ at_, s.stageC (some part) ring (off % 2 ^ 46) = some at_ ∧ s.lostLine ring at_ = false ∧ (ring, at_ / 64) ∉ s.badLines ∧ frame = readVal s.dram (dramKey ring at_) 8 % 2 ^ 36) ∧
    t = s.modPart part fun k => { k with fphead := mapSet k.fphead tier ((n + 1) % mapGet 0 k.fpsize tier),
                                         fpcount := mapSet k.fpcount tier (mapGet 0 k.fpcount tier - 1) }
  let starts (s : State) (q : MigReq) (e : Nat) (u : State) : Prop := ∀ frame dst src t, pooled s q.part q.tier frame t →
    s.frameOf q.subp q.tier frame = some dst → s.frameOf q.subp (entTier e) (entFrame e) = some src →
    ∃ v, t.rewrites v q.subp q.page (setBits e 58 2 (2 + b2n q.wb)) ∧
      u = { v with motions := s.motions ++ [⟨s.home (entTier e) (src * 65536), q.subp, q.page, q.part, q.core, q.task, entTier e, src,
        entFrame e, q.tier, dst, frame, q.wb, s.now, 0, s.now, [], false, none⟩] }
  let empty (s : State) (part tier : Nat) : Prop := mapGet 0 (s.part part).fpcount tier ≤ mapGet 0 (s.part part).fpnew tier
  -- a request of the host is heard behind those of the device in its cycle
  (∀ (s : State) (w : DWord),
    let p := s.foc.unit
    let sp := w.toNat / 2 ^ 48 % 4096
    let page := w.toNat / 2 ^ 16 % 2 ^ 32
    let tier := w.toNat % 4
    let known (e a : Nat) : Prop := (s.subp sp).live = true ∧ (s.subp sp).part = p ∧ s.entryB sp page = .ok e ∧ entryOk s sp e = true ∧
      s.agentOf ⟨sp, page, e⟩ = some a
    let q : MigReq := ⟨sp, page, p, tier, w.getLsbD 2, none, none, true⟩
    (s.part p).live = true →
      ((∀ e a, ¬ known e a) → ∃ u, exec (.garnetDoorbell w) s = .next u ∧ s.posts u p (note sp page 0 5 tier 2)) ∧
      ∀ e a, known e a →
        let does (u : State) : Prop := s.close (.request q a) = u
        exec (.garnetDoorbell w) s = .next { s with later := s.later ++ [.request q a] } ∧
        (waits s sp page a → 64 ≤ (s.agent a).queue.length → does s) ∧
        (waits s sp page a → (s.agent a).queue.length < 64 → does (s.modAgent a fun g => { g with queue := g.queue ++ [q] })) ∧
        (¬ waits s sp page a → entDisc e = false →
          (entTier e = tier → does s) ∧ (entTier e ≠ tier → empty s p tier → does s) ∧
          (entTier e ≠ tier → ∃ u, does u ∧ starts s q e u))) ∧
  (∀ (s : State) (q : MigReq) (rest : List MigReq) (e : Nat),
    let a := s.foc.unit
    let t := s.modAgent a fun g => { g with queue := rest }
    let does (u : State) : Prop := exec .migrationStart s = .next u
    s.foc.sub = 0 → (s.agent a).queue = q :: rest →
    ((∀ k ∈ q :: rest, s.reqAgent k = some a) → 16 ≤ s.inMotion a → does s) ∧
    ((∀ k ∈ q :: rest, s.motionOf k.subp k.page ≠ none) → does s) ∧
    (s.motionOf q.subp q.page = none → s.inMotion a < 16 → s.entryB q.subp q.page = .ok e → s.agentOf ⟨q.subp, q.page, e⟩ = some a →
      entV e = true → entDisc e = false → q.task = none →
      (entTier e = q.tier → does t) ∧
      (entTier e ≠ q.tier → empty s q.part q.tier →
        ∃ u, does u ∧ t.posts u q.part (note q.subp q.page 0 3 q.tier 2)) ∧
      (entTier e ≠ q.tier → ∃ u, does u ∧ starts t q e u))) ∧
  (∀ (s s1 : State) (k : Task) (x : Xlat) (e a : Nat) (res : Translated),
    let p := ptrAdd (BitVec.ofNat 64 (k.block.getD 0 0)) (65536 * (k.block.getD 2 0 - k.left))
    let w := k.block.getD 1 0
    let c := s.queue (k.id % 4096)
    let sp := x.subp
    let page := x.page
    let q : MigReq := ⟨sp, page, c.part, w % 4, w.testBit 2, none, some k.id, false⟩
    let steps (s : State) (failed : Bool) : State := { s with tasks := s.tasks.map fun t =>
      if t.id = k.id then { t with left := t.left - 1, status := if failed then 1 else t.status } else t }
    let step (failed : Bool) : State := steps s1 failed
    let does (u : State) : Prop := exec .migrationStart s = .next u
    s.foc.sub = k.id + 1 → k ∈ s.tasks → (∀ t ∈ s.tasks, t.id = k.id → t = k) → k.phase = .running → 0 < k.left →
    k.rec_.getD 0 0 / 256 % 16 = 3 →
    (¬ (ptrFormOk p = true ∧ ptrSpace p = 0) → does (steps s true)) ∧
    -- the scheduler's own caches and walks give the page
    (ptrFormOk p = true → ptrSpace p = 0 →
      s.translate (.sched k.id) c.asid (ptrOff p / 65536) ⟨false, false, false⟩ = (s1, res) →
      (res = .miss → does s1) ∧ (∀ n, res = .fault n → does (step true)) ∧
      (res = .at_ x →
        ((∃ n, s1.entryB sp page = .error n) → does (step true)) ∧
        (s1.entryB sp page = .ok e → s1.agentOf ⟨sp, page, e⟩ = some a →
          (waits s1 sp page a → (s1.agent a).queue.length < 64 →
            does ((step false).modAgent a fun g => { g with queue := g.queue ++ [q] })) ∧
          (waits s1 sp page a → 64 ≤ (s1.agent a).queue.length → does (step true)) ∧
          (¬ waits s1 sp page a → entV e = false ∨ entDisc e = true → does (step true)) ∧
          (¬ waits s1 sp page a → entV e = true → entDisc e = false →
            (entTier e = w % 4 → does (step false)) ∧
            (entTier e ≠ w % 4 → empty s1 c.part (w % 4) → does (step true)) ∧
            (entTier e ≠ w % 4 → ∃ u, does u ∧ starts (step false) q e u)))))) ∧
  (∀ (s : State) (m : Motion),
    let from_ := m.src * 65536 + 1024 * m.copied
    let into := m.dst * 65536 + 1024 * m.copied
    let sound := s.lostLine m.dstTier (m.dst * 65536) = false
    -- the cycles of a chunk, the latency of the copy, and the first cycle in which the next chunk may be copied
    let rate (t : Nat) : Nat := [64, 32, 16, 8].getD t 8
    let pace := 1024 / min (rate m.srcTier) (rate m.dstTier)
    let tiers := [m.srcTier, m.dstTier]
    let latency := if 3 ∈ tiers then 1500 else if 2 ∈ tiers then 900 else if 1 ∈ tiers then 400 else 176
    let due := max (m.start + latency + (m.copied + 1) * pace) (m.lastAt + pace)
    s.motionOf s.foc.unit s.foc.sub = some m →
    (s.now < due → exec .chunkCopy s = .next s) ∧
    (m.copied < 64 → due ≤ s.now → sound → s.lostLine m.srcTier (m.src * 65536) = false →
      ∃ u bad, exec .chunkCopy s = .next u ∧
        s.storesAt u (.dram m.dstTier into) 1024 (readVal s.dram (dramKey m.srcTier from_) 1024) ∧
        (∀ t l, (t, l) ∈ u.badLines ↔
          if t = m.dstTier ∧ into ≤ 64 * l ∧ 64 * l + 64 ≤ into + 1024 then (m.srcTier, l - into / 64 + from_ / 64) ∈ s.badLines
          else (t, l) ∈ s.badLines) ∧
        u.motions = s.motions.map (fun k => if k = m then
          { k with copied := k.copied + 1, lastAt := s.now, carried := k.carried ++ bad } else k)) ∧
    (m.copied < 64 ∨ s.now ≤ m.lastAt ∨ m.failed = true ∨ ¬ sound → exec .migrationSwitch s = .next s) ∧
    (64 ≤ m.copied → m.lastAt < s.now → m.failed = false → sound → (s.agent m.agent).queue = [] → ∀ e, s.entryB m.subp m.page = .ok e →
      ∃ u v, exec .migrationSwitch s = .next v ∧
        s.rewrites u m.subp m.page (setBits (setBits (setBits e 60 3 m.dstTier) 16 36 m.dstPage) 58 2 0) ∧
        v = { u with motions := s.motions.map (fun k => if k = m then { k with inval := some s.now } else k), agents := v.agents,
                     tasks := s.tasks.map fun t => { t with joinLoc := t.joinLoc.map m.moveJoin } } ∧
        let old := (s.agent m.agent).hot
        let new := s.home m.dstTier (m.dst * 65536)
        let here (y : HotEntry) : Prop := y.subp = m.subp ∧ y.page = m.page
        (∀ i y, mapFind old i = some y → here y → (old.map Prod.fst).Nodup → (old.map fun y => (y.2.subp, y.2.page)).Nodup →
          (new ≠ m.agent → ∀ z ∈ (s.agent new).hot, ¬ here z.2) →
          (new ≠ m.agent → ∀ z ∈ (v.agent m.agent).hot, ¬ here z.2) ∧
          ∃ j, mapFind (v.agent new).hot j = some ⟨m.subp, m.page, 0, y.thr⟩)) ∧
    (let reason := s.foc.arg
     reason = 0 ∨ (reason = 1 ∧ s.lostLine m.dstTier (m.dst * 65536) = true) →
      let r := m.core.getD (s.part m.part).steward
      ∃ u v, exec .migrationAbort s = .next v ∧ s.aborts u m reason ∧ { v with tiles := u.tiles } = u ∧
        ((s.core r).events.length < 16 → v.core r = { s.core r with events := (s.core r).events ++
          [⟨14, BitVec.ofNat 64 (m.subp * 2 ^ 52 + m.page * 2 ^ 16 + reason), if (s.core r).level = 0 then 0 else 1, false⟩] }))) ∧
  (∀ (s : State) (m : Motion),
    let stale (a : Access) : Prop := a.done = false ∧ ∃ x, a.loc = .dram m.srcTier x ∧ x / 65536 = m.src
    s.motions.find? (fun m => decide (m.subp = s.foc.unit ∧ m.page = s.foc.sub) && m.inval.isSome) = some m →
    ((∃ a ∈ s.accs, stale a) → exec .invalidationComplete s = .next s) ∧
    ((∀ a ∈ s.accs, ¬ stale a) → ∃ u1 u2 u3, exec .invalidationComplete s = .next u3 ∧
      s.zeroes u1 m.srcTier m.src ∧ u1.motions = s.motions.erase m ∧ u1.forgets m.subp m.page ∧
      u1.posts u2 m.part (note m.subp m.page m.dstPage 0 m.dstTier 1) ∧
      u2.posts u3 m.part (note m.subp m.page m.srcPage 0 m.srcTier 3)))

/-! ### Packets and links -/

/-- Packets (R412 to R419): what PSEND refuses, in its order, and the head flit, turn list and payload of the packet it sends; PMASK,
PUNMASK and PBIND; a switch's turn; recovery; the arrival of a peer's packet; delivery into a slot, which submits a task, and the drop of
an unbound class.
Where the manual leaves a point open, this follows the model's choice (log entries 115, 116, 117 and 118). -/
def Obligations.Packets : Prop :=
  let down (d : Nat) : Nat := d / 64 % 2 + 8 * (d / 16 % 4) + 64 * (d / 4 % 4) + 512 * (d % 4)
  let cross (x rest : Nat) : Nat := if x = 0 then rest else (4 + x) + 8 * rest
  let climb (src die rest : Nat) : Nat := 292 + 512 * cross (src / 128 ^^^ die) rest
  let turns (src d : Nat) : Nat :=
    if src / 4 = d / 4 then d % 4
    else if src / 16 = d / 16 then 4 + 8 * (d / 4 % 4) + 64 * (d % 4)
    else if src / 64 = d / 64 then 36 + 64 * (d / 16 % 4) + 512 * (d / 4 % 4) + 4096 * (d % 4)
    else climb src (d / 128) (down d)
  let peer (s : State) (n part port : Nat) : Prop :=
    let e := (mapGet 0 s.peers n).toNat
    e.testBit 63 = true ∧ port = e % 16 ∧ port < 12 ∧ part = e / 2 ^ 30 % 64
  let ended (s u : State) (k : Packet) : Prop := u.packets = s.packets.filter (fun j => decide (j.id ≠ k.id)) ∧
    ∀ q, u.core q = if k.from_ = some q then { s.core q with ocSt := (s.core q).ocSt - 1 } else s.core q
  (∀ (s : State) (gd ga gb : BitVec 5) (x : Nat), s.memReady [ga, gb] [gd] →
    let r := s.foc.unit
    let c := s.self
    let a := s.val ga
    let v := a.toNat
    let b := s.val gb
    let kind := v / 2 ^ 62
    let n := v / 2 ^ 34 % 8
    let num := v / 2 ^ 22 % 512
    let drank := v / 2 ^ 13 % 512
    let cls := v % 16
    let form := kind < 2 ∧ v / 2 ^ 37 % 2 ^ 25 = 0 ∧ v / 2 ^ 31 % 8 = 0 ∧ v / 16 % 512 = 0 ∧ (kind = 0 → num = 0)
    let reads (x : Nat) : Prop := s.privPtr b 32 x ∧ x + 32 * n ≤ 2 ^ 18
    let mine := ∃ p, s.owner r = some p ∧ s.owner drank = some p
    let near (port : Nat) : Prop := ∃ p, s.owner r = some p ∧ peer s num p port
    let fits := (cls < 14 ∨ c.level = 0) ∧ (kind = 0 → mine) ∧ (kind = 1 → ∃ port, near port)
    let refuses (sub : Nat) : Prop := exec (.psend gd ga gb) s = .next (s.trapped s 17 (ptrSub a sub))
    (¬ (form ∧ ∃ x, reads x) → refuses 0) ∧
    (form → reads x →
      (14 ≤ cls → 0 < c.level → refuses 1) ∧
      (cls < 14 ∨ c.level = 0 → (kind = 0 → ¬ mine → refuses 2) ∧ (kind = 1 → (∀ port, ¬ near port) → refuses 4)) ∧
      (fits → 32 ≤ c.ocSt → exec (.psend gd ga gb) s = .next (s.stalls s 5)) ∧
      (fits → c.ocSt < 32 → 0 < n → ¬ s.privGood x (32 * n) → exec (.psend gd ga gb) s = .next (s.trapped s 13 b)) ∧
      (fits → c.ocSt < 32 → (0 < n → s.privGood x (32 * n)) →
        ∃ (u : State) (k : Packet), exec (.psend gd ga gb) s =
            .next (s.retired (u.puts gd (BitVec.ofNat 64 c.pktSeq)) (if n = 0 then 1 else n)) ∧
          u.packets = s.packets ++ [k] ∧ s.sameBytes u ∧ u.self = { c with pktSeq := (c.pktSeq + 1) % 65536, ocSt := c.ocSt + 1 } ∧
          (∀ list, r < 512 → (kind = 0 → list = turns r drank) → (kind = 1 → ∀ port, near port → list = climb r (port / 6) 2) →
            k.head = c.pktSeq * 2 ^ 64 + r * 2 ^ 46 + drank * 2 ^ 37 + n * 2 ^ 34 + cls * 2 ^ 30 + (s.owner r).getD 0 * 2 ^ 24 + list) ∧
          k.payload = (List.range n).map (fun i => s.privVal (x + 32 * i) 32) ∧ k.from_ = some r ∧ k.ga = a ∧
          k.pos = .switch 0 (r / 4) ∧ k.before = s.releases r ∧ k.blocked = false ∧ k.escape = false ∧
          (kind = 0 → k.toPeer = none) ∧ (kind = 1 → ∀ port, near port → k.toPeer = some port)))) ∧
  (∀ (s : State) (ga : BitVec 5), s.wordReady [ga] [] →
    let v := s.val ga
    (s.self.level = 3 → ∃ x, exec (.pmask ga) s = .next (s.trapped s.bumpId 1 x) ∧ exec (.punmask ga) s = .next (s.trapped s.bumpId 1 x)) ∧
    (s.self.level ≠ 3 → 65536 ≤ v.toNat → exec (.pmask ga) s = .next (s.trapped s 17 (ptrSub v 0)) ∧
      exec (.punmask ga) s = .next (s.trapped s 17 (ptrSub v 0))) ∧
    (s.self.level ≠ 3 → v.toNat < 65536 → ∀ p, s.owner s.foc.unit = some p →
      -- a mask bit changes with the next cycle
      exec (.pmask ga) s = .next (s.retired { s with later := s.later ++ [.mask p true v.toNat] } 1) ∧
      exec (.punmask ga) s = .next (s.retired { s with later := s.later ++ [.mask p false v.toNat] } 1))) ∧
  (∀ (s : State) (p v : Nat) (set : Bool), (s.part p).live = true → ∃ m,
    s.begin (.mask p set v) = s.modPart p (fun k => { k with pkmask := m }) ∧
    ∀ j < 16, m.testBit j = if set then (s.part p).pkmask.testBit j || v.testBit j else (s.part p).pkmask.testBit j && !v.testBit j) ∧
  (∀ (s u : State) (ga gb : BitVec 5) (x p : Nat) (l : List Byte), s.memReady [ga, gb] [] →
    let r := s.foc.unit
    let a := s.val ga
    let b := s.val gb
    let i := Instr.pbind ga gb
    let refuses := exec i s = .next (s.trapped s 17 (ptrSub a 0))
    let w (n : Nat) : DWord := BitVec.ofNat 64 (s.privVal (x + 8 * n) 8)
    let slots := (w 2).toNat
    let block := 1 ≤ slots ∧ slots ≤ 65535 ∧ w 3 = 0 ∧ ptrFault [0, 7] 0 128 (w 0) = none ∧ ptrFault [0, 7] 0 256 (w 1) = none
    let rec_ := (List.range 16).map (blockWord l)
    let q := recQueue rec_
    let template := recOk rec_ = true ∧ rec_.getD 0 0 / 256 % 16 = 0 ∧ recPart rec_ = p ∧ (u.queue q).open_ = true ∧ (u.queue q).part = p
    (1 < s.self.level → ∃ y, exec i s = .next (s.trapped s.bumpId 1 y)) ∧
    (s.self.level ≤ 1 → s.owner r = some p →
      (16 ≤ a.toNat → refuses) ∧
      (a.toNat < 16 → b = 0 → exec i s = .next (s.retired { s with later := s.later ++ [.bind p a.toNat none] } 1)) ∧
      (a.toNat < 16 → b ≠ 0 → ptrFault [4] s.self.level 32 b ≠ none → refuses) ∧
      (a.toNat < 16 → b ≠ 0 → s.privPtr b 32 x → s.privGood x 32 →
        (¬ block → refuses) ∧
        (block → (∀ e, s.readBlock r [0, 7] (w 0) 128 = .stop e → exec i s = .next (s.endWord r e)) ∧
          (s.readBlock r [0, 7] (w 0) 128 = .ok u l →
            (¬ template → exec i s = .next (s.trapped u 17 (ptrSub a 0))) ∧
            (template → exec i s = .next (s.retired
              { u with later := u.later ++ [.bind p a.toNat (some ⟨w 0, rec_, w 1, slots, (u.queue q).asid⟩)] } 1)))))) ) ∧
  -- the binding is used from the next cycle on
  (∀ (s : State) (p c : Nat) (k : Binding), (s.part p).live = true →
    s.begin (.bind p c none) = s.modPart p (fun x => { x with binds := mapDel x.binds c }) ∧
    s.begin (.bind p c (some k)) = s.modPart p (fun x => { x with binds := mapSet x.binds c k })) ∧
  (∀ (s : State) (k : Packet) (next : PacketAt) (shift : Bool), s.packet? k.id = some k → k.since < s.now →
    (∀ p, k.pos ≠ .link p ∧ k.pos ≠ .peer p) → k.nextHop = some (next, shift) →
    (s.hopFree k next = false → s.hop k.id = s) ∧
    (s.hopFree k next = true → ∃ j, (s.hop k.id).packets = s.packets.filter (fun i => decide (i.id ≠ k.id)) ++ [j] ∧
      j = { k with pos := next, via := k.pos, since := s.now, blocked := false, head := j.head } ∧
      (shift = false → j.head = k.head) ∧
      (shift = true → j.head / 2 ^ 24 = k.head / 2 ^ 24 ∧ j.head % 2 ^ 24 = k.head % 2 ^ 24 / 8))) ∧
  (∀ (s : State),
    let waits (k : Packet) : Prop := k.id = s.foc.unit ∧ (∃ l n, k.pos = .switch l n ∨ k.pos = .middle n) ∧ k.since + 1024 ≤ s.now ∧
      k.escape = false
    ∃ (u : State), exec .packetBlocked s = .next u ∧ u.packets.length = s.packets.length ∧ ∀ (i : Nat) (k : Packet), s.packets[i]? = some k →
      (waits k → u.packets[i]? = some { k with blocked := true }) ∧ (¬ waits k → u.packets[i]? = some k)) ∧
  (∀ (s : State),
    let lvl := s.foc.unit
    let num := (mapGet (0, 0) s.tokens lvl).1
    let from_ := (mapGet (0, 0) s.tokens lvl).2
    let here (k : Packet) : Prop := (k.pos = .switch lvl num ∨ (lvl = 3 ∧ k.pos = .middle num)) ∧ k.blocked = true
    let count := if lvl = 0 then 128 else if lvl = 1 then 32 else if lvl = 2 then 8 else 4
    lvl < 4 →
    (s.now < from_ → exec .recoveryTokenVisit s = .next s) ∧
    ((∃ k ∈ s.packets, here k ∧ k.escape = true) → exec .recoveryTokenVisit s = .next s) ∧
    (from_ ≤ s.now → (∀ k ∈ s.packets, ¬ here k) →
      exec .recoveryTokenVisit s = .next { s with tokens := mapSet s.tokens lvl ((num + 1) % count, s.now + 1) }) ∧
    (from_ ≤ s.now → (∃ k ∈ s.packets, here k) → (∀ k ∈ s.packets, here k → k.escape = false) →
      ∃ k ∈ s.packets, here k ∧ (∀ j ∈ s.packets, here j → k.since ≤ j.since) ∧
        exec .recoveryTokenVisit s = .next { s with packets := s.packets.map fun j => if j.id = k.id then { j with escape := true } else j })) ∧
  (∀ (s : State) (head : BitVec 256) (payload : List (BitVec 256)),
    let port := s.foc.unit
    let h := head.toNat
    let drank := h / 2 ^ 37 % 512
    let i := Instr.peerPacketArrival head payload
    port < 12 → (s.link port).state = .up →
    ((∀ n < 512, ∀ part, ¬ peer s n part port) ∨ s.owner drank = none → exec i s = .next s) ∧
    (∀ n < 512, ∀ part, peer s n part port → (∀ m < n, ∀ part, ¬ peer s m part port) → s.owner drank ≠ none →
      ∃ u k, exec i s = .next u ∧ u.packets = s.packets ++ [k] ∧ s.sameBytes u ∧
        k.head = setBits (setBits h 55 9 n) 0 24 (cross (port / 6 ^^^ drank / 128) (down drank)) ∧
        k.payload = (payload.map BitVec.toNat).take (h / 2 ^ 34 % 8) ∧ k.from_ = none ∧ k.pos = .switch 3 (port / 6))) ∧
  (∀ (s : State) (k : Packet) (p : Nat) (before after : List Packet),
    let r := s.foc.unit
    let cls := k.head / 2 ^ 30 % 16
    let here := s.packets.filter fun k => k.pos == .tile r
    let ready (k : Packet) : Prop := ∀ i ∈ k.before, ∀ a ∈ s.accs, a.id = i → a.done = true
    let bound := mapFind (s.part p).binds cls
    let drops (u : State) : Prop := exec .packetDelivery s = .next (u.raiseSteward p 17 (BitVec.ofNat 64 (k.head % 2 ^ 64)))
    s.owner r = some p → here = before ++ k :: after → (∀ j ∈ before, s.deliverable p j = false) →
    (ready k → bound = none → ∃ u, drops u ∧ ended s u k) ∧
    (∀ b, ready k → bound = some b → (s.queue (recQueue b.rec_)).open_ = true →
      let used (i : Nat) : Prop := ∃ t ∈ s.tasks, t.block = [cls, b.ring.toNat, i] ∧ recKind t.rec_ = 0 ∧ s.taskPart t = p
      let masked := (s.part p).pkmask.testBit cls = true
      (masked ∨ 16 ≤ (s.unstarted (recQueue b.rec_)).length ∨ (∀ i < b.slots, used i) → s.deliverable p k = false) ∧
      (¬ masked → (s.unstarted (recQueue b.rec_)).length < 16 → ∀ i < b.slots, ¬ used i → (∀ j < i, used j) →
        let at_ := ptrAdd b.ring (256 * i)
        -- a slot on a page in motion waits where R338 says so
        s.writeHeld (some p) b.asid at_ k.bytes.length false = false →
        ∀ s1, s.writeNow (some p) b.asid at_ (leBytes 32 k.head ++ k.payload.flatMap (leBytes 32)) false = (s1, none) →
        ∃ u t, exec .packetDelivery s = .next u ∧ ended s1 u k ∧ u.tasks = s1.tasks ++ [t] ∧ t.phase = .accepted ∧
          t.rec_ = b.rec_.set 4 at_.toNat ∧ t.block = [cls, b.ring.toNat, i] ∧
          (let x := s1.queue (recQueue b.rec_)
           t.id = recQueue b.rec_ + x.gen * 2 ^ 12 + x.seq * 2 ^ 24 ∧ (u.queue (recQueue b.rec_)).seq = (x.seq + 1) % 65536))))

/-- Links (R353, R420 to R423, R454): a link trains and runs at the highest version that both ends have; a CRC error replays; a failing
lane is replaced, or halves the link, at once or when a replay ends; a lost link ends what is on it with cause 19; an access of a peer
reaches only pages with P = 1.
Where the manual leaves a point open, this follows the model's choice (log entries 102 and 119). -/
def Obligations.Links : Prop :=
  (∀ (s : State),
    let p := s.foc.unit
    let l := s.link p
    let gives (i : Instr) (l : Link) : Prop := exec i s = .next (s.modLink p fun _ => l)
    p < 12 →
    (l.state = .up → exec .linkUp s = .next s) ∧
    (l.state = .down ∨ l.state = .lost → gives .linkUp { l with state := .training }) ∧
    (l.state = .training → s.foc.arg = 0 → exec .linkUp s = .next s) ∧
    (l.state = .training → 0 < s.foc.arg → gives .linkUp
      { l with state := .up, ver := if s.foc.arg = 1 then 1 else 2, half := false, spares := 2, healthy := 16, unacked := 0,
               replaying := false, tries := 0, crc := [], deferred := [] }) ∧
    (let lane := s.foc.sub
     let old := mapGet [] l.crc lane
     l.state = .up →
      (l.unacked = 0 → exec .flitCrcFail s = .next s) ∧
      (0 < l.unacked → lane < 16 →
        let sum := if l.replays + l.unacked < 2 ^ 32 then l.replays + l.unacked else 2 ^ 32 - 1
        let tries := if l.replaying then l.tries + 1 else 0
        let m : Link := { l with replays := sum, replaying := true, tries := tries, crc := mapSet l.crc lane ((s.now :: old).take 4) }
        (l.replaying = false ∨ l.deferred = [] → gives .flitCrcFail m) ∧
        (l.replaying = true → l.deferred ≠ [] → ∃ crc, gives .flitCrcFail
          { m with half := true, healthy := l.healthy - l.deferred.length, deferred := [], crc := crc })) ∧
      (let failing := old.length = 4 ∧ ∀ t ∈ old.drop 3, s.now < t + 2 ^ 20
       (¬ failing ∨ lane ∈ l.deferred → exec .laneFailing s = .next s) ∧
       (failing → lane ∉ l.deferred →
        (l.replaying = true → gives .laneFailing { l with deferred := l.deferred ++ [lane] }) ∧
        (l.replaying = false → l.ver = 2 → 0 < l.spares →
          gives .laneFailing { l with spares := l.spares - 1, crc := mapDel l.crc lane }) ∧
        (l.replaying = false → ¬ (l.ver = 2 ∧ 0 < l.spares) →
          gives .laneFailing { l with half := true, healthy := l.healthy - 1, crc := mapDel l.crc lane }))) ∧
      (let k := s.foc.arg
       0 < k →
        (k < l.unacked → gives .flitAcknowledged { l with unacked := l.unacked - k, tries := 0 }) ∧
        (l.unacked ≤ k → ∃ crc,
          let m : Link := { l with unacked := 0, tries := 0, replaying := false, deferred := [], crc := crc }
          (l.ver = 2 → l.deferred.length ≤ l.spares → gives .flitAcknowledged { m with spares := l.spares - l.deferred.length }) ∧
          (l.ver ≠ 2 → gives .flitAcknowledged
            { m with half := l.half || !l.deferred.isEmpty, healthy := l.healthy - l.deferred.length })))) ∧
    (l.state ≠ .up ∨ (8 ≤ l.healthy ∧ l.tries < 16) → exec .linkLost s = .next s) ∧
    (let on (k : Packet) : Prop := k.pos = .link p ∨ k.pos = .peer p
     l.state = .up → l.healthy < 8 ∨ 16 ≤ l.tries → ∃ u, exec .linkLost s = .next u ∧
      u.link p = { l with state := .lost, unacked := 0, replaying := false, tries := 0, crc := [], deferred := [] } ∧
      u.accs.length = s.accs.length ∧
      (∀ (i : Nat) (a : Access), s.accs[i]? = some a →
        ((∃ num off, a.loc = .peer num off ∧ a.done = false ∧ s.peerPort num = p) → u.accs[i]? = some { a with fault := 19 }) ∧
        ((∀ num off, a.loc = .peer num off → a.done = true ∨ s.peerPort num ≠ p) → u.accs[i]? = some a)) ∧
      (∀ k ∈ u.packets, k ∈ s.packets ∧ ¬ on k) ∧
      ((s.packets.map Packet.id).Nodup → ∀ k ∈ s.packets, ¬ on k → k ∈ u.packets) ∧
      ∀ k r, s.packets.filter (fun k => k.pos == .link p || k.pos == .peer p) = [k] → k.from_ = some r → (s.core r).events.length < 16 →
        (let c := s.core r
         u.core r = { c with ocSt := c.ocSt - 1, events := c.events ++ [⟨19, k.ga, s.target r c.level 19, false⟩] }))) ∧
  (∀ (s : State), s.foc.unit < 4 → ∃ l, exec .cxlLinkLost s = .next { s with cxlLost := l } ∧
    ∀ x, x ∈ l ↔ x ∈ s.cxlLost ∨ x = s.foc.unit) ∧
  (∀ (s : State) (addr : BitVec 48) (data : List Byte),
    let q := s.queue s.foc.unit
    let p : DWord := BitVec.ofNat 64 addr.toNat
    let may (n : Nat) (need : Need) : Prop := ∀ x ∈ spansOf p n, ∃ loc y, s.placeNow (some q.part) q.asid x.1 need = .ok (loc, some y) ∧
      y.bp = true
    s.foc.sub < 12 → (s.link s.foc.sub).state = .up → q.open_ = true →
    let held := s.writeHeld (some q.part) q.asid p data.length false
    (may data.length ⟨false, true, false⟩ → held = true → exec (.peerAccessArrival true addr data) s = .next s) ∧
    (may data.length ⟨false, true, false⟩ → held = false → exec (.peerAccessArrival true addr data) s = .next (s.writeNow (some q.part) q.asid p data false).1) ∧
    (¬ may data.length ⟨false, true, false⟩ → exec (.peerAccessArrival true addr data) s = .next s) ∧
    (may s.foc.arg ⟨true, false, false⟩ → exec (.peerAccessArrival false addr data) s =
      .next (s.readNow (some q.part) q.asid (fun _ _ => false) p s.foc.arg ⟨true, false, false⟩).1) ∧
    (¬ may s.foc.arg ⟨true, false, false⟩ → exec (.peerAccessArrival false addr data) s = .next s))

/-! ### Partitions -/

/-- The MGMT words that make, grant and take away (R363, R364, R367 to R372): who may run one, what its target is, the checks of each
in their order, and what it does to partitions, sub-partitions, quotas, rights, tiles, extents and slices. Where the manual does not
state tval, a free value stands there.
Where the manual leaves a point open, this follows the model's choice (log entries 15, 16, 104, 105, 106, 107, 108, 109 and 110). -/
def Obligations.ManagementWords : Prop :=
  ∀ (s : State) (gd ga gb : BitVec 5) (x : Nat), s.wordReady [ga, gb] [gd] →
    let r := s.foc.unit
    let lvl := s.self.level
    let a := s.val ga
    let b := s.val gb
    let v := b.toNat
    let frees (i : Instr) (c : Nat) : Prop := ∃ y, exec i s = .next (s.trapped s.bumpId c y)
    let bad (i : Instr) (sub : Nat) (w : DWord) : Prop := exec i s = .next (s.trapped s 6 (Config.mgmtVal sub w))
    let ends (i : Instr) (u : State) : Prop :=
      ((u.tile r).owner = s.owner r → exec i s = .next (s.retired u 1)) ∧ ((u.tile r).owner ≠ s.owner r → exec i s = .next u)
    let names (p : Nat) (sub : Option Nat) : Prop :=
      (lvl = 0 ∧ a.toNat < 64 ∧ (s.part a.toNat).live = true ∧ (s.part a.toNat).locked = false ∧ p = a.toNat ∧ sub = none) ∨
      (lvl = 1 ∧ a.toNat < 4096 ∧ s.owner r = some p ∧ (s.subp a.toNat).live = true ∧ (s.subp a.toNat).part = p ∧ sub = some a.toNat)
    let owned (u : State) (block : List Nat) (o : Option Nat) (granted : Bool) : Prop :=
      (∀ t ∈ block, (u.tile t).owner = o ∧ (u.tile t).granted = granted ∧ (u.tile t).slots = [] ∧ (u.core t).mode = (s.core t).rest ∧
        (u.core t).level = 0 ∧ ∀ g, (u.core t).reg g = 0) ∧
      ∀ t, t ∉ block → (u.tile t).owner = s.owner t
    let w (n : Nat) : Nat := s.privVal (x + 8 * n) 8
    -- levels and targets
    (1 < lvl → ∀ i ∈ [Instr.pcreate gd ga gb, .pquota ga gb, .pgrant ga gb, .prevoke ga gb, .pdestroy ga], frees i 1) ∧
    (0 < lvl → frees (.pslice ga gb) 1) ∧
    (lvl ≤ 1 → (lvl = 1 → s.partRight r 1 = true) → ∀ i ∈ [Instr.pquota ga gb, .pgrant ga gb, .prevoke ga gb, .pdestroy ga],
      (4096 ≤ a.toNat → bad i 15 a) ∧ (a.toNat < 4096 → (∀ p sub, ¬ names p sub) → frees i 1)) ∧
    -- PCREATE
    (s.privPtr a 32 x → s.privGood x 32 → lvl = 0 →
      let i := Instr.pcreate gd ga gb
      let off := w 2 % 2 ^ 18
      let len := w 2 / 2 ^ 18 % 2 ^ 18
      let number := v < 64 ∨ v = 2 ^ 63
      let block := w 3 = 0 ∧ w 0 < 64 ∧ w 1 < 512 ∧ w 2 < 2 ^ 36 ∧ off % 4 = 0 ∧ len % 4 = 0 ∧ off + len ≤ 2 ^ 18
      let takes (n : Nat) : Prop := n < 64 ∧ (s.part n).live = false ∧ (v = 2 ^ 63 → ∀ m < n, (s.part m).live = true) ∧ (v < 64 → n = v)
      (¬ number → bad i 15 b) ∧
      (number → ¬ block → bad i 15 a) ∧
      (number → block → (∀ n, ¬ takes n) → frees i 23) ∧
      (∀ n, number → block → takes n →
        (s.owner (w 1) ≠ none ∨ s.sliced (w 1) = true → bad i 16 a) ∧
        (s.owner (w 1) = none → s.sliced (w 1) = false → ∃ u, (w 1 = r → exec i s = .next u) ∧
          (w 1 ≠ r → exec i s = .next (s.retired (u.puts gd (BitVec.ofNat 64 n)) 1)) ∧
          u.part n = { Partition.reset with live := true, rights := w 0, steward := w 1, quotas := [(5, 1)] } ∧
          (u.tile (w 1)).owner = some n ∧
          (let c := u.core (w 1)
           c.mode = (if (s.core (w 1)).mode = .halted then .halted else .running) ∧ c.level = 1 ∧ c.pc = 0 ∧ (∀ g, c.reg g = 0) ∧ (∀ l, (c.trap l).pbound = 0) ∧
           ∀ j, mapGet 0 c.mem j = if j < len then s.privByte (off + j) else 0)))) ∧
    (∀ k, s.privPtr a 32 x → s.privGood x 32 → lvl = 1 → s.owner r = some k →
      let i := Instr.pcreate gd ga gb
      let root : DWord := BitVec.ofNat 64 (w 1)
      let rights := w 0 % 64
      let tiers := w 0 / 256 % 16
      let held := (s.part k).rights
      let number := v < 4096 ∨ v = 2 ^ 63
      let block := w 3 = 0 ∧ w 2 = 0 ∧ (∀ j < 64, (w 0).testBit j = true → j = 3 ∨ j = 5 ∨ (8 ≤ j ∧ j < 12)) ∧
        ptrFormOk root = true ∧ ptrSpace root = 7 ∧ ptrOff root % 16384 = 0
      let takes (n : Nat) : Prop := n < 4096 ∧ (s.subp n).live = false ∧ (v = 2 ^ 63 → ∀ m < n, (s.subp m).live = true) ∧
        (v < 4096 → n = v)
      let may := held.testBit 0 = true ∧ (∀ j < 64, rights.testBit j = true → held.testBit j = true) ∧
        (tiers = 0 ∨ tiers = 1 ∨ held.testBit 2 = true)
      let full := mapGet 0 (s.part k).quotas 3 ≤ (s.subsOf k).length ∨ 4095 ≤ (s.subps.filter fun e => e.2.live).length
      (¬ number → bad i 15 b) ∧ (number → ¬ block → bad i 15 a) ∧ (number → block → (∀ n, ¬ takes n) → frees i 23) ∧
      (∀ n, number → block → takes n → (¬ may → frees i 1) ∧ (may → full → frees i 23) ∧
        (may → ¬ full → exec i s = .next (s.retired ((s.modSubp n fun _ =>
          ⟨true, k, root, rights, if tiers = 0 then 1 else tiers, []⟩).puts gd (BitVec.ofNat 64 n)) 1)))) ∧
    -- PQUOTA
    (lvl = 1 → s.partRight r 1 = false → frees (.pquota ga gb) 1) ∧
    (∀ p sub, (lvl = 1 → s.partRight r 1 = true) → names p sub →
      let i := Instr.pquota ga gb
      let code := v / 2 ^ 56
      let n := v % 2 ^ 32
      let legal := v / 2 ^ 32 % 2 ^ 24 = 0 ∧
        ((code = 0 ∧ sub = none ∧ n ≤ 512) ∨ ((code = 1 ∨ code = 2) ∧ n ≤ 4096) ∨ (code = 3 ∧ sub = none ∧ n ≤ 4095) ∨
          (code = 4 ∧ n < 65536) ∨ (code = 5 ∧ sub = none ∧ 1 ≤ n ∧ n ≤ 255))
      (¬ legal → bad i 15 b) ∧
      -- what this cycle's PQUOTAs and PREVOKEs have changed counts for a further one
      let z := s.settled
      (legal → code < 4 → n < z.quotaUsed p sub code → frees i 23) ∧
      (legal → code = 0 → n = 0 → (∃ e ∈ (z.part p).extents, e.1 / 16 = 0) → frees i 23) ∧
      (legal → z.quotaRefused ⟨p, sub⟩ code n = true → frees i 23) ∧
      (legal → z.quotaRefused ⟨p, sub⟩ code n = false →
        exec i s = .next (s.retired { s with later := s.later ++ [.quota p sub code n] } 1)) ∧
      -- in the cycle after
      ((s.part p).live = true → ∃ u, s.begin (.quota p sub code n) = u ∧ u.tiles = s.tiles ∧ s.sameBytes u ∧
        (sub = none → u.subps = s.subps ∧ (∀ q, q ≠ p → u.part q = s.part q) ∧
          u.part p = { s.part p with quotas := mapSet (s.part p).quotas code n }) ∧
        (∀ k, sub = some k → u.parts = s.parts ∧ (∀ q, q ≠ k → u.subp q = s.subp q) ∧
          u.subp k = { s.subp k with quotas := mapSet (s.subp k).quotas code n }))) ∧
    -- PGRANT and PREVOKE
    (∀ p sub, names p sub →
      let give := Instr.pgrant ga gb
      let take := Instr.prevoke ga gb
      let kind := v / 2 ^ 60
      let m := v % 64
      let held := (s.part p).rights
      let minor := ∀ j < 6, m.testBit j = true → j = 3 ∨ j = 5
      (kind = 0 → v / 64 ≠ 0 ∨ (sub ≠ none ∧ ¬ minor) → bad give 15 b ∧ bad take 15 b) ∧
      let later (b : Bool) : State := { s with later := s.later ++ [.rights p sub b m] }
      (kind = 0 → v / 64 = 0 → sub = none →
        exec give s = .next (s.retired (later true) 1) ∧ exec take s = .next (s.retired (later false) 1)) ∧
      (kind = 0 → v / 64 = 0 → minor → sub ≠ none →
        ((∃ j < 6, m.testBit j = true ∧ held.testBit j = false) → frees give 1) ∧
        ((∀ j < 6, m.testBit j = true → held.testBit j = true) → exec give s = .next (s.retired (later true) 1)) ∧
        exec take s = .next (s.retired (later false) 1)) ∧
      -- rights change in the cycle after
      ((s.part p).live = true →
        s.begin (.rights p none true m) = s.modPart p (fun k => { k with rights := k.rights ||| m }) ∧
        (let u := s.begin (.rights p none false m)
         u.tiles = s.tiles ∧ (∀ j < 6, (u.part p).rights.testBit j = (held.testBit j && !m.testBit j)) ∧
          ∀ n, ∀ j < 6, (u.subp n).rights.testBit j =
            ((s.subp n).rights.testBit j && !((s.subp n).part == p && m.testBit j))) ∧
        ∀ n b, ∃ y, s.begin (.rights p (some n) b m) = s.modSubp n (fun k => { k with rights := y }) ∧
          ∀ j < 6, y.testBit j = ((if b then (s.subp n).rights.testBit j || m.testBit j
            else (s.subp n).rights.testBit j && !m.testBit j) && held.testBit j)) ∧
      (kind = 3 → sub = none → frees give 1 ∧ frees take 1) ∧
      (∀ n, kind = 3 → sub = some n → (v / 16 % 2 ^ 56 ≠ 0 → bad give 15 b ∧ bad take 15 b) ∧
        (v / 16 % 2 ^ 56 = 0 → held.testBit 2 = false → frees give 1 ∧ frees take 1) ∧
        (v / 16 % 2 ^ 56 = 0 → held.testBit 2 = true →
          exec give s = .next (s.retired (s.modSubp n fun k => { k with tiers := v % 16 }) 1) ∧
          ∃ y, exec take s = .next (s.retired (s.modSubp n fun k => { k with tiers := y }) 1) ∧
            ∀ j < 4, y.testBit j = ((s.subp n).tiers.testBit j && !v.testBit j))) ∧
      (kind = 1 ∨ kind = 2 → sub ≠ none → frees give 1 ∧ frees take 1) ∧
      (3 < kind → bad give 15 b ∧ bad take 15 b) ∧
      (kind = 1 → sub = none →
        let base := v % 512
        let lgn := v / 512 % 16
        let block := (List.range (2 ^ lgn)).map (base + ·)
        let form := v / 2 ^ 13 % 2 ^ 47 = 0 ∧ lgn ≤ 9 ∧ base % 2 ^ lgn = 0
        let unheld := ∀ t ∈ block, s.owner t = none ∧ s.sliced t = false
        let mine := ∀ t ∈ block, s.owner t = some p ∧ s.sliced t = false
        let used := ∃ t ∈ block, s.regionOf t ≠ none ∨ t = (s.part p).steward
        (¬ form → bad give 15 b ∧ bad take 15 b) ∧ (form → ¬ unheld → bad give 15 b) ∧ (form → ¬ mine → bad take 15 b) ∧
        (form → mine → used → bad take 16 b) ∧
        (form → unheld → ∃ u, ends give u ∧ owned u block (some p) true) ∧
        (form → mine → ¬ used → ∃ u, ends take u ∧ owned u block none false)) ∧
      (kind = 2 → sub = none →
        let k := v / 2 ^ 56 % 16
        let tier := v / 2 ^ 54 % 4
        let base := v / 2 ^ 24 % 2 ^ 24
        let len := v % 2 ^ 24
        let form := v / 2 ^ 48 % 64 = 0 ∧ 0 < len
        let z := s.settled
        let used (j : Nat) : Prop := mapFind (z.part p).extents (tier * 16 + j) ≠ none
        let free := ¬ used k ∧ (∀ j < k, used j) ∧ base + len ≤ s.tierSize tier ∧
          (∀ e ∈ z.parts, e.1 ≠ p → e.2.live = true → ∀ y ∈ e.2.extents, y.1 / 16 = tier → ¬ (y.2.1 < base + len ∧ base < y.2.1 + y.2.2)) ∧
          (tier = 0 → 0 < mapGet 0 (z.part p).quotas 0)
        let last := (∀ j ≤ k, used j) ∧ (k = 15 ∨ ¬ used (k + 1))
        (¬ form → bad give 15 b ∧ bad take 15 b) ∧ (form → ¬ free → bad give 15 b) ∧ (form → ¬ last → bad take 15 b) ∧
        (form → free → exec give s = .next (s.retired (s.modPart p fun q =>
          { q with extents := mapSet q.extents (tier * 16 + k) (base, len) }) 1)) ∧
        (∀ b n, mapFind (s.part p).extents (tier * 16 + k) = some (b, n) →
          let inside (t f : Nat) : Prop := t = tier ∧ b * 16384 ≤ f ∧ f < (b + n) * 16384
          let zeroed (u : State) : Prop := ∀ l : Loc, u.byteAt l = if l.byte.1 = 0 ∧ dramKey tier (b * 2 ^ 30) ≤ l.byte.2.2 ∧
            l.byte.2.2 < dramKey tier (b * 2 ^ 30) + n * 2 ^ 30 then 0 else s.byteAt l
          -- the range is zeroed before the word retires, and revoked in the cycle after
          (form → last → ∃ u, exec take s = .next (s.retired u 1) ∧ u.later = s.later ++ [.revoke p (tier * 16 + k)] ∧ u.parts = s.parts ∧
            u.tiles = s.tiles ∧ zeroed u) ∧
          ((∀ m ∈ s.motions, m.inval = none → ¬ inside m.dstTier m.dst) →
            let u := s.begin (.revoke p (tier * 16 + k))
            u.part p = { s.part p with extents := mapDel (s.part p).extents (tier * 16 + k) } ∧ zeroed u ∧
            ∀ c ∈ u.accs, ∀ y, c.loc = .dram tier y → inside tier (y / 65536) → c.done = false → c.fault = 5)))) ∧
    -- PSLICE
    (lvl = 0 →
      let i := Instr.pslice ga gb
      let base := a.toNat % 512
      let lgn := a.toNat / 512 % 16
      let block := (List.range (2 ^ lgn)).map (base + ·)
      let form := a.toNat < 2 ^ 13 ∧ lgn ≤ 9 ∧ base % 2 ^ lgn = 0
      (¬ form → bad i 15 a) ∧
      (form → s.privPtr b 16 x → s.privGood x 16 →
        let quantum := w 0 % 2 ^ 32
        let entries := (List.range (w 0 / 2 ^ 32 % 8 + 1)).map fun e => (s.privByte (x + 8 + e)).toNat
        let good := (quantum = 0 ∨ 65536 ≤ quantum) ∧ ∀ e ∈ entries, e < 64 ∧ (s.part e).live = true
        let already (y : Slice) : Prop := y ∈ s.slices ∧ y.base = base ∧ y.lgn = lgn
        let unheld := ∀ t ∈ block, s.owner t = none ∧ s.sliced t = false
        (¬ good → bad i 15 b) ∧
        (good → (∀ y, ¬ already y) → ¬ unheld → bad i 16 a) ∧
        (good → (∀ y, ¬ already y) → unheld → (∃ e ∈ entries, (s.part e).locked = true) → frees i 1) ∧
        (good → (∀ y, ¬ already y) → unheld → (∀ e ∈ entries, (s.part e).locked = false) →
          (quantum = 0 → exec i s = .next (s.retired s 1)) ∧
          (quantum ≠ 0 →
            let u : State := { s with
              slices := s.slices ++ [⟨base, lgn, quantum, entries, 0, s.now + 1 + quantum, false, none⟩], later := s.later ++ [.slice base] }
            -- the schedule begins in the cycle after
            exec i s = .next (s.retired u 1) ∧ owned (u.begin (.slice base)) block entries.head? false)) ∧
        (∀ y, good → already y → (∀ z, already z → z = y) → (∀ e ∈ entries ++ y.entries, (s.part e).locked = false) →
          exec i s = .next (s.retired { s with slices := s.slices.map fun z =>
            if z.base = base then { z with next := some (quantum, entries) } else z } 1)))) ∧
    -- PDESTROY
    (∀ p n, names p (some n) → ∃ u, ends (.pdestroy ga) u ∧ u.subp n = SubPart.reset ∧ (∀ k, (u.asid k).live = true → (u.asid k).subp ≠ n) ∧
      (∀ k, (∀ y ∈ mapGet [] u.unitTlb k ++ mapGet [] u.brTlb k, y.subp ≠ n) ∧
        ∀ y ∈ mapGet [] u.dieTlb k, (∀ z, y = .whole z → z.subp ≠ n) ∧ ∀ page e, y ≠ .stageB n page e)) ∧
    (∀ p, names p none → ∃ u, ends (.pdestroy ga) u ∧ u.part p = Partition.reset ∧ (∀ t < 512, (u.tile t).owner ≠ some p) ∧
      (∀ y ∈ u.slices, p ∉ y.entries) ∧ ∀ m ∈ u.motions, m.part ≠ p)

/-- AALLOC, AFREE and TINV (R367, R373, R374): who may name a sub-partition, the lowest free ASID under both quotas, an ASID that a queue
uses, what each kind of invalidation removes from every cache, and the wait for what a removed entry has translated.
Where the manual leaves a point open, this follows the model's choice (log entries 15 and 111). -/
def Obligations.AsidsAndInvalidation : Prop :=
  ∀ (s : State) (gd ga gb : BitVec 5), s.wordReady [ga, gb] [gd] →
    let r := s.foc.unit
    let lvl := s.self.level
    let a := s.val ga
    let b := s.val gb
    let v := a.toNat
    let frees (i : Instr) (c : Nat) : Prop := ∃ y, exec i s = .next (s.trapped s.bumpId c y)
    let bad (i : Instr) (sub : Nat) (w : DWord) : Prop := exec i s = .next (s.trapped s 6 (Config.mgmtVal sub w))
    let holds (n : Nat) : Prop := (s.subp n).live = true ∧
      (lvl = 0 ∨ (s.owner r = some (s.subp n).part ∧ (lvl = 1 ∨ s.self.subp = n)))
    let caches (s : State) (k : Nat) : List Xlat := mapGet [] s.unitTlb k ++ mapGet [] s.brTlb k ++ s.schedTlb
    let removes (u : State) (hits : Xlat → Prop) (hitsB : Nat → Nat → Prop) : Prop :=
      (∀ k y, y ∈ caches u k ↔ y ∈ caches s k ∧ ¬ hits y) ∧
      (∀ k y, .whole y ∈ mapGet [] u.dieTlb k ↔ .whole y ∈ mapGet [] s.dieTlb k ∧ ¬ hits y) ∧
      ∀ k n page e, .stageB n page e ∈ mapGet [] u.dieTlb k ↔ .stageB n page e ∈ mapGet [] s.dieTlb k ∧ ¬ hitsB n page
    let waits (hits : Xlat → Prop) : Prop := ∃ c ∈ s.accs, c.done = false ∧ ∃ y, c.xl = some y ∧ hits y
    (lvl = 3 → frees (.aalloc gd ga) 1 ∧ frees (.afree ga) 1 ∧ frees (.tinv ga gb) 1) ∧
    -- AALLOC
    (lvl ≤ 2 →
      let i := Instr.aalloc gd ga
      let n := v % 4096
      let form := v / 2 ^ 12 % 4 = 0 ∧ v < 2 ^ 48
      let p := (s.subp n).part
      let room := (s.asids.filter fun e => e.2.live && e.2.subp == n).length < mapGet 0 (s.subp n).quotas 2 ∧
        s.quotaUsed p none 2 < mapGet 0 (s.part p).quotas 2
      (¬ form → bad i 15 a) ∧ (form → ¬ holds n → frees i 1) ∧
      (form → holds n → ¬ room ∨ (∀ k < 4096, (s.asid k).live = true) → frees i 23) ∧
      (∀ k < 4096, form → holds n → room → (s.asid k).live = false → (∀ j < k, (s.asid j).live = true) →
        exec i s = .next (s.retired (({ s with asids := mapSet s.asids k ⟨true, n, v - n⟩ } : State).puts gd (BitVec.ofNat 64 k)) 1))) ∧
    -- AFREE
    (lvl ≤ 2 →
      let i := Instr.afree ga
      let known := v < 4096 ∧ (s.asid v).live = true
      let open_ := ∃ e ∈ s.queues, e.2.open_ = true ∧ e.2.asid = v
      let hits (y : Xlat) : Prop := y.asid = v
      (¬ known → bad i 15 a) ∧ (known → ¬ holds (s.asid v).subp → frees i 1) ∧
      (known → holds (s.asid v).subp → open_ → bad i 16 a) ∧
      (known → holds (s.asid v).subp → ¬ open_ → s.self.stall = none →
        (waits hits → ∃ u, exec i s = .next (s.stalls u 5) ∧ removes u hits fun _ _ => False) ∧
        (¬ waits hits → ∃ u, exec i s = .next (s.retired u 1) ∧ (removes u hits fun _ _ => False) ∧ (u.asid v).live = false ∧
          ∀ k, k ≠ v → u.asid k = s.asid k))) ∧
    -- TINV
    (lvl ≤ 2 →
      let i := Instr.tinv ga gb
      let kind := b.toNat / 2 ^ 60
      let id := b.toNat % 4096
      let form := kind ≤ 5 ∧ b.toNat / 2 ^ 12 % 2 ^ 48 = 0 ∧ (kind = 4 → id < 64) ∧ (kind = 5 → id = 0)
      let may := lvl = 0 ∨ (kind ≤ 1 ∧ (s.asid id).live = true ∧ holds (s.asid id).subp) ∨ (lvl = 1 ∧ (kind = 2 ∨ kind = 3) ∧ holds id)
      let page := v / 65536 % 2 ^ 32
      let hits (y : Xlat) : Prop :=
        (kind = 0 ∧ y.asid = id ∧ y.vpage = page) ∨ (kind = 1 ∧ y.asid = id) ∨ (kind = 2 ∧ y.subp = id ∧ y.page = page) ∨
        (kind = 3 ∧ y.subp = id) ∨ (kind = 4 ∧ (s.subp y.subp).part = id) ∨ kind = 5
      let hitsB (n pg : Nat) : Prop := (kind = 2 ∧ n = id ∧ pg = page) ∨ (kind = 3 ∧ n = id) ∨ (kind = 4 ∧ (s.subp n).part = id) ∨ kind = 5
      let fault := if kind = 0 then ptrFault [0] lvl 1 a else none
      -- bits of ga that the kind gives no meaning
      let clear := kind ≠ 0 → if kind = 2 then v / 2 ^ 48 = 0 ∧ v % 65536 = 0 else v = 0
      (¬ form → bad i 15 b) ∧ (form → ¬ clear → bad i 15 a) ∧ (form → clear → ¬ may → frees i 1) ∧
      (∀ c, form → clear → may → fault = some c → exec i s = .next (s.trapped s c a)) ∧
      (form → clear → may → fault = none → s.self.stall = none →
        (waits hits → ∃ u, exec i s = .next (s.stalls u 5) ∧ removes u hits hitsB) ∧
        (¬ waits hits → ∃ u, exec i s = .next (s.retired u 1) ∧ removes u hits hitsB ∧ u.tiles = s.tiles ∧ s.sameBytes u)) ∧
      (∀ ids, form → clear → may → fault = none → s.self.stall = some (.latch ids) →
        ((∃ c ∈ s.accs, c.id ∈ ids ∧ c.done = false) → ∃ u, exec i s = .next (s.stalls u 5)) ∧
        ((∀ c ∈ s.accs, c.id ∈ ids → c.done = true) → exec i s = .next (s.retired s 1))))

/-! ### System registers -/

/-- SYSR (R72, R103, R143, R168, R196, R233, R253, R254, R261 to R264, R284, R295, R322, R323, R330, R331, R335, R352, R362, R363, R365,
R366, R402, R404, R407, R418, R423, R424, R427, R428, R436, R437): the level rule, the numbers that are defined at each level, the right
that counters take, and the value of every register. A register that is only written, or that belongs to no one, reads zero.
Where the manual leaves a point open, this follows the model's choice (log entries 12, 25, 26 and 27). -/
def Obligations.SystemRegisterReads : Prop :=
  ∀ (s : State) (gd : BitVec 5), s.wordReady [] [gd] →
    let r := s.foc.unit
    let c := s.self
    let f := s.fab r
    let numbers : List (List Nat) :=
      [[0x110, 0x111, 0x112, 0x113, 0x114, 0x115, 0x184, 0x185, 0x201, 0x202, 0x203, 0x204, 0x205, 0x206],
       [0x100, 0x101, 0x102, 0x103, 0x104, 0x105, 0x106, 0x107, 0x108, 0x109, 0x10A, 0x10B, 0x10C, 0x181, 0x182, 0x183, 0x186, 0x208, 0x209,
        0x283, 0x284],
       [0x40, 0x41, 0x42, 0x43, 0x44, 0x45, 0x46, 0x47, 0x48, 0x49, 0x4A, 0x4B, 0x4C, 0xC0, 0xC1, 0x180, 0x187, 0x280, 0x281, 0x282],
       [0x20, 0x21, 0x22, 0x80, 0xC2, 0xC3, 0x200]]
    let defined (l n : Nat) : Prop := n < 8 ∨ (0x10 ≤ n ∧ n < 0x1C) ∨ n ∈ numbers.getD l []
    let nat (n : Nat) : DWord := BitVec.ofNat 64 n
    let count (a : Acct) (k : Nat) : DWord :=
      let n := mapGet 0 a.cnt k + (if k = a.cat then s.now - a.since else 0)
      nat (if n < 2 ^ 48 then n else 2 ^ 48 - 1)
    let gives (l n : Nat) (v : DWord) : Prop := exec (.sysr gd (BitVec.ofNat 12 (1024 * l + n))) s = .next (s.retired (s.puts gd v) 1)
    let all (l : Nat) (t : List (Nat × DWord)) : Prop := c.level ≤ l → ∀ e ∈ t, gives l e.1 e.2
    let ring (size head n : Nat) : DWord := nat (size % 65536 * 2 ^ 32 + head % 65536 * 2 ^ 16 + n % 65536)
    let quota (p : Nat) (sub : Option Nat) (k : Nat) : DWord := nat (s.quotaLimit p sub k % 2 ^ 32 * 2 ^ 32 + s.quotaUsed p sub k % 2 ^ 32)
    -- level, number and right
    (∀ x : BitVec 12, x.toNat / 1024 < c.level → ∃ v, exec (.sysr gd x) s = .next (s.trapped s.bumpId 1 v)) ∧
    (∀ x : BitVec 12, c.level ≤ x.toNat / 1024 → ¬ defined (x.toNat / 1024) (x.toNat % 1024) →
      exec (.sysr gd x) s = .next (s.trapped s 0 (nat (encode (.sysr gd x))))) ∧
    (let may := ∀ p, s.owner r = some p → c.level = 2 →
       (s.part p).rights.testBit 5 = true ∧ (s.subp c.subp).part = p ∧ (s.subp c.subp).rights.testBit 5 = true
     c.level ≤ 2 → (¬ may → ∀ n, 0x40 ≤ n → n ≤ 0x4C →
        ∃ v, exec (.sysr gd (BitVec.ofNat 12 (2048 + n))) s = .next (s.trapped s.bumpId 1 v)) ∧
      (may → all 2 [(0x40, c.cstsel), (0x41, count (s.cell r (c.cstsel.toNat / 8 % 16)).acct (c.cstsel.toNat % 8)),
        (0x43, nat (f.q1.rmiss % 65536 * 2 ^ 48 + f.q0.rmiss % 65536 * 2 ^ 32 + f.q1.cecc % 65536 * 2 ^ 16 + f.q0.cecc % 65536)),
        (0x44, c.usel), (0x46, c.mxsel), (0x47, count f.mx.acct (c.mxsel.toNat % 8)), (0x49, c.scsel),
        (0x4A, count f.scan.acct (c.scsel.toNat % 8)), (0x4B, c.ccsel), (0x4C, count c.acct (c.ccsel.toNat % 8))] ∧
        (let cond (a : Nat) : Nat := mapGet 0 (s.cell r (c.cstsel.toNat / 8 % 16)).cond a % 16
         gives 2 0x42 (nat (cond 0 + cond 1 * 16 + cond 2 * 256 + cond 3 * 4096))) ∧
        (let u := c.usel.toNat / 8 % 8
         let k := c.usel.toNat % 8
         gives 2 0x45 (if u < 4 then count (s.gen r u).acct k else if u = 4 then count f.ux0.acct k
           else if u = 5 then count f.ux1.acct k else 0)) ∧
        (let g := f.scan
         let w := (g.opw.getD 0).toNat
         let last := match g.last with
           | some x => x.1
           | none => 0
         gives 2 0x48 (nat (last % 256 * 2 ^ 40 + g.ogen % 256 * 2 ^ 32 + g.closes.length % 8 * 2 ^ 29 + g.heldResults % 8192 * 2 ^ 16 +
           w / 2048 % 2 * 128 + w % 8 * 16 + (if g.ov then 2 else 0) + (if g.iv then 1 else 0)))))) ∧
    -- trap and loop registers of every level
    (∀ l < 4, c.level ≤ l →
      let t := c.trap l
      let b := c.bank l
      gives l 0 t.cause ∧ gives l 1 t.epc ∧ gives l 2 t.val ∧ gives l 3 t.stat ∧ gives l 4 t.vec ∧ gives l 6 t.scr ∧ gives l 7 t.pbound ∧
      ∀ k < 4, gives l (0x10 + k) (mapGet 0 b.lct k) ∧ gives l (0x14 + k) (nat (b.start k)) ∧ gives l (0x18 + k) (nat (b.stop k))) ∧
    (c.level ≤ 3 → gives 3 5 0) ∧ (c.level ≤ 2 → gives 2 5 c.rtDeleg) ∧
    (c.level ≤ 1 → gives 1 5 (match s.owner r with
      | some p => (s.part p).pmDeleg
      | none => 0)) ∧
    (c.level = 0 →
      let q := c.opqsel.toNat / 1024 % 4096
      (∀ p, s.owner r = some p → gives 0 5 (s.part p).opDeleg) ∧
      (s.owner r = none → gives 0 5 (if q < 64 ∧ (s.part q).live = true then (s.part q).opDeleg else 0))) ∧
    -- task and runtime level
    all 3 [(0x20, nat (c.ocTl % 256 * 2 ^ 24 + c.ocCp % 256 * 2 ^ 16 + c.ocSt % 256 * 2 ^ 8 + c.ocLd % 256)), (0x21, nat c.level), (0x22, nat r),
      (0xC2, c.cpbin), (0xC3, c.cpbout), (0x200, 0x0001020101010101)] ∧
    (c.level ≤ 3 → (s.regionOf r = none → gives 3 0x80 0) ∧
      ∀ g, s.regionOf r = some g → gives 3 0x80 (nat ((s.awake g).length % 1024 * 2 ^ 54))) ∧
    all 2 [(0xC0, c.cesel), (0xC1, count (s.engine (r / 4)).acct (c.cesel.toNat % 8)), (0x180, nat c.asid), (0x281, 0),
      (0x187, let x := s.subp c.subp
              if x.live then nat (x.tiers % 16 * 256 + x.rights % 64) else 0)] ∧
    (let own := c.elost % 256 * 2 ^ 40 + (if c.abort then 1 else 0)
     c.level ≤ 2 → (s.region? r = none → gives 2 0x280 (nat own) ∧ gives 2 0x282 0) ∧
      ∀ g, s.region? r = some g → gives 2 0x282 (nat (g.wdog % 2 ^ 24)) ∧
        gives 2 0x280 (nat (own + (g.voids % 65536 * 2 ^ 48 + g.flost % 256 * 2 ^ 32 + (if g.sv then 512 else 0) + (if g.fz then 256 else 0))))) ∧
    -- partition level
    all 1 [(0x181, nat c.subp), (0x182, c.pmqsel)] ∧
    (s.owner r = none → all 1 ([0x100, 0x101, 0x102, 0x103, 0x104, 0x105, 0x106, 0x107, 0x108, 0x109, 0x10A, 0x10B, 0x10C, 0x183, 0x186,
      0x208, 0x209, 0x283, 0x284].map fun n => (n, 0))) ∧
    (∀ p, s.owner r = some p →
      let x := s.part p
      all 1 [(0x108, 0), (0x109, x.nqbase), (0x10A, ring x.nqsize x.nqhead x.nqcount), (0x10B, nat x.nqlost), (0x10C, nat x.subcnt),
        (0x186, nat (x.rights % 64)), (0x208, nat (x.pkmask % 65536)), (0x209, nat x.hdb), (0x283, x.psave), (0x284, x.pstride)] ∧
      (∀ k < 4, all 1 [(0x100 + k, mapGet 0 x.fpbase k), (0x104 + k, ring (mapGet 0 x.fpsize k) (mapGet 0 x.fphead k) (mapGet 0 x.fpcount k))]) ∧
      (let n := c.pmqsel.toNat / 1024 % 4096
       let k := c.pmqsel.toNat % 16
       all 1 [(0x183, if n = 0 then quota p none k
         else if (s.subp (n - 1)).live = true ∧ (s.subp (n - 1)).part = p then quota p (some (n - 1)) k else 0)])) ∧
    -- operator level
    (let a := c.gasel.toNat / 8 % 16
     let q := c.opqsel.toNat / 1024 % 4096
     let e := mapGet 0 s.peers (c.lksel.toNat % 512)
     let port := c.lksel.toNat % 16
     let l := s.link port
     let state := match l.state with
       | .down => 0
       | .training => 1
       | .up => 2
       | .lost => 3
     let kind := c.hsel.toNat / 512 % 4
     all 0 [(0x110, c.gasel), (0x111, if a < 10 then count (s.agent a).acct (c.gasel.toNat % 8) else 0), (0x184, c.opqsel),
       (0x185, if q < 64 ∧ (s.part q).live = true then quota q none (c.opqsel.toNat % 16) else 0), (0x201, s.plim), (0x202, c.hsel),
       (0x203, if kind = 3 then nat (s.bubbleOf (c.hsel.toNat % 512)) else
         (Config.healthReading kind (c.hsel.toNat % 512) s.window).setWidth 64), (0x204, c.lksel),
       (0x205, if e.toNat % 16 < 12 then e else nat (e.toNat % 2 ^ 63)),
       (0x206, if port < 12 then nat (l.replays % 2 ^ 32 * 2 ^ 32 + state * 2 ^ 14 + l.ver % 4 * 2 ^ 12 + (if l.half then 2048 else 0) +
         l.spares % 4 * 512) else 0)] ∧
     ∀ k < 4, all 0 [(0x112 + k, nat (mapGet 0 s.cxlen k))])

/-- SYSW and the writes that have a behaviour of their own (R72, R104, R143, R168, R253, R257, R261 to R264, R322, R331, R335, R362,
R365, R366, R402, R403, R407, R423, R428): the level rule and the numbers, what each register keeps of the value written, the registers
that ignore a write, the frame pool ring, a ring's size, rt.asid and rt.side.
Where the manual leaves a point open, this follows the model's choice (log entries 25, 27, 28 and 29). -/
def Obligations.SystemRegisterWrites : Prop :=
  (∀ (s : State) (ga : BitVec 5), s.wordReady [ga] [] →
    let r := s.foc.unit
    let c := s.self
    let w := s.val ga
    let v := w.toNat
    let low (n : Nat) : DWord := BitVec.ofNat 64 (v % 2 ^ n)
    let word (l n : Nat) : Instr := .sysw ga (BitVec.ofNat 12 (1024 * l + n))
    let sets (l n : Nat) (u : State) : Prop := exec (word l n) s = .next (s.retired u 1)
    let cores (l : Nat) (t : List (Nat × (Core → Core))) : Prop := c.level ≤ l → ∀ e ∈ t, sets l e.1 (s.modCore r e.2)
    let trap (l n : Nat) (f : TrapRegs → TrapRegs) : Prop := sets l n (s.modCore r fun c => c.modTrap l f)
    let bank (l n : Nat) (f : LoopBank → LoopBank) : Prop := sets l n (s.modCore r fun c => c.modBank l f)
    -- level and number
    (∀ x : BitVec 12, x.toNat / 1024 < c.level → ∃ y, exec (.sysw ga x) s = .next (s.trapped s.bumpId 1 y)) ∧
    (∀ x : BitVec 12, c.level ≤ x.toNat / 1024 → sysDefined (x.toNat / 1024) (x.toNat % 1024) = false →
      exec (.sysw ga x) s = .next (s.trapped s 0 (BitVec.ofNat 64 (encode (.sysw ga x))))) ∧
    -- trap and loop registers
    (∀ l < 4, c.level ≤ l →
      trap l 0 (fun t => { t with cause := low 6 }) ∧ trap l 1 (fun t => { t with epc := w &&& 0x3FFFC }) ∧
      trap l 2 (fun t => { t with val := w }) ∧ (s.region? r = none → trap l 3 fun t => { t with stat := low 3 }) ∧
      trap l 4 (fun t => { t with vec := w &&& 0x3FFFC }) ∧ trap l 6 (fun t => { t with scr := w }) ∧
      (∀ k < 4, bank l (0x10 + k) (fun b => { b with lct := mapSet b.lct k w }) ∧
        bank l (0x14 + k) (fun b => { b with lsa := mapSet b.lsa k (v % 262144) }) ∧
        bank l (0x18 + k) (fun b => { b with lea := mapSet b.lea k (v % 262144) })) ∧
      (l = 0 → sets 0 7 s) ∧
      (let own := (c.trap c.level).pbound
       0 < l → (own.toNat ≤ (w &&& 0x3F000).toNat → trap l 7 fun t => { t with pbound := w &&& 0x3F000 }) ∧
        ((w &&& 0x3F000).toNat < own.toNat → trap l 7 fun t => { t with pbound := own }))) ∧
    (let deferred (e : Later) : State := { s with later := s.later ++ [e] }
     (c.level ≤ 3 → sets 3 5 s) ∧ (c.level ≤ 2 → sets 2 5 (deferred (.deleg 2 r (low 24)))) ∧
     ∀ p, s.owner r = some p → (c.level ≤ 1 → sets 1 5 (deferred (.deleg 1 p (low 24)))) ∧
      (c.level = 0 → sets 0 5 (deferred (.deleg 0 p (low 24))))) ∧
    -- task and runtime level
    cores 3 [(0xC2, fun c => { c with cpbin := w }), (0xC3, fun c => { c with cpbout := w })] ∧
    (c.level ≤ 3 → ∀ n, n = 0x20 ∨ n = 0x21 ∨ n = 0x22 ∨ n = 0x200 → sets 3 n s) ∧
    cores 2 [(0x40, fun c => { c with cstsel := low 7 }), (0x44, fun c => { c with usel := low 6 }), (0x46, fun c => { c with mxsel := low 3 }),
      (0x49, fun c => { c with scsel := low 3 }), (0x4B, fun c => { c with ccsel := low 3 }), (0xC0, fun c => { c with cesel := low 3 }),
      (0x280, fun c => { c with abort := w.getLsbD 0 })] ∧
    (c.level ≤ 2 → (∀ n, n = 0x41 ∨ n = 0x45 ∨ n = 0x47 ∨ n = 0x4A ∨ n = 0x4C ∨ n = 0xC1 ∨ n = 0x187 ∨ n = 0x282 → sets 2 n s) ∧
      sets 2 0x43 (s.modFab r fun f => { f with q0 := { f.q0 with cecc := v % 65536, rmiss := v / 2 ^ 32 % 65536 },
                                                q1 := { f.q1 with cecc := v / 2 ^ 16 % 65536, rmiss := v / 2 ^ 48 % 65536 } }) ∧
      sets 2 0x48 (s.modScan r fun g => { g with ov := g.ov && !w.getLsbD 1, iv := g.iv && !w.getLsbD 0 }) ∧
      (let k := c.cstsel.toNat / 8 % 16
       ∃ l, sets 2 0x42 (s.modCell r k fun c => { c with cond := l }) ∧
        ∀ a < 4, ∀ j < 4, (mapGet 0 l a).testBit j = ((mapGet 0 (s.cell r k).cond a).testBit j && !w.getLsbD (4 * a + j)))) ∧
    -- partition level
    (c.level ≤ 1 →
      sets 1 0x182 (s.modCore r fun c => { c with pmqsel := w &&& 0x3FFC0F }) ∧
      (let n := v % 4096
       let mine := (s.subp n).live = true ∧ s.owner r = some (s.subp n).part
       (mine → sets 1 0x181 (s.modCore r fun c => { c with subp := n })) ∧ (¬ mine → sets 1 0x181 s)) ∧
      ∀ p, s.owner r = some p →
        let keeps (n : Nat) (f : Partition → Partition) : Prop := sets 1 n (s.modPart p f)
        keeps 0x109 (fun x => { x with nqbase := w }) ∧ keeps 0x10B (fun x => { x with nqlost := v % 2 ^ 32 }) ∧
        keeps 0x10C (fun x => { x with subcnt := v % 2 ^ 48 }) ∧ keeps 0x283 (fun x => { x with psave := w }) ∧
        keeps 0x284 (fun x => { x with pstride := low 32 }) ∧
        (∀ k < 4, keeps (0x100 + k) fun x => { x with fpbase := mapSet x.fpbase k w }) ∧
        ∀ n, n = 0x183 ∨ n = 0x186 ∨ n = 0x208 ∨ n = 0x209 → keeps n fun x => x) ∧
    -- operator level
    cores 0 [(0x110, fun c => { c with gasel := low 7 }), (0x184, fun c => { c with opqsel := w &&& 0x3FFC0F }),
      (0x202, fun c => { c with hsel := low 11 }), (0x204, fun c => { c with lksel := low 9 })] ∧
    (c.level = 0 →
      (let n := v % 4096
       sets 0 0x201 { s with plim := BitVec.ofNat 64 (if n < 600 then 600 else if 2400 < n then 2400 else n) }) ∧
      sets 0 0x205 { s with peers := mapSet s.peers (c.lksel.toNat % 512) (w &&& 0x8000000FC000FFFF) } ∧
      ∀ n, n = 0x111 ∨ n = 0x112 ∨ n = 0x113 ∨ n = 0x114 ∨ n = 0x115 ∨ n = 0x185 ∨ n = 0x203 ∨ n = 0x206 → sets 0 n s)) ∧
  (∀ (s : State) (w : DWord) (i : Instr) (p tier : Nat),
    let r := s.foc.unit
    let x := s.part p
    let by_ (l n : Nat) (event : Instr) : Prop := i = event ∨
      ∃ ga, i = .sysw ga (BitVec.ofNat 12 (1024 * l + n)) ∧ s.wordReady [ga] [] ∧ s.val ga = w ∧ s.self.level ≤ l
    let v := w.toNat
    s.owner r = some p →
    -- pm.fpush
    (by_ 1 0x108 (.pmFpushWrite w) → tier = v / 2 ^ 62 →
      let size := mapGet 0 x.fpsize tier
      let n := mapGet 0 x.fpcount tier
      let base := mapGet 0 x.fpbase tier
      let off := ptrOff base + 8 * ((mapGet 0 x.fphead tier + n) % size)
      let ring := off / 2 ^ 46 % 4
      let place := if ptrFormOk base = true ∧ ptrSpace base = 7 then s.stageC (some p) ring (off % 2 ^ 46) else none
      (size ≤ n → exec i s = .next (s.trapped s 23 w)) ∧
      (n < size → place = none → exec i s = .next (s.trapped s (if ptrFormOk base = true ∧ ptrSpace base = 7 then 5 else 3) base)) ∧
      (∀ a, n < size → place = some a → s.lostLine ring a = true → exec i s = .next (s.trapped s 19 base)) ∧
      (∀ a, n < size → place = some a → s.lostLine ring a = false → s.writeBlocked ring a 8 = true → exec i s = .next (s.stalls s 5)) ∧
      (∀ a, n < size → place = some a → s.lostLine ring a = false → s.motionAt ring a = none →
        let pushed (u : State) : State := u.modPart p fun x =>
          { x with fpcount := mapSet x.fpcount tier (n + 1), fpnew := mapSet x.fpnew tier (mapGet 0 x.fpnew tier + 1) }
        ∃ u, exec i s = .next (s.retired { pushed u with later := s.later ++ [.push p tier] } 1) ∧
          s.storesAt u (.dram ring a) 8 (v % 2 ^ 36) ∧ u.parts = s.parts ∧ u.tiles = s.tiles ∧ u.later = s.later)) ∧
    -- the sizes of the rings
    (tier < 4 → by_ 1 (0x104 + tier) (.ringSizeWrite tier w) → exec i s = .next (s.retired (s.modPart p fun x =>
      { x with fpsize := mapSet x.fpsize tier (v / 2 ^ 32 % 65536), fphead := mapSet x.fphead tier 0,
               fpcount := mapSet x.fpcount tier 0, fpnew := mapDel x.fpnew tier }) 1)) ∧
    (by_ 1 0x10A (.ringSizeWrite 4 w) → exec i s = .next (s.retired (s.modPart p fun x =>
      { x with nqsize := v / 2 ^ 32 % 65536, nqhead := 0, nqcount := 0 }) 1)) ∧
    -- rt.asid
    (by_ 2 0x180 (.rtAsidWrite w) →
      let a := v % 4096
      let other := (s.asid a).live = true ∧ (s.asid a).subp ≠ s.self.subp
      (other → ∃ y, exec i s = .next (s.trapped s.bumpId 1 y)) ∧
      (¬ other → exec i s = .next (s.retired (s.modCore r fun c => { c with asid := a }) 1))) ∧
    -- rt.side
    (by_ 2 0x281 (.rtSideWrite w) →
      let k := v / 2 ^ 16 % 512
      let cell := v / 2 ^ 12 % 16
      let acts (g : Region) : Prop := k < 2 ^ g.lgn ∧ (s.fab (g.lead + k)).frozen = true ∧ ∃ a ∈ (s.cell (g.lead + k) cell).actors, a.sp = true
      (s.regionOf r = none → exec i s = .next (s.retired s 1)) ∧
      ∀ g, s.regionOf r = some g → (¬ acts g → exec i s = .next (s.retired s 1)) ∧
        (acts g → ∃ c, exec i s = .next (s.retired (s.modCell (g.lead + k) cell fun _ => c) 1) ∧
          c = { s.cell (g.lead + k) cell with alt := c.alt, altNext := w.getLsbD 0, altAt := s.now + 1, firing := c.firing } ∧
          c.firing = (s.cell (g.lead + k) cell).firing.map fun f => if s.now < f.first then { f with alt := w.getLsbD 0 } else f))) ∧
  -- a delegation mask governs from the cycle on with which the deferred write begins
  (∀ (s : State) (n : Nat) (v : DWord),
    s.begin (.deleg 2 n v) = s.modCore n (fun c => { c with rtDeleg := v }) ∧
    s.begin (.deleg 1 n v) = s.modPart n (fun x => { x with pmDeleg := v }) ∧
    s.begin (.deleg 0 n v) = s.modPart n fun x => { x with opDeleg := v })

/-! ### The scheduler -/

/-- The scheduler (R285, R289, R291 to R294, R298, R299, R351, R371, R406 to R408, R426): its choice among the pool; what starting a
task does; the entry of a lead core; completion of engine tasks; a message to the host; the end of a quantum; pre-emption, and the return
of a pre-empted task.
Where the manual leaves a point open, this follows the model's choice (log entries 21, 41, 42, 43, 44, 45 and 46). -/
def Obligations.Scheduler : Prop :=
  let only (s : State) (t : Task) : Prop := s.taskOf t.id = some t ∧ ∀ k ∈ s.tasks, k.id = t.id → k = t
  let completes (u : State) (t : Task) (status : Nat) : Prop := (∀ k ∈ u.tasks, k.id ≠ t.id) ∧ (∀ e ∈ u.hazards, e.1 ≠ t.id) ∧
    mapGet 3 (u.queue (t.id % 4096)).status (t.id / 2 ^ 24 % 65536) = status
  let inPool (s : State) (t : Task) : Prop := t.id ∈ s.pool ∧ t.phase = .accepted
  -- the pool of a cycle
  (∀ (s : State), ∀ n ∈ s.fillPool.pool, ∃ t ∈ s.tasks, t.id = n ∧ t.phase = .accepted ∧ t.accepted + 224 ≤ s.now ∧ t.joinRead = true ∧
    (∃ c, t.join = some c ∧ c ≤ s.now) ∧
    (∀ k ∈ s.tasks, k.queue = t.queue → k.order < t.order → k.phase ≠ .accepted ∧ recBarrier t.rec_ = false) ∧ s.hazard t = false ∧
    s.hazards.length + (recDecls t.rec_).length ≤ 1024) ∧
  -- the choice
  (∀ (s : State) (t : Task) (p c : Nat), s.choose = some (t, p, c) →
    let mine := s.taskPart t
    let weight := mapGet 1 (s.part mine).quotas 5
    let credit := if mine = s.schedPtr ∧ s.schedCr ≠ 0 then s.schedCr else weight
    t ∈ s.tasks ∧ inPool s t ∧ (∀ k ∈ s.tasks, inPool s k → k.priority s.now ≤ t.priority s.now) ∧
    (∀ k ∈ s.tasks, inPool s k → k.priority s.now = t.priority s.now →
      (∀ i < 64, s.taskPart k = (s.schedPtr + i) % 64 → ∃ j ≤ i, mine = (s.schedPtr + j) % 64) ∧
      (s.taskPart k = mine → t.accepted < k.accepted ∨ (t.accepted = k.accepted ∧
        (t.queue < k.queue ∨ (t.queue = k.queue ∧ t.order ≤ k.order))))) ∧
    c = credit - 1 ∧ p = if credit ≤ 1 then (mine + 1) % 64 else mine) ∧
  (∀ (s : State), s.foc.sub = 0 → s.startedAt = s.now + 1 ∨ (∀ k ∈ s.tasks, ¬ inPool s k) → exec .taskStart s = .next s) ∧
  -- a start
  (∀ (s s1 : State) (t : Task) (ptr credit b : Nat) (im : Image) (l : List Byte), s.foc.sub = 0 → s.choose = some (t, ptr, credit) →
    only s t → s.startedAt ≠ s.now + 1 →
    let starts (f : Task → Task) : List Task := s.tasks.map fun k => if k.id = t.id then f { k with startAt := s.now } else k
    let chosen : State := { s with schedPtr := ptr, schedCr := credit }
    let s0 : State := { chosen with tasks := starts id, startedAt := s.now + 1, hazards := s.hazards ++ (recDecls t.rec_).map fun d => (t.id, d) }
    let kind := t.rec_.getD 0 0 / 256 % 16
    (kind = 0 → chosen.place t = none → exec .taskStart s = .next chosen) ∧
    (kind = 0 → chosen.place t = some b → s0.schedImage t b = (s1, .ok im) →
      let ranks := (List.range (2 ^ recLgn t.rec_)).map (b + ·)
      let slot := (s1.slotFor ranks im.ident).1
      let held := (s1.slotFor ranks im.ident).2
      ∃ u j, exec .taskStart s = .next u ∧ s1.sameBytes u ∧ u.jobs = s1.jobs ++ [j] ∧ j.kind = .load slot true ∧ j.lead = b ∧
        j.tiles = ranks ∧ j.ident = im.ident ∧ j.core = none ∧ (held = true → j.image = []) ∧ (held = false → j.image = im) ∧
        j.ready = s.now + (if held = true then 163 else 195) ∧ u.region? b = some (newRegion t b) ∧
        u.taskOf t.id = some { t with phase := .started, lead := b, startAt := s.now, core := slot } ∧
        (u.core b).asid = s1.taskAsid t ∧ (u.core b).subp = (s1.asid (s1.taskAsid t)).subp ∧ (u.core b).task = some t.id) ∧
    (∀ c v, kind = 0 → chosen.place t = some b → s0.schedImage t b = (s1, .error (c, v)) →
      ∃ u, exec .taskStart s = .next u ∧ completes u t 1) ∧
    (∀ c v, kind = 3 ∨ kind = 4 → s0.schedRead t (recImage t.rec_) (if kind = 3 then 32 else 64) = (s1, .error (c, v)) →
      ∃ u, exec .taskStart s = .next u ∧ completes u t 1) ∧
    (kind = 4 → s0.schedRead t (recImage t.rec_) 64 = (s1, .ok l) → ∃ u, exec .taskStart s = .next u ∧
      u.taskOf t.id = some { t with phase := .running, startAt := s.now, block := (List.range 8).map (blockWord l) }) ∧
    (kind = 3 → s0.schedRead t (recImage t.rec_) 32 = (s1, .ok l) →
      let n := blockWord l 2
      let good := 1 ≤ n ∧ n ≤ 65536 ∧ blockWord l 3 = 0
      (¬ good → ∃ u, exec .taskStart s = .next u ∧ completes u t 1) ∧
      (good → ∃ u, exec .taskStart s = .next u ∧
        u.taskOf t.id = some { t with phase := .running, startAt := s.now, left := n, block := (List.range 4).map (blockWord l) }))) ∧
  (∀ (s s1 : State) (t : Task) (k : SavedRegion) (b : Nat) (im : Image), s.foc.sub = t.id + 1 → only s t → t.phase = .preempted →
    mapFind s.saves t.id = some k → s.place t = some b → s.schedImage t b = (s1, .ok im) →
    (∀ g, s.regionOf t.lead = some g → g.task ≠ t.id) →
    ∃ u g, exec .taskStart s = .next u ∧ u.region? b = some g ∧ g.lead = b ∧ g.task = k.region.task ∧ g.round = k.region.round ∧
      g.frozen = true ∧ u.taskOf t.id = some { t with phase := .started, lead := b, startAt := s.now }) ∧
  (∀ (s : State) (g : Region) (t : Task), s.region? s.foc.unit = some g → g.lead = s.foc.unit → s.taskOf g.task = some t → only s t →
    t.phase = .started → mapFind s.saves t.id = none →
    ((∃ j ∈ s.jobs, j.lead = g.lead) → exec .leadCoreEntry s = .next s) ∧
    ((∀ j ∈ s.jobs, j.lead ≠ g.lead) → (s.core g.lead).mode ≠ .halted → ∃ u, exec .leadCoreEntry s = .next u ∧ s.sameBytes u ∧
      u.taskOf t.id = some { t with phase := .running } ∧
      let c := u.core g.lead
      c.mode = .running ∧ c.level = 3 ∧ c.pc = Image.entry (s.slot g.lead t.core).image ∧ c.reg 1 = BitVec.ofNat 64 (recArg t.rec_) ∧
      c.reg 2 = BitVec.ofNat 64 t.id ∧ (∀ n, n ≠ 1 → n ≠ 2 → c.reg n = 0) ∧ c.bank 3 = LoopBank.reset ∧ c.trap 3 = TrapRegs.reset ∧
      c.asid = s.taskAsid t ∧ c.task = some t.id ∧ c.helper = false ∧ c.nextAt = s.now + 1)) ∧
  (∀ (s s1 s2 : State) (g : Region) (t : Task) (k : SavedRegion) (im : Image) (l : List Byte), s.region? s.foc.unit = some g →
    g.lead = s.foc.unit → s.taskOf g.task = some t → only s t → t.phase = .started → mapFind s.saves t.id = some k →
    let x := s1.part (s1.taskPart t)
    (s.now < t.startAt + s.recordCycles g k.cores.length → exec .leadCoreEntry s = .next s) ∧
    (t.startAt + s.recordCycles g k.cores.length ≤ s.now → s.schedImage t g.lead = (s1, .ok im) →
      s1.readNow (some (s1.taskPart t)) 0 (fun _ _ => false) (ptrAdd x.psave (k.region.lead * x.pstride.toNat)) k.size
        ⟨true, false, false⟩ = (s2, .ok l) →
      let fits := l = savedBytes k.saved k.size ∧ (s2.needsImage k.saved g.ranks = true → im.ident = k.saved.ident)
      (¬ fits → ∃ u, exec .leadCoreEntry s = .next u ∧ completes u t 1) ∧
      (fits → k.next = none → g.voiding = none → (k.cores.map Prod.fst).Nodup → (∀ e ∈ k.cores, (s.core (g.lead + e.1)).mode ≠ .halted) →
        ∃ u, exec .leadCoreEntry s = .next u ∧ mapFind u.saves t.id = none ∧
          u.taskOf t.id = some { t with phase := .running, save := none } ∧
          (∀ i < 2 ^ g.lgn, (u.fab (g.lead + i)).frozen = false) ∧
          ∀ e ∈ k.cores, let c := u.core (g.lead + e.1)
            c.mode = .running ∧ c.level = 3 ∧ c.pc = e.2.pc ∧ c.regs = e.2.regs ∧ c.mem = e.2.mem ∧ c.task = e.2.task ∧
            c.events = e.2.events ∧ c.trap 3 = e.2.trap 3 ∧ c.bank 3 = e.2.bank 3))) ∧
  (∀ (s : State) (t : Task), s.foc.unit = t.id → only s t →
    let kind := t.rec_.getD 0 0 / 256 % 16
    let i := Instr.engineTaskComplete
    (t.phase ≠ .running → exec i s = .next s) ∧
    (t.phase = .running →
      (kind = 1 → (s.copyTaskEnd t.id = none → exec i s = .next s) ∧
        ∀ bad, s.copyTaskEnd t.id = some bad → ∃ u, exec i s = .next u ∧ completes u t (if bad then 1 else 0)) ∧
      (kind = 2 → ((∃ x ∈ (s.scan t.core).runs, x.task = some t.id) → exec i s = .next s) ∧
        ((∀ x ∈ (s.scan t.core).runs, x.task ≠ some t.id) → ∃ u, exec i s = .next u ∧ completes u t t.status)) ∧
      (kind = 3 →
        let busy := t.left ≠ 0 ∨ (∃ m ∈ s.motions, m.task = some t.id ∧ m.inval = none) ∨ ∃ e ∈ s.agents, ∃ q ∈ e.2.queue, q.task = some t.id
        (busy → exec i s = .next s) ∧ (¬ busy → ∃ u, exec i s = .next u ∧ completes u t t.status)))) ∧
  (∀ (s : State) (t : Task), s.foc.unit = t.id → only s t → t.phase = .running → t.rec_.getD 0 0 / 256 % 16 = 4 →
    let p := s.taskPart t
    let x := s.part p
    let base := x.area.toNat
    let word (n : Nat) : Nat := (s.locRead (.dram 3 (base + 8 * n)) 8).1
    let slots := word 2
    let next := (x.cplTail + 1) % slots
    (slots = 0 ∨ next = word 5 % slots → exec .hostMessageTask s = .next s) ∧
    (slots ≠ 0 → next ≠ word 5 % slots → ∃ u u1 u2, exec .hostMessageTask s = .next u ∧ completes u t 0 ∧ u2.sameBytes u ∧
      s.storesAt u1 (.dram 3 (base + 64 + 64 * word 1 + 64 * (x.cplTail % slots))) 64
        ((List.range 7).foldr (fun j n => t.block.getD (j + 1) 0 % 2 ^ 64 * 2 ^ (64 * (j + 1)) + n) 0) ∧
      u1.storesAt u2 (.dram 3 (base + 24)) 8 next ∧
      (u.part p).cplTail = next ∧ (u.part p).msix = x.msix ++ [t.block.getD 0 0 % 32])) ∧
  (∀ (s : State) (x : Slice), x ∈ s.slices → x.base = s.foc.unit → (∀ y ∈ s.slices, y.base = x.base → y = x) →
    let block := (List.range (2 ^ x.lgn)).map (x.base + ·)
    let free := ∀ r ∈ block, s.regionOf r = none
    let isOver := x.entries ≠ [] ∧ x.endAt ≤ s.now
    let n := x.entries.length
    let y : Slice := match x.next with
      | none => { x with index := (x.index + 1) % n, endAt := x.endAt + x.quantum, waiting := true }
      | some (0, _) => { x with entries := [], index := 0, waiting := true, next := none }
      | some (q, es) => { x with quantum := q, entries := es, index := 0, endAt := x.endAt + q, waiting := true, next := none }
    let z := if isOver then y else x
    let with_ (w : Slice) : List Slice := s.slices.map fun k => if k.base = x.base then w else k
    let holder : Option Nat := match z.entries[z.index]? with
      | some e => if e < 64 then some e else none
      | none => none
    (¬ isOver → x.waiting = false → exec .quantumEnd s = .next s) ∧
    (z.waiting = true → ¬ free → exec .quantumEnd s = .next { s with slices := with_ z }) ∧
    (z.waiting = true → free → ∃ u, exec .quantumEnd s = .next u ∧ (∀ r ∈ block, (u.tile r).owner = holder) ∧
      (∀ r, r ∉ block → (u.tile r).owner = s.owner r) ∧
      (z.index < z.entries.length → u.slices = with_ { z with waiting := false }) ∧
      (z.entries = [] → u.slices = s.slices.filter fun k => decide (k.base ≠ x.base)))) ∧
  (∀ (s : State) (g : Region) (t : Task), s.region? s.foc.unit = some g → g.lead = s.foc.unit → s.taskOf g.task = some t → only s t →
    let cores := g.lead :: s.awake g
    let isOver := ∃ x ∈ s.slices, x.waiting = true ∧ ∃ r ∈ g.ranks, x.base ≤ r ∧ r < x.base + 2 ^ x.lgn
    let quiet (r : Nat) : Prop := let c := s.core r
      c.mode = .running ∧ c.level = 3 ∧ c.ih 3 = false ∧ c.ocLd = 0 ∧ c.ocSt = 0 ∧ c.ocCp = 0 ∧ c.ocTl = s.runningStreams r
    -- a core is being started, or a return reruns the round with the next cycle
    let wakes := (∃ r ∈ g.ranks, (s.core r).wake ≠ none) ∨ Later.rerun g.lead ∈ s.later
    (t.phase = .running → ¬ isOver ∨ wakes ∨ (∃ r ∈ cores, ¬ quiet r) → exec .preemption s = .next s) ∧
    (t.phase = .running → isOver → ¬ wakes → (∀ r ∈ cores, quiet r) → g.voiding = none → ∃ u, exec .preemption s = .next u ∧
      (∀ r ∈ cores, (u.core r).mode = .stopped) ∧ (∀ r ∈ g.ranks, (u.fab r).frozen = true) ∧
      u.region? g.lead = some { g with frozen := true, snapAt := 0 } ∧ u.taskOf t.id = some { t with phase := .preempted, save := none }) ∧
    (let p := s.taskPart t
     let x := s.part p
     let held := g.ranks.filter fun r => decide ((s.core r).task = some t.id)
     let k := (s.leavingRecord g held).1
     let l := (s.leavingRecord g held).2
     t.phase = .preempted → t.save = none → (∀ r ∈ g.ranks, s.tileFrozen r = true) →
      (x.psave = 0 ∨ 2 ^ g.lgn * x.pstride.toNat < l.length → ∃ u, exec .preemption s = .next u ∧ completes u t 1) ∧
      (∀ s1, x.psave ≠ 0 → l.length ≤ 2 ^ g.lgn * x.pstride.toNat →
        s.writeHeld (some p) 0 (ptrAdd x.psave (g.lead * x.pstride.toNat)) l.length false = false →
        s.bumpId.writeNow (some p) 0 (ptrAdd x.psave (g.lead * x.pstride.toNat)) l false = (s1, none) →
        ∃ u, exec .preemption s = .next u ∧ s1.sameBytes u ∧ mapFind u.saves t.id = some k ∧
          u.taskOf t.id = some { t with save := some (s.now + s.recordCycles g held.length) } ∧
          ∀ r ∈ held, ∃ e ∈ k.cores, g.lead + e.1 = r ∧ e.2 = s.core r)) ∧
    (∀ c, t.phase = .preempted → t.save = some c →
      (s.now < c → exec .preemption s = .next s) ∧
      (c ≤ s.now → ∃ u k, exec .preemption s = .next u ∧ mapFind u.regions g.lead = none ∧ u.taskOf t.id = some k ∧
        k.phase = .preempted ∧ k.save = some c)))

/-! ### Rounds -/

/-- Rounds (R282, R396 to R402, R404, R405): the first fault of a round freezes its region, and one of the same cycle whose unit comes
first takes its place; a round ends once the barriers of its read streams have drained, and a snapshot is taken where the image asks for
one; a void rewinds every generator and writes the snapshot back; the fault then goes to the lead core; the watchdog; the return from
that trap reruns the round, or ends the task.
Where the manual leaves a point open, this follows the model's choice (log entries 82, 84, 85, 86, 87, 122 and 153). -/
def Obligations.Rounds : Prop :=
  let leads (s : State) (g : Region) : Prop := s.region? g.lead = some g ∧ (∀ e ∈ s.regions, e.2.lead = g.lead → e.2 = g)
  (∀ (s : State) (g : Region) (r : Nat) (x : FabUnit) (cause : Nat) (v : DWord), s.regionOf r = some g → leads s g →
    let u := s.fabricFault r x cause v
    let new : Voiding := ⟨s.now, r * 32 + x.order, cause, v, 0, false, false, none⟩
    (g.voiding = none → u.region? g.lead = some { g with voiding := some new, frozen := true, fz := true } ∧
      ∀ k ∈ g.ranks, (u.fab k).frozen = true) ∧
    (∀ old, g.voiding = some old →
      let first := old.at_ = s.now ∧ new.key < old.key ∧ old.watchdog = false ∧ old.readyAt = 0
      u.region? g.lead = some { g with flost := if g.flost < 255 then g.flost + 1 else 255,
                                       voiding := some (if first then new else old) })) ∧
  (∀ (s : State) (g : Region) (k : Nat), s.roundDrained g k = true ↔
    let reads (t : Stream) : Prop := (∃ r ∈ g.ranks, ∃ n < 4, (s.gen r n).stream = some t) ∧ (spbDir t.spb = 0 ∨ spbDir t.spb = 3)
    (∃ t, reads t ∧ t.start ≤ k ∧ k < t.start + t.ends) ∧
    (∀ t, reads t → t.ended = false → t.killed = false → t.closed = false → k < t.start + t.ends) ∧
    ∀ src, Item.barrier src ∈ s.itemsIn g.ranks → ∀ x ∈ src, x.2.2 ≠ k + 1) ∧
  (∀ (s : State) (g : Region), s.foc.unit = g.lead → leads s g →
    let i := Instr.roundEnd
    let k := g.round
    let ready := g.frozen = false ∧ g.voiding = none ∧ s.roundDrained g k = true
    let snaps := s.snapsIn g
    let ended (u : State) : Prop :=
      (∃ h, u.region? g.lead = some h ∧ h.round = k + 1 ∧ h.unvoid = false ∧ h.moved = true ∧
        (snaps = true → h.sv = true ∧ h.snapAt = 0 ∧ h.snap = s.snapshot g ∧ h.snapCopy = 1 - g.snapCopy)) ∧
      ∀ r ∈ g.ranks, ∀ n < 4, ∀ t, (s.gen r n).stream = some t → ∃ x, (u.gen r n).stream = some x ∧
        let len := spbRound t.spb
        let total := spbTotal t.spb
        let read := spbDir t.spb = 0 ∨ spbDir t.spb = 3
        (read → t.start ≤ k → k < t.start + t.ends → t.rounds < k + 1 - t.start → x.rounds = k + 1 - t.start ∧
          x.recTok = if len = 0 then total else Nat.min ((k + 1 - t.start) * len) total) ∧
        (¬ read → t.ended = false → t.start ≤ k → x.rounds = k + 1 - t.start ∧ x.recTok = mapGet t.recTok t.marks k ∧
          ∀ h ∈ x.held, k < h.rnd)
    (¬ ready → exec i s = .next s) ∧
    (ready → snaps = false → ∃ u, exec i s = .next u ∧ ended u) ∧
    (ready → snaps = true → g.snapAt = 0 → ∃ u, exec i s = .next u ∧
      u.region? g.lead = some { g with snapAt := s.now + s.chainCycles g.ranks }) ∧
    -- the copy that is not valid is written, behind the header, and then the header
    (let k := s.snapRecord g
     let off := 4096 + (1 - g.snapCopy) * k.size
     let held := s.snapHeld g 0 4096 = true ∨ s.snapHeld g off k.size = true
     ready → snaps = true → g.snapAt ≠ 0 →
      (s.now < g.snapAt ∨ held → exec i s = .next s) ∧
      (g.snapAt ≤ s.now → ¬ held → ∃ u, exec i s = .next u ∧ ended u ∧
        ∀ s1 s2, s.bumpId.writeSnap g off (savedBytes k k.size) = (s1, none) →
          s1.bumpId.writeSnap g 0 ((List.range 4096).map (Config.saveByte s1.nextId)) = (s2, none) → s2.sameBytes u))) ∧
  (∀ (s : State) (g : Region) (v : Voiding), s.foc.unit = g.lead → leads s g → g.voiding = some v →
    let dead := ∀ r ∈ g.ranks, ∀ e ∈ (s.fab r).cells, ∀ f, e.2.firing = some f → f.dead = true
    let ready := v.watchdog = false ∧ v.told = false ∧ v.readyAt = 0 ∧ v.at_ < s.now ∧ dead
    let back := (s.snapsIn g && g.sv && !g.unvoid) = true
    (¬ ready → exec .roundVoid s = .next s) ∧
    (ready → ∃ (u : State) (h : Region), exec .roundVoid s = .next u ∧
        u.region? g.lead = some h ∧ h.voids = (if g.voids < 65535 then g.voids + 1 else 65535) ∧ h.snapAt = 0 ∧
        h.voiding = some { v with readyAt := s.now + (if back then u.chainCycles g.ranks else 0) } ∧
        (∀ r ∈ g.ranks, ∀ n < 4, ∀ t, (s.gen r n).stream = some t → ∃ x, (u.gen r n).stream = some x ∧
          (spbDir t.spb = 0 ∨ spbDir t.spb = 3 → x.tok = t.recTok ∧ x.ends = t.rounds ∧ x.stop = false ∧
            ∀ a ∈ u.accs, a.who ≠ .gen r n) ∧
          (¬ (spbDir t.spb = 0 ∨ spbDir t.spb = 3) → t.ended = false → x.tok = t.recTok ∧ x.held = [] ∧ x.stop = false)) ∧
        (back → ∀ j < 2 ^ g.lgn, ∀ k, let old := mapGet Cell.reset (mapGet Fabric.reset g.snap j).cells k
          let new := u.cell (g.lead + j) k
          new.banks = old.banks ∧ new.fifo = old.fifo ∧ new.actors = old.actors ∧ new.store = old.store ∧ new.firing = old.firing))) ∧
  (∀ (s : State) (g : Region) (v : Voiding), s.foc.unit = g.lead → leads s g → g.voiding = some v →
    let ready := v.told = false ∧ v.readyAt ≠ 0 ∧ v.readyAt ≤ s.now
    (¬ ready → exec .voidTrapDelivery s = .next s) ∧
    (ready → (s.core g.lead).events.length < 16 → ∃ u, exec .voidTrapDelivery s = .next u ∧ s.sameBytes u ∧
      u.region? g.lead = some { g with voiding := some { v with told := true } } ∧
      u.core g.lead = { s.core g.lead with
        events := (s.core g.lead).events ++ [⟨v.cause, v.tval, s.target g.lead 3 v.cause, true⟩] })) ∧
  (∀ (s : State) (g : Region), s.foc.unit = g.lead → leads s g →
    let ready := 2 ^ 24 ≤ g.wdog ∧ g.frozen = false ∧ g.voiding = none
    (¬ ready → exec .watchdogExpiry s = .next s) ∧
    (ready → (s.core g.lead).events.length < 16 → ∃ u v, exec .watchdogExpiry s = .next u ∧ s.sameBytes u ∧
      u.region? g.lead = some { g with voiding := some v, frozen := true, fz := true } ∧ v.watchdog = true ∧ v.told = true ∧
      (∀ k ∈ g.ranks, (u.fab k).frozen = true) ∧
      (u.core g.lead).events = (s.core g.lead).events ++ [⟨12, BitVec.ofNat 64 g.lead, 2, true⟩])) ∧
  (∀ (s : State) (g : Region) (v : Voiding), s.foc.unit = g.lead → leads s g → g.voiding = some v → v.told = true →
    let c := s.self
    let l := c.level
    let again := c.abort = false ∧ (v.watchdog = true ∨ (s.snapsIn g = true ∧ g.sv = true ∧ g.unvoid = false))
    -- the return itself, and the rerun in the cycle after
    (s.wordReady [] [] → l ≠ 3 → l ≤ (c.trap l).stat.toNat % 4 → v.lvl = some l →
      ∃ u, exec .tret s = .next u ∧ s.sameBytes u ∧ u.later = s.later ++ [.rerun g.lead] ∧ u.regions = s.regions ∧ u.tasks = s.tasks ∧
        u.self.pc = (c.trap l).epc.toNat ∧ u.self.level = (c.trap l).stat.toNat % 4 ∧ u.self.ih l = false) ∧
    (again → ∃ u, s.begin (.rerun g.lead) = u ∧ s.sameBytes u ∧
      u.region? g.lead = some { g with voiding := none, frozen := false, fz := false, wdog := 0 } ∧
      ∀ k ∈ g.ranks, (u.fab k).frozen = false) ∧
    (¬ again → ∃ u, s.begin (.rerun g.lead) = u ∧ mapFind u.regions g.lead = none ∧ (∀ k ∈ u.tasks, k.id ≠ g.task) ∧
      ∀ k ∈ g.ranks, (u.core k).mode = (s.core k).rest))

/-! ### The host, device reset and power -/

/-- The host and power (R259, R260, R375, R424 to R426, R428, R454): device reset sets the ranges of the CXL ports and leaves every
core stopped at operator level with zeroed registers; the boot window reads and writes the private memory of tile 0 until a write of the
boot register starts its core; the command tail, the lock and the completion head of a function; the bubble fraction of a power window and
of a hot tile.
Where the manual leaves a point open, this follows the model's choice (log entries 10, 30, 34, 103, 112 and 142). -/
def Obligations.HostAndPower : Prop :=
  (∀ (s : State) (g0 g1 g2 g3 : BitVec 15), g0.toNat + g1.toNat + g2.toNat + g3.toNat ≤ 16384 →
    ∃ (u : State), exec (.deviceReset g0 g1 g2 g3) s = .next u ∧ u.booted = false ∧ u.dram = s.dram ∧ u.hostGib = s.hostGib ∧ u.regions = [] ∧ u.tasks = [] ∧
      u.unitTlb = [] ∧ u.accs = [] ∧
      (∀ p < 4, mapGet 0 u.cxlen p = [g0.toNat, g1.toNat, g2.toNat, g3.toNat].getD p 0) ∧
      (∀ p < 64, (u.part p).live = false) ∧
      ∀ r < 512, u.owner r = none ∧ let c := u.core r
        c.mode = .stopped ∧ c.level = 0 ∧ c.pc = 0 ∧ (∀ n, c.reg n = 0) ∧ (∀ a, mapGet 0 c.mem a = 0) ∧ c.ocLd = 0 ∧ c.ocSt = 0 ∧
        c.ocCp = 0 ∧ c.ocTl = 0 ∧ ∀ l < 4, c.bank l = LoopBank.reset ∧ c.trap l = TrapRegs.reset ∧ (c.trap l).pbound = 0) ∧
  (∀ (s : State) (off : BitVec 18) (b : Byte),
    (s.booted = true → exec (.bootWindowAccess true off b) s = .next s ∧
      exec (.bootWindowAccess false off b) s = .next { s with hostRead := BitVec.allOnes 8 }) ∧
    (s.booted = false →
      (∃ (u : State), exec (.bootWindowAccess true off b) s = .next u ∧ s.storesAt u (.priv 0 off.toNat) 1 b.toNat) ∧
      exec (.bootWindowAccess false off b) s = .next { s with hostRead := mapGet 0 (s.core 0).mem off.toNat })) ∧
  (∀ (s : State) (v : DWord),
    (s.booted = true ∨ v.getLsbD 0 = false → exec (.bootRegisterWrite v) s = .next s) ∧
    (s.booted = false → v.getLsbD 0 = true → ∃ (u : State), exec (.bootRegisterWrite v) s = .next u ∧ u.booted = true ∧ s.sameBytes u ∧
      ((s.core 0).mode ≠ .halted → u.core 0 = { s.core 0 with
        mode := .running, level := 0, pc := 0, stall := none, nextAt := s.now + 1, acct := (s.core 0).acct.enter 0 (s.now + 1) }) ∧
      ∀ r, r ≠ 0 → u.core r = s.core r)) ∧
  (∀ (s : State) (rest : List Turn) (gib : Nat),
    (s.turns = .bootRead :: rest → step s = .next { s with turns := rest, hostRead := if s.booted = true then 1 else 0 }) ∧
    (∀ p off, s.turns = .pageRead p off :: rest → (s.part p).live = true →
      (off < 8 → step s = .next { s with turns := rest }) ∧
      ∀ i < 8, step { s with turns := .pageRead p (16 + i) :: rest } =
          .next { s with turns := rest, hostRead := [1, 1, 1, 1, 1, 2, 1, 0].getD i 0 } ∧
        step { s with turns := .pageRead p (24 + i) :: rest } =
          .next { s with turns := rest, hostRead := (s.part p).area.extractLsb' (8 * i) 8 }) ∧
    (s.turns = .hostSize gib :: rest → (∀ e ∈ s.parts, e.2.extents = []) → step s = .next { s with turns := rest, hostGib := gib })) ∧
  (∀ (s : State) (w : BitVec 32) (b : Bool), let p := s.foc.unit
    let x := s.part p
    (x.live = false → exec (.commandTailWrite w) s = .next s ∧ exec (.tdispLock b) s = .next s ∧
      exec (.completionHeadAdvance w) s = .next s) ∧
    (x.live = true →
      (∃ (u : State), exec (.commandTailWrite w) s = .next u ∧ s.sameBytes u ∧ u.part p = { x with hdb := w.toNat } ∧
        ∀ q, q ≠ p → u.part q = s.part q) ∧
      (∃ (u : State), exec (.tdispLock b) s = .next u ∧ s.sameBytes u ∧ u.part p = { x with locked := b } ∧
        ∀ q, q ≠ p → u.part q = s.part q) ∧
      ∃ (u : State), exec (.completionHeadAdvance w) s = .next u ∧ s.storesAt u (hostLoc (x.area.toNat + 40)) 8 w.toNat)) ∧
  (∀ (s : State),
    (s.now < 4096 * (s.window + 1) → exec .powerWindow s = .next s) ∧
    (4096 * (s.window + 1) ≤ s.now → ∃ (u : State), exec .powerWindow s = .next u ∧ u.window = s.window + 1 ∧ s.sameBytes u ∧
      ((s.bubble < 63 → u.bubble = s.bubble + 1) ∧ (63 ≤ s.bubble → u.bubble = 63) ∨ u.bubble = s.bubble - 1))) ∧
  (∀ (s : State), let r := s.foc.unit
    let t := (Config.healthReading 0 r s.window).toInt
    (r < 512 → 8 * 105 ≤ t → ∃ (u : State), exec .thermalLimit s = .next u ∧ r ∈ u.hot ∧ 32 ≤ u.bubbleOf r ∧
      (∀ k, k ≠ r → (k ∈ u.hot ↔ k ∈ s.hot)) ∧ u.bubble = s.bubble ∧ s.sameBytes u) ∧
    (t < 8 * 105 → exec .thermalLimit s = .next s) ∧
    (t < 8 * 100 → ∃ (u : State), exec .temperatureFall s = .next u ∧ r ∉ u.hot ∧ u.bubbleOf r = s.bubble ∧
      (∀ k, k ≠ r → (k ∈ u.hot ↔ k ∈ s.hot)) ∧ s.sameBytes u) ∧
    (8 * 100 ≤ t → exec .temperatureFall s = .next s))

/-! ### The step, the words and reset -/

/-- A step runs the decoded instruction (R60, R82, R96, R150, R246, R257, R260, R394). The turn of a core delivers a held event that its
level can take, and else runs the word at its pc, or raises cause 1 below the bound and cause 13 on an uncorrectable word; a core that idles
runs none. The turn of a cell runs the word of its firing, that of a router one of its switch words, and an event runs itself. An access to
a memory tile is made only in its place in the order of the cycle: accesses that wait come first, then those of the cells, then those of
port E. Where State plans no turn, the outside world brings the next one; the fabric clock goes on by one cycle.
Where the manual leaves a point open, this follows the model's choice (log entries 2, 3, 121 and 122). -/
def Obligations.StepRunsTheDecodedInstruction : Prop :=
  -- a turn that makes an access in its place, if it makes one
  let inPlace (s0 : State) (f : Focus) (i : Instr) (access : Option (Nat × Nat × Nat)) (s : State) : Prop :=
    (access = none → step s = exec i { s0 with foc := f }) ∧
    ∀ r q place, access = some (r, q, place) →
      (s0.portFree r q place = true → step s = exec i { s0.takePort r q place with foc := f }) ∧
      (s0.portFree r q place = false → step s = .next s0)
  (∀ (s : State) (rest : List Turn) (r : Nat), s.turns = .core r :: rest → r < 512 →
    let c := s.core r
    let s0 : State := { s with turns := rest }
    let at_ : State := { s0 with foc := ⟨r, 0, 0⟩ }
    let w := BitVec.ofNat 32 (readVal c.mem c.pc 4)
    let bound := (c.trap c.level).pbound.toNat
    (c.mode ≠ .running ∨ s.now < c.nextAt → step s = .next s0) ∧
    (c.mode = .running → c.nextAt ≤ s.now → (∃ e ∈ c.events, c.canTake e = true) → step s = exec .eventDelivery at_) ∧
    (c.mode = .running → c.nextAt ≤ s.now → (∀ e ∈ c.events, c.canTake e = false) →
      (c.stall = some .idle → step s = .next s0) ∧
      (c.stall ≠ some .idle → c.pc < bound → step s = .next (at_.trapped at_ 1 (BitVec.ofNat 64 c.pc))) ∧
      (c.stall ≠ some .idle → bound ≤ c.pc → c.pc / 4 ∈ c.poisoned → step s = .next (at_.trapped at_ 13 (BitVec.ofNat 64 c.pc))) ∧
      (c.stall ≠ some .idle → bound ≤ c.pc → c.pc / 4 ∉ c.poisoned →
        let place := if c.stall = some (.latch []) then 16 else 49
        (∀ i, decodeControl w = .ok i → inPlace s0 ⟨r, 0, 0⟩ i ((s.coreTile r).map fun q => (r, q, place)) s) ∧
        (∀ e, decodeControl w = .error e → step s = exec (.illegalInstruction w) at_)))) ∧
  (∀ (s : State) (rest : List Turn) (r k : Nat) (f : Firing) (i : Instr), s.turns = .cell r k :: rest → r < 512 → k < 16 →
    (s.cell r k).firing = some f →
    let s0 : State := { s with turns := rest }
    let w := mapGet 0 (s.cell r k).store f.pc
    (s.now < f.nextAt ∨ f.dead = true → step s = .next s0) ∧
    (f.nextAt ≤ s.now → f.dead = false → decodeOperation w = .ok i →
      inPlace s0 ⟨r, k, 0⟩ i ((wordTile w).map fun q => (r, q, if f.waiting = true ∧ wordWaits w = true then k else 32 + k)) s)) ∧
  (∀ (s : State) (rest : List Turn) (r k : Nat) (w : Half) (i : Instr), s.turns = .router r k :: rest → r < 512 → k < 16 →
    (s.router r).words[k]? = some w → decodeSwitch w = .ok i → step s = exec i { s with turns := rest, foc := ⟨r, k, 0⟩ }) ∧
  (∀ (s : State) (rest : List Turn) (f : Focus) (i : Instr), s.turns = .event f i :: rest → isTurnEvent i = true →
    let s0 : State := { s with turns := rest }
    (s0.mayTurn f i = true → inPlace s0 f i (s0.eventPlace f i) s) ∧ (s0.mayTurn f i = false → step s = .next s0) ∧
    (i ≠ .scanMemoryTransfer → s0.mayTurn f i = true)) ∧
  -- the order of R150
  (∀ (s : State) (r q a b : Nat), ((s.takePort r q a).portFree r q b = true → a ≤ b) ∧
    (a ∈ s.dueWaiters r q → a < b → s.portFree r q b = false) ∧
    (s.dueWaiters r q = [] → (mapGet (0, 0) s.ports (2 * r + q)).1 ≠ s.now → s.portFree r q b = true)) ∧
  (∀ (s : State), s.turns = [] → step s = step { s with turns := [Config.nextTurn s.draws], draws := s.draws + 1 }) ∧
  -- the clock
  (∀ (s : State) (rest : List Turn), s.turns = .tick :: rest → ∃ u, step s = .next u ∧ u.now = s.now + 1 ∧
    ((∀ e ∈ s.later, (∀ q a, e ≠ .request q a) ∧ (∀ p k, e ≠ .revoke p k) ∧ (∀ b, e ≠ .slice b) ∧ ∀ r, e ≠ .rerun r) →
      (∀ m ∈ s.motions, m.failed = false ∧ s.lostLine m.dstTier (m.dst * 65536) = false) → s.sameBytes u))

/-- The decoder reads the words that the specification works out (R8, R10, R29 to R34, R60, R65, R76, R82), and refuses the ones it
calls illegal (R66, R85). -/
def Obligations.DecodesTheSpecsWords : Prop :=
  (∀ e ∈ ([(0x0CA50001, .addi 5 5 1), (0x34A6FFFF, .brNe 5 6 0xFFFF), (0x50020003, .loop 0 0 8 3), (0x60C4C000, .st 6 4 3 0 0),
      (0x73C3FC00, .wait 15 0 15 15), (0x28801234, .lui 4 0x1234), (0x3843FFFB, .brLt 2 3 0xFFFB), (0x4BE00064, .jmpl 31 100),
      (0x9C608000, .sysr 3 0x800), (0x68A63C80, .amoAdd 5 6 7 1 0 1), (0x84060004, .tsig 6), (0x9C000005, .nop)] : List (Word × Instr)),
    decodeControl e.1 = .ok e.2) ∧
  (∀ e ∈ ([(0x90200000, .recv 1 0 0 0 0 0), (0x04400800, .fadd 2 0 1 0 0), (0x94480000, .send 2 8 0 0 0 0), (0xB0000000, .fend),
      (0x5F390010, .iaddi 25 25 1 0), (0xA845FF40, .br 1 5 0x3FD), (0xAC040080, .cloop 0 4 2 0), (0x64414400, .cvt 2 1 1 0 1 0),
      (0x68611C01, .pack 3 1 0 3 2 1), (0x76888001, .dqenc 20 8 16 0 1), (0xD4160000, .mwsw)] : List (Word × Instr)),
    decodeOperation e.1 = .ok e.2) ∧
  (∀ e ∈ ([(0x1404, .route 4 0x04), (0x2322, .split 3 0x22), (0x7108, .hold 1 8), (0x3304, .merge 3 0 4), (0x501E, .turn 0 1 1 6)]
      : List (Half × Instr)), decodeSwitch e.1 = .ok e.2) ∧
  (∀ w ∈ ([0x00000000, 0xA0000000, 0x04000015, 0x84260004, 0x1C0000C0, 0x5822E000, 0x73C3FC01] : List Word),
    ∃ e, decodeControl w = .error e) ∧
  (∀ w ∈ ([0x04400830, 0x04400804, 0xF8000000, 0x901A0000] : List Word), ∃ e, decodeOperation w = .error e) ∧
  (∀ w ∈ ([0x8000, 0x1405] : List Half), ∃ e, decodeSwitch w = .error e)

/-- Encoding and decoding agree (R60, R65, R66, R76, R82): every instruction that the tables admit is what its word decodes to, in each of
the three stores, and every word that decodes is the word of what it decodes to, so no two words mean the same. -/
def Obligations.EncodingRoundTrip : Prop :=
  (∀ (i : Instr), wellFormed i = true →
    (wordKind i = .control → decodeControl (BitVec.ofNat 32 (encode i)) = .ok i) ∧
    (wordKind i = .operation → decodeOperation (BitVec.ofNat 32 (encode i)) = .ok i) ∧
    (wordKind i = .switch → decodeSwitch (BitVec.ofNat 16 (encode i)) = .ok i)) ∧
  (∀ (w : Word) (i : Instr),
    (decodeControl w = .ok i → encode i = w.toNat ∧ wellFormed i = true ∧ wordKind i = .control) ∧
    (decodeOperation w = .ok i → encode i = w.toNat ∧ wellFormed i = true ∧ wordKind i = .operation)) ∧
  (∀ (w : Half) (i : Instr), decodeSwitch w = .ok i → encode i = w.toNat ∧ wellFormed i = true ∧ wordKind i = .switch)

/-- After device reset (R259): every core is stopped at operator level at pc 0 with zeroed registers, banks, counters, private memory
and trap registers; no tile has an owner, no region runs, every loop count and hold is clear; memory lists nothing. The values of
memory and of the registers without a stated reset value are the model's choice (log entries 7 and 13). -/
def Obligations.ResetState : Prop :=
  let s := State.reset
  Memory.wf s.dram = true ∧ s.now = 0 ∧ s.booted = false ∧ s.tasks = [] ∧ s.regions = [] ∧ s.accs = [] ∧ s.plim = 2400 ∧
  (∀ l, s.byteAt l = 0) ∧
  ∀ r, s.owner r = none ∧
    let c := s.core r
    c.mode = .stopped ∧ c.level = 0 ∧ c.pc = 0 ∧ (∀ n, c.reg n = 0) ∧ (∀ l, c.bank l = LoopBank.reset ∧ c.trap l = TrapRegs.reset) ∧
    (∀ l k, (c.bank l).count k = 0) ∧ (∀ l, c.ih l = false ∧ (c.trap l).pbound = 0 ∧ (c.trap l).vec = 0 ∧ (c.trap l).epc = 0) ∧
    c.ocLd = 0 ∧ c.ocSt = 0 ∧ c.ocCp = 0 ∧ c.ocTl = 0 ∧ c.events = [] ∧ c.poisoned = []

/-- An invariant of the memory outside the compute dies, under every step: its bytes stay in the one canonical form, addresses strictly
rising and no byte listed that holds what an unlisted one reads as (log entry 7). -/
def Obligations.StepsKeepMemoryCanonical : Prop :=
  ∀ (s t : State), Memory.wf s.dram = true → step s = .next t → Memory.wf t.dram = true
end

