-- ==== Sys2Proof/Laws/Maps.lean ====
section
/-!
SUPPORT. Laws of the finite maps: reading after writing, and reading elsewhere.
-/

namespace Sys2Proof.Machine

variable {V : Type}

theorem mapFind_mapSet_same (m : NMap V) (k : Nat) (v : V) : mapFind (mapSet m k v) k = some v := by
  induction m with
  | nil => simp [mapSet, mapFind]
  | cons e rest ih =>
    obtain ⟨k', v'⟩ := e
    simp only [mapSet]
    split
    · simp [mapFind]
    · rename_i h1
      split
      · simp [mapFind]
      · simp [mapFind, Ne.symm h1, ih]

theorem mapFind_mapSet_ne (m : NMap V) {j k : Nat} (v : V) (h : j ≠ k) : mapFind (mapSet m k v) j = mapFind m j := by
  induction m with
  | nil => simp [mapSet, mapFind, Ne.symm h]
  | cons e rest ih =>
    obtain ⟨k', v'⟩ := e
    simp only [mapSet]
    split
    · rename_i hk
      subst hk
      simp [mapFind, Ne.symm h]
    · split
      · simp [mapFind, Ne.symm h]
      · simp [mapFind, ih]

@[simp] theorem mapGet_mapSet_same (d : V) (m : NMap V) (k : Nat) (v : V) : mapGet d (mapSet m k v) k = v := by
  simp [mapGet, mapFind_mapSet_same]

theorem mapGet_mapSet_ne (d : V) (m : NMap V) {j k : Nat} (v : V) (h : j ≠ k) :
    mapGet d (mapSet m k v) j = mapGet d m j := by
  simp [mapGet, mapFind_mapSet_ne m v h]

@[simp] theorem mapGet_mapMod_same (d : V) (m : NMap V) (k : Nat) (f : V → V) :
    mapGet d (mapMod d m k f) k = f (mapGet d m k) := by
  simp [mapMod]

theorem mapGet_mapMod_ne (d : V) (m : NMap V) {j k : Nat} (f : V → V) (h : j ≠ k) :
    mapGet d (mapMod d m k f) j = mapGet d m j := by
  simp [mapMod, mapGet_mapSet_ne d m _ h]

@[simp] theorem mapGet_nil (d : V) (k : Nat) : mapGet d [] k = d := rfl

@[simp] theorem mapSet_mapSet_same (m : NMap V) (k : Nat) (v w : V) : mapSet (mapSet m k v) k w = mapSet m k w := by
  induction m with
  | nil => simp [mapSet]
  | cons e rest ih =>
    obtain ⟨k', v'⟩ := e
    simp only [mapSet]
    split
    · simp [mapSet]
    · split
      · simp [mapSet]
      · rename_i h1 h2
        simp [mapSet, h1, h2, ih]

/-- Keys strictly rising. -/
def Sorted (m : NMap V) : Prop := (m.map Prod.fst).Pairwise (· < ·)

theorem Sorted.tail {e : Nat × V} {m : NMap V} (h : Sorted (e :: m)) : Sorted m := by
  unfold Sorted at *
  simp only [List.map_cons, List.pairwise_cons] at h
  exact h.2

theorem Sorted.head {e : Nat × V} {m : NMap V} (h : Sorted (e :: m)) : ∀ x ∈ m, e.1 < x.1 := by
  unfold Sorted at h
  simp only [List.map_cons, List.pairwise_cons] at h
  intro x hx
  exact h.1 x.1 (List.mem_map_of_mem hx)

theorem mem_mapSet {m : NMap V} {k : Nat} {v : V} {x : Nat × V} (h : x ∈ mapSet m k v) : x = (k, v) ∨ x ∈ m := by
  induction m with
  | nil => simp [mapSet] at h; exact .inl h
  | cons e rest ih =>
    obtain ⟨k', v'⟩ := e
    simp only [mapSet] at h
    split at h
    · rcases List.mem_cons.1 h with h | h
      · exact .inl h
      · exact .inr (List.mem_cons_of_mem _ h)
    · split at h
      · rcases List.mem_cons.1 h with h | h
        · exact .inl h
        · exact .inr h
      · rcases List.mem_cons.1 h with h | h
        · exact .inr (h ▸ List.mem_cons_self)
        · exact (ih h).imp id (List.mem_cons_of_mem _)

theorem mem_mapDel {m : NMap V} {k : Nat} {x : Nat × V} (h : x ∈ mapDel m k) : x ∈ m := (List.mem_filter.1 h).1

theorem Sorted.cons {e : Nat × V} {m : NMap V} (h : Sorted m) (h' : ∀ x ∈ m, e.1 < x.1) : Sorted (e :: m) := by
  unfold Sorted at *
  simp only [List.map_cons, List.pairwise_cons]
  refine ⟨?_, h⟩
  intro a ha
  obtain ⟨x, hx, rfl⟩ := List.mem_map.1 ha
  exact h' x hx

theorem Sorted.mapSet {m : NMap V} (h : Sorted m) (k : Nat) (v : V) : Sorted (mapSet m k v) := by
  induction m with
  | nil => simp [Machine.mapSet, Sorted]
  | cons e rest ih =>
    obtain ⟨k', v'⟩ := e
    simp only [Machine.mapSet]
    split
    · rename_i hk
      subst hk
      exact h.tail.cons h.head
    · split
      · rename_i h1 h2
        refine h.cons ?_
        intro x hx
        rcases List.mem_cons.1 hx with rfl | hx
        · exact h2
        · exact Nat.lt_trans h2 (h.head x hx)
      · rename_i h1 h2
        refine (ih h.tail).cons ?_
        intro x hx
        rcases mem_mapSet hx with rfl | hx
        · show k' < k
          omega
        · exact h.head x hx

theorem Sorted.filter {m : NMap V} (h : Sorted m) (p : Nat × V → Bool) : Sorted (m.filter p) := by
  unfold Sorted at *
  exact h.sublist (List.filter_sublist.map _)

theorem Sorted.mapDel {m : NMap V} (h : Sorted m) (k : Nat) : Sorted (mapDel m k) := h.filter _

theorem mapFind_filter (m : NMap V) (p : Nat → Bool) (k : Nat) :
    mapFind (m.filter fun e => p e.1) k = if p k then mapFind m k else none := by
  induction m with
  | nil => simp [mapFind]
  | cons e rest ih =>
    obtain ⟨k', v'⟩ := e
    simp only [List.filter_cons]
    by_cases hk : k' = k
    · subst hk
      cases hp : p k' with
      | true => simp [mapFind]
      | false => simp [ih, hp]
    · cases hp : p k' with
      | true => simp [mapFind, hk, ih]
      | false => simp [mapFind, hk, ih]

theorem mapFind_mapDel_same (m : NMap V) (k : Nat) : mapFind (mapDel m k) k = none := by
  rw [mapDel, mapFind_filter m (fun j => decide (j ≠ k)) k]
  simp

theorem mapFind_mapDel_ne (m : NMap V) {j k : Nat} (hj : j ≠ k) : mapFind (mapDel m k) j = mapFind m j := by
  rw [mapDel, mapFind_filter m (fun i => decide (i ≠ k)) j]
  simp [hj]

theorem Sorted.mapPut [DecidableEq V] {m : NMap V} (h : Sorted m) (d : V) (k : Nat) (v : V) : Sorted (mapPut d m k v) := by
  unfold Machine.mapPut
  split
  · exact h.mapDel k
  · exact h.mapSet k v

theorem mapGet_mapPut_same [DecidableEq V] (m : NMap V) (d : V) (k : Nat) (v : V) : mapGet d (mapPut d m k v) k = v := by
  unfold mapPut
  split
  · rename_i hv
    simp [mapGet, mapFind_mapDel_same, hv]
  · exact mapGet_mapSet_same d m k v

theorem mapGet_mapPut_ne [DecidableEq V] (m : NMap V) (d : V) {j k : Nat} (v : V) (hj : j ≠ k) :
    mapGet d (mapPut d m k v) j = mapGet d m j := by
  unfold mapPut
  split
  · simp [mapGet, mapFind_mapDel_ne m hj]
  · exact mapGet_mapSet_ne d m v hj

end Sys2Proof.Machine
end

