-- ==== Sys2Proof/Laws/Memory.lean ====
section
/-!
SUPPORT. Memory in canonical form: every operation on memory keeps it, reset has it, and what each operation reads back.
-/

namespace Sys2Proof.Machine

theorem Memory.wf_iff (m : Memory) : Memory.wf m = true ↔ Sorted m ∧ ∀ e ∈ m, e.2 ≠ 0 := by
  simp [Memory.wf, Sorted, List.all_eq_true]

theorem Memory.wf_nil : Memory.wf [] = true := rfl

theorem Memory.wf_mapPut {m : Memory} (h : Memory.wf m = true) (a : Nat) (b : Byte) : Memory.wf (mapPut 0 m a b) = true := by
  rw [Memory.wf_iff] at *
  refine ⟨h.1.mapPut 0 a b, ?_⟩
  intro e he
  unfold mapPut at he
  split at he
  · exact h.2 e (mem_mapDel he)
  · rename_i hb
    rcases mem_mapSet he with rfl | he
    · exact hb
    · exact h.2 e he

theorem Memory.wf_writeBytes {m : Memory} (h : Memory.wf m = true) (a : Nat) (l : List Byte) :
    Memory.wf (writeBytes m a l) = true := by
  induction l generalizing m a with
  | nil => exact h
  | cons b bs ih => exact ih (Memory.wf_mapPut h a b) (a + 1)

theorem Memory.wf_writeVal {m : Memory} (h : Memory.wf m = true) (a n v : Nat) : Memory.wf (writeVal m a n v) = true :=
  Memory.wf_writeBytes h a _

theorem Memory.wf_clearBytes {m : Memory} (h : Memory.wf m = true) (a n : Nat) : Memory.wf (clearBytes m a n) = true := by
  rw [Memory.wf_iff] at *
  exact ⟨h.1.filter _, fun e he => h.2 e ((List.mem_filter.1 he).1)⟩

theorem mapGet_writeBytes_outside (m : Memory) (a : Nat) (l : List Byte) {x : Nat} (hx : x < a ∨ a + l.length ≤ x) :
    mapGet 0 (writeBytes m a l) x = mapGet 0 m x := by
  induction l generalizing m a with
  | nil => rfl
  | cons b bs ih =>
    simp only [List.length_cons] at hx
    rw [writeBytes, ih _ (a + 1) (by omega), mapGet_mapPut_ne m 0 b (by omega)]

theorem mapGet_writeBytes_inside (m : Memory) (a : Nat) (l : List Byte) {i : Nat} (hi : i < l.length) :
    mapGet 0 (writeBytes m a l) (a + i) = l[i] := by
  induction l generalizing m a i with
  | nil => simp at hi
  | cons b bs ih =>
    cases i with
    | zero =>
      rw [writeBytes, mapGet_writeBytes_outside _ (a + 1) bs (.inl (by omega))]
      exact mapGet_mapPut_same m 0 a b
    | succ j =>
      simp only [List.length_cons] at hi
      have e : a + (j + 1) = a + 1 + j := by omega
      rw [writeBytes, e, ih _ (a + 1) (by omega)]
      rfl

theorem leBytes_length (n v : Nat) : (leBytes n v).length = n := by
  induction n generalizing v with
  | zero => rfl
  | succ n ih => simp [leBytes, ih]

theorem leBytes_getElem (n v : Nat) {i : Nat} (hi : i < (leBytes n v).length) :
    (leBytes n v)[i] = BitVec.ofNat 8 (v / 256 ^ i) := by
  induction n generalizing v i with
  | zero => simp [leBytes] at hi
  | succ n ih =>
    cases i with
    | zero => simp [leBytes]
    | succ j => simp [leBytes, ih, Nat.div_div_eq_div_mul, Nat.pow_succ, Nat.mul_comm]

theorem readBytes_writeBytes (m : Memory) (a : Nat) (l : List Byte) : readBytes (writeBytes m a l) a l.length = l := by
  apply List.ext_getElem
  · simp [readBytes]
  · intro i h1 h2
    simp only [readBytes, List.getElem_map, List.getElem_range]
    exact mapGet_writeBytes_inside m a l h2

theorem leValue_leBytes (n v : Nat) : leValue (leBytes n v) = v % 256 ^ n := by
  induction n generalizing v with
  | zero => simp [leBytes, leValue, Nat.mod_one]
  | succ n ih =>
    simp only [leBytes, leValue, ih, BitVec.toNat_ofNat]
    have h : v % 256 ^ (n + 1) = v % 256 + 256 * (v / 256 % 256 ^ n) := by
      rw [Nat.pow_succ, Nat.mul_comm (256 ^ n) 256, Nat.mod_mul]
    omega

theorem readVal_writeVal (m : Memory) (a n v : Nat) : readVal (writeVal m a n v) a n = v % 256 ^ n := by
  have hl := leBytes_length n v
  have hr := readBytes_writeBytes m a (leBytes n v)
  rw [hl] at hr
  rw [readVal, writeVal, hr, leValue_leBytes]

/-- What every byte reads as after a value is stored: its own byte of the value, or what it read as before. -/
theorem mapGet_writeVal (m : Memory) (a n v x : Nat) :
    mapGet 0 (writeVal m a n v) x = if a ≤ x ∧ x < a + n then BitVec.ofNat 8 (v / 256 ^ (x - a)) else mapGet 0 m x := by
  split
  · rename_i h
    have hi : x - a < (leBytes n v).length := by rw [leBytes_length]; omega
    have e : x = a + (x - a) := by omega
    rw [writeVal, e, mapGet_writeBytes_inside m a _ hi, leBytes_getElem]
    simp
  · rename_i h
    exact mapGet_writeBytes_outside m a _ (by rw [leBytes_length]; omega)

theorem mapGet_clearBytes (m : Memory) (a n x : Nat) :
    mapGet 0 (clearBytes m a n) x = if x < a ∨ a + n ≤ x then mapGet 0 m x else 0 := by
  have hf := mapFind_filter m (fun k => decide (k < a ∨ a + n ≤ k)) x
  unfold clearBytes mapGet
  rw [hf]
  by_cases hx : x < a ∨ a + n ≤ x <;> simp [hx]

theorem reset_memory_wf : Memory.wf State.reset.dram = true := rfl

end Sys2Proof.Machine
end

