-- ==== Sys2Proof/Laws/State.lean ====
section
/-!
SUPPORT. One law for each field under each update of the state: what the update leaves alone, what it changes, and how the views
of a tile, a core, a register and a unit read after it.
-/

namespace Sys2Proof.Machine

/-! ### modTile -/

@[simp] theorem State.modTile_foc (s : State) (r : Nat) (f : Tile → Tile) : (s.modTile r f).foc = s.foc := rfl
@[simp] theorem State.modTile_turns (s : State) (r : Nat) (f : Tile → Tile) : (s.modTile r f).turns = s.turns := rfl
@[simp] theorem State.modTile_draws (s : State) (r : Nat) (f : Tile → Tile) : (s.modTile r f).draws = s.draws := rfl
@[simp] theorem State.modTile_now (s : State) (r : Nat) (f : Tile → Tile) : (s.modTile r f).now = s.now := rfl
@[simp] theorem State.modTile_nextId (s : State) (r : Nat) (f : Tile → Tile) : (s.modTile r f).nextId = s.nextId := rfl
@[simp] theorem State.modTile_later (s : State) (r : Nat) (f : Tile → Tile) : (s.modTile r f).later = s.later := rfl
@[simp] theorem State.modTile_ports (s : State) (r : Nat) (f : Tile → Tile) : (s.modTile r f).ports = s.ports := rfl
@[simp] theorem State.modTile_parts (s : State) (r : Nat) (f : Tile → Tile) : (s.modTile r f).parts = s.parts := rfl
@[simp] theorem State.modTile_subps (s : State) (r : Nat) (f : Tile → Tile) : (s.modTile r f).subps = s.subps := rfl
@[simp] theorem State.modTile_asids (s : State) (r : Nat) (f : Tile → Tile) : (s.modTile r f).asids = s.asids := rfl
@[simp] theorem State.modTile_queues (s : State) (r : Nat) (f : Tile → Tile) : (s.modTile r f).queues = s.queues := rfl
@[simp] theorem State.modTile_tasks (s : State) (r : Nat) (f : Tile → Tile) : (s.modTile r f).tasks = s.tasks := rfl
@[simp] theorem State.modTile_saves (s : State) (r : Nat) (f : Tile → Tile) : (s.modTile r f).saves = s.saves := rfl
@[simp] theorem State.modTile_slices (s : State) (r : Nat) (f : Tile → Tile) : (s.modTile r f).slices = s.slices := rfl
@[simp] theorem State.modTile_regions (s : State) (r : Nat) (f : Tile → Tile) : (s.modTile r f).regions = s.regions := rfl
@[simp] theorem State.modTile_jobs (s : State) (r : Nat) (f : Tile → Tile) : (s.modTile r f).jobs = s.jobs := rfl
@[simp] theorem State.modTile_cfgJoin (s : State) (r : Nat) (f : Tile → Tile) : (s.modTile r f).cfgJoin = s.cfgJoin := rfl
@[simp] theorem State.modTile_saved (s : State) (r : Nat) (f : Tile → Tile) : (s.modTile r f).saved = s.saved := rfl
@[simp] theorem State.modTile_spliced (s : State) (r : Nat) (f : Tile → Tile) : (s.modTile r f).spliced = s.spliced := rfl
@[simp] theorem State.modTile_pool (s : State) (r : Nat) (f : Tile → Tile) : (s.modTile r f).pool = s.pool := rfl
@[simp] theorem State.modTile_startedAt (s : State) (r : Nat) (f : Tile → Tile) : (s.modTile r f).startedAt = s.startedAt := rfl
@[simp] theorem State.modTile_dones (s : State) (r : Nat) (f : Tile → Tile) : (s.modTile r f).dones = s.dones := rfl
@[simp] theorem State.modTile_schedPtr (s : State) (r : Nat) (f : Tile → Tile) : (s.modTile r f).schedPtr = s.schedPtr := rfl
@[simp] theorem State.modTile_schedCr (s : State) (r : Nat) (f : Tile → Tile) : (s.modTile r f).schedCr = s.schedCr := rfl
@[simp] theorem State.modTile_hazards (s : State) (r : Nat) (f : Tile → Tile) : (s.modTile r f).hazards = s.hazards := rfl
@[simp] theorem State.modTile_lanes (s : State) (r : Nat) (f : Tile → Tile) : (s.modTile r f).lanes = s.lanes := rfl
@[simp] theorem State.modTile_wires (s : State) (r : Nat) (f : Tile → Tile) : (s.modTile r f).wires = s.wires := rfl
@[simp] theorem State.modTile_dram (s : State) (r : Nat) (f : Tile → Tile) : (s.modTile r f).dram = s.dram := rfl
@[simp] theorem State.modTile_badLines (s : State) (r : Nat) (f : Tile → Tile) : (s.modTile r f).badLines = s.badLines := rfl
@[simp] theorem State.modTile_banks (s : State) (r : Nat) (f : Tile → Tile) : (s.modTile r f).banks = s.banks := rfl
@[simp] theorem State.modTile_windowed (s : State) (r : Nat) (f : Tile → Tile) : (s.modTile r f).windowed = s.windowed := rfl
@[simp] theorem State.modTile_copies (s : State) (r : Nat) (f : Tile → Tile) : (s.modTile r f).copies = s.copies := rfl
@[simp] theorem State.modTile_accs (s : State) (r : Nat) (f : Tile → Tile) : (s.modTile r f).accs = s.accs := rfl
@[simp] theorem State.modTile_unitTlb (s : State) (r : Nat) (f : Tile → Tile) : (s.modTile r f).unitTlb = s.unitTlb := rfl
@[simp] theorem State.modTile_schedTlb (s : State) (r : Nat) (f : Tile → Tile) : (s.modTile r f).schedTlb = s.schedTlb := rfl
@[simp] theorem State.modTile_brTlb (s : State) (r : Nat) (f : Tile → Tile) : (s.modTile r f).brTlb = s.brTlb := rfl
@[simp] theorem State.modTile_dieTlb (s : State) (r : Nat) (f : Tile → Tile) : (s.modTile r f).dieTlb = s.dieTlb := rfl
@[simp] theorem State.modTile_walks (s : State) (r : Nat) (f : Tile → Tile) : (s.modTile r f).walks = s.walks := rfl
@[simp] theorem State.modTile_wfaults (s : State) (r : Nat) (f : Tile → Tile) : (s.modTile r f).wfaults = s.wfaults := rfl
@[simp] theorem State.modTile_motions (s : State) (r : Nat) (f : Tile → Tile) : (s.modTile r f).motions = s.motions := rfl
@[simp] theorem State.modTile_agents (s : State) (r : Nat) (f : Tile → Tile) : (s.modTile r f).agents = s.agents := rfl
@[simp] theorem State.modTile_engines (s : State) (r : Nat) (f : Tile → Tile) : (s.modTile r f).engines = s.engines := rfl
@[simp] theorem State.modTile_packets (s : State) (r : Nat) (f : Tile → Tile) : (s.modTile r f).packets = s.packets := rfl
@[simp] theorem State.modTile_tokens (s : State) (r : Nat) (f : Tile → Tile) : (s.modTile r f).tokens = s.tokens := rfl
@[simp] theorem State.modTile_links (s : State) (r : Nat) (f : Tile → Tile) : (s.modTile r f).links = s.links := rfl
@[simp] theorem State.modTile_peers (s : State) (r : Nat) (f : Tile → Tile) : (s.modTile r f).peers = s.peers := rfl
@[simp] theorem State.modTile_cxlen (s : State) (r : Nat) (f : Tile → Tile) : (s.modTile r f).cxlen = s.cxlen := rfl
@[simp] theorem State.modTile_cxlLost (s : State) (r : Nat) (f : Tile → Tile) : (s.modTile r f).cxlLost = s.cxlLost := rfl
@[simp] theorem State.modTile_booted (s : State) (r : Nat) (f : Tile → Tile) : (s.modTile r f).booted = s.booted := rfl
@[simp] theorem State.modTile_hostRead (s : State) (r : Nat) (f : Tile → Tile) : (s.modTile r f).hostRead = s.hostRead := rfl
@[simp] theorem State.modTile_hostGib (s : State) (r : Nat) (f : Tile → Tile) : (s.modTile r f).hostGib = s.hostGib := rfl
@[simp] theorem State.modTile_plim (s : State) (r : Nat) (f : Tile → Tile) : (s.modTile r f).plim = s.plim := rfl
@[simp] theorem State.modTile_bubble (s : State) (r : Nat) (f : Tile → Tile) : (s.modTile r f).bubble = s.bubble := rfl
@[simp] theorem State.modTile_hot (s : State) (r : Nat) (f : Tile → Tile) : (s.modTile r f).hot = s.hot := rfl
@[simp] theorem State.modTile_window (s : State) (r : Nat) (f : Tile → Tile) : (s.modTile r f).window = s.window := rfl

/-! ### modCore -/

@[simp] theorem State.modCore_foc (s : State) (r : Nat) (f : Core → Core) : (s.modCore r f).foc = s.foc := rfl
@[simp] theorem State.modCore_turns (s : State) (r : Nat) (f : Core → Core) : (s.modCore r f).turns = s.turns := rfl
@[simp] theorem State.modCore_draws (s : State) (r : Nat) (f : Core → Core) : (s.modCore r f).draws = s.draws := rfl
@[simp] theorem State.modCore_now (s : State) (r : Nat) (f : Core → Core) : (s.modCore r f).now = s.now := rfl
@[simp] theorem State.modCore_nextId (s : State) (r : Nat) (f : Core → Core) : (s.modCore r f).nextId = s.nextId := rfl
@[simp] theorem State.modCore_later (s : State) (r : Nat) (f : Core → Core) : (s.modCore r f).later = s.later := rfl
@[simp] theorem State.modCore_ports (s : State) (r : Nat) (f : Core → Core) : (s.modCore r f).ports = s.ports := rfl
@[simp] theorem State.modCore_parts (s : State) (r : Nat) (f : Core → Core) : (s.modCore r f).parts = s.parts := rfl
@[simp] theorem State.modCore_subps (s : State) (r : Nat) (f : Core → Core) : (s.modCore r f).subps = s.subps := rfl
@[simp] theorem State.modCore_asids (s : State) (r : Nat) (f : Core → Core) : (s.modCore r f).asids = s.asids := rfl
@[simp] theorem State.modCore_queues (s : State) (r : Nat) (f : Core → Core) : (s.modCore r f).queues = s.queues := rfl
@[simp] theorem State.modCore_tasks (s : State) (r : Nat) (f : Core → Core) : (s.modCore r f).tasks = s.tasks := rfl
@[simp] theorem State.modCore_saves (s : State) (r : Nat) (f : Core → Core) : (s.modCore r f).saves = s.saves := rfl
@[simp] theorem State.modCore_slices (s : State) (r : Nat) (f : Core → Core) : (s.modCore r f).slices = s.slices := rfl
@[simp] theorem State.modCore_regions (s : State) (r : Nat) (f : Core → Core) : (s.modCore r f).regions = s.regions := rfl
@[simp] theorem State.modCore_jobs (s : State) (r : Nat) (f : Core → Core) : (s.modCore r f).jobs = s.jobs := rfl
@[simp] theorem State.modCore_cfgJoin (s : State) (r : Nat) (f : Core → Core) : (s.modCore r f).cfgJoin = s.cfgJoin := rfl
@[simp] theorem State.modCore_saved (s : State) (r : Nat) (f : Core → Core) : (s.modCore r f).saved = s.saved := rfl
@[simp] theorem State.modCore_spliced (s : State) (r : Nat) (f : Core → Core) : (s.modCore r f).spliced = s.spliced := rfl
@[simp] theorem State.modCore_pool (s : State) (r : Nat) (f : Core → Core) : (s.modCore r f).pool = s.pool := rfl
@[simp] theorem State.modCore_startedAt (s : State) (r : Nat) (f : Core → Core) : (s.modCore r f).startedAt = s.startedAt := rfl
@[simp] theorem State.modCore_dones (s : State) (r : Nat) (f : Core → Core) : (s.modCore r f).dones = s.dones := rfl
@[simp] theorem State.modCore_schedPtr (s : State) (r : Nat) (f : Core → Core) : (s.modCore r f).schedPtr = s.schedPtr := rfl
@[simp] theorem State.modCore_schedCr (s : State) (r : Nat) (f : Core → Core) : (s.modCore r f).schedCr = s.schedCr := rfl
@[simp] theorem State.modCore_hazards (s : State) (r : Nat) (f : Core → Core) : (s.modCore r f).hazards = s.hazards := rfl
@[simp] theorem State.modCore_lanes (s : State) (r : Nat) (f : Core → Core) : (s.modCore r f).lanes = s.lanes := rfl
@[simp] theorem State.modCore_wires (s : State) (r : Nat) (f : Core → Core) : (s.modCore r f).wires = s.wires := rfl
@[simp] theorem State.modCore_dram (s : State) (r : Nat) (f : Core → Core) : (s.modCore r f).dram = s.dram := rfl
@[simp] theorem State.modCore_badLines (s : State) (r : Nat) (f : Core → Core) : (s.modCore r f).badLines = s.badLines := rfl
@[simp] theorem State.modCore_banks (s : State) (r : Nat) (f : Core → Core) : (s.modCore r f).banks = s.banks := rfl
@[simp] theorem State.modCore_windowed (s : State) (r : Nat) (f : Core → Core) : (s.modCore r f).windowed = s.windowed := rfl
@[simp] theorem State.modCore_copies (s : State) (r : Nat) (f : Core → Core) : (s.modCore r f).copies = s.copies := rfl
@[simp] theorem State.modCore_accs (s : State) (r : Nat) (f : Core → Core) : (s.modCore r f).accs = s.accs := rfl
@[simp] theorem State.modCore_unitTlb (s : State) (r : Nat) (f : Core → Core) : (s.modCore r f).unitTlb = s.unitTlb := rfl
@[simp] theorem State.modCore_schedTlb (s : State) (r : Nat) (f : Core → Core) : (s.modCore r f).schedTlb = s.schedTlb := rfl
@[simp] theorem State.modCore_brTlb (s : State) (r : Nat) (f : Core → Core) : (s.modCore r f).brTlb = s.brTlb := rfl
@[simp] theorem State.modCore_dieTlb (s : State) (r : Nat) (f : Core → Core) : (s.modCore r f).dieTlb = s.dieTlb := rfl
@[simp] theorem State.modCore_walks (s : State) (r : Nat) (f : Core → Core) : (s.modCore r f).walks = s.walks := rfl
@[simp] theorem State.modCore_wfaults (s : State) (r : Nat) (f : Core → Core) : (s.modCore r f).wfaults = s.wfaults := rfl
@[simp] theorem State.modCore_motions (s : State) (r : Nat) (f : Core → Core) : (s.modCore r f).motions = s.motions := rfl
@[simp] theorem State.modCore_agents (s : State) (r : Nat) (f : Core → Core) : (s.modCore r f).agents = s.agents := rfl
@[simp] theorem State.modCore_engines (s : State) (r : Nat) (f : Core → Core) : (s.modCore r f).engines = s.engines := rfl
@[simp] theorem State.modCore_packets (s : State) (r : Nat) (f : Core → Core) : (s.modCore r f).packets = s.packets := rfl
@[simp] theorem State.modCore_tokens (s : State) (r : Nat) (f : Core → Core) : (s.modCore r f).tokens = s.tokens := rfl
@[simp] theorem State.modCore_links (s : State) (r : Nat) (f : Core → Core) : (s.modCore r f).links = s.links := rfl
@[simp] theorem State.modCore_peers (s : State) (r : Nat) (f : Core → Core) : (s.modCore r f).peers = s.peers := rfl
@[simp] theorem State.modCore_cxlen (s : State) (r : Nat) (f : Core → Core) : (s.modCore r f).cxlen = s.cxlen := rfl
@[simp] theorem State.modCore_cxlLost (s : State) (r : Nat) (f : Core → Core) : (s.modCore r f).cxlLost = s.cxlLost := rfl
@[simp] theorem State.modCore_booted (s : State) (r : Nat) (f : Core → Core) : (s.modCore r f).booted = s.booted := rfl
@[simp] theorem State.modCore_hostRead (s : State) (r : Nat) (f : Core → Core) : (s.modCore r f).hostRead = s.hostRead := rfl
@[simp] theorem State.modCore_hostGib (s : State) (r : Nat) (f : Core → Core) : (s.modCore r f).hostGib = s.hostGib := rfl
@[simp] theorem State.modCore_plim (s : State) (r : Nat) (f : Core → Core) : (s.modCore r f).plim = s.plim := rfl
@[simp] theorem State.modCore_bubble (s : State) (r : Nat) (f : Core → Core) : (s.modCore r f).bubble = s.bubble := rfl
@[simp] theorem State.modCore_hot (s : State) (r : Nat) (f : Core → Core) : (s.modCore r f).hot = s.hot := rfl
@[simp] theorem State.modCore_window (s : State) (r : Nat) (f : Core → Core) : (s.modCore r f).window = s.window := rfl

/-! ### setReg -/

@[simp] theorem State.setReg_foc (s : State) (r : Nat) (g : BitVec 5) (v : DWord) : (s.setReg r g v).foc = s.foc := rfl
@[simp] theorem State.setReg_turns (s : State) (r : Nat) (g : BitVec 5) (v : DWord) : (s.setReg r g v).turns = s.turns := rfl
@[simp] theorem State.setReg_draws (s : State) (r : Nat) (g : BitVec 5) (v : DWord) : (s.setReg r g v).draws = s.draws := rfl
@[simp] theorem State.setReg_now (s : State) (r : Nat) (g : BitVec 5) (v : DWord) : (s.setReg r g v).now = s.now := rfl
@[simp] theorem State.setReg_nextId (s : State) (r : Nat) (g : BitVec 5) (v : DWord) : (s.setReg r g v).nextId = s.nextId := rfl
@[simp] theorem State.setReg_later (s : State) (r : Nat) (g : BitVec 5) (v : DWord) : (s.setReg r g v).later = s.later := rfl
@[simp] theorem State.setReg_ports (s : State) (r : Nat) (g : BitVec 5) (v : DWord) : (s.setReg r g v).ports = s.ports := rfl
@[simp] theorem State.setReg_parts (s : State) (r : Nat) (g : BitVec 5) (v : DWord) : (s.setReg r g v).parts = s.parts := rfl
@[simp] theorem State.setReg_subps (s : State) (r : Nat) (g : BitVec 5) (v : DWord) : (s.setReg r g v).subps = s.subps := rfl
@[simp] theorem State.setReg_asids (s : State) (r : Nat) (g : BitVec 5) (v : DWord) : (s.setReg r g v).asids = s.asids := rfl
@[simp] theorem State.setReg_queues (s : State) (r : Nat) (g : BitVec 5) (v : DWord) : (s.setReg r g v).queues = s.queues := rfl
@[simp] theorem State.setReg_tasks (s : State) (r : Nat) (g : BitVec 5) (v : DWord) : (s.setReg r g v).tasks = s.tasks := rfl
@[simp] theorem State.setReg_saves (s : State) (r : Nat) (g : BitVec 5) (v : DWord) : (s.setReg r g v).saves = s.saves := rfl
@[simp] theorem State.setReg_slices (s : State) (r : Nat) (g : BitVec 5) (v : DWord) : (s.setReg r g v).slices = s.slices := rfl
@[simp] theorem State.setReg_regions (s : State) (r : Nat) (g : BitVec 5) (v : DWord) : (s.setReg r g v).regions = s.regions :=
  rfl
@[simp] theorem State.setReg_jobs (s : State) (r : Nat) (g : BitVec 5) (v : DWord) : (s.setReg r g v).jobs = s.jobs := rfl
@[simp] theorem State.setReg_cfgJoin (s : State) (r : Nat) (g : BitVec 5) (v : DWord) : (s.setReg r g v).cfgJoin = s.cfgJoin :=
  rfl
@[simp] theorem State.setReg_saved (s : State) (r : Nat) (g : BitVec 5) (v : DWord) : (s.setReg r g v).saved = s.saved := rfl
@[simp] theorem State.setReg_spliced (s : State) (r : Nat) (g : BitVec 5) (v : DWord) : (s.setReg r g v).spliced = s.spliced :=
  rfl
@[simp] theorem State.setReg_pool (s : State) (r : Nat) (g : BitVec 5) (v : DWord) : (s.setReg r g v).pool = s.pool := rfl
@[simp] theorem State.setReg_startedAt (s : State) (r : Nat) (g : BitVec 5) (v : DWord) : (s.setReg r g v).startedAt = s.startedAt :=
  rfl
@[simp] theorem State.setReg_dones (s : State) (r : Nat) (g : BitVec 5) (v : DWord) : (s.setReg r g v).dones = s.dones := rfl
@[simp] theorem State.setReg_schedPtr (s : State) (r : Nat) (g : BitVec 5) (v : DWord) : (s.setReg r g v).schedPtr = s.schedPtr :=
  rfl
@[simp] theorem State.setReg_schedCr (s : State) (r : Nat) (g : BitVec 5) (v : DWord) : (s.setReg r g v).schedCr = s.schedCr :=
  rfl
@[simp] theorem State.setReg_hazards (s : State) (r : Nat) (g : BitVec 5) (v : DWord) : (s.setReg r g v).hazards = s.hazards :=
  rfl
@[simp] theorem State.setReg_lanes (s : State) (r : Nat) (g : BitVec 5) (v : DWord) : (s.setReg r g v).lanes = s.lanes := rfl
@[simp] theorem State.setReg_wires (s : State) (r : Nat) (g : BitVec 5) (v : DWord) : (s.setReg r g v).wires = s.wires := rfl
@[simp] theorem State.setReg_dram (s : State) (r : Nat) (g : BitVec 5) (v : DWord) : (s.setReg r g v).dram = s.dram := rfl
@[simp] theorem State.setReg_badLines (s : State) (r : Nat) (g : BitVec 5) (v : DWord) : (s.setReg r g v).badLines = s.badLines :=
  rfl
@[simp] theorem State.setReg_banks (s : State) (r : Nat) (g : BitVec 5) (v : DWord) : (s.setReg r g v).banks = s.banks := rfl
@[simp] theorem State.setReg_windowed (s : State) (r : Nat) (g : BitVec 5) (v : DWord) : (s.setReg r g v).windowed = s.windowed :=
  rfl
@[simp] theorem State.setReg_copies (s : State) (r : Nat) (g : BitVec 5) (v : DWord) : (s.setReg r g v).copies = s.copies := rfl
@[simp] theorem State.setReg_accs (s : State) (r : Nat) (g : BitVec 5) (v : DWord) : (s.setReg r g v).accs = s.accs := rfl
@[simp] theorem State.setReg_unitTlb (s : State) (r : Nat) (g : BitVec 5) (v : DWord) : (s.setReg r g v).unitTlb = s.unitTlb :=
  rfl
@[simp] theorem State.setReg_schedTlb (s : State) (r : Nat) (g : BitVec 5) (v : DWord) : (s.setReg r g v).schedTlb = s.schedTlb :=
  rfl
@[simp] theorem State.setReg_brTlb (s : State) (r : Nat) (g : BitVec 5) (v : DWord) : (s.setReg r g v).brTlb = s.brTlb := rfl
@[simp] theorem State.setReg_dieTlb (s : State) (r : Nat) (g : BitVec 5) (v : DWord) : (s.setReg r g v).dieTlb = s.dieTlb := rfl
@[simp] theorem State.setReg_walks (s : State) (r : Nat) (g : BitVec 5) (v : DWord) : (s.setReg r g v).walks = s.walks := rfl
@[simp] theorem State.setReg_wfaults (s : State) (r : Nat) (g : BitVec 5) (v : DWord) : (s.setReg r g v).wfaults = s.wfaults :=
  rfl
@[simp] theorem State.setReg_motions (s : State) (r : Nat) (g : BitVec 5) (v : DWord) : (s.setReg r g v).motions = s.motions :=
  rfl
@[simp] theorem State.setReg_agents (s : State) (r : Nat) (g : BitVec 5) (v : DWord) : (s.setReg r g v).agents = s.agents := rfl
@[simp] theorem State.setReg_engines (s : State) (r : Nat) (g : BitVec 5) (v : DWord) : (s.setReg r g v).engines = s.engines :=
  rfl
@[simp] theorem State.setReg_packets (s : State) (r : Nat) (g : BitVec 5) (v : DWord) : (s.setReg r g v).packets = s.packets :=
  rfl
@[simp] theorem State.setReg_tokens (s : State) (r : Nat) (g : BitVec 5) (v : DWord) : (s.setReg r g v).tokens = s.tokens := rfl
@[simp] theorem State.setReg_links (s : State) (r : Nat) (g : BitVec 5) (v : DWord) : (s.setReg r g v).links = s.links := rfl
@[simp] theorem State.setReg_peers (s : State) (r : Nat) (g : BitVec 5) (v : DWord) : (s.setReg r g v).peers = s.peers := rfl
@[simp] theorem State.setReg_cxlen (s : State) (r : Nat) (g : BitVec 5) (v : DWord) : (s.setReg r g v).cxlen = s.cxlen := rfl
@[simp] theorem State.setReg_cxlLost (s : State) (r : Nat) (g : BitVec 5) (v : DWord) : (s.setReg r g v).cxlLost = s.cxlLost :=
  rfl
@[simp] theorem State.setReg_booted (s : State) (r : Nat) (g : BitVec 5) (v : DWord) : (s.setReg r g v).booted = s.booted := rfl
@[simp] theorem State.setReg_hostRead (s : State) (r : Nat) (g : BitVec 5) (v : DWord) : (s.setReg r g v).hostRead = s.hostRead :=
  rfl
@[simp] theorem State.setReg_hostGib (s : State) (r : Nat) (g : BitVec 5) (v : DWord) : (s.setReg r g v).hostGib = s.hostGib :=
  rfl
@[simp] theorem State.setReg_plim (s : State) (r : Nat) (g : BitVec 5) (v : DWord) : (s.setReg r g v).plim = s.plim := rfl
@[simp] theorem State.setReg_bubble (s : State) (r : Nat) (g : BitVec 5) (v : DWord) : (s.setReg r g v).bubble = s.bubble := rfl
@[simp] theorem State.setReg_hot (s : State) (r : Nat) (g : BitVec 5) (v : DWord) : (s.setReg r g v).hot = s.hot := rfl
@[simp] theorem State.setReg_window (s : State) (r : Nat) (g : BitVec 5) (v : DWord) : (s.setReg r g v).window = s.window := rfl

/-! ### modFab -/

@[simp] theorem State.modFab_foc (s : State) (r : Nat) (f : Fabric → Fabric) : (s.modFab r f).foc = s.foc := rfl
@[simp] theorem State.modFab_turns (s : State) (r : Nat) (f : Fabric → Fabric) : (s.modFab r f).turns = s.turns := rfl
@[simp] theorem State.modFab_draws (s : State) (r : Nat) (f : Fabric → Fabric) : (s.modFab r f).draws = s.draws := rfl
@[simp] theorem State.modFab_now (s : State) (r : Nat) (f : Fabric → Fabric) : (s.modFab r f).now = s.now := rfl
@[simp] theorem State.modFab_nextId (s : State) (r : Nat) (f : Fabric → Fabric) : (s.modFab r f).nextId = s.nextId := rfl
@[simp] theorem State.modFab_later (s : State) (r : Nat) (f : Fabric → Fabric) : (s.modFab r f).later = s.later := rfl
@[simp] theorem State.modFab_ports (s : State) (r : Nat) (f : Fabric → Fabric) : (s.modFab r f).ports = s.ports := rfl
@[simp] theorem State.modFab_parts (s : State) (r : Nat) (f : Fabric → Fabric) : (s.modFab r f).parts = s.parts := rfl
@[simp] theorem State.modFab_subps (s : State) (r : Nat) (f : Fabric → Fabric) : (s.modFab r f).subps = s.subps := rfl
@[simp] theorem State.modFab_asids (s : State) (r : Nat) (f : Fabric → Fabric) : (s.modFab r f).asids = s.asids := rfl
@[simp] theorem State.modFab_queues (s : State) (r : Nat) (f : Fabric → Fabric) : (s.modFab r f).queues = s.queues := rfl
@[simp] theorem State.modFab_tasks (s : State) (r : Nat) (f : Fabric → Fabric) : (s.modFab r f).tasks = s.tasks := rfl
@[simp] theorem State.modFab_saves (s : State) (r : Nat) (f : Fabric → Fabric) : (s.modFab r f).saves = s.saves := rfl
@[simp] theorem State.modFab_slices (s : State) (r : Nat) (f : Fabric → Fabric) : (s.modFab r f).slices = s.slices := rfl
@[simp] theorem State.modFab_regions (s : State) (r : Nat) (f : Fabric → Fabric) : (s.modFab r f).regions = s.regions := rfl
@[simp] theorem State.modFab_jobs (s : State) (r : Nat) (f : Fabric → Fabric) : (s.modFab r f).jobs = s.jobs := rfl
@[simp] theorem State.modFab_cfgJoin (s : State) (r : Nat) (f : Fabric → Fabric) : (s.modFab r f).cfgJoin = s.cfgJoin := rfl
@[simp] theorem State.modFab_saved (s : State) (r : Nat) (f : Fabric → Fabric) : (s.modFab r f).saved = s.saved := rfl
@[simp] theorem State.modFab_spliced (s : State) (r : Nat) (f : Fabric → Fabric) : (s.modFab r f).spliced = s.spliced := rfl
@[simp] theorem State.modFab_pool (s : State) (r : Nat) (f : Fabric → Fabric) : (s.modFab r f).pool = s.pool := rfl
@[simp] theorem State.modFab_startedAt (s : State) (r : Nat) (f : Fabric → Fabric) : (s.modFab r f).startedAt = s.startedAt := rfl
@[simp] theorem State.modFab_dones (s : State) (r : Nat) (f : Fabric → Fabric) : (s.modFab r f).dones = s.dones := rfl
@[simp] theorem State.modFab_schedPtr (s : State) (r : Nat) (f : Fabric → Fabric) : (s.modFab r f).schedPtr = s.schedPtr := rfl
@[simp] theorem State.modFab_schedCr (s : State) (r : Nat) (f : Fabric → Fabric) : (s.modFab r f).schedCr = s.schedCr := rfl
@[simp] theorem State.modFab_hazards (s : State) (r : Nat) (f : Fabric → Fabric) : (s.modFab r f).hazards = s.hazards := rfl
@[simp] theorem State.modFab_lanes (s : State) (r : Nat) (f : Fabric → Fabric) : (s.modFab r f).lanes = s.lanes := rfl
@[simp] theorem State.modFab_wires (s : State) (r : Nat) (f : Fabric → Fabric) : (s.modFab r f).wires = s.wires := rfl
@[simp] theorem State.modFab_dram (s : State) (r : Nat) (f : Fabric → Fabric) : (s.modFab r f).dram = s.dram := rfl
@[simp] theorem State.modFab_badLines (s : State) (r : Nat) (f : Fabric → Fabric) : (s.modFab r f).badLines = s.badLines := rfl
@[simp] theorem State.modFab_banks (s : State) (r : Nat) (f : Fabric → Fabric) : (s.modFab r f).banks = s.banks := rfl
@[simp] theorem State.modFab_windowed (s : State) (r : Nat) (f : Fabric → Fabric) : (s.modFab r f).windowed = s.windowed := rfl
@[simp] theorem State.modFab_copies (s : State) (r : Nat) (f : Fabric → Fabric) : (s.modFab r f).copies = s.copies := rfl
@[simp] theorem State.modFab_accs (s : State) (r : Nat) (f : Fabric → Fabric) : (s.modFab r f).accs = s.accs := rfl
@[simp] theorem State.modFab_unitTlb (s : State) (r : Nat) (f : Fabric → Fabric) : (s.modFab r f).unitTlb = s.unitTlb := rfl
@[simp] theorem State.modFab_schedTlb (s : State) (r : Nat) (f : Fabric → Fabric) : (s.modFab r f).schedTlb = s.schedTlb := rfl
@[simp] theorem State.modFab_brTlb (s : State) (r : Nat) (f : Fabric → Fabric) : (s.modFab r f).brTlb = s.brTlb := rfl
@[simp] theorem State.modFab_dieTlb (s : State) (r : Nat) (f : Fabric → Fabric) : (s.modFab r f).dieTlb = s.dieTlb := rfl
@[simp] theorem State.modFab_walks (s : State) (r : Nat) (f : Fabric → Fabric) : (s.modFab r f).walks = s.walks := rfl
@[simp] theorem State.modFab_wfaults (s : State) (r : Nat) (f : Fabric → Fabric) : (s.modFab r f).wfaults = s.wfaults := rfl
@[simp] theorem State.modFab_motions (s : State) (r : Nat) (f : Fabric → Fabric) : (s.modFab r f).motions = s.motions := rfl
@[simp] theorem State.modFab_agents (s : State) (r : Nat) (f : Fabric → Fabric) : (s.modFab r f).agents = s.agents := rfl
@[simp] theorem State.modFab_engines (s : State) (r : Nat) (f : Fabric → Fabric) : (s.modFab r f).engines = s.engines := rfl
@[simp] theorem State.modFab_packets (s : State) (r : Nat) (f : Fabric → Fabric) : (s.modFab r f).packets = s.packets := rfl
@[simp] theorem State.modFab_tokens (s : State) (r : Nat) (f : Fabric → Fabric) : (s.modFab r f).tokens = s.tokens := rfl
@[simp] theorem State.modFab_links (s : State) (r : Nat) (f : Fabric → Fabric) : (s.modFab r f).links = s.links := rfl
@[simp] theorem State.modFab_peers (s : State) (r : Nat) (f : Fabric → Fabric) : (s.modFab r f).peers = s.peers := rfl
@[simp] theorem State.modFab_cxlen (s : State) (r : Nat) (f : Fabric → Fabric) : (s.modFab r f).cxlen = s.cxlen := rfl
@[simp] theorem State.modFab_cxlLost (s : State) (r : Nat) (f : Fabric → Fabric) : (s.modFab r f).cxlLost = s.cxlLost := rfl
@[simp] theorem State.modFab_booted (s : State) (r : Nat) (f : Fabric → Fabric) : (s.modFab r f).booted = s.booted := rfl
@[simp] theorem State.modFab_hostRead (s : State) (r : Nat) (f : Fabric → Fabric) : (s.modFab r f).hostRead = s.hostRead := rfl
@[simp] theorem State.modFab_hostGib (s : State) (r : Nat) (f : Fabric → Fabric) : (s.modFab r f).hostGib = s.hostGib := rfl
@[simp] theorem State.modFab_plim (s : State) (r : Nat) (f : Fabric → Fabric) : (s.modFab r f).plim = s.plim := rfl
@[simp] theorem State.modFab_bubble (s : State) (r : Nat) (f : Fabric → Fabric) : (s.modFab r f).bubble = s.bubble := rfl
@[simp] theorem State.modFab_hot (s : State) (r : Nat) (f : Fabric → Fabric) : (s.modFab r f).hot = s.hot := rfl
@[simp] theorem State.modFab_window (s : State) (r : Nat) (f : Fabric → Fabric) : (s.modFab r f).window = s.window := rfl

/-! ### modCell -/

@[simp] theorem State.modCell_foc (s : State) (r c : Nat) (f : Cell → Cell) : (s.modCell r c f).foc = s.foc := rfl
@[simp] theorem State.modCell_turns (s : State) (r c : Nat) (f : Cell → Cell) : (s.modCell r c f).turns = s.turns := rfl
@[simp] theorem State.modCell_draws (s : State) (r c : Nat) (f : Cell → Cell) : (s.modCell r c f).draws = s.draws := rfl
@[simp] theorem State.modCell_now (s : State) (r c : Nat) (f : Cell → Cell) : (s.modCell r c f).now = s.now := rfl
@[simp] theorem State.modCell_nextId (s : State) (r c : Nat) (f : Cell → Cell) : (s.modCell r c f).nextId = s.nextId := rfl
@[simp] theorem State.modCell_later (s : State) (r c : Nat) (f : Cell → Cell) : (s.modCell r c f).later = s.later := rfl
@[simp] theorem State.modCell_ports (s : State) (r c : Nat) (f : Cell → Cell) : (s.modCell r c f).ports = s.ports := rfl
@[simp] theorem State.modCell_parts (s : State) (r c : Nat) (f : Cell → Cell) : (s.modCell r c f).parts = s.parts := rfl
@[simp] theorem State.modCell_subps (s : State) (r c : Nat) (f : Cell → Cell) : (s.modCell r c f).subps = s.subps := rfl
@[simp] theorem State.modCell_asids (s : State) (r c : Nat) (f : Cell → Cell) : (s.modCell r c f).asids = s.asids := rfl
@[simp] theorem State.modCell_queues (s : State) (r c : Nat) (f : Cell → Cell) : (s.modCell r c f).queues = s.queues := rfl
@[simp] theorem State.modCell_tasks (s : State) (r c : Nat) (f : Cell → Cell) : (s.modCell r c f).tasks = s.tasks := rfl
@[simp] theorem State.modCell_saves (s : State) (r c : Nat) (f : Cell → Cell) : (s.modCell r c f).saves = s.saves := rfl
@[simp] theorem State.modCell_slices (s : State) (r c : Nat) (f : Cell → Cell) : (s.modCell r c f).slices = s.slices := rfl
@[simp] theorem State.modCell_regions (s : State) (r c : Nat) (f : Cell → Cell) : (s.modCell r c f).regions = s.regions := rfl
@[simp] theorem State.modCell_jobs (s : State) (r c : Nat) (f : Cell → Cell) : (s.modCell r c f).jobs = s.jobs := rfl
@[simp] theorem State.modCell_cfgJoin (s : State) (r c : Nat) (f : Cell → Cell) : (s.modCell r c f).cfgJoin = s.cfgJoin := rfl
@[simp] theorem State.modCell_saved (s : State) (r c : Nat) (f : Cell → Cell) : (s.modCell r c f).saved = s.saved := rfl
@[simp] theorem State.modCell_spliced (s : State) (r c : Nat) (f : Cell → Cell) : (s.modCell r c f).spliced = s.spliced := rfl
@[simp] theorem State.modCell_pool (s : State) (r c : Nat) (f : Cell → Cell) : (s.modCell r c f).pool = s.pool := rfl
@[simp] theorem State.modCell_startedAt (s : State) (r c : Nat) (f : Cell → Cell) : (s.modCell r c f).startedAt = s.startedAt :=
  rfl
@[simp] theorem State.modCell_dones (s : State) (r c : Nat) (f : Cell → Cell) : (s.modCell r c f).dones = s.dones := rfl
@[simp] theorem State.modCell_schedPtr (s : State) (r c : Nat) (f : Cell → Cell) : (s.modCell r c f).schedPtr = s.schedPtr := rfl
@[simp] theorem State.modCell_schedCr (s : State) (r c : Nat) (f : Cell → Cell) : (s.modCell r c f).schedCr = s.schedCr := rfl
@[simp] theorem State.modCell_hazards (s : State) (r c : Nat) (f : Cell → Cell) : (s.modCell r c f).hazards = s.hazards := rfl
@[simp] theorem State.modCell_lanes (s : State) (r c : Nat) (f : Cell → Cell) : (s.modCell r c f).lanes = s.lanes := rfl
@[simp] theorem State.modCell_wires (s : State) (r c : Nat) (f : Cell → Cell) : (s.modCell r c f).wires = s.wires := rfl
@[simp] theorem State.modCell_dram (s : State) (r c : Nat) (f : Cell → Cell) : (s.modCell r c f).dram = s.dram := rfl
@[simp] theorem State.modCell_badLines (s : State) (r c : Nat) (f : Cell → Cell) : (s.modCell r c f).badLines = s.badLines := rfl
@[simp] theorem State.modCell_banks (s : State) (r c : Nat) (f : Cell → Cell) : (s.modCell r c f).banks = s.banks := rfl
@[simp] theorem State.modCell_windowed (s : State) (r c : Nat) (f : Cell → Cell) : (s.modCell r c f).windowed = s.windowed := rfl
@[simp] theorem State.modCell_copies (s : State) (r c : Nat) (f : Cell → Cell) : (s.modCell r c f).copies = s.copies := rfl
@[simp] theorem State.modCell_accs (s : State) (r c : Nat) (f : Cell → Cell) : (s.modCell r c f).accs = s.accs := rfl
@[simp] theorem State.modCell_unitTlb (s : State) (r c : Nat) (f : Cell → Cell) : (s.modCell r c f).unitTlb = s.unitTlb := rfl
@[simp] theorem State.modCell_schedTlb (s : State) (r c : Nat) (f : Cell → Cell) : (s.modCell r c f).schedTlb = s.schedTlb := rfl
@[simp] theorem State.modCell_brTlb (s : State) (r c : Nat) (f : Cell → Cell) : (s.modCell r c f).brTlb = s.brTlb := rfl
@[simp] theorem State.modCell_dieTlb (s : State) (r c : Nat) (f : Cell → Cell) : (s.modCell r c f).dieTlb = s.dieTlb := rfl
@[simp] theorem State.modCell_walks (s : State) (r c : Nat) (f : Cell → Cell) : (s.modCell r c f).walks = s.walks := rfl
@[simp] theorem State.modCell_wfaults (s : State) (r c : Nat) (f : Cell → Cell) : (s.modCell r c f).wfaults = s.wfaults := rfl
@[simp] theorem State.modCell_motions (s : State) (r c : Nat) (f : Cell → Cell) : (s.modCell r c f).motions = s.motions := rfl
@[simp] theorem State.modCell_agents (s : State) (r c : Nat) (f : Cell → Cell) : (s.modCell r c f).agents = s.agents := rfl
@[simp] theorem State.modCell_engines (s : State) (r c : Nat) (f : Cell → Cell) : (s.modCell r c f).engines = s.engines := rfl
@[simp] theorem State.modCell_packets (s : State) (r c : Nat) (f : Cell → Cell) : (s.modCell r c f).packets = s.packets := rfl
@[simp] theorem State.modCell_tokens (s : State) (r c : Nat) (f : Cell → Cell) : (s.modCell r c f).tokens = s.tokens := rfl
@[simp] theorem State.modCell_links (s : State) (r c : Nat) (f : Cell → Cell) : (s.modCell r c f).links = s.links := rfl
@[simp] theorem State.modCell_peers (s : State) (r c : Nat) (f : Cell → Cell) : (s.modCell r c f).peers = s.peers := rfl
@[simp] theorem State.modCell_cxlen (s : State) (r c : Nat) (f : Cell → Cell) : (s.modCell r c f).cxlen = s.cxlen := rfl
@[simp] theorem State.modCell_cxlLost (s : State) (r c : Nat) (f : Cell → Cell) : (s.modCell r c f).cxlLost = s.cxlLost := rfl
@[simp] theorem State.modCell_booted (s : State) (r c : Nat) (f : Cell → Cell) : (s.modCell r c f).booted = s.booted := rfl
@[simp] theorem State.modCell_hostRead (s : State) (r c : Nat) (f : Cell → Cell) : (s.modCell r c f).hostRead = s.hostRead := rfl
@[simp] theorem State.modCell_hostGib (s : State) (r c : Nat) (f : Cell → Cell) : (s.modCell r c f).hostGib = s.hostGib := rfl
@[simp] theorem State.modCell_plim (s : State) (r c : Nat) (f : Cell → Cell) : (s.modCell r c f).plim = s.plim := rfl
@[simp] theorem State.modCell_bubble (s : State) (r c : Nat) (f : Cell → Cell) : (s.modCell r c f).bubble = s.bubble := rfl
@[simp] theorem State.modCell_hot (s : State) (r c : Nat) (f : Cell → Cell) : (s.modCell r c f).hot = s.hot := rfl
@[simp] theorem State.modCell_window (s : State) (r c : Nat) (f : Cell → Cell) : (s.modCell r c f).window = s.window := rfl

/-! ### modMtile -/

@[simp] theorem State.modMtile_foc (s : State) (r q : Nat) (f : MTile → MTile) : (s.modMtile r q f).foc = s.foc := rfl
@[simp] theorem State.modMtile_turns (s : State) (r q : Nat) (f : MTile → MTile) : (s.modMtile r q f).turns = s.turns := rfl
@[simp] theorem State.modMtile_draws (s : State) (r q : Nat) (f : MTile → MTile) : (s.modMtile r q f).draws = s.draws := rfl
@[simp] theorem State.modMtile_now (s : State) (r q : Nat) (f : MTile → MTile) : (s.modMtile r q f).now = s.now := rfl
@[simp] theorem State.modMtile_nextId (s : State) (r q : Nat) (f : MTile → MTile) : (s.modMtile r q f).nextId = s.nextId := rfl
@[simp] theorem State.modMtile_later (s : State) (r q : Nat) (f : MTile → MTile) : (s.modMtile r q f).later = s.later := rfl
@[simp] theorem State.modMtile_ports (s : State) (r q : Nat) (f : MTile → MTile) : (s.modMtile r q f).ports = s.ports := rfl
@[simp] theorem State.modMtile_parts (s : State) (r q : Nat) (f : MTile → MTile) : (s.modMtile r q f).parts = s.parts := rfl
@[simp] theorem State.modMtile_subps (s : State) (r q : Nat) (f : MTile → MTile) : (s.modMtile r q f).subps = s.subps := rfl
@[simp] theorem State.modMtile_asids (s : State) (r q : Nat) (f : MTile → MTile) : (s.modMtile r q f).asids = s.asids := rfl
@[simp] theorem State.modMtile_queues (s : State) (r q : Nat) (f : MTile → MTile) : (s.modMtile r q f).queues = s.queues := rfl
@[simp] theorem State.modMtile_tasks (s : State) (r q : Nat) (f : MTile → MTile) : (s.modMtile r q f).tasks = s.tasks := rfl
@[simp] theorem State.modMtile_saves (s : State) (r q : Nat) (f : MTile → MTile) : (s.modMtile r q f).saves = s.saves := rfl
@[simp] theorem State.modMtile_slices (s : State) (r q : Nat) (f : MTile → MTile) : (s.modMtile r q f).slices = s.slices := rfl
@[simp] theorem State.modMtile_regions (s : State) (r q : Nat) (f : MTile → MTile) : (s.modMtile r q f).regions = s.regions := rfl
@[simp] theorem State.modMtile_jobs (s : State) (r q : Nat) (f : MTile → MTile) : (s.modMtile r q f).jobs = s.jobs := rfl
@[simp] theorem State.modMtile_cfgJoin (s : State) (r q : Nat) (f : MTile → MTile) : (s.modMtile r q f).cfgJoin = s.cfgJoin := rfl
@[simp] theorem State.modMtile_saved (s : State) (r q : Nat) (f : MTile → MTile) : (s.modMtile r q f).saved = s.saved := rfl
@[simp] theorem State.modMtile_spliced (s : State) (r q : Nat) (f : MTile → MTile) : (s.modMtile r q f).spliced = s.spliced := rfl
@[simp] theorem State.modMtile_pool (s : State) (r q : Nat) (f : MTile → MTile) : (s.modMtile r q f).pool = s.pool := rfl
@[simp] theorem State.modMtile_startedAt (s : State) (r q : Nat) (f : MTile → MTile) : (s.modMtile r q f).startedAt = s.startedAt :=
  rfl
@[simp] theorem State.modMtile_dones (s : State) (r q : Nat) (f : MTile → MTile) : (s.modMtile r q f).dones = s.dones := rfl
@[simp] theorem State.modMtile_schedPtr (s : State) (r q : Nat) (f : MTile → MTile) : (s.modMtile r q f).schedPtr = s.schedPtr :=
  rfl
@[simp] theorem State.modMtile_schedCr (s : State) (r q : Nat) (f : MTile → MTile) : (s.modMtile r q f).schedCr = s.schedCr := rfl
@[simp] theorem State.modMtile_hazards (s : State) (r q : Nat) (f : MTile → MTile) : (s.modMtile r q f).hazards = s.hazards := rfl
@[simp] theorem State.modMtile_lanes (s : State) (r q : Nat) (f : MTile → MTile) : (s.modMtile r q f).lanes = s.lanes := rfl
@[simp] theorem State.modMtile_wires (s : State) (r q : Nat) (f : MTile → MTile) : (s.modMtile r q f).wires = s.wires := rfl
@[simp] theorem State.modMtile_dram (s : State) (r q : Nat) (f : MTile → MTile) : (s.modMtile r q f).dram = s.dram := rfl
@[simp] theorem State.modMtile_badLines (s : State) (r q : Nat) (f : MTile → MTile) : (s.modMtile r q f).badLines = s.badLines :=
  rfl
@[simp] theorem State.modMtile_banks (s : State) (r q : Nat) (f : MTile → MTile) : (s.modMtile r q f).banks = s.banks := rfl
@[simp] theorem State.modMtile_windowed (s : State) (r q : Nat) (f : MTile → MTile) : (s.modMtile r q f).windowed = s.windowed :=
  rfl
@[simp] theorem State.modMtile_copies (s : State) (r q : Nat) (f : MTile → MTile) : (s.modMtile r q f).copies = s.copies := rfl
@[simp] theorem State.modMtile_accs (s : State) (r q : Nat) (f : MTile → MTile) : (s.modMtile r q f).accs = s.accs := rfl
@[simp] theorem State.modMtile_unitTlb (s : State) (r q : Nat) (f : MTile → MTile) : (s.modMtile r q f).unitTlb = s.unitTlb := rfl
@[simp] theorem State.modMtile_schedTlb (s : State) (r q : Nat) (f : MTile → MTile) : (s.modMtile r q f).schedTlb = s.schedTlb :=
  rfl
@[simp] theorem State.modMtile_brTlb (s : State) (r q : Nat) (f : MTile → MTile) : (s.modMtile r q f).brTlb = s.brTlb := rfl
@[simp] theorem State.modMtile_dieTlb (s : State) (r q : Nat) (f : MTile → MTile) : (s.modMtile r q f).dieTlb = s.dieTlb := rfl
@[simp] theorem State.modMtile_walks (s : State) (r q : Nat) (f : MTile → MTile) : (s.modMtile r q f).walks = s.walks := rfl
@[simp] theorem State.modMtile_wfaults (s : State) (r q : Nat) (f : MTile → MTile) : (s.modMtile r q f).wfaults = s.wfaults := rfl
@[simp] theorem State.modMtile_motions (s : State) (r q : Nat) (f : MTile → MTile) : (s.modMtile r q f).motions = s.motions := rfl
@[simp] theorem State.modMtile_agents (s : State) (r q : Nat) (f : MTile → MTile) : (s.modMtile r q f).agents = s.agents := rfl
@[simp] theorem State.modMtile_engines (s : State) (r q : Nat) (f : MTile → MTile) : (s.modMtile r q f).engines = s.engines := rfl
@[simp] theorem State.modMtile_packets (s : State) (r q : Nat) (f : MTile → MTile) : (s.modMtile r q f).packets = s.packets := rfl
@[simp] theorem State.modMtile_tokens (s : State) (r q : Nat) (f : MTile → MTile) : (s.modMtile r q f).tokens = s.tokens := rfl
@[simp] theorem State.modMtile_links (s : State) (r q : Nat) (f : MTile → MTile) : (s.modMtile r q f).links = s.links := rfl
@[simp] theorem State.modMtile_peers (s : State) (r q : Nat) (f : MTile → MTile) : (s.modMtile r q f).peers = s.peers := rfl
@[simp] theorem State.modMtile_cxlen (s : State) (r q : Nat) (f : MTile → MTile) : (s.modMtile r q f).cxlen = s.cxlen := rfl
@[simp] theorem State.modMtile_cxlLost (s : State) (r q : Nat) (f : MTile → MTile) : (s.modMtile r q f).cxlLost = s.cxlLost := rfl
@[simp] theorem State.modMtile_booted (s : State) (r q : Nat) (f : MTile → MTile) : (s.modMtile r q f).booted = s.booted := rfl
@[simp] theorem State.modMtile_hostRead (s : State) (r q : Nat) (f : MTile → MTile) : (s.modMtile r q f).hostRead = s.hostRead :=
  rfl
@[simp] theorem State.modMtile_hostGib (s : State) (r q : Nat) (f : MTile → MTile) : (s.modMtile r q f).hostGib = s.hostGib := rfl
@[simp] theorem State.modMtile_plim (s : State) (r q : Nat) (f : MTile → MTile) : (s.modMtile r q f).plim = s.plim := rfl
@[simp] theorem State.modMtile_bubble (s : State) (r q : Nat) (f : MTile → MTile) : (s.modMtile r q f).bubble = s.bubble := rfl
@[simp] theorem State.modMtile_hot (s : State) (r q : Nat) (f : MTile → MTile) : (s.modMtile r q f).hot = s.hot := rfl
@[simp] theorem State.modMtile_window (s : State) (r q : Nat) (f : MTile → MTile) : (s.modMtile r q f).window = s.window := rfl

/-! ### modGen -/

@[simp] theorem State.modGen_foc (s : State) (r g : Nat) (f : Gen → Gen) : (s.modGen r g f).foc = s.foc := rfl
@[simp] theorem State.modGen_turns (s : State) (r g : Nat) (f : Gen → Gen) : (s.modGen r g f).turns = s.turns := rfl
@[simp] theorem State.modGen_draws (s : State) (r g : Nat) (f : Gen → Gen) : (s.modGen r g f).draws = s.draws := rfl
@[simp] theorem State.modGen_now (s : State) (r g : Nat) (f : Gen → Gen) : (s.modGen r g f).now = s.now := rfl
@[simp] theorem State.modGen_nextId (s : State) (r g : Nat) (f : Gen → Gen) : (s.modGen r g f).nextId = s.nextId := rfl
@[simp] theorem State.modGen_later (s : State) (r g : Nat) (f : Gen → Gen) : (s.modGen r g f).later = s.later := rfl
@[simp] theorem State.modGen_ports (s : State) (r g : Nat) (f : Gen → Gen) : (s.modGen r g f).ports = s.ports := rfl
@[simp] theorem State.modGen_parts (s : State) (r g : Nat) (f : Gen → Gen) : (s.modGen r g f).parts = s.parts := rfl
@[simp] theorem State.modGen_subps (s : State) (r g : Nat) (f : Gen → Gen) : (s.modGen r g f).subps = s.subps := rfl
@[simp] theorem State.modGen_asids (s : State) (r g : Nat) (f : Gen → Gen) : (s.modGen r g f).asids = s.asids := rfl
@[simp] theorem State.modGen_queues (s : State) (r g : Nat) (f : Gen → Gen) : (s.modGen r g f).queues = s.queues := rfl
@[simp] theorem State.modGen_tasks (s : State) (r g : Nat) (f : Gen → Gen) : (s.modGen r g f).tasks = s.tasks := rfl
@[simp] theorem State.modGen_saves (s : State) (r g : Nat) (f : Gen → Gen) : (s.modGen r g f).saves = s.saves := rfl
@[simp] theorem State.modGen_slices (s : State) (r g : Nat) (f : Gen → Gen) : (s.modGen r g f).slices = s.slices := rfl
@[simp] theorem State.modGen_regions (s : State) (r g : Nat) (f : Gen → Gen) : (s.modGen r g f).regions = s.regions := rfl
@[simp] theorem State.modGen_jobs (s : State) (r g : Nat) (f : Gen → Gen) : (s.modGen r g f).jobs = s.jobs := rfl
@[simp] theorem State.modGen_cfgJoin (s : State) (r g : Nat) (f : Gen → Gen) : (s.modGen r g f).cfgJoin = s.cfgJoin := rfl
@[simp] theorem State.modGen_saved (s : State) (r g : Nat) (f : Gen → Gen) : (s.modGen r g f).saved = s.saved := rfl
@[simp] theorem State.modGen_spliced (s : State) (r g : Nat) (f : Gen → Gen) : (s.modGen r g f).spliced = s.spliced := rfl
@[simp] theorem State.modGen_pool (s : State) (r g : Nat) (f : Gen → Gen) : (s.modGen r g f).pool = s.pool := rfl
@[simp] theorem State.modGen_startedAt (s : State) (r g : Nat) (f : Gen → Gen) : (s.modGen r g f).startedAt = s.startedAt := rfl
@[simp] theorem State.modGen_dones (s : State) (r g : Nat) (f : Gen → Gen) : (s.modGen r g f).dones = s.dones := rfl
@[simp] theorem State.modGen_schedPtr (s : State) (r g : Nat) (f : Gen → Gen) : (s.modGen r g f).schedPtr = s.schedPtr := rfl
@[simp] theorem State.modGen_schedCr (s : State) (r g : Nat) (f : Gen → Gen) : (s.modGen r g f).schedCr = s.schedCr := rfl
@[simp] theorem State.modGen_hazards (s : State) (r g : Nat) (f : Gen → Gen) : (s.modGen r g f).hazards = s.hazards := rfl
@[simp] theorem State.modGen_lanes (s : State) (r g : Nat) (f : Gen → Gen) : (s.modGen r g f).lanes = s.lanes := rfl
@[simp] theorem State.modGen_wires (s : State) (r g : Nat) (f : Gen → Gen) : (s.modGen r g f).wires = s.wires := rfl
@[simp] theorem State.modGen_dram (s : State) (r g : Nat) (f : Gen → Gen) : (s.modGen r g f).dram = s.dram := rfl
@[simp] theorem State.modGen_badLines (s : State) (r g : Nat) (f : Gen → Gen) : (s.modGen r g f).badLines = s.badLines := rfl
@[simp] theorem State.modGen_banks (s : State) (r g : Nat) (f : Gen → Gen) : (s.modGen r g f).banks = s.banks := rfl
@[simp] theorem State.modGen_windowed (s : State) (r g : Nat) (f : Gen → Gen) : (s.modGen r g f).windowed = s.windowed := rfl
@[simp] theorem State.modGen_copies (s : State) (r g : Nat) (f : Gen → Gen) : (s.modGen r g f).copies = s.copies := rfl
@[simp] theorem State.modGen_accs (s : State) (r g : Nat) (f : Gen → Gen) : (s.modGen r g f).accs = s.accs := rfl
@[simp] theorem State.modGen_unitTlb (s : State) (r g : Nat) (f : Gen → Gen) : (s.modGen r g f).unitTlb = s.unitTlb := rfl
@[simp] theorem State.modGen_schedTlb (s : State) (r g : Nat) (f : Gen → Gen) : (s.modGen r g f).schedTlb = s.schedTlb := rfl
@[simp] theorem State.modGen_brTlb (s : State) (r g : Nat) (f : Gen → Gen) : (s.modGen r g f).brTlb = s.brTlb := rfl
@[simp] theorem State.modGen_dieTlb (s : State) (r g : Nat) (f : Gen → Gen) : (s.modGen r g f).dieTlb = s.dieTlb := rfl
@[simp] theorem State.modGen_walks (s : State) (r g : Nat) (f : Gen → Gen) : (s.modGen r g f).walks = s.walks := rfl
@[simp] theorem State.modGen_wfaults (s : State) (r g : Nat) (f : Gen → Gen) : (s.modGen r g f).wfaults = s.wfaults := rfl
@[simp] theorem State.modGen_motions (s : State) (r g : Nat) (f : Gen → Gen) : (s.modGen r g f).motions = s.motions := rfl
@[simp] theorem State.modGen_agents (s : State) (r g : Nat) (f : Gen → Gen) : (s.modGen r g f).agents = s.agents := rfl
@[simp] theorem State.modGen_engines (s : State) (r g : Nat) (f : Gen → Gen) : (s.modGen r g f).engines = s.engines := rfl
@[simp] theorem State.modGen_packets (s : State) (r g : Nat) (f : Gen → Gen) : (s.modGen r g f).packets = s.packets := rfl
@[simp] theorem State.modGen_tokens (s : State) (r g : Nat) (f : Gen → Gen) : (s.modGen r g f).tokens = s.tokens := rfl
@[simp] theorem State.modGen_links (s : State) (r g : Nat) (f : Gen → Gen) : (s.modGen r g f).links = s.links := rfl
@[simp] theorem State.modGen_peers (s : State) (r g : Nat) (f : Gen → Gen) : (s.modGen r g f).peers = s.peers := rfl
@[simp] theorem State.modGen_cxlen (s : State) (r g : Nat) (f : Gen → Gen) : (s.modGen r g f).cxlen = s.cxlen := rfl
@[simp] theorem State.modGen_cxlLost (s : State) (r g : Nat) (f : Gen → Gen) : (s.modGen r g f).cxlLost = s.cxlLost := rfl
@[simp] theorem State.modGen_booted (s : State) (r g : Nat) (f : Gen → Gen) : (s.modGen r g f).booted = s.booted := rfl
@[simp] theorem State.modGen_hostRead (s : State) (r g : Nat) (f : Gen → Gen) : (s.modGen r g f).hostRead = s.hostRead := rfl
@[simp] theorem State.modGen_hostGib (s : State) (r g : Nat) (f : Gen → Gen) : (s.modGen r g f).hostGib = s.hostGib := rfl
@[simp] theorem State.modGen_plim (s : State) (r g : Nat) (f : Gen → Gen) : (s.modGen r g f).plim = s.plim := rfl
@[simp] theorem State.modGen_bubble (s : State) (r g : Nat) (f : Gen → Gen) : (s.modGen r g f).bubble = s.bubble := rfl
@[simp] theorem State.modGen_hot (s : State) (r g : Nat) (f : Gen → Gen) : (s.modGen r g f).hot = s.hot := rfl
@[simp] theorem State.modGen_window (s : State) (r g : Nat) (f : Gen → Gen) : (s.modGen r g f).window = s.window := rfl

/-! ### modRouter -/

@[simp] theorem State.modRouter_foc (s : State) (r : Nat) (f : Router → Router) : (s.modRouter r f).foc = s.foc := rfl
@[simp] theorem State.modRouter_turns (s : State) (r : Nat) (f : Router → Router) : (s.modRouter r f).turns = s.turns := rfl
@[simp] theorem State.modRouter_draws (s : State) (r : Nat) (f : Router → Router) : (s.modRouter r f).draws = s.draws := rfl
@[simp] theorem State.modRouter_now (s : State) (r : Nat) (f : Router → Router) : (s.modRouter r f).now = s.now := rfl
@[simp] theorem State.modRouter_nextId (s : State) (r : Nat) (f : Router → Router) : (s.modRouter r f).nextId = s.nextId := rfl
@[simp] theorem State.modRouter_later (s : State) (r : Nat) (f : Router → Router) : (s.modRouter r f).later = s.later := rfl
@[simp] theorem State.modRouter_ports (s : State) (r : Nat) (f : Router → Router) : (s.modRouter r f).ports = s.ports := rfl
@[simp] theorem State.modRouter_parts (s : State) (r : Nat) (f : Router → Router) : (s.modRouter r f).parts = s.parts := rfl
@[simp] theorem State.modRouter_subps (s : State) (r : Nat) (f : Router → Router) : (s.modRouter r f).subps = s.subps := rfl
@[simp] theorem State.modRouter_asids (s : State) (r : Nat) (f : Router → Router) : (s.modRouter r f).asids = s.asids := rfl
@[simp] theorem State.modRouter_queues (s : State) (r : Nat) (f : Router → Router) : (s.modRouter r f).queues = s.queues := rfl
@[simp] theorem State.modRouter_tasks (s : State) (r : Nat) (f : Router → Router) : (s.modRouter r f).tasks = s.tasks := rfl
@[simp] theorem State.modRouter_saves (s : State) (r : Nat) (f : Router → Router) : (s.modRouter r f).saves = s.saves := rfl
@[simp] theorem State.modRouter_slices (s : State) (r : Nat) (f : Router → Router) : (s.modRouter r f).slices = s.slices := rfl
@[simp] theorem State.modRouter_regions (s : State) (r : Nat) (f : Router → Router) : (s.modRouter r f).regions = s.regions := rfl
@[simp] theorem State.modRouter_jobs (s : State) (r : Nat) (f : Router → Router) : (s.modRouter r f).jobs = s.jobs := rfl
@[simp] theorem State.modRouter_cfgJoin (s : State) (r : Nat) (f : Router → Router) : (s.modRouter r f).cfgJoin = s.cfgJoin := rfl
@[simp] theorem State.modRouter_saved (s : State) (r : Nat) (f : Router → Router) : (s.modRouter r f).saved = s.saved := rfl
@[simp] theorem State.modRouter_spliced (s : State) (r : Nat) (f : Router → Router) : (s.modRouter r f).spliced = s.spliced := rfl
@[simp] theorem State.modRouter_pool (s : State) (r : Nat) (f : Router → Router) : (s.modRouter r f).pool = s.pool := rfl
@[simp] theorem State.modRouter_startedAt (s : State) (r : Nat) (f : Router → Router) : (s.modRouter r f).startedAt = s.startedAt :=
  rfl
@[simp] theorem State.modRouter_dones (s : State) (r : Nat) (f : Router → Router) : (s.modRouter r f).dones = s.dones := rfl
@[simp] theorem State.modRouter_schedPtr (s : State) (r : Nat) (f : Router → Router) : (s.modRouter r f).schedPtr = s.schedPtr :=
  rfl
@[simp] theorem State.modRouter_schedCr (s : State) (r : Nat) (f : Router → Router) : (s.modRouter r f).schedCr = s.schedCr := rfl
@[simp] theorem State.modRouter_hazards (s : State) (r : Nat) (f : Router → Router) : (s.modRouter r f).hazards = s.hazards := rfl
@[simp] theorem State.modRouter_lanes (s : State) (r : Nat) (f : Router → Router) : (s.modRouter r f).lanes = s.lanes := rfl
@[simp] theorem State.modRouter_wires (s : State) (r : Nat) (f : Router → Router) : (s.modRouter r f).wires = s.wires := rfl
@[simp] theorem State.modRouter_dram (s : State) (r : Nat) (f : Router → Router) : (s.modRouter r f).dram = s.dram := rfl
@[simp] theorem State.modRouter_badLines (s : State) (r : Nat) (f : Router → Router) : (s.modRouter r f).badLines = s.badLines :=
  rfl
@[simp] theorem State.modRouter_banks (s : State) (r : Nat) (f : Router → Router) : (s.modRouter r f).banks = s.banks := rfl
@[simp] theorem State.modRouter_windowed (s : State) (r : Nat) (f : Router → Router) : (s.modRouter r f).windowed = s.windowed :=
  rfl
@[simp] theorem State.modRouter_copies (s : State) (r : Nat) (f : Router → Router) : (s.modRouter r f).copies = s.copies := rfl
@[simp] theorem State.modRouter_accs (s : State) (r : Nat) (f : Router → Router) : (s.modRouter r f).accs = s.accs := rfl
@[simp] theorem State.modRouter_unitTlb (s : State) (r : Nat) (f : Router → Router) : (s.modRouter r f).unitTlb = s.unitTlb := rfl
@[simp] theorem State.modRouter_schedTlb (s : State) (r : Nat) (f : Router → Router) : (s.modRouter r f).schedTlb = s.schedTlb :=
  rfl
@[simp] theorem State.modRouter_brTlb (s : State) (r : Nat) (f : Router → Router) : (s.modRouter r f).brTlb = s.brTlb := rfl
@[simp] theorem State.modRouter_dieTlb (s : State) (r : Nat) (f : Router → Router) : (s.modRouter r f).dieTlb = s.dieTlb := rfl
@[simp] theorem State.modRouter_walks (s : State) (r : Nat) (f : Router → Router) : (s.modRouter r f).walks = s.walks := rfl
@[simp] theorem State.modRouter_wfaults (s : State) (r : Nat) (f : Router → Router) : (s.modRouter r f).wfaults = s.wfaults := rfl
@[simp] theorem State.modRouter_motions (s : State) (r : Nat) (f : Router → Router) : (s.modRouter r f).motions = s.motions := rfl
@[simp] theorem State.modRouter_agents (s : State) (r : Nat) (f : Router → Router) : (s.modRouter r f).agents = s.agents := rfl
@[simp] theorem State.modRouter_engines (s : State) (r : Nat) (f : Router → Router) : (s.modRouter r f).engines = s.engines := rfl
@[simp] theorem State.modRouter_packets (s : State) (r : Nat) (f : Router → Router) : (s.modRouter r f).packets = s.packets := rfl
@[simp] theorem State.modRouter_tokens (s : State) (r : Nat) (f : Router → Router) : (s.modRouter r f).tokens = s.tokens := rfl
@[simp] theorem State.modRouter_links (s : State) (r : Nat) (f : Router → Router) : (s.modRouter r f).links = s.links := rfl
@[simp] theorem State.modRouter_peers (s : State) (r : Nat) (f : Router → Router) : (s.modRouter r f).peers = s.peers := rfl
@[simp] theorem State.modRouter_cxlen (s : State) (r : Nat) (f : Router → Router) : (s.modRouter r f).cxlen = s.cxlen := rfl
@[simp] theorem State.modRouter_cxlLost (s : State) (r : Nat) (f : Router → Router) : (s.modRouter r f).cxlLost = s.cxlLost := rfl
@[simp] theorem State.modRouter_booted (s : State) (r : Nat) (f : Router → Router) : (s.modRouter r f).booted = s.booted := rfl
@[simp] theorem State.modRouter_hostRead (s : State) (r : Nat) (f : Router → Router) : (s.modRouter r f).hostRead = s.hostRead :=
  rfl
@[simp] theorem State.modRouter_hostGib (s : State) (r : Nat) (f : Router → Router) : (s.modRouter r f).hostGib = s.hostGib := rfl
@[simp] theorem State.modRouter_plim (s : State) (r : Nat) (f : Router → Router) : (s.modRouter r f).plim = s.plim := rfl
@[simp] theorem State.modRouter_bubble (s : State) (r : Nat) (f : Router → Router) : (s.modRouter r f).bubble = s.bubble := rfl
@[simp] theorem State.modRouter_hot (s : State) (r : Nat) (f : Router → Router) : (s.modRouter r f).hot = s.hot := rfl
@[simp] theorem State.modRouter_window (s : State) (r : Nat) (f : Router → Router) : (s.modRouter r f).window = s.window := rfl

/-! ### modMx -/

@[simp] theorem State.modMx_foc (s : State) (r : Nat) (f : Matrix → Matrix) : (s.modMx r f).foc = s.foc := rfl
@[simp] theorem State.modMx_turns (s : State) (r : Nat) (f : Matrix → Matrix) : (s.modMx r f).turns = s.turns := rfl
@[simp] theorem State.modMx_draws (s : State) (r : Nat) (f : Matrix → Matrix) : (s.modMx r f).draws = s.draws := rfl
@[simp] theorem State.modMx_now (s : State) (r : Nat) (f : Matrix → Matrix) : (s.modMx r f).now = s.now := rfl
@[simp] theorem State.modMx_nextId (s : State) (r : Nat) (f : Matrix → Matrix) : (s.modMx r f).nextId = s.nextId := rfl
@[simp] theorem State.modMx_later (s : State) (r : Nat) (f : Matrix → Matrix) : (s.modMx r f).later = s.later := rfl
@[simp] theorem State.modMx_ports (s : State) (r : Nat) (f : Matrix → Matrix) : (s.modMx r f).ports = s.ports := rfl
@[simp] theorem State.modMx_parts (s : State) (r : Nat) (f : Matrix → Matrix) : (s.modMx r f).parts = s.parts := rfl
@[simp] theorem State.modMx_subps (s : State) (r : Nat) (f : Matrix → Matrix) : (s.modMx r f).subps = s.subps := rfl
@[simp] theorem State.modMx_asids (s : State) (r : Nat) (f : Matrix → Matrix) : (s.modMx r f).asids = s.asids := rfl
@[simp] theorem State.modMx_queues (s : State) (r : Nat) (f : Matrix → Matrix) : (s.modMx r f).queues = s.queues := rfl
@[simp] theorem State.modMx_tasks (s : State) (r : Nat) (f : Matrix → Matrix) : (s.modMx r f).tasks = s.tasks := rfl
@[simp] theorem State.modMx_saves (s : State) (r : Nat) (f : Matrix → Matrix) : (s.modMx r f).saves = s.saves := rfl
@[simp] theorem State.modMx_slices (s : State) (r : Nat) (f : Matrix → Matrix) : (s.modMx r f).slices = s.slices := rfl
@[simp] theorem State.modMx_regions (s : State) (r : Nat) (f : Matrix → Matrix) : (s.modMx r f).regions = s.regions := rfl
@[simp] theorem State.modMx_jobs (s : State) (r : Nat) (f : Matrix → Matrix) : (s.modMx r f).jobs = s.jobs := rfl
@[simp] theorem State.modMx_cfgJoin (s : State) (r : Nat) (f : Matrix → Matrix) : (s.modMx r f).cfgJoin = s.cfgJoin := rfl
@[simp] theorem State.modMx_saved (s : State) (r : Nat) (f : Matrix → Matrix) : (s.modMx r f).saved = s.saved := rfl
@[simp] theorem State.modMx_spliced (s : State) (r : Nat) (f : Matrix → Matrix) : (s.modMx r f).spliced = s.spliced := rfl
@[simp] theorem State.modMx_pool (s : State) (r : Nat) (f : Matrix → Matrix) : (s.modMx r f).pool = s.pool := rfl
@[simp] theorem State.modMx_startedAt (s : State) (r : Nat) (f : Matrix → Matrix) : (s.modMx r f).startedAt = s.startedAt := rfl
@[simp] theorem State.modMx_dones (s : State) (r : Nat) (f : Matrix → Matrix) : (s.modMx r f).dones = s.dones := rfl
@[simp] theorem State.modMx_schedPtr (s : State) (r : Nat) (f : Matrix → Matrix) : (s.modMx r f).schedPtr = s.schedPtr := rfl
@[simp] theorem State.modMx_schedCr (s : State) (r : Nat) (f : Matrix → Matrix) : (s.modMx r f).schedCr = s.schedCr := rfl
@[simp] theorem State.modMx_hazards (s : State) (r : Nat) (f : Matrix → Matrix) : (s.modMx r f).hazards = s.hazards := rfl
@[simp] theorem State.modMx_lanes (s : State) (r : Nat) (f : Matrix → Matrix) : (s.modMx r f).lanes = s.lanes := rfl
@[simp] theorem State.modMx_wires (s : State) (r : Nat) (f : Matrix → Matrix) : (s.modMx r f).wires = s.wires := rfl
@[simp] theorem State.modMx_dram (s : State) (r : Nat) (f : Matrix → Matrix) : (s.modMx r f).dram = s.dram := rfl
@[simp] theorem State.modMx_badLines (s : State) (r : Nat) (f : Matrix → Matrix) : (s.modMx r f).badLines = s.badLines := rfl
@[simp] theorem State.modMx_banks (s : State) (r : Nat) (f : Matrix → Matrix) : (s.modMx r f).banks = s.banks := rfl
@[simp] theorem State.modMx_windowed (s : State) (r : Nat) (f : Matrix → Matrix) : (s.modMx r f).windowed = s.windowed := rfl
@[simp] theorem State.modMx_copies (s : State) (r : Nat) (f : Matrix → Matrix) : (s.modMx r f).copies = s.copies := rfl
@[simp] theorem State.modMx_accs (s : State) (r : Nat) (f : Matrix → Matrix) : (s.modMx r f).accs = s.accs := rfl
@[simp] theorem State.modMx_unitTlb (s : State) (r : Nat) (f : Matrix → Matrix) : (s.modMx r f).unitTlb = s.unitTlb := rfl
@[simp] theorem State.modMx_schedTlb (s : State) (r : Nat) (f : Matrix → Matrix) : (s.modMx r f).schedTlb = s.schedTlb := rfl
@[simp] theorem State.modMx_brTlb (s : State) (r : Nat) (f : Matrix → Matrix) : (s.modMx r f).brTlb = s.brTlb := rfl
@[simp] theorem State.modMx_dieTlb (s : State) (r : Nat) (f : Matrix → Matrix) : (s.modMx r f).dieTlb = s.dieTlb := rfl
@[simp] theorem State.modMx_walks (s : State) (r : Nat) (f : Matrix → Matrix) : (s.modMx r f).walks = s.walks := rfl
@[simp] theorem State.modMx_wfaults (s : State) (r : Nat) (f : Matrix → Matrix) : (s.modMx r f).wfaults = s.wfaults := rfl
@[simp] theorem State.modMx_motions (s : State) (r : Nat) (f : Matrix → Matrix) : (s.modMx r f).motions = s.motions := rfl
@[simp] theorem State.modMx_agents (s : State) (r : Nat) (f : Matrix → Matrix) : (s.modMx r f).agents = s.agents := rfl
@[simp] theorem State.modMx_engines (s : State) (r : Nat) (f : Matrix → Matrix) : (s.modMx r f).engines = s.engines := rfl
@[simp] theorem State.modMx_packets (s : State) (r : Nat) (f : Matrix → Matrix) : (s.modMx r f).packets = s.packets := rfl
@[simp] theorem State.modMx_tokens (s : State) (r : Nat) (f : Matrix → Matrix) : (s.modMx r f).tokens = s.tokens := rfl
@[simp] theorem State.modMx_links (s : State) (r : Nat) (f : Matrix → Matrix) : (s.modMx r f).links = s.links := rfl
@[simp] theorem State.modMx_peers (s : State) (r : Nat) (f : Matrix → Matrix) : (s.modMx r f).peers = s.peers := rfl
@[simp] theorem State.modMx_cxlen (s : State) (r : Nat) (f : Matrix → Matrix) : (s.modMx r f).cxlen = s.cxlen := rfl
@[simp] theorem State.modMx_cxlLost (s : State) (r : Nat) (f : Matrix → Matrix) : (s.modMx r f).cxlLost = s.cxlLost := rfl
@[simp] theorem State.modMx_booted (s : State) (r : Nat) (f : Matrix → Matrix) : (s.modMx r f).booted = s.booted := rfl
@[simp] theorem State.modMx_hostRead (s : State) (r : Nat) (f : Matrix → Matrix) : (s.modMx r f).hostRead = s.hostRead := rfl
@[simp] theorem State.modMx_hostGib (s : State) (r : Nat) (f : Matrix → Matrix) : (s.modMx r f).hostGib = s.hostGib := rfl
@[simp] theorem State.modMx_plim (s : State) (r : Nat) (f : Matrix → Matrix) : (s.modMx r f).plim = s.plim := rfl
@[simp] theorem State.modMx_bubble (s : State) (r : Nat) (f : Matrix → Matrix) : (s.modMx r f).bubble = s.bubble := rfl
@[simp] theorem State.modMx_hot (s : State) (r : Nat) (f : Matrix → Matrix) : (s.modMx r f).hot = s.hot := rfl
@[simp] theorem State.modMx_window (s : State) (r : Nat) (f : Matrix → Matrix) : (s.modMx r f).window = s.window := rfl

/-! ### modScan -/

@[simp] theorem State.modScan_foc (s : State) (r : Nat) (f : Scan → Scan) : (s.modScan r f).foc = s.foc := rfl
@[simp] theorem State.modScan_turns (s : State) (r : Nat) (f : Scan → Scan) : (s.modScan r f).turns = s.turns := rfl
@[simp] theorem State.modScan_draws (s : State) (r : Nat) (f : Scan → Scan) : (s.modScan r f).draws = s.draws := rfl
@[simp] theorem State.modScan_now (s : State) (r : Nat) (f : Scan → Scan) : (s.modScan r f).now = s.now := rfl
@[simp] theorem State.modScan_nextId (s : State) (r : Nat) (f : Scan → Scan) : (s.modScan r f).nextId = s.nextId := rfl
@[simp] theorem State.modScan_later (s : State) (r : Nat) (f : Scan → Scan) : (s.modScan r f).later = s.later := rfl
@[simp] theorem State.modScan_ports (s : State) (r : Nat) (f : Scan → Scan) : (s.modScan r f).ports = s.ports := rfl
@[simp] theorem State.modScan_parts (s : State) (r : Nat) (f : Scan → Scan) : (s.modScan r f).parts = s.parts := rfl
@[simp] theorem State.modScan_subps (s : State) (r : Nat) (f : Scan → Scan) : (s.modScan r f).subps = s.subps := rfl
@[simp] theorem State.modScan_asids (s : State) (r : Nat) (f : Scan → Scan) : (s.modScan r f).asids = s.asids := rfl
@[simp] theorem State.modScan_queues (s : State) (r : Nat) (f : Scan → Scan) : (s.modScan r f).queues = s.queues := rfl
@[simp] theorem State.modScan_tasks (s : State) (r : Nat) (f : Scan → Scan) : (s.modScan r f).tasks = s.tasks := rfl
@[simp] theorem State.modScan_saves (s : State) (r : Nat) (f : Scan → Scan) : (s.modScan r f).saves = s.saves := rfl
@[simp] theorem State.modScan_slices (s : State) (r : Nat) (f : Scan → Scan) : (s.modScan r f).slices = s.slices := rfl
@[simp] theorem State.modScan_regions (s : State) (r : Nat) (f : Scan → Scan) : (s.modScan r f).regions = s.regions := rfl
@[simp] theorem State.modScan_jobs (s : State) (r : Nat) (f : Scan → Scan) : (s.modScan r f).jobs = s.jobs := rfl
@[simp] theorem State.modScan_cfgJoin (s : State) (r : Nat) (f : Scan → Scan) : (s.modScan r f).cfgJoin = s.cfgJoin := rfl
@[simp] theorem State.modScan_saved (s : State) (r : Nat) (f : Scan → Scan) : (s.modScan r f).saved = s.saved := rfl
@[simp] theorem State.modScan_spliced (s : State) (r : Nat) (f : Scan → Scan) : (s.modScan r f).spliced = s.spliced := rfl
@[simp] theorem State.modScan_pool (s : State) (r : Nat) (f : Scan → Scan) : (s.modScan r f).pool = s.pool := rfl
@[simp] theorem State.modScan_startedAt (s : State) (r : Nat) (f : Scan → Scan) : (s.modScan r f).startedAt = s.startedAt := rfl
@[simp] theorem State.modScan_dones (s : State) (r : Nat) (f : Scan → Scan) : (s.modScan r f).dones = s.dones := rfl
@[simp] theorem State.modScan_schedPtr (s : State) (r : Nat) (f : Scan → Scan) : (s.modScan r f).schedPtr = s.schedPtr := rfl
@[simp] theorem State.modScan_schedCr (s : State) (r : Nat) (f : Scan → Scan) : (s.modScan r f).schedCr = s.schedCr := rfl
@[simp] theorem State.modScan_hazards (s : State) (r : Nat) (f : Scan → Scan) : (s.modScan r f).hazards = s.hazards := rfl
@[simp] theorem State.modScan_lanes (s : State) (r : Nat) (f : Scan → Scan) : (s.modScan r f).lanes = s.lanes := rfl
@[simp] theorem State.modScan_wires (s : State) (r : Nat) (f : Scan → Scan) : (s.modScan r f).wires = s.wires := rfl
@[simp] theorem State.modScan_dram (s : State) (r : Nat) (f : Scan → Scan) : (s.modScan r f).dram = s.dram := rfl
@[simp] theorem State.modScan_badLines (s : State) (r : Nat) (f : Scan → Scan) : (s.modScan r f).badLines = s.badLines := rfl
@[simp] theorem State.modScan_banks (s : State) (r : Nat) (f : Scan → Scan) : (s.modScan r f).banks = s.banks := rfl
@[simp] theorem State.modScan_windowed (s : State) (r : Nat) (f : Scan → Scan) : (s.modScan r f).windowed = s.windowed := rfl
@[simp] theorem State.modScan_copies (s : State) (r : Nat) (f : Scan → Scan) : (s.modScan r f).copies = s.copies := rfl
@[simp] theorem State.modScan_accs (s : State) (r : Nat) (f : Scan → Scan) : (s.modScan r f).accs = s.accs := rfl
@[simp] theorem State.modScan_unitTlb (s : State) (r : Nat) (f : Scan → Scan) : (s.modScan r f).unitTlb = s.unitTlb := rfl
@[simp] theorem State.modScan_schedTlb (s : State) (r : Nat) (f : Scan → Scan) : (s.modScan r f).schedTlb = s.schedTlb := rfl
@[simp] theorem State.modScan_brTlb (s : State) (r : Nat) (f : Scan → Scan) : (s.modScan r f).brTlb = s.brTlb := rfl
@[simp] theorem State.modScan_dieTlb (s : State) (r : Nat) (f : Scan → Scan) : (s.modScan r f).dieTlb = s.dieTlb := rfl
@[simp] theorem State.modScan_walks (s : State) (r : Nat) (f : Scan → Scan) : (s.modScan r f).walks = s.walks := rfl
@[simp] theorem State.modScan_wfaults (s : State) (r : Nat) (f : Scan → Scan) : (s.modScan r f).wfaults = s.wfaults := rfl
@[simp] theorem State.modScan_motions (s : State) (r : Nat) (f : Scan → Scan) : (s.modScan r f).motions = s.motions := rfl
@[simp] theorem State.modScan_agents (s : State) (r : Nat) (f : Scan → Scan) : (s.modScan r f).agents = s.agents := rfl
@[simp] theorem State.modScan_engines (s : State) (r : Nat) (f : Scan → Scan) : (s.modScan r f).engines = s.engines := rfl
@[simp] theorem State.modScan_packets (s : State) (r : Nat) (f : Scan → Scan) : (s.modScan r f).packets = s.packets := rfl
@[simp] theorem State.modScan_tokens (s : State) (r : Nat) (f : Scan → Scan) : (s.modScan r f).tokens = s.tokens := rfl
@[simp] theorem State.modScan_links (s : State) (r : Nat) (f : Scan → Scan) : (s.modScan r f).links = s.links := rfl
@[simp] theorem State.modScan_peers (s : State) (r : Nat) (f : Scan → Scan) : (s.modScan r f).peers = s.peers := rfl
@[simp] theorem State.modScan_cxlen (s : State) (r : Nat) (f : Scan → Scan) : (s.modScan r f).cxlen = s.cxlen := rfl
@[simp] theorem State.modScan_cxlLost (s : State) (r : Nat) (f : Scan → Scan) : (s.modScan r f).cxlLost = s.cxlLost := rfl
@[simp] theorem State.modScan_booted (s : State) (r : Nat) (f : Scan → Scan) : (s.modScan r f).booted = s.booted := rfl
@[simp] theorem State.modScan_hostRead (s : State) (r : Nat) (f : Scan → Scan) : (s.modScan r f).hostRead = s.hostRead := rfl
@[simp] theorem State.modScan_hostGib (s : State) (r : Nat) (f : Scan → Scan) : (s.modScan r f).hostGib = s.hostGib := rfl
@[simp] theorem State.modScan_plim (s : State) (r : Nat) (f : Scan → Scan) : (s.modScan r f).plim = s.plim := rfl
@[simp] theorem State.modScan_bubble (s : State) (r : Nat) (f : Scan → Scan) : (s.modScan r f).bubble = s.bubble := rfl
@[simp] theorem State.modScan_hot (s : State) (r : Nat) (f : Scan → Scan) : (s.modScan r f).hot = s.hot := rfl
@[simp] theorem State.modScan_window (s : State) (r : Nat) (f : Scan → Scan) : (s.modScan r f).window = s.window := rfl

/-! ### modPart -/

@[simp] theorem State.modPart_foc (s : State) (p : Nat) (f : Partition → Partition) : (s.modPart p f).foc = s.foc := rfl
@[simp] theorem State.modPart_turns (s : State) (p : Nat) (f : Partition → Partition) : (s.modPart p f).turns = s.turns := rfl
@[simp] theorem State.modPart_draws (s : State) (p : Nat) (f : Partition → Partition) : (s.modPart p f).draws = s.draws := rfl
@[simp] theorem State.modPart_now (s : State) (p : Nat) (f : Partition → Partition) : (s.modPart p f).now = s.now := rfl
@[simp] theorem State.modPart_nextId (s : State) (p : Nat) (f : Partition → Partition) : (s.modPart p f).nextId = s.nextId := rfl
@[simp] theorem State.modPart_later (s : State) (p : Nat) (f : Partition → Partition) : (s.modPart p f).later = s.later := rfl
@[simp] theorem State.modPart_ports (s : State) (p : Nat) (f : Partition → Partition) : (s.modPart p f).ports = s.ports := rfl
@[simp] theorem State.modPart_tiles (s : State) (p : Nat) (f : Partition → Partition) : (s.modPart p f).tiles = s.tiles := rfl
@[simp] theorem State.modPart_subps (s : State) (p : Nat) (f : Partition → Partition) : (s.modPart p f).subps = s.subps := rfl
@[simp] theorem State.modPart_asids (s : State) (p : Nat) (f : Partition → Partition) : (s.modPart p f).asids = s.asids := rfl
@[simp] theorem State.modPart_queues (s : State) (p : Nat) (f : Partition → Partition) : (s.modPart p f).queues = s.queues := rfl
@[simp] theorem State.modPart_tasks (s : State) (p : Nat) (f : Partition → Partition) : (s.modPart p f).tasks = s.tasks := rfl
@[simp] theorem State.modPart_saves (s : State) (p : Nat) (f : Partition → Partition) : (s.modPart p f).saves = s.saves := rfl
@[simp] theorem State.modPart_slices (s : State) (p : Nat) (f : Partition → Partition) : (s.modPart p f).slices = s.slices := rfl
@[simp] theorem State.modPart_regions (s : State) (p : Nat) (f : Partition → Partition) : (s.modPart p f).regions = s.regions :=
  rfl
@[simp] theorem State.modPart_jobs (s : State) (p : Nat) (f : Partition → Partition) : (s.modPart p f).jobs = s.jobs := rfl
@[simp] theorem State.modPart_cfgJoin (s : State) (p : Nat) (f : Partition → Partition) : (s.modPart p f).cfgJoin = s.cfgJoin :=
  rfl
@[simp] theorem State.modPart_saved (s : State) (p : Nat) (f : Partition → Partition) : (s.modPart p f).saved = s.saved := rfl
@[simp] theorem State.modPart_spliced (s : State) (p : Nat) (f : Partition → Partition) : (s.modPart p f).spliced = s.spliced :=
  rfl
@[simp] theorem State.modPart_pool (s : State) (p : Nat) (f : Partition → Partition) : (s.modPart p f).pool = s.pool := rfl
@[simp] theorem State.modPart_startedAt (s : State) (p : Nat) (f : Partition → Partition) : (s.modPart p f).startedAt = s.startedAt :=
  rfl
@[simp] theorem State.modPart_dones (s : State) (p : Nat) (f : Partition → Partition) : (s.modPart p f).dones = s.dones := rfl
@[simp] theorem State.modPart_schedPtr (s : State) (p : Nat) (f : Partition → Partition) : (s.modPart p f).schedPtr = s.schedPtr :=
  rfl
@[simp] theorem State.modPart_schedCr (s : State) (p : Nat) (f : Partition → Partition) : (s.modPart p f).schedCr = s.schedCr :=
  rfl
@[simp] theorem State.modPart_hazards (s : State) (p : Nat) (f : Partition → Partition) : (s.modPart p f).hazards = s.hazards :=
  rfl
@[simp] theorem State.modPart_lanes (s : State) (p : Nat) (f : Partition → Partition) : (s.modPart p f).lanes = s.lanes := rfl
@[simp] theorem State.modPart_wires (s : State) (p : Nat) (f : Partition → Partition) : (s.modPart p f).wires = s.wires := rfl
@[simp] theorem State.modPart_dram (s : State) (p : Nat) (f : Partition → Partition) : (s.modPart p f).dram = s.dram := rfl
@[simp] theorem State.modPart_badLines (s : State) (p : Nat) (f : Partition → Partition) : (s.modPart p f).badLines = s.badLines :=
  rfl
@[simp] theorem State.modPart_banks (s : State) (p : Nat) (f : Partition → Partition) : (s.modPart p f).banks = s.banks := rfl
@[simp] theorem State.modPart_windowed (s : State) (p : Nat) (f : Partition → Partition) : (s.modPart p f).windowed = s.windowed :=
  rfl
@[simp] theorem State.modPart_copies (s : State) (p : Nat) (f : Partition → Partition) : (s.modPart p f).copies = s.copies := rfl
@[simp] theorem State.modPart_accs (s : State) (p : Nat) (f : Partition → Partition) : (s.modPart p f).accs = s.accs := rfl
@[simp] theorem State.modPart_unitTlb (s : State) (p : Nat) (f : Partition → Partition) : (s.modPart p f).unitTlb = s.unitTlb :=
  rfl
@[simp] theorem State.modPart_schedTlb (s : State) (p : Nat) (f : Partition → Partition) : (s.modPart p f).schedTlb = s.schedTlb :=
  rfl
@[simp] theorem State.modPart_brTlb (s : State) (p : Nat) (f : Partition → Partition) : (s.modPart p f).brTlb = s.brTlb := rfl
@[simp] theorem State.modPart_dieTlb (s : State) (p : Nat) (f : Partition → Partition) : (s.modPart p f).dieTlb = s.dieTlb := rfl
@[simp] theorem State.modPart_walks (s : State) (p : Nat) (f : Partition → Partition) : (s.modPart p f).walks = s.walks := rfl
@[simp] theorem State.modPart_wfaults (s : State) (p : Nat) (f : Partition → Partition) : (s.modPart p f).wfaults = s.wfaults :=
  rfl
@[simp] theorem State.modPart_motions (s : State) (p : Nat) (f : Partition → Partition) : (s.modPart p f).motions = s.motions :=
  rfl
@[simp] theorem State.modPart_agents (s : State) (p : Nat) (f : Partition → Partition) : (s.modPart p f).agents = s.agents := rfl
@[simp] theorem State.modPart_engines (s : State) (p : Nat) (f : Partition → Partition) : (s.modPart p f).engines = s.engines :=
  rfl
@[simp] theorem State.modPart_packets (s : State) (p : Nat) (f : Partition → Partition) : (s.modPart p f).packets = s.packets :=
  rfl
@[simp] theorem State.modPart_tokens (s : State) (p : Nat) (f : Partition → Partition) : (s.modPart p f).tokens = s.tokens := rfl
@[simp] theorem State.modPart_links (s : State) (p : Nat) (f : Partition → Partition) : (s.modPart p f).links = s.links := rfl
@[simp] theorem State.modPart_peers (s : State) (p : Nat) (f : Partition → Partition) : (s.modPart p f).peers = s.peers := rfl
@[simp] theorem State.modPart_cxlen (s : State) (p : Nat) (f : Partition → Partition) : (s.modPart p f).cxlen = s.cxlen := rfl
@[simp] theorem State.modPart_cxlLost (s : State) (p : Nat) (f : Partition → Partition) : (s.modPart p f).cxlLost = s.cxlLost :=
  rfl
@[simp] theorem State.modPart_booted (s : State) (p : Nat) (f : Partition → Partition) : (s.modPart p f).booted = s.booted := rfl
@[simp] theorem State.modPart_hostRead (s : State) (p : Nat) (f : Partition → Partition) : (s.modPart p f).hostRead = s.hostRead :=
  rfl
@[simp] theorem State.modPart_hostGib (s : State) (p : Nat) (f : Partition → Partition) : (s.modPart p f).hostGib = s.hostGib :=
  rfl
@[simp] theorem State.modPart_plim (s : State) (p : Nat) (f : Partition → Partition) : (s.modPart p f).plim = s.plim := rfl
@[simp] theorem State.modPart_bubble (s : State) (p : Nat) (f : Partition → Partition) : (s.modPart p f).bubble = s.bubble := rfl
@[simp] theorem State.modPart_hot (s : State) (p : Nat) (f : Partition → Partition) : (s.modPart p f).hot = s.hot := rfl
@[simp] theorem State.modPart_window (s : State) (p : Nat) (f : Partition → Partition) : (s.modPart p f).window = s.window := rfl

/-! ### modSubp -/

@[simp] theorem State.modSubp_foc (s : State) (n : Nat) (f : SubPart → SubPart) : (s.modSubp n f).foc = s.foc := rfl
@[simp] theorem State.modSubp_turns (s : State) (n : Nat) (f : SubPart → SubPart) : (s.modSubp n f).turns = s.turns := rfl
@[simp] theorem State.modSubp_draws (s : State) (n : Nat) (f : SubPart → SubPart) : (s.modSubp n f).draws = s.draws := rfl
@[simp] theorem State.modSubp_now (s : State) (n : Nat) (f : SubPart → SubPart) : (s.modSubp n f).now = s.now := rfl
@[simp] theorem State.modSubp_nextId (s : State) (n : Nat) (f : SubPart → SubPart) : (s.modSubp n f).nextId = s.nextId := rfl
@[simp] theorem State.modSubp_later (s : State) (n : Nat) (f : SubPart → SubPart) : (s.modSubp n f).later = s.later := rfl
@[simp] theorem State.modSubp_ports (s : State) (n : Nat) (f : SubPart → SubPart) : (s.modSubp n f).ports = s.ports := rfl
@[simp] theorem State.modSubp_tiles (s : State) (n : Nat) (f : SubPart → SubPart) : (s.modSubp n f).tiles = s.tiles := rfl
@[simp] theorem State.modSubp_parts (s : State) (n : Nat) (f : SubPart → SubPart) : (s.modSubp n f).parts = s.parts := rfl
@[simp] theorem State.modSubp_asids (s : State) (n : Nat) (f : SubPart → SubPart) : (s.modSubp n f).asids = s.asids := rfl
@[simp] theorem State.modSubp_queues (s : State) (n : Nat) (f : SubPart → SubPart) : (s.modSubp n f).queues = s.queues := rfl
@[simp] theorem State.modSubp_tasks (s : State) (n : Nat) (f : SubPart → SubPart) : (s.modSubp n f).tasks = s.tasks := rfl
@[simp] theorem State.modSubp_saves (s : State) (n : Nat) (f : SubPart → SubPart) : (s.modSubp n f).saves = s.saves := rfl
@[simp] theorem State.modSubp_slices (s : State) (n : Nat) (f : SubPart → SubPart) : (s.modSubp n f).slices = s.slices := rfl
@[simp] theorem State.modSubp_regions (s : State) (n : Nat) (f : SubPart → SubPart) : (s.modSubp n f).regions = s.regions := rfl
@[simp] theorem State.modSubp_jobs (s : State) (n : Nat) (f : SubPart → SubPart) : (s.modSubp n f).jobs = s.jobs := rfl
@[simp] theorem State.modSubp_cfgJoin (s : State) (n : Nat) (f : SubPart → SubPart) : (s.modSubp n f).cfgJoin = s.cfgJoin := rfl
@[simp] theorem State.modSubp_saved (s : State) (n : Nat) (f : SubPart → SubPart) : (s.modSubp n f).saved = s.saved := rfl
@[simp] theorem State.modSubp_spliced (s : State) (n : Nat) (f : SubPart → SubPart) : (s.modSubp n f).spliced = s.spliced := rfl
@[simp] theorem State.modSubp_pool (s : State) (n : Nat) (f : SubPart → SubPart) : (s.modSubp n f).pool = s.pool := rfl
@[simp] theorem State.modSubp_startedAt (s : State) (n : Nat) (f : SubPart → SubPart) : (s.modSubp n f).startedAt = s.startedAt :=
  rfl
@[simp] theorem State.modSubp_dones (s : State) (n : Nat) (f : SubPart → SubPart) : (s.modSubp n f).dones = s.dones := rfl
@[simp] theorem State.modSubp_schedPtr (s : State) (n : Nat) (f : SubPart → SubPart) : (s.modSubp n f).schedPtr = s.schedPtr :=
  rfl
@[simp] theorem State.modSubp_schedCr (s : State) (n : Nat) (f : SubPart → SubPart) : (s.modSubp n f).schedCr = s.schedCr := rfl
@[simp] theorem State.modSubp_hazards (s : State) (n : Nat) (f : SubPart → SubPart) : (s.modSubp n f).hazards = s.hazards := rfl
@[simp] theorem State.modSubp_lanes (s : State) (n : Nat) (f : SubPart → SubPart) : (s.modSubp n f).lanes = s.lanes := rfl
@[simp] theorem State.modSubp_wires (s : State) (n : Nat) (f : SubPart → SubPart) : (s.modSubp n f).wires = s.wires := rfl
@[simp] theorem State.modSubp_dram (s : State) (n : Nat) (f : SubPart → SubPart) : (s.modSubp n f).dram = s.dram := rfl
@[simp] theorem State.modSubp_badLines (s : State) (n : Nat) (f : SubPart → SubPart) : (s.modSubp n f).badLines = s.badLines :=
  rfl
@[simp] theorem State.modSubp_banks (s : State) (n : Nat) (f : SubPart → SubPart) : (s.modSubp n f).banks = s.banks := rfl
@[simp] theorem State.modSubp_windowed (s : State) (n : Nat) (f : SubPart → SubPart) : (s.modSubp n f).windowed = s.windowed :=
  rfl
@[simp] theorem State.modSubp_copies (s : State) (n : Nat) (f : SubPart → SubPart) : (s.modSubp n f).copies = s.copies := rfl
@[simp] theorem State.modSubp_accs (s : State) (n : Nat) (f : SubPart → SubPart) : (s.modSubp n f).accs = s.accs := rfl
@[simp] theorem State.modSubp_unitTlb (s : State) (n : Nat) (f : SubPart → SubPart) : (s.modSubp n f).unitTlb = s.unitTlb := rfl
@[simp] theorem State.modSubp_schedTlb (s : State) (n : Nat) (f : SubPart → SubPart) : (s.modSubp n f).schedTlb = s.schedTlb :=
  rfl
@[simp] theorem State.modSubp_brTlb (s : State) (n : Nat) (f : SubPart → SubPart) : (s.modSubp n f).brTlb = s.brTlb := rfl
@[simp] theorem State.modSubp_dieTlb (s : State) (n : Nat) (f : SubPart → SubPart) : (s.modSubp n f).dieTlb = s.dieTlb := rfl
@[simp] theorem State.modSubp_walks (s : State) (n : Nat) (f : SubPart → SubPart) : (s.modSubp n f).walks = s.walks := rfl
@[simp] theorem State.modSubp_wfaults (s : State) (n : Nat) (f : SubPart → SubPart) : (s.modSubp n f).wfaults = s.wfaults := rfl
@[simp] theorem State.modSubp_motions (s : State) (n : Nat) (f : SubPart → SubPart) : (s.modSubp n f).motions = s.motions := rfl
@[simp] theorem State.modSubp_agents (s : State) (n : Nat) (f : SubPart → SubPart) : (s.modSubp n f).agents = s.agents := rfl
@[simp] theorem State.modSubp_engines (s : State) (n : Nat) (f : SubPart → SubPart) : (s.modSubp n f).engines = s.engines := rfl
@[simp] theorem State.modSubp_packets (s : State) (n : Nat) (f : SubPart → SubPart) : (s.modSubp n f).packets = s.packets := rfl
@[simp] theorem State.modSubp_tokens (s : State) (n : Nat) (f : SubPart → SubPart) : (s.modSubp n f).tokens = s.tokens := rfl
@[simp] theorem State.modSubp_links (s : State) (n : Nat) (f : SubPart → SubPart) : (s.modSubp n f).links = s.links := rfl
@[simp] theorem State.modSubp_peers (s : State) (n : Nat) (f : SubPart → SubPart) : (s.modSubp n f).peers = s.peers := rfl
@[simp] theorem State.modSubp_cxlen (s : State) (n : Nat) (f : SubPart → SubPart) : (s.modSubp n f).cxlen = s.cxlen := rfl
@[simp] theorem State.modSubp_cxlLost (s : State) (n : Nat) (f : SubPart → SubPart) : (s.modSubp n f).cxlLost = s.cxlLost := rfl
@[simp] theorem State.modSubp_booted (s : State) (n : Nat) (f : SubPart → SubPart) : (s.modSubp n f).booted = s.booted := rfl
@[simp] theorem State.modSubp_hostRead (s : State) (n : Nat) (f : SubPart → SubPart) : (s.modSubp n f).hostRead = s.hostRead :=
  rfl
@[simp] theorem State.modSubp_hostGib (s : State) (n : Nat) (f : SubPart → SubPart) : (s.modSubp n f).hostGib = s.hostGib := rfl
@[simp] theorem State.modSubp_plim (s : State) (n : Nat) (f : SubPart → SubPart) : (s.modSubp n f).plim = s.plim := rfl
@[simp] theorem State.modSubp_bubble (s : State) (n : Nat) (f : SubPart → SubPart) : (s.modSubp n f).bubble = s.bubble := rfl
@[simp] theorem State.modSubp_hot (s : State) (n : Nat) (f : SubPart → SubPart) : (s.modSubp n f).hot = s.hot := rfl
@[simp] theorem State.modSubp_window (s : State) (n : Nat) (f : SubPart → SubPart) : (s.modSubp n f).window = s.window := rfl

/-! ### modQueue -/

@[simp] theorem State.modQueue_foc (s : State) (q : Nat) (f : QueueCtx → QueueCtx) : (s.modQueue q f).foc = s.foc := rfl
@[simp] theorem State.modQueue_turns (s : State) (q : Nat) (f : QueueCtx → QueueCtx) : (s.modQueue q f).turns = s.turns := rfl
@[simp] theorem State.modQueue_draws (s : State) (q : Nat) (f : QueueCtx → QueueCtx) : (s.modQueue q f).draws = s.draws := rfl
@[simp] theorem State.modQueue_now (s : State) (q : Nat) (f : QueueCtx → QueueCtx) : (s.modQueue q f).now = s.now := rfl
@[simp] theorem State.modQueue_nextId (s : State) (q : Nat) (f : QueueCtx → QueueCtx) : (s.modQueue q f).nextId = s.nextId := rfl
@[simp] theorem State.modQueue_later (s : State) (q : Nat) (f : QueueCtx → QueueCtx) : (s.modQueue q f).later = s.later := rfl
@[simp] theorem State.modQueue_ports (s : State) (q : Nat) (f : QueueCtx → QueueCtx) : (s.modQueue q f).ports = s.ports := rfl
@[simp] theorem State.modQueue_tiles (s : State) (q : Nat) (f : QueueCtx → QueueCtx) : (s.modQueue q f).tiles = s.tiles := rfl
@[simp] theorem State.modQueue_parts (s : State) (q : Nat) (f : QueueCtx → QueueCtx) : (s.modQueue q f).parts = s.parts := rfl
@[simp] theorem State.modQueue_subps (s : State) (q : Nat) (f : QueueCtx → QueueCtx) : (s.modQueue q f).subps = s.subps := rfl
@[simp] theorem State.modQueue_asids (s : State) (q : Nat) (f : QueueCtx → QueueCtx) : (s.modQueue q f).asids = s.asids := rfl
@[simp] theorem State.modQueue_tasks (s : State) (q : Nat) (f : QueueCtx → QueueCtx) : (s.modQueue q f).tasks = s.tasks := rfl
@[simp] theorem State.modQueue_saves (s : State) (q : Nat) (f : QueueCtx → QueueCtx) : (s.modQueue q f).saves = s.saves := rfl
@[simp] theorem State.modQueue_slices (s : State) (q : Nat) (f : QueueCtx → QueueCtx) : (s.modQueue q f).slices = s.slices := rfl
@[simp] theorem State.modQueue_regions (s : State) (q : Nat) (f : QueueCtx → QueueCtx) : (s.modQueue q f).regions = s.regions :=
  rfl
@[simp] theorem State.modQueue_jobs (s : State) (q : Nat) (f : QueueCtx → QueueCtx) : (s.modQueue q f).jobs = s.jobs := rfl
@[simp] theorem State.modQueue_cfgJoin (s : State) (q : Nat) (f : QueueCtx → QueueCtx) : (s.modQueue q f).cfgJoin = s.cfgJoin :=
  rfl
@[simp] theorem State.modQueue_saved (s : State) (q : Nat) (f : QueueCtx → QueueCtx) : (s.modQueue q f).saved = s.saved := rfl
@[simp] theorem State.modQueue_spliced (s : State) (q : Nat) (f : QueueCtx → QueueCtx) : (s.modQueue q f).spliced = s.spliced :=
  rfl
@[simp] theorem State.modQueue_pool (s : State) (q : Nat) (f : QueueCtx → QueueCtx) : (s.modQueue q f).pool = s.pool := rfl
@[simp] theorem State.modQueue_startedAt (s : State) (q : Nat) (f : QueueCtx → QueueCtx) : (s.modQueue q f).startedAt = s.startedAt :=
  rfl
@[simp] theorem State.modQueue_dones (s : State) (q : Nat) (f : QueueCtx → QueueCtx) : (s.modQueue q f).dones = s.dones := rfl
@[simp] theorem State.modQueue_schedPtr (s : State) (q : Nat) (f : QueueCtx → QueueCtx) : (s.modQueue q f).schedPtr = s.schedPtr :=
  rfl
@[simp] theorem State.modQueue_schedCr (s : State) (q : Nat) (f : QueueCtx → QueueCtx) : (s.modQueue q f).schedCr = s.schedCr :=
  rfl
@[simp] theorem State.modQueue_hazards (s : State) (q : Nat) (f : QueueCtx → QueueCtx) : (s.modQueue q f).hazards = s.hazards :=
  rfl
@[simp] theorem State.modQueue_lanes (s : State) (q : Nat) (f : QueueCtx → QueueCtx) : (s.modQueue q f).lanes = s.lanes := rfl
@[simp] theorem State.modQueue_wires (s : State) (q : Nat) (f : QueueCtx → QueueCtx) : (s.modQueue q f).wires = s.wires := rfl
@[simp] theorem State.modQueue_dram (s : State) (q : Nat) (f : QueueCtx → QueueCtx) : (s.modQueue q f).dram = s.dram := rfl
@[simp] theorem State.modQueue_badLines (s : State) (q : Nat) (f : QueueCtx → QueueCtx) : (s.modQueue q f).badLines = s.badLines :=
  rfl
@[simp] theorem State.modQueue_banks (s : State) (q : Nat) (f : QueueCtx → QueueCtx) : (s.modQueue q f).banks = s.banks := rfl
@[simp] theorem State.modQueue_windowed (s : State) (q : Nat) (f : QueueCtx → QueueCtx) : (s.modQueue q f).windowed = s.windowed :=
  rfl
@[simp] theorem State.modQueue_copies (s : State) (q : Nat) (f : QueueCtx → QueueCtx) : (s.modQueue q f).copies = s.copies := rfl
@[simp] theorem State.modQueue_accs (s : State) (q : Nat) (f : QueueCtx → QueueCtx) : (s.modQueue q f).accs = s.accs := rfl
@[simp] theorem State.modQueue_unitTlb (s : State) (q : Nat) (f : QueueCtx → QueueCtx) : (s.modQueue q f).unitTlb = s.unitTlb :=
  rfl
@[simp] theorem State.modQueue_schedTlb (s : State) (q : Nat) (f : QueueCtx → QueueCtx) : (s.modQueue q f).schedTlb = s.schedTlb :=
  rfl
@[simp] theorem State.modQueue_brTlb (s : State) (q : Nat) (f : QueueCtx → QueueCtx) : (s.modQueue q f).brTlb = s.brTlb := rfl
@[simp] theorem State.modQueue_dieTlb (s : State) (q : Nat) (f : QueueCtx → QueueCtx) : (s.modQueue q f).dieTlb = s.dieTlb := rfl
@[simp] theorem State.modQueue_walks (s : State) (q : Nat) (f : QueueCtx → QueueCtx) : (s.modQueue q f).walks = s.walks := rfl
@[simp] theorem State.modQueue_wfaults (s : State) (q : Nat) (f : QueueCtx → QueueCtx) : (s.modQueue q f).wfaults = s.wfaults :=
  rfl
@[simp] theorem State.modQueue_motions (s : State) (q : Nat) (f : QueueCtx → QueueCtx) : (s.modQueue q f).motions = s.motions :=
  rfl
@[simp] theorem State.modQueue_agents (s : State) (q : Nat) (f : QueueCtx → QueueCtx) : (s.modQueue q f).agents = s.agents := rfl
@[simp] theorem State.modQueue_engines (s : State) (q : Nat) (f : QueueCtx → QueueCtx) : (s.modQueue q f).engines = s.engines :=
  rfl
@[simp] theorem State.modQueue_packets (s : State) (q : Nat) (f : QueueCtx → QueueCtx) : (s.modQueue q f).packets = s.packets :=
  rfl
@[simp] theorem State.modQueue_tokens (s : State) (q : Nat) (f : QueueCtx → QueueCtx) : (s.modQueue q f).tokens = s.tokens := rfl
@[simp] theorem State.modQueue_links (s : State) (q : Nat) (f : QueueCtx → QueueCtx) : (s.modQueue q f).links = s.links := rfl
@[simp] theorem State.modQueue_peers (s : State) (q : Nat) (f : QueueCtx → QueueCtx) : (s.modQueue q f).peers = s.peers := rfl
@[simp] theorem State.modQueue_cxlen (s : State) (q : Nat) (f : QueueCtx → QueueCtx) : (s.modQueue q f).cxlen = s.cxlen := rfl
@[simp] theorem State.modQueue_cxlLost (s : State) (q : Nat) (f : QueueCtx → QueueCtx) : (s.modQueue q f).cxlLost = s.cxlLost :=
  rfl
@[simp] theorem State.modQueue_booted (s : State) (q : Nat) (f : QueueCtx → QueueCtx) : (s.modQueue q f).booted = s.booted := rfl
@[simp] theorem State.modQueue_hostRead (s : State) (q : Nat) (f : QueueCtx → QueueCtx) : (s.modQueue q f).hostRead = s.hostRead :=
  rfl
@[simp] theorem State.modQueue_hostGib (s : State) (q : Nat) (f : QueueCtx → QueueCtx) : (s.modQueue q f).hostGib = s.hostGib :=
  rfl
@[simp] theorem State.modQueue_plim (s : State) (q : Nat) (f : QueueCtx → QueueCtx) : (s.modQueue q f).plim = s.plim := rfl
@[simp] theorem State.modQueue_bubble (s : State) (q : Nat) (f : QueueCtx → QueueCtx) : (s.modQueue q f).bubble = s.bubble := rfl
@[simp] theorem State.modQueue_hot (s : State) (q : Nat) (f : QueueCtx → QueueCtx) : (s.modQueue q f).hot = s.hot := rfl
@[simp] theorem State.modQueue_window (s : State) (q : Nat) (f : QueueCtx → QueueCtx) : (s.modQueue q f).window = s.window := rfl

/-! ### modEngine -/

@[simp] theorem State.modEngine_foc (s : State) (b : Nat) (f : Engine → Engine) : (s.modEngine b f).foc = s.foc := rfl
@[simp] theorem State.modEngine_turns (s : State) (b : Nat) (f : Engine → Engine) : (s.modEngine b f).turns = s.turns := rfl
@[simp] theorem State.modEngine_draws (s : State) (b : Nat) (f : Engine → Engine) : (s.modEngine b f).draws = s.draws := rfl
@[simp] theorem State.modEngine_now (s : State) (b : Nat) (f : Engine → Engine) : (s.modEngine b f).now = s.now := rfl
@[simp] theorem State.modEngine_nextId (s : State) (b : Nat) (f : Engine → Engine) : (s.modEngine b f).nextId = s.nextId := rfl
@[simp] theorem State.modEngine_later (s : State) (b : Nat) (f : Engine → Engine) : (s.modEngine b f).later = s.later := rfl
@[simp] theorem State.modEngine_ports (s : State) (b : Nat) (f : Engine → Engine) : (s.modEngine b f).ports = s.ports := rfl
@[simp] theorem State.modEngine_tiles (s : State) (b : Nat) (f : Engine → Engine) : (s.modEngine b f).tiles = s.tiles := rfl
@[simp] theorem State.modEngine_parts (s : State) (b : Nat) (f : Engine → Engine) : (s.modEngine b f).parts = s.parts := rfl
@[simp] theorem State.modEngine_subps (s : State) (b : Nat) (f : Engine → Engine) : (s.modEngine b f).subps = s.subps := rfl
@[simp] theorem State.modEngine_asids (s : State) (b : Nat) (f : Engine → Engine) : (s.modEngine b f).asids = s.asids := rfl
@[simp] theorem State.modEngine_queues (s : State) (b : Nat) (f : Engine → Engine) : (s.modEngine b f).queues = s.queues := rfl
@[simp] theorem State.modEngine_tasks (s : State) (b : Nat) (f : Engine → Engine) : (s.modEngine b f).tasks = s.tasks := rfl
@[simp] theorem State.modEngine_saves (s : State) (b : Nat) (f : Engine → Engine) : (s.modEngine b f).saves = s.saves := rfl
@[simp] theorem State.modEngine_slices (s : State) (b : Nat) (f : Engine → Engine) : (s.modEngine b f).slices = s.slices := rfl
@[simp] theorem State.modEngine_regions (s : State) (b : Nat) (f : Engine → Engine) : (s.modEngine b f).regions = s.regions := rfl
@[simp] theorem State.modEngine_jobs (s : State) (b : Nat) (f : Engine → Engine) : (s.modEngine b f).jobs = s.jobs := rfl
@[simp] theorem State.modEngine_cfgJoin (s : State) (b : Nat) (f : Engine → Engine) : (s.modEngine b f).cfgJoin = s.cfgJoin := rfl
@[simp] theorem State.modEngine_saved (s : State) (b : Nat) (f : Engine → Engine) : (s.modEngine b f).saved = s.saved := rfl
@[simp] theorem State.modEngine_spliced (s : State) (b : Nat) (f : Engine → Engine) : (s.modEngine b f).spliced = s.spliced := rfl
@[simp] theorem State.modEngine_pool (s : State) (b : Nat) (f : Engine → Engine) : (s.modEngine b f).pool = s.pool := rfl
@[simp] theorem State.modEngine_startedAt (s : State) (b : Nat) (f : Engine → Engine) : (s.modEngine b f).startedAt = s.startedAt :=
  rfl
@[simp] theorem State.modEngine_dones (s : State) (b : Nat) (f : Engine → Engine) : (s.modEngine b f).dones = s.dones := rfl
@[simp] theorem State.modEngine_schedPtr (s : State) (b : Nat) (f : Engine → Engine) : (s.modEngine b f).schedPtr = s.schedPtr :=
  rfl
@[simp] theorem State.modEngine_schedCr (s : State) (b : Nat) (f : Engine → Engine) : (s.modEngine b f).schedCr = s.schedCr := rfl
@[simp] theorem State.modEngine_hazards (s : State) (b : Nat) (f : Engine → Engine) : (s.modEngine b f).hazards = s.hazards := rfl
@[simp] theorem State.modEngine_lanes (s : State) (b : Nat) (f : Engine → Engine) : (s.modEngine b f).lanes = s.lanes := rfl
@[simp] theorem State.modEngine_wires (s : State) (b : Nat) (f : Engine → Engine) : (s.modEngine b f).wires = s.wires := rfl
@[simp] theorem State.modEngine_dram (s : State) (b : Nat) (f : Engine → Engine) : (s.modEngine b f).dram = s.dram := rfl
@[simp] theorem State.modEngine_badLines (s : State) (b : Nat) (f : Engine → Engine) : (s.modEngine b f).badLines = s.badLines :=
  rfl
@[simp] theorem State.modEngine_banks (s : State) (b : Nat) (f : Engine → Engine) : (s.modEngine b f).banks = s.banks := rfl
@[simp] theorem State.modEngine_windowed (s : State) (b : Nat) (f : Engine → Engine) : (s.modEngine b f).windowed = s.windowed :=
  rfl
@[simp] theorem State.modEngine_copies (s : State) (b : Nat) (f : Engine → Engine) : (s.modEngine b f).copies = s.copies := rfl
@[simp] theorem State.modEngine_accs (s : State) (b : Nat) (f : Engine → Engine) : (s.modEngine b f).accs = s.accs := rfl
@[simp] theorem State.modEngine_unitTlb (s : State) (b : Nat) (f : Engine → Engine) : (s.modEngine b f).unitTlb = s.unitTlb := rfl
@[simp] theorem State.modEngine_schedTlb (s : State) (b : Nat) (f : Engine → Engine) : (s.modEngine b f).schedTlb = s.schedTlb :=
  rfl
@[simp] theorem State.modEngine_brTlb (s : State) (b : Nat) (f : Engine → Engine) : (s.modEngine b f).brTlb = s.brTlb := rfl
@[simp] theorem State.modEngine_dieTlb (s : State) (b : Nat) (f : Engine → Engine) : (s.modEngine b f).dieTlb = s.dieTlb := rfl
@[simp] theorem State.modEngine_walks (s : State) (b : Nat) (f : Engine → Engine) : (s.modEngine b f).walks = s.walks := rfl
@[simp] theorem State.modEngine_wfaults (s : State) (b : Nat) (f : Engine → Engine) : (s.modEngine b f).wfaults = s.wfaults := rfl
@[simp] theorem State.modEngine_motions (s : State) (b : Nat) (f : Engine → Engine) : (s.modEngine b f).motions = s.motions := rfl
@[simp] theorem State.modEngine_agents (s : State) (b : Nat) (f : Engine → Engine) : (s.modEngine b f).agents = s.agents := rfl
@[simp] theorem State.modEngine_packets (s : State) (b : Nat) (f : Engine → Engine) : (s.modEngine b f).packets = s.packets := rfl
@[simp] theorem State.modEngine_tokens (s : State) (b : Nat) (f : Engine → Engine) : (s.modEngine b f).tokens = s.tokens := rfl
@[simp] theorem State.modEngine_links (s : State) (b : Nat) (f : Engine → Engine) : (s.modEngine b f).links = s.links := rfl
@[simp] theorem State.modEngine_peers (s : State) (b : Nat) (f : Engine → Engine) : (s.modEngine b f).peers = s.peers := rfl
@[simp] theorem State.modEngine_cxlen (s : State) (b : Nat) (f : Engine → Engine) : (s.modEngine b f).cxlen = s.cxlen := rfl
@[simp] theorem State.modEngine_cxlLost (s : State) (b : Nat) (f : Engine → Engine) : (s.modEngine b f).cxlLost = s.cxlLost := rfl
@[simp] theorem State.modEngine_booted (s : State) (b : Nat) (f : Engine → Engine) : (s.modEngine b f).booted = s.booted := rfl
@[simp] theorem State.modEngine_hostRead (s : State) (b : Nat) (f : Engine → Engine) : (s.modEngine b f).hostRead = s.hostRead :=
  rfl
@[simp] theorem State.modEngine_hostGib (s : State) (b : Nat) (f : Engine → Engine) : (s.modEngine b f).hostGib = s.hostGib := rfl
@[simp] theorem State.modEngine_plim (s : State) (b : Nat) (f : Engine → Engine) : (s.modEngine b f).plim = s.plim := rfl
@[simp] theorem State.modEngine_bubble (s : State) (b : Nat) (f : Engine → Engine) : (s.modEngine b f).bubble = s.bubble := rfl
@[simp] theorem State.modEngine_hot (s : State) (b : Nat) (f : Engine → Engine) : (s.modEngine b f).hot = s.hot := rfl
@[simp] theorem State.modEngine_window (s : State) (b : Nat) (f : Engine → Engine) : (s.modEngine b f).window = s.window := rfl

/-! ### modAgent -/

@[simp] theorem State.modAgent_foc (s : State) (a : Nat) (f : Agent → Agent) : (s.modAgent a f).foc = s.foc := rfl
@[simp] theorem State.modAgent_turns (s : State) (a : Nat) (f : Agent → Agent) : (s.modAgent a f).turns = s.turns := rfl
@[simp] theorem State.modAgent_draws (s : State) (a : Nat) (f : Agent → Agent) : (s.modAgent a f).draws = s.draws := rfl
@[simp] theorem State.modAgent_now (s : State) (a : Nat) (f : Agent → Agent) : (s.modAgent a f).now = s.now := rfl
@[simp] theorem State.modAgent_nextId (s : State) (a : Nat) (f : Agent → Agent) : (s.modAgent a f).nextId = s.nextId := rfl
@[simp] theorem State.modAgent_later (s : State) (a : Nat) (f : Agent → Agent) : (s.modAgent a f).later = s.later := rfl
@[simp] theorem State.modAgent_ports (s : State) (a : Nat) (f : Agent → Agent) : (s.modAgent a f).ports = s.ports := rfl
@[simp] theorem State.modAgent_tiles (s : State) (a : Nat) (f : Agent → Agent) : (s.modAgent a f).tiles = s.tiles := rfl
@[simp] theorem State.modAgent_parts (s : State) (a : Nat) (f : Agent → Agent) : (s.modAgent a f).parts = s.parts := rfl
@[simp] theorem State.modAgent_subps (s : State) (a : Nat) (f : Agent → Agent) : (s.modAgent a f).subps = s.subps := rfl
@[simp] theorem State.modAgent_asids (s : State) (a : Nat) (f : Agent → Agent) : (s.modAgent a f).asids = s.asids := rfl
@[simp] theorem State.modAgent_queues (s : State) (a : Nat) (f : Agent → Agent) : (s.modAgent a f).queues = s.queues := rfl
@[simp] theorem State.modAgent_tasks (s : State) (a : Nat) (f : Agent → Agent) : (s.modAgent a f).tasks = s.tasks := rfl
@[simp] theorem State.modAgent_saves (s : State) (a : Nat) (f : Agent → Agent) : (s.modAgent a f).saves = s.saves := rfl
@[simp] theorem State.modAgent_slices (s : State) (a : Nat) (f : Agent → Agent) : (s.modAgent a f).slices = s.slices := rfl
@[simp] theorem State.modAgent_regions (s : State) (a : Nat) (f : Agent → Agent) : (s.modAgent a f).regions = s.regions := rfl
@[simp] theorem State.modAgent_jobs (s : State) (a : Nat) (f : Agent → Agent) : (s.modAgent a f).jobs = s.jobs := rfl
@[simp] theorem State.modAgent_cfgJoin (s : State) (a : Nat) (f : Agent → Agent) : (s.modAgent a f).cfgJoin = s.cfgJoin := rfl
@[simp] theorem State.modAgent_saved (s : State) (a : Nat) (f : Agent → Agent) : (s.modAgent a f).saved = s.saved := rfl
@[simp] theorem State.modAgent_spliced (s : State) (a : Nat) (f : Agent → Agent) : (s.modAgent a f).spliced = s.spliced := rfl
@[simp] theorem State.modAgent_pool (s : State) (a : Nat) (f : Agent → Agent) : (s.modAgent a f).pool = s.pool := rfl
@[simp] theorem State.modAgent_startedAt (s : State) (a : Nat) (f : Agent → Agent) : (s.modAgent a f).startedAt = s.startedAt :=
  rfl
@[simp] theorem State.modAgent_dones (s : State) (a : Nat) (f : Agent → Agent) : (s.modAgent a f).dones = s.dones := rfl
@[simp] theorem State.modAgent_schedPtr (s : State) (a : Nat) (f : Agent → Agent) : (s.modAgent a f).schedPtr = s.schedPtr := rfl
@[simp] theorem State.modAgent_schedCr (s : State) (a : Nat) (f : Agent → Agent) : (s.modAgent a f).schedCr = s.schedCr := rfl
@[simp] theorem State.modAgent_hazards (s : State) (a : Nat) (f : Agent → Agent) : (s.modAgent a f).hazards = s.hazards := rfl
@[simp] theorem State.modAgent_lanes (s : State) (a : Nat) (f : Agent → Agent) : (s.modAgent a f).lanes = s.lanes := rfl
@[simp] theorem State.modAgent_wires (s : State) (a : Nat) (f : Agent → Agent) : (s.modAgent a f).wires = s.wires := rfl
@[simp] theorem State.modAgent_dram (s : State) (a : Nat) (f : Agent → Agent) : (s.modAgent a f).dram = s.dram := rfl
@[simp] theorem State.modAgent_badLines (s : State) (a : Nat) (f : Agent → Agent) : (s.modAgent a f).badLines = s.badLines := rfl
@[simp] theorem State.modAgent_banks (s : State) (a : Nat) (f : Agent → Agent) : (s.modAgent a f).banks = s.banks := rfl
@[simp] theorem State.modAgent_windowed (s : State) (a : Nat) (f : Agent → Agent) : (s.modAgent a f).windowed = s.windowed := rfl
@[simp] theorem State.modAgent_copies (s : State) (a : Nat) (f : Agent → Agent) : (s.modAgent a f).copies = s.copies := rfl
@[simp] theorem State.modAgent_accs (s : State) (a : Nat) (f : Agent → Agent) : (s.modAgent a f).accs = s.accs := rfl
@[simp] theorem State.modAgent_unitTlb (s : State) (a : Nat) (f : Agent → Agent) : (s.modAgent a f).unitTlb = s.unitTlb := rfl
@[simp] theorem State.modAgent_schedTlb (s : State) (a : Nat) (f : Agent → Agent) : (s.modAgent a f).schedTlb = s.schedTlb := rfl
@[simp] theorem State.modAgent_brTlb (s : State) (a : Nat) (f : Agent → Agent) : (s.modAgent a f).brTlb = s.brTlb := rfl
@[simp] theorem State.modAgent_dieTlb (s : State) (a : Nat) (f : Agent → Agent) : (s.modAgent a f).dieTlb = s.dieTlb := rfl
@[simp] theorem State.modAgent_walks (s : State) (a : Nat) (f : Agent → Agent) : (s.modAgent a f).walks = s.walks := rfl
@[simp] theorem State.modAgent_wfaults (s : State) (a : Nat) (f : Agent → Agent) : (s.modAgent a f).wfaults = s.wfaults := rfl
@[simp] theorem State.modAgent_motions (s : State) (a : Nat) (f : Agent → Agent) : (s.modAgent a f).motions = s.motions := rfl
@[simp] theorem State.modAgent_engines (s : State) (a : Nat) (f : Agent → Agent) : (s.modAgent a f).engines = s.engines := rfl
@[simp] theorem State.modAgent_packets (s : State) (a : Nat) (f : Agent → Agent) : (s.modAgent a f).packets = s.packets := rfl
@[simp] theorem State.modAgent_tokens (s : State) (a : Nat) (f : Agent → Agent) : (s.modAgent a f).tokens = s.tokens := rfl
@[simp] theorem State.modAgent_links (s : State) (a : Nat) (f : Agent → Agent) : (s.modAgent a f).links = s.links := rfl
@[simp] theorem State.modAgent_peers (s : State) (a : Nat) (f : Agent → Agent) : (s.modAgent a f).peers = s.peers := rfl
@[simp] theorem State.modAgent_cxlen (s : State) (a : Nat) (f : Agent → Agent) : (s.modAgent a f).cxlen = s.cxlen := rfl
@[simp] theorem State.modAgent_cxlLost (s : State) (a : Nat) (f : Agent → Agent) : (s.modAgent a f).cxlLost = s.cxlLost := rfl
@[simp] theorem State.modAgent_booted (s : State) (a : Nat) (f : Agent → Agent) : (s.modAgent a f).booted = s.booted := rfl
@[simp] theorem State.modAgent_hostRead (s : State) (a : Nat) (f : Agent → Agent) : (s.modAgent a f).hostRead = s.hostRead := rfl
@[simp] theorem State.modAgent_hostGib (s : State) (a : Nat) (f : Agent → Agent) : (s.modAgent a f).hostGib = s.hostGib := rfl
@[simp] theorem State.modAgent_plim (s : State) (a : Nat) (f : Agent → Agent) : (s.modAgent a f).plim = s.plim := rfl
@[simp] theorem State.modAgent_bubble (s : State) (a : Nat) (f : Agent → Agent) : (s.modAgent a f).bubble = s.bubble := rfl
@[simp] theorem State.modAgent_hot (s : State) (a : Nat) (f : Agent → Agent) : (s.modAgent a f).hot = s.hot := rfl
@[simp] theorem State.modAgent_window (s : State) (a : Nat) (f : Agent → Agent) : (s.modAgent a f).window = s.window := rfl

/-! ### modLink -/

@[simp] theorem State.modLink_foc (s : State) (p : Nat) (f : Link → Link) : (s.modLink p f).foc = s.foc := rfl
@[simp] theorem State.modLink_turns (s : State) (p : Nat) (f : Link → Link) : (s.modLink p f).turns = s.turns := rfl
@[simp] theorem State.modLink_draws (s : State) (p : Nat) (f : Link → Link) : (s.modLink p f).draws = s.draws := rfl
@[simp] theorem State.modLink_now (s : State) (p : Nat) (f : Link → Link) : (s.modLink p f).now = s.now := rfl
@[simp] theorem State.modLink_nextId (s : State) (p : Nat) (f : Link → Link) : (s.modLink p f).nextId = s.nextId := rfl
@[simp] theorem State.modLink_later (s : State) (p : Nat) (f : Link → Link) : (s.modLink p f).later = s.later := rfl
@[simp] theorem State.modLink_ports (s : State) (p : Nat) (f : Link → Link) : (s.modLink p f).ports = s.ports := rfl
@[simp] theorem State.modLink_tiles (s : State) (p : Nat) (f : Link → Link) : (s.modLink p f).tiles = s.tiles := rfl
@[simp] theorem State.modLink_parts (s : State) (p : Nat) (f : Link → Link) : (s.modLink p f).parts = s.parts := rfl
@[simp] theorem State.modLink_subps (s : State) (p : Nat) (f : Link → Link) : (s.modLink p f).subps = s.subps := rfl
@[simp] theorem State.modLink_asids (s : State) (p : Nat) (f : Link → Link) : (s.modLink p f).asids = s.asids := rfl
@[simp] theorem State.modLink_queues (s : State) (p : Nat) (f : Link → Link) : (s.modLink p f).queues = s.queues := rfl
@[simp] theorem State.modLink_tasks (s : State) (p : Nat) (f : Link → Link) : (s.modLink p f).tasks = s.tasks := rfl
@[simp] theorem State.modLink_saves (s : State) (p : Nat) (f : Link → Link) : (s.modLink p f).saves = s.saves := rfl
@[simp] theorem State.modLink_slices (s : State) (p : Nat) (f : Link → Link) : (s.modLink p f).slices = s.slices := rfl
@[simp] theorem State.modLink_regions (s : State) (p : Nat) (f : Link → Link) : (s.modLink p f).regions = s.regions := rfl
@[simp] theorem State.modLink_jobs (s : State) (p : Nat) (f : Link → Link) : (s.modLink p f).jobs = s.jobs := rfl
@[simp] theorem State.modLink_cfgJoin (s : State) (p : Nat) (f : Link → Link) : (s.modLink p f).cfgJoin = s.cfgJoin := rfl
@[simp] theorem State.modLink_saved (s : State) (p : Nat) (f : Link → Link) : (s.modLink p f).saved = s.saved := rfl
@[simp] theorem State.modLink_spliced (s : State) (p : Nat) (f : Link → Link) : (s.modLink p f).spliced = s.spliced := rfl
@[simp] theorem State.modLink_pool (s : State) (p : Nat) (f : Link → Link) : (s.modLink p f).pool = s.pool := rfl
@[simp] theorem State.modLink_startedAt (s : State) (p : Nat) (f : Link → Link) : (s.modLink p f).startedAt = s.startedAt := rfl
@[simp] theorem State.modLink_dones (s : State) (p : Nat) (f : Link → Link) : (s.modLink p f).dones = s.dones := rfl
@[simp] theorem State.modLink_schedPtr (s : State) (p : Nat) (f : Link → Link) : (s.modLink p f).schedPtr = s.schedPtr := rfl
@[simp] theorem State.modLink_schedCr (s : State) (p : Nat) (f : Link → Link) : (s.modLink p f).schedCr = s.schedCr := rfl
@[simp] theorem State.modLink_hazards (s : State) (p : Nat) (f : Link → Link) : (s.modLink p f).hazards = s.hazards := rfl
@[simp] theorem State.modLink_lanes (s : State) (p : Nat) (f : Link → Link) : (s.modLink p f).lanes = s.lanes := rfl
@[simp] theorem State.modLink_wires (s : State) (p : Nat) (f : Link → Link) : (s.modLink p f).wires = s.wires := rfl
@[simp] theorem State.modLink_dram (s : State) (p : Nat) (f : Link → Link) : (s.modLink p f).dram = s.dram := rfl
@[simp] theorem State.modLink_badLines (s : State) (p : Nat) (f : Link → Link) : (s.modLink p f).badLines = s.badLines := rfl
@[simp] theorem State.modLink_banks (s : State) (p : Nat) (f : Link → Link) : (s.modLink p f).banks = s.banks := rfl
@[simp] theorem State.modLink_windowed (s : State) (p : Nat) (f : Link → Link) : (s.modLink p f).windowed = s.windowed := rfl
@[simp] theorem State.modLink_copies (s : State) (p : Nat) (f : Link → Link) : (s.modLink p f).copies = s.copies := rfl
@[simp] theorem State.modLink_accs (s : State) (p : Nat) (f : Link → Link) : (s.modLink p f).accs = s.accs := rfl
@[simp] theorem State.modLink_unitTlb (s : State) (p : Nat) (f : Link → Link) : (s.modLink p f).unitTlb = s.unitTlb := rfl
@[simp] theorem State.modLink_schedTlb (s : State) (p : Nat) (f : Link → Link) : (s.modLink p f).schedTlb = s.schedTlb := rfl
@[simp] theorem State.modLink_brTlb (s : State) (p : Nat) (f : Link → Link) : (s.modLink p f).brTlb = s.brTlb := rfl
@[simp] theorem State.modLink_dieTlb (s : State) (p : Nat) (f : Link → Link) : (s.modLink p f).dieTlb = s.dieTlb := rfl
@[simp] theorem State.modLink_walks (s : State) (p : Nat) (f : Link → Link) : (s.modLink p f).walks = s.walks := rfl
@[simp] theorem State.modLink_wfaults (s : State) (p : Nat) (f : Link → Link) : (s.modLink p f).wfaults = s.wfaults := rfl
@[simp] theorem State.modLink_motions (s : State) (p : Nat) (f : Link → Link) : (s.modLink p f).motions = s.motions := rfl
@[simp] theorem State.modLink_agents (s : State) (p : Nat) (f : Link → Link) : (s.modLink p f).agents = s.agents := rfl
@[simp] theorem State.modLink_engines (s : State) (p : Nat) (f : Link → Link) : (s.modLink p f).engines = s.engines := rfl
@[simp] theorem State.modLink_packets (s : State) (p : Nat) (f : Link → Link) : (s.modLink p f).packets = s.packets := rfl
@[simp] theorem State.modLink_tokens (s : State) (p : Nat) (f : Link → Link) : (s.modLink p f).tokens = s.tokens := rfl
@[simp] theorem State.modLink_peers (s : State) (p : Nat) (f : Link → Link) : (s.modLink p f).peers = s.peers := rfl
@[simp] theorem State.modLink_cxlen (s : State) (p : Nat) (f : Link → Link) : (s.modLink p f).cxlen = s.cxlen := rfl
@[simp] theorem State.modLink_cxlLost (s : State) (p : Nat) (f : Link → Link) : (s.modLink p f).cxlLost = s.cxlLost := rfl
@[simp] theorem State.modLink_booted (s : State) (p : Nat) (f : Link → Link) : (s.modLink p f).booted = s.booted := rfl
@[simp] theorem State.modLink_hostRead (s : State) (p : Nat) (f : Link → Link) : (s.modLink p f).hostRead = s.hostRead := rfl
@[simp] theorem State.modLink_hostGib (s : State) (p : Nat) (f : Link → Link) : (s.modLink p f).hostGib = s.hostGib := rfl
@[simp] theorem State.modLink_plim (s : State) (p : Nat) (f : Link → Link) : (s.modLink p f).plim = s.plim := rfl
@[simp] theorem State.modLink_bubble (s : State) (p : Nat) (f : Link → Link) : (s.modLink p f).bubble = s.bubble := rfl
@[simp] theorem State.modLink_hot (s : State) (p : Nat) (f : Link → Link) : (s.modLink p f).hot = s.hot := rfl
@[simp] theorem State.modLink_window (s : State) (p : Nat) (f : Link → Link) : (s.modLink p f).window = s.window := rfl

/-! ### bumpId -/

@[simp] theorem State.bumpId_foc (s : State) : (s.bumpId).foc = s.foc := rfl
@[simp] theorem State.bumpId_turns (s : State) : (s.bumpId).turns = s.turns := rfl
@[simp] theorem State.bumpId_draws (s : State) : (s.bumpId).draws = s.draws := rfl
@[simp] theorem State.bumpId_now (s : State) : (s.bumpId).now = s.now := rfl
@[simp] theorem State.bumpId_later (s : State) : (s.bumpId).later = s.later := rfl
@[simp] theorem State.bumpId_ports (s : State) : (s.bumpId).ports = s.ports := rfl
@[simp] theorem State.bumpId_tiles (s : State) : (s.bumpId).tiles = s.tiles := rfl
@[simp] theorem State.bumpId_parts (s : State) : (s.bumpId).parts = s.parts := rfl
@[simp] theorem State.bumpId_subps (s : State) : (s.bumpId).subps = s.subps := rfl
@[simp] theorem State.bumpId_asids (s : State) : (s.bumpId).asids = s.asids := rfl
@[simp] theorem State.bumpId_queues (s : State) : (s.bumpId).queues = s.queues := rfl
@[simp] theorem State.bumpId_tasks (s : State) : (s.bumpId).tasks = s.tasks := rfl
@[simp] theorem State.bumpId_saves (s : State) : (s.bumpId).saves = s.saves := rfl
@[simp] theorem State.bumpId_slices (s : State) : (s.bumpId).slices = s.slices := rfl
@[simp] theorem State.bumpId_regions (s : State) : (s.bumpId).regions = s.regions := rfl
@[simp] theorem State.bumpId_jobs (s : State) : (s.bumpId).jobs = s.jobs := rfl
@[simp] theorem State.bumpId_cfgJoin (s : State) : (s.bumpId).cfgJoin = s.cfgJoin := rfl
@[simp] theorem State.bumpId_saved (s : State) : (s.bumpId).saved = s.saved := rfl
@[simp] theorem State.bumpId_spliced (s : State) : (s.bumpId).spliced = s.spliced := rfl
@[simp] theorem State.bumpId_pool (s : State) : (s.bumpId).pool = s.pool := rfl
@[simp] theorem State.bumpId_startedAt (s : State) : (s.bumpId).startedAt = s.startedAt := rfl
@[simp] theorem State.bumpId_dones (s : State) : (s.bumpId).dones = s.dones := rfl
@[simp] theorem State.bumpId_schedPtr (s : State) : (s.bumpId).schedPtr = s.schedPtr := rfl
@[simp] theorem State.bumpId_schedCr (s : State) : (s.bumpId).schedCr = s.schedCr := rfl
@[simp] theorem State.bumpId_hazards (s : State) : (s.bumpId).hazards = s.hazards := rfl
@[simp] theorem State.bumpId_lanes (s : State) : (s.bumpId).lanes = s.lanes := rfl
@[simp] theorem State.bumpId_wires (s : State) : (s.bumpId).wires = s.wires := rfl
@[simp] theorem State.bumpId_dram (s : State) : (s.bumpId).dram = s.dram := rfl
@[simp] theorem State.bumpId_badLines (s : State) : (s.bumpId).badLines = s.badLines := rfl
@[simp] theorem State.bumpId_banks (s : State) : (s.bumpId).banks = s.banks := rfl
@[simp] theorem State.bumpId_windowed (s : State) : (s.bumpId).windowed = s.windowed := rfl
@[simp] theorem State.bumpId_copies (s : State) : (s.bumpId).copies = s.copies := rfl
@[simp] theorem State.bumpId_accs (s : State) : (s.bumpId).accs = s.accs := rfl
@[simp] theorem State.bumpId_unitTlb (s : State) : (s.bumpId).unitTlb = s.unitTlb := rfl
@[simp] theorem State.bumpId_schedTlb (s : State) : (s.bumpId).schedTlb = s.schedTlb := rfl
@[simp] theorem State.bumpId_brTlb (s : State) : (s.bumpId).brTlb = s.brTlb := rfl
@[simp] theorem State.bumpId_dieTlb (s : State) : (s.bumpId).dieTlb = s.dieTlb := rfl
@[simp] theorem State.bumpId_walks (s : State) : (s.bumpId).walks = s.walks := rfl
@[simp] theorem State.bumpId_wfaults (s : State) : (s.bumpId).wfaults = s.wfaults := rfl
@[simp] theorem State.bumpId_motions (s : State) : (s.bumpId).motions = s.motions := rfl
@[simp] theorem State.bumpId_agents (s : State) : (s.bumpId).agents = s.agents := rfl
@[simp] theorem State.bumpId_engines (s : State) : (s.bumpId).engines = s.engines := rfl
@[simp] theorem State.bumpId_packets (s : State) : (s.bumpId).packets = s.packets := rfl
@[simp] theorem State.bumpId_tokens (s : State) : (s.bumpId).tokens = s.tokens := rfl
@[simp] theorem State.bumpId_links (s : State) : (s.bumpId).links = s.links := rfl
@[simp] theorem State.bumpId_peers (s : State) : (s.bumpId).peers = s.peers := rfl
@[simp] theorem State.bumpId_cxlen (s : State) : (s.bumpId).cxlen = s.cxlen := rfl
@[simp] theorem State.bumpId_cxlLost (s : State) : (s.bumpId).cxlLost = s.cxlLost := rfl
@[simp] theorem State.bumpId_booted (s : State) : (s.bumpId).booted = s.booted := rfl
@[simp] theorem State.bumpId_hostRead (s : State) : (s.bumpId).hostRead = s.hostRead := rfl
@[simp] theorem State.bumpId_hostGib (s : State) : (s.bumpId).hostGib = s.hostGib := rfl
@[simp] theorem State.bumpId_plim (s : State) : (s.bumpId).plim = s.plim := rfl
@[simp] theorem State.bumpId_bubble (s : State) : (s.bumpId).bubble = s.bubble := rfl
@[simp] theorem State.bumpId_hot (s : State) : (s.bumpId).hot = s.hot := rfl
@[simp] theorem State.bumpId_window (s : State) : (s.bumpId).window = s.window := rfl

/-! ### modRegion and touch -/

@[simp] theorem State.modRegion_foc (s : State) (l : Nat) (f : Region → Region) : (s.modRegion l f).foc = s.foc := by
  unfold State.modRegion; split <;> rfl
@[simp] theorem State.touch_foc (s : State) (r : Nat) : (s.touch r).foc = s.foc := by
  unfold State.touch; split <;> simp
@[simp] theorem State.modRegion_turns (s : State) (l : Nat) (f : Region → Region) : (s.modRegion l f).turns = s.turns := by
  unfold State.modRegion; split <;> rfl
@[simp] theorem State.touch_turns (s : State) (r : Nat) : (s.touch r).turns = s.turns := by
  unfold State.touch; split <;> simp
@[simp] theorem State.modRegion_draws (s : State) (l : Nat) (f : Region → Region) : (s.modRegion l f).draws = s.draws := by
  unfold State.modRegion; split <;> rfl
@[simp] theorem State.touch_draws (s : State) (r : Nat) : (s.touch r).draws = s.draws := by
  unfold State.touch; split <;> simp
@[simp] theorem State.modRegion_now (s : State) (l : Nat) (f : Region → Region) : (s.modRegion l f).now = s.now := by
  unfold State.modRegion; split <;> rfl
@[simp] theorem State.touch_now (s : State) (r : Nat) : (s.touch r).now = s.now := by
  unfold State.touch; split <;> simp
@[simp] theorem State.modRegion_nextId (s : State) (l : Nat) (f : Region → Region) : (s.modRegion l f).nextId = s.nextId := by
  unfold State.modRegion; split <;> rfl
@[simp] theorem State.touch_nextId (s : State) (r : Nat) : (s.touch r).nextId = s.nextId := by
  unfold State.touch; split <;> simp
@[simp] theorem State.modRegion_later (s : State) (l : Nat) (f : Region → Region) : (s.modRegion l f).later = s.later := by
  unfold State.modRegion; split <;> rfl
@[simp] theorem State.touch_later (s : State) (r : Nat) : (s.touch r).later = s.later := by
  unfold State.touch; split <;> simp
@[simp] theorem State.modRegion_ports (s : State) (l : Nat) (f : Region → Region) : (s.modRegion l f).ports = s.ports := by
  unfold State.modRegion; split <;> rfl
@[simp] theorem State.touch_ports (s : State) (r : Nat) : (s.touch r).ports = s.ports := by
  unfold State.touch; split <;> simp
@[simp] theorem State.modRegion_tiles (s : State) (l : Nat) (f : Region → Region) : (s.modRegion l f).tiles = s.tiles := by
  unfold State.modRegion; split <;> rfl
@[simp] theorem State.touch_tiles (s : State) (r : Nat) : (s.touch r).tiles = s.tiles := by
  unfold State.touch; split <;> simp
@[simp] theorem State.modRegion_parts (s : State) (l : Nat) (f : Region → Region) : (s.modRegion l f).parts = s.parts := by
  unfold State.modRegion; split <;> rfl
@[simp] theorem State.touch_parts (s : State) (r : Nat) : (s.touch r).parts = s.parts := by
  unfold State.touch; split <;> simp
@[simp] theorem State.modRegion_subps (s : State) (l : Nat) (f : Region → Region) : (s.modRegion l f).subps = s.subps := by
  unfold State.modRegion; split <;> rfl
@[simp] theorem State.touch_subps (s : State) (r : Nat) : (s.touch r).subps = s.subps := by
  unfold State.touch; split <;> simp
@[simp] theorem State.modRegion_asids (s : State) (l : Nat) (f : Region → Region) : (s.modRegion l f).asids = s.asids := by
  unfold State.modRegion; split <;> rfl
@[simp] theorem State.touch_asids (s : State) (r : Nat) : (s.touch r).asids = s.asids := by
  unfold State.touch; split <;> simp
@[simp] theorem State.modRegion_queues (s : State) (l : Nat) (f : Region → Region) : (s.modRegion l f).queues = s.queues := by
  unfold State.modRegion; split <;> rfl
@[simp] theorem State.touch_queues (s : State) (r : Nat) : (s.touch r).queues = s.queues := by
  unfold State.touch; split <;> simp
@[simp] theorem State.modRegion_tasks (s : State) (l : Nat) (f : Region → Region) : (s.modRegion l f).tasks = s.tasks := by
  unfold State.modRegion; split <;> rfl
@[simp] theorem State.touch_tasks (s : State) (r : Nat) : (s.touch r).tasks = s.tasks := by
  unfold State.touch; split <;> simp
@[simp] theorem State.modRegion_saves (s : State) (l : Nat) (f : Region → Region) : (s.modRegion l f).saves = s.saves := by
  unfold State.modRegion; split <;> rfl
@[simp] theorem State.touch_saves (s : State) (r : Nat) : (s.touch r).saves = s.saves := by
  unfold State.touch; split <;> simp
@[simp] theorem State.modRegion_slices (s : State) (l : Nat) (f : Region → Region) : (s.modRegion l f).slices = s.slices := by
  unfold State.modRegion; split <;> rfl
@[simp] theorem State.touch_slices (s : State) (r : Nat) : (s.touch r).slices = s.slices := by
  unfold State.touch; split <;> simp
@[simp] theorem State.modRegion_jobs (s : State) (l : Nat) (f : Region → Region) : (s.modRegion l f).jobs = s.jobs := by
  unfold State.modRegion; split <;> rfl
@[simp] theorem State.touch_jobs (s : State) (r : Nat) : (s.touch r).jobs = s.jobs := by
  unfold State.touch; split <;> simp
@[simp] theorem State.modRegion_cfgJoin (s : State) (l : Nat) (f : Region → Region) : (s.modRegion l f).cfgJoin = s.cfgJoin := by
  unfold State.modRegion; split <;> rfl
@[simp] theorem State.touch_cfgJoin (s : State) (r : Nat) : (s.touch r).cfgJoin = s.cfgJoin := by
  unfold State.touch; split <;> simp
@[simp] theorem State.modRegion_saved (s : State) (l : Nat) (f : Region → Region) : (s.modRegion l f).saved = s.saved := by
  unfold State.modRegion; split <;> rfl
@[simp] theorem State.touch_saved (s : State) (r : Nat) : (s.touch r).saved = s.saved := by
  unfold State.touch; split <;> simp
@[simp] theorem State.modRegion_spliced (s : State) (l : Nat) (f : Region → Region) : (s.modRegion l f).spliced = s.spliced := by
  unfold State.modRegion; split <;> rfl
@[simp] theorem State.touch_spliced (s : State) (r : Nat) : (s.touch r).spliced = s.spliced := by
  unfold State.touch; split <;> simp
@[simp] theorem State.modRegion_pool (s : State) (l : Nat) (f : Region → Region) : (s.modRegion l f).pool = s.pool := by
  unfold State.modRegion; split <;> rfl
@[simp] theorem State.touch_pool (s : State) (r : Nat) : (s.touch r).pool = s.pool := by
  unfold State.touch; split <;> simp
@[simp] theorem State.modRegion_startedAt (s : State) (l : Nat) (f : Region → Region) : (s.modRegion l f).startedAt = s.startedAt := by
  unfold State.modRegion; split <;> rfl
@[simp] theorem State.touch_startedAt (s : State) (r : Nat) : (s.touch r).startedAt = s.startedAt := by
  unfold State.touch; split <;> simp
@[simp] theorem State.modRegion_dones (s : State) (l : Nat) (f : Region → Region) : (s.modRegion l f).dones = s.dones := by
  unfold State.modRegion; split <;> rfl
@[simp] theorem State.touch_dones (s : State) (r : Nat) : (s.touch r).dones = s.dones := by
  unfold State.touch; split <;> simp
@[simp] theorem State.modRegion_schedPtr (s : State) (l : Nat) (f : Region → Region) : (s.modRegion l f).schedPtr = s.schedPtr := by
  unfold State.modRegion; split <;> rfl
@[simp] theorem State.touch_schedPtr (s : State) (r : Nat) : (s.touch r).schedPtr = s.schedPtr := by
  unfold State.touch; split <;> simp
@[simp] theorem State.modRegion_schedCr (s : State) (l : Nat) (f : Region → Region) : (s.modRegion l f).schedCr = s.schedCr := by
  unfold State.modRegion; split <;> rfl
@[simp] theorem State.touch_schedCr (s : State) (r : Nat) : (s.touch r).schedCr = s.schedCr := by
  unfold State.touch; split <;> simp
@[simp] theorem State.modRegion_hazards (s : State) (l : Nat) (f : Region → Region) : (s.modRegion l f).hazards = s.hazards := by
  unfold State.modRegion; split <;> rfl
@[simp] theorem State.touch_hazards (s : State) (r : Nat) : (s.touch r).hazards = s.hazards := by
  unfold State.touch; split <;> simp
@[simp] theorem State.modRegion_lanes (s : State) (l : Nat) (f : Region → Region) : (s.modRegion l f).lanes = s.lanes := by
  unfold State.modRegion; split <;> rfl
@[simp] theorem State.touch_lanes (s : State) (r : Nat) : (s.touch r).lanes = s.lanes := by
  unfold State.touch; split <;> simp
@[simp] theorem State.modRegion_wires (s : State) (l : Nat) (f : Region → Region) : (s.modRegion l f).wires = s.wires := by
  unfold State.modRegion; split <;> rfl
@[simp] theorem State.touch_wires (s : State) (r : Nat) : (s.touch r).wires = s.wires := by
  unfold State.touch; split <;> simp
@[simp] theorem State.modRegion_dram (s : State) (l : Nat) (f : Region → Region) : (s.modRegion l f).dram = s.dram := by
  unfold State.modRegion; split <;> rfl
@[simp] theorem State.touch_dram (s : State) (r : Nat) : (s.touch r).dram = s.dram := by
  unfold State.touch; split <;> simp
@[simp] theorem State.modRegion_badLines (s : State) (l : Nat) (f : Region → Region) : (s.modRegion l f).badLines = s.badLines := by
  unfold State.modRegion; split <;> rfl
@[simp] theorem State.touch_badLines (s : State) (r : Nat) : (s.touch r).badLines = s.badLines := by
  unfold State.touch; split <;> simp
@[simp] theorem State.modRegion_banks (s : State) (l : Nat) (f : Region → Region) : (s.modRegion l f).banks = s.banks := by
  unfold State.modRegion; split <;> rfl
@[simp] theorem State.touch_banks (s : State) (r : Nat) : (s.touch r).banks = s.banks := by
  unfold State.touch; split <;> simp
@[simp] theorem State.modRegion_windowed (s : State) (l : Nat) (f : Region → Region) : (s.modRegion l f).windowed = s.windowed := by
  unfold State.modRegion; split <;> rfl
@[simp] theorem State.touch_windowed (s : State) (r : Nat) : (s.touch r).windowed = s.windowed := by
  unfold State.touch; split <;> simp
@[simp] theorem State.modRegion_copies (s : State) (l : Nat) (f : Region → Region) : (s.modRegion l f).copies = s.copies := by
  unfold State.modRegion; split <;> rfl
@[simp] theorem State.touch_copies (s : State) (r : Nat) : (s.touch r).copies = s.copies := by
  unfold State.touch; split <;> simp
@[simp] theorem State.modRegion_accs (s : State) (l : Nat) (f : Region → Region) : (s.modRegion l f).accs = s.accs := by
  unfold State.modRegion; split <;> rfl
@[simp] theorem State.touch_accs (s : State) (r : Nat) : (s.touch r).accs = s.accs := by
  unfold State.touch; split <;> simp
@[simp] theorem State.modRegion_unitTlb (s : State) (l : Nat) (f : Region → Region) : (s.modRegion l f).unitTlb = s.unitTlb := by
  unfold State.modRegion; split <;> rfl
@[simp] theorem State.touch_unitTlb (s : State) (r : Nat) : (s.touch r).unitTlb = s.unitTlb := by
  unfold State.touch; split <;> simp
@[simp] theorem State.modRegion_schedTlb (s : State) (l : Nat) (f : Region → Region) : (s.modRegion l f).schedTlb = s.schedTlb := by
  unfold State.modRegion; split <;> rfl
@[simp] theorem State.touch_schedTlb (s : State) (r : Nat) : (s.touch r).schedTlb = s.schedTlb := by
  unfold State.touch; split <;> simp
@[simp] theorem State.modRegion_brTlb (s : State) (l : Nat) (f : Region → Region) : (s.modRegion l f).brTlb = s.brTlb := by
  unfold State.modRegion; split <;> rfl
@[simp] theorem State.touch_brTlb (s : State) (r : Nat) : (s.touch r).brTlb = s.brTlb := by
  unfold State.touch; split <;> simp
@[simp] theorem State.modRegion_dieTlb (s : State) (l : Nat) (f : Region → Region) : (s.modRegion l f).dieTlb = s.dieTlb := by
  unfold State.modRegion; split <;> rfl
@[simp] theorem State.touch_dieTlb (s : State) (r : Nat) : (s.touch r).dieTlb = s.dieTlb := by
  unfold State.touch; split <;> simp
@[simp] theorem State.modRegion_walks (s : State) (l : Nat) (f : Region → Region) : (s.modRegion l f).walks = s.walks := by
  unfold State.modRegion; split <;> rfl
@[simp] theorem State.touch_walks (s : State) (r : Nat) : (s.touch r).walks = s.walks := by
  unfold State.touch; split <;> simp
@[simp] theorem State.modRegion_wfaults (s : State) (l : Nat) (f : Region → Region) : (s.modRegion l f).wfaults = s.wfaults := by
  unfold State.modRegion; split <;> rfl
@[simp] theorem State.touch_wfaults (s : State) (r : Nat) : (s.touch r).wfaults = s.wfaults := by
  unfold State.touch; split <;> simp
@[simp] theorem State.modRegion_motions (s : State) (l : Nat) (f : Region → Region) : (s.modRegion l f).motions = s.motions := by
  unfold State.modRegion; split <;> rfl
@[simp] theorem State.touch_motions (s : State) (r : Nat) : (s.touch r).motions = s.motions := by
  unfold State.touch; split <;> simp
@[simp] theorem State.modRegion_agents (s : State) (l : Nat) (f : Region → Region) : (s.modRegion l f).agents = s.agents := by
  unfold State.modRegion; split <;> rfl
@[simp] theorem State.touch_agents (s : State) (r : Nat) : (s.touch r).agents = s.agents := by
  unfold State.touch; split <;> simp
@[simp] theorem State.modRegion_engines (s : State) (l : Nat) (f : Region → Region) : (s.modRegion l f).engines = s.engines := by
  unfold State.modRegion; split <;> rfl
@[simp] theorem State.touch_engines (s : State) (r : Nat) : (s.touch r).engines = s.engines := by
  unfold State.touch; split <;> simp
@[simp] theorem State.modRegion_packets (s : State) (l : Nat) (f : Region → Region) : (s.modRegion l f).packets = s.packets := by
  unfold State.modRegion; split <;> rfl
@[simp] theorem State.touch_packets (s : State) (r : Nat) : (s.touch r).packets = s.packets := by
  unfold State.touch; split <;> simp
@[simp] theorem State.modRegion_tokens (s : State) (l : Nat) (f : Region → Region) : (s.modRegion l f).tokens = s.tokens := by
  unfold State.modRegion; split <;> rfl
@[simp] theorem State.touch_tokens (s : State) (r : Nat) : (s.touch r).tokens = s.tokens := by
  unfold State.touch; split <;> simp
@[simp] theorem State.modRegion_links (s : State) (l : Nat) (f : Region → Region) : (s.modRegion l f).links = s.links := by
  unfold State.modRegion; split <;> rfl
@[simp] theorem State.touch_links (s : State) (r : Nat) : (s.touch r).links = s.links := by
  unfold State.touch; split <;> simp
@[simp] theorem State.modRegion_peers (s : State) (l : Nat) (f : Region → Region) : (s.modRegion l f).peers = s.peers := by
  unfold State.modRegion; split <;> rfl
@[simp] theorem State.touch_peers (s : State) (r : Nat) : (s.touch r).peers = s.peers := by
  unfold State.touch; split <;> simp
@[simp] theorem State.modRegion_cxlen (s : State) (l : Nat) (f : Region → Region) : (s.modRegion l f).cxlen = s.cxlen := by
  unfold State.modRegion; split <;> rfl
@[simp] theorem State.touch_cxlen (s : State) (r : Nat) : (s.touch r).cxlen = s.cxlen := by
  unfold State.touch; split <;> simp
@[simp] theorem State.modRegion_cxlLost (s : State) (l : Nat) (f : Region → Region) : (s.modRegion l f).cxlLost = s.cxlLost := by
  unfold State.modRegion; split <;> rfl
@[simp] theorem State.touch_cxlLost (s : State) (r : Nat) : (s.touch r).cxlLost = s.cxlLost := by
  unfold State.touch; split <;> simp
@[simp] theorem State.modRegion_booted (s : State) (l : Nat) (f : Region → Region) : (s.modRegion l f).booted = s.booted := by
  unfold State.modRegion; split <;> rfl
@[simp] theorem State.touch_booted (s : State) (r : Nat) : (s.touch r).booted = s.booted := by
  unfold State.touch; split <;> simp
@[simp] theorem State.modRegion_hostRead (s : State) (l : Nat) (f : Region → Region) : (s.modRegion l f).hostRead = s.hostRead := by
  unfold State.modRegion; split <;> rfl
@[simp] theorem State.touch_hostRead (s : State) (r : Nat) : (s.touch r).hostRead = s.hostRead := by
  unfold State.touch; split <;> simp
@[simp] theorem State.modRegion_hostGib (s : State) (l : Nat) (f : Region → Region) : (s.modRegion l f).hostGib = s.hostGib := by
  unfold State.modRegion; split <;> rfl
@[simp] theorem State.touch_hostGib (s : State) (r : Nat) : (s.touch r).hostGib = s.hostGib := by
  unfold State.touch; split <;> simp
@[simp] theorem State.modRegion_plim (s : State) (l : Nat) (f : Region → Region) : (s.modRegion l f).plim = s.plim := by
  unfold State.modRegion; split <;> rfl
@[simp] theorem State.touch_plim (s : State) (r : Nat) : (s.touch r).plim = s.plim := by
  unfold State.touch; split <;> simp
@[simp] theorem State.modRegion_bubble (s : State) (l : Nat) (f : Region → Region) : (s.modRegion l f).bubble = s.bubble := by
  unfold State.modRegion; split <;> rfl
@[simp] theorem State.touch_bubble (s : State) (r : Nat) : (s.touch r).bubble = s.bubble := by
  unfold State.touch; split <;> simp
@[simp] theorem State.modRegion_hot (s : State) (l : Nat) (f : Region → Region) : (s.modRegion l f).hot = s.hot := by
  unfold State.modRegion; split <;> rfl
@[simp] theorem State.touch_hot (s : State) (r : Nat) : (s.touch r).hot = s.hot := by
  unfold State.touch; split <;> simp
@[simp] theorem State.modRegion_window (s : State) (l : Nat) (f : Region → Region) : (s.modRegion l f).window = s.window := by
  unfold State.modRegion; split <;> rfl
@[simp] theorem State.touch_window (s : State) (r : Nat) : (s.touch r).window = s.window := by
  unfold State.touch; split <;> simp

/-! ### Views after an update -/

@[simp] theorem State.bumpId_nextId (s : State) : s.bumpId.nextId = s.nextId + 1 := rfl

@[simp] theorem State.tile_modTile (s : State) (r : Nat) (f : Tile → Tile) : (s.modTile r f).tile r = f (s.tile r) := by
  simp [State.tile, State.modTile]
theorem State.tile_modTile_ne (s : State) {r r' : Nat} (f : Tile → Tile) (h : r' ≠ r) : (s.modTile r f).tile r' = s.tile r' := by
  simp [State.tile, State.modTile, mapGet_mapMod_ne _ _ _ h]

@[simp] theorem State.core_modCore (s : State) (r : Nat) (f : Core → Core) : (s.modCore r f).core r = f (s.core r) := by
  simp [State.core, State.modCore]
theorem State.core_modCore_ne (s : State) {r r' : Nat} (f : Core → Core) (h : r' ≠ r) : (s.modCore r f).core r' = s.core r' := by
  simp [State.core, State.modCore, State.tile_modTile_ne s _ h]
@[simp] theorem State.fab_modCore (s : State) (r r' : Nat) (f : Core → Core) : (s.modCore r f).fab r' = s.fab r' := by
  by_cases h : r' = r
  · subst h; simp [State.fab, State.modCore]
  · simp [State.fab, State.modCore, State.tile_modTile_ne s _ h]
@[simp] theorem State.owner_modCore (s : State) (r r' : Nat) (f : Core → Core) : (s.modCore r f).owner r' = s.owner r' := by
  by_cases h : r' = r
  · subst h; simp [State.owner, State.modCore]
  · simp [State.owner, State.modCore, State.tile_modTile_ne s _ h]

@[simp] theorem State.fab_modFab (s : State) (r : Nat) (f : Fabric → Fabric) : (s.modFab r f).fab r = f (s.fab r) := by
  simp [State.fab, State.modFab]
theorem State.fab_modFab_ne (s : State) {r r' : Nat} (f : Fabric → Fabric) (h : r' ≠ r) : (s.modFab r f).fab r' = s.fab r' := by
  simp [State.fab, State.modFab, State.tile_modTile_ne s _ h]
@[simp] theorem State.core_modFab (s : State) (r r' : Nat) (f : Fabric → Fabric) : (s.modFab r f).core r' = s.core r' := by
  by_cases h : r' = r
  · subst h; simp [State.core, State.modFab]
  · simp [State.core, State.modFab, State.tile_modTile_ne s _ h]

@[simp] theorem State.cell_modCell (s : State) (r c : Nat) (f : Cell → Cell) : (s.modCell r c f).cell r c = f (s.cell r c) := by
  simp [State.cell, State.modCell]
@[simp] theorem State.core_modCell (s : State) (r c r' : Nat) (f : Cell → Cell) : (s.modCell r c f).core r' = s.core r' := by
  simp [State.modCell]

@[simp] theorem Fabric.mtile_modMtile (x : Fabric) (q : Nat) (f : MTile → MTile) : (x.modMtile q f).mtile q = f (x.mtile q) := by
  by_cases h : q = 0 <;> simp [Fabric.mtile, Fabric.modMtile, h]
@[simp] theorem State.mtile_modMtile (s : State) (r q : Nat) (f : MTile → MTile) :
    (s.modMtile r q f).mtile r q = f (s.mtile r q) := by
  simp [State.mtile, State.modMtile]
@[simp] theorem State.core_modMtile (s : State) (r q r' : Nat) (f : MTile → MTile) : (s.modMtile r q f).core r' = s.core r' := by
  simp [State.modMtile]

/-! ### Registers -/

@[simp] theorem Core.reg_zero (c : Core) : c.reg 0 = 0 := rfl
@[simp] theorem Core.setReg_zero (c : Core) (v : DWord) : c.setReg 0 v = c := rfl
theorem Core.reg_setReg_same (c : Core) {g : BitVec 5} (v : DWord) (h : g ≠ 0) : (c.setReg g v).reg g = v := by
  unfold Core.setReg Core.reg
  rw [if_neg h, if_neg h]
  simp
theorem Core.reg_setReg_ne (c : Core) {g g' : BitVec 5} (v : DWord) (h : g' ≠ g) : (c.setReg g v).reg g' = c.reg g' := by
  unfold Core.setReg Core.reg
  split
  · rfl
  · split
    · rfl
    · have hne : g.toNat ≠ g'.toNat := fun e => h (BitVec.eq_of_toNat_eq e).symm
      simp [hne]
theorem State.reg_setReg_same (s : State) (r : Nat) {g : BitVec 5} (v : DWord) (h : g ≠ 0) : (s.setReg r g v).reg r g = v := by
  simp [State.reg, State.setReg, Core.reg_setReg_same _ _ h]
theorem State.reg_setReg_ne (s : State) (r : Nat) {g g' : BitVec 5} (v : DWord) (h : g' ≠ g) :
    (s.setReg r g v).reg r g' = s.reg r g' := by
  simp [State.reg, State.setReg, Core.reg_setReg_ne _ _ h]

@[simp] theorem Core.setReg_pc (c : Core) (g : BitVec 5) (v : DWord) : (c.setReg g v).pc = c.pc := by
  unfold Core.setReg; split <;> rfl
@[simp] theorem Core.setReg_level (c : Core) (g : BitVec 5) (v : DWord) : (c.setReg g v).level = c.level := by
  unfold Core.setReg; split <;> rfl
@[simp] theorem Core.setReg_mode (c : Core) (g : BitVec 5) (v : DWord) : (c.setReg g v).mode = c.mode := by
  unfold Core.setReg; split <;> rfl
@[simp] theorem Core.setReg_mem (c : Core) (g : BitVec 5) (v : DWord) : (c.setReg g v).mem = c.mem := by
  unfold Core.setReg; split <;> rfl
@[simp] theorem Core.setReg_poisoned (c : Core) (g : BitVec 5) (v : DWord) : (c.setReg g v).poisoned = c.poisoned := by
  unfold Core.setReg; split <;> rfl
@[simp] theorem Core.setReg_loops (c : Core) (g : BitVec 5) (v : DWord) : (c.setReg g v).loops = c.loops := by
  unfold Core.setReg; split <;> rfl
@[simp] theorem Core.setReg_traps (c : Core) (g : BitVec 5) (v : DWord) : (c.setReg g v).traps = c.traps := by
  unfold Core.setReg; split <;> rfl
@[simp] theorem Core.setReg_rtDeleg (c : Core) (g : BitVec 5) (v : DWord) : (c.setReg g v).rtDeleg = c.rtDeleg := by
  unfold Core.setReg; split <;> rfl
@[simp] theorem Core.setReg_ocLd (c : Core) (g : BitVec 5) (v : DWord) : (c.setReg g v).ocLd = c.ocLd := by
  unfold Core.setReg; split <;> rfl
@[simp] theorem Core.setReg_ocSt (c : Core) (g : BitVec 5) (v : DWord) : (c.setReg g v).ocSt = c.ocSt := by
  unfold Core.setReg; split <;> rfl
@[simp] theorem Core.setReg_ocCp (c : Core) (g : BitVec 5) (v : DWord) : (c.setReg g v).ocCp = c.ocCp := by
  unfold Core.setReg; split <;> rfl
@[simp] theorem Core.setReg_ocTl (c : Core) (g : BitVec 5) (v : DWord) : (c.setReg g v).ocTl = c.ocTl := by
  unfold Core.setReg; split <;> rfl
@[simp] theorem Core.setReg_pend (c : Core) (g : BitVec 5) (v : DWord) : (c.setReg g v).pend = c.pend := by
  unfold Core.setReg; split <;> rfl
@[simp] theorem Core.setReg_events (c : Core) (g : BitVec 5) (v : DWord) : (c.setReg g v).events = c.events := by
  unfold Core.setReg; split <;> rfl
@[simp] theorem Core.setReg_elost (c : Core) (g : BitVec 5) (v : DWord) : (c.setReg g v).elost = c.elost := by
  unfold Core.setReg; split <;> rfl
@[simp] theorem Core.setReg_abort (c : Core) (g : BitVec 5) (v : DWord) : (c.setReg g v).abort = c.abort := by
  unfold Core.setReg; split <;> rfl
@[simp] theorem Core.setReg_nextAt (c : Core) (g : BitVec 5) (v : DWord) : (c.setReg g v).nextAt = c.nextAt := by
  unfold Core.setReg; split <;> rfl
@[simp] theorem Core.setReg_acquires (c : Core) (g : BitVec 5) (v : DWord) : (c.setReg g v).acquires = c.acquires := by
  unfold Core.setReg; split <;> rfl
@[simp] theorem Core.setReg_stall (c : Core) (g : BitVec 5) (v : DWord) : (c.setReg g v).stall = c.stall := by
  unfold Core.setReg; split <;> rfl
@[simp] theorem Core.setReg_cstsel (c : Core) (g : BitVec 5) (v : DWord) : (c.setReg g v).cstsel = c.cstsel := by
  unfold Core.setReg; split <;> rfl
@[simp] theorem Core.setReg_usel (c : Core) (g : BitVec 5) (v : DWord) : (c.setReg g v).usel = c.usel := by
  unfold Core.setReg; split <;> rfl
@[simp] theorem Core.setReg_mxsel (c : Core) (g : BitVec 5) (v : DWord) : (c.setReg g v).mxsel = c.mxsel := by
  unfold Core.setReg; split <;> rfl
@[simp] theorem Core.setReg_scsel (c : Core) (g : BitVec 5) (v : DWord) : (c.setReg g v).scsel = c.scsel := by
  unfold Core.setReg; split <;> rfl
@[simp] theorem Core.setReg_ccsel (c : Core) (g : BitVec 5) (v : DWord) : (c.setReg g v).ccsel = c.ccsel := by
  unfold Core.setReg; split <;> rfl
@[simp] theorem Core.setReg_cesel (c : Core) (g : BitVec 5) (v : DWord) : (c.setReg g v).cesel = c.cesel := by
  unfold Core.setReg; split <;> rfl
@[simp] theorem Core.setReg_gasel (c : Core) (g : BitVec 5) (v : DWord) : (c.setReg g v).gasel = c.gasel := by
  unfold Core.setReg; split <;> rfl
@[simp] theorem Core.setReg_opqsel (c : Core) (g : BitVec 5) (v : DWord) : (c.setReg g v).opqsel = c.opqsel := by
  unfold Core.setReg; split <;> rfl
@[simp] theorem Core.setReg_pmqsel (c : Core) (g : BitVec 5) (v : DWord) : (c.setReg g v).pmqsel = c.pmqsel := by
  unfold Core.setReg; split <;> rfl
@[simp] theorem Core.setReg_lksel (c : Core) (g : BitVec 5) (v : DWord) : (c.setReg g v).lksel = c.lksel := by
  unfold Core.setReg; split <;> rfl
@[simp] theorem Core.setReg_hsel (c : Core) (g : BitVec 5) (v : DWord) : (c.setReg g v).hsel = c.hsel := by
  unfold Core.setReg; split <;> rfl
@[simp] theorem Core.setReg_asid (c : Core) (g : BitVec 5) (v : DWord) : (c.setReg g v).asid = c.asid := by
  unfold Core.setReg; split <;> rfl
@[simp] theorem Core.setReg_subp (c : Core) (g : BitVec 5) (v : DWord) : (c.setReg g v).subp = c.subp := by
  unfold Core.setReg; split <;> rfl
@[simp] theorem Core.setReg_cpbin (c : Core) (g : BitVec 5) (v : DWord) : (c.setReg g v).cpbin = c.cpbin := by
  unfold Core.setReg; split <;> rfl
@[simp] theorem Core.setReg_cpbout (c : Core) (g : BitVec 5) (v : DWord) : (c.setReg g v).cpbout = c.cpbout := by
  unfold Core.setReg; split <;> rfl
@[simp] theorem Core.setReg_spliceSeq (c : Core) (g : BitVec 5) (v : DWord) : (c.setReg g v).spliceSeq = c.spliceSeq := by
  unfold Core.setReg; split <;> rfl
@[simp] theorem Core.setReg_pktSeq (c : Core) (g : BitVec 5) (v : DWord) : (c.setReg g v).pktSeq = c.pktSeq := by
  unfold Core.setReg; split <;> rfl
@[simp] theorem Core.setReg_boLatch (c : Core) (g : BitVec 5) (v : DWord) : (c.setReg g v).boLatch = c.boLatch := by
  unfold Core.setReg; split <;> rfl
@[simp] theorem Core.setReg_wake (c : Core) (g : BitVec 5) (v : DWord) : (c.setReg g v).wake = c.wake := by
  unfold Core.setReg; split <;> rfl
@[simp] theorem Core.setReg_task (c : Core) (g : BitVec 5) (v : DWord) : (c.setReg g v).task = c.task := by
  unfold Core.setReg; split <;> rfl
@[simp] theorem Core.setReg_helper (c : Core) (g : BitVec 5) (v : DWord) : (c.setReg g v).helper = c.helper := by
  unfold Core.setReg; split <;> rfl
@[simp] theorem Core.setReg_acct (c : Core) (g : BitVec 5) (v : DWord) : (c.setReg g v).acct = c.acct := by
  unfold Core.setReg; split <;> rfl
@[simp] theorem Core.modTrap_regs (c : Core) (l : Nat) (f : TrapRegs → TrapRegs) : (c.modTrap l f).regs = c.regs := rfl
@[simp] theorem Core.modTrap_pc (c : Core) (l : Nat) (f : TrapRegs → TrapRegs) : (c.modTrap l f).pc = c.pc := rfl
@[simp] theorem Core.modTrap_level (c : Core) (l : Nat) (f : TrapRegs → TrapRegs) : (c.modTrap l f).level = c.level := rfl
@[simp] theorem Core.modTrap_mode (c : Core) (l : Nat) (f : TrapRegs → TrapRegs) : (c.modTrap l f).mode = c.mode := rfl
@[simp] theorem Core.modTrap_mem (c : Core) (l : Nat) (f : TrapRegs → TrapRegs) : (c.modTrap l f).mem = c.mem := rfl
@[simp] theorem Core.modTrap_poisoned (c : Core) (l : Nat) (f : TrapRegs → TrapRegs) : (c.modTrap l f).poisoned = c.poisoned :=
  rfl
@[simp] theorem Core.modTrap_loops (c : Core) (l : Nat) (f : TrapRegs → TrapRegs) : (c.modTrap l f).loops = c.loops := rfl
@[simp] theorem Core.modTrap_rtDeleg (c : Core) (l : Nat) (f : TrapRegs → TrapRegs) : (c.modTrap l f).rtDeleg = c.rtDeleg := rfl
@[simp] theorem Core.modTrap_ocLd (c : Core) (l : Nat) (f : TrapRegs → TrapRegs) : (c.modTrap l f).ocLd = c.ocLd := rfl
@[simp] theorem Core.modTrap_ocSt (c : Core) (l : Nat) (f : TrapRegs → TrapRegs) : (c.modTrap l f).ocSt = c.ocSt := rfl
@[simp] theorem Core.modTrap_ocCp (c : Core) (l : Nat) (f : TrapRegs → TrapRegs) : (c.modTrap l f).ocCp = c.ocCp := rfl
@[simp] theorem Core.modTrap_ocTl (c : Core) (l : Nat) (f : TrapRegs → TrapRegs) : (c.modTrap l f).ocTl = c.ocTl := rfl
@[simp] theorem Core.modTrap_pend (c : Core) (l : Nat) (f : TrapRegs → TrapRegs) : (c.modTrap l f).pend = c.pend := rfl
@[simp] theorem Core.modTrap_poison (c : Core) (l : Nat) (f : TrapRegs → TrapRegs) : (c.modTrap l f).poison = c.poison := rfl
@[simp] theorem Core.modTrap_events (c : Core) (l : Nat) (f : TrapRegs → TrapRegs) : (c.modTrap l f).events = c.events := rfl
@[simp] theorem Core.modTrap_elost (c : Core) (l : Nat) (f : TrapRegs → TrapRegs) : (c.modTrap l f).elost = c.elost := rfl
@[simp] theorem Core.modTrap_abort (c : Core) (l : Nat) (f : TrapRegs → TrapRegs) : (c.modTrap l f).abort = c.abort := rfl
@[simp] theorem Core.modTrap_nextAt (c : Core) (l : Nat) (f : TrapRegs → TrapRegs) : (c.modTrap l f).nextAt = c.nextAt := rfl
@[simp] theorem Core.modTrap_acquires (c : Core) (l : Nat) (f : TrapRegs → TrapRegs) : (c.modTrap l f).acquires = c.acquires :=
  rfl
@[simp] theorem Core.modTrap_stall (c : Core) (l : Nat) (f : TrapRegs → TrapRegs) : (c.modTrap l f).stall = c.stall := rfl
@[simp] theorem Core.modTrap_cstsel (c : Core) (l : Nat) (f : TrapRegs → TrapRegs) : (c.modTrap l f).cstsel = c.cstsel := rfl
@[simp] theorem Core.modTrap_usel (c : Core) (l : Nat) (f : TrapRegs → TrapRegs) : (c.modTrap l f).usel = c.usel := rfl
@[simp] theorem Core.modTrap_mxsel (c : Core) (l : Nat) (f : TrapRegs → TrapRegs) : (c.modTrap l f).mxsel = c.mxsel := rfl
@[simp] theorem Core.modTrap_scsel (c : Core) (l : Nat) (f : TrapRegs → TrapRegs) : (c.modTrap l f).scsel = c.scsel := rfl
@[simp] theorem Core.modTrap_ccsel (c : Core) (l : Nat) (f : TrapRegs → TrapRegs) : (c.modTrap l f).ccsel = c.ccsel := rfl
@[simp] theorem Core.modTrap_cesel (c : Core) (l : Nat) (f : TrapRegs → TrapRegs) : (c.modTrap l f).cesel = c.cesel := rfl
@[simp] theorem Core.modTrap_gasel (c : Core) (l : Nat) (f : TrapRegs → TrapRegs) : (c.modTrap l f).gasel = c.gasel := rfl
@[simp] theorem Core.modTrap_opqsel (c : Core) (l : Nat) (f : TrapRegs → TrapRegs) : (c.modTrap l f).opqsel = c.opqsel := rfl
@[simp] theorem Core.modTrap_pmqsel (c : Core) (l : Nat) (f : TrapRegs → TrapRegs) : (c.modTrap l f).pmqsel = c.pmqsel := rfl
@[simp] theorem Core.modTrap_lksel (c : Core) (l : Nat) (f : TrapRegs → TrapRegs) : (c.modTrap l f).lksel = c.lksel := rfl
@[simp] theorem Core.modTrap_hsel (c : Core) (l : Nat) (f : TrapRegs → TrapRegs) : (c.modTrap l f).hsel = c.hsel := rfl
@[simp] theorem Core.modTrap_asid (c : Core) (l : Nat) (f : TrapRegs → TrapRegs) : (c.modTrap l f).asid = c.asid := rfl
@[simp] theorem Core.modTrap_subp (c : Core) (l : Nat) (f : TrapRegs → TrapRegs) : (c.modTrap l f).subp = c.subp := rfl
@[simp] theorem Core.modTrap_cpbin (c : Core) (l : Nat) (f : TrapRegs → TrapRegs) : (c.modTrap l f).cpbin = c.cpbin := rfl
@[simp] theorem Core.modTrap_cpbout (c : Core) (l : Nat) (f : TrapRegs → TrapRegs) : (c.modTrap l f).cpbout = c.cpbout := rfl
@[simp] theorem Core.modTrap_spliceSeq (c : Core) (l : Nat) (f : TrapRegs → TrapRegs) : (c.modTrap l f).spliceSeq = c.spliceSeq :=
  rfl
@[simp] theorem Core.modTrap_pktSeq (c : Core) (l : Nat) (f : TrapRegs → TrapRegs) : (c.modTrap l f).pktSeq = c.pktSeq := rfl
@[simp] theorem Core.modTrap_boLatch (c : Core) (l : Nat) (f : TrapRegs → TrapRegs) : (c.modTrap l f).boLatch = c.boLatch := rfl
@[simp] theorem Core.modTrap_wake (c : Core) (l : Nat) (f : TrapRegs → TrapRegs) : (c.modTrap l f).wake = c.wake := rfl
@[simp] theorem Core.modTrap_task (c : Core) (l : Nat) (f : TrapRegs → TrapRegs) : (c.modTrap l f).task = c.task := rfl
@[simp] theorem Core.modTrap_helper (c : Core) (l : Nat) (f : TrapRegs → TrapRegs) : (c.modTrap l f).helper = c.helper := rfl
@[simp] theorem Core.modTrap_acct (c : Core) (l : Nat) (f : TrapRegs → TrapRegs) : (c.modTrap l f).acct = c.acct := rfl
@[simp] theorem Core.modBank_regs (c : Core) (l : Nat) (f : LoopBank → LoopBank) : (c.modBank l f).regs = c.regs := rfl
@[simp] theorem Core.modBank_pc (c : Core) (l : Nat) (f : LoopBank → LoopBank) : (c.modBank l f).pc = c.pc := rfl
@[simp] theorem Core.modBank_level (c : Core) (l : Nat) (f : LoopBank → LoopBank) : (c.modBank l f).level = c.level := rfl
@[simp] theorem Core.modBank_mode (c : Core) (l : Nat) (f : LoopBank → LoopBank) : (c.modBank l f).mode = c.mode := rfl
@[simp] theorem Core.modBank_mem (c : Core) (l : Nat) (f : LoopBank → LoopBank) : (c.modBank l f).mem = c.mem := rfl
@[simp] theorem Core.modBank_poisoned (c : Core) (l : Nat) (f : LoopBank → LoopBank) : (c.modBank l f).poisoned = c.poisoned :=
  rfl
@[simp] theorem Core.modBank_traps (c : Core) (l : Nat) (f : LoopBank → LoopBank) : (c.modBank l f).traps = c.traps := rfl
@[simp] theorem Core.modBank_rtDeleg (c : Core) (l : Nat) (f : LoopBank → LoopBank) : (c.modBank l f).rtDeleg = c.rtDeleg := rfl
@[simp] theorem Core.modBank_ocLd (c : Core) (l : Nat) (f : LoopBank → LoopBank) : (c.modBank l f).ocLd = c.ocLd := rfl
@[simp] theorem Core.modBank_ocSt (c : Core) (l : Nat) (f : LoopBank → LoopBank) : (c.modBank l f).ocSt = c.ocSt := rfl
@[simp] theorem Core.modBank_ocCp (c : Core) (l : Nat) (f : LoopBank → LoopBank) : (c.modBank l f).ocCp = c.ocCp := rfl
@[simp] theorem Core.modBank_ocTl (c : Core) (l : Nat) (f : LoopBank → LoopBank) : (c.modBank l f).ocTl = c.ocTl := rfl
@[simp] theorem Core.modBank_pend (c : Core) (l : Nat) (f : LoopBank → LoopBank) : (c.modBank l f).pend = c.pend := rfl
@[simp] theorem Core.modBank_poison (c : Core) (l : Nat) (f : LoopBank → LoopBank) : (c.modBank l f).poison = c.poison := rfl
@[simp] theorem Core.modBank_events (c : Core) (l : Nat) (f : LoopBank → LoopBank) : (c.modBank l f).events = c.events := rfl
@[simp] theorem Core.modBank_elost (c : Core) (l : Nat) (f : LoopBank → LoopBank) : (c.modBank l f).elost = c.elost := rfl
@[simp] theorem Core.modBank_abort (c : Core) (l : Nat) (f : LoopBank → LoopBank) : (c.modBank l f).abort = c.abort := rfl
@[simp] theorem Core.modBank_nextAt (c : Core) (l : Nat) (f : LoopBank → LoopBank) : (c.modBank l f).nextAt = c.nextAt := rfl
@[simp] theorem Core.modBank_acquires (c : Core) (l : Nat) (f : LoopBank → LoopBank) : (c.modBank l f).acquires = c.acquires :=
  rfl
@[simp] theorem Core.modBank_stall (c : Core) (l : Nat) (f : LoopBank → LoopBank) : (c.modBank l f).stall = c.stall := rfl
@[simp] theorem Core.modBank_cstsel (c : Core) (l : Nat) (f : LoopBank → LoopBank) : (c.modBank l f).cstsel = c.cstsel := rfl
@[simp] theorem Core.modBank_usel (c : Core) (l : Nat) (f : LoopBank → LoopBank) : (c.modBank l f).usel = c.usel := rfl
@[simp] theorem Core.modBank_mxsel (c : Core) (l : Nat) (f : LoopBank → LoopBank) : (c.modBank l f).mxsel = c.mxsel := rfl
@[simp] theorem Core.modBank_scsel (c : Core) (l : Nat) (f : LoopBank → LoopBank) : (c.modBank l f).scsel = c.scsel := rfl
@[simp] theorem Core.modBank_ccsel (c : Core) (l : Nat) (f : LoopBank → LoopBank) : (c.modBank l f).ccsel = c.ccsel := rfl
@[simp] theorem Core.modBank_cesel (c : Core) (l : Nat) (f : LoopBank → LoopBank) : (c.modBank l f).cesel = c.cesel := rfl
@[simp] theorem Core.modBank_gasel (c : Core) (l : Nat) (f : LoopBank → LoopBank) : (c.modBank l f).gasel = c.gasel := rfl
@[simp] theorem Core.modBank_opqsel (c : Core) (l : Nat) (f : LoopBank → LoopBank) : (c.modBank l f).opqsel = c.opqsel := rfl
@[simp] theorem Core.modBank_pmqsel (c : Core) (l : Nat) (f : LoopBank → LoopBank) : (c.modBank l f).pmqsel = c.pmqsel := rfl
@[simp] theorem Core.modBank_lksel (c : Core) (l : Nat) (f : LoopBank → LoopBank) : (c.modBank l f).lksel = c.lksel := rfl
@[simp] theorem Core.modBank_hsel (c : Core) (l : Nat) (f : LoopBank → LoopBank) : (c.modBank l f).hsel = c.hsel := rfl
@[simp] theorem Core.modBank_asid (c : Core) (l : Nat) (f : LoopBank → LoopBank) : (c.modBank l f).asid = c.asid := rfl
@[simp] theorem Core.modBank_subp (c : Core) (l : Nat) (f : LoopBank → LoopBank) : (c.modBank l f).subp = c.subp := rfl
@[simp] theorem Core.modBank_cpbin (c : Core) (l : Nat) (f : LoopBank → LoopBank) : (c.modBank l f).cpbin = c.cpbin := rfl
@[simp] theorem Core.modBank_cpbout (c : Core) (l : Nat) (f : LoopBank → LoopBank) : (c.modBank l f).cpbout = c.cpbout := rfl
@[simp] theorem Core.modBank_spliceSeq (c : Core) (l : Nat) (f : LoopBank → LoopBank) : (c.modBank l f).spliceSeq = c.spliceSeq :=
  rfl
@[simp] theorem Core.modBank_pktSeq (c : Core) (l : Nat) (f : LoopBank → LoopBank) : (c.modBank l f).pktSeq = c.pktSeq := rfl
@[simp] theorem Core.modBank_boLatch (c : Core) (l : Nat) (f : LoopBank → LoopBank) : (c.modBank l f).boLatch = c.boLatch := rfl
@[simp] theorem Core.modBank_wake (c : Core) (l : Nat) (f : LoopBank → LoopBank) : (c.modBank l f).wake = c.wake := rfl
@[simp] theorem Core.modBank_task (c : Core) (l : Nat) (f : LoopBank → LoopBank) : (c.modBank l f).task = c.task := rfl
@[simp] theorem Core.modBank_helper (c : Core) (l : Nat) (f : LoopBank → LoopBank) : (c.modBank l f).helper = c.helper := rfl
@[simp] theorem Core.modBank_acct (c : Core) (l : Nat) (f : LoopBank → LoopBank) : (c.modBank l f).acct = c.acct := rfl
@[simp] theorem Core.account_regs (c : Core) (k n : Nat) : (c.account k n).regs = c.regs := rfl
@[simp] theorem Core.account_pc (c : Core) (k n : Nat) : (c.account k n).pc = c.pc := rfl
@[simp] theorem Core.account_level (c : Core) (k n : Nat) : (c.account k n).level = c.level := rfl
@[simp] theorem Core.account_mode (c : Core) (k n : Nat) : (c.account k n).mode = c.mode := rfl
@[simp] theorem Core.account_mem (c : Core) (k n : Nat) : (c.account k n).mem = c.mem := rfl
@[simp] theorem Core.account_poisoned (c : Core) (k n : Nat) : (c.account k n).poisoned = c.poisoned := rfl
@[simp] theorem Core.account_loops (c : Core) (k n : Nat) : (c.account k n).loops = c.loops := rfl
@[simp] theorem Core.account_traps (c : Core) (k n : Nat) : (c.account k n).traps = c.traps := rfl
@[simp] theorem Core.account_rtDeleg (c : Core) (k n : Nat) : (c.account k n).rtDeleg = c.rtDeleg := rfl
@[simp] theorem Core.account_ocLd (c : Core) (k n : Nat) : (c.account k n).ocLd = c.ocLd := rfl
@[simp] theorem Core.account_ocSt (c : Core) (k n : Nat) : (c.account k n).ocSt = c.ocSt := rfl
@[simp] theorem Core.account_ocCp (c : Core) (k n : Nat) : (c.account k n).ocCp = c.ocCp := rfl
@[simp] theorem Core.account_ocTl (c : Core) (k n : Nat) : (c.account k n).ocTl = c.ocTl := rfl
@[simp] theorem Core.account_pend (c : Core) (k n : Nat) : (c.account k n).pend = c.pend := rfl
@[simp] theorem Core.account_poison (c : Core) (k n : Nat) : (c.account k n).poison = c.poison := rfl
@[simp] theorem Core.account_events (c : Core) (k n : Nat) : (c.account k n).events = c.events := rfl
@[simp] theorem Core.account_elost (c : Core) (k n : Nat) : (c.account k n).elost = c.elost := rfl
@[simp] theorem Core.account_abort (c : Core) (k n : Nat) : (c.account k n).abort = c.abort := rfl
@[simp] theorem Core.account_nextAt (c : Core) (k n : Nat) : (c.account k n).nextAt = c.nextAt := rfl
@[simp] theorem Core.account_acquires (c : Core) (k n : Nat) : (c.account k n).acquires = c.acquires := rfl
@[simp] theorem Core.account_stall (c : Core) (k n : Nat) : (c.account k n).stall = c.stall := rfl
@[simp] theorem Core.account_cstsel (c : Core) (k n : Nat) : (c.account k n).cstsel = c.cstsel := rfl
@[simp] theorem Core.account_usel (c : Core) (k n : Nat) : (c.account k n).usel = c.usel := rfl
@[simp] theorem Core.account_mxsel (c : Core) (k n : Nat) : (c.account k n).mxsel = c.mxsel := rfl
@[simp] theorem Core.account_scsel (c : Core) (k n : Nat) : (c.account k n).scsel = c.scsel := rfl
@[simp] theorem Core.account_ccsel (c : Core) (k n : Nat) : (c.account k n).ccsel = c.ccsel := rfl
@[simp] theorem Core.account_cesel (c : Core) (k n : Nat) : (c.account k n).cesel = c.cesel := rfl
@[simp] theorem Core.account_gasel (c : Core) (k n : Nat) : (c.account k n).gasel = c.gasel := rfl
@[simp] theorem Core.account_opqsel (c : Core) (k n : Nat) : (c.account k n).opqsel = c.opqsel := rfl
@[simp] theorem Core.account_pmqsel (c : Core) (k n : Nat) : (c.account k n).pmqsel = c.pmqsel := rfl
@[simp] theorem Core.account_lksel (c : Core) (k n : Nat) : (c.account k n).lksel = c.lksel := rfl
@[simp] theorem Core.account_hsel (c : Core) (k n : Nat) : (c.account k n).hsel = c.hsel := rfl
@[simp] theorem Core.account_asid (c : Core) (k n : Nat) : (c.account k n).asid = c.asid := rfl
@[simp] theorem Core.account_subp (c : Core) (k n : Nat) : (c.account k n).subp = c.subp := rfl
@[simp] theorem Core.account_cpbin (c : Core) (k n : Nat) : (c.account k n).cpbin = c.cpbin := rfl
@[simp] theorem Core.account_cpbout (c : Core) (k n : Nat) : (c.account k n).cpbout = c.cpbout := rfl
@[simp] theorem Core.account_spliceSeq (c : Core) (k n : Nat) : (c.account k n).spliceSeq = c.spliceSeq := rfl
@[simp] theorem Core.account_pktSeq (c : Core) (k n : Nat) : (c.account k n).pktSeq = c.pktSeq := rfl
@[simp] theorem Core.account_boLatch (c : Core) (k n : Nat) : (c.account k n).boLatch = c.boLatch := rfl
@[simp] theorem Core.account_wake (c : Core) (k n : Nat) : (c.account k n).wake = c.wake := rfl
@[simp] theorem Core.account_task (c : Core) (k n : Nat) : (c.account k n).task = c.task := rfl
@[simp] theorem Core.account_helper (c : Core) (k n : Nat) : (c.account k n).helper = c.helper := rfl
@[simp] theorem Core.stepOn_regs (c : Core) : (c.stepOn).regs = c.regs := rfl
@[simp] theorem Core.stepOn_level (c : Core) : (c.stepOn).level = c.level := rfl
@[simp] theorem Core.stepOn_mode (c : Core) : (c.stepOn).mode = c.mode := rfl
@[simp] theorem Core.stepOn_mem (c : Core) : (c.stepOn).mem = c.mem := rfl
@[simp] theorem Core.stepOn_poisoned (c : Core) : (c.stepOn).poisoned = c.poisoned := rfl
@[simp] theorem Core.stepOn_traps (c : Core) : (c.stepOn).traps = c.traps := rfl
@[simp] theorem Core.stepOn_rtDeleg (c : Core) : (c.stepOn).rtDeleg = c.rtDeleg := rfl
@[simp] theorem Core.stepOn_ocLd (c : Core) : (c.stepOn).ocLd = c.ocLd := rfl
@[simp] theorem Core.stepOn_ocSt (c : Core) : (c.stepOn).ocSt = c.ocSt := rfl
@[simp] theorem Core.stepOn_ocCp (c : Core) : (c.stepOn).ocCp = c.ocCp := rfl
@[simp] theorem Core.stepOn_ocTl (c : Core) : (c.stepOn).ocTl = c.ocTl := rfl
@[simp] theorem Core.stepOn_pend (c : Core) : (c.stepOn).pend = c.pend := rfl
@[simp] theorem Core.stepOn_poison (c : Core) : (c.stepOn).poison = c.poison := rfl
@[simp] theorem Core.stepOn_events (c : Core) : (c.stepOn).events = c.events := rfl
@[simp] theorem Core.stepOn_elost (c : Core) : (c.stepOn).elost = c.elost := rfl
@[simp] theorem Core.stepOn_abort (c : Core) : (c.stepOn).abort = c.abort := rfl
@[simp] theorem Core.stepOn_nextAt (c : Core) : (c.stepOn).nextAt = c.nextAt := rfl
@[simp] theorem Core.stepOn_acquires (c : Core) : (c.stepOn).acquires = c.acquires := rfl
@[simp] theorem Core.stepOn_stall (c : Core) : (c.stepOn).stall = c.stall := rfl
@[simp] theorem Core.stepOn_cstsel (c : Core) : (c.stepOn).cstsel = c.cstsel := rfl
@[simp] theorem Core.stepOn_usel (c : Core) : (c.stepOn).usel = c.usel := rfl
@[simp] theorem Core.stepOn_mxsel (c : Core) : (c.stepOn).mxsel = c.mxsel := rfl
@[simp] theorem Core.stepOn_scsel (c : Core) : (c.stepOn).scsel = c.scsel := rfl
@[simp] theorem Core.stepOn_ccsel (c : Core) : (c.stepOn).ccsel = c.ccsel := rfl
@[simp] theorem Core.stepOn_cesel (c : Core) : (c.stepOn).cesel = c.cesel := rfl
@[simp] theorem Core.stepOn_gasel (c : Core) : (c.stepOn).gasel = c.gasel := rfl
@[simp] theorem Core.stepOn_opqsel (c : Core) : (c.stepOn).opqsel = c.opqsel := rfl
@[simp] theorem Core.stepOn_pmqsel (c : Core) : (c.stepOn).pmqsel = c.pmqsel := rfl
@[simp] theorem Core.stepOn_lksel (c : Core) : (c.stepOn).lksel = c.lksel := rfl
@[simp] theorem Core.stepOn_hsel (c : Core) : (c.stepOn).hsel = c.hsel := rfl
@[simp] theorem Core.stepOn_asid (c : Core) : (c.stepOn).asid = c.asid := rfl
@[simp] theorem Core.stepOn_subp (c : Core) : (c.stepOn).subp = c.subp := rfl
@[simp] theorem Core.stepOn_cpbin (c : Core) : (c.stepOn).cpbin = c.cpbin := rfl
@[simp] theorem Core.stepOn_cpbout (c : Core) : (c.stepOn).cpbout = c.cpbout := rfl
@[simp] theorem Core.stepOn_spliceSeq (c : Core) : (c.stepOn).spliceSeq = c.spliceSeq := rfl
@[simp] theorem Core.stepOn_pktSeq (c : Core) : (c.stepOn).pktSeq = c.pktSeq := rfl
@[simp] theorem Core.stepOn_boLatch (c : Core) : (c.stepOn).boLatch = c.boLatch := rfl
@[simp] theorem Core.stepOn_wake (c : Core) : (c.stepOn).wake = c.wake := rfl
@[simp] theorem Core.stepOn_task (c : Core) : (c.stepOn).task = c.task := rfl
@[simp] theorem Core.stepOn_helper (c : Core) : (c.stepOn).helper = c.helper := rfl
@[simp] theorem Core.stepOn_acct (c : Core) : (c.stepOn).acct = c.acct := rfl
@[simp] theorem Core.trap_modTrap (c : Core) (l : Nat) (f : TrapRegs → TrapRegs) : (c.modTrap l f).trap l = f (c.trap l) := by
  simp [Core.trap, Core.modTrap]
theorem Core.trap_modTrap_ne (c : Core) {l l' : Nat} (f : TrapRegs → TrapRegs) (h : l' ≠ l) :
    (c.modTrap l f).trap l' = c.trap l' := by
  simp [Core.trap, Core.modTrap, mapGet_mapMod_ne _ _ _ h]
@[simp] theorem Core.bank_modBank (c : Core) (l : Nat) (f : LoopBank → LoopBank) : (c.modBank l f).bank l = f (c.bank l) := by
  simp [Core.bank, Core.modBank]

end Sys2Proof.Machine
end

