-- ==== Sys2Proof/Laws/Access.lean ====
section
/-!
SUPPORT. Everything a write at a location can do: its bytes, and no other byte of any store of the device.
-/

namespace Sys2Proof.Machine

/-- A tile whose bytes are as before leaves every byte of the device as before. -/
theorem State.sameBytes_modTile (s : State) (r : Nat) (f : Tile → Tile) (hc : (f (s.tile r)).core.mem = (s.tile r).core.mem)
    (h0 : (f (s.tile r)).fab.q0.mem = (s.tile r).fab.q0.mem) (h1 : (f (s.tile r)).fab.q1.mem = (s.tile r).fab.q1.mem) :
    s.sameBytes (s.modTile r f) := by
  intro l
  cases l with
  | dram t a => rfl
  | slice l b off => rfl
  | peer k off => rfl
  | priv r' off =>
    by_cases e : r' = r
    · subst e
      simp [State.byteAt, State.core, hc]
    · simp [State.byteAt, State.core, State.tile_modTile_ne _ _ e]
  | mtile r' q off =>
    by_cases e : r' = r
    · subst e
      by_cases hq : q = 0 <;> simp [State.byteAt, State.mtile, State.fab, Fabric.mtile, hq, h0, h1]
    · simp [State.byteAt, State.mtile, State.fab, State.tile_modTile_ne _ _ e]

theorem State.storesAt_dram (s : State) (t a n v : Nat) : s.storesAt (s.dramWrite t a n v) (.dram t a) n v := by
  intro l
  cases l with
  | dram t' a' =>
    simp only [Loc.byte, State.byteAt, State.dramWrite, true_and]
    exact mapGet_writeVal ..
  | slice l b off => rfl
  | peer k off => rfl
  | priv r off => rfl
  | mtile r q off => rfl

theorem State.storesAt_slice (s : State) (lv b off n v : Nat) :
    s.storesAt (s.locWrite (.slice lv b off) n v) (.slice lv b off) n v := by
  intro l
  cases l with
  | slice lv' b' off' =>
    by_cases e : bankKey lv' b' = bankKey lv b
    · simp only [Loc.byte, State.byteAt, State.locWrite, e, mapGet_mapMod_same, true_and]
      exact mapGet_writeVal ..
    · simp [Loc.byte, State.byteAt, State.locWrite, e, mapGet_mapMod_ne _ _ _ e]
  | dram t a => rfl
  | peer k off => rfl
  | priv r off => rfl
  | mtile r q off => rfl

theorem State.storesAt_priv (s : State) (r off n v : Nat) : s.storesAt (s.privWrite r off n v) (.priv r off) n v := by
  intro l
  cases l with
  | priv r' off' =>
    by_cases e : r' = r
    · subst e
      simp only [Loc.byte, State.byteAt, State.privWrite, State.locWrite, State.core_modCore, true_and]
      exact mapGet_writeVal ..
    · simp [Loc.byte, State.byteAt, State.privWrite, State.locWrite, e, State.core_modCore_ne _ _ e]
  | mtile r' q off' =>
    by_cases e : r' = r
    · subst e
      simp [Loc.byte, State.byteAt, State.privWrite, State.locWrite, State.modCore, State.mtile, State.fab]
    · simp [Loc.byte, State.byteAt, State.privWrite, State.locWrite, State.modCore, State.mtile, State.fab,
        State.tile_modTile_ne _ _ e]
  | dram t a => rfl
  | slice l b off => rfl
  | peer k off => rfl

theorem State.storesAt_mtile (s : State) (r q off n v : Nat) :
    s.storesAt (s.locWrite (.mtile r q off) n v) (.mtile r q off) n v := by
  intro l
  cases l with
  | mtile r' q' off' =>
    by_cases e : r' = r
    · subst e
      by_cases hq : q = 0 <;> by_cases hq' : q' = 0
      · simp only [Loc.byte, State.byteAt, State.locWrite, State.modMtile, State.mtile, State.fab_modFab, Fabric.modMtile,
          Fabric.mtile, MTile.write, hq, hq', if_true, true_and]
        exact mapGet_writeVal ..
      · simp [Loc.byte, State.byteAt, State.locWrite, State.modMtile, State.mtile, Fabric.modMtile, Fabric.mtile, hq, hq']
      · simp [Loc.byte, State.byteAt, State.locWrite, State.modMtile, State.mtile, Fabric.modMtile, Fabric.mtile, hq, hq']
      · simp only [Loc.byte, State.byteAt, State.locWrite, State.modMtile, State.mtile, State.fab_modFab, Fabric.modMtile,
          Fabric.mtile, MTile.write, hq, hq', if_false, true_and]
        exact mapGet_writeVal ..
    · have k : 2 * r' + (if q' = 0 then 0 else 1) ≠ 2 * r + (if q = 0 then 0 else 1) := by
        split <;> split <;> omega
      simp [Loc.byte, State.byteAt, State.locWrite, State.modMtile, State.mtile, State.fab_modFab_ne _ _ e, k]
  | priv r' off' => simp [Loc.byte, State.byteAt, State.locWrite]
  | dram t a => rfl
  | slice l b off => rfl
  | peer k off => rfl

/-- A write at a location of this device stores its bytes there and leaves every other byte as it was. -/
theorem State.storesAt_locWrite (s : State) {loc : Loc} (n v : Nat) (h : ∀ k off, loc ≠ .peer k off) :
    s.storesAt (s.locWrite loc n v) loc n v := by
  cases loc with
  | dram t a => exact s.storesAt_dram t a n v
  | slice l b off => exact s.storesAt_slice l b off n v
  | priv r off => exact s.storesAt_priv r off n v
  | mtile r q off => exact s.storesAt_mtile r q off n v
  | peer k off => exact absurd rfl (h k off)

/-- A write at a location keeps the memory outside the compute dies in canonical form. -/
theorem State.wf_locWrite {s : State} (h : Memory.wf s.dram = true) (loc : Loc) (n v : Nat) :
    Memory.wf (s.locWrite loc n v).dram = true := by
  cases loc with
  | dram t a => exact Memory.wf_writeVal h ..
  | slice l b off => exact h
  | priv r off => exact h
  | mtile r q off => exact h
  | peer k off => exact h

/-- No write waits where no page is in motion. -/
theorem State.writeHeld_of_still {s : State} (h : s.motions = []) (part : Option Nat) (asid : Nat) (p : DWord) (n : Nat) (task : Bool) :
    s.writeHeld part asid p n task = false := by
  rw [State.writeHeld, List.any_eq_false]
  intro x _
  split <;> simp [State.writeBlocked, State.motionAt, h]

/-- Zeroing a frame keeps the memory in canonical form. -/
theorem State.wf_zeroFrame {s : State} (h : Memory.wf s.dram = true) (tier frame : Nat) :
    Memory.wf (s.zeroFrame tier frame).dram = true := Memory.wf_clearBytes h ..

end Sys2Proof.Machine
end

