-- ==== Sys2Proof/Laws/Cells.lean ====
section
/-!
SUPPORT. Everything the frame of an operation word can do: nothing where no firing runs, a fault of the firing that has overrun
or whose MACC has trapped, or its body.
-/

namespace Sys2Proof.Machine

theorem opWord_idle {s : State} {body : OpCtx → OpEnd} (h : (s.cell s.foc.unit s.foc.sub).firing = none) :
    s.opWord body = s := by
  simp only [State.opWord, h]

theorem opWord_runs {s : State} {x : OpCtx} (h : s.fires x) (body : OpCtx → OpEnd) :
    s.opWord body = s.opEnd x.r x.k x.a x.f (body x) := by
  obtain ⟨hr, hk, hc, hf, ha, hd, ho, hm⟩ := h
  obtain ⟨r, k, c, a, f⟩ := x
  dsimp only at hr hk hc hf ha hd ho hm
  subst hr hk hc
  have ht : (f.macTrap.any fun t => decide (t ≤ s.now)) = false := by
    cases e : f.macTrap with
    | none => rfl
    | some t => simpa using hm t e
  simp only [State.opWord, hf, ha, hd, ht, if_neg (Nat.not_le.2 ho)]
  rfl

theorem opWord_overruns {s : State} {f : Firing} {a : Actor} (body : OpCtx → OpEnd)
    (hf : (s.cell s.foc.unit s.foc.sub).firing = some f) (ha : (s.cell s.foc.unit s.foc.sub).actors[f.actor]? = some a)
    (hd : f.dead = false) (ho : f.first + 4096 ≤ s.now) :
    s.opWord body = s.cellFault s.foc.unit s.foc.sub f.actor 11 0 0 := by
  simp only [State.opWord, hf, ha, hd, if_pos ho]
  rfl

/-- Every way in which an operation word's frame answers. -/
theorem opWord_cases (s : State) (body : OpCtx → OpEnd) :
    s.opWord body = s ∨
    (∃ f cause, (cause = 10 ∨ cause = 11) ∧ s.opWord body = s.cellFault s.foc.unit s.foc.sub f cause 0 0) ∨
    ∃ x : OpCtx, x.r = s.foc.unit ∧ x.k = s.foc.sub ∧ x.c = s.cell x.r x.k ∧ x.c.firing = some x.f ∧
      s.opWord body = s.opEnd x.r x.k x.a x.f (body x) := by
  cases hf : (s.cell s.foc.unit s.foc.sub).firing with
  | none => exact .inl (opWord_idle hf)
  | some f =>
    cases ha : (s.cell s.foc.unit s.foc.sub).actors[f.actor]? with
    | none => exact .inl (by simp only [State.opWord, hf, ha])
    | some a =>
      simp only [State.opWord, hf, ha]
      by_cases hd : f.dead = true
      · exact .inl (by rw [if_pos hd])
      · by_cases ho : f.first + 4096 ≤ s.now
        · exact .inr (.inl ⟨f.actor, 11, .inr rfl, by rw [if_neg hd, if_pos ho]⟩)
        · by_cases hm : (f.macTrap.any fun t => decide (t ≤ s.now)) = true
          · exact .inr (.inl ⟨f.actor, 10, .inl rfl, by rw [if_neg hd, if_neg ho, if_pos hm]⟩)
          · exact .inr (.inr ⟨⟨s.foc.unit, s.foc.sub, s.cell s.foc.unit s.foc.sub, a, f⟩, rfl, rfl, rfl, hf, by
              rw [if_neg hd, if_neg ho, if_neg hm]⟩)

end Sys2Proof.Machine
end

