-- ==== Sys2Proof/Laws/Lanes.lean ====
section
/-!
SUPPORT. What a lane word does, once for every lane word: its elements, the conditions it records, and the trap policy.
-/

namespace Sys2Proof.Machine

/-! ### Elements of a lane -/

theorem packElems_lt (b : Nat) (l : List Nat) : packElems b l < 2 ^ (b * l.length) := by
  induction l with
  | nil => simp [packElems]
  | cons x xs ih =>
    have h1 : x % 2 ^ b < 2 ^ b := Nat.mod_lt _ (Nat.two_pow_pos b)
    have h2 : 2 ^ b * (packElems b xs + 1) ≤ 2 ^ b * 2 ^ (b * xs.length) := Nat.mul_le_mul_left _ ih
    have e : b * (x :: xs).length = b + b * xs.length := by simp [Nat.mul_succ]; omega
    rw [e, Nat.pow_add, packElems]
    rw [Nat.mul_succ] at h2
    omega

/-- Element `e` of a lane that is packed from a list is element `e` of the list, to its width. -/
theorem elem_packElems (b : Nat) (l : List Nat) (e : Nat) (h : e < l.length) :
    packElems b l / 2 ^ (b * e) % 2 ^ b = l[e] % 2 ^ b := by
  induction l generalizing e with
  | nil => exact absurd h (Nat.not_lt_zero e)
  | cons x xs ih =>
    cases e with
    | zero => simp [packElems, Nat.add_mul_mod_self_left]
    | succ e =>
      have h1 : x % 2 ^ b < 2 ^ b := Nat.mod_lt _ (Nat.two_pow_pos b)
      have d : (x % 2 ^ b + 2 ^ b * packElems b xs) / 2 ^ b = packElems b xs := by
        rw [Nat.add_mul_div_left _ _ (Nat.two_pow_pos b), Nat.div_eq_of_lt h1, Nat.zero_add]
      rw [packElems, Nat.mul_succ, Nat.add_comm (b * e) b, Nat.pow_add, ← Nat.div_div_eq_div_mul, d]
      simpa using ih e (by simpa using h)

/-- A word made of a lane's elements keeps them all. -/
theorem elem_ofNat_packElems (b : Nat) (l : List Nat) (e : Nat) (h : e < l.length) (hb : b * l.length ≤ 32) :
    (BitVec.ofNat 32 (packElems b l)).toNat / 2 ^ (b * e) % 2 ^ b = l[e] % 2 ^ b := by
  have hl : packElems b l < 2 ^ 32 := Nat.lt_of_lt_of_le (packElems_lt b l) (Nat.pow_le_pow_right (by omega) hb)
  rw [BitVec.toNat_ofNat, Nat.mod_eq_of_lt hl, elem_packElems b l e h]

/-! ### Conditions -/

/-- One of the four condition flags. -/
def isFlag (flag : Conds → Bool) : Prop :=
  flag noConds = false ∧ ∀ a b : Conds, flag (a.join b) = (flag a || flag b)

theorem isFlag_iv : isFlag Conds.iv := ⟨rfl, fun _ _ => rfl⟩
theorem isFlag_dz : isFlag Conds.dz := ⟨rfl, fun _ _ => rfl⟩
theorem isFlag_ov : isFlag Conds.ov := ⟨rfl, fun _ _ => rfl⟩
theorem isFlag_fm : isFlag Conds.fm := ⟨rfl, fun _ _ => rfl⟩

theorem flag_foldl {flag : Conds → Bool} (h : isFlag flag) (l : List (Nat × Conds)) (k : Conds) :
    flag (l.foldl (fun k r => k.join r.2) k) = true ↔ flag k = true ∨ ∃ r ∈ l, flag r.2 = true := by
  induction l generalizing k with
  | nil => simp
  | cons a l ih => simp [ih, h.2, or_assoc]

theorem flag_foldl_lanes {flag : Conds → Bool} (h : isFlag flag) (l : List (Option (Nat × Conds))) (k : Conds) :
    flag (l.foldl (fun k r => r.elim k fun v => k.join v.2) k) = true ↔ flag k = true ∨ ∃ r, some r ∈ l ∧ flag r.2 = true := by
  induction l generalizing k with
  | nil => simp
  | cons a l ih =>
    cases a with
    | none => simp [ih]
    | some r => simp [ih, h.2, or_assoc]

/-- The conditions of a lane are those of its elements. -/
theorem flag_mapElems {flag : Conds → Bool} (h : isFlag flag) (b : Nat) (f : Nat → Nat × Conds) :
    flag (mapElems b f).2 = true ↔ ∃ e < 32 / b, flag (f e).2 = true := by
  rw [mapElems, flag_foldl h, h.1]
  constructor
  · rintro (h | ⟨r, hr, hc⟩)
    · exact absurd h (by simp)
    · obtain ⟨e, he, rfl⟩ := List.mem_map.1 hr
      exact ⟨e, List.mem_range.1 he, hc⟩
  · rintro ⟨e, he, hc⟩
    exact .inr ⟨f e, List.mem_map.2 ⟨e, List.mem_range.2 he, rfl⟩, hc⟩

theorem elem_mapElems {b : Nat} (f : Nat → Nat × Conds) {e : Nat} (he : e < 32 / b) :
    (BitVec.ofNat 32 (mapElems b f).1).toNat / 2 ^ (b * e) % 2 ^ b = (f e).1 % 2 ^ b := by
  have hl : (((List.range (perLane b)).map f).map Prod.fst).length = 32 / b := by simp [perLane]
  have hb : b * (32 / b) ≤ 32 := Nat.mul_div_le 32 b
  rw [mapElems, elem_ofNat_packElems b _ e (by rw [hl]; exact he) (by rw [hl]; exact hb)]
  simp

/-! ### The frame -/

/-- A lane word that gives each element of its selected lanes a code and conditions does what `runsLanes` says. -/
theorem runsLanes_of {s : State} {x : OpCtx} {i : Instr} {vd : BitVec 5} {sel : OpCtx → Nat → Bool} {b : Nat}
    {res : OpCtx → Nat → Nat → Nat × Conds} {n : Nat} (h : s.fires x)
    (hi : exec i s = .next (s.opWord fun y => y.lanesTo s vd.toNat (sel y) (fun L => mapElems b (res y L)) n)) :
    s.runsLanes x i vd (sel x) b (res x) n := by
  have cond {flag : Conds → Bool} (hf : isFlag flag) :
      flag (((List.range x.lanes).map fun L => if sel x L then some (mapElems b (res x L)) else none).foldl
        (fun k r => r.elim k fun v => k.join v.2) noConds) = true ↔
      ∃ L < x.lanes, sel x L = true ∧ ∃ e < 32 / b, flag (res x L e).2 = true := by
    rw [flag_foldl_lanes hf, hf.1]
    constructor
    · rintro (h | ⟨r, hr, hc⟩)
      · exact absurd h (by simp)
      · obtain ⟨L, hL, e⟩ := List.mem_map.1 hr
        by_cases hs : sel x L = true
        · rw [if_pos hs, Option.some.injEq] at e
          subst e
          exact ⟨L, List.mem_range.1 hL, hs, (flag_mapElems hf b _).1 hc⟩
        · rw [if_neg hs] at e
          exact absurd e (by simp)
    · rintro ⟨L, hL, hs, he⟩
      exact .inr ⟨mapElems b (res x L), List.mem_map.2 ⟨L, List.mem_range.2 hL, if_pos hs⟩, (flag_mapElems hf b _).2 he⟩
  refine ⟨_, cond isFlag_iv, cond isFlag_dz, cond isFlag_ov, cond isFlag_fm, ?_, ?_⟩
  · rintro ⟨hp, hc⟩
    rw [hi, opWord_runs h, OpCtx.lanesTo]
    refine congrArg _ ?_
    rw [if_pos]
    · rfl
    · simp only [hp, Conds.arith, beq_self_eq_true, Bool.true_and, Bool.or_eq_true]
      exact or_assoc.2 hc
  · intro hn
    refine ⟨(List.range x.lanes).map fun L =>
      match ((List.range x.lanes).map fun L => if sel x L then some (mapElems b (res x L)) else none)[L]? with
        | some (some v) => BitVec.ofNat 32 v.1
        | _ => lane (x.f.reg x.lanes vd.toNat) L, ?_, ?_⟩
    · rw [hi, opWord_runs h, OpCtx.lanesTo]
      refine congrArg _ ?_
      rw [if_neg]
      · rfl
      · simp only [Conds.arith, Bool.and_eq_true, Bool.or_eq_true, beq_iff_eq]
        exact fun ⟨hp, hc⟩ => hn ⟨hp, or_assoc.1 hc⟩
    · refine ⟨by simp, fun L hL => ?_⟩
      by_cases hs : sel x L = true
      · rw [if_pos hs]
        intro e he
        rw [← elem_mapElems (res x L) he]
        simp [lane, hL, hs]
      · rw [if_neg hs]
        simp [lane, hL, hs, OpCtx.reg]

end Sys2Proof.Machine
end

