-- ==== Sys2Proof/Laws/PerInstr.lean ====
section
/-!
SUPPORT. A law of every instruction: its word fits the store that it stands in, 32 bits or a halfword for a switch word (R60). The
round trips through the decoder rest on it.
-/

namespace Sys2Proof.Laws.Width

/-- The word of an instruction fits its store. -/
def Statement (i : Instr) : Prop := encode i < 2 ^ (if wordKind i = .switch then 16 else 32)

/-- It holds of every instruction. -/
theorem all (i : Instr) : Statement i := by
  cases i
  all_goals
    simp only [Statement, encode, wordKind, reduceCtorEq, if_false, if_true]
    first
    | decide
    | omega

theorem add (gd ga gb : BitVec 5) : Statement (.add gd ga gb) := all _
theorem sub (gd ga gb : BitVec 5) : Statement (.sub gd ga gb) := all _
theorem and (gd ga gb : BitVec 5) : Statement (.and gd ga gb) := all _
theorem or (gd ga gb : BitVec 5) : Statement (.or gd ga gb) := all _
theorem xor (gd ga gb : BitVec 5) : Statement (.xor gd ga gb) := all _
theorem sll (gd ga gb : BitVec 5) : Statement (.sll gd ga gb) := all _
theorem srl (gd ga gb : BitVec 5) : Statement (.srl gd ga gb) := all _
theorem sra (gd ga gb : BitVec 5) : Statement (.sra gd ga gb) := all _
theorem slt (gd ga gb : BitVec 5) : Statement (.slt gd ga gb) := all _
theorem sltu (gd ga gb : BitVec 5) : Statement (.sltu gd ga gb) := all _
theorem mul (gd ga gb : BitVec 5) : Statement (.mul gd ga gb) := all _
theorem mulh (gd ga gb : BitVec 5) : Statement (.mulh gd ga gb) := all _
theorem mulhu (gd ga gb : BitVec 5) : Statement (.mulhu gd ga gb) := all _
theorem div (gd ga gb : BitVec 5) : Statement (.div gd ga gb) := all _
theorem divu (gd ga gb : BitVec 5) : Statement (.divu gd ga gb) := all _
theorem rem (gd ga gb : BitVec 5) : Statement (.rem gd ga gb) := all _
theorem remu (gd ga gb : BitVec 5) : Statement (.remu gd ga gb) := all _
theorem min (gd ga gb : BitVec 5) : Statement (.min gd ga gb) := all _
theorem max (gd ga gb : BitVec 5) : Statement (.max gd ga gb) := all _
theorem minu (gd ga gb : BitVec 5) : Statement (.minu gd ga gb) := all _
theorem maxu (gd ga gb : BitVec 5) : Statement (.maxu gd ga gb) := all _
theorem clz (gd ga : BitVec 5) : Statement (.clz gd ga) := all _
theorem ctz (gd ga : BitVec 5) : Statement (.ctz gd ga) := all _
theorem popc (gd ga : BitVec 5) : Statement (.popc gd ga) := all _
theorem bext (gd ga gb : BitVec 5) : Statement (.bext gd ga gb) := all _
theorem bins (gd ga gb : BitVec 5) : Statement (.bins gd ga gb) := all _
theorem ptag (gd ga : BitVec 5) : Statement (.ptag gd ga) := all _
theorem pspace (gd ga gb : BitVec 5) : Statement (.pspace gd ga gb) := all _
theorem prank (gd ga gb : BitVec 5) : Statement (.prank gd ga gb) := all _
theorem padd (gd ga gb : BitVec 5) : Statement (.padd gd ga gb) := all _
theorem addi (gd ga : BitVec 5) (imm : BitVec 16) : Statement (.addi gd ga imm) := all _
theorem andi (gd ga : BitVec 5) (imm : BitVec 16) : Statement (.andi gd ga imm) := all _
theorem ori (gd ga : BitVec 5) (imm : BitVec 16) : Statement (.ori gd ga imm) := all _
theorem xori (gd ga : BitVec 5) (imm : BitVec 16) : Statement (.xori gd ga imm) := all _
theorem slli (gd ga : BitVec 5) (sh : BitVec 6) : Statement (.slli gd ga sh) := all _
theorem srli (gd ga : BitVec 5) (sh : BitVec 6) : Statement (.srli gd ga sh) := all _
theorem srai (gd ga : BitVec 5) (sh : BitVec 6) : Statement (.srai gd ga sh) := all _
theorem slti (gd ga : BitVec 5) (imm : BitVec 16) : Statement (.slti gd ga imm) := all _
theorem sltui (gd ga : BitVec 5) (imm : BitVec 16) : Statement (.sltui gd ga imm) := all _
theorem lui (gd : BitVec 5) (imm : BitVec 16) : Statement (.lui gd imm) := all _
theorem addpc (gd : BitVec 5) (imm : BitVec 16) : Statement (.addpc gd imm) := all _
theorem brEq (ga gb : BitVec 5) (imm : BitVec 16) : Statement (.brEq ga gb imm) := all _
theorem brNe (ga gb : BitVec 5) (imm : BitVec 16) : Statement (.brNe ga gb imm) := all _
theorem brLt (ga gb : BitVec 5) (imm : BitVec 16) : Statement (.brLt ga gb imm) := all _
theorem brGe (ga gb : BitVec 5) (imm : BitVec 16) : Statement (.brGe ga gb imm) := all _
theorem brLo (ga gb : BitVec 5) (imm : BitVec 16) : Statement (.brLo ga gb imm) := all _
theorem brHs (ga gb : BitVec 5) (imm : BitVec 16) : Statement (.brHs ga gb imm) := all _
theorem jmpl (gd : BitVec 5) (imm : BitVec 21) : Statement (.jmpl gd imm) := all _
theorem jr (ga : BitVec 5) : Statement (.jr ga) := all _
theorem jrl (gd ga : BitVec 5) : Statement (.jrl gd ga) := all _
theorem loop (lvl : BitVec 2) (k : BitVec 1) (cnt : BitVec 9) (len : BitVec 14) : Statement (.loop lvl k cnt len) := all _
theorem lexit (n : BitVec 5) : Statement (.lexit n) := all _
theorem lread (gd n : BitVec 5) : Statement (.lread gd n) := all _
theorem ld (g ga : BitVec 5) (sz ord : BitVec 2) (off : BitVec 12) : Statement (.ld g ga sz ord off) := all _
theorem ldu (g ga : BitVec 5) (sz ord : BitVec 2) (off : BitVec 12) : Statement (.ldu g ga sz ord off) := all _
theorem st (g ga : BitVec 5) (sz ord : BitVec 2) (off : BitVec 12) : Statement (.st g ga sz ord off) := all _
theorem ldv (gd ga gb : BitVec 5) : Statement (.ldv gd ga gb) := all _
theorem stv (gs ga gb : BitVec 5) : Statement (.stv gs ga gb) := all _
theorem recl (ga gb : BitVec 5) : Statement (.recl ga gb) := all _
theorem vqry (gd ga : BitVec 5) : Statement (.vqry gd ga) := all _
theorem amoAdd (gd ga gb : BitVec 5) (aq rl dbl : BitVec 1) : Statement (.amoAdd gd ga gb aq rl dbl) := all _
theorem amoAnd (gd ga gb : BitVec 5) (aq rl dbl : BitVec 1) : Statement (.amoAnd gd ga gb aq rl dbl) := all _
theorem amoOr (gd ga gb : BitVec 5) (aq rl dbl : BitVec 1) : Statement (.amoOr gd ga gb aq rl dbl) := all _
theorem amoXor (gd ga gb : BitVec 5) (aq rl dbl : BitVec 1) : Statement (.amoXor gd ga gb aq rl dbl) := all _
theorem amoMin (gd ga gb : BitVec 5) (aq rl dbl : BitVec 1) : Statement (.amoMin gd ga gb aq rl dbl) := all _
theorem amoMax (gd ga gb : BitVec 5) (aq rl dbl : BitVec 1) : Statement (.amoMax gd ga gb aq rl dbl) := all _
theorem amoMinu (gd ga gb : BitVec 5) (aq rl dbl : BitVec 1) : Statement (.amoMinu gd ga gb aq rl dbl) := all _
theorem amoMaxu (gd ga gb : BitVec 5) (aq rl dbl : BitVec 1) : Statement (.amoMaxu gd ga gb aq rl dbl) := all _
theorem amoSwp (gd ga gb : BitVec 5) (aq rl dbl : BitVec 1) : Statement (.amoSwp gd ga gb aq rl dbl) := all _
theorem amoCas (gd ga gb : BitVec 5) (aq rl dbl : BitVec 1) : Statement (.amoCas gd ga gb aq rl dbl) := all _
theorem amoFadd (gd ga gb : BitVec 5) (aq rl : BitVec 1) : Statement (.amoFadd gd ga gb aq rl) := all _
theorem amoFadd2 (gd ga gb : BitVec 5) (aq rl : BitVec 1) : Statement (.amoFadd2 gd ga gb aq rl) := all _
theorem fence (scope : BitVec 5) : Statement (.fence scope) := all _
theorem qfence (ga : BitVec 5) : Statement (.qfence ga) := all _
theorem wait (ld st cp tl : BitVec 4) : Statement (.wait ld st cp tl) := all _
theorem time (gd : BitVec 5) : Statement (.time gd) := all _
theorem sleep (ga : BitVec 5) : Statement (.sleep ga) := all _
theorem pchk (gd ga : BitVec 5) : Statement (.pchk gd ga) := all _
theorem sin (gd ga gb : BitVec 5) : Statement (.sin gd ga gb) := all _
theorem sout (gd ga gb : BitVec 5) : Statement (.sout gd ga gb) := all _
theorem sidx (gd ga gb : BitVec 5) : Statement (.sidx gd ga gb) := all _
theorem skill (ga : BitVec 5) : Statement (.skill ga) := all _
theorem spos (gd ga : BitVec 5) : Statement (.spos gd ga) := all _
theorem cload (gd ga gb : BitVec 5) : Statement (.cload gd ga gb) := all _
theorem cnext (ga gb : BitVec 5) : Statement (.cnext ga gb) := all _
theorem nodeSwitch (node : Node) : Statement (.nodeSwitch node) := all _
theorem csplice (gd ga gb : BitVec 5) : Statement (.csplice gd ga gb) := all _
theorem spliceSink (node : Node) : Statement (.spliceSink node) := all _
theorem cfrz (ga : BitVec 5) : Statement (.cfrz ga) := all _
theorem cthaw (ga : BitVec 5) : Statement (.cthaw ga) := all _
theorem csave (ga gb : BitVec 5) : Statement (.csave ga gb) := all _
theorem crest (ga gb : BitVec 5) : Statement (.crest ga gb) := all _
theorem btok (ga : BitVec 5) : Statement (.btok ga) := all _
theorem bdrain (gd ga : BitVec 5) : Statement (.bdrain gd ga) := all _
theorem boinit (ga gb : BitVec 5) : Statement (.boinit ga gb) := all _
theorem boarr (ga : BitVec 5) : Statement (.boarr ga) := all _
theorem bowait (ga : BitVec 5) : Statement (.bowait ga) := all _
theorem boxfer (ga gb : BitVec 5) : Statement (.boxfer ga gb) := all _
theorem tsub (gd ga gb : BitVec 5) : Statement (.tsub gd ga gb) := all _
theorem tqopen (gd ga : BitVec 5) : Statement (.tqopen gd ga) := all _
theorem tqclose (ga : BitVec 5) : Statement (.tqclose ga) := all _
theorem tjoin (gd ga : BitVec 5) : Statement (.tjoin gd ga) := all _
theorem tsig (ga : BitVec 5) : Statement (.tsig ga) := all _
theorem tself (gd : BitVec 5) : Statement (.tself gd) := all _
theorem tkWakeWrite (v : DWord) : Statement (.tkWakeWrite v) := all _
theorem cpy (gd ga gb : BitVec 5) : Statement (.cpy gd ga gb) := all _
theorem cpy2d (gd ga gb : BitVec 5) : Statement (.cpy2d gd ga gb) := all _
theorem cpyg (gd ga gb : BitVec 5) : Statement (.cpyg gd ga gb) := all _
theorem cpyz (gd ga : BitVec 5) : Statement (.cpyz gd ga) := all _
theorem cpq (gd ga : BitVec 5) : Statement (.cpq gd ga) := all _
theorem scop (ga : BitVec 5) : Statement (.scop ga) := all _
theorem scgo (gd ga gb : BitVec 5) : Statement (.scgo gd ga gb) := all _
theorem sccin (ga : BitVec 5) : Statement (.sccin ga) := all _
theorem sccout (gd : BitVec 5) : Statement (.sccout gd) := all _
theorem scbar (ga : BitVec 5) : Statement (.scbar ga) := all _
theorem pghint (ga gb : BitVec 5) : Statement (.pghint ga gb) := all _
theorem pgmove (gd ga gb : BitVec 5) : Statement (.pgmove gd ga gb) := all _
theorem pgqry (gd ga : BitVec 5) : Statement (.pgqry gd ga) := all _
theorem pgdisc (ga gb : BitVec 5) : Statement (.pgdisc ga gb) := all _
theorem pgnote (gd : BitVec 5) : Statement (.pgnote gd) := all _
theorem pgthr (ga gb : BitVec 5) : Statement (.pgthr ga gb) := all _
theorem psend (gd ga gb : BitVec 5) : Statement (.psend gd ga gb) := all _
theorem pmask (ga : BitVec 5) : Statement (.pmask ga) := all _
theorem punmask (ga : BitVec 5) : Statement (.punmask ga) := all _
theorem pbind (ga gb : BitVec 5) : Statement (.pbind ga gb) := all _
theorem peerPacketArrival (head : BitVec 256) (payload : List (BitVec 256)) : Statement (.peerPacketArrival head payload) := all _
theorem pcreate (gd ga gb : BitVec 5) : Statement (.pcreate gd ga gb) := all _
theorem pquota (ga gb : BitVec 5) : Statement (.pquota ga gb) := all _
theorem pgrant (ga gb : BitVec 5) : Statement (.pgrant ga gb) := all _
theorem prevoke (ga gb : BitVec 5) : Statement (.prevoke ga gb) := all _
theorem pslice (ga gb : BitVec 5) : Statement (.pslice ga gb) := all _
theorem pdestroy (ga : BitVec 5) : Statement (.pdestroy ga) := all _
theorem aalloc (gd ga : BitVec 5) : Statement (.aalloc gd ga) := all _
theorem afree (ga : BitVec 5) : Statement (.afree ga) := all _
theorem tinv (ga gb : BitVec 5) : Statement (.tinv ga gb) := all _
theorem sysr (gd : BitVec 5) (sysreg : BitVec 12) : Statement (.sysr gd sysreg) := all _
theorem sysw (ga : BitVec 5) (sysreg : BitVec 12) : Statement (.sysw ga sysreg) := all _
theorem pmFpushWrite (v : DWord) : Statement (.pmFpushWrite v) := all _
theorem ringSizeWrite (ring : Nat) (v : DWord) : Statement (.ringSizeWrite ring v) := all _
theorem rtSideWrite (v : DWord) : Statement (.rtSideWrite v) := all _
theorem rtAsidWrite (v : DWord) : Statement (.rtAsidWrite v) := all _
theorem trap (code : BitVec 12) : Statement (.trap code) := all _
theorem brk (code : BitVec 12) : Statement (.brk code) := all _
theorem fadd (vd va vb : BitVec 5) (w : BitVec 2) (pm : BitVec 4) : Statement (.fadd vd va vb w pm) := all _
theorem fsub (vd va vb : BitVec 5) (w : BitVec 2) (pm : BitVec 4) : Statement (.fsub vd va vb w pm) := all _
theorem fmul (vd va vb : BitVec 5) (w : BitVec 2) (pm : BitVec 4) : Statement (.fmul vd va vb w pm) := all _
theorem fma (vd va vb vc : BitVec 5) (w : BitVec 2) (pm : BitVec 4) : Statement (.fma vd va vb vc w pm) := all _
theorem fms (vd va vb vc : BitVec 5) (w : BitVec 2) (pm : BitVec 4) : Statement (.fms vd va vb vc w pm) := all _
theorem fmin (vd va vb : BitVec 5) (w : BitVec 2) (pm : BitVec 4) : Statement (.fmin vd va vb w pm) := all _
theorem fmax (vd va vb : BitVec 5) (w : BitVec 2) (pm : BitVec 4) : Statement (.fmax vd va vb w pm) := all _
theorem fabs (vd va : BitVec 5) (w : BitVec 2) (pm : BitVec 4) : Statement (.fabs vd va w pm) := all _
theorem fneg (vd va : BitVec 5) (w : BitVec 2) (pm : BitVec 4) : Statement (.fneg vd va w pm) := all _
theorem fcpys (vd va vb : BitVec 5) (w : BitVec 2) (pm : BitVec 4) : Statement (.fcpys vd va vb w pm) := all _
theorem fxsgn (vd va vb : BitVec 5) (w : BitVec 2) (pm : BitVec 4) : Statement (.fxsgn vd va vb w pm) := all _
theorem fcmp (m : BitVec 2) (va vb : BitVec 5) (cond : BitVec 3) (w : BitVec 2) (pm : BitVec 4) : Statement (.fcmp m va vb cond w pm) := all _
theorem sel (vd va vb : BitVec 5) (mask : BitVec 2) (pm : BitVec 4) : Statement (.sel vd va vb mask pm) := all _
theorem iadd (vd va vb : BitVec 5) (w : BitVec 2) (pm : BitVec 4) : Statement (.iadd vd va vb w pm) := all _
theorem isub (vd va vb : BitVec 5) (w : BitVec 2) (pm : BitVec 4) : Statement (.isub vd va vb w pm) := all _
theorem imul (vd va vb : BitVec 5) (half w : BitVec 2) (pm : BitVec 4) : Statement (.imul vd va vb half w pm) := all _
theorem imad (vd va vb vc : BitVec 5) (w : BitVec 2) (pm : BitVec 4) : Statement (.imad vd va vb vc w pm) := all _
theorem imin (vd va vb : BitVec 5) (uns : BitVec 1) (w : BitVec 2) (pm : BitVec 4) : Statement (.imin vd va vb uns w pm) := all _
theorem imax (vd va vb : BitVec 5) (uns : BitVec 1) (w : BitVec 2) (pm : BitVec 4) : Statement (.imax vd va vb uns w pm) := all _
theorem iand (vd va vb : BitVec 5) (w : BitVec 2) (pm : BitVec 4) : Statement (.iand vd va vb w pm) := all _
theorem ior (vd va vb : BitVec 5) (w : BitVec 2) (pm : BitVec 4) : Statement (.ior vd va vb w pm) := all _
theorem ixor (vd va vb : BitVec 5) (w : BitVec 2) (pm : BitVec 4) : Statement (.ixor vd va vb w pm) := all _
theorem ishl (vd va vb : BitVec 5) (w : BitVec 2) (pm : BitVec 4) : Statement (.ishl vd va vb w pm) := all _
theorem ishr (vd va vb : BitVec 5) (logical : BitVec 1) (w : BitVec 2) (pm : BitVec 4) : Statement (.ishr vd va vb logical w pm) := all _
theorem icmp (m : BitVec 2) (va vb : BitVec 5) (cond : BitVec 3) (w : BitVec 2) (pm : BitVec 4) : Statement (.icmp m va vb cond w pm) := all _
theorem iaddi (vd va : BitVec 5) (imm : BitVec 12) (pm : BitVec 4) : Statement (.iaddi vd va imm pm) := all _
theorem movi (vd : BitVec 5) (imm : BitVec 12) (pm : BitVec 4) : Statement (.movi vd imm pm) := all _
theorem cvt (vd va : BitVec 5) (wid skind dkind : BitVec 2) (ctl : BitVec 9) : Statement (.cvt vd va wid skind dkind ctl) := all _
theorem pack (vd va : BitVec 5) (skind : BitVec 1) (dfmt : BitVec 4) (sel : BitVec 2) (ctl : BitVec 9) : Statement (.pack vd va skind dfmt sel ctl) := all _
theorem unpk (vd va : BitVec 5) (sfmt : BitVec 4) (sel : BitVec 2) : Statement (.unpk vd va sfmt sel) := all _
theorem dqdec (vd va vb vc : BitVec 5) (dfmt : BitVec 2) (part : BitVec 3) : Statement (.dqdec vd va vb vc dfmt part) := all _
theorem dqenc (vd va vb : BitVec 5) (sfmt : BitVec 2) (ctl : BitVec 9) : Statement (.dqenc vd va vb sfmt ctl) := all _
theorem rcpa (vd va : BitVec 5) (pm : BitVec 4) : Statement (.rcpa vd va pm) := all _
theorem rsqa (vd va : BitVec 5) (pm : BitVec 4) : Statement (.rsqa vd va pm) := all _
theorem exp2a (vd va : BitVec 5) (pm : BitVec 4) : Statement (.exp2a vd va pm) := all _
theorem log2a (vd va : BitVec 5) (pm : BitVec 4) : Statement (.log2a vd va pm) := all _
theorem sinpa (vd va : BitVec 5) (pm : BitVec 4) : Statement (.sinpa vd va pm) := all _
theorem cospa (vd va : BitVec 5) (pm : BitVec 4) : Statement (.cospa vd va pm) := all _
theorem rcpstep (vd va vb : BitVec 5) (pm : BitVec 4) : Statement (.rcpstep vd va vb pm) := all _
theorem rsqstep (vd va vb : BitVec 5) (pm : BitVec 4) : Statement (.rsqstep vd va vb pm) := all _
theorem red (vd va : BitVec 5) (int : BitVec 1) (op w : BitVec 2) (pm : BitVec 4) : Statement (.red vd va int op w pm) := all _
theorem perm (vd va vb : BitVec 5) (pm : BitVec 4) : Statement (.perm vd va vb pm) := all _
theorem lshf (vd va dist : BitVec 5) (pm : BitVec 4) : Statement (.lshf vd va dist pm) := all _
theorem bcst (vd va vb : BitVec 5) (pm : BitVec 4) : Statement (.bcst vd va vb pm) := all _
theorem recv (v port n : BitVec 5) (lvl : BitVec 3) (flg pm : BitVec 4) : Statement (.recv v port n lvl flg pm) := all _
theorem send (v port n : BitVec 5) (lvl : BitVec 3) (flg pm : BitVec 4) : Statement (.send v port n lvl flg pm) := all _
theorem peek (v : BitVec 5) (port : BitVec 3) (n : BitVec 5) (lvl : BitVec 3) (flg pm : BitVec 4) : Statement (.peek v port n lvl flg pm) := all _
theorem sendm (v port : BitVec 5) (inp lvl : BitVec 3) (pm : BitVec 4) : Statement (.sendm v port inp lvl pm) := all _
theorem mklv (port : BitVec 5) (lvl : BitVec 3) : Statement (.mklv port lvl) := all _
theorem toks (port : BitVec 2) (flg : BitVec 4) : Statement (.toks port flg) := all _
theorem br (cc : BitVec 4) (src : BitVec 6) (disp : BitVec 10) : Statement (.br cc src disp) := all _
theorem cloop (k : BitVec 1) (cnt : BitVec 9) (len : BitVec 10) (lvl : BitVec 2) : Statement (.cloop k cnt len lvl) := all _
theorem tld (v va : BitVec 5) (q g : BitVec 1) (pm : BitVec 4) : Statement (.tld v va q g pm) := all _
theorem tst (v va : BitVec 5) (q g : BitVec 1) (pm : BitVec 4) : Statement (.tst v va q g pm) := all _
theorem tldv (v va vv : BitVec 5) (q : BitVec 1) (pm : BitVec 4) : Statement (.tldv v va vv q pm) := all _
theorem tstv (v va vv : BitVec 5) (q : BitVec 1) (pm : BitVec 4) : Statement (.tstv v va vv q pm) := all _
theorem trcl (va vv : BitVec 5) (q : BitVec 1) (mk : BitVec 2) (pm : BitVec 4) : Statement (.trcl va vv q mk pm) := all _
theorem wld (vd va : BitVec 5) (q win : BitVec 1) (dy dx : BitVec 3) (pm : BitVec 4) : Statement (.wld vd va q win dy dx pm) := all _
theorem wadv (q win : BitVec 1) : Statement (.wadv q win) := all _
theorem mwld (v : BitVec 5) (t q : BitVec 1) (fmt : BitVec 4) : Statement (.mwld v t q fmt) := all _
theorem mast (v vn : BitVec 5) : Statement (.mast v vn) := all _
theorem mastPreset (v vn : BitVec 5) : Statement (.mastPreset v vn) := all _
theorem macc (v row : BitVec 5) (z : BitVec 1) (seg : BitVec 2) (fmt : BitVec 4) : Statement (.macc v row z seg fmt) := all _
theorem isect (v : BitVec 5) (ux : BitVec 1) (lvl : BitVec 3) (inB : BitVec 1) : Statement (.isect v ux lvl inB) := all _
theorem sacc (v : BitVec 5) (ux : BitVec 1) (lvl : BitVec 3) : Statement (.sacc v ux lvl) := all _
theorem slot (v : BitVec 5) (ux : BitVec 1) (lvl : BitVec 3) : Statement (.slot v ux lvl) := all _
theorem seqt (v : BitVec 5) (ux : BitVec 1) (lvl : BitVec 3) : Statement (.seqt v ux lvl) := all _
theorem scnp (v : BitVec 5) (lvl : BitVec 3) (mask : BitVec 2) : Statement (.scnp v lvl mask) := all _
theorem nul (inp : BitVec 3) : Statement (.nul inp) := all _
theorem route (inp : BitVec 3) (out : BitVec 8) : Statement (.route inp out) := all _
theorem split (inp : BitVec 3) (out : BitVec 8) : Statement (.split inp out) := all _
theorem merge (inp inp2 out : BitVec 3) : Statement (.merge inp inp2 out) := all _
theorem deal (inp : BitVec 3) (out : BitVec 8) : Statement (.deal inp out) := all _
theorem turn (inp : BitVec 3) (code : BitVec 4) (ux : BitVec 1) (out : BitVec 3) : Statement (.turn inp code ux out) := all _
theorem barr (out : BitVec 3) (inps : BitVec 8) : Statement (.barr out inps) := all _
theorem hold (port : BitVec 3) (depth : BitVec 8) : Statement (.hold port depth) := all _
theorem deviceReset (gib0 gib1 gib2 gib3 : BitVec 15) : Statement (.deviceReset gib0 gib1 gib2 gib3) := all _
theorem bootWindowAccess (write : Bool) (off : BitVec 18) (data : Byte) : Statement (.bootWindowAccess write off data) := all _
theorem bootRegisterWrite (v : DWord) : Statement (.bootRegisterWrite v) := all _
theorem commandTailWrite (v : BitVec 32) : Statement (.commandTailWrite v) := all _
theorem garnetDoorbell (v : DWord) : Statement (.garnetDoorbell v) := all _
theorem illegalInstruction (w : Word) : Statement (.illegalInstruction w) := all _
theorem tdispLock (lock : Bool) : Statement (.tdispLock lock) := all _
theorem peerAccessArrival (write : Bool) (addr : BitVec 48) (data : List Byte) : Statement (.peerAccessArrival write addr data) := all _
theorem completionHeadAdvance (v : BitVec 32) : Statement (.completionHeadAdvance v) := all _
theorem loadReply : Statement (.loadReply) := all _
theorem storeAck : Statement (.storeAck) := all _
theorem streamReadIssue : Statement (.streamReadIssue) := all _
theorem streamReadReply : Statement (.streamReadReply) := all _
theorem streamWriteToken : Statement (.streamWriteToken) := all _
theorem streamQueueAccess : Statement (.streamQueueAccess) := all _
theorem cloadSlotWritten : Statement (.cloadSlotWritten) := all _
theorem spliceArrival : Statement (.spliceArrival) := all _
theorem freezeComplete : Statement (.freezeComplete) := all _
theorem csaveComplete : Statement (.csaveComplete) := all _
theorem crestComplete : Statement (.crestComplete) := all _
theorem tend : Statement (.tend) := all _
theorem joinCounterRead : Statement (.joinCounterRead) := all _
theorem taskStart : Statement (.taskStart) := all _
theorem leadCoreEntry : Statement (.leadCoreEntry) := all _
theorem helperCoreStart : Statement (.helperCoreStart) := all _
theorem engineTaskComplete : Statement (.engineTaskComplete) := all _
theorem hostMessageTask : Statement (.hostMessageTask) := all _
theorem copyPieceIssue : Statement (.copyPieceIssue) := all _
theorem copyComplete : Statement (.copyComplete) := all _
theorem promiseMissed : Statement (.promiseMissed) := all _
theorem copyPieceFault : Statement (.copyPieceFault) := all _
theorem scanMemoryTransfer : Statement (.scanMemoryTransfer) := all _
theorem scanBlockCombine : Statement (.scanBlockCombine) := all _
theorem carryArrival : Statement (.carryArrival) := all _
theorem carryApply : Statement (.carryApply) := all _
theorem migrationStart : Statement (.migrationStart) := all _
theorem chunkCopy : Statement (.chunkCopy) := all _
theorem migrationSwitch : Statement (.migrationSwitch) := all _
theorem invalidationComplete : Statement (.invalidationComplete) := all _
theorem migrationAbort : Statement (.migrationAbort) := all _
theorem accessAtHome : Statement (.accessAtHome) := all _
theorem translationWalk : Statement (.translationWalk) := all _
theorem packetDelivery : Statement (.packetDelivery) := all _
theorem packetBlocked : Statement (.packetBlocked) := all _
theorem recoveryTokenVisit : Statement (.recoveryTokenVisit) := all _
theorem flitCrcFail : Statement (.flitCrcFail) := all _
theorem laneFailing : Statement (.laneFailing) := all _
theorem linkLost : Statement (.linkLost) := all _
theorem linkUp : Statement (.linkUp) := all _
theorem quantumEnd : Statement (.quantumEnd) := all _
theorem preemption : Statement (.preemption) := all _
theorem tret : Statement (.tret) := all _
theorem nop : Statement (.nop) := all _
theorem halt : Statement (.halt) := all _
theorem idle : Statement (.idle) := all _
theorem eventDelivery : Statement (.eventDelivery) := all _
theorem fend : Statement (.fend) := all _
theorem nopOp : Statement (.nopOp) := all _
theorem firingStart : Statement (.firingStart) := all _
theorem firingOverrun : Statement (.firingOverrun) := all _
theorem barrierPass : Statement (.barrierPass) := all _
theorem versionedWaitResume : Statement (.versionedWaitResume) := all _
theorem windowRowArrival : Statement (.windowRowArrival) := all _
theorem planeLoadComplete : Statement (.planeLoadComplete) := all _
theorem mwsw : Statement (.mwsw) := all _
theorem maccComplete : Statement (.maccComplete) := all _
theorem cornerTurnBlock : Statement (.cornerTurnBlock) := all _
theorem intersectMatch : Statement (.intersectMatch) := all _
theorem sparseAccAdd : Statement (.sparseAccAdd) := all _
theorem reorderArrival : Statement (.reorderArrival) := all _
theorem reorderEmit : Statement (.reorderEmit) := all _
theorem roundEnd : Statement (.roundEnd) := all _
theorem roundVoid : Statement (.roundVoid) := all _
theorem voidTrapDelivery : Statement (.voidTrapDelivery) := all _
theorem watchdogExpiry : Statement (.watchdogExpiry) := all _
theorem powerWindow : Statement (.powerWindow) := all _
theorem thermalLimit : Statement (.thermalLimit) := all _
theorem sleepWake : Statement (.sleepWake) := all _
theorem temperatureFall : Statement (.temperatureFall) := all _
theorem cxlLinkLost : Statement (.cxlLinkLost) := all _
theorem flitAcknowledged : Statement (.flitAcknowledged) := all _

end Sys2Proof.Laws.Width
end

