-- ==== Sys2Proof/Laws/Word.lean ====
section
/-!
SUPPORT. Everything the frame of a control word can do: it stalls on a register still to be loaded, takes cause 13 on a
poisoned source, stalls behind an acquire, or runs its body.
-/

namespace Sys2Proof.Machine

theorem word_waits {s : State} {reads writes : List (BitVec 5)} {body : Nat → WordEnd}
    (h : (s.core s.foc.unit).waitsOn (reads ++ writes) = true) :
    s.word reads writes body = s.stalls s 1 := by
  simp only [State.word, h, if_true]; rfl

theorem word_poisoned {s : State} {reads writes : List (BitVec 5)} {body : Nat → WordEnd} {p : DWord}
    (h : (s.core s.foc.unit).waitsOn (reads ++ writes) = false)
    (hp : (s.core s.foc.unit).firstPoison reads = some p) :
    s.word reads writes body = s.trapped s 13 p := by
  simp only [State.word, h, hp]; rfl

theorem word_runs {s : State} {reads writes : List (BitVec 5)} (h : s.wordReady reads writes) (body : Nat → WordEnd) :
    s.word reads writes body = s.endWord s.foc.unit (body s.foc.unit) := by
  simp only [State.word, h.1, h.2]; rfl

theorem memWord_runs {s : State} {reads writes : List (BitVec 5)} (h : s.memReady reads writes) (body : Nat → WordEnd) :
    s.memWord reads writes body = s.endWord s.foc.unit (body s.foc.unit) := by
  simp only [State.memWord, word_runs h.1, h.2]; rfl

theorem memWord_acquires {s : State} {reads writes : List (BitVec 5)} (h : s.wordReady reads writes)
    (ha : (s.core s.foc.unit).acquires ≠ []) (body : Nat → WordEnd) :
    s.memWord reads writes body = s.stalls s 1 := by
  have hb : (s.core s.foc.unit).acquires.isEmpty = false := by
    cases hc : (s.core s.foc.unit).acquires with
    | nil => exact absurd hc ha
    | cons => rfl
  simp only [State.memWord, word_runs h, hb]; rfl

/-- Every way in which a word's frame answers. -/
theorem word_cases (s : State) (reads writes : List (BitVec 5)) (body : Nat → WordEnd) :
    s.word reads writes body = s.stalls s 1 ∨
    (∃ p, s.word reads writes body = s.trapped s 13 p) ∨
    s.word reads writes body = s.endWord s.foc.unit (body s.foc.unit) := by
  cases hw : (s.core s.foc.unit).waitsOn (reads ++ writes) with
  | true => exact .inl (word_waits hw)
  | false =>
    cases hp : (s.core s.foc.unit).firstPoison reads with
    | some p => exact .inr (.inl ⟨p, word_poisoned hw hp⟩)
    | none => exact .inr (.inr (word_runs ⟨hw, hp⟩ body))

/-! ### Trap entry -/

/-- A fault lands on the highest level at or below its target whose IH is 0. -/
theorem redirect_some {c : Core} {n l : Nat} (hl : l ≤ n) (h : c.ih l = false) (hk : ∀ k ≤ n, l < k → c.ih k = true) :
    c.redirect n = some l := by
  induction n with
  | zero =>
    have e : l = 0 := by omega
    subst e
    simp [Core.redirect, h]
  | succ n ih =>
    by_cases e : l = n + 1
    · subst e
      simp [Core.redirect, h]
    · simp only [Core.redirect, hk (n + 1) (by omega) (by omega), if_true]
      exact ih (by omega) fun k a b => hk k (by omega) b

/-- Where every level up to the target has IH set, a fault lands nowhere. -/
theorem redirect_none {c : Core} {n : Nat} (hk : ∀ k ≤ n, c.ih k = true) : c.redirect n = none := by
  induction n with
  | zero => simp [Core.redirect, hk 0]
  | succ n ih =>
    simp only [Core.redirect, hk (n + 1) (by omega), if_true]
    exact ih fun k a => hk k (by omega)

@[simp] theorem Core.ih_account (c : Core) (k n l : Nat) : (c.account k n).ih l = c.ih l := rfl

@[simp] theorem Core.redirect_account (c : Core) (k n l : Nat) : (c.account k n).redirect l = c.redirect l := by
  induction l with
  | zero => rfl
  | succ l ih => simp [Core.redirect, ih]

/-- The core of a tile after a fault of one of its words: it enters the trap, or stops. -/
theorem core_trapAt (s : State) (r tgt cause epc : Nat) (val : DWord) :
    (s.trapAt r tgt cause epc val).core r = match (s.core r).redirect tgt with
      | some l => { (s.core r).enterTrap l cause epc val with nextAt := s.now + 1 }
      | none => (s.core r).halt s.now := by
  rw [State.trapAt, State.core_modCore]
  all_goals cases (s.core r).redirect tgt <;> rfl

/-! ### What only touches one core -/

theorem State.tile_modTile_owner (s : State) (r x : Nat) (f : Core → Core) :
    ((s.modCore r f).tile x).owner = (s.tile x).owner := by
  by_cases h : x = r
  · subst h
    simp [State.tile, State.modCore, State.modTile]
  · simp only [State.tile, State.modCore, State.modTile]
    rw [mapGet_mapMod_ne _ _ _ h]

theorem State.sameButCore_modCore (s : State) (r : Nat) (f : Core → Core) : s.sameButCore r (s.modCore r f) := by
  refine ⟨rfl, ?_, ?_⟩
  · intro x hx
    simp only [State.tile, State.modCore, State.modTile]
    exact mapGet_mapMod_ne _ _ _ hx
  · simp [State.tile, State.modCore, State.modTile, State.core]

theorem State.sameButCore_refl (s : State) (r : Nat) : s.sameButCore r s := ⟨rfl, fun _ _ => rfl, rfl⟩

theorem State.sameButCore_trans {s t u : State} {r : Nat} (h : s.sameButCore r t) (h' : t.sameButCore r u) :
    s.sameButCore r u := by
  obtain ⟨h1, h2, h3⟩ := h
  obtain ⟨k1, k2, k3⟩ := h'
  refine ⟨k1.trans h1, fun x hx => (k2 x hx).trans (h2 x hx), ?_⟩
  have e : t.core r = (t.tile r).core := rfl
  rw [e] at k3
  rw [← h3, ← k3]

@[simp] theorem State.passes_modCore_account (s : State) (r l k n cause : Nat) :
    (s.modCore r fun c => c.account k n).passes r l cause = s.passes r l cause := by
  match l with
  | 0 => simp only [State.passes, State.tile_modTile_owner]; rfl
  | 1 => simp only [State.passes, State.tile_modTile_owner]; rfl
  | n + 2 => simp [State.passes]

end Sys2Proof.Machine
end

