-- ==== Sys2Proof/Tests/Slice0.lean ====
section
/-!
SUPPORT. Tests on words written out from the encodings of the manual, on ill-formed terms, and on single steps from small states; and for
each statement a state and operands that meet its hypotheses. Expected results are worked out from the rules that the comments name.
-/

namespace Sys2Proof.Tests

open Sys2Proof.Machine

set_option Elab.async false

/-! ### Decoding -/

/-- Whether each word decodes as a control word to the instruction beside it. -/
def readsControl (l : List (Word × Instr)) : Bool := l.all fun e => match decodeControl e.1 with
  | .ok i => decide (i = e.2)
  | .error _ => false
/-- Whether each word decodes as an operation word to the instruction beside it. -/
def readsOperation (l : List (Word × Instr)) : Bool := l.all fun e => match decodeOperation e.1 with
  | .ok i => decide (i = e.2)
  | .error _ => false
/-- Whether each halfword decodes as a switch word to the instruction beside it. -/
def readsSwitch (l : List (Half × Instr)) : Bool := l.all fun e => match decodeSwitch e.1 with
  | .ok i => decide (i = e.2)
  | .error _ => false
theorem test_decode_add_to_mulh : readsControl [
    (0x0689C000, .add 20 9 24), (0x06812001, .sub 20 1 4), (0x05511802, .and 10 17 3), (0x0621B803, .or 17 1 23),
    (0x052E5004, .xor 9 14 10), (0x06C8F005, .sll 22 8 30), (0x07907806, .srl 28 16 15), (0x07F1A007, .sra 31 17 20),
    (0x04EC7008, .slt 7 12 14), (0x07E63809, .sltu 31 6 7), (0x06B9600A, .mul 21 25 12), (0x052D300B, .mulh 9 13 6)] = true := by decide
theorem test_decode_mulhu_to_popc : readsControl [
    (0x058AD80C, .mulhu 12 10 27), (0x076FD00D, .div 27 15 26), (0x0701B00E, .divu 24 1 22), (0x0758300F, .rem 26 24 6),
    (0x07AF3010, .remu 29 15 6), (0x05327811, .min 9 18 15), (0x0679A812, .max 19 25 21), (0x05C16013, .minu 14 1 12),
    (0x06E2D814, .maxu 23 2 27), (0x0BA90000, .clz 29 9), (0x0A0B0001, .ctz 16 11), (0x08350002, .popc 1 21)] = true := by decide
theorem test_decode_bext_to_srli : readsControl [
    (0x0872E803, .bext 3 18 29), (0x0854C804, .bins 2 20 25), (0x0B410005, .ptag 26 1), (0x0A0E1006, .pspace 16 14 2),
    (0x08880807, .prank 4 8 1), (0x09D0B008, .padd 14 16 22), (0x0FCFE835, .addi 30 15 59445),
    (0x1258B0F7, .andi 18 24 45303), (0x164BCB60, .ori 18 11 52064), (0x1BE65206, .xori 31 6 20998),
    (0x1E43000E, .slli 18 3 14), (0x1DB10048, .srli 13 17 8)] = true := by decide
theorem test_decode_srai_to_jmpl : readsControl [
    (0x1E9C00B9, .srai 20 28 57), (0x2223F139, .slti 17 3 61753), (0x24867CFC, .sltui 4 6 31996),
    (0x2A80071A, .lui 20 1818), (0x2EE0EF28, .addpc 23 61224), (0x302AE340, .brEq 1 10 58176),
    (0x361B1E8F, .brNe 16 27 7823), (0x39CA50F0, .brLt 14 10 20720), (0x3F2AB003, .brGe 25 10 45059),
    (0x41C8E719, .brLo 14 8 59161), (0x45BD292C, .brHs 13 29 10540), (0x4B3252AE, .jmpl 25 1200814)] = true := by decide
theorem test_decode_jr_to_vqry : readsControl [
    (0x4C150000, .jr 21), (0x4ED90001, .jrl 22 25), (0x5384669B, .loop 3 1 17 9883), (0x54001000, .lexit 2),
    (0x56A00801, .lread 21 1), (0x5928D989, .ld 9 8 3 1 2441), (0x5D509A6A, .ldu 10 16 2 1 2666),
    (0x60949495, .st 4 20 2 1 1173), (0x65B2D800, .ldv 13 18 27), (0x675CC001, .stv 26 28 24), (0x6407B802, .recl 7 23),
    (0x67A40003, .vqry 29 4)] = true := by decide
theorem test_decode_amoAdd_to_amoFadd2 : readsControl [
    (0x6A6CCE80, .amoAdd 19 12 25 1 1 1), (0x699F1E81, .amoAnd 12 31 3 1 1 1), (0x6B1D7E82, .amoOr 24 29 15 1 1 1),
    (0x6B75FE83, .amoXor 27 21 31 1 1 1), (0x68629684, .amoMin 3 2 18 1 1 1), (0x69B4AE85, .amoMax 13 20 21 1 1 1),
    (0x6B6DBE86, .amoMinu 27 13 23 1 1 1), (0x6BCA7E87, .amoMaxu 30 10 15 1 1 1), (0x690F2E88, .amoSwp 8 15 5 1 1 1),
    (0x692A7E89, .amoCas 9 10 15 1 1 1), (0x68FC160A, .amoFadd 7 28 2 1 1), (0x696A9E0B, .amoFadd2 11 10 19 1 1)] = true := by decide
theorem test_decode_fence_to_cload : readsControl [
    (0x6C040000, .fence 4), (0x6C1B0001, .qfence 27), (0x72DFC400, .wait 11 7 15 1), (0x75200000, .time 9),
    (0x741F0001, .sleep 31), (0x775D0002, .pchk 26 29), (0x7AD5D000, .sin 22 21 26), (0x78E4C001, .sout 7 4 24),
    (0x7A476802, .sidx 18 7 13), (0x78190003, .skill 25), (0x79090004, .spos 8 9), (0x7EE98800, .cload 23 9 17)] = true := by decide
theorem test_decode_cnext_to_boxfer : readsControl [
    (0x7C1E6801, .cnext 30 13), (0x7DB83002, .csplice 13 24 6), (0x7C0C0003, .cfrz 12), (0x7C030004, .cthaw 3),
    (0x7C1ED005, .csave 30 26), (0x7C123006, .crest 18 6), (0x80120000, .btok 18), (0x82FC0001, .bdrain 23 28),
    (0x8005E802, .boinit 5 29), (0x80040003, .boarr 4), (0x80020004, .bowait 2), (0x8009D005, .boxfer 9 26)] = true := by decide
theorem test_decode_tsub_to_cpq : readsControl [
    (0x85A78800, .tsub 13 7 17), (0x863C0001, .tqopen 17 28), (0x840F0002, .tqclose 15), (0x84540003, .tjoin 2 20),
    (0x84100004, .tsig 16), (0x84000004, .tend), (0x85200005, .tself 9), (0x8B848800, .cpy 28 4 17),
    (0x89ECB001, .cpy2d 15 12 22), (0x8BB6E002, .cpyg 29 22 28), (0x8AE30003, .cpyz 23 3), (0x88B30004, .cpq 5 19)] = true := by decide
theorem test_decode_scop_to_psend : readsControl [
    (0x8C0E0000, .scop 14), (0x8C8F0801, .scgo 4 15 1), (0x8C0C0002, .sccin 12), (0x8F200003, .sccout 25),
    (0x8C170004, .scbar 23), (0x90140800, .pghint 20 1), (0x928E0801, .pgmove 20 14 1), (0x92890002, .pgqry 20 9),
    (0x90168803, .pgdisc 22 17), (0x92600004, .pgnote 19), (0x901A7005, .pgthr 26 14), (0x97F99800, .psend 31 25 19)] = true := by decide
theorem test_decode_pmask_to_tinv : readsControl [
    (0x940D0001, .pmask 13), (0x940C0002, .punmask 12), (0x9417A003, .pbind 23 20), (0x98465000, .pcreate 2 6 10),
    (0x981C2801, .pquota 28 5), (0x98024002, .pgrant 2 8), (0x981C9003, .prevoke 28 18), (0x981D4004, .pslice 29 8),
    (0x98070005, .pdestroy 7), (0x99100006, .aalloc 8 16), (0x98100007, .afree 16), (0x9818E008, .tinv 24 28)] = true := by decide
theorem test_decode_sysr_to_idle : readsControl [
    (0x9D208A00, .sysr 9 2208), (0x9C06E181, .sysw 6 3608), (0x9C004482, .trap 1096), (0x9C000003, .tret),
    (0x9C00D374, .brk 3383), (0x9C000005, .nop), (0x9C000006, .halt), (0x9C000007, .idle)] = true := by decide
theorem test_decode_fadd_to_fcmp : readsOperation [
    (0x05BC182B, .fadd 13 28 3 2 11), (0x08BEF829, .fsub 5 30 31 2 9), (0x0E1C681B, .fmul 16 28 13 1 11),
    (0x13B5931A, .fma 29 21 18 12 1 10), (0x153F52E3, .fms 9 31 10 11 2 3), (0x1BC15029, .fmin 30 1 10 2 9),
    (0x1CE98821, .fmax 7 9 17 2 1), (0x22590019, .fabs 18 25 1 9), (0x237E0063, .fneg 27 30 2 3),
    (0x2323B89A, .fcpys 25 3 23 1 10), (0x217948DA, .fxsgn 11 25 9 1 10), (0x24755121, .fcmp 3 21 10 4 2 1)] = true := by decide
theorem test_decode_sel_to_ishr : readsOperation [
    (0x2BBBE0CB, .sel 29 27 28 3 11), (0x2E713813, .iadd 19 17 7 1 3), (0x31829013, .isub 12 2 18 1 3),
    (0x36B1D86B, .imul 21 17 27 1 2 11), (0x39E156E9, .imad 15 1 10 27 2 9), (0x3D2D906B, .imin 9 13 18 1 2 11),
    (0x4396606B, .imax 28 22 12 1 2 11), (0x4498F823, .iand 4 24 31 2 3), (0x48AAB81B, .ior 5 10 23 1 11),
    (0x4F328823, .ixor 25 18 17 2 3), (0x52F1401B, .ishl 23 17 8 1 11), (0x57D6486A, .ishr 30 22 9 1 2 10)] = true := by decide
theorem test_decode_icmp_to_log2a : readsOperation [
    (0x586DE1E1, .icmp 3 13 28 7 2 1), (0x5D95E1D1, .iaddi 12 21 3613 1), (0x6240EDDB, .movi 18 3805 11),
    (0x65EB9C04, .cvt 15 11 2 1 3 4), (0x6A14B701, .pack 16 20 1 6 3 257), (0x6EA78400, .unpk 21 7 8 1),
    (0x73959314, .dqdec 28 21 18 12 1 2), (0x771CDB01, .dqenc 24 28 27 1 257), (0x78710009, .rcpa 3 17 9),
    (0x7A670043, .rsqa 19 7 3), (0x789A0082, .exp2a 4 26 2), (0x796800C1, .log2a 11 8 1)] = true := by decide
theorem test_decode_sinpa_to_sendm : readsOperation [
    (0x79390103, .sinpa 9 25 3), (0x78930149, .cospa 4 19 9), (0x7F853009, .rcpstep 28 5 6 9),
    (0x7FC42843, .rsqstep 30 4 5 3), (0x80D901A3, .red 6 25 1 2 2 3), (0x851A780A, .perm 8 26 15 10),
    (0x8B3005CB, .lshf 25 16 23 11), (0x8EBF9002, .bcst 21 31 18 2), (0x90C542DA, .recv 6 5 8 2 13 10),
    (0x962E4001, .send 17 14 8 0 0 1), (0x9BA64CFB, .peek 29 6 9 4 15 11), (0x9D682F0A, .sendm 11 8 5 7 10)] = true := by decide
-- on a queue region the count goes up to what the registers hold (R165)
theorem test_decode_queue_counts : readsOperation [(0x9034F800, .recv 1 20 31 0 0 0)] = false ∧
    readsOperation [(0x9034F000, .recv 1 20 30 0 0 0), (0x9435F000, .send 1 21 30 0 0 0)] = true := by decide
theorem test_decode_mklv_to_wld : readsOperation [
    (0xA0080500, .mklv 8 5), (0xA4120090, .toks 2 9), (0xA845FF40, .br 1 5 1021), (0xAE193B10, .cloop 1 25 236 1),
    (0xB0000000, .fend), (0xF4000000, .nopOp), (0xB4D6060A, .tld 6 22 1 1 10), (0xBA550602, .tst 18 21 1 1 2),
    (0xBFD3E403, .tldv 30 19 28 1 3), (0xC1A72409, .tstv 13 7 4 1 9), (0xC409F43A, .trcl 9 30 1 3 10),
    (0xCB76EE02, .wld 27 22 1 1 5 6 2)] = true := by decide
theorem test_decode_wadv_to_scnp : readsOperation [
    (0xCC00C000, .wadv 1 1), (0xD3760330, .mwld 27 1 1 3), (0xD4160000, .mwsw), (0xDB36A800, .mast 25 21),
    (0xD9D63900, .mastPreset 14 7), (0xDD367670, .macc 9 14 1 2 7), (0xE2790010, .isect 19 1 0 1),
    (0xE4190500, .sacc 0 1 5), (0xE9390000, .slot 9 1 0), (0xEC190600, .seqt 0 1 6), (0xF1770530, .scnp 11 5 3)] = true := by decide
theorem test_decode_nul_to_hold : readsSwitch [
    (0x0100, .nul 1), (0x1740, .route 7 64), (0x2130, .split 1 48), (0x3274, .merge 2 7 4), (0x4751, .deal 7 81),
    (0x562D, .turn 6 2 1 5), (0x6766, .barr 7 102), (0x74C0, .hold 4 192)] = true := by decide

/-- Whether every instruction is one its table does not admit, and its word is refused by the decoder of its store. -/
def refused (l : List Instr) : Bool := l.all fun i => !wellFormed i && match wordKind i with
  | .control => !(decodeControl (BitVec.ofNat 32 (encode i))).toBool
  | .operation => !(decodeOperation (BitVec.ofNat 32 (encode i))).toBool
  | .switch => !(decodeSwitch (BitVec.ofNat 16 (encode i))).toBool
  | .event => false

theorem test_illFormed_control : refused [.loop 0 1 0x20 3, .lexit 4, .lread 1 12, .ld 1 2 3 2 0, .ldu 1 2 3 0 0, .ldu 1 2 2 3 0,
    .st 1 2 3 2 0, .fence 1, .fence 8] = true := by decide
theorem test_illFormed_tsig : wellFormed (.tsig 0) = false := by decide
theorem test_illFormed_lanes : refused [.fadd 1 2 3 3 0, .fadd 1 2 3 0 4, .fsub 1 2 3 3 0, .fmul 1 2 3 0 8, .fma 1 2 3 4 3 0,
    .fms 1 2 3 4 0 12, .fcmp 0 1 2 0 0 0, .fcmp 1 1 2 0 3 0, .sel 1 2 3 0 15, .imul 1 2 3 3 0 0, .imad 1 2 3 4 3 0, .icmp 0 1 2 0 0 0,
    .iaddi 1 2 3 7, .movi 1 2 4, .red 1 2 0 3 0 0, .red 1 2 0 0 3 0, .perm 1 2 3 5, .lshf 1 2 3 6, .bcst 1 2 3 13] = true := by decide
theorem test_illFormed_conversions : refused [.cvt 1 2 3 0 1 0, .cvt 1 2 0 2 0 0, .cvt 1 2 0 1 1 0, .cvt 1 2 0 0 1 0x00A, .cvt 1 2 0 0 1 0x0A0,
    .cvt 1 2 0 0 1 0x010, .pack 1 2 0 1 2 0, .pack 1 2 0 0 0 0, .unpk 1 2 5 0, .unpk 1 2 8 2, .dqdec 1 2 3 4 3 0, .dqdec 1 2 3 4 1 4,
    .dqenc 31 2 3 0 0, .dqenc 1 25 3 0 0, .dqenc 1 2 3 3 0] = true := by decide
theorem test_illFormed_channels : refused [.recv 1 26 0 0 0 0, .recv 1 0 16 0 0 0, .recv 30 0 2 0 0 0, .recv 1 0 0 0 8 0, .recv 1 0 0 1 8 0,
    .recv 1 20 0 0 1 0, .recv 1 23 2 0 0 0, .send 1 0 0 0 0 0, .send 1 8 0 1 0 0, .send 1 23 3 0 0 0, .send 1 8 0 0 0 5,
    .peek 0 1 0 1 0 0, .peek 1 0 16 0 0 0, .sendm 1 7 0 0 0, .mklv 16 1, .mklv 8 0, .toks 0 2, .toks 0 12] = true := by decide
theorem test_illFormed_flow : refused [.br 0 1 0, .br 1 8 0, .br 3 3 0, .br 5 0 0, .cloop 1 0x20 1 0, .cloop 0 1 0 0, .cloop 0 1 512 0,
    .cloop 0 1 1 2] = true := by decide
theorem test_illFormed_units : refused [.tld 1 2 0 0 4, .tst 1 2 0 0 4, .tldv 1 2 3 0 4, .tstv 1 2 3 0 4, .trcl 2 3 0 0 4,
    .wld 1 2 0 0 7 0 0, .wld 1 2 0 0 0 7 0, .mwld 1 0 0 0, .mwld 1 0 0 7, .mwld 1 1 0 5, .macc 1 2 0 0 0, .macc 1 2 0 0 5, .isect 1 0 1 0,
    .sacc 1 0 1, .slot 31 0 0, .slot 1 0 1, .seqt 1 0 1] = true := by decide
theorem test_illFormed_switch : refused [.route 4 0x05, .route 2 0x04, .split 3 0x02, .split 1 0x06, .merge 1 1 4, .merge 1 2 1, .merge 1 2 2,
    .deal 1 0x04, .deal 1 0x06, .turn 0 5 0 6, .turn 6 0 0 6, .barr 0 0x02, .barr 1 0x06, .hold 1 0] = true := by decide
-- the words that the specification calls illegal (R66, R85)
theorem test_illegal_control : ([0x00000000, 0xA0000000, 0x04000015, 0x84260004, 0x1C0000C0, 0x5822E000, 0x73C3FC01] : List Word).all
    (fun w => !(decodeControl w).toBool) = true := by decide
theorem test_illegal_operation : ([0x04400830, 0x04400804, 0xF8000000, 0x901A0000] : List Word).all
    (fun w => !(decodeOperation w).toBool) = true := by decide
theorem test_illegal_switch : ([0x8000, 0x1405] : List Half).all (fun w => !(decodeSwitch w).toBool) = true := by decide

/-! ### Words of the control core -/

/-- The device after reset, but for the core of tile 0: it runs at task level with some registers set. -/
def running (l : List (BitVec 5 × DWord)) : State :=
  State.reset.modCore 0 fun c => l.foldl (fun c e => c.setReg e.1 e.2) { c with mode := .running, level := 3 }
/-- What a test reads in the state that an instruction answers. -/
def after {α : Type} (i : Instr) (s : State) (f : State → α) : Option α :=
  match exec i s with
  | .next t => some (f t)
  | _ => none
/-- A register of the core of tile 0 after an instruction. -/
def regAfter (i : Instr) (s : State) (g : BitVec 5) : Option DWord := after i s fun t => (t.core 0).reg g
/-- The cause and level of the trap that the core of tile 0 is in after an instruction. -/
def trapAfter (i : Instr) (s : State) : Option (DWord × Nat) :=
  after i s fun t => (((t.core 0).trap (t.core 0).level).cause, (t.core 0).level)

theorem witness_wordReady : (running [(1, 7), (2, 5)]).wordReady [1, 2] [3] := by unfold State.wordReady; decide
theorem witness_AluResults : ∃ (s : State) (gd ga gb : BitVec 5), s.wordReady [ga, gb] [gd] := ⟨_, 3, 1, 2, witness_wordReady⟩
theorem witness_BitsResults : ∃ (s : State) (gd ga gb : BitVec 5), s.wordReady [ga, gb] [gd] ∧ s.wordReady [gd, ga, gb] [gd] :=
  ⟨running [(1, 7), (2, 5)], 3, 1, 2, witness_wordReady, by unfold State.wordReady; decide⟩
theorem witness_BitsResults_clz : (∀ i < 61, (7 : DWord).getLsbD (63 - i) = false) ∧ (7 : DWord).getLsbD (63 - 61) = true := by decide
theorem witness_BitsResults_clzZero : ∀ i < 64, (0 : DWord).getLsbD (63 - i) = false := by decide
theorem witness_BitsResults_ctz : (∀ i < 3, (8 : DWord).getLsbD i = false) ∧ (8 : DWord).getLsbD 3 = true := by decide
theorem witness_BitsResults_bext : ∀ j < 64, (5 : DWord).getLsbD j = (decide (j < 3) && (0x55 : DWord).getLsbD (4 + j)) := by decide +kernel
theorem witness_BitsResults_bins :
    ∀ j < 64, (0xF7 : DWord).getLsbD j = if 4 ≤ j ∧ j < 4 + 4 then (0x0F : DWord).getLsbD (j - 4) else (0x07 : DWord).getLsbD j := by
  decide +kernel
theorem witness_BitsResults_prank :
    ∀ j < 64, (0x8000000000000 : DWord).getLsbD j = if 50 ≤ j ∧ j < 59 then (2 : DWord).getLsbD (j - 50) else (0 : DWord).getLsbD j := by
  decide +kernel
theorem witness_ImmediateResults : (running [(1, 7)]).wordReady [1] [3] := by unfold State.wordReady; decide
theorem witness_BranchTargets_jr : (running [(1, 0x3FFFC)]).wordReady [1, 2] [3] ∧
    ((running [(1, 0x3FFFC)]).val 1).toNat < 262144 ∧ ((running [(1, 0x3FFFC)]).val 1).toNat % 4 = 0 := by
  unfold State.wordReady; decide
theorem witness_BranchTargets_trap : ¬ (((running [(1, 0x40000)]).val 1).toNat < 262144 ∧ ((running [(1, 0x40000)]).val 1).toNat % 4 = 0) := by
  decide

theorem test_add_wraps : regAfter (.add 3 1 2) (running [(1, BitVec.allOnes 64), (2, 2)]) 3 = some 1 := by decide
theorem test_sub_wraps : regAfter (.sub 3 1 2) (running [(1, 0), (2, 1)]) 3 = some (BitVec.allOnes 64) := by decide
theorem test_g0_discards : regAfter (.addi 0 1 5) (running [(1, 7)]) 0 = some 0 := by decide
-- the division cases at the limits (R265)
theorem test_div_limits : regAfter (.div 3 1 2) (running [(1, 0x8000000000000000), (2, BitVec.allOnes 64)]) 3 = some (0x8000000000000000) ∧
    regAfter (.rem 3 1 2) (running [(1, 0x8000000000000000), (2, BitVec.allOnes 64)]) 3 = some 0 ∧
    regAfter (.divu 3 1 2) (running [(1, 9)]) 3 = some (BitVec.allOnes 64) ∧ regAfter (.remu 3 1 2) (running [(1, 9)]) 3 = some 9 := by decide
theorem test_mulh : regAfter (.mulh 3 1 2) (running [(1, BitVec.allOnes 64), (2, 5)]) 3 = some (BitVec.allOnes 64) ∧
    regAfter (.mulhu 3 1 2) (running [(1, BitVec.allOnes 64), (2, 5)]) 3 = some 4 := by decide +kernel
theorem test_sra : regAfter (.sra 3 1 2) (running [(1, 0x8000000000000000), (2, 64 + 63)]) 3 = some (BitVec.allOnes 64) := by decide
-- li g4, -2 (R67 and the worked pair of chapter 4)
theorem test_li : regAfter (.lui 4 0xFFFF) (running []) 4 = some 0xFFFFFFFFFFFF0000 ∧
    regAfter (.ori 4 4 0xFFFE) (running [(4, 0xFFFFFFFFFFFF0000)]) 4 = some 0xFFFFFFFFFFFFFFFE := by decide
theorem test_bext_top : regAfter (.bext 3 1 2) (running [(1, 0x8000000000000000), (2, 60 + 64 * 63)]) 3 = some 8 := by decide
theorem test_padd_wraps : regAfter (.padd 3 1 2) (running [(1, 0x1000FFFFFFFFFFFF), (2, 1)]) 3 = some 0x1000000000000000 := by decide
-- line 2 of the listing of R10 goes back one word
theorem test_brNe_back : after (.brNe 5 6 0xFFFF) (running [(5, 1)]) (fun t => (t.core 0).pc) = some 0x3FFFC := by decide
theorem test_jrl_reads_old_link : after (.jrl 31 31) (running [(31, 0x100)]) (fun t => ((t.core 0).pc, (t.core 0).reg 31)) = some (0x100, 4) := by
  decide

/-- A core that stands at pc 8 in a loop of level 1 over words 4 to 8, with a count, nested in one of level 0 that ends there too. -/
def looping (n0 n1 : DWord) : State :=
  State.reset.modCore 0 fun c => { (c.modBank 3 fun _ => ⟨[(0, n0), (1, n1)], [(0, 0), (1, 4)], [(0, 8), (1, 8)]⟩) with
    mode := .running, level := 3, pc := 8 }
theorem witness_HardwareLoops : (running [(3, 8)]).wordReady [3] [1] := by unfold State.wordReady; decide
theorem witness_HardwareLoops_lexit : ((looping 2 1).self.bank (looping 2 1).self.level).count 1 ≠ 0 := by decide
theorem witness_HardwareLoops_again : let b := (looping 2 1).self.bank 3
    (0 < b.count 0 ∧ b.stop 0 = 8) ∧ 1 < b.count 0 ∧ ∀ j < 4, 0 < j → (0 < b.count j ∧ b.stop j = 8) → b.count j = 1 := by decide
theorem witness_HardwareLoops_through : let b := (looping 1 1).self.bank 3
    ∀ k < 4, (0 < b.count k ∧ b.stop k = 8) → b.count k = 1 := by decide
-- the LOOP word of fragment 1 (R29): lvl 0, cnt 8, len 3 at pc 0
theorem test_loop_sets : after (.loop 0 0 8 3) (running []) (fun t => let b := (t.core 0).bank 3
    (b.count 0, b.start 0, b.stop 0, (t.core 0).pc)) = some (8, 4, 12, 4) := by decide
theorem test_loop_skips : after (.loop 0 0 0 3) (running []) (fun t => (t.core 0).pc) = some 16 := by decide
theorem test_loop_end : after .nop (looping 2 1) (fun t => ((t.core 0).pc, ((t.core 0).bank 3).count 0, ((t.core 0).bank 3).count 1)) =
    some (0, 1, 0) := by decide
theorem witness_RegisterWordsFrame : jrTargetOk ((running [(1, 8)]).val 1) ∧ (running [(1, 8)]).wordReady [1, 2] [3] := by
  unfold State.wordReady; decide

/-- A core whose counters of loads and stores stand at 1 and 2. -/
def waiting : State := State.reset.modCore 0 fun c => { c with mode := .running, level := 3, ocLd := 1, ocSt := 2 }
theorem witness_WaitingAndServiceWords : (waiting.wordReady [1] [2]) ∧ waiting.self.ocLd ≤ 1 ∧ ¬ waiting.self.ocSt ≤ 1 ∧
    waiting.self.ih 2 = false ∧ (∀ a ∈ waiting.accs, a.who = .core 0 → a.done = true) ∧ waiting.self.level ≠ 0 := by
  unfold State.wordReady; decide
theorem witness_WaitingAndServiceWords_halt : State.reset.self.level = 0 := by decide
theorem test_wait : after (.wait 15 2 15 15) waiting (fun t => (t.core 0).pc) = some 4 ∧
    after (.wait 15 1 15 15) waiting (fun t => (t.core 0).pc) = some 0 := by decide
theorem test_trap : after (.trap 0x123) waiting (fun t => (((t.core 0).trap 2).cause, ((t.core 0).trap 2).epc, ((t.core 0).trap 2).val, (t.core 0).level)) =
    some (20, 4, 0x123, 2) := by decide
theorem test_halt_needs_operator : trapAfter .halt (running []) = some (1, 0) ∧
    after .halt State.reset (fun t => (t.core 0).mode) = some .halted := by decide

/-! ### Traps -/

/-- A core at a level with IH set at some levels. -/
def trapping (level : Nat) (ih : List Nat) : State :=
  State.reset.modCore 0 fun c => { (ih.foldl (fun c l => c.modTrap l fun t => { t with stat := 4, vec := 0x80 }) c) with
    mode := .running, level := level, pc := 0x40 }
theorem witness_TrapsAndReturn_enters : let s := trapping 3 [3]
    s.target 0 3 3 = 0 ∧ s.self.ih 0 = false ∧ ∀ k ≤ 0, 0 < k → s.self.ih k = true := by decide
theorem witness_TrapsAndReturn_stops : ∀ k ≤ 3, (trapping 3 [0, 1, 2, 3]).self.ih k = true := by decide
theorem witness_TrapsAndReturn_target : ((trapping 3 []).tile 0).owner = none := by decide
theorem witness_TrapsAndReturn_returns : let s := trapping 2 [2]
    s.self.level ≠ 3 ∧ s.region? s.foc.unit = none := by decide
theorem witness_TrapsAndReturn_refused : (trapping 3 []).self.level = 3 := by decide
-- nothing is delegated after reset (R393): a pointer fault of a task enters the operator's level
theorem test_trap_entry : after (.ld 1 2 3 0 0) ((running [(2, 0x8000000000000000)])) (fun t =>
    ((t.core 0).level, ((t.core 0).trap 0).cause, ((t.core 0).trap 0).val, ((t.core 0).trap 0).stat)) =
    some (0, 3, 0x8000000000000000, 7) := by decide
theorem test_tret : after .tret (State.reset.modCore 0 fun c => { (c.modTrap 2 fun t => { t with stat := 7, epc := 0x44 }) with
    mode := .running, level := 2 }) (fun t => ((t.core 0).pc, (t.core 0).level, (t.core 0).ih 2)) = some (0x44, 3, false) := by decide

/-- A core at task level that holds an event for the runtime, behind one that waits. -/
def eventful : State := State.reset.modCore 0 fun c => { (c.modTrap 1 fun t => { t with stat := 4 }) with
  mode := .running, level := 3, events := [⟨14, 1, 1, false⟩, ⟨13, 9, 2, false⟩] }
theorem witness_EventsBetweenWords : eventful.self.events = [⟨14, 1, 1, false⟩] ++ ⟨13, 9, 2, false⟩ :: [] ∧
    (∀ x ∈ [(⟨14, 1, 1, false⟩ : Event)], eventful.self.level < x.tgt ∨ eventful.self.ih x.tgt = true) ∧ eventful.self.ih 2 = false ∧
    eventful.self.mode = .running ∧ eventful.self.nextAt ≤ eventful.now := by decide
theorem witness_EventsBetweenWords_none : ∀ x ∈ (running []).self.events, (running []).self.level < x.tgt := by decide
theorem witness_EventsBetweenWords_full :
    16 ≤ ((State.reset.modCore 0 fun c => { c with events := List.replicate 16 ⟨13, 9, 2, false⟩ }).core 0).events.length := by decide
theorem test_eventDelivery : after .eventDelivery eventful (fun t => ((t.core 0).level, ((t.core 0).trap 2).cause, (t.core 0).events.length)) =
    some (2, 13, 1) := by decide
/-- A core that sleeps until cycle 5 at a device time. -/
def sleeping (now : Nat) : State :=
  { State.reset.modCore 0 fun c => { (c.setReg 1 5) with mode := .running, level := 3, mem := writeVal [] 0 4 0x74010001 } with now := now }
theorem witness_EventsBetweenWords_sleep : let s := sleeping 5
    readsControl [(BitVec.ofNat 32 (readVal s.self.mem s.self.pc 4), .sleep 1)] = true ∧ (s.val 1).toNat ≤ s.now % 2 ^ 64 ∧ (sleeping 4).now % 2 ^ 64 < ((sleeping 4).val 1).toNat := by decide
theorem test_sleepWake : after .sleepWake (sleeping 5) (fun t => (t.core 0).pc) = some 4 ∧
    after .sleepWake (sleeping 4) (fun t => (t.core 0).pc) = some 0 := by decide

/-! ### Pointers and memory words -/

theorem witness_PointerChecks_form : ptrFormOk 0x403FFFFFFFFFFFF0 = false ∧ ptrFormOk 0x400000000003FFFF = true := by decide
theorem witness_PointerChecks_ready : let s := running [(2, 0x4000000000000100)]
    s.memReady [2] [1] ∧ s.memReady [1, 2] [] ∧ s.memReady [2] [] ∧ s.memReady [2, 3] [1] ∧ s.memReady [1, 2, 3] [1] := by
  unfold State.memReady State.wordReady; decide
theorem witness_PointerChecks_space : ptrFormOk 0x2000000000000000 = true ∧ ptrSpace 0x2000000000000000 ∉ [0, 1, 3, 4, 7] := by decide
theorem witness_PointerChecks_level : ptrFormOk 0x7000000000000000 = true ∧ ptrSpace 0x7000000000000000 = 7 ∧ 2 ≤ (running []).self.level := by
  decide
theorem witness_PointerChecks_align : ptrFormOk 0x4000000000000001 = true ∧ ptrOff 0x4000000000000001 % 8 ≠ 0 := by decide
theorem witness_PointerChecks_bound : let s := State.reset.modCore 0 fun c => c.modTrap 0 fun t => { t with pbound := 0x104 }
    ptrOff 0x4000000000000100 < (s.self.trap s.self.level).pbound.toNat := by decide
-- the offset wraps modulo 2^48 and leaves the space and rank (R62, R70)
theorem test_pointer_wraps : cmPtr (running [(2, 0x1000000000000000)]) 0 2 0xFFF = 0x1000FFFFFFFFFFFF := by decide

/-- A task core with a pointer to byte 256 of its private memory in g2, two values, and a word there. -/
def privately (bad : List Nat) : State := (running [(2, 0x4000000000000100), (3, 5), (1, 0x80000001)]).modCore 0 fun c =>
  { c with mem := writeVal [] 256 4 0x80000001, poisoned := bad }
theorem witness_PrivateMemory : let s := privately []
    s.memReady [2] [1] ∧ s.memReady [1, 2] [] ∧ s.memReady [2, 3] [4] ∧ s.memReady [1, 2, 3] [1] ∧
      s.privPtr (cmPtr s 0 2 0) 4 256 ∧ s.privPtr (s.val 2) 8 256 ∧ s.privGood 256 8 := by
  unfold State.memReady State.wordReady State.privPtr State.privGood; decide
theorem witness_PrivateMemory_bad : ¬ (privately [64]).privGood 256 4 := by unfold State.privGood; decide
theorem test_ld_signs : regAfter (.ld 4 2 2 0 0) (privately []) 4 = some 0xFFFFFFFF80000001 ∧
    regAfter (.ldu 4 2 2 0 0) (privately []) 4 = some 0x80000001 := by decide
theorem test_ld_poisons : after (.ld 4 2 2 0 0) (privately [64]) (fun t => mapFind (t.core 0).poison 4) = some (some 0x4000000000000100) := by decide
theorem test_st_half : after (.st 3 2 1 0 2) (privately []) (fun t => readVal (t.core 0).mem 256 4) = some 0x00050001 := by decide
theorem test_amoMin_signed : after (.amoMin 4 2 3 0 0 0) (privately []) (fun t => ((t.core 0).reg 4, readVal (t.core 0).mem 256 4)) =
    some (0xFFFFFFFF80000001, 0x80000001) := by decide
theorem test_amoCas : after (.amoCas 1 2 3 0 0 0) (privately []) (fun t => ((t.core 0).reg 1, readVal (t.core 0).mem 256 4)) =
    some (0xFFFFFFFF80000001, 5) := by decide

/-- An operator core with a pointer in g2 that leaves the tile, a page of ASID 0 in its caches, and counters of loads and stores. -/
def outward (p : DWord) (n : Nat) : State :=
  { ((State.reset.modCore 0 fun c => { (c.setReg 2 p) with mode := .running, ocLd := n, ocSt := n }).modTile 0 fun t =>
      { t with owner := some 1 }).modPart 1 fun x => { x with live := true, extents := [(0, (4, 2))] } with
    dieTlb := [(0, [.whole { (default : Xlat) with asid := 0, vpage := 1, frame := 3, ar := true, aw := true, br := true, bw := true }])] }
theorem witness_RemoteIssue : let s := outward 0x7000000000000100 0
    s.memReady [2] [1] ∧ s.memReady [1, 2] [] ∧ s.memReady [2, 3] [1] ∧ s.memReady [1, 2, 3] [1] ∧
      ptrFault [0, 7] s.self.level 4 (s.val 2) = none ∧ ptrSpace (s.val 2) = 7 := by
  unfold State.memReady State.wordReady; decide
/-- What a pointer of the core of tile 0 reaches: 0 a place, 1 a miss, 2 a fault. -/
def reaches (s : State) (p : DWord) : Nat := match (s.reach (.core 0) (s.owner 0) s.self.asid p ⟨true, true, false⟩).2 with
  | .at_ _ _ => 0
  | .miss => 1
  | .fault _ => 2
theorem witness_RemoteIssue_reach : reaches (outward 0 0) 0x7000000000000100 = 0 ∧ reaches (outward 0 0) 0x0000000000010100 = 0 ∧
    reaches (outward 0 0) 0x0000000000050000 = 1 ∧ reaches (running []) 0x3000000000000000 = 0 ∧
    reaches { (outward 0 0) with dieTlb := [(0, [.whole { (default : Xlat) with asid := 0, vpage := 1 }])] } 0x0000000000010100 = 2 := by decide
theorem witness_RemoteIssue_full : 32 ≤ (outward 0 32).self.ocLd ∧ 32 ≤ (outward 0 32).self.ocSt := by decide
theorem test_remote_ld : after (.ld 1 2 3 1 0) (outward 0x7000000000000100 0) (fun t => ((t.core 0).ocLd, (t.core 0).pend, t.accs.length)) =
    some (1, [1], 1) := by decide
theorem test_remote_st_full : after (.st 1 2 3 0 0) (outward 0x7000000000000100 32) (fun t => ((t.core 0).pc, t.accs.length)) = some (0, 0) := by
  decide

/-- A core whose tile has a region of 8 words in memory tile 0: a mode, an error-tolerance bit (R146), and uncorrectable words. -/
def tiled (mode tol : Nat) (bad : List Nat) : State :=
  (running [(1, 7), (2, 0x1000000000000000), (3, 1)]).modMtile 0 0 fun m =>
    { m with mapped := true, map := [8 + mode * 2 ^ 62 + tol * 2 ^ 61], poisoned := bad, mem := writeVal [] 0 4 9 }

theorem witness_LocalTileAccess : let s := tiled 0 0 []
    s.memReady [2] [1] ∧ s.memReady [1, 2] [] ∧ s.memReady [2, 3] [1] ∧ s.memReady [1, 2, 3] [1] ∧
      ptrFault [0, 1, 4, 7] s.self.level 4 (s.val 2) = none ∧ ptrSpace (s.val 2) = 1 ∧
      (s.mtile 0 0).regionOf 0 = some ⟨0, 0, false, 0, 8⟩ ∧ (s.mtile 0 0).anyBad [0] = false := by
  unfold State.memReady State.wordReady; decide
theorem witness_LocalTileAccess_bad : ((tiled 0 0 [0]).mtile 0 0).anyBad [0] = true ∧ ((tiled 0 1 [0]).mtile 0 0).anyBad [0] = true ∧
    ((tiled 0 1 [0]).mtile 0 0).regionOf 0 = some ⟨0, 0, true, 0, 8⟩ := by decide
theorem witness_LocalTileAccess_modes : ((tiled 1 0 []).mtile 0 0).regionOf 0 = some ⟨0, 1, false, 0, 8⟩ ∧
    ((tiled 0 0 []).mtile 0 0).regionOf 8 = none ∧ (State.reset.mtile 0 0).mapped = false := by decide
theorem witness_LocalTileAccess_across : let m := { MTile.reset with mapped := true, map := [8, 8 + 8 * 2 ^ 32] }
    m.regionOf 7 = some ⟨0, 0, false, 0, 8⟩ ∧ m.regionOf 8 = some ⟨1, 0, false, 8, 8⟩ := by decide
theorem witness_LocalTileAccess_release : let s := { (tiled 0 0 []) with accs := [{ (default : Access) with who := .core 0 }] }
    ¬ ∀ a ∈ s.accs, a.who = .core 0 → a.done = true := by decide
theorem test_tile_ld : regAfter (.ld 4 2 2 0 0) (tiled 0 0 []) 4 = some 9 ∧ regAfter (.ld 4 2 2 0 0) (tiled 0 1 [0]) 4 = some 0 ∧
    after (.ld 4 2 2 0 32) (tiled 0 0 []) (fun t => (((t.core 0).trap 0).cause, (t.core 0).level)) = some (6, 0) := by decide
theorem test_tile_amoAdd : after (.amoAdd 4 2 3 0 0 0) (tiled 0 0 []) (fun t => (t.mtile 0 0).word 0) = some 10 := by decide

/-- An access of the core of tile 0 to a line of HBM: of a kind, done or not, with a fault. -/
def oneAccess (k : AccKind) (fin bad : Bool) (fault gd : Nat) : Access :=
  { (default : Access) with
    id := 5, who := .core 0, kind := k, loc := .dram 0 64, size := 4, data := 7, gd := gd, done := fin, bad := if bad then [0] else [], fault := fault,
    ptr := 0x7000000000000040 }
/-- A device with that access in flight and the value 9 at its place. -/
def flying (a : Access) : State :=
  { State.reset.modCore 0 fun c => { c with mode := .running, ocLd := 1, ocSt := 1, pend := [3] } with
    foc := ⟨5, 0, 0⟩, accs := [a], dram := writeVal [] 64 4 9 }
/-- The same at the core that the access belongs to. -/
def flown (a : Access) : State := { (flying a) with foc := ⟨0, 5, 0⟩ }
theorem witness_RemoteAccess : let a := oneAccess (.load true) false false 0 3
    (flying a).accs.find? (fun b => decide (b.id = (flying a).foc.unit)) = some a ∧ (flying a).mayPerform a = true := by decide +kernel
theorem witness_RemoteAccess_alone : let a := oneAccess (.load true) false false 0 3
    ∀ b, ¬ (flying a).awaits a b := by
  intro a b h; cases h.1 with
  | head => exact absurd h.2.2.1 (by decide)
  | tail _ h => cases h
/-- A load that waits for the store in flight of its core (R271). -/
def waitingLoad : Access := { (oneAccess (.load true) false false 0 3) with id := 6, before := [5] }
/-- The store and the load. -/
def overtaking : State := { (flying (oneAccess .store false false 0 0)) with accs := [oneAccess .store false false 0 0, waitingLoad] }
theorem witness_RemoteAccess_own : let s := overtaking
    s.mayPerform (oneAccess .store false false 0 0) = true ∧ s.awaits (oneAccess .store false false 0 0) waitingLoad ∧
      waitingLoad.before = [5] ∧ waitingLoad.done = false ∧ waitingLoad.issued ≤ s.now ∧ waitingLoad.shared = none ∧ waitingLoad.xl = none ∧
      s.locBad (.dram 0 64) 4 = [] ∧ (∀ c ∈ s.accs, c.id = 5 → c = oneAccess .store false false 0 0) ∧ ∀ c ∈ s.accs, c.id = 6 → c = waitingLoad := by
  refine ⟨by decide +kernel, ⟨by decide +kernel, rfl, by decide, true, rfl⟩, ?_⟩
  decide +kernel
theorem test_accessAtHome_own : after .accessAtHome overtaking (fun t => t.accs.map fun a => (a.done, a.val)) = some [(true, 0), (true, 7)] := by
  decide +kernel
theorem witness_RemoteAccess_who : ∀ t, (oneAccess .store false false 0 0).who ≠ .sched t := by
  intro t h; cases h
theorem witness_RemoteAccess_plain : (flying (oneAccess .store false false 0 0)).plainAccess (oneAccess .store false false 0 0) := by
  refine ⟨rfl, ?_, ?_, ?_⟩
  · intro k off h; cases h
  · intro t x h; cases h; exact ⟨rfl, rfl⟩
  · intro x h; cases h
theorem witness_RemoteAccess_reply : (flown (oneAccess (.load true) true false 0 3)).replyOf 0 5 true = some (oneAccess (.load true) true false 0 3) ∧
    (flown (oneAccess (.load true) true true 0 3)).replyOf 0 5 true = some (oneAccess (.load true) true true 0 3) ∧
    (flown (oneAccess (.amo .add) true true 0 0)).replyOf 0 5 true = some (oneAccess (.amo .add) true true 0 0) ∧
    (flown (oneAccess (.load true) true false 5 3)).replyOf 0 5 true = some (oneAccess (.load true) true false 5 3) ∧
    (flown (oneAccess .store true true 0 0)).replyOf 0 5 false = some (oneAccess .store true true 0 0) := by decide +kernel
theorem test_accessAtHome : after .accessAtHome (flying (oneAccess .store false false 0 0)) (fun t => readVal t.dram 64 4) = some 7 ∧
    after .accessAtHome (flying (oneAccess (.load true) false false 0 3)) (fun t => t.accs.map fun a => (a.done, a.val)) = some [(true, 9)] := by
  decide +kernel
theorem test_loadReply : after .loadReply (flown { (oneAccess (.load true) true false 0 3) with val := 0x80000000 })
    (fun t => ((t.core 0).reg 3, (t.core 0).ocLd, (t.core 0).pend)) = some (0xFFFFFFFF80000000, 0, []) := by decide +kernel
theorem test_storeAck : after .storeAck (flown (oneAccess .store true false 0 0)) (fun t => ((t.core 0).ocSt, t.accs.length)) = some (0, 0) := by
  decide +kernel

/-- A walk of page 1 of ASID 0 in a device whose ASID 0 belongs to a sub-partition with a table at its base. -/
def walking : State := { (outward 0 0) with
  foc := ⟨4, 0, 0⟩, dieTlb := [], walks := [{ (default : Walk) with id := 4, key := (0, 1), who := [.core 0] }] }
theorem witness_Translation : walking.walks.find? (fun j => decide (j.id = walking.foc.unit)) =
    some { (default : Walk) with id := 4, key := (0, 1), who := [.core 0] } ∧
    ((walking.walks.filter fun j => decide (j.stack = 0)).take 16).contains { (default : Walk) with id := 4, key := (0, 1), who := [.core 0] } = true := by
  decide
theorem witness_Translation_cached : ((outward 0 0).cached (.core 0) 0 1).isSome = true := by decide
theorem test_translationWalk_answers : (after .translationWalk walking fun t => t.walks.length + t.wfaults.length) = some 1 := by decide

/-- A task core with a versioned region of 24 words in memory tile 0, a version in g3, and slots whose tag word stands as given. -/
def versioned (tag : Nat) (ver : DWord) : State :=
  (running [(1, 7), (2, 0x1000000000000000), (3, ver)]).modMtile 0 0 fun m =>
    { m with mapped := true, map := [24 + 2 ^ 62], mem := writeVal (writeVal [] 0 4 9) 8 4 tag }
/-- Where a versioned word of tile 0 goes. -/
def verPlace (s : State) : Option (Nat × MapRegion × Nat) := match verWord s 0 (s.val 2) with
  | .ok x => some x
  | .error _ => none
-- the even slot holds version 4 (the example of R159: a VQRY reads 0x0001_0004)
theorem witness_VersionedWords : let s := versioned 0x10004 4
    s.memReady [2, 3] [1] ∧ s.memReady [1, 2, 3] [] ∧ s.memReady [2, 3] [] ∧ s.memReady [2] [1] ∧ verPlace s = some (0, ⟨0, 1, false, 0, 24⟩, 0) ∧
      (s.mtile 0 0).poisoned.contains 2 = false ∧ s.self.stall = none := by
  unfold State.memReady State.wordReady; decide
theorem witness_VersionedWords_distances : ((versioned 0x10004 4).mtile 0 0).slot 0 0 4 = (true, 4) ∧
    ((versioned 0x10004 2).mtile 0 0).slot 0 0 2 = (true, 4) ∧ ((versioned 0x10004 6).mtile 0 0).slot 0 0 6 = (true, 4) ∧
    ((versioned 0x10084 4).mtile 0 0).slot 0 0 4 = (true, 0x84) ∧ ((versioned 0 4).mtile 0 0).slot 0 0 4 = (false, 0) := by decide
theorem test_vqry : regAfter (.vqry 1 2) (versioned 0x10004 0) 1 = some 0x10004 := by decide
theorem test_ldv : regAfter (.ldv 1 2 3) (versioned 0x10004 4) 1 = some 9 ∧
    after (.ldv 1 2 3) (versioned 0x10004 6) (fun t => (t.core 0).pc) = some 0 ∧
    after (.ldv 1 2 3) (versioned 0x10004 2) (fun t => ((t.core 0).trap 0).cause) = some 8 := by decide
theorem test_stv_fills : after (.stv 1 2 3) (versioned 0 5) (fun t => (readVal (t.mtile 0 0).mem 8 4, readVal (t.mtile 0 0).mem 4 4)) =
    some (0x20500, 7) := by decide
theorem witness_VersionedWords_misses : ((versioned 0x10004 5).mtile 0 0).slot 0 0 5 = (false, 0) ∧
    ((versioned 0x10004 4).mtile 0 0).poisoned.contains 0 = false := by decide
-- a reclaim of a slot that is empty misses, counted from the next cycle on (R168)
theorem test_recl_misses : after (.recl 2 3) (versioned 0x10004 5) (fun t => ((t.core 0).pc, t.later, (t.mtile 0 0).rmiss)) =
    some (4, [.miss 0 0], 0) := by decide
-- a read of an uncorrectable data word (R151, R167)
theorem test_ldv_bad : after (.ldv 1 2 3) ((versioned 0x10004 4).modMtile 0 0 fun m => { m with poisoned := [0] }) (fun t => ((t.core 0).trap 0).cause) =
    some 13 := by decide
theorem test_recl_frees : after (.recl 2 3) (versioned 0x10004 4) (fun t => readVal (t.mtile 0 0).mem 8 4 / 65536) = some 0 := by decide

/-! ### Operand blocks, streams, configurations -/

/-- Tables (R354 to R356) in the first pages of HBM: virtual page v of ASID 0 is page v + 2 of sub-partition 0, which is frame v + 2, for
v from 1 to 6. -/
def tables : Memory :=
  let m := writeVal (writeVal [] 0 8 (2 ^ 63 + 0x4000)) 0x4000 8 (2 ^ 63 + 0x6000)
  let m := writeVal (writeVal m 0x20000 8 (2 ^ 63 + 0x24000)) 0x24000 8 (2 ^ 63 + 0x26000)
  let m := (List.range 10).foldl (fun m k => writeVal m (0x6000 + 8 * k) 8 (2 ^ 63 + 3 * 2 ^ 53 + 0x10000 * k)) m
  (List.range 7).foldl (fun m v => writeVal m (0x26000 + 8 * v) 8 (3 * 2 ^ 62 + 7 * 2 ^ 57 + 0x10000 * (v + 2))) m
/-- A core of partition 1 at the operator's level with some registers, whose virtual pages 1 to 6 are pages 3 to 8 of HBM, cached, with
some doublewords in the first. -/
def paged (l : List (BitVec 5 × DWord)) (words : List Nat) : State :=
  { (((State.reset.modCore 0 fun c => l.foldl (fun c e => c.setReg e.1 e.2) { c with mode := .running }).modTile 0 fun t =>
      { t with owner := some 1 }).modPart 1 fun x => { x with live := true, rights := 0xFFFF, extents := [(0, (0, 2))] }).modSubp 0 fun x =>
      { x with live := true, part := 1, root := 0x7000000000000000, rights := 0xFFFF, tiers := 15 } with
    asids := [(0, ⟨true, 0, 0x20000⟩)],
    dieTlb := [(0, (List.range 7).map fun k => .whole { (default : Xlat) with
      vpage := k, page := 2 + k, frame := 2 + k, ar := true, aw := true, aT := true, br := true, bw := true })],
    dram := writeVal tables 0x30000 (8 * words.length) (words.foldr (fun w n => w + 2 ^ 64 * n) 0) }
/-- Virtual address 0x1_0000 (page 1). -/
def page1 : DWord := 0x10000
/-- Bytes of an operand block, or nothing where it stops. -/
def blockOf : BlockRead → Option (List Byte)
  | .ok _ l => some l
  | .stop _ => none

/-- A one-dimensional stream block (R180): a base, a size, an element format, a direction, and local port 0. -/
def spb1 (base size fmt dir : Nat) : Nat := base + size * 2 ^ 96 + fmt * 2 ^ 496 + dir * 2 ^ 500 + 2 ^ 504
/-- A minimal configuration image (R197, R198): the header, and one declared region of 4 KiB at address 0x1_0000 with a mode. -/
def image (mode : Nat) : List Byte :=
  readBytes (writeVal (writeVal (writeVal (writeVal (writeVal (writeVal [] 0 8 1) 8 8 0x77) 16 8 320) 112 8 (256 + 16 * 2 ^ 32))
    256 8 0x10000) 264 8 (4096 + mode * 2 ^ 48)) 0 320
/-- A core in g1 of which stands a pointer to a stream block, with an active image that declares page 1, and generator 0 at local
port 0 in both directions. -/
def streamy (b : Nat) (mode : Nat) : State :=
  ((((paged [(1, 0x4000000000000100)] [5, 6, 7, 8]).modCore 0 fun c => { c with mem := writeVal [] 256 64 b }).modTile 0 fun t =>
    { t with slots := [(0, ⟨0x77, image mode, 0, 0⟩)] }).modFab 0 fun f => { f with active := some 0 }).modRouter 0 fun t =>
      { t with codes := [0x1000, 0x1000] }
theorem witness_StreamBlocksAndStarts_block : let s := streamy (spb1 0x10000 8 0 0) 1
    s.privPtr (s.val 1) 64 256 ∧ s.privGood 256 64 ∧ s.memReady [1, 2] [3] := by
  unfold State.memReady State.wordReady State.privPtr State.privGood; decide +kernel
theorem witness_StreamBlocksAndStarts_fault : ptrFault [0, 4] 3 64 0x4000000000000101 = some 2 ∧
    ptrFault [0, 4] 3 64 0x4000000000000100 = none ∧ ptrFault [0, 4] 3 64 0x10000 = none := by decide
theorem witness_StreamBlocksAndStarts_sound : spbBad (spb1 0x10000 8 0 0) [0] = false ∧ spbBad (spb1 0x10000 8 0 1) [0] = true ∧
    (streamy (spb1 0x10000 8 0 0) 1).spbFault 0 0 (spb1 0x10000 8 0 0) 0 [0] = none ∧
    (streamy (spb1 0x10000 8 0 0) 1).spbFault 0 0 (spb1 0x20000 8 0 0) 0 [0] = some (6, some 4) ∧
    (streamy (spb1 0x10000 8 0 0) 1).spbFault 0 0 (spb1 0x8000000000000000 8 0 0) 0 [0] = some (3, none) := by decide +kernel
theorem test_sin_starts : after (.sin 3 1 2) (streamy (spb1 0x10000 8 0 0) 1) (fun t =>
    (((t.gen 0 0).stream.map Stream.spb), (t.core 0).ocTl, (t.core 0).reg 3)) = some (some (spb1 0x10000 8 0 0), 1, 0) := by decide +kernel
theorem test_sout_direction : after (.sout 3 1 2) (streamy (spb1 0x10000 8 0 0) 1) (fun t => ((t.core 0).trap 0).cause) = some 6 := by
  decide +kernel

/-- A stream of generator 0 with a block, as it starts. -/
def stream (b : Nat) : Stream := { (default : Stream) with id := 9, spb := b, part := some 1 }
/-- A device whose generator 0 runs a stream. -/
def generating (t : Stream) : State := (streamy t.spb 1).modGen 0 0 fun g => { g with stream := some t }
theorem witness_StreamControl : let s := generating (stream (spb1 0x10000 8 0 0))
    s.memReady [1] [2] ∧ (s.gen 0 0).stream = some (stream (spb1 0x10000 8 0 0)) ∧ (stream (spb1 0x10000 8 0 0)).ended = false ∧
      (stream (spb1 0x10000 8 0 0)).killed = false ∧ (s.gen 0 1).stream = none := by
  unfold State.memReady State.wordReady; decide +kernel
theorem test_skill_marks : after (.skill 2) (generating (stream (spb1 0x10000 8 0 0))) (fun t => ((t.gen 0 0).stream.map fun x =>
    (x.killed, x.out))) = some (some (true, [.item (.marker 7)])) := by decide +kernel
theorem test_spos : regAfter (.spos 3 2) (generating { (stream (spb1 0x10000 16 0 0)) with tok := 2, recTok := 1, rounds := 1 }) 3 =
    some 0x8000000100000001 := by decide +kernel

/-- How many pieces a token of generator 0 has, where all of them reach their places. -/
def pieces (s : State) (t : Stream) (rd wr : Bool) : Option Nat :=
  match (s.genPieces 0 0 t rd wr (spansOfRuns (spbBase t.spb) (spbTokenRuns t.spb t.tok))).2 with
  | .ok l => some l.length
  | .error _ => none
theorem witness_StreamsMove_reads : let t := stream (spb1 0x10000 8 0 0)
    let s := generating t
    (s.gen 0 0).stream = some t ∧ (s.fab 0).frozen = false ∧ t.issues = true ∧ s.joinActive 0 t.joins = false ∧ spbDir t.spb = 0 ∧
      t.waiting < 64 ∧ s.genReads 0 0 = 0 ∧ (pieces s t true false).isSome = true := by decide +kernel
theorem witness_StreamsMove_returns : let t := { (stream (spb1 0x10000 8 0 0)) with out := [.tok 0 [⟨5, 0, 64, 0⟩] none] }
    t.idxAcc = [] ∧ t.out = [] ++ .tok 0 [⟨5, 0, 64, 0⟩] none :: [] ∧ 5 ∈ ([⟨5, 0, 64, 0⟩] : List Part).map Part.acc := by decide
theorem witness_StreamsMove_writes : let t := stream (spb1 0x10000 8 0 1)
    let s := (generating t).modRouter 0 fun x => { x with outq := [(0, [⟨.data [3] 0, 0⟩])] }
    (s.gen 0 0).stream = some t ∧ t.commit = [] ∧ spbDir t.spb = 1 ∧ s.waitingAt 0 0 = some (.data [3] 0) ∧ t.tok < spbTotal t.spb ∧
      (pieces s t false true).isSome = true := by decide +kernel
theorem witness_StreamsMove_ends : { (stream (spb1 0x10000 8 0 1)) with closed := true }.held = [] := by decide
theorem test_streamReadIssue : after .streamReadIssue (generating (stream (spb1 0x10000 8 0 0))) (fun t =>
    ((t.gen 0 0).stream.map fun x => (x.tok, x.closed), t.accs.length != 0)) = some (some (1, true), true) := by decide +kernel

/-- A core that names an image of page 1 in g1 and slot 0 in g2. -/
def loadingImage (mode : Nat) : State :=
  { (paged [(1, page1)] []) with dram := writeBytes tables 0x30000 (image mode) }
/-- Whether the image that a core reads at page 1 passes every check of R202. -/
def imageOk (s : State) : Bool := match s.readImage 0 page1 0 0 with
  | .ok _ im => decide (im = image 1)
  | .stop _ => false
theorem witness_ConfigurationLoad : let s := loadingImage 1
    s.memReady [1, 2] [3] ∧ imageOk s = true ∧ s.activating 0 = false ∧ (s.val 2).toNat < 1024 ∧ s.self.ocTl < 16 ∧
      (s.fab 0).active ≠ some 0 ∧ Image.preloads (image 1) = [] := by
  unfold State.memReady State.wordReady; decide +kernel
theorem test_cload_operand : after (.cload 3 1 4) ((loadingImage 1).modCore 0 fun c => c.setReg 4 2048) (fun t =>
    (((t.core 0).trap 0).cause, ((t.core 0).trap 0).val)) = some (16, cfgVal 2048) := by decide +kernel

/-- A command of the core of tile 0 on tile 0. -/
def command (k : JobKind) (im : List Byte) : Job :=
  { (default : Job) with id := 5, kind := k, core := some 0, tiles := [0], image := im, ident := 0x77 }
/-- A device with that command under way, and its unit or number in focus. -/
def commanded (unit : Nat) (j : Job) : State :=
  { (State.reset.modCore 0 fun c => { c with ocTl := 1 }) with foc := ⟨unit, 0, 0⟩, jobs := [j] }
theorem witness_ConfigurationLoad_written : let s := commanded 5 (command (.load 0 false) (image 1))
    s.jobs.find? (fun j => decide (j.id = s.foc.unit)) = some (command (.load 0 false) (image 1)) ∧ s.joinActive 0 [] = false ∧
      image 1 ≠ [] := by decide +kernel
theorem test_cloadSlotWritten : after .cloadSlotWritten (commanded 5 (command (.load 2 false) (image 1))) (fun t =>
    ((t.slot 0 2).ident, (t.core 0).ocTl, t.jobs.length)) = some (0x77, 0, 0) := by decide +kernel

/-- A configured tile whose slot 1 holds an image, with slot 1 in g1 and its identifier in g2. -/
def nextImage : State := (paged [(1, 1), (2, 0x77)] []).modTile 0 fun t =>
  { t with slots := [(1, ⟨0x77, image 1, 0, 0⟩)], fab := { t.fab with active := some 0 } }
theorem witness_Activation : let s := nextImage
    s.memReady [1, 2] [] ∧ (s.val 1).toNat < 4 ∧ (s.slot 0 1).ident = (s.val 2).toNat ∧ s.activating 0 = false ∧ s.self.ocTl < 16 ∧
      (s.fab 0).active ≠ none := by
  unfold State.memReady State.wordReady; decide +kernel
theorem test_cnext_checks : after (.cnext 1 2) nextImage (fun t => t.jobs.map Job.kind) = some [.next 1] ∧
    after (.cnext 2 2) nextImage (fun t => ((t.core 0).trap 0).cause) = some 16 := by decide +kernel
/-- A tile in an activation: every node up to the router has switched, but one. -/
def switching (leaves : Nat) : State := (commanded 0 (command (.next 1) (image 1))).modFab 0 fun f =>
  { f with nodes := ((List.range 25).filter (· != leaves)).map fun k => (k, 6) }
theorem witness_Activation_switches : (switching 22).waveOf 0 22 = some (command (.next 1) (image 1)) ∧
    (switching 20).waveOf 0 20 = some (command (.next 1) (image 1)) ∧ mapGet 0 ((switching 22).fab 0).nodes 16 = 6 ∧
    mapGet 0 ((switching 22).fab 0).nodes 25 ≠ 6 ∧ ((switching 22).gen 0 1).stream = none ∧ Image.preloads (image 1) = [] := by
  decide +kernel
theorem test_nodeSwitch : after (.nodeSwitch (.gen 1)) (switching 22) (fun t => (t.fab 0).active) = some (some 1) := by decide +kernel

theorem witness_FreezeSaveRestore : let s := paged [(1, 512), (2, page1)] []
    s.memReady [1] [] ∧ s.memReady [2, 1] [] ∧ (s.val 1).toNat / 512 % 1024 = 1 ∧ ptrFault [0] s.self.level 4096 (s.val 2) = none ∧
      (s.cfgRegion 0).2 = 0 := by
  unfold State.memReady State.wordReady; decide +kernel
/-- Whether `n` bytes that tile 0 would write at a pointer reach their places. -/
def writable (s : State) (p : DWord) (n : Nat) : Bool := (s.warm 0 p n (s.need 0 false true) (n / 65536 + 2)).2.isNone
theorem witness_FreezeSaveRestore_area : let s := paged [(1, 512), (2, page1)] []
    s.saveBytes [0] = 4096 + 262144 ∧ writable s page1 (4096 + 262144) = true := by decide +kernel
theorem test_cfrz : after (.cfrz 1) (paged [(1, 512)] []) (fun t => ((t.fab 0).frozen, (t.fab 1).frozen, (t.core 0).ocTl)) =
    some (true, false, 1) ∧ after (.cfrz 2) (paged [(1, 512)] []) (fun t => ((t.core 0).trap 0).cause) = some 16 := by decide +kernel
/-- A command on tile 0, frozen. -/
def frozenWith (j : Job) : State := (commanded 5 j).modFab 0 fun f => { f with frozen := true }
/-- The record of a CSAVE of one unconfigured tile. -/
def area1 : Saved := { (default : Saved) with num := 3, count := 1, fabs := [(0, Fabric.reset)] }
theorem witness_FreezeSaveRestore_ends : let s := frozenWith (command .freeze [])
    s.jobs.find? (fun j => decide (j.id = s.foc.unit)) = some (command .freeze []) ∧ s.tileFrozen 0 = true ∧
      s.jobReady (command (.save page1 3) []) = true ∧
      mapFind { s with saved := [(3, area1)] }.saved 3 = some area1 ∧ (mapGet Fabric.reset area1.fabs 0).active = none := by
  decide +kernel
theorem test_freezeComplete : after .freezeComplete (frozenWith (command .freeze [])) (fun t => ((t.core 0).ocTl, t.jobs.length)) =
    some (0, 0) := by decide +kernel
theorem witness_FreezeSaveRestore_crest : let s := paged [(1, 512), (2, page1)] [1, 0, 512]
    ptrFault [0] s.self.level 4096 (s.val 2) = none ∧ selectTiles 0 0 512 = some [0] ∧ blockOf (s.readBytesOf 0 page1 24) =
      some (leBytes 8 1 ++ leBytes 8 0 ++ leBytes 8 512) ∧ selectTiles 0 0 0 = none := by decide +kernel
theorem witness_FreezeSaveRestore_saves : let s := { (paged [(1, 512), (2, page1)] [1, 0, 512]) with saved := [(3, area1)] }
    s.savesLike 0 1 0 0 = [area1] ∧ s.needsImage area1 [0] = false ∧
      (s.needsImage { area1 with fabs := [(0, { Fabric.reset with active := some 0 })], ident := 9 } [0]) = true ∧
      s.savedAt 0 page1 [] = (s, .ok none) := by
  refine ⟨by decide +kernel, by decide +kernel, by decide +kernel, rfl⟩
theorem test_crest_unsound : after (.crest 2 1) (paged [(1, 512), (2, page1)] [2, 0, 512]) (fun t =>
    (((t.core 0).trap 0).cause, ((t.core 0).trap 0).val)) = some (16, cfgVal 0x10000) := by decide +kernel

/-- A core with a splice descriptor of 16 bytes in private memory: operation 2, stage 1. -/
def splicing : State := (generating (stream (spb1 0x10000 8 0 0))).modCore 0 fun c => { c with mem := writeVal [] 256 16 (2 + 8) }
theorem witness_Splices : let s := splicing
    s.memReady [1, 2] [3] ∧ blockOf (s.readBlock 0 [0, 4] (s.val 1) 16) = some (leBytes 16 10) ∧ (s.core 0).ocTl < 16 ∧
      ((s.gen 0 0).stream.map Stream.ended) = some false := by
  unfold State.memReady State.wordReady; decide +kernel
theorem test_csplice : after (.csplice 3 1 2) splicing (fun t => ((t.core 0).ocTl, (t.core 0).spliceSeq,
    (t.gen 0 0).stream.map fun x => x.out.length)) = some (1, 1, some 1) := by decide +kernel
/-- A record of a splice from tile 0. -/
def record_ (op : Nat) : Splice := { (default : Splice) with op := op, pos := 1 }
/-- A cell of tile 0 with one input and one output, at whose input an item stands. -/
def passing (i : Item) : State := (State.reset.modCell 0 0 fun c => { c with
  actors := [{ (default : Actor) with rates := [(0, 1), (8, 1)] }], chans := [(0, 4), (8, 4)], fifo := [(0, [⟨i, 0⟩])] }).modCore 0 fun c =>
    { c with ocTl := 1 }
theorem witness_Splices_passes : let c := (passing (.splice (record_ 2))).cell 0 0
    c.recordAt 0 = some (record_ 2) ∧ (c.dataPorts).2 = [8] ∧ c.free 0 8 ≠ 0 := by decide +kernel
theorem witness_Splices_sink : let s := (passing (.marker 1)).modRouter 0 fun t =>
      { t with codes := [0, 0x1001], outq := [(0, [⟨.splice (record_ 3), 0⟩])] }
    (s.router 0).dest 0 = 0x1001 ∧ s.waitingAt 0 0 = some (.splice (record_ 3)) := by decide +kernel
/-- A stage that a record removes, whose output leads on by a rerouted link. -/
def removing : State := { (passing (.splice (record_ 1))) with
  regions := [(0, { newRegion default 0 with stages := [(1, (0, 0))] })], wires := [(8192, ⟨.router 0 4, 0, []⟩)] }
theorem witness_Splices_removes : let s := removing
    (s.fab 0).frozen = false ∧ (s.cell 0 0).recordAt s.now = some (record_ 1) ∧ s.hasActed (record_ 1) = false ∧
      (s.regionOf 0).map Region.stages = some [(1, (0, 0))] ∧ s.qualifies 0 0 = true ∧ (s.cell 0 0).port 8 = [] ∧
      s.nextEnd 0 0 = some (.router 0 4) ∧ (∀ y ∈ s.wires, y.2.dest ≠ .input 0 0 0) ∧
      ((s.regionOf 0).bind fun x => s.spliceLanes x []).isSome = true := by decide +kernel
theorem test_spliceArrival_removes : after .spliceArrival removing (fun t =>
    (t.spliced.length, (t.regionOf 0).map fun x => x.stages.length, (mapFind t.wires 0).map fun w => w.items.map Held.item)) =
    some (1, some 0, some [.splice (record_ 1)]) := by decide +kernel
theorem test_spliceArrival : after .spliceArrival (passing (.splice (record_ 2))) (fun t => (((t.cell 0 0).port 0).length, ((t.cell 0 0).port 8).length)) =
    some (0, 1) := by decide +kernel

/-! ### Barriers and tasks -/

/-- An item that holds barriers is at the head of a port of a cell that fires nothing. -/
theorem witness_BarrierWords_btok : let s := generating (stream (spb1 0x10000 8 0 0))
    s.memReady [2] [3] ∧ (s.val 2) = 0 ∧ s.self.stall = none ∧ s.itemsIn (s.tiles.map Prod.fst) = [] ∧
      ((s.gen 0 0).stream.map fun t => (t.ended, spbDir t.spb)) = some (false, 0) := by
  unfold State.memReady State.wordReady; decide +kernel
theorem test_btok : after (.btok 2) (generating (stream (spb1 0x10000 8 0 0))) (fun t => (t.gen 0 0).stream.map fun x => (x.out, x.bars)) =
    some (some ([.item (.barrier [(9, 0, 0)])], 1)) := by decide +kernel
theorem test_bdrain : regAfter (.bdrain 3 2) { (generating (stream (spb1 0x10000 8 0 0))) with now := 7 } 3 = some 7 := by decide +kernel
/-- A core with a pointer to a barrier object in tile 0 (R307), the counts of the object, and the word that it has latched. -/
def object (gen expected pending : Nat) (latch : Option (DWord × Nat)) : State :=
  ((running [(1, 0x5000000000000000), (2, 3)]).modCore 0 fun c => { c with boLatch := latch }).modMtile 0 0 fun m =>
    { m with mapped := true, map := [8], mem := writeVal [] 0 16 (gen + expected * 2 ^ 4 + pending * 2 ^ 32) }
theorem witness_BarrierWords_object : let s := object 1 3 2 (some (0x5000000000000000, 1))
    s.memReady [1, 2] [] ∧ s.memReady [1] [] ∧ s.objFault 0 (s.val 1) = none ∧ (s.val 2).toNat < 2 ^ 28 ∧
      (s.locRead (.mtile 0 0 0) 16).1 / 2 ^ 32 % 2 ^ 32 = 2 ∧ s.self.boLatch = some (s.val 1, 1) ∧ s.objFault 0 0x4000000000000000 = some 3 := by
  unfold State.memReady State.wordReady; decide +kernel
theorem test_boarr : after (.boarr 1) (object 1 3 2 none) (fun t => ((t.locRead (.mtile 0 0 0) 16).1, (t.core 0).boLatch)) =
    some (1 + 3 * 2 ^ 4 + 2 ^ 32, some (0x5000000000000000, 1)) ∧
    after (.boarr 1) (object 1 3 1 none) (fun t => (t.locRead (.mtile 0 0 0) 16).1) = some (2 + 3 * 2 ^ 4 + 3 * 2 ^ 32) := by decide +kernel
theorem test_bowait : after (.bowait 1) (object 1 3 2 (some (0x5000000000000000, 1))) (fun t => (t.core 0).pc) = some 0 ∧
    after (.bowait 1) (object 2 3 2 (some (0x5000000000000000, 1))) (fun t => (t.core 0).pc) = some 4 := by decide +kernel
theorem witness_BarrierWords_passes : let c := (passing (.barrier [(9, 0, 1)])).cell 0 0
    (c.passBarriers 0).isSome = true ∧ c.firing = none ∧ c.readyAt ≤ 0 ∧ c.select 0 = none ∧
      c.frozen = false ∧ { (passing (.barrier [(9, 0, 1)])) with now := 1 }.now ≠ c.acct.since := by decide +kernel
theorem test_barrierPass : after .barrierPass { (passing (.barrier [(9, 0, 1)])) with now := 1 } (fun t =>
    (((t.cell 0 0).port 0).length, ((t.cell 0 0).port 8).map Held.item)) = some (0, [.barrier [(9, 0, 1)]]) := by decide +kernel

/-- Doubleword 0 of the record of a region task of one tile in queue 0 of partition 1 (R285, R286). -/
def recHead : Nat := 1 + 2 ^ 42 + 511 * 2 ^ 55
/-- A core with a pointer to a task record in private memory in g1 and the handle of queue 0, open for partition 1, in g2. -/
def submitting (head : Nat) : State :=
  ((paged [(1, 0x4000000000000100), (2, 0)] []).modCore 0 fun c => { c with mem := writeVal [] 256 8 head }).modQueue 0 fun x =>
    { x with open_ := true, part := 1 }
theorem witness_TaskRecords : let s := submitting recHead
    s.memReady [1, 2] [3] ∧ s.handle (s.owner 0) 0 = some 0 ∧ s.handle (s.owner 0) 1 = none ∧ (s.unstarted 0).length < 16 ∧
      recOk (recHead :: List.replicate 15 0) = true ∧ recQueue [recHead] = 0 ∧ recPart [recHead] = 1 ∧
      (blockOf (s.readBlock 0 [0, 4, 7] (s.val 1) 128)).isSome = true ∧
      (s.checkPtr 0 [0, 4, 7] (s.val 1) 128 (s.need 0 true false)).2.isNone = true := by
  unfold State.memReady State.wordReady; decide +kernel
theorem test_tsub : after (.tsub 3 1 2) (submitting recHead) (fun t => ((t.tasks.map Task.id), (t.queue 0).seq)) = some ([0], 1) ∧
    after (.tsub 3 1 2) (submitting (recHead + 2 ^ 15)) (fun t => (((t.core 0).trap 0).cause, t.tasks.length)) = some (6, 0) := by
  decide +kernel

/-- A core of partition 1 that may open queues, ASID 0 of which is live, with an ASID in g1. -/
def opening (v : DWord) : State := ((paged [(1, v)] []).modPart 1 fun x => { x with quotas := [(1, 4)] }).modSubp 0 fun x =>
  { x with quotas := [(1, 4)] }
theorem witness_Queues : let s := opening 0
    s.memReady [1] [2] ∧ s.memReady [1] [] ∧ s.wordReady [] [2] ∧ s.mayBind 0 = true ∧ s.owner 0 = some 1 ∧ (s.asid 0).live = true ∧
      (s.subp 0).part = 1 ∧ s.contextsOf 1 none < mapGet 0 (s.part 1).quotas 1 ∧ s.contextsOf 1 (some 0) < mapGet 0 (s.subp 0).quotas 1 ∧
      (s.queue 0).open_ = false ∧ (s.queue 0).closing = false ∧ s.taskOf 0 = none ∧ s.region? 0 = none := by
  unfold State.memReady State.wordReady; decide +kernel
theorem witness_Queues_refused : (((opening 0).modPart 1 fun x => { x with rights := 0 }).modCore 0 fun c => { c with level := 1 }).mayBind 0 = false ∧
    ((opening 5).asid 5).live = false := by decide +kernel
theorem test_tqopen : after (.tqopen 2 1) (opening 0) (fun t => ((t.core 0).reg 2, (t.queue 0).open_, (t.queue 0).gen)) =
    some (4096, true, 1) := by decide +kernel
theorem test_tqclose : after (.tqclose 2) (submitting recHead) (fun t => ((t.queue 0).open_, (t.queue 0).closing)) = some (false, false) := by
  decide +kernel
theorem test_tjoin_unknown : regAfter (.tjoin 2 1) (opening 0) 2 = some 3 ∧ regAfter (.tself 2) (opening 0) 2 = some (BitVec.allOnes 64) := by
  decide +kernel

/-- A region task of `2 ^ lgn` tiles that runs on tile 0. -/
def task : Task := { (default : Task) with id := 0x1000000, rec_ := recHead :: List.replicate 15 0, phase := .running }
/-- Its region. -/
def region (lgn : Nat) : Region := { (default : Region) with task := 0x1000000, lgn := lgn }
/-- A device in which it runs, with its lead core at task level. -/
def tasked (lgn : Nat) : State :=
  { (submitting recHead).modCore 0 fun c => { c with level := 3, task := some 0x1000000 } with
    tasks := [task], regions := [(0, region lgn)] }
theorem witness_TasksEnd : let s := tasked 1
    s.memReady [] [] ∧ s.region? 0 = some (region 1) ∧ (s.self.ocLd, s.self.ocSt, s.self.ocCp, s.self.ocTl) = (0, 0, 0, 0) ∧
      ∀ t ∈ (region 1).ranks, (s.core t).wake = none ∧ (s.core t).helper = false := by
  unfold State.memReady State.wordReady; decide +kernel
theorem witness_TasksEnd_helper : let s := (tasked 1).modCore 1 fun c => { c with helper := true, mode := .running }
    { s with foc := ⟨1, 0, 0⟩ }.region? 1 = none ∧ ({ s with foc := ⟨1, 0, 0⟩ }.self).helper = true ∧ (running []).region? 0 = none ∧
      (running []).self.helper = false := by decide +kernel
theorem test_tend : after .tend (tasked 0) (fun t => (t.regions.length, t.tasks.length, (t.core 0).mode)) = some (0, 0, .stopped) ∧
    after .tend (running []) (fun t => ((t.core 0).trap 0).cause) = some 6 := by decide +kernel

theorem witness_HelpersAndJoins : let s := tasked 1
    s.region? 0 = some (region 1) ∧ (s.core 1).mode = .stopped ∧ (s.core 1).wake = none ∧ s.releases 0 = [] ∧
      (running []).region? 0 = none := by decide +kernel
theorem test_tkWakeWrite : after (.tkWakeWrite (0x40 + 2 ^ 32)) (tasked 1) (fun t => (t.core 1).wake) = some (some (0x40, [])) ∧
    after (.tkWakeWrite 0x40) (tasked 1) (fun t => ((t.core 0).trap 0).cause) = some 6 := by decide +kernel
/-- A helper core about to start at offset 0x40. -/
def waking : State := { (tasked 1).modCore 1 fun c => { c with wake := some (0x40, []) } with foc := ⟨1, 0, 0⟩ }
theorem witness_HelpersAndJoins_starts : let s := waking
    s.self.wake = some (0x40, []) ∧ s.regionOf 1 = some (region 1) ∧ (s.fab 1).frozen = false ∧ s.taskOf 0x1000000 = some task := by
  decide +kernel
theorem test_helperCoreStart : after .helperCoreStart waking (fun t => ((t.core 1).pc, (t.core 1).level, (t.core 1).reg 2, (t.core 1).helper)) =
    some (0x40, 3, 0x1000000, true) := by decide +kernel
/-- A task that waits for a join counter at a partition-physical address. -/
def joining (p : Nat) : State :=
  let k : Task := { task with phase := .accepted, rec_ := recHead :: p :: List.replicate 14 0 }
  { (submitting recHead) with now := 64, foc := ⟨0x1000000, 0, 0⟩, tasks := [k] }
theorem witness_HelpersAndJoins_join : let s := joining 0x7000000000100000
    ((s.taskOf 0x1000000).map fun t => (t.phase, t.joinRead, ptrFormOk (recJoin t.rec_))) = some (.accepted, false, true) ∧
      ((joining 0x8000000000000000).taskOf 0x1000000).map (fun t => ptrFormOk (recJoin t.rec_)) = some false ∧
      s.stageC (some 1) 0 0x100000 = some 0x100000 ∧ (∀ t ∈ s.tasks, t.accepted + 64 ≤ s.now ∧ t.before = []) ∧
      s.isLost (.dram 0 0x100000) = false ∧ s.locBad (.dram 0 0x100000) 4 = [] := by decide +kernel
theorem test_joinCounterRead : after .joinCounterRead (joining 0x7000000000100000) (fun t => (t.tasks.map fun k => (k.joinRead, k.join))) =
    some [(true, some 64)] ∧ after .joinCounterRead (joining 0x8000000000000000) (fun t => t.tasks.length) = some 0 := by decide +kernel

/-! ### Cells -/

/-- A firing of the first actor of cell 0 of tile 0 at word 0 of its store, in a cycle, with some registers. -/
def firing (regs : NMap Lanes) : Firing := { (default : Firing) with regs := regs }
/-- A cell with that firing: a fused size of 2 ^ lgf, an exception policy (R137), a word at 0, and the channel entries and items of some ports. -/
def fcell (ppol : Nat) (regs : NMap Lanes) (w : Word) : Cell := { Cell.reset with
  store := [(0, w)], actors := [{ (default : Actor) with len := 8, ppol := ppol, rates := [(0, 2), (8, 1), (16, 1)] }],
  chans := [(0, 4), (8, 4), (16, 4)], firing := some (firing regs) }
/-- The device with that cell. -/
def fired (c : Cell) : State := State.reset.modCell 0 0 fun _ => c
/-- The context of the firing. -/
def ctx (c : Cell) : OpCtx := ⟨0, 0, c, c.actors.getD 0 default, c.firing.getD default⟩
theorem witness_fires : (fired (fcell 0 [] 0)).fires (ctx (fcell 0 [] 0)) := by
  refine ⟨rfl, rfl, ?_, ?_, ?_, rfl, by decide +kernel, fun t h => by cases h⟩ <;> decide +kernel
/-- What a register of the firing holds after a word. -/
def laneAfter (i : Instr) (s : State) (v : Nat) : Option Lanes := after i s fun t => ((t.cell 0 0).firing.map fun f => f.reg 8 v).getD []
/-- Two registers with their lanes, the others zero. -/
def lanes2 (a b : Word) : NMap Lanes := [(1, List.replicate 8 a), (2, List.replicate 8 b)]
theorem witness_LaneIntegers : ∃ (s : State) (x : OpCtx), s.fires x := ⟨_, _, witness_fires⟩
theorem test_iadd_halves : laneAfter (.iadd 3 1 2 1 0) (fired (fcell 0 (lanes2 0x0001FFFF 0x00010001) 0)) 3 =
    some (List.replicate 8 0x00020000) := by decide +kernel
theorem test_imin_signed : laneAfter (.imin 3 1 2 0 2 0) (fired (fcell 0 (lanes2 0x80017F00 0x01FF8000) 0)) 3 =
    some (List.replicate 8 0x80FF8000) := by decide +kernel
theorem test_movi : laneAfter (.movi 3 0xFFF 0) (fired (fcell 0 [] 0)) 3 = some (List.replicate 8 0xFFFFFFFF) := by decide +kernel
theorem test_lshf : laneAfter (.lshf 3 1 1 0) (fired (fcell 0 [(1, [1, 2, 3, 4, 5, 6, 7, 8])] 0)) 3 = some [0, 1, 2, 3, 4, 5, 6, 7] := by
  decide +kernel
theorem test_icmp_mask : after (.icmp 1 1 2 2 1 0) (fired (fcell 0 (lanes2 0xFFFF0001 0x00000002) 0)) (fun t =>
    (t.cell 0 0).firing.map fun f => f.mask 8 1) = some (some (List.replicate 8 true)) := by decide +kernel
-- the firing of fragment 2 (R32): 1.5 + 2.25 = 3.75
theorem test_fadd : laneAfter (.fadd 3 1 2 0 0) (fired (fcell 0 (lanes2 0x3FC00000 0x40100000) 0)) 3 = some (List.replicate 8 0x40700000) := by
  decide +kernel
theorem test_fmul_invalid : laneAfter (.fmul 3 1 2 0 0) (fired (fcell 0 (lanes2 0x7F800000 0) 0)) 3 = some (List.replicate 8 0x7FC00000) := by
  decide +kernel
theorem test_fcmp_nan : after (.fcmp 1 1 2 6 0 0) (fired (fcell 0 (lanes2 0x7FC00000 0) 0)) (fun t =>
    (t.cell 0 0).firing.map fun f => f.mask 8 1) = some (some (List.replicate 8 true)) := by decide +kernel
-- pack.f8a v3, v1, 2, rne, sat of 470.0 gives 0x7E in byte 2 (R132)
theorem test_pack : laneAfter (.pack 3 1 0 3 2 1) (fired (fcell 0 (lanes2 0x43EB0000 0) 0)) 3 = some (List.replicate 8 0x007E0000) := by
  decide +kernel
theorem test_unpk : laneAfter (.unpk 3 1 1 1) (fired (fcell 0 (lanes2 0x3C004000 0) 0)) 3 = some (List.replicate 8 0x3F800000) := by decide +kernel
theorem test_red_sum : laneAfter (.red 3 1 1 0 0 0) (fired (fcell 0 (lanes2 5 0) 0)) 3 = some (List.replicate 8 40) := by decide +kernel
theorem witness_LaneConversions : fmtOfCode 3 ≠ none ∧ (2 : BitVec 2).toNat * 8 < 32 ∧ ∃ L < (ctx (fcell 0 [] 0)).lanes,
    (ctx (fcell 0 [] 0)).selects 0 L = true := by
  refine ⟨by decide, by decide, 0, by decide, by decide⟩

/-! ### Firings and channels -/

/-- A cell without a firing whose input i0 holds some items, and whose two actors take one item each. -/
def idle (l : List Item) : State := State.reset.modCell 0 0 fun c => { c with
  actors := [{ (default : Actor) with len := 4, rates := [(0, 2), (8, 1)] }, { (default : Actor) with base := 4, len := 4, rates := [(0, 1)] }],
  chans := [(0, 4), (8, 4)], fifo := [(0, l.map fun i => ⟨i, 0⟩)] }
theorem witness_Firings_start : let c := (idle [.data [5] 0]).cell 0 0
    c.firing = none ∧ c.frozen = false ∧ c.readyAt ≤ 0 ∧ (idle [.data [5] 0]).waveOf 0 0 = none ∧
      (idle [.data [5] 0]).preloading 0 0 = false ∧ c.avail 0 0 = 1 ∧ (∀ a ∈ c.actors, a.rates.Pairwise fun d e => d.1 < e.1) := by decide +kernel
theorem test_firingStart : after .firingStart (idle [.data [5] 0]) (fun t => (t.cell 0 0).firing.map fun f => (f.actor, f.pc)) =
    some (some (1, 4)) ∧ after .firingStart (idle [.data [5] 0, .marker 1]) (fun t => (t.cell 0 0).firing.map Firing.actor) = some (some 0) ∧
    after .firingStart (idle []) (fun t => (t.cell 0 0).firing.isSome) = some false := by decide +kernel
theorem witness_Firings_overrun : let s := { (fired (fcell 0 [] 0)) with now := 4096 }
    ∃ f, (s.cell 0 0).firing = some f ∧ f.dead = false ∧ f.first + 4096 ≤ s.now := ⟨_, rfl, rfl, by decide⟩
theorem test_firingOverrun : after .firingOverrun { (fired (fcell 0 [] 0)) with now := 4096 } (fun t =>
    ((t.cell 0 0).firing.map Firing.dead, (t.core 0).events.map fun e => e.cause)) = some (some true, [11]) := by decide +kernel
/-- A firing with mask 1 set in lane 3 only, and one item at i0. -/
def masked : State := (fired (fcell 0 [] 0)).modCell 0 0 fun c => { c with
  firing := some { firing [] with pc := 2, masks := [(1, (List.range 8).map (· == 3))], loops := [(0, (1, 4, 2)), (1, (2, 2, 1))] },
  fifo := [(0, [⟨.data [5] 0, 0⟩, ⟨.marker 2, 0⟩])] }
/-- Where the firing stands after a word. -/
def pcAfter (i : Instr) (s : State) : Option Nat := after i s fun t => ((t.cell 0 0).firing.map Firing.pc).getD 4096
theorem test_br : pcAfter (.br 1 5 0x3FF) masked = some 1 ∧ pcAfter (.br 3 5 0x3FF) masked = some 3 := by decide +kernel
theorem test_loop_body_ends : after .nopOp masked (fun t => (t.cell 0 0).firing.map fun f => (f.pc, mapGet (0, 0, 0) f.loops 0, mapGet (0, 0, 0) f.loops 1)) =
    some (some (3, (1, 4, 2), (2, 2, 0))) := by decide +kernel
theorem test_cloop_zero : pcAfter (.cloop 0 0 3 0) masked = some 6 := by decide +kernel
theorem test_fend : after .fend masked (fun t => ((t.cell 0 0).firing.isSome, ((t.cell 0 0).port 0).length)) = some (false, 0) := by
  decide +kernel
theorem witness_Firings_fend : (ctx (fcell 0 [] 0)).f.maccs = [] ∧ (ctx (fcell 0 [] 0)).a.ports.Nodup := by decide +kernel

theorem witness_ChannelWords : let x := ctx ((masked).cell 0 0)
    x.a.rate 0 - mapGet 0 x.f.taken 0 = 2 ∧ (∀ j < 2, ((x.c.port 0)[0 + j]?).map Held.item = some (if j = 0 then .data [5] 0 else .marker 2)) ∧
      (masked).activeImage 0 = none ∧ entWired (x.c.entry 16) = false ∧ x.a.rate 8 - mapGet 0 x.f.sent 8 = 1 := by decide +kernel
theorem test_recv_two : after (.recv 4 0 1 2 6 0) masked (fun t => (t.cell 0 0).firing.map fun f => (f.reg 8 4, mapGet 0 f.taken 0, mapGet 0 f.lastTag 0)) =
    some (some ([5, 0, 0, 0, 0, 0, 0, 0], 2, 2)) := by decide +kernel
theorem test_recv_beyond : after (.recv 4 0 2 0 0 0) masked (fun t => (t.core 0).events.map Event.cause) = some [11] := by decide +kernel
theorem test_peek : after (.peek 4 0 0 0 0 0) masked (fun t => (t.cell 0 0).firing.map fun f => (f.reg 8 4, mapGet 0 f.taken 0)) =
    some (some ([5, 0, 0, 0, 0, 0, 0, 0], 0)) := by decide +kernel
theorem test_send : after (.send 1 8 0 0 0 0) (fired (fcell 0 (lanes2 3 0) 0)) (fun t => ((t.cell 0 0).port 8).map Held.item) =
    some [.data [0x0000000300000003000000030000000300000003000000030000000300000003] 0] := by decide +kernel
theorem test_mklv : after (.mklv 8 5) (fired (fcell 0 [] 0)) (fun t => ((t.cell 0 0).port 8).map Held.item) = some [.marker 5] := by decide +kernel
theorem test_toks : after (.toks 0 1) (fired (fcell 0 [] 0)) (fun t => (t.cell 0 0).firing.map fun f => mapGet 0 f.sent 16) = some (some 1) ∧
    after (.toks 1 1) (fired (fcell 0 [] 0)) (fun t => (t.core 0).events.map Event.cause) = some [11] := by decide +kernel
-- a firing that has last taken a marker of level 3 from i0 sends it on, unless the word asks for a higher level (R111)
theorem test_sendm : let s := (fired (fcell 0 [] 0)).modCell 0 0 fun c => { c with firing := some { firing [] with lastTag := [(0, 3)] } }
    after (.sendm 1 8 0 3 0) s (fun t => ((t.cell 0 0).port 8).map Held.item) = some [.marker 3] ∧
    after (.sendm 1 8 0 4 0) s (fun t => ((t.cell 0 0).port 8).map Held.item) = some [] := by decide +kernel

/-! ### Memory tiles -/

/-- A firing over memory tile q0 with a map of one region of 96 words at word 0, in a mode. -/
def tile (mode : Nat) (tol : Bool) (regs : NMap Lanes) (mem : Memory) (bad : List Nat) : State :=
  (fired (fcell 0 regs 0)).modMtile 0 0 fun m => { m with
    mapped := true, map := [96 + (if tol then 2 ^ 61 else 0) + mode * 2 ^ 62], mem := mem, poisoned := bad }
/-- Lane L of register 1 holds L, and register 2 a version. -/
def lanesOf (v : Nat) : NMap Lanes := [(1, (List.range 8).map (BitVec.ofNat 32)), (2, List.replicate 8 (BitVec.ofNat 32 v)),
  (3, (List.range 8).map fun L => BitVec.ofNat 32 (100 + L))]
theorem witness_TileWords : let m := (tile 0 true (lanesOf 0) [] [2]).mtile 0 0
    (∀ L < 8, m.regionOf L = some ⟨0, 0, true, 0, 96⟩) ∧ m.poisoned.contains 2 = true ∧ (tile 0 true (lanesOf 0) [] [2]).owner 0 = none := by
  decide +kernel
theorem witness_TileWords_fails : let m := (tile 1 false (lanesOf 0) [] []).mtile 0 0
    m.regionOf 96 = none ∧ m.regionOf 0 = some ⟨0, 1, false, 0, 96⟩ := by decide +kernel
theorem test_tld_tolerates : laneAfter (.tld 4 1 0 1 0) (tile 0 true (lanesOf 0) (writeVal [] 0 32 (7 + 8 * 2 ^ 64)) [2]) 4 =
    some [7, 0, 0, 0, 0, 0, 0, 0] := by decide +kernel
theorem test_tst : after (.tst 3 1 0 1 0) (tile 0 false (lanesOf 0) [] [2]) (fun t =>
    ((t.mtile 0 0).word 7, (t.mtile 0 0).poisoned)) = some (107, []) := by decide +kernel
theorem test_tld_outside : after (.tld 4 1 0 0 0) (tile 0 false [(1, List.replicate 8 90)] [] []) (fun t =>
    (t.core 0).events.map fun e => (e.cause, e.tval.toNat % 8)) = some [(6, 0)] := by decide +kernel
-- versioned words (R151, R154): the data of version 6 of index 0 lies in word 0, the tags in word 2
theorem witness_TileWords_versions : let m := (tile 1 false (lanesOf 6) [] []).mtile 0 0
    ∀ L < 8, m.regionOf L = some ⟨0, 1, false, 0, 96⟩ ∧ L < 96 / 3 ∧ m.slot 0 L 6 = (false, 0) := by decide +kernel
theorem test_tstv : after (.tstv 3 1 2 0 0) (tile 1 false (lanesOf 6) [] []) (fun t =>
    ((t.mtile 0 0).word 0, (t.mtile 0 0).word 2, (t.mtile 0 0).word 21)) = some (100, 0x00010006, 107) := by decide +kernel
theorem test_tldv_waits : after (.tldv 4 1 2 0 0) (tile 1 false (lanesOf 6) [] []) (fun t => (t.cell 0 0).firing.map Firing.waiting) =
    some (some true) := by decide +kernel
/-- Every index of the region's first eight holds version 6. -/
def filled : Memory := (List.range 8).foldl (fun m L => writeVal (writeVal m (12 * L) 4 (40 + L)) (12 * L + 8) 4 0x10006) []
theorem test_tldv : laneAfter (.tldv 4 1 2 0 0) (tile 1 false (lanesOf 6) filled []) 4 = some [40, 41, 42, 43, 44, 45, 46, 47] := by
  decide +kernel
theorem test_tldv_old : after (.tldv 4 1 2 0 0) (tile 1 false (lanesOf 4) filled []) (fun t => (t.core 0).events.map Event.cause) = some [8] := by
  decide +kernel
theorem test_trcl : after (.trcl 1 2 0 0 0) (tile 1 false (lanesOf 6) filled []) (fun t => ((t.mtile 0 0).word 2, t.later)) =
    some (0, []) ∧ after (.trcl 1 2 0 1 0) (tile 1 false (lanesOf 4) filled []) (fun t => ((t.mtile 0 0).word 2, t.later, (t.mtile 0 0).rmiss)) =
    some (0x10006, [.miss 0 0], 0) := by decide +kernel
/-- A load of versions that waits, and may be evaluated again. -/
def waiting_ (mem : Memory) : State := (tile 1 false (lanesOf 6) mem []).modCell 0 0 fun c => { c with
  store := [(0, encode (.tldv 4 1 2 0 0))], firing := some { firing (lanesOf 6) with waiting := true } }
theorem witness_TileWords_resume : decodeOperation (mapGet 0 ((waiting_ filled).cell 0 0).store 0) = .ok (.tldv 4 1 2 0 0) := by rfl
theorem test_versionedWaitResume : laneAfter .versionedWaitResume (waiting_ filled) 4 = some [40, 41, 42, 43, 44, 45, 46, 47] := by decide +kernel

/-- The window of the example of R163: rows of NX FP32 elements, NY rows, hy and hx 1, and an edge policy for every side. -/
def window (nx ny pol const : Nat) : Nat :=
  nx * 2 ^ 80 + ny * 2 ^ 64 + 2 ^ 42 + 2 ^ 40 + pol * 2 ^ 38 + pol * 2 ^ 36 + pol * 2 ^ 34 + pol * 2 ^ 32 + const * 2 ^ 96
/-- A firing over a memory tile with a window of 8 columns and 4 rows in region 0, its rows before a count present with version equal to their number. -/
def windowed (pol : Nat) (rows : Nat) (centre : Nat) (regs : NMap Lanes) : State :=
  (tile 1 false regs ((List.range rows).foldl (fun m y => (List.range 8).foldl (fun m j =>
    let k := y / 2 % 2 * 8 + j
    writeVal (writeVal m (12 * k + 4 * (y % 2)) 4 (10 * y + j)) (12 * k + 8) 4
      (readVal m (12 * k + 8) 4 + (2 ^ 16 + y * 256 ^ (y % 2)) * (if y % 2 = 0 then 1 else 2) - (if y % 2 = 0 then 0 else y * 256))) m) []) []).modMtile 0 0
    fun m => { m with wins := [window 8 4 pol 77], win := [(0, ⟨centre, rows, 0⟩)] }
theorem witness_Windows_source : let w := windowOf (window 8 4 2 77)
    0 < w.nx ∧ 0 < w.ny ∧ w.npol = 2 ∧ (0 : Int) ≤ 2 * (4 - 1) - 5 := by decide
-- lanes below column 0 take the constant, the others the row's words (R163)
theorem test_wld_const : laneAfter (.wld 4 1 0 0 3 2 0) (windowed 0 2 0 []) 4 = some [77, 0, 1, 2, 3, 4, 5, 6] := by decide +kernel
-- row -1 by reflection is row 1
theorem test_wld_reflects : laneAfter (.wld 4 1 0 0 2 4 0) (windowed 2 2 0 []) 4 = some [11, 12, 13, 14, 15, 16, 17, 16] := by decide +kernel
theorem test_wld_waits : after (.wld 4 1 0 0 4 3 0) (windowed 1 2 1 []) (fun t => (t.cell 0 0).firing.map Firing.waiting) = some (some true) := by
  decide +kernel
theorem test_wadv : after (.wadv 0 0) (windowed 1 2 1 []) (fun t => ((t.mtile 0 0).winState 0, (t.mtile 0 0).slot 0 0 0, (t.mtile 0 0).slot 0 0 1)) =
    some (⟨2, 2, 0⟩, (false, 0), (true, 1)) := by decide +kernel
/-- A row's items at the local output of the router that leads to a window. -/
def arriving (i : Item) (rows : Nat) : State := (windowed 1 rows 0 []).modRouter 0 fun t => { t with codes := [0x3000, 0x3000], outq := [(0, [⟨i, 0⟩])] }
theorem witness_Windows_arrival : let s := arriving (.data [1] 0) 2
    (s.router 0).dest 0 / 4096 % 16 = 3 ∧ s.waitingAt 0 0 = some (.data [1] 0) ∧
      ∀ i < 8, ((s.mtile 0 0).slot 0 ((windowOf (window 8 4 1 77)).index 2 i) 2).1 = false := by decide +kernel
theorem test_windowRowArrival : after .windowRowArrival (arriving (.data [5 + 6 * 2 ^ 32] 0) 2) (fun t =>
    ((t.mtile 0 0).word 24, (t.mtile 0 0).word 27, (t.mtile 0 0).winState 0)) = some (5, 6, ⟨0, 3, 0⟩) := by decide +kernel

/-! ### Queue regions -/

/-- A firing beside a memory tile whose region 0 is a queue of two items of eight words, with some items in it. -/
def queued (l : List QEntry) (mem : Memory) : State := (tile 2 false (lanesOf 6) mem []).modMtile 0 0 fun m => { m with
  map := [16 + 2 * 2 ^ 62], queues := if l = [] then [] else [(0, ⟨0, l⟩)] }
theorem witness_QueueRegions : ((queued [] []).mtile 0 0).regionAt 0 2 = some ⟨0, 2, false, 0, 16⟩ ∧
    ((queued [] []).mtile 0 0).regionAt 1 2 = none := by decide +kernel
theorem test_send_queue : after (.send 3 20 0 0 0 0) (queued [] []) (fun t => (((t.mtile 0 0).queue 0).items, (t.mtile 0 0).word 7)) =
    some ([⟨0, 0, 1, 0, 1⟩], 107) := by decide +kernel
theorem test_send_queue_stalls : after (.send 3 20 0 0 0 0) (queued [⟨0, 0, 1, 0, 0⟩, ⟨0, 0, 1, 0, 0⟩] []) (fun t =>
    ((t.cell 0 0).firing.map Firing.pc, ((t.mtile 0 0).queue 0).items.length)) = some (some 0, 2) := by decide +kernel
theorem test_recv_queue : after (.recv 4 20 0 0 0 0) (queued [⟨0, 0, 1, 0, 0⟩] (writeVal [] 4 4 9)) (fun t =>
    (((t.mtile 0 0).queue 0), (t.cell 0 0).firing.map fun f => f.reg 8 4)) = some (⟨1, []⟩, some [0, 9, 0, 0, 0, 0, 0, 0]) := by decide +kernel
/-- A stream's item at the local output that leads to the queue, and the queue as the source of local input 0. -/
def streaming (i : List Item) (l : List QEntry) (arg : Nat) : State := { (queued l (writeVal [] 4 4 9)).modRouter 0 fun t => { t with
  codes := [0x4000, 0x4000], outq := [(0, i.map fun i => ⟨i, 0⟩)] } with foc := ⟨0, 0, arg⟩ }
theorem witness_QueueRegions_streams : let s := streaming [.data [5] 0] [⟨0, 0, 1, 0, 0⟩] 0
    (s.router 0).dest 0 / 4096 % 16 = 4 ∧ s.waitingAt 0 0 = some (.data [5] 0) ∧ (s.fab 0).queueSize 0 0 = 1 ∧
      (s.router 0).source 0 / 4096 % 16 = 4 ∧ (s.acceptRouter 0 4 0 (.data [9 * 2 ^ 32] 0)).isSome = true := by decide +kernel
theorem test_streamQueueAccess : after .streamQueueAccess (streaming [.data [5] 0] [] 0) (fun t =>
    (((t.mtile 0 0).queue 0).items, (t.mtile 0 0).word 0)) = some ([⟨0, 0, 1, 0, 1⟩], 5) ∧
    after .streamQueueAccess (streaming [] [⟨0, 0, 1, 0, 0⟩] 1) (fun t => (((t.router 0).buf 4).map Held.item, (t.mtile 0 0).queue 0)) =
      some ([.data [9 * 2 ^ 32] 0], ⟨1, []⟩) := by decide +kernel

/-! ### Matrix array and utility nodes -/

/-- A firing beside an array whose active plane holds int8 weights 3 at (0, 0), -2 at (1, 0) and 4 at (0, 1), and int8 operands 5 and 6. -/
def matrix (w : PlaneState) (rows : NMap AccRow) : State := (fired (fcell 0 [(1, [0x00000605])] 0)).modMx 0 fun g => { g with
  active := ⟨w, 6, false, [(0, 0xFE03), (16, 4)]⟩, rows := rows }
theorem witness_MatrixWords : let s := matrix .full []
    (s.mx 0).loader = none ∧ (s.mx 0).shadow.state = .empty ∧ (∀ w < 64, ((s.mtile 0 0).regionOf w).map MapRegion.mode = some 0) := by
  decide +kernel
theorem test_macc : after (.macc 1 2 0 0 6) (matrix .full []) (fun t => let w := mapGet AccRow.empty (t.mx 0).rows 2
    (w.kind, w.tag, w.vals.take 3, w.vals.length)) = some (2, some none, [3, 20, 0], 128) := by decide +kernel
theorem test_macc_empty : after (.macc 1 2 0 0 6) (matrix .empty []) (fun t =>
    ((t.core 0).events.map fun e => (e.cause, e.tval.toNat % 8), (t.mx 0).rows.length)) = some ([(10, 1)], 0) := by decide +kernel
theorem test_macc_kinds : after (.macc 1 2 0 0 6) (matrix .full [(2, ⟨1, some none, []⟩)]) (fun t =>
    (t.core 0).events.map fun e => (e.cause, e.tval.toNat % 8)) = some [(10, 4)] := by decide +kernel
/-- A row of int32 values to be drained, with its descriptor in register 2. -/
def draining (d : Nat) : State := (fired (fcell 0 [(2, [BitVec.ofNat 32 d])] 0)).modMx 0 fun g => { g with
  rows := [(3, ⟨2, some none, (List.range 128).map fun c => BitVec.ofNat 32 (1000 + c)⟩)] }
theorem test_mast : after (.mast 8 2) (draining (3 + 9 * 2 ^ 11)) (fun t =>
    ((t.cell 0 0).firing.map fun f => (lane (f.reg 8 8) 1, lane (f.reg 8 23) 7), (t.mx 0).rows.length)) = some (some (1001, 1127), 0) := by
  decide +kernel
theorem test_mast_keeps : after (.mast 8 2) (draining (3 + 2 ^ 10 + 9 * 2 ^ 11)) (fun t => (t.mx 0).rows.length) = some 1 ∧
    after (.mast 8 2) (draining (3 + 0 * 2 ^ 11)) (fun t => (t.core 0).events.map fun e => (e.cause, e.tval.toNat % 8)) = some [(10, 5)] := by
  decide +kernel
theorem test_mastPreset : after (.mastPreset 8 2) (draining (4 + 9 * 2 ^ 11)) (fun t =>
    let w := mapGet AccRow.empty (t.mx 0).rows 4
    (w.kind, w.vals.length)) = some (2, 128) := by decide +kernel
theorem test_mwsw : after .mwsw (matrix .full []) (fun t => ((t.mx 0).active.state, (t.mx 0).shadow.state)) = some (.empty, .full) := by
  decide +kernel
theorem test_mwld : after (.mwld 1 1 0 6) (matrix .full []) (fun t => ((t.mx 0).shadow, (t.mx 0).loader.map Loader.base)) =
    some (⟨.loading, 6, true, []⟩, some 0x605) := by decide +kernel
theorem test_planeLoadComplete : let s := { (matrix .full []).modMx 0 fun g => { g with
      shadow := ⟨.loading, 6, false, []⟩, loader := some ⟨0, 0, 0, 2048, 129, true⟩ } with now := 129 }
    after .planeLoadComplete s (fun t => (t.mx 0).shadow.state) = some .poisoned := by decide +kernel
-- a load reads sixteen words in a cycle (R221)
theorem test_loaderReads : let s := { (matrix .full []).modMx 0 fun g => { g with
      shadow := ⟨.loading, 6, false, []⟩, loader := some ⟨0, 0, 0, 0, 1, false⟩ } with now := 1 }
    ((s.loaderReads 0).mx 0).loader = some ⟨0, 0, 0, 16, 2, false⟩ := by decide +kernel
theorem test_maccComplete : let s := (fired (fcell 0 [] 0)).modCell 0 0 fun c => { c with firing := some { firing [] with maccs := [⟨1, 6, 5⟩] } }
    after .maccComplete { s with now := 7 } (fun t => ((t.cell 0 0).firing.map fun f => f.maccs.length, mapGet 0 (t.cell 0 0).cond 0)) =
      some (some 0, 5) := by decide +kernel

/-- A firing beside utility node 0 with a descriptor. -/
def utility (desc : Nat) (y : Util) (regs : NMap Lanes) : State :=
  (fired (fcell 0 regs 0)).modFab 0 fun f => { f with ux0 := { y with desc := desc } }
/-- The slot switch of the example of R193, with dests 3 and cap 2. -/
def slots (free : NMap Nat) (seq choice : Nat) : State :=
  utility (4 * 2 ^ 61 + 3 * 2 ^ 48 + 2 * 2 ^ 40) { Util.reset with free := free, seq := seq } [(1, [BitVec.ofNat 32 choice])]
theorem witness_UtilityWords : let y := ((slots [(1, 0)] 2 0x21).fab 0).ux 0
    y.pend.length < 2 ∧ y.inA.length < 2 ∧ y.inB.length < 2 ∧ y.inA.length + 1 ≤ 2 ∧ (y.refill 1 0).outY.length < 1 ∧ y.dests = 3 ∧ y.cap = 2 := by
  decide +kernel
theorem test_slot : laneAfter (.slot 1 0 0) (slots [] 0 0x81) 1 = some [0x00000100, 0x00020102, 0, 0, 0, 0, 0, 0] ∧
    laneAfter (.slot 1 0 0) (slots [(1, 0)] 2 0x21) 1 = some [0x00024200, 0x00010002, 0, 0, 0, 0, 0, 0] := by decide +kernel
theorem test_slot_drops : laneAfter (.slot 1 0 0) (slots [(1, 0), (2, 1)] 3 0x81) 1 = some [0x00038000, 0x00010002, 0, 0, 0, 0, 0, 0] := by
  decide +kernel
theorem test_isect : after (.isect 1 0 0 1) (utility 0 Util.reset (lanes2 3 0)) (fun t => ((t.fab 0).ux0.inB.length, (t.fab 0).ux0.inA.length)) =
    some (1, 0) := by decide +kernel
theorem test_sacc_close : after (.sacc 1 0 4) (utility 0 Util.reset []) (fun t => (t.fab 0).ux0.inA.map Held.item) = some [.marker 4] := by
  decide +kernel
theorem test_seqt_full : after (.seqt 1 0 4) (utility 0 { Util.reset with inA := [⟨.marker 1, 0⟩, ⟨.marker 1, 0⟩] } []) (fun t =>
    ((t.cell 0 0).firing.map Firing.pc, (t.fab 0).ux0.inA.length)) = some (some 0, 2) := by decide +kernel

/-- A pair of R190 as 64 bits, and a token of pairs, padded. -/
def pair (c v : Nat) : Nat := c + v * 2 ^ 32
theorem witness_UtilityNodes : let y := ((utility (3 * 2 ^ 61 + 9 * 2 ^ 57) { Util.reset with inA := [⟨.data [pair 4 5] 9, 0⟩] } []).fab 0).ux 0
    y.mode = 3 ∧ (y.refill 1 0).pend = [] ∧ accPairs 9 9 y.sums [(4, 5)] = .ok [(4, 5)] := by refine ⟨?_, ?_, rfl⟩ <;> decide +kernel
theorem test_cornerTurnBlock : after .cornerTurnBlock (utility (2 ^ 61) { Util.reset with
      inA := [⟨.data [8] 0, 0⟩], block := (List.range 7).map (· + 1) } []) (fun t => ((t.fab 0).ux0.pend.length, (t.fab 0).ux0.pend.head?)) =
    some (8, some (.data [packElems 32 [1, 2, 3, 4, 5, 6, 7, 8]] 0)) := by decide +kernel
theorem test_intersectMatch : after .intersectMatch (utility (2 * 2 ^ 61) { Util.reset with
      inA := [⟨.marker 2, 0⟩], openA := [(1, 10), (4, 40)], closedB := [([(4, 7), (5, 8)], 1, 0)] } []) (fun t => (t.fab 0).ux0.pend) =
    some [.data [packElems 32 [4, 40, 7, 0, 0xFFFFFFFF, 0, 0, 0]] 0, .marker 2] := by decide +kernel
theorem test_sparseAccAdd : after .sparseAccAdd (utility (3 * 2 ^ 61 + 9 * 2 ^ 57) { Util.reset with
      inA := [⟨.data [pair 4 5 + pair 6 1 * 2 ^ 64 + pair 0xFFFFFFFF 0 * (2 ^ 128 + 2 ^ 192)] 9, 0⟩], sums := [(4, 2)] } []) (fun t =>
    (mapGet 0 (t.fab 0).ux0.sums 4, mapGet 0 (t.fab 0).ux0.sums 6)) = some (7, 1) := by decide +kernel
theorem test_reorder : let y := { Util.reset with inA := [⟨.data [3] 0, 0⟩], next := 2 }
    after .reorderArrival (utility (5 * 2 ^ 61) y []) (fun t => mapFind (t.fab 0).ux0.held 3) = some (some (.data [3] 0)) ∧
    after .reorderEmit (utility (5 * 2 ^ 61) { Util.reset with next := 3, held := [(3, .data [3] 0)] } []) (fun t =>
      ((t.fab 0).ux0.outY.map Held.item, (t.fab 0).ux0.next)) = some ([.data [3] 0], 4) := by decide +kernel

/-! ### Routers and scan engines -/

/-- A router with items at its local inputs 4 and 5, and with local outputs 0 and 1 (ports 4 and 5) that lead to address generators. -/
def routing (a b : List Item) (words : List Half) : State := State.reset.modRouter 0 fun t => { t with
  words := words, codes := [0x1000, 0x1000, 0x1001, 0x1001], inq := [(4, a.map fun i => ⟨i, 0⟩), (5, b.map fun i => ⟨i, 0⟩)] }
theorem witness_SwitchWords : let s := routing [.data [5] 0] [.barrier [(9, 0, 0)]] []
    s.routeHead 0 4 = some (.data [5] 0) ∧ s.routeHead 0 5 = some (.barrier [(9, 0, 0)]) ∧ s.routeHead 0 0 = none ∧
      (s.offer 0 4 (.data [5] 0)).isSome = true ∧ s.emitUtil 0 0 = none ∧ (s.acceptUtil 0 0 0 (.data [5] 0)).isSome = true ∧
      s.hasConsumer 0 7 = false ∧ s.hasConsumer 0 4 = true ∧ neighbour 0 3 = none ∧ neighbour 0 1 = some 1 := by decide +kernel
-- a neighbour consumes at port 3 what a word ROUTE of its router takes there; a barrier at port 4 ends where port 7 leads nowhere
theorem witness_SwitchWords_consumer : let s := (routing [.barrier [(9, 0, 0)]] [] []).modRouter 1 fun t => { t with words := [0x1310] }
    s.hasConsumer 0 1 = true ∧ (routing [] [] []).hasConsumer 0 1 = false ∧ s.regionOf 0 = none ∧
      s.headAt 0 4 = some (.barrier [(9, 0, 0)]) ∧ mapFind (s.router 0).barr 4 = none := by decide +kernel
/-- What is at local outputs 0 and 1, and left at input 4. -/
def routed (t : State) : List Item × List Item × Nat :=
  ((mapGet [] (t.router 0).outq 0).map Held.item, (mapGet [] (t.router 0).outq 1).map Held.item, ((t.router 0).buf 4).length)
theorem test_split : after (.split 4 0x30) (routing [.data [5] 0] [] []) routed = some ([.data [5] 0], [.data [5] 0], 0) := by decide +kernel
theorem test_route : after (.route 4 0x20) (routing [.data [5] 0] [] []) routed = some ([], [.data [5] 0], 0) := by decide +kernel
theorem test_merge_waits : after (.merge 4 5 4) (routing [] [.data [5] 0] []) routed = some ([], [], 0) ∧
    after (.merge 4 5 4) (routing [.marker 1] [] []) (fun t => mapGet 0 (t.router 0).merge 0) = some 1 := by decide +kernel
theorem test_deal : after (.deal 4 0x30) (routing [.data [5] 0] [] []) (fun t => (routed t, mapGet (0, 0) (t.router 0).deal 0)) =
    some (([.data [5] 0], [], 0), (1, 0)) := by decide +kernel
theorem test_turn : after (.turn 4 0 0 4) (routing [.data [5] 0] [] []) (fun t => (t.fab 0).ux0.inA.map Held.item) = some [.data [5] 0] := by
  decide +kernel
theorem test_barr : after (.barr 4 0x30) (routing [.barrier [(9, 0, 0)]] [.barrier [(8, 0, 0)]] [0x6430]) (fun t => (routed t).1) =
    some [.barrier [(8, 0, 0), (9, 0, 0)]] ∨
    after (.barr 4 0x30) (routing [.barrier [(9, 0, 0)]] [.barrier [(8, 0, 0)]] [0x6430]) (fun t => (routed t).1) =
    some [.barrier [(9, 0, 0), (8, 0, 0)]] := by decide +kernel
theorem test_barr_ends : after (.barr 7 0x10) (routing [.barrier [(9, 0, 0)]] [] []) (fun t => (routed t, (t.router 0).barr.length)) =
    some (([], [], 0), 0) := by decide +kernel
theorem test_hold : after (.hold 4 7) (routing [] [] []) (fun t => (t.router 0).depth 4) = some 7 := by decide +kernel

/-- A core beside a scan engine. -/
def scanning (g : Scan) (l : List (BitVec 5 × DWord)) : State := (running l).modScan 0 fun _ => g
theorem witness_ScanWords : let s := scanning Scan.reset [(1, 0x90)]
    s.memReady [1] [] ∧ s.memReady [] [1] ∧ s.memReady [1, 1] [1] ∧ (s.fab 0).compacts = false ∧ s.topRank 0 = true := by
  unfold State.memReady State.wordReady; decide +kernel
theorem test_scop : after (.scop 1) (scanning Scan.reset [(1, 0x90)]) (fun t => (t.scan 0).opw) = some (some 0x90) ∧
    after (.scop 1) (scanning Scan.reset [(1, 7)]) (fun t => (((t.core 0).trap 0).cause, ((t.core 0).trap 0).val.toNat % 8)) = some (18, 5) := by
  decide +kernel
/-- An engine that adds int32 elements outside the chain. -/
def adder : Scan := { Scan.reset with opw := some 0x90 }
theorem test_scgo : after (.scgo 3 1 2) (scanning adder [(1, 0x1000000000000100), (2, 40)]) (fun t =>
    ((t.scan 0).runs.map fun x => (x.byte, x.count), (t.core 0).ocTl)) = some ([(0x100, 40)], 1) := by decide +kernel
theorem test_scbar : after (.scbar 1) (scanning { adder with count := 8, carry := some [5] } [(1, 8)]) (fun t =>
    ((t.scan 0).ogen, (t.scan 0).last)) = some (1, some (0, some [5])) := by decide +kernel
theorem test_sccin : after (.sccin 1) ((scanning adder [(1, 0x4000000000000100)]).modCore 0 fun c => { c with
      mem := writeVal [] 256 32 (7 + 2 ^ 200) }) (fun t => (t.scan 0).carry) = some (some [7]) := by decide +kernel
theorem witness_ScanWords_sccin : let s (g : Scan) := (scanning g [(1, 0x4000000000000100)])
    (s adder).privPtr ((s adder).val 1) 32 256 ∧ (s adder).privGood 256 32 ∧ adder.opens = true ∧ adder.inq = [] ∧ (s adder).releases 0 = [] ∧
      adder.join = [] ∧ { adder with count := 3 }.opens = false ∧ { adder with count := 3, closes := [3] }.opens = true := by
  unfold State.privPtr State.privGood; decide +kernel
-- behind an input that waits, the record waits too
theorem test_sccin_waits : after (.sccin 1) (scanning { adder with inq := [.marker 1] } [(1, 0x4000000000000100)]) (fun t =>
    ((t.scan 0).carry, (t.scan 0).inq.length)) = some (none, 2) ∧
    after (.sccin 1) (scanning { adder with count := 3 } [(1, 0x4000000000000100)]) (fun t => ((t.core 0).trap 0).val.toNat % 8) = some 3 := by
  decide +kernel
-- a block of cell lanes that the engine has no room for stalls the SEND (R243)
theorem test_send_scan : let s (g : Scan) := (fired (fcell 0 [(1, [9, 8, 7, 6, 5, 4, 3, 2])] 0)).modScan 0 fun _ => g
    let sent (g : Scan) := after (.send 1 23 0 0 0 0) (s g) fun t => ((t.scan 0).inq.length, (t.cell 0 0).firing.map Firing.pc)
    (sent adder).map Prod.fst = some 1 ∧ sent { adder with inq := [.marker 1] } = some (1, some 0) ∧
      sent { adder with hold := [⟨1, 0, [⟨0, [3], false, false⟩], none⟩] } = some (0, some 0) := by decide +kernel
theorem test_sccout : after (.sccout 3) (scanning { adder with opw := some (0x90 + 0x200 * 2 ^ 32), last := some (2, some [7]) } []) (fun t =>
    ((t.core 0).reg 3, readVal (t.mtile 0 0).mem 0x200 4, readVal (t.mtile 0 0).mem 0x218 4)) = some (0x8000000000000002, 7, 0x102) := by decide +kernel
theorem test_scnp : after (.scnp 1 1 0) ((fired (fcell 0 [(1, [9, 8, 7, 6, 5, 4, 3, 2])] 0)).modScan 0 fun g => { g with
      compact := [1] }) (fun t => ((t.scan 0).outq.map Held.item, (t.scan 0).compact)) =
    some ([.data [packElems 32 [1, 9, 8, 7, 6, 5, 4, 3]] 0, .data [packElems 32 [2, 0, 0, 0, 0, 0, 0, 0]] 0, .marker 1], []) := by decide +kernel

-- eight int32 elements behind a carry of 100: running sums
theorem test_scanBlockCombine : let s := State.reset.modScan 0 fun _ => { adder with
      carry := some [100], inq := [.block 1 ((List.range 8).map fun i => [i])] }
    after .scanBlockCombine s (fun t => ((t.scan 0).outq.map Held.item, (t.scan 0).carry, (t.scan 0).count)) =
      some ([.data [packElems 32 [100, 101, 103, 106, 110, 115, 121, 128]] 9], some [128], 8) := by decide +kernel
theorem witness_ScanBlocks : let s := State.reset.modScan 0 fun _ => { adder with inq := [.block 1 ((List.range 8).map fun i => [i])] }
    (s.fab 0).compacts = false ∧ (s.fab 0).frozen = false ∧ (s.scan 0).opw ≠ none ∧ (s.scan 0).stopped = false ∧ (s.scan 0).hold = [] ∧
      outTokens (s.scan 0).outq + (s.scan 0).width * 1 ≤ 96 ∧ (s.scan 0).ch = false := by decide +kernel
/-- A memory-mode command of two elements, in its beginning. -/
def run2 : ScanRun := { (default : ScanRun) with id := 5, byte := 0x100, count := 2 }
theorem test_scanMemoryTransfer : let s := (State.reset.modScan 0 fun _ => { adder with inq := [.run 5], runs := [run2] }).modMtile 0 0 fun m =>
      { m with mem := writeVal [] 0x100 8 (3 + 4 * 2 ^ 32) }
    after .scanMemoryTransfer s (fun t => (t.scan 0).runs.map fun x => (x.read, x.words)) = some [(2, [3, 4])] := by decide +kernel
theorem witness_ScanBlocks_memory : let s := State.reset.modScan 0 fun _ => { adder with
      runs := [run2], hold := [⟨1, 0, [⟨0, [3], false, false⟩, ⟨0, [7], false, false⟩], some (5, 0)⟩] }
    (s.scan 0).run? 5 = some run2 ∧ run2.words.length < 128 * (s.scan 0).width ∧ s.joinActive 0 run2.before = false := by decide +kernel
theorem test_scan_writes : let s := (State.reset.modScan 0 fun _ => { adder with
      runs := [{ run2 with read := 2 }], hold := [⟨1, 0, [⟨0, [3], false, false⟩, ⟨0, [7], false, false⟩], some (5, 0)⟩] }).modCore 0 fun c => { c with ocTl := 1 }
    after .scanMemoryTransfer s (fun t => (readVal (t.mtile 0 0).mem 0x100 8, (t.core 0).ocTl)) = some (3 + 7 * 2 ^ 32, 0) := by decide +kernel
/-- An engine in the middle of the chain, of tile 1, with a carry on the link from tile 0. -/
def chain (gen : Nat) : State := { ((State.reset.modScan 1 fun _ => { adder with opw := some 0x890 }).modScan 0 fun g => { g with
  link := [⟨gen, 0x90, some [5], 0⟩] }) with foc := ⟨1, 0, 0⟩ }
theorem witness_ScanBlocks_carry : let g := (chain 0).scan 1
    g.ch = true ∧ g.hd = false ∧ g.chainIn.length < 4 ∧ g.expects = 0 ∧ (g.opw.getD 0).toNat % 256 = 0x90 ∧ (chain 0).self.events.length < 16 := by
  decide +kernel
theorem test_carryArrival : after .carryArrival (chain 0) (fun t => ((t.scan 1).chainIn.length, (t.scan 0).link.length)) = some (1, 0) ∧
    after .carryArrival (chain 3) (fun t => ((t.scan 1).stopped, (t.core 1).events.map Event.cause)) = some (true, [18]) := by decide +kernel
theorem test_carryApply : let s := (chain 0).modScan 1 fun g => { g with closed := [⟨0, some [3], false⟩], chainIn := [⟨0, 0x90, some [5], 0⟩] }
    after .carryApply s (fun t => ((t.scan 1).last, (t.scan 1).link.map fun c => (c.value, c.at_))) =
      some (some (0, some [8]), [(some [8], 4)]) := by decide +kernel

/-! ### Copies and pages -/

/-- A core that copies 256 bytes from page 1 to page 2 by queue 0 of its branch, which its partition may use. -/
def copying (ctl : DWord) : State := (paged [(1, page1), (2, 0x20000), (3, ctl)] [5, 6]).modPart 1 fun x => { x with quotas := [(4, 0xFFFF)] }
theorem witness_CopyWords : let s := copying 256
    s.memReady [3, 1, 2] [3] ∧ s.memReady [3, 1] [3] ∧ s.memReady [3] [3] ∧ s.queueGranted 0 0 = true ∧
      s.copyFault 0 256 none (.flat page1 0x20000 256) = none ∧
      ptrFault [0, 1, 3, 6, 7] s.self.level 4 page1 = none ∧ ptrFault [0, 1, 3, 6, 7] s.self.level 4 0x20001 ≠ none := by
  unfold State.memReady State.wordReady; decide +kernel
theorem witness_CopyWords_clear : let c := CopyShape.flat page1 0x20000 256
    (c.extents.all fun x => ptrSpace x.1 != 1) = true ∧ (c.srcRanges.any fun x => c.dstRanges.any (rangesMeet x)) = false ∧
      ((CopyShape.flat page1 page1 256).srcRanges.any fun x => (CopyShape.flat page1 page1 256).dstRanges.any (rangesMeet x)) = true ∧
      ptrFault [5] 3 16 0x5000000000000000 = none ∧
      (match ((object 1 3 2 none).mtile 0 0).plainRegion (wordsOf 0 16) with
        | .ok _ => true
        | .error _ => false) = true := by decide +kernel
theorem test_cpy_overlap : after (.cpy 3 1 1) (copying 256) (fun t => ((t.core 0).trap 0).cause) = some 6 := by decide +kernel
theorem test_cpy : after (.cpy 3 1 2) (copying 256) (fun t => ((t.cqueue 0 0).cmds.length, (t.core 0).reg 3, (t.core 0).ocCp)) = some (1, 0, 1) := by
  decide +kernel
theorem test_cpy_length : after (.cpy 3 1 2) (copying 254) (fun t => ((t.core 0).trap 0).cause) = some 2 ∧
    after (.cpyz 3 1) (copying 256) (fun t => (t.cqueue 0 0).cmds.map Cmd.shape) = some [.zero page1 256] := by decide +kernel
theorem test_cpy2d : after (.cpy2d 3 1 2) ((copying 0x100).modCore 0 fun c => { c with mem := writeVal [] 256 24 (8 + 2 * 2 ^ 32 + 16 * 2 ^ 64 + 8 * 2 ^ 128) })
    (fun t => (t.cqueue 0 0).cmds.map Cmd.shape) = some [.rows page1 0x20000 8 2 16 8] := by decide +kernel
theorem test_cpyg : after (.cpyg 3 1 2) ((copying 0x100).modCore 0 fun c => { c with mem := writeVal [] 256 16 (0x30000 + (2 + 64 * 2 ^ 32) * 2 ^ 64) })
    (fun t => (t.cqueue 0 0).cmds.map Cmd.shape) = some [.gather page1 0x20000 0x30000 2 64] := by decide +kernel
/-- A command of queue 0 of engine 0. -/
def cmd (c : Cmd) : Cmd := { c with shape := .flat page1 0x20000 256, asid := 0, part := some 1 }
/-- A device with a command in that queue, and a ticket for it in g1. -/
def ticketed (c : Cmd) : State := (copying 0).modEngine 0 fun e => { e with queues := [(0, ⟨1, [cmd c], []⟩)] }
theorem test_cpq : regAfter (.cpq 4 1) ((ticketed { (default : Cmd) with done := some 77 }).modCore 0 fun c => c.setReg 1 0) 4 = some 77 ∧
    regAfter (.cpq 4 1) ((ticketed { (default : Cmd) with fault := some (4, 64), done := some 77 }).modCore 0 fun c => c.setReg 1 0) 4 = some 0x8000000000000040 ∧
    regAfter (.cpq 4 1) ((ticketed default).modCore 0 fun c => c.setReg 1 5) 4 = some (BitVec.allOnes 64) := by decide +kernel
theorem witness_CopyWords_names : let s := (ticketed { (default : Cmd) with missed := true }).modCore 0 fun c => c.setReg 1 0
    s.wordReady [1] [4] ∧ s.cmd? 0 0 0 = some (cmd { (default : Cmd) with missed := true }) ∧ (cmd default).core = 0 ∧ (cmd default).sched = false := by
  unfold State.wordReady; decide +kernel
-- a promise that has been missed is made again
theorem test_cpq_missed : after (.cpq 4 1) { (ticketed { (default : Cmd) with missed := true, promise := 9 }).modCore 0 fun c => c.setReg 1 0 with now := 10 }
    (fun t => (t.cqueue 0 0).cmds.map fun c => (c.missed, decide (10 < c.promise), (t.core 0).reg 4 == BitVec.ofNat 64 c.promise)) =
      some [(false, true, true)] := by decide +kernel
theorem test_pchk : let s (c : Cmd) := { (ticketed c).modCore 0 fun c => c.setReg 1 0 with now := 10 }
    regAfter (.pchk 4 1) (s { (default : Cmd) with promise := 9 }) 4 = some 2 ∧ regAfter (.pchk 4 1) (s { (default : Cmd) with promise := 10 }) 4 = some 1 ∧
      regAfter (.pchk 4 1) (s { (default : Cmd) with done := some 3 }) 4 = some 0 := by decide +kernel
theorem test_qfence : let s (v : DWord) := (ticketed default).modCore 0 fun c => c.setReg 1 v
    after (.qfence 1) (s 1) (fun t => (t.cqueue 0 0).join) = some [(0, 0, 0)] ∧
      after (.qfence 1) (s 0x2000000000000000) (fun t => ((t.core 0).trap 0).cause) = some 6 := by decide +kernel

-- a fence of later work of generator 0 and the scan engine waits for the generators' work named
theorem test_qfence_local : let s := (generating (stream (spb1 0x10000 8 0 0))).modCore 0 fun c => c.setReg 1 0x1000000000000011
    after (.qfence 1) s (fun t => ((t.scan 0).join, (t.gen 0 0).queue, (t.gen 0 1).queue)) = some (s.localPending 0 0, s.localPending 0 0, []) := by
  decide +kernel

theorem witness_CopyWork : let s := ticketed default
    (s.engine 0).turn = 0 ∧ s.copyReady 0 0 = some (cmd default) ∧ s.cmd? 0 0 0 = some (cmd default) ∧
      (match (s.copyReach 0 0 (cmd default) page1 true false).2 with
        | .at_ l _ => decide (l = .dram 0 0x30000)
        | _ => false) = true := by decide +kernel
theorem witness_CopyWork_quiet : let s := (ticketed default).modEngine 0 fun e => { e with unitAt := 5 }
    s.now < (s.engine 0).unitAt ∧ (((ticketed default).engine 0).unitAt = 0) ∧ ∀ k < 16, ∀ c ∈ (s.cqueue 0 k).cmds, c.pieces = [] := by decide +kernel
theorem test_copyPieceIssue_waits : after .copyPieceIssue ((ticketed default).modEngine 0 fun e => { e with unitAt := 5 }) (fun t => t.accs.length) =
    some 0 := by decide +kernel
theorem test_copyPieceIssue : after .copyPieceIssue (ticketed default) (fun t => t.accs.map fun a => (a.loc, a.size)) =
    some [(.dram 0 0x30000, 256)] := by decide +kernel
/-- A command whose one piece has been read. -/
def readPiece : State :=
  { ticketed { (default : Cmd) with next := 256, pieces := [⟨0, 8, 3⟩] } with
    nextId := 4, accs := [{ (default : Access) with id := 3, who := .copy 0 0 0, kind := .load false, size := 8, done := true, val := 99 }] }
theorem test_copyComplete : after .copyComplete { readPiece with nextId := 4 } (fun t => t.accs.map fun a => (a.loc, a.data)) =
    some [(.dram 0 0x40000, 99)] := by decide +kernel
theorem test_copy_done : let s := (ticketed { (default : Cmd) with next := 256, promise := 100 }).modCore 0 fun c => { c with ocCp := 1 }
    after .copyComplete { s with now := 40 } (fun t => ((t.cqueue 0 0).cmds.map Cmd.done, (t.core 0).ocCp)) = some ([some 40], 0) := by decide +kernel
theorem test_promiseMissed : after .promiseMissed { ticketed { (default : Cmd) with promise := 100 } with now := 101 } (fun t =>
    ((t.core 0).events.map Event.cause, (t.cqueue 0 0).cmds.map Cmd.missed)) = some ([9], [true]) := by decide +kernel
theorem test_copyPieceFault : after .copyPieceFault (ticketed { (default : Cmd) with fault := some (4, 64) }) (fun t =>
    ((t.core 0).events.map Event.cause, (t.cqueue 0 0).cmds.map Cmd.told)) = some ([4], [true]) := by decide +kernel

/-- A steward core of partition 1 with page 1 named in g1 and a value in g2. -/
def paging (v : DWord) : State := (paged [(1, page1), (2, v)] [5]).modCore 0 fun c => { c with level := 1 }
/-- What a PAGE word finds at page 1: it is page 3 of sub-partition 0. -/
def pageRef (s : State) : Option (Nat × Nat × Bool) := match s.leafA 0 1 with
  | .ok (_, p) => match s.entryB 0 p with
    | .ok e => some (p, entTier e, entV e)
    | .error _ => none
  | .error _ => none
theorem witness_PageWords : let s := paging 2
    s.memReady [1, 2] [3] ∧ s.memReady [1] [3] ∧ s.memReady [] [3] ∧ ptrFault [0] 1 1 page1 = none ∧ pageRef s = some (3, 0, true) ∧
      (s.part 1).rights.testBit 4 = true ∧ s.releases 0 = [] ∧ s.inMotion 0 < 16 ∧ s.motionOf 0 3 = none ∧ s.owner 0 = some 1 := by
  unfold State.memReady State.wordReady; decide +kernel
theorem test_pghint : after (.pghint 1 2) (paging 8) (fun t => ((t.core 0).trap 0).cause) = some 6 ∧
    after (.pghint 1 2) (paging 2) (fun t => (t.part 1).nqlost) = some 1 := by decide +kernel
theorem test_pgmove : regAfter (.pgmove 3 1 2) (paging 0) 3 = some 1 ∧ regAfter (.pgmove 3 1 2) (paging 2) 3 = some 3 := by decide +kernel
theorem test_pgqry : regAfter (.pgqry 3 1) (paging 0) 3 = some 0x8060000000030000 := by decide +kernel
theorem test_pgdisc : after (.pgdisc 1 2) (paging 1) (fun t => match t.entryB 0 3 with
      | .ok e => some (e.testBit 57, e.testBit 58, e.testBit 63)
      | .error _ => none) = some (some (true, true, true)) := by decide +kernel
theorem test_pgthr : after (.pgthr 1 2) (paging 5) (fun t => (t.agents.flatMap fun e => e.2.hot.map fun h => (h.2.page, h.2.thr))) = some [(3, 5)] := by
  decide +kernel
theorem test_pgnote : let s := (paging 0).modPart 1 fun x => { x with nqbase := 0x7000000000000000, nqsize := 4, nqhead := 3, nqcount := 2 }
    after (.pgnote 3) s (fun t => ((t.core 0).reg 3, (t.part 1).nqhead, (t.part 1).nqcount)) = some (0x7000000000000030, 0, 1) := by decide +kernel

/-- A migration of page 3 of sub-partition 0 from frame 3 of HBM to frame 40. -/
def moving (n : Nat) (inval : Option Nat) : State :=
  { (paging 0) with now := 192, foc := ⟨0, 3, 0⟩, motions := [⟨0, 0, 3, 1, none, none, 0, 3, 3, 0, 40, 40, false, 0, n, 0, [], false, inval⟩] }
theorem witness_PagesMove : ((moving 1 none).motionOf 0 3).isSome = true ∧ (moving 1 none).lostLine 0 (40 * 65536) = false ∧
    ((moving 64 none).agent 0).queue = [] ∧ (moving 64 none).accs = [] ∧ (moving 64 none).taskOf 0 = none ∧
    ((moving 0 none).part 1).live = true ∧ ((moving 0 none).agentOf ⟨0, 3, 0⟩).isSome = true := by decide +kernel
theorem witness_PagesMove_due : ∀ m ∈ (moving 0 none).motions, max (m.start + 176 + (m.copied + 1) * 16) (m.lastAt + 16) = 192 ∧
    m.lastAt < (moving 0 none).now ∧ m.failed = false := by decide +kernel
theorem test_chunkCopy : after .chunkCopy (moving 0 none) (fun t => (readVal t.dram 0x280000 8, t.motions.map Motion.copied)) = some (5, [1]) ∧
    after .chunkCopy { (moving 0 none) with now := 191 } (fun t => t.motions.map Motion.copied) = some [0] := by decide +kernel
theorem test_migrationSwitch : after .migrationSwitch (moving 64 none) (fun t => ((match t.entryB 0 3 with
      | .ok e => entFrame e
      | .error _ => 0), t.motions.map Motion.inval)) = some (40, [some 192]) ∧
    after .migrationSwitch (moving 63 none) (fun t => t.motions.map Motion.inval) = some [none] := by decide +kernel
theorem test_invalidationComplete : after .invalidationComplete (moving 64 (some 0)) (fun t => (readVal t.dram 0x30000 8, t.motions.length)) =
    some (0, 0) := by decide +kernel
theorem test_migrationAbort : after .migrationAbort (moving 5 none) (fun t => (t.motions.length, readVal t.dram 0x30000 8)) = some (0, 5) := by
  decide +kernel
theorem test_garnetDoorbell : let s := { moving 5 none with foc := ⟨1, 0, 0⟩ }
    after (.garnetDoorbell 0x30001) s (fun t => (t.later, (t.later.foldl State.close t).agents.flatMap fun e => e.2.queue.map fun q => (q.page, q.tier))) =
      some ([.request ⟨0, 3, 1, 1, false, none, none, true⟩ 0], [(3, 1)]) := by decide +kernel
theorem test_migrationStart : let s := { paging 0 with foc := ⟨0, 0, 0⟩ }.modAgent 0 fun g => { g with queue := [⟨0, 3, 1, 0, false, none, none, true⟩] }
    after .migrationStart s (fun t => ((t.agent 0).queue.length, t.motions.length)) = some (0, 0) := by decide +kernel

/-! ### Packets and links -/

/-- A core of partition 1 at the operator's level with a PSEND operand and a pointer to its payload, and an owned tile 0x1C6. -/
def sending (v : DWord) : State := (((running [(1, v), (2, 0x4000000000000100)]).modCore 0 fun c => { c with
  level := 0, mem := writeVal [] 256 8 0xABCD }).modTile 0 fun t => { t with owner := some 1 }).modTile 0x1C6 fun t => { t with owner := some 1 }
theorem witness_Packets : let s := sending (2 ^ 34 + 0x1C6 * 2 ^ 13 + 3)
    s.memReady [1, 2] [3] ∧ s.wordReady [1] [] ∧ s.privPtr (s.val 2) 32 256 ∧ s.privGood 256 32 ∧ s.owner 0 = some 1 ∧
      s.owner 0x1C6 = some 1 ∧ (∀ n < 512, (mapGet 0 s.peers n).toNat = 0) ∧ s.self.ocSt < 32 := by
  unfold State.memReady State.wordReady State.privPtr State.privGood; decide +kernel
theorem test_psend : after (.psend 3 1 2) (sending (2 ^ 34 + 0x1C6 * 2 ^ 13 + 3)) (fun t =>
    (t.packets.map fun k => (k.head / 2 ^ 24, k.payload, k.pos), (t.core 0).ocSt)) =
    some ([((0x1C6 * 2 ^ 37 + 2 ^ 34 + 3 * 2 ^ 30 + 2 ^ 24) / 2 ^ 24, [0xABCD], .switch 0 0)], 1) := by decide +kernel
theorem test_psend_refuses : let sub (v : DWord) := after (.psend 3 1 2) (sending v) fun t => (((t.core 0).trap 0).cause, ((t.core 0).trap 0).val.toNat % 8)
    sub (0x1C7 * 2 ^ 13 + 3) = some (17, 2) ∧ sub (2 ^ 62 + 0x1C6 * 2 ^ 13) = some (17, 4) ∧ sub (2 ^ 31 + 3) = some (17, 0) := by decide +kernel
-- the turn list of the example of R413
theorem test_turns : turnList (tileTurns 0x0B5 0x1C6) = 0x441D24 := by decide
theorem test_pmask : let s := (sending 0x81).modPart 1 fun k => { k with live := true, pkmask := 3 }
    let masked (i : Instr) := after i s fun t => ((t.part 1).pkmask, ((t.later.foldl State.begin t).part 1).pkmask)
    masked (.pmask 1) = some (3, 0x83) ∧ masked (.punmask 1) = some (3, 2) := by decide +kernel
/-- A core that binds class 5 to a template and a ring. -/
def binding : State :=
  let s := (paged [(1, 5), (2, 0x4000000000000100)] []).modQueue 0 fun x => { x with open_ := true, part := 1 }
  { s.modCore 0 fun c => { c with mem := writeVal (writeVal (writeVal [] 256 8 0x10000) 264 8 0x20000) 272 8 4 } with
    dram := writeVal tables 0x30000 8 (1 + 2 ^ 42 + 511 * 2 ^ 55) }
theorem witness_Packets_bind : let s := binding
    s.memReady [1, 2] [] ∧ s.self.level ≤ 1 ∧ s.owner 0 = some 1 ∧ (s.val 1).toNat < 16 ∧ s.privPtr (s.val 2) 32 256 ∧ s.privGood 256 32 ∧
      (blockOf (s.readBlock 0 [0, 7] 0x10000 128)).isSome = true := by
  unfold State.memReady State.wordReady State.privPtr State.privGood; decide +kernel
theorem test_pbind : after (.pbind 1 2) binding (fun t => ((t.part 1).binds.length,
    (mapFind ((t.later.foldl State.begin t).part 1).binds 5).map fun b => (b.ring, b.slots))) = some (0, some (0x20000, 4)) := by decide +kernel
/-- A packet at a place, of class 5 for tile 0. -/
def packet (at_ : PacketAt) : Packet := { (default : Packet) with id := 4, head := 5 * 2 ^ 30, pos := at_, via := .switch 0 0, from_ := some 0 }
theorem witness_Packets_hop : let s := { State.reset with now := 1, packets := [packet (.switch 0 0)] }
    (s.packet? 4) = some (packet (.switch 0 0)) ∧ (packet (.switch 0 0)).nextHop = some (.tile 0, true) ∧
      s.hopFree (packet (.switch 0 0)) (.tile 0) = true := by decide +kernel
theorem test_packetBlocked : after .packetBlocked { State.reset with now := 1024, foc := ⟨4, 0, 0⟩, packets := [packet (.switch 0 0)] }
    (fun t => t.packets.map Packet.blocked) = some [true] := by decide +kernel
theorem test_recoveryTokenVisit : let k := { packet (.switch 0 0) with blocked := true }
    after .recoveryTokenVisit { State.reset with packets := [k] } (fun t => t.packets.map Packet.escape) = some [true] ∧
      after .recoveryTokenVisit { State.reset with packets := [] } (fun t => mapGet (0, 0) t.tokens 0) = some (1, 1) := by decide +kernel
/-- A link that is up, of a peer of partition 2. -/
def linked : State := { State.reset.modTile 3 fun t => { t with owner := some 1 } with
  foc := ⟨2, 0, 1⟩, links := [(2, { (default : Link) with state := .up, ver := 2, spares := 2, healthy := 16, unacked := 3 })],
  peers := [(7, 0x8000000080000002)] }
theorem witness_Links : (linked.link 2).state = .up ∧ (linked.link 2).unacked = 3 ∧ linked.foc.unit < 12 ∧ linked.foc.arg = 1 ∧
    (mapGet 0 linked.peers 7).toNat.testBit 63 = true ∧ (mapGet 0 linked.peers 7).toNat % 16 = 2 := by decide +kernel
theorem test_peerPacketArrival : after (.peerPacketArrival (BitVec.ofNat 256 (3 * 2 ^ 37)) []) linked (fun t =>
    t.packets.map fun k => (k.head / 2 ^ 55 % 512, k.head / 2 ^ 37 % 512)) = some [(7, 3)] := by decide +kernel
theorem test_packetDelivery_unbound : let s := (sending 0).modCore 0 fun c => { c with ocSt := 1 }
    after .packetDelivery { s with packets := [packet (.tile 0)] } (fun t => (t.packets.length, (t.core 0).ocSt, (t.core 0).events.map Event.cause)) =
      some (0, 0, [17]) := by decide +kernel
theorem test_linkUp : after .linkUp { linked with links := [] } (fun t => (t.link 2).state) = some .training := by decide +kernel
theorem test_flitCrcFail : after .flitCrcFail linked (fun t => ((t.link 2).replays, (t.link 2).replaying)) = some (3, true) := by decide +kernel
theorem test_flitAcknowledged : after .flitAcknowledged linked (fun t => (t.link 2).unacked) = some 2 := by decide +kernel
theorem test_laneFailing : let s := linked.modLink 2 fun l => { l with crc := [(0, [9, 8, 7, 6])] }
    after .laneFailing { s with now := 10 } (fun t => (t.link 2).spares) = some 1 ∧ after .laneFailing linked (fun t => (t.link 2).spares) = some 2 := by
  decide +kernel
theorem test_linkLost : let s := linked.modLink 2 fun l => { l with healthy := 7 }
    after .linkLost { s with packets := [packet (.link 2)] } (fun t => ((t.link 2).state, t.packets.length, (t.core 0).events.map Event.cause)) =
      some (.lost, 0, [19]) := by decide +kernel
theorem test_cxlLinkLost : after .cxlLinkLost linked (fun t => t.cxlLost) = some [2] := by decide +kernel
theorem test_peerAccessArrival : after (.peerAccessArrival true 0x10000 [7]) { ((paging 0).modQueue 0 fun x => { x with open_ := true, part := 1 }) with
      foc := ⟨0, 2, 1⟩, links := linked.links } (fun t => readVal t.dram 0x30000 8) = some 5 := by decide +kernel

/-! ### Partitions and special registers -/

/-- A core at the operator's level with partition 1 live and without rights, a create block for tile 9 in private memory, and free numbers. -/
def managing (v : DWord) : State := ((running [(1, 0x4000000000000100), (2, v)]).modCore 0 fun c => { c with
  level := 0, mem := writeVal [] 256 32 (63 + 9 * 2 ^ 64 + (256 + 32 * 2 ^ 18) * 2 ^ 128) }).modPart 1 fun k => { k with live := true }
theorem witness_ManagementWords : let s := managing 2
    s.wordReady [1, 2] [3] ∧ s.privPtr (s.val 1) 32 256 ∧ s.privGood 256 32 ∧ s.self.level = 0 ∧ s.owner 9 = none ∧ s.sliced 9 = false ∧
      (s.part 1).live = true ∧ (s.part 1).locked = false ∧ (s.part 2).live = false ∧ s.privVal 264 8 = 9 := by
  unfold State.wordReady State.privPtr State.privGood; decide +kernel
theorem test_pcreate : after (.pcreate 3 1 2) (managing 2) (fun t => ((t.core 0).reg 3, (t.part 2).rights, t.owner 9, (t.core 9).mode, (t.core 9).level,
    readVal (t.core 9).mem 0 8)) = some (2, 63, some 2, .running, 1, 63) := by decide +kernel
/-- A core at the operator's level that names partition 1, live, with a value. -/
def naming (v : DWord) : State := (managing v).modCore 0 fun c => c.setReg 1 1
theorem test_pquota : after (.pquota 1 2) (naming (4 * 2 ^ 56 + 0xF0)) (fun t =>
    (mapGet 0 (t.part 1).quotas 4, mapGet 0 ((t.later.foldl State.begin t).part 1).quotas 4)) = some (0, 0xF0) := by decide +kernel
theorem test_pgrant_rights : after (.pgrant 1 2) (naming 5) (fun t =>
    ((t.part 1).rights, ((t.later.foldl State.begin t).part 1).rights)) = some (0, 5) := by decide +kernel
theorem test_pgrant_tiles : after (.pgrant 1 2) (naming (2 ^ 60 + 2 * 512 + 8)) (fun t => (t.owner 8, t.owner 11, t.owner 12)) = some (some 1, some 1, none) := by
  decide +kernel
theorem test_prevoke : after (.prevoke 1 2) ((naming (2 ^ 60 + 8)).modTile 8 fun t => { t with owner := some 1 }) (fun t => t.owner 8) = some none := by
  decide +kernel
theorem test_pgrant_memory : after (.pgrant 1 2) ((naming (2 ^ 61 + 4)).modPart 1 fun k => { k with quotas := [(0, 1)] }) (fun t =>
    mapFind (t.part 1).extents 0) = some (some (0, 4)) := by decide +kernel
theorem test_pslice : after (.pslice 1 2) ((managing 0).modCore 0 fun c => { (c.setReg 1 (2 * 512 + 8)).setReg 2 0x4000000000000100 with
      mem := writeVal [] 256 16 (65536 + 2 ^ 64) }) (fun t => (t.owner 8, (t.later.foldl State.begin t).owner 8,
        t.slices.map fun x => (x.entries, x.endAt))) = some (none, some 1, [([1], 65537)]) := by decide +kernel
theorem test_pdestroy : after (.pdestroy 1) ((naming 0).modTile 8 fun t => { t with owner := some 1 }) (fun t => ((t.part 1).live, t.owner 8)) =
    some (false, none) := by decide +kernel

/-- A core at the operator's level with ASID 0 live in sub-partition 0 of partition 1, room for another, and an operand. -/
def asids (v : DWord) : State := (opening v).modPart 1 fun x => { x with quotas := [(2, 4)] }
theorem witness_AsidsAndInvalidation : let s := (asids 0).modSubp 0 fun x => { x with quotas := [(2, 4)] }
    s.wordReady [1, 2] [3] ∧ s.self.level ≤ 2 ∧ (s.subp 0).live = true ∧ (s.asid 0).live = true ∧ (s.asid 1).live = false ∧
      (s.asids.filter fun e => e.2.live && e.2.subp == 0).length < mapGet 0 (s.subp 0).quotas 2 ∧ s.quotaUsed 1 none 2 < mapGet 0 (s.part 1).quotas 2 ∧
      (∀ e ∈ s.queues, e.2.open_ = false) ∧ s.self.stall = none ∧ s.accs = [] := by unfold State.wordReady; decide +kernel
theorem test_aalloc : after (.aalloc 3 1) ((asids 0x40000).modSubp 0 fun x => { x with quotas := [(2, 4)] }) (fun t =>
    ((t.core 0).reg 3, (t.asid 1).live, (t.asid 1).root)) = some (1, true, 0x40000) := by decide +kernel
theorem test_afree : after (.afree 1) (asids 0) (fun t => ((t.asid 0).live, (mapGet [] t.dieTlb 0).length)) = some (false, 0) := by decide +kernel
theorem test_tinv : after (.tinv 1 2) (asids 0x30000) (fun t => ((mapGet [] t.dieTlb 0).map fun e => match e with
    | .whole x => x.vpage
    | .stageB _ _ _ => 99)) = some [0, 1, 2, 4, 5, 6] := by decide +kernel

theorem witness_SystemRegisters : let s := sending 7
    s.wordReady [] [3] ∧ s.wordReady [1] [] ∧ s.self.level = 0 ∧ s.owner 0 = some 1 ∧ s.region? 0 = none ∧ s.regionOf 0 = none ∧
      (running []).self.level = 3 := by unfold State.wordReady; decide +kernel
-- lv.vec of task level (R262) keeps bits 17 to 2, tk.rank reads the rank (R72)
theorem test_sysw_vec : after (.sysw 1 0xC04) (running [(1, BitVec.allOnes 64)]) (fun t => ((t.core 0).trap 3).vec) = some 0x3FFFC := by decide +kernel
theorem test_sysr_rank : regAfter (.sysr 3 0xC22) { ((running []).modCore 5 fun c => { c with mode := .running, level := 3 }) with foc := ⟨5, 0, 0⟩ } 3 = some 0 ∧
    after (.sysr 3 0xC22) { ((running []).modCore 5 fun c => { c with mode := .running, level := 3 }) with foc := ⟨5, 0, 0⟩ } (fun t => (t.core 5).reg 3) =
      some 5 := by decide +kernel
theorem test_sysr_level : trapAfter (.sysr 3 0x800) (running []) = some (1, 0) ∧ trapAfter (.sysr 3 0xC33) (running []) = some (0, 0) := by decide +kernel
theorem test_sysw_plim : after (.sysw 1 0x201) (sending 500) (fun t => t.plim) = some 600 ∧
    after (.sysw 1 0x201) (sending 0x1FFF) (fun t => t.plim) = some 2400 := by decide +kernel
theorem test_pmFpushWrite_full : after (.pmFpushWrite 9) (sending 0) (fun t => ((t.core 0).trap 0).cause) = some 23 := by decide +kernel
theorem test_pmFpushWrite : let s := (paging 0).modPart 1 fun x => { x with fpbase := [(0, 0x7000000000100000)], fpsize := [(0, 4)], fphead := [(0, 3)], fpcount := [(0, 2)] }
    after (.pmFpushWrite 0x123) s (fun t => (readVal t.dram 0x100008 8, mapGet 0 (t.part 1).fpcount 0)) = some (0x123, 3) := by decide +kernel
/-- A pool ring at an address of CXL memory, whose port is lost, and one in a frame that is written by no one while it moves. -/
def pooling (base : DWord) : State := { (paging 0).modPart 1 fun x => { x with
  extents := mapSet x.extents 32 (0, 1), fpbase := [(0, base)], fpsize := [(0, 4)] } with
  cxlLost := [0], motions := (moving 3 none).motions.map fun m => { m with src := 0x10, wb := true } }
theorem witness_SystemRegisterWrites_push : (pooling 0x7000800000000000).lostLine 2 0 = true ∧
    (pooling 0x7000000000100000).lostLine 0 0x100000 = false ∧ (pooling 0x7000000000100000).writeBlocked 0 0x100000 8 = true := by decide +kernel
theorem test_pmFpushWrite_lost : after (.pmFpushWrite 0x123) (pooling 0x7000800000000000) (fun t => ((t.core 0).trap 0).cause) = some 19 ∧
    after (.pmFpushWrite 0x123) (pooling 0x7000000000100000) (fun t => ((t.core 0).pc, mapGet 0 (t.part 1).fpcount 0)) = some (0, 0) := by
  decide +kernel
theorem test_ringSizeWrite : after (.ringSizeWrite 4 0x500000003) (sending 0) (fun t => ((t.part 1).nqsize, (t.part 1).nqcount)) = some (5, 0) := by
  decide +kernel
theorem test_rtAsidWrite : after (.rtAsidWrite 7) (sending 0) (fun t => (t.core 0).asid) = some 7 := by decide +kernel
theorem test_rtSideWrite : let s := ((tasked 0).modFab 0 fun f => { f with frozen := true }).modCell 0 2 fun c => { c with actors := [{ (default : Actor) with sp := true }] }
    after (.rtSideWrite 0x2001) { s with now := 3 } (fun t => ((t.cell 0 2).altNext, (t.cell 0 2).altAt)) = some (true, 4) := by decide +kernel

/-! ### The scheduler and rounds -/

/-- A device whose queue 0 holds an accepted task with a record, with bytes at virtual page 1, and a free tile 1 of its partition. -/
def scheduled (words : List Nat) (bytes : List Byte) : State :=
  let s := ((paged [] []).modQueue 0 fun x => { x with open_ := true, part := 1 }).modTile 1 fun t => { t with owner := some 1 }
  { s with now := 224, pool := [0x1000000], dram := writeBytes tables 0x30000 bytes, tasks := [{ (default : Task) with
      id := 0x1000000, rec_ := words ++ List.replicate (16 - words.length) 0, phase := .accepted, joinRead := true, join := some 0 }] }
/-- A region task of one tile with the image of page 1. -/
def regional : State := scheduled [recHead, 0, 0x10000, 0, 77] (image 1)
/-- The task that a device chooses. -/
def chosen (s : State) : Option (Nat × Nat × Nat) := s.choose.map fun x => (x.1.id, x.2.1, x.2.2)
theorem witness_Scheduler : chosen regional = some (0x1000000, 2, 0) := by decide +kernel
theorem test_taskStart : after .taskStart regional (fun t => (t.tasks.map Task.phase, t.jobs.map Job.tiles, (t.region? 1).map Region.lgn)) =
    some ([.started], [[1]], some 0) := by decide +kernel
theorem test_taskStart_waits : after .taskStart { regional with pool := [] } (fun t => t.tasks.map Task.phase) = some [.accepted] := by decide +kernel
-- a task is in the pool from 224 cycles after its acceptance on (R292)
theorem test_fillPool : regional.fillPool.pool = [0x1000000] ∧ { regional with now := 223 }.fillPool.pool = [] := by decide +kernel
theorem test_leadCoreEntry : let s := regional
    let t := { (s.tasks.headD default) with phase := .started, lead := 1 }
    after .leadCoreEntry { s with tasks := [t], regions := [(1, newRegion t 1)], foc := ⟨1, 0, 0⟩ } (fun u =>
      ((u.core 1).mode, (u.core 1).level, (u.core 1).reg 1, (u.core 1).reg 2)) = some (.running, 3, 77, 0x1000000) := by decide +kernel
/-- A migration task of page 1 alone, and a task that sends a message to the host. -/
def migrating : State := scheduled [recHead + 3 * 256, 0, 0x10000] (leBytes 32 (0x20000 + 2 ^ 128))
theorem witness_Scheduler_migration : chosen migrating = some (0x1000000, 2, 0) := by decide +kernel
theorem test_taskStart_migration : after .taskStart migrating (fun t => t.tasks.map fun k => (k.phase, k.left)) = some [(.running, 1)] := by decide +kernel
/-- The same task as it runs, with the pages that are left. -/
def migrated (left : Nat) : State := { migrating with
  foc := ⟨0x1000000, 0, 0⟩, tasks := migrating.tasks.map fun t => { t with phase := .running, left := left, block := [0x20000, 0, 1, 0] } }
theorem test_engineTaskComplete : after .engineTaskComplete (migrated 0) (fun t => t.tasks.length) = some 0 ∧
    after .engineTaskComplete (migrated 1) (fun t => t.tasks.length) = some 1 := by decide +kernel
theorem test_hostMessageTask : let t := { (default : Task) with id := 0x1000000, rec_ := [recHead + 4 * 256], phase := .running, block := [3, 9] }
    let s := { migrating with foc := ⟨0x1000000, 0, 0⟩, tasks := [t], dram := writeVal migrating.dram (dramKey 3 16) 8 4 }
    after .hostMessageTask s (fun u => ((u.part 1).cplTail, (u.part 1).msix, (u.locRead (.dram 3 24) 8).1, (u.locRead (.dram 3 72) 8).1)) =
      some (1, [3], 1, 9) := by decide +kernel
/-- A time slice of tile 8 between partitions 1 and 2, at its end. -/
def sliced (waiting : Bool) : State := { (State.reset.modPart 1 fun k => { k with live := true }).modPart 2 fun k => { k with live := true } with
  now := 70000, foc := ⟨8, 0, 0⟩, slices := [⟨8, 0, 65536, [1, 2], 0, 70000, waiting, none⟩] }
theorem witness_Scheduler_slices : let s := sliced false
    s.slices.length = 1 ∧ s.regionOf 8 = none ∧ ∀ x ∈ s.slices, x.base = s.foc.unit ∧ x.entries ≠ [] ∧ x.endAt ≤ s.now := by decide +kernel
theorem test_quantumEnd : after .quantumEnd (sliced false) (fun t => (t.owner 8, t.slices.map fun x => (x.index, x.endAt, x.waiting))) =
    some (some 2, [(1, 135536, false)]) := by decide +kernel
/-- The task of `tasked` in a block whose quantum is over. -/
def preempting : State := { (tasked 0) with slices := [⟨0, 0, 65536, [1, 2], 1, 135536, true, none⟩] }
theorem witness_Scheduler_preemption : let s := preempting
    s.region? 0 = some (region 0) ∧ s.taskOf 0x1000000 = some task ∧ (s.core 0).mode = .running ∧ (s.core 0).level = 3 ∧ (s.core 0).ih 3 = false ∧
      (s.core 0).ocTl = s.runningStreams 0 ∧ s.awake (region 0) = [] ∧ s.jobs = [] := by decide +kernel
/-- A pre-empted task that starts again, on tile 1, and the record of its region; then with its record read back at the partition's area. -/
def resumed : State :=
  let k : SavedRegion := { (default : SavedRegion) with region := { (default : Region) with task := 0x1000000 }, size := 24 }
  let s := regional.modPart 1 fun x => { x with psave := 0x7000000000100000 }
  { s with foc := ⟨0, 0, 0x1000001⟩, saves := [(0x1000000, k)], dram := writeVal s.dram 0x100000 24 1,
           tasks := s.tasks.map fun t => { t with phase := .preempted } }
/-- The same once it has started. -/
def restarted : State :=
  let t := { (resumed.tasks.headD default) with phase := .started, lead := 1 }
  { resumed with foc := ⟨1, 0, 0⟩, tasks := [t], regions := [(1, newRegion t 1)] }
theorem witness_Scheduler_resumes : let s := { resumed with foc := ⟨0, 0x1000001, 0⟩ }
    ((s.tasks.headD default).phase = .preempted) ∧ (mapFind s.saves 0x1000000).isSome = true ∧ s.place (s.tasks.headD default) = some 1 ∧
      s.regionOf 0 = none := by decide +kernel
theorem test_taskStart_resumes : after .taskStart { resumed with foc := ⟨0, 0x1000001, 0⟩ } (fun t =>
    (t.tasks.map Task.phase, (t.region? 1).map Region.frozen)) = some ([.started], some true) := by decide +kernel
theorem witness_Scheduler_restores : let s := restarted
    s.region? 1 = some (newRegion (s.tasks.headD default) 1) ∧ s.startedAt = 0 ∧
      (s.tasks.headD default).startAt + s.recordCycles (newRegion (s.tasks.headD default) 1) 0 ≤ s.now + 10000000 := by decide +kernel
theorem test_leadCoreEntry_restores : after .leadCoreEntry { restarted with now := 10000000 } (fun t => (t.tasks.map Task.phase, t.saves.length)) =
    some ([.running], 0) := by decide +kernel
theorem test_preemption : after .preemption preempting (fun t => (t.tasks.map Task.phase, (t.core 0).mode, (t.fab 0).frozen)) =
    some ([.preempted], .stopped, true) := by decide +kernel

/-- A region of one tile whose generator 0 has read a round of two tokens. -/
def rounding (g : Region) (items : List Item) : State :=
  let t := { (stream (spb1 0x10000 64 0 0)) with tok := 2, ends := 1, bars := 1, out := items.map .item }
  { (tasked 0).modGen 0 0 fun x => { x with stream := some t } with regions := [(0, g)] }
theorem witness_Rounds : let s := rounding (region 0) []
    s.region? 0 = some (region 0) ∧ s.regionOf 0 = some (region 0) ∧ s.roundDrained (region 0) 0 = true ∧ s.snapsIn (region 0) = false ∧
      (rounding (region 0) [.barrier [(9, 0, 1)]]).roundDrained (region 0) 0 = false ∧ (∀ e ∈ s.regions, e.2.lead = 0 → e.2 = region 0) := by
  decide +kernel
theorem test_roundEnd : after .roundEnd (rounding (region 0) []) (fun t => ((t.region? 0).map Region.round, (t.gen 0 0).stream.map Stream.rounds)) =
    some (some 1, some 1) ∧ after .roundEnd (rounding (region 0) [.barrier [(9, 0, 1)]]) (fun t => (t.region? 0).map Region.round) = some (some 0) := by
  decide +kernel
/-- A region whose image asks for snapshots, with the cycle in which the copy is complete. -/
def snapping (at_ : Nat) : State := (rounding { region 0 with snapAt := at_ } []).modTile 0 fun t =>
  { t with slots := [(0, ⟨0x77, leBytes 8 0x1000 ++ leBytes 8 0x77, 0, 0⟩)], fab := { t.fab with active := some 0 } }
theorem witness_Rounds_snapshot : let s := { snapping 1 with now := 1 }
    let g := { region 0 with snapAt := 1 }
    s.region? 0 = some g ∧ s.roundDrained g 0 = true ∧ s.snapsIn g = true ∧ (s.snapRecord g).size = 266240 ∧
      g.snapOff 266240 = 4096 + 266240 ∧ s.snapHeld g 0 4096 = false :=
  ⟨by decide +kernel, by decide +kernel, by decide +kernel, by decide +kernel, by decide +kernel, State.writeHeld_of_still rfl ..⟩
theorem witness_Rounds_snapshot_free : ({ snapping 1 with now := 1 } : State).snapHeld { region 0 with snapAt := 1 } (4096 + 266240) 266240 = false :=
  State.writeHeld_of_still rfl ..
theorem test_roundEnd_snapshot : after .roundEnd (snapping 0) (fun t => (t.region? 0).map fun g => (g.round, g.snapAt)) =
    some (some (0, 4160)) := by decide +kernel
/-- A region that a fault has frozen, as it is voided, and as it is told. -/
def voiding (ready : Nat) (told : Bool) (lvl : Option Nat) : Region := { region 0 with
  frozen := true, fz := true, voiding := some ⟨0, 5, 10, 0x42, ready, told, false, lvl⟩ }
theorem test_fabricFault : ((rounding (region 0) []).fabricFault 0 (.cell 3) 10 0x42).region? 0 = some { region 0 with
    frozen := true, fz := true, voiding := some ⟨0, FabUnit.order (.cell 3), 10, 0x42, 0, false, false, none⟩ } := by decide +kernel
theorem test_roundVoid : after .roundVoid { rounding (voiding 0 false none) [] with now := 1 } (fun t =>
    ((t.region? 0).map Region.voids, (t.gen 0 0).stream.map Stream.tok, (t.region? 0).bind fun g => g.voiding.map Voiding.readyAt)) =
    some (some 1, some 0, some 1) := by decide +kernel
theorem test_voidTrapDelivery : after .voidTrapDelivery { rounding (voiding 1 false none) [] with now := 1 } (fun t =>
    (t.core 0).events.map fun e => (e.cause, e.tval, e.void)) = some [(10, 0x42, true)] := by decide +kernel
theorem test_watchdogExpiry : after .watchdogExpiry (rounding { region 0 with wdog := 2 ^ 24 } []) (fun t =>
    ((t.core 0).events.map Event.cause, (t.fab 0).frozen)) = some ([12], true) ∧
    after .watchdogExpiry (rounding { region 0 with wdog := 2 ^ 24 - 1 } []) (fun t => (t.core 0).events.length) = some 0 := by decide +kernel
/-- The lead core in the runtime's trap for a voided round. -/
def returning (abort : Bool) : State := (rounding { (voiding 1 true (some 2)) with voiding := some ⟨0, 5, 12, 0, 1, true, true, some 2⟩ } []).modCore 0 fun c =>
  { (c.modTrap 2 fun t => { t with epc := 0x80, stat := 7 }) with level := 2, abort := abort }
theorem witness_Rounds_return : let s := returning false
    s.wordReady [] [] ∧ s.self.level = 2 ∧ 2 ≤ (s.self.trap 2).stat.toNat % 4 := by unfold State.wordReady; decide +kernel
theorem test_tret_reruns : after .tret (returning false) (fun t => ((t.core 0).pc, (t.core 0).level, (t.region? 0).map Region.frozen,
      ((t.later.foldl State.begin t).region? 0).map Region.frozen)) = some (0x80, 3, some true, some false) ∧
    after .tret (returning true) (fun t => let u := t.later.foldl State.begin t; (u.regions.length, u.tasks.length)) = some (0, 0) := by decide +kernel

/-! ### The host, device reset and power -/

theorem witness_HostAndPower : (4096 : BitVec 15).toNat + (4096 : BitVec 15).toNat + (0 : BitVec 15).toNat + (0 : BitVec 15).toNat ≤ 16384 ∧
    State.reset.booted = false ∧ (0x1 : DWord).getLsbD 0 = true ∧ (State.reset.part 1).live = false ∧ ((managing 0).part 1).live = true := by decide
theorem test_deviceReset : after (.deviceReset 1 2 3 4) (sending 7) (fun t => ((t.core 0).mode, (t.core 0).reg 1, mapGet 0 t.cxlen 2, t.owner 0)) =
    some (.stopped, 0, 3, none) := by decide +kernel
theorem test_bootWindow : after (.bootWindowAccess true 5 0x7F) State.reset (fun t => mapGet 0 (t.core 0).mem 5) = some 0x7F ∧
    after (.bootWindowAccess false 5 0) { State.reset with booted := true } (fun t => t.hostRead) = some 0xFF := by decide +kernel
theorem test_bootRegisterWrite : after (.bootRegisterWrite 1) State.reset (fun t => ((t.core 0).mode, (t.core 1).mode, t.booted)) =
    some (.running, .stopped, true) ∧ after (.bootRegisterWrite 2) State.reset (fun t => t.booted) = some false := by decide +kernel
theorem test_commandTailWrite : after (.commandTailWrite 9) { managing 0 with foc := ⟨1, 0, 0⟩ } (fun t => (t.part 1).hdb) = some 9 := by decide +kernel
theorem test_tdispLock : after (.tdispLock true) { managing 0 with foc := ⟨1, 0, 0⟩ } (fun t => (t.part 1).locked) = some true := by decide +kernel
theorem test_completionHeadAdvance : after (.completionHeadAdvance 6) { managing 0 with foc := ⟨1, 0, 0⟩ } (fun t => (t.locRead (.dram 3 40) 8).1) = some 6 := by
  decide +kernel
-- the boot register reads 0 before the start (R260)
theorem test_bootRead : let step' (b : Bool) : Option Byte := match step { State.reset with booted := b, turns := [.bootRead] } with
      | .next t => some t.hostRead
      | _ => none
    step' false = some 0 ∧ step' true = some 1 := by decide +kernel
theorem test_pageRead : ([16, 21, 24, 25].map fun off =>
      match step { (managing 0).modPart 1 fun x => { x with area := 0x5000 } with turns := [.pageRead 1 off] } with
      | .next t => t.hostRead
      | _ => 0xFF) = [1, 2, 0, 0x50] := by decide +kernel
theorem test_hostSize : (match step { State.reset with turns := [.hostSize 4] } with
      | .next t => t.hostGib
      | _ => 0) = 4 := by decide +kernel
theorem test_powerWindow : after .powerWindow { State.reset with now := 4095 } (fun t => t.window) = some 0 ∧
    after .powerWindow { State.reset with now := 4096 } (fun t => t.window) = some 1 := by decide +kernel

/-! ### The step -/

/-- A core about to fetch a word. -/
def fetching (w : Nat) : State := { State.reset.modCore 0 fun c => { c with mode := .running, level := 3, mem := writeVal [] 0 4 w } with turns := [.core 0] }
theorem witness_StepRunsTheDecodedInstruction : let s := fetching 0x0CA50001
    s.turns = [.core 0] ∧ (s.core 0).mode = .running ∧ (s.core 0).nextAt ≤ s.now ∧ (∀ e ∈ (s.core 0).events, (s.core 0).canTake e = false) ∧
      (s.core 0).stall ≠ some .idle ∧ ((s.core 0).trap 3).pbound.toNat ≤ (s.core 0).pc ∧ (s.core 0).pc / 4 ∉ (s.core 0).poisoned := by decide +kernel
/-- What a test reads in the state that a step answers. -/
def stepped {α : Type} (s : State) (f : State → α) : Option α :=
  match step s with
  | .next t => some (f t)
  | _ => none
-- ADDI 5, 5, 1 (R8)
theorem test_step_addi : stepped (fetching 0x0CA50001) (fun t => ((t.core 0).reg 5, (t.core 0).pc, t.turns.length)) = some (1, 4, 0) := by decide +kernel
theorem test_step_illegal : stepped (fetching 0) (fun t => (((t.core 0).trap 0).cause, ((t.core 0).trap 0).epc, (t.core 0).level)) = some (0, 0, 0) := by
  decide +kernel
theorem witness_StepRunsTheDecodedInstruction_cell : let s := { (fired (fcell 0 [] 0xB0000000)) with turns := [.cell 0 0] }
    (s.cell 0 0).firing = some (firing []) ∧ (firing []).nextAt ≤ s.now := by decide +kernel
theorem test_step_fend : stepped { (fired (fcell 0 [] 0xB0000000)) with turns := [.cell 0 0] } (fun t => (t.cell 0 0).firing.isSome) = some false := by
  decide +kernel
-- the places of R150: a cell that waits, port C, the control core
theorem witness_StepRunsTheDecodedInstruction_ports : let s := { (waiting_ filled) with ports := [(0, (0, 50))], now := 0 }
    s.portFree 0 0 49 = false ∧ s.portFree 0 1 49 = true ∧ { s with now := 1 }.dueWaiters 0 0 = [0] ∧
      { s with now := 1 }.portFree 0 0 33 = false ∧ { s with now := 1 }.portFree 0 0 0 = true := by decide +kernel
theorem witness_StepRunsTheDecodedInstruction_turn : let g : Scan := { adder with inq := [.run 5], runs := [{ run2 with byte := 0x100 }] }
    let s := { State.reset.modScan 0 fun _ => g with ports := [(0, (0, 49))] }
    s.mayTurn ⟨0, 0, 0⟩ .scanMemoryTransfer = false ∧ { s with ports := [] }.mayTurn ⟨0, 0, 0⟩ .scanMemoryTransfer = true := by decide +kernel
theorem test_step_order : stepped { (waiting_ filled) with ports := [(0, (0, 50))], turns := [.cell 0 0] } (fun t =>
    (t.cell 0 0).firing.map Firing.waiting) = some (some true) := by decide +kernel
theorem test_step_tick : stepped { State.reset with turns := [.tick] } (fun t => t.now) = some 1 := by decide +kernel
theorem witness_StepsKeepMemoryCanonical : ∃ t, Memory.wf State.reset.dram = true ∧ step { State.reset with turns := [.tick] } = .next t :=
  ⟨_, rfl, rfl⟩
theorem test_withFetchWord : stepped (State.reset.withFetchWord 32 0x0CA50001) (fun t => (t.core 0).reg 5) = some 1 := by decide +kernel

end Sys2Proof.Tests
end

/-!
The words that the specification works out, read off the tables of the three stores. A word is refused exactly when its table names no
member, or one with a field value that the member's table refuses (R60).
-/

namespace Sys2Proof

theorem exists_checked_eq_error_iff {o : Option Instr} :
    (∃ e, checked o = .error e) ↔ o.all (fun i => !wellFormed i) = true := by
  cases o with
  | none => simp [checked]
  | some i => by_cases hi : wellFormed i = true <;> simp [checked, hi]

theorem exists_decodeControl_eq_error_iff {w : Word} :
    (∃ e, decodeControl w = .error e) ↔ (decCtl w.toNat).all (fun i => !wellFormed i) = true := exists_checked_eq_error_iff

theorem exists_decodeOperation_eq_error_iff {w : Word} :
    (∃ e, decodeOperation w = .error e) ↔ (decOp w.toNat).all (fun i => !wellFormed i) = true := exists_checked_eq_error_iff

theorem exists_decodeSwitch_eq_error_iff {w : Half} :
    (∃ e, decodeSwitch w = .error e) ↔ (decSw w.toNat).all (fun i => !wellFormed i) = true := exists_checked_eq_error_iff

/-- Settles O57: decoding the first column of each table of worked words computes its second column, and each word called illegal
names no member of its store, or one that is not well formed. -/
theorem decodesTheSpecsWords : Obligations.DecodesTheSpecsWords := by
  unfold Obligations.DecodesTheSpecsWords
  simp only [exists_decodeControl_eq_error_iff, exists_decodeOperation_eq_error_iff, exists_decodeSwitch_eq_error_iff]
  refine ⟨?controlWords, ?operationWords, ?switchWords, ?illegalControl, ?illegalOperation, ?illegalSwitch⟩
  case controlWords => exact List.map_inj_left.mp rfl
  case operationWords => exact List.map_inj_left.mp rfl
  case switchWords => exact List.map_inj_left.mp rfl
  case illegalControl => exact List.all_eq_true.mp rfl
  case illegalOperation => exact List.all_eq_true.mp rfl
  case illegalSwitch => exact List.all_eq_true.mp rfl

end Sys2Proof

/-!
The waiting, time and ordering words of the control core, and its service words: one equation for each word that says how it ends,
and from these the statement about when each retires (R31, R60, R276, R277, R279, R281, R283, R391).
-/

namespace Sys2Proof.Machine

/-! ### When a word is ready -/

/-- A word that names no register is always ready. -/
theorem State.wordReady_nil (s : State) : s.wordReady [] [] := ⟨rfl, rfl⟩

theorem Core.waitsOn_append (c : Core) (gs hs : List (BitVec 5)) : c.waitsOn (gs ++ hs) = (c.waitsOn gs || c.waitsOn hs) :=
  List.any_append

theorem State.wordReady.writes {s : State} {reads writes : List (BitVec 5)} (h : s.wordReady reads writes) :
    s.wordReady [] writes := by
  obtain ⟨hw, -⟩ := h
  rw [Core.waitsOn_append, Bool.or_eq_false_iff] at hw
  exact ⟨hw.2, rfl⟩

theorem State.wordReady.reads {s : State} {reads writes : List (BitVec 5)} (h : s.wordReady reads writes) :
    s.wordReady reads [] := by
  obtain ⟨hw, hp⟩ := h
  rw [Core.waitsOn_append, Bool.or_eq_false_iff] at hw
  exact ⟨by rw [List.append_nil]; exact hw.1, hp⟩

/-! ### Waiting, time and ordering -/

theorem waitMet_iff (imm : BitVec 4) (n : Nat) : waitMet imm n = true ↔ (imm.toNat < 15 → n ≤ imm.toNat) := by
  have h15 : imm = 15 ↔ ¬ imm.toNat < 15 := by bv_omega
  simp only [waitMet, Bool.or_eq_true, beq_iff_eq, decide_eq_true_eq, h15]
  exact Decidable.imp_iff_not_or.symm

theorem exec_wait (s : State) (ld st cp tl : BitVec 4) :
    exec (.wait ld st cp tl) s = .next
      (if waitMet ld s.self.ocLd && waitMet st s.self.ocSt && waitMet cp s.self.ocCp && waitMet tl s.self.ocTl then s.retired s 1
       else s.stalls s 3) := by
  change Host.Outcome.next (s.word [] [] _) = _
  rw [word_runs s.wordReady_nil]
  simp only [apply_ite (s.endWord s.foc.unit)]
  rfl

theorem exec_time {s : State} {gd : BitVec 5} (h : s.wordReady [] [gd]) :
    exec (.time gd) s = .next (s.retired (s.puts gd s.cycle) 1) :=
  congrArg Host.Outcome.next (word_runs h _)

theorem exec_sleep {s : State} {ga : BitVec 5} (h : s.wordReady [ga] []) :
    exec (.sleep ga) s = .next (if (s.val ga).toNat ≤ s.now % 2 ^ 64 then s.retired s 1 else s.stalls s 4) := by
  change Host.Outcome.next (s.word [ga] [] _) = _
  rw [word_runs h]
  simp only [apply_ite (s.endWord s.foc.unit), State.cycle, BitVec.toNat_ofNat]
  rfl

theorem exec_nop (s : State) : exec .nop s = .next (s.retired s 1) := congrArg Host.Outcome.next (word_runs s.wordReady_nil _)

/-- An access of the issuing core that a FENCE waits for: a load or an atomic until its data has returned, a store or a TSIG until
it has performed (R391). -/
def Access.holdsFence (a : Access) : Bool :=
  match a.kind with
  | .load _ => true
  | .amo .tsig => !a.done
  | .amo _ => true
  | .store => !a.done

theorem Access.holdsFence_eq_false_iff (a : Access) :
    a.holdsFence = false ↔ a.done = true ∧ (a.kind = .store ∨ a.kind = .amo .tsig) := by
  unfold Access.holdsFence
  split
  case h_1 hk => simp [hk]
  case h_2 hk => simp [hk]
  case h_3 op hop hk => simpa [hk] using fun _ => hop
  case h_4 hk => simp [hk]

theorem exec_fence (s : State) (scope : BitVec 5) :
    exec (.fence scope) s = .next
      (if scope.toNat < 8 ∧ (s.accsOf s.foc.unit).any Access.holdsFence = true then s.stalls s 1 else s.retired s 1) := by
  change Host.Outcome.next (s.word [] [] _) = _
  rw [word_runs s.wordReady_nil]
  simp only [apply_ite (s.endWord s.foc.unit)]
  rfl

/-- No access of a core holds a FENCE where each has performed and is a store or a TSIG. -/
theorem State.any_holdsFence_eq_false_iff (s : State) (r : Nat) :
    (s.accsOf r).any Access.holdsFence = false ↔
      ∀ a ∈ s.accs, a.who = .core r → a.done = true ∧ (a.kind = .store ∨ a.kind = .amo .tsig) := by
  simp only [State.accsOf, List.any_eq_false, Bool.not_eq_true, Access.holdsFence_eq_false_iff, List.mem_filter, decide_eq_true_eq,
    and_imp]

/-! ### Service words -/

theorem exec_trap (s : State) (code : BitVec 12) :
    exec (.trap code) s = .next ((s.modCore s.foc.unit fun c => c.account 0 s.now).trapAt s.foc.unit (s.self.level - 1) 20
      (s.self.pc + 4) (code.setWidth 64)) :=
  congrArg Host.Outcome.next (word_runs s.wordReady_nil _)

theorem exec_brk (s : State) (code : BitVec 12) : exec (.brk code) s = .next (s.trapped s 21 (code.setWidth 64)) :=
  congrArg Host.Outcome.next (word_runs s.wordReady_nil _)

theorem exec_idle (s : State) :
    exec .idle s = .next (s.stalls (s.modCore s.foc.unit fun c => { c with stall := some .idle }) 4) :=
  congrArg Host.Outcome.next (word_runs s.wordReady_nil _)

theorem exec_halt (s : State) :
    exec .halt s = .next (if s.self.level ≠ 0 then s.trapped s.bumpId 1 (Config.freeWord s.nextId)
      else s.modCore s.foc.unit fun c => c.halt s.now) := by
  change Host.Outcome.next (s.word [] [] _) = _
  rw [word_runs s.wordReady_nil]
  simp only [apply_ite (s.endWord s.foc.unit)]
  rfl

/-- Taking a trap touches the core that takes it and nothing else. -/
theorem State.sameButCore_trapAt (s : State) (r tgt cause epc : Nat) (val : DWord) :
    s.sameButCore r (s.trapAt r tgt cause epc val) := s.sameButCore_modCore r _

theorem Core.redirect_of_ih_eq_false {c : Core} {l : Nat} (h : c.ih l = false) : c.redirect l = some l :=
  redirect_some (Nat.le_refl l) h fun _ hk hl => absurd hk (Nat.not_le.mpr hl)

theorem Core.trap_enterTrap (c : Core) (l cause epc : Nat) (val : DWord) :
    (c.enterTrap l cause epc val).trap l = { c.trap l with
      cause := BitVec.ofNat 64 cause, epc := BitVec.ofNat 64 (epc % privSize), val := val,
      stat := BitVec.ofNat 64 (4 + c.level) } := by
  simp [Core.trap, Core.enterTrap, Core.modTrap]

/-- A trap taken at a level that runs no handler enters that level (R280, R394). -/
theorem State.core_trapAt_of_ih_eq_false {s : State} {r l : Nat} (h : (s.core r).ih l = false) (cause epc : Nat) (val : DWord) :
    (s.trapAt r l cause epc val).core r = { (s.core r).enterTrap l cause epc val with nextAt := s.now + 1 } := by
  rw [core_trapAt, Core.redirect_of_ih_eq_false h]

/-- TRAP enters the next level up where that level runs no handler (R281). -/
theorem exec_trap_enters {s : State} (code : BitVec 12) (h : s.self.ih (s.self.level - 1) = false) :
    ∃ t, exec (.trap code) s = .next t ∧ s.sameButCore s.foc.unit t ∧
      t.self = { (s.self.account 0 s.now).enterTrap (s.self.level - 1) 20 (s.self.pc + 4) (code.setWidth 64) with
        nextAt := s.now + 1 } := by
  have hcore : (s.modCore s.foc.unit fun c => c.account 0 s.now).core s.foc.unit = s.self.account 0 s.now := State.core_modCore ..
  refine ⟨_, exec_trap s code, State.sameButCore_trans (s.sameButCore_modCore _ _) (State.sameButCore_trapAt ..), ?_⟩
  refine (State.core_trapAt_of_ih_eq_false ?_ ..).trans ?_
  · rw [hcore]
    exact h
  · rw [hcore]
    rfl

/-- HALT at operator level stops the core (R279). -/
theorem exec_halt_stops {s : State} (h : s.self.level = 0) :
    ∃ t, exec .halt s = .next t ∧ s.sameButCore s.foc.unit t ∧ t.self = s.self.halt s.now := by
  refine ⟨_, (exec_halt s).trans (congrArg _ (if_neg fun hl => hl h)), s.sameButCore_modCore _ _, State.core_modCore ..⟩

/-- Settles O7: each clause is the equation of its word, with the condition of a waiting word read off its immediates, its operand or
the accesses under way. -/
theorem waitingAndServiceWords : Obligations.WaitingAndServiceWords := by
  unfold Obligations.WaitingAndServiceWords
  refine ⟨?waiting, ?service⟩
  case waiting =>
    intro s gd ga scope ld st cp tl hready c met all clear
    have hall : (waitMet ld c.ocLd && waitMet st c.ocSt && waitMet cp c.ocCp && waitMet tl c.ocTl) = true ↔ all := by
      simp only [Bool.and_eq_true, waitMet_iff, and_assoc]
      rfl
    have hclear : (s.accsOf s.foc.unit).any Access.holdsFence = false ↔ clear := s.any_holdsFence_eq_false_iff s.foc.unit
    rw [exec_wait, exec_time hready.writes, exec_sleep hready.reads, exec_fence]
    refine ⟨fun h => ?waitRetires, fun h => ?waitStalls, rfl, fun h => ?sleepRetires, fun h => ?sleepStalls,
      fun _ h => ?fenceRetires, fun hscope h => ?fenceStalls, exec_nop s⟩
    case waitRetires => rw [if_pos (hall.mpr h)]
    case waitStalls => rw [if_neg ((not_congr hall).mpr h)]
    case sleepRetires => rw [if_pos h]
    case sleepStalls => rw [if_neg h]
    case fenceRetires => rw [if_neg fun hany => Bool.false_ne_true ((hclear.mpr h).symm.trans hany.2)]
    case fenceStalls => rw [if_pos ⟨hscope, Bool.of_not_eq_false ((not_congr hclear).mpr h)⟩]
  case service =>
    intro s code w c up
    refine ⟨fun hih => ?trap, exec_brk s code, rfl, fun hl => ?halt, fun hl => ?haltRefused, exec_idle s⟩
    case trap =>
      obtain ⟨t, hexec, hsame, hself⟩ := exec_trap_enters code hih
      refine ⟨t, hexec, hsame, ?_⟩
      rw [hself]
      exact ⟨rfl, rfl, rfl, rfl, Core.trap_enterTrap ..⟩
    case halt =>
      obtain ⟨t, hexec, hsame, hself⟩ := exec_halt_stops hl
      refine ⟨t, hexec, hsame, ?_⟩
      rw [hself]
      rfl
    case haltRefused => exact ⟨_, (exec_halt s).trans (congrArg _ (if_pos hl))⟩

end Sys2Proof.Machine

/-!
A barrier that nothing consumes, at a BARR of its one input (R179, R455): it ends at the word where the region map is in key order, and
may stay in the word's join where it is not.
-/

namespace Sys2Proof.Machine

/-! ### Maps in key order -/

theorem mem_of_mapFind {V : Type} {m : NMap V} {k : Nat} {v : V} (h : mapFind m k = some v) : (k, v) ∈ m := by
  induction m with
  | nil => cases h
  | cons e rest ih =>
    obtain ⟨k', v'⟩ := e
    simp only [mapFind] at h
    split at h
    next hk =>
      subst hk
      exact Option.some.inj h ▸ List.mem_cons_self
    next => exact List.mem_cons_of_mem _ (ih h)

/-- In key order, changing the value of a listed key changes that entry where it stands. -/
theorem mapSet_eq_map {V : Type} {m : NMap V} (hm : Sorted m) {k : Nat} {v : V} (hk : mapFind m k = some v) (f : V → V) :
    mapSet m k (f v) = m.map fun e => (e.1, if e.1 = k then f e.2 else e.2) := by
  induction m with
  | nil => cases hk
  | cons e rest ih =>
    obtain ⟨k', v'⟩ := e
    by_cases he : k' = k
    · subst he
      obtain rfl : v' = v := by simpa [mapFind] using hk
      have hrest : ∀ e ∈ rest, (e.1, if e.1 = k' then f e.2 else e.2) = e := fun e h => by
        rw [if_neg (Nat.ne_of_gt (hm.head e h))]
      simp [mapSet, List.map_congr_left hrest]
    · have hrest : mapFind rest k = some v := by simpa [mapFind, he] using hk
      have hlt : ¬ k < k' := Nat.lt_asymm (hm.head _ (mem_of_mapFind hrest))
      simp [mapSet, Ne.symm he, he, hlt, ih hm.tail hrest]

/-! ### Regions by their span -/

/-- Whether a region's block of tiles holds tile `n` (R19). -/
def Region.spans (g : Region) (n : Nat) : Bool := decide (g.lead ≤ n ∧ n < g.lead + 2 ^ g.lgn)

theorem State.regionOf_eq (s : State) (r : Nat) : s.regionOf r = (s.regions.find? fun e => e.2.spans r).map Prod.snd := List.find?_map ..

/-- A change that keeps every region's span keeps the span of the region that holds a tile, where the region map is in key order. -/
theorem State.spans_regionOf_modRegion {s : State} (h : Sorted s.regions) (lead x n : Nat) {f : Region → Region}
    (hf : ∀ g k, (f g).spans k = g.spans k) :
    ((s.modRegion lead f).regionOf x).all (·.spans n) = (s.regionOf x).all (·.spans n) := by
  unfold State.modRegion
  split
  next g hg =>
    have hspans : ∀ (e : Nat × Region) k, (if e.1 = lead then f e.2 else e.2).spans k = e.2.spans k := fun e k => by
      split
      · exact hf e.2 k
      · rfl
    simp only [State.regionOf_eq, mapSet_eq_map h hg, List.find?_map, Function.comp_def, hspans]
    cases s.regions.find? fun e => e.2.spans x with
    | none => rfl
    | some e => exact hspans e n
  next => rfl

/-- Marking a region as having moved something keeps the span of the region that holds a tile, where the region map is in key order. -/
theorem State.spans_regionOf_touch {s : State} (h : Sorted s.regions) (r x n : Nat) :
    ((s.touch r).regionOf x).all (·.spans n) = (s.regionOf x).all (·.spans n) := by
  unfold State.touch
  split
  · exact State.spans_regionOf_modRegion h _ x n fun _ _ => rfl
  · rfl

/-! ### What a change of a router leaves alone -/

theorem State.tile_touch (s : State) (r x : Nat) : (s.touch r).tile x = s.tile x := by
  simp only [State.tile, State.touch_tiles]

@[simp] theorem State.router_touch (s : State) (r x : Nat) : (s.touch r).router x = s.router x := by
  simp only [State.router, State.fab, State.tile_touch]

@[simp] theorem State.router_modRouter (s : State) (r : Nat) (f : Router → Router) :
    (s.modRouter r f).router r = f (s.router r) := by
  simp only [State.router, State.modRouter, State.fab_modFab]

theorem State.router_modRouter_ne (s : State) {r x : Nat} (f : Router → Router) (h : x ≠ r) :
    (s.modRouter r f).router x = s.router x := by
  simp only [State.router, State.modRouter, State.fab_modFab_ne s _ h]

theorem State.words_router_modRouter (s : State) (r x : Nat) {f : Router → Router} (h : ∀ t, (f t).words = t.words) :
    ((s.modRouter r f).router x).words = (s.router x).words := by
  by_cases hx : x = r
  · subst hx
    rw [State.router_modRouter, h]
  · rw [State.router_modRouter_ne s f hx]

theorem State.sameBytes_touch (s : State) (r : Nat) : s.sameBytes (s.touch r) := by
  intro l
  cases l <;> simp only [State.byteAt, State.core, State.mtile, State.fab, State.tile_touch, State.touch_dram, State.touch_banks]

theorem State.sameBytes_modRouter (s : State) (r : Nat) (f : Router → Router) : s.sameBytes (s.modRouter r f) :=
  s.sameBytes_modTile r _ rfl rfl rfl

theorem State.sameBytes.trans {s t u : State} (h : s.sameBytes t) (h' : t.sameBytes u) : s.sameBytes u :=
  fun l => (h' l).trans (h l)

theorem State.hasConsumer_congr {s t : State} {r out : Nat} (hcodes : (t.router r).codes = (s.router r).codes)
    (hcirc : (t.router r).circ = (s.router r).circ) (hwords : ∀ n, (t.router n).words = (s.router n).words)
    (hspans : ∀ n, (t.regionOf r).all (·.spans n) = (s.regionOf r).all (·.spans n)) : t.hasConsumer r out = s.hasConsumer r out := by
  unfold Region.spans at hspans
  simp only [State.hasConsumer, Router.dest, Router.takes, hcodes, hcirc, hwords, hspans]

/-! ### A barrier that nothing consumes -/

theorem popTok_of_peekHead_barrier {now : Nat} {l : List Held} {src : List (Nat × Nat × Nat)}
    (h : peekHead now l = some (.barrier src)) : popTok now l = some (.barrier src, l.drop 1) := by
  cases l with
  | nil => cases h
  | cons a rest =>
    obtain ⟨i, ready⟩ := a
    simp only [peekHead, popTok] at h ⊢
    split
    next hready => simp [hready] at h
    next hready =>
      rw [if_neg hready] at h
      split
      next => simp at h
      next => simpa using h

/-- A barrier leaves its input buffer for the join of a BARR (R179). -/
theorem State.holdBarrier_of_headAt {s : State} {r k p : Nat} {src : List (Nat × Nat × Nat)}
    (h : s.headAt r p = some (.barrier src)) (hfree : mapFind (s.router r).barr (8 * k + p) = none) :
    s.holdBarrier r k p = ((s.modRouter r fun t => { t with inq := mapPut [] t.inq p (((s.router r).buf p).drop 1) }).touch r).modRouter r
      fun t => { t with barr := mapSet t.barr (8 * k + p) src } := by
  simp only [State.holdBarrier, h, hfree, State.takeAt, popTok_of_peekHead_barrier h]
  rfl

theorem maskPorts_two_pow : ∀ p < 8, maskPorts (2 ^ p) = [p] := by decide

/-- Delivering a barrier to the join of a BARR changes no consumer, where the region map is in key order. -/
theorem State.hasConsumer_holdBarrier {s : State} {r k p out : Nat} {src : List (Nat × Nat × Nat)} (hsorted : Sorted s.regions)
    (h : s.headAt r p = some (.barrier src)) (hfree : mapFind (s.router r).barr (8 * k + p) = none) :
    (s.holdBarrier r k p).hasConsumer r out = s.hasConsumer r out := by
  rw [State.holdBarrier_of_headAt h hfree]
  refine State.hasConsumer_congr ?codes ?circ (fun n => ?words) fun n => ?spans
  case codes => simp only [State.router_modRouter, State.router_touch]
  case circ => simp only [State.router_modRouter, State.router_touch]
  case words =>
    rw [State.words_router_modRouter, State.router_touch, State.words_router_modRouter]
    all_goals exact fun _ => rfl
  case spans => exact State.spans_regionOf_touch (s := s.modRouter r _) hsorted r r n

/-- A barrier that nothing consumes ends at a BARR of its one input, where the region map is in key order (R455): this is what the
fourth clause of O40 says of every state. -/
theorem exec_barr_of_unconsumed {s : State} {p : Nat} {src : List (Nat × Nat × Nat)} {o : BitVec 3} (hsorted : Sorted s.regions)
    (hp : p < 8) (hfree : mapFind (s.router s.foc.unit).barr (8 * s.foc.sub + p) = none)
    (hhead : s.headAt s.foc.unit p = some (.barrier src)) (hnone : s.hasConsumer s.foc.unit o.toNat = false) :
    ∃ u, exec (.barr o (2 ^ p)) s = .next u ∧ s.sameBytes u ∧
      (u.router s.foc.unit).buf p = ((s.router s.foc.unit).buf p).drop 1 ∧
      mapFind (u.router s.foc.unit).barr (8 * s.foc.sub + p) = none := by
  have hhold := State.holdBarrier_of_headAt hhead hfree
  have hnone' := (State.hasConsumer_holdBarrier (out := o.toNat) hsorted hhead hfree).trans hnone
  have hjoined : mapFind ((s.holdBarrier s.foc.unit s.foc.sub p).router s.foc.unit).barr (8 * s.foc.sub + p) = some src := by
    rw [hhold, State.router_modRouter]
    exact mapFind_mapSet_same ..
  refine ⟨((s.holdBarrier s.foc.unit s.foc.sub p).modRouter s.foc.unit fun t =>
    { t with barr := t.barr.filter fun e => decide (e.1 / 8 ≠ s.foc.sub) }).touch s.foc.unit, ?exec, ?bytes, ?buf, ?barr⟩
  case exec =>
    change execBarr o (2 ^ p) s = _
    simp only [execBarr, maskPorts_two_pow p hp, List.foldl_cons, List.foldl_nil, List.map_cons, List.map_nil, hjoined, hnone']
    rfl
  case bytes =>
    rw [hhold]
    exact ((((s.sameBytes_modRouter _ _).trans (State.sameBytes_touch _ _)).trans (State.sameBytes_modRouter _ _ _)).trans
      (State.sameBytes_modRouter _ _ _)).trans (State.sameBytes_touch _ _)
  case buf =>
    rw [hhold]
    simp only [State.router_touch, State.router_modRouter, Router.buf]
    exact mapGet_mapPut_same ..
  case barr =>
    simp only [State.router_touch, State.router_modRouter]
    rw [mapFind_filter _ fun j => decide (j / 8 ≠ s.foc.sub), if_neg]
    have : (8 * s.foc.sub + p) / 8 = s.foc.sub := by omega
    simp [this]

/-! ### Regions out of key order -/

/-- A barrier at input port 4 of the router of tile 0, whose output to tile 1 is taken in this cycle, and two regions that hold tile 0.
The first listed ends at tile 0, so that nothing in it consumes the barrier; the other holds tile 1 too, where a ROUTE takes it. The
region map lists key 1 before key 0. -/
def regionsOutOfOrder : State :=
  let one := State.reset.modRouter 0 fun t => { t with inq := [(4, [⟨.barrier [(9, 0, 0)], 0⟩])], outAt := [(1, 1)] }
  { (one.modRouter 1 fun t => { t with words := [0x1310] }) with
    regions := [(1, { (default : Region) with lead := 0, lgn := 0 }), (0, { (default : Region) with lead := 0, lgn := 1 })] }

theorem regionsOutOfOrder_headAt : regionsOutOfOrder.headAt 0 4 = some (.barrier [(9, 0, 0)]) := by decide
theorem regionsOutOfOrder_hasConsumer : regionsOutOfOrder.hasConsumer 0 1 = false := by decide

theorem regionsOutOfOrder_barr :
    ∃ u, exec (.barr 1 0x10) regionsOutOfOrder = .next u ∧ mapFind (u.router 0).barr 4 = some [(9, 0, 0)] :=
  ⟨_, rfl, by decide⟩

/-- Refutes O40: its fourth clause fails in `regionsOutOfOrder`. The clause speaks of every state, and the region map of a state is a
plain list, which need not be in key order. There, marking the region as having moved something lists the region of key 0 once more in
front, which makes it the one that holds tile 0; the word then finds a consumer for the barrier that it has taken, and the output
refuses it. Where the map is in key order, `exec_barr_of_unconsumed` proves the clause. -/
theorem not_switchWords : ¬ Obligations.SwitchWords := by
  unfold Obligations.SwitchWords
  rintro ⟨-, -, -, barrierEnds, -⟩
  obtain ⟨u, hu, -, -, hfree⟩ := barrierEnds regionsOutOfOrder 0 4 4 [(9, 0, 0)] 1 0x10 rfl rfl (by decide) rfl rfl
    regionsOutOfOrder_headAt regionsOutOfOrder_hasConsumer
  obtain ⟨v, hv, hheld⟩ := regionsOutOfOrder_barr
  obtain rfl : u = v := Host.Outcome.next.inj (hu.symm.trans hv)
  exact Option.some_ne_none _ (hheld.symm.trans hfree)

end Sys2Proof.Machine

/-!
Integer and movement words of a cell (R118, R119, R126 to R129, R139 to R142): what each gives the elements or the lanes of its
result, PERM, LSHF and BCST for a source register of no more lanes than the cell; and a state that lists more, where PERM takes what
stands beyond them.
-/

namespace Sys2Proof.Machine

/-! ### Elements and widths -/

theorem elemOf_lane (x : OpCtx) (b : Nat) (v : BitVec 5) (L e : Nat) : elemOf b e (lane (x.reg v) L) = x.elem b v L e := by
  simp only [elemOf, bits, OpCtx.elem, Nat.shiftRight_eq_div_pow]

theorem OpCtx.elem_lt (x : OpCtx) (b : Nat) (v : BitVec 5) (L e : Nat) : x.elem b v L e < 2 ^ b := Nat.mod_lt _ (Nat.two_pow_pos b)

theorem intWidthOfW_pos (n : Nat) : 0 < intWidthOfW n := by
  unfold intWidthOfW
  split
  · decide
  · split <;> decide

theorem signed_eq_toInt {n : Nat} (hn : 0 < n) (v : Nat) : signed n v = (BitVec.ofNat n v).toInt := by
  have hpow : 2 ^ n = 2 * 2 ^ (n - 1) := by rw [← Nat.pow_succ', Nat.succ_eq_add_one, Nat.sub_add_cancel hn]
  rw [BitVec.toInt_eq_toNat_cond, BitVec.toNat_ofNat]
  simp only [signed]
  congr 1
  rw [hpow, eq_iff_iff]
  omega

theorem wrapNat_natCast (n a : Nat) : wrapNat n (a : Int) = a % 2 ^ n := by
  rw [wrapNat, ← Int.natCast_emod, Int.toNat_natCast]

theorem natCast_two_pow (n : Nat) : ((2 ^ n : Nat) : Int) = 2 ^ n := Int.natCast_pow 2 n

theorem wrapNat_eq_ofInt (n : Nat) (v : Int) : wrapNat n v = (BitVec.ofInt n v).toNat := (BitVec.toNat_ofInt ..).symm

theorem wrapNat_sub {n a b : Nat} (h : b < 2 ^ n) : wrapNat n ((a : Int) - b) = (a + 2 ^ n - b) % 2 ^ n := by
  rw [← wrapNat_natCast, wrapNat, wrapNat, Int.natCast_sub (by omega), Int.natCast_add,
    show (a : Int) + (2 ^ n : Nat) - b = a - b + (2 ^ n : Nat) by omega, Int.add_emod_right]

/-- The code of one of two codes' signed values is that code. -/
theorem wrapNat_ite_toInt (n : Nat) (p : Prop) [Decidable p] (a b : Nat) :
    wrapNat n (if p then (BitVec.ofNat n a).toInt else (BitVec.ofNat n b).toInt) = (if p then a else b) % 2 ^ n := by
  rw [← apply_ite (fun v => (BitVec.ofNat n v).toInt), wrapNat_eq_ofInt, BitVec.ofInt_toInt, BitVec.toNat_ofNat]

/-! ### The two frames -/

/-- The lane word gives each element of width `b` of its selected lanes a code, and raises no condition (R119, R127). -/
def State.givesElems (s : State) (x : OpCtx) (i : Instr) (vd : BitVec 5) (pm : BitVec 4) (b : Nat) (res : Nat → Nat → Nat) : Prop :=
  s.runsLanes x i vd (x.selects pm) b (fun L e => (res L e, noConds)) 1

/-- The lane word gives each of its selected lanes a word, and raises no condition (R142). -/
def State.givesLanes (s : State) (x : OpCtx) (i : Instr) (vd : BitVec 5) (pm : BitVec 4) (res : Nat → Word) : Prop :=
  s.givesElems x i vd pm 32 fun L _ => (res L).toNat

theorem State.runsLanes.congr {s : State} {x : OpCtx} {i : Instr} {vd : BitVec 5} {sel : Nat → Bool} {b n : Nat}
    {res res' : Nat → Nat → Nat} (h : s.runsLanes x i vd sel b (fun L e => (res L e, noConds)) n)
    (hres : ∀ L e, res L e % 2 ^ b = res' L e % 2 ^ b) : s.runsLanes x i vd sel b (fun L e => (res' L e, noConds)) n := by
  simpa only [State.runsLanes, OpCtx.fills, hres] using h

theorem givesElems_of_intOp {s : State} {x : OpCtx} {i : Instr} {vd va vb vc : BitVec 5} {w : BitVec 2} {pm : BitVec 4} {b : Nat}
    {f : Nat → Nat → Nat → Nat → Int} {res : Nat → Nat → Nat} (h : s.fires x) (hb : intWidthOfW w.toNat = b)
    (hi : exec i s = .next (intOp s vd va vb vc w pm f))
    (hres : ∀ L e, wrapNat b (f b (x.elem b va L e) (x.elem b vb L e) (x.elem b vc L e)) = res L e % 2 ^ b) :
    s.givesElems x i vd pm b res := by
  subst hb
  refine (runsLanes_of (sel := fun y => y.selects pm) h hi).congr fun L e => ?_
  simp only [elemOf_lane, hres, Nat.mod_mod]

theorem mapElems_32 (v : Word) : mapElems 32 (fun _ => (v.toNat, noConds)) = (v.toNat, noConds) := by
  simpa [mapElems, perLane, packElems, Conds.join, noConds] using v.isLt

theorem givesLanes_of_moveOp {s : State} {x : OpCtx} {i : Instr} {vd : BitVec 5} {pm : BitVec 4} {f : OpCtx → Nat → Nat}
    {res : Nat → Word} (h : s.fires x) (hi : exec i s = .next (moveOp s vd pm f)) (hres : ∀ L, f x L = (res L).toNat) :
    s.givesLanes x i vd pm res := by
  refine runsLanes_of (sel := fun y => y.selects pm) (res := fun _ L _ => ((res L).toNat, noConds)) h ?_
  rw [hi, moveOp, opWord_runs h, opWord_runs h]
  simp only [hres, mapElems_32]

/-! ### Integer words -/

section
variable {s : State} {x : OpCtx} (h : s.fires x) (vd va vb vc : BitVec 5) {w : BitVec 2} (pm : BitVec 4) {b : Nat}
  (hb : intWidthOfW w.toNat = b)
include h hb

theorem exec_iadd_givesElems :
    s.givesElems x (.iadd vd va vb w pm) vd pm b fun L e => (x.elem b va L e + x.elem b vb L e) % 2 ^ b :=
  givesElems_of_intOp h hb rfl fun L e => by rw [Nat.mod_mod, ← Int.natCast_add, wrapNat_natCast]

theorem exec_isub_givesElems :
    s.givesElems x (.isub vd va vb w pm) vd pm b fun L e => (x.elem b va L e + 2 ^ b - x.elem b vb L e) % 2 ^ b :=
  givesElems_of_intOp h hb rfl fun L e => by rw [Nat.mod_mod, wrapNat_sub (x.elem_lt b vb L e)]

/-- IMUL: the low half of the product, the high half of the signed one, or the high half of the unsigned one. -/
theorem exec_imul_givesElems (half : BitVec 2) :
    s.givesElems x (.imul vd va vb half w pm) vd pm b fun L e =>
      if half = 0 then x.elem b va L e * x.elem b vb L e % 2 ^ b
      else if half = 1 then
        (BitVec.ofInt b ((BitVec.ofNat b (x.elem b va L e)).toInt * (BitVec.ofNat b (x.elem b vb L e)).toInt / 2 ^ b)).toNat
      else x.elem b va L e * x.elem b vb L e / 2 ^ b :=
  givesElems_of_intOp h hb rfl fun L e => by
    have hpos : 0 < b := hb ▸ intWidthOfW_pos _
    by_cases hlow : half = 0
    · simp only [if_pos hlow]
      rw [Nat.mod_mod, ← Int.natCast_mul, wrapNat_natCast]
    · by_cases hsigned : half = 1
      · simp only [if_neg hlow, if_pos hsigned]
        rw [signed_eq_toInt hpos, signed_eq_toInt hpos, wrapNat_eq_ofInt, Nat.mod_eq_of_lt (BitVec.isLt _), natCast_two_pow]
      · simp only [if_neg hlow, if_neg hsigned]
        exact wrapNat_natCast ..

theorem exec_imad_givesElems :
    s.givesElems x (.imad vd va vb vc w pm) vd pm b fun L e => (x.elem b va L e * x.elem b vb L e + x.elem b vc L e) % 2 ^ b :=
  givesElems_of_intOp h hb rfl fun L e => by rw [Nat.mod_mod, ← Int.natCast_mul, ← Int.natCast_add, wrapNat_natCast]

theorem exec_imin_givesElems (uns : BitVec 1) :
    s.givesElems x (.imin vd va vb uns w pm) vd pm b fun L e =>
      if (if uns = 1 then x.elem b va L e ≤ x.elem b vb L e
        else (BitVec.ofNat b (x.elem b va L e)).toInt ≤ (BitVec.ofNat b (x.elem b vb L e)).toInt)
      then x.elem b va L e else x.elem b vb L e :=
  givesElems_of_intOp h hb rfl fun L e => by
    have hpos : 0 < b := hb ▸ intWidthOfW_pos _
    by_cases hu : uns = 1
    · simp only [if_pos hu]
      rw [wrapNat_natCast]
      exact congrArg (· % 2 ^ b) Nat.min_def
    · simp only [if_neg hu]
      rw [signed_eq_toInt hpos, signed_eq_toInt hpos, Int.min_def, wrapNat_ite_toInt]

theorem exec_imax_givesElems (uns : BitVec 1) :
    s.givesElems x (.imax vd va vb uns w pm) vd pm b fun L e =>
      if (if uns = 1 then x.elem b va L e ≤ x.elem b vb L e
        else (BitVec.ofNat b (x.elem b va L e)).toInt ≤ (BitVec.ofNat b (x.elem b vb L e)).toInt)
      then x.elem b vb L e else x.elem b va L e :=
  givesElems_of_intOp h hb rfl fun L e => by
    have hpos : 0 < b := hb ▸ intWidthOfW_pos _
    by_cases hu : uns = 1
    · simp only [if_pos hu]
      rw [wrapNat_natCast]
      exact congrArg (· % 2 ^ b) Nat.max_def
    · simp only [if_neg hu]
      rw [signed_eq_toInt hpos, signed_eq_toInt hpos, Int.max_def, wrapNat_ite_toInt]

theorem exec_iand_givesElems :
    s.givesElems x (.iand vd va vb w pm) vd pm b fun L e => x.elem b va L e &&& x.elem b vb L e :=
  givesElems_of_intOp h hb rfl fun _ _ => wrapNat_natCast ..

theorem exec_ior_givesElems :
    s.givesElems x (.ior vd va vb w pm) vd pm b fun L e => x.elem b va L e ||| x.elem b vb L e :=
  givesElems_of_intOp h hb rfl fun _ _ => wrapNat_natCast ..

theorem exec_ixor_givesElems :
    s.givesElems x (.ixor vd va vb w pm) vd pm b fun L e => x.elem b va L e ^^^ x.elem b vb L e :=
  givesElems_of_intOp h hb rfl fun _ _ => wrapNat_natCast ..

theorem exec_ishl_givesElems :
    s.givesElems x (.ishl vd va vb w pm) vd pm b fun L e => x.elem b va L e * 2 ^ (x.elem b vb L e % b) % 2 ^ b :=
  givesElems_of_intOp h hb rfl fun L e => by rw [Nat.mod_mod, wrapNat_natCast, Nat.shiftLeft_eq]

theorem exec_ishr_givesElems (logical : BitVec 1) :
    s.givesElems x (.ishr vd va vb logical w pm) vd pm b fun L e =>
      if logical = 1 then x.elem b va L e / 2 ^ (x.elem b vb L e % b)
      else (BitVec.ofInt b ((BitVec.ofNat b (x.elem b va L e)).toInt / 2 ^ (x.elem b vb L e % b))).toNat :=
  givesElems_of_intOp h hb rfl fun L e => by
    by_cases hl : logical = 1
    · simp only [if_pos hl]
      rw [wrapNat_natCast, Nat.shiftRight_eq_div_pow]
    · simp only [if_neg hl]
      rw [signed_eq_toInt (hb ▸ intWidthOfW_pos _), wrapNat_eq_ofInt, Nat.mod_eq_of_lt (BitVec.isLt _), natCast_two_pow]

end

/-! ### Words that write whole lanes -/

/-- What a register of at most `n` lanes holds beyond them reads zero. -/
theorem lane_eq_ite {l : Lanes} {n : Nat} (h : l.length ≤ n) (k : Nat) : lane l k = if k < n then lane l k else 0 := by
  split
  next => rfl
  next hk => rw [lane, List.getD_eq_getElem?_getD, List.getElem?_eq_none (by omega), Option.getD_none]

/-- What a lane gives LSHF and BCST, where the source register has at most the lanes of the cell. -/
theorem given_eq {x : OpCtx} {va : BitVec 5} (hva : (x.reg va).length ≤ x.lanes) (pm : BitVec 4) (k : Nat) :
    x.given pm va k = (if k < x.lanes ∧ x.selects pm k = true then lane (x.reg va) k else 0).toNat := by
  rw [OpCtx.given, lane_eq_ite hva k]
  by_cases hk : k < x.lanes <;> by_cases hs : x.selects pm k = true <;> simp [hk, hs]

section
variable {s : State} {x : OpCtx} (h : s.fires x) (vd va vb : BitVec 5) (imm : BitVec 12) (pm : BitVec 4)
include h

theorem exec_iaddi_givesLanes :
    s.givesLanes x (.iaddi vd va imm pm) vd pm fun L => lane (x.reg va) L + BitVec.ofInt 32 imm.toInt :=
  givesLanes_of_moveOp h rfl fun _ => rfl

theorem exec_movi_givesLanes : s.givesLanes x (.movi vd imm pm) vd pm fun _ => BitVec.ofInt 32 imm.toInt :=
  givesLanes_of_moveOp h rfl fun _ => rfl

theorem exec_sel_givesLanes (mask : BitVec 2) :
    s.givesLanes x (.sel vd va vb mask pm) vd pm fun L =>
      if (x.f.mask x.lanes mask.toNat).getD L false then lane (x.reg va) L else lane (x.reg vb) L :=
  givesLanes_of_moveOp h rfl fun _ => rfl

/-! PERM, LSHF and BCST keep to the lanes of the cell where the source register has no more of them. -/

variable {va} (hva : (x.reg va).length ≤ x.lanes)
include hva

theorem exec_perm_givesLanes :
    s.givesLanes x (.perm vd va vb pm) vd pm fun L =>
      if (lane (x.reg vb) L).toNat % 128 < x.lanes then lane (x.reg va) ((lane (x.reg vb) L).toNat % 128) else 0 :=
  givesLanes_of_moveOp h rfl fun _ => congrArg BitVec.toNat (lane_eq_ite hva _)

theorem exec_lshf_givesLanes (dist : BitVec 5) :
    s.givesLanes x (.lshf vd va dist pm) vd pm fun L =>
      let src := (L : Int) - dist.toInt
      if 0 ≤ src ∧ src < x.lanes ∧ x.selects pm src.toNat = true then lane (x.reg va) src.toNat else 0 :=
  givesLanes_of_moveOp h rfl fun L => by
    by_cases hsrc : 0 ≤ (L : Int) - dist.toInt
    · have hlanes : (L : Int) - dist.toInt < x.lanes ↔ ((L : Int) - dist.toInt).toNat < x.lanes := by omega
      simp only [hsrc, if_true, true_and, hlanes, given_eq hva]
    · simp only [hsrc, if_false, false_and]
      rfl

theorem exec_bcst_givesLanes :
    s.givesLanes x (.bcst vd va vb pm) vd pm fun _ =>
      let src := (lane (x.reg vb) 0).toNat % 128
      if src < x.lanes ∧ x.selects pm src = true then lane (x.reg va) src else 0 :=
  givesLanes_of_moveOp h rfl fun _ => given_eq hva pm _

end

/-! ### Comparisons -/

/-- The condition of ICMP, by its code, on two elements of width `n` (R128). -/
def intHolds (n cond p q : Nat) : Prop :=
  match cond with
  | 0 => p = q
  | 1 => p ≠ q
  | 2 => (BitVec.ofNat n p).toInt < (BitVec.ofNat n q).toInt
  | 3 => (BitVec.ofNat n p).toInt ≤ (BitVec.ofNat n q).toInt
  | 4 => (BitVec.ofNat n q).toInt < (BitVec.ofNat n p).toInt
  | 5 => (BitVec.ofNat n q).toInt ≤ (BitVec.ofNat n p).toInt
  | 6 => p < q
  | _ => q ≤ p

theorem intCond_iff {n : Nat} (hn : 0 < n) (cond p q : Nat) : intCond cond n p q = true ↔ intHolds n cond p q := by
  simp only [intCond, signed_eq_toInt hn]
  match cond with
  | 0 | 1 | 2 | 3 | 4 | 5 | 6 => simp [intHolds]
  | _ + 7 => simp [intHolds]

/-- A comparison word sets a mask: in each selected lane, whether its condition holds of every element; the rest of the mask stays. -/
theorem compareOp_sets {s : State} {x : OpCtx} (h : s.fires x) (mask : BitVec 2) (va vb : BitVec 5) (pm : BitVec 4) (b : Nat)
    (f : Nat → Nat → Bool) :
    ∃ m : List Bool, compareOp s mask va vb pm b f = s.opNext s x (x.f.setMask mask.toNat m) 1 ∧ m.length = x.lanes ∧
      ∀ L < x.lanes,
        (x.selects pm L = true → (m.getD L false = true ↔ ∀ e < 32 / b, f (x.elem b va L e) (x.elem b vb L e) = true)) ∧
        (x.selects pm L = false → m.getD L false = (x.f.mask x.lanes mask.toNat).getD L false) := by
  refine ⟨_, opWord_runs h _, by simp, fun L hL => ⟨fun hs => ?selected, fun hs => ?unselected⟩⟩
  case selected => simp [hL, hs, elemOf_lane, perLane]
  case unselected => simp [hL, hs]

theorem exec_icmp_sets {s : State} {x : OpCtx} (h : s.fires x) (mask : BitVec 2) (va vb : BitVec 5) (cond : BitVec 3) {w : BitVec 2}
    (pm : BitVec 4) {b : Nat} (hb : intWidthOfW w.toNat = b) :
    ∃ m : List Bool, exec (.icmp mask va vb cond w pm) s = .next (s.opNext s x (x.f.setMask mask.toNat m) 1) ∧ m.length = x.lanes ∧
      ∀ L < x.lanes,
        (x.selects pm L = true →
          (m.getD L false = true ↔ ∀ e < 32 / b, intHolds b cond.toNat (x.elem b va L e) (x.elem b vb L e))) ∧
        (x.selects pm L = false → m.getD L false = (x.f.mask x.lanes mask.toNat).getD L false) := by
  subst hb
  obtain ⟨m, hm, hlength, hlanes⟩ := compareOp_sets h mask va vb pm (intWidthOfW w.toNat) (intCond cond.toNat (intWidthOfW w.toNat))
  simp only [intCond_iff (intWidthOfW_pos _)] at hlanes
  exact ⟨m, congrArg Host.Outcome.next hm, hlength, hlanes⟩

/-! ### The register after a lane word -/

@[simp] theorem State.cell_touch (s : State) (r n k : Nat) : (s.touch r).cell n k = s.cell n k := by
  simp only [State.cell, State.fab, State.tile_touch]

theorem Firing.regs_loopCheck (f : Firing) (pc n : Nat) : (f.loopCheck pc n).1.regs = f.regs := by
  induction n generalizing f with
  | zero => rfl
  | succ n ih =>
    simp only [Firing.loopCheck]
    split
    · split
      · rfl
      · exact ih _
    · exact ih f

/-- The word that follows finds the registers that a word has left. -/
theorem State.regs_opNext (s t : State) (x : OpCtx) (f : Firing) (n : Nat) :
    ((s.opNext t x f n).cell x.r x.k).firing.map Firing.regs = some f.regs := by
  simp [State.opNext, State.opEnd, Firing.regs_loopCheck]

/-- A lane word that raises no condition leaves in its register the lanes that its elements make. -/
theorem State.runsLanes.leaves {s : State} {x : OpCtx} {i : Instr} {vd : BitVec 5} {sel : Nat → Bool} {b n : Nat}
    {res : Nat → Nat → Nat} (h : s.runsLanes x i vd sel b (fun L e => (res L e, noConds)) n) :
    ∃ (u : State) (g : Firing), exec i s = .next u ∧ (u.cell x.r x.k).firing = some g ∧ x.fills vd sel b res (g.reg x.lanes vd.toNat) := by
  obtain ⟨c, hiv, hdz, hov, -, -, hwrites⟩ := h
  have hquiet : ¬ (x.policy = .trap ∧ (c.iv = true ∨ c.dz = true ∨ c.ov = true)) := by
    rw [hiv, hdz, hov]
    simp [noConds]
  obtain ⟨l, hexec, hl⟩ := hwrites hquiet
  obtain ⟨g, hg, hregs⟩ := Option.map_eq_some_iff.1 (s.regs_opNext (x.record s c) x (x.f.setReg vd.toNat l) n)
  refine ⟨_, g, hexec, hg, ?_⟩
  rwa [Firing.reg, hregs, Firing.setReg, mapGet_mapSet_same]

/-! ### A register of more lanes than its cell -/

/-- A firing on a cell of 8 lanes whose register v24 lists sixteen, each 1; every lane of v1 names lane 8. A splice that
inherits may leave such a register: `State.actSplice` hands an inserted stage the bank of its predecessor and compares no fused sizes
(R213). -/
def inherited : Firing := { (default : Firing) with regs := [(1, List.replicate 8 8), (24, List.replicate 16 1)] }

/-- The context of that firing, on cell 0 of tile 0. -/
def inheritedCtx : OpCtx := ⟨0, 0, { Cell.reset with actors := [default], firing := some inherited }, default, inherited⟩

/-- The device after reset, with that cell. -/
def inheritedState : State := State.reset.modCell 0 0 fun _ => inheritedCtx.c

theorem inherited_fires : inheritedState.fires inheritedCtx :=
  ⟨rfl, rfl, (State.cell_modCell State.reset 0 0 fun _ => inheritedCtx.c).symm, rfl, rfl, rfl, by decide, nofun⟩

theorem witness_narrow_reg : ∃ (s : State) (x : OpCtx) (va : BitVec 5), s.fires x ∧ (x.reg va).length ≤ x.lanes :=
  ⟨inheritedState, inheritedCtx, 1, inherited_fires, by decide⟩

theorem inherited_perm_wide : ∃ u, exec (.perm 3 24 1 0) inheritedState = .next u ∧
    (u.cell 0 0).firing.map (fun g => lane (g.reg 8 3) 0) = some 1 := ⟨_, rfl, by decide⟩

/-- Refutes O29: its PERM clause fails in `inheritedState`. The clause gives zero for a source at or beyond the lanes of the cell, as
R139 does; the model looks the source up in the register's list, and the list of a state may be longer than the cell has lanes. Where
it is not, `exec_perm_givesLanes`, `exec_lshf_givesLanes` and `exec_bcst_givesLanes` prove the clauses of the words that look beyond
a lane; those of the other words hold of every state, each by its `exec_` lemma. -/
theorem not_laneIntegers : ¬ Obligations.LaneIntegers := by
  unfold Obligations.LaneIntegers
  intro h
  obtain ⟨-, -, -, -, -, -, -, -, -, -, -, -, -, -, -, permutes, -⟩ :=
    h inheritedState inheritedCtx 3 24 1 0 0 0 0 0 0 0 0 inherited_fires
  obtain ⟨u, g, hexec, hg, -, hlanes⟩ := permutes.leaves
  obtain ⟨v, hexec', hlane⟩ := inherited_perm_wide
  obtain rfl : u = v := Host.Outcome.next.inj (hexec.symm.trans hexec')
  have hone : lane (g.reg inheritedCtx.lanes (3 : BitVec 5).toNat) 0 = 1 := by
    rw [show (u.cell 0 0).firing = some g from hg] at hlane
    exact Option.some.inj hlane
  have hzero := hlanes 0 (by decide)
  rw [if_pos (by decide), hone] at hzero
  exact absurd (hzero 0 (by decide)) (by decide)

end Sys2Proof.Machine
